-- ==== Sys2Proof/Word.lean ====
section
/-! DEFINITION. The plain word types of the block (R4: bits numbered from 0, little-endian in memory). -/
namespace Sys2Proof

/-- One byte, the unit of every address space of the block (R470). -/
abbrev Byte := BitVec 8

/-- One 64-bit register word (R458). -/
abbrev Word := BitVec 64

end Sys2Proof
end

