-- ==== Sys2Proof/Syntax.lean ====
section
/-! DEFINITION. The commands the block takes: one constructor of `Instr` per row of spec/opcode_table.json, with the
operands this model gives it (the table gives none; log 11). -/
namespace Sys2Proof

/-- A queue, 4n + j (R269). -/
abbrev QIx := Fin 64
/-- A context (R295). -/
abbrev CIx := Fin 16
/-- A global array number (R12). -/
abbrev AIx := Fin 32
/-- A core (R11). -/
abbrev KIx := Fin 8
/-- A drawing or draining unit: 0–31 arrays, 32 + 2c + h thin half h of core c, 48 + c fusion unit of core c. -/
abbrev UIx := Fin 56
/-- A stack (R313). -/
abbrev SIx := Fin 24
/-- A root port (R344). -/
abbrev PIx := Fin 4
/-- A position code of R358 as sender or receiver of a hop: 0–7 board positions, 8 the network interface. -/
abbrev HIx := Fin 9

/-- Where a SERVICE command comes from (R400): a packet of a queue, or the run SERVICE_CMD has started. -/
inductive SvcSrc where
  | packet (q : QIx)
  | register
  deriving DecidableEq, Repr, Inhabited

/-- A physical upset that an array step meets (R122, R176, R384). `groupDiff` adds `delta` to the block partial of one
column of a group (column 256 is the ward column). -/
inductive ArrayUpset where
  | groupDiff (group col : Nat) (delta : Int)
  | parity (group : Nat)
  | residueCombine
  | residueTun
  | tunDouble
  deriving DecidableEq, Repr

/-- A physical upset that a thin step meets (R254, R255). -/
inductive ThinUpset where
  | groupDiff (group : Nat) (delta : Int)
  | parity
  | accDouble (group row : Nat)
  | residue (group : Nat)
  deriving DecidableEq, Repr

/-- A physical upset of a drain's row (R176, R384). -/
inductive DrainUpset where
  | tunDouble
  | accDouble (group : Nat)
  | residue
  deriving DecidableEq, Repr

/-- A shared-cache upset: an uncorrectable word in a duplicated structure, a clean line or a dirty line (R385), or a residue that the
next long-word add into a line fails (R384). One in a line that the access does not touch waits for the access that does. -/
inductive CacheUpset where
  | duplicated (addr : Nat)
  | clean (addr : Nat)
  | dirty (addr : Nat)
  | residue (addr : Nat)
  deriving DecidableEq, Repr

/-- What a prefetch read meets: an upset of the shared cache it goes through, and an uncorrectable stage word at a byte offset, met as
the buffer fills (R135, R385). -/
structure ReadUpset where
  cache : Option CacheUpset
  stage : Option Nat
  deriving DecidableEq, Repr

/-- Where a prefetch read's bytes go (R132). -/
inductive StageArea where
  | weight | activation | side
  deriving DecidableEq, Repr, Inhabited

/-- What the scrubber of stage memory and the shared cache meets (R429): a shared-cache word, or a stage word of an array in
buffer `i` of an area, at a byte offset of stage memory. -/
inductive ScrubUpset where
  | cache (u : CacheUpset)
  | stage (a : AIx) (area : StageArea) (i off : Nat)
  deriving DecidableEq, Repr

/-- What a thin half's fetch brings (R253): store row m of the claim, or the weights of K-block b. -/
inductive ThinFetch where
  | store (m : Nat)
  | weights (b : Nat)
  deriving DecidableEq, Repr

/-- A stack at the end of its return, and whether it responds (R340). -/
structure StackAnswer where
  stack : SIx
  responds : Bool
  deriving DecidableEq, Repr

/-- Whose request on the host port is answered (R457). -/
inductive OutSrc where
  | command (q : QIx) (pos : Nat)
  | service
  deriving DecidableEq, Repr, Inhabited

/-- A raw block partial that the drain reads in a diagnostic pass (R124): phase 0-4 for the table's 1-5, the row whose activation
was issued, the group and slot, the logical column (256 the ward column), and the partial. -/
structure DiagRead where
  phase : Fin 5
  row : Fin 256
  group : Fin 8
  slot1 : Bool
  col : Fin 257
  value : Int
  deriving DecidableEq, Repr

/-- What the other keeper copy would decide in a sample in which two copies differ (R395, R420): its voltage request, throttle, grade
cap and alarm, its wear counters, and WRITTEN of the wear ledger's entries in order. -/
structure CopyView where
  vReq : Nat
  throttle : Nat
  gradeCap : Nat
  alarm : Bool
  sprintCs : Nat
  poweredS : Nat
  ageS : Nat
  written : List Nat
  deriving DecidableEq, Repr, Inhabited

/-- One reading of the keeper's sensors (R416, R417): 96 thermal readings in °C, four readings of the 16 rail pairs in mA
and mV, one temperature per present stack, and the pins. The last fields are what the keeper measures for R130 and R430. -/
structure Sample where
  thermal : List Int
  rails : List (List (Nat × Nat))
  stackT : List Int
  chipAlarm : Bool
  /-- a copy outvoted in this sample, and the kind of decision (R395) -/
  outvoted : Option (Fin 3 × Nat)
  /-- with two copies: what the copy that differs would decide (R395) -/
  other : CopyView
  /-- measured I_grade in 0.1 A, and the step rate in steps per µs (R130) -/
  iGrade : Nat
  rate : Nat
  deriving DecidableEq, Repr, Inhabited

/-- A far-tier module as CFG reports it (R344, R345): serial number, volatile and persistent capacity in GiB, Life Used, and the
WRITTEN, RATED_TIB of its on-module record (R350, R352); `recWritten` counts 64-byte requests (log 29). -/
structure ModuleInfo where
  serial : Nat
  volGib : Nat
  persGib : Nat
  lifeUsed : Nat
  recWritten : Nat
  recRatedTib : Nat
  deriving DecidableEq, Repr, Inhabited

/-- What stage S2 finds (R314, R432): per stack its capacity in GiB, `none` when it fails training; channels lost in
training; modules per root port; whether the mirrors pass their CRC (R450). -/
structure S2Info where
  stackGib : List (Option Nat)
  lostChannels : List (Nat × Nat)
  modules : List (Option ModuleInfo)
  wearOk : Bool
  ledgerOk : Bool
  errLogOk : Bool
  deriving DecidableEq, Repr, Inhabited

/-- The end of a start stage, with what the stage found (R432). -/
inductive StageEnd where
  /-- S0: keeper copies that agree -/
  | s0 (agree : Nat)
  /-- S1: the eFuse bank was read -/
  | s1 (readOk : Bool)
  | s2 (info : S2Info)
  /-- S3: per array the partials of R124's phases that differ from a sound array's, and thin paths that fail their self-test -/
  | s3 (reads : List (Nat × List DiagRead)) (badThin : List Nat)
  /-- S4: cores whose tun or accumulators fail, arrays whose stage memory fails, shared-cache slices that fail -/
  | s4 (badCores badStage badSlices : List Nat)
  /-- S5: which of the three cores pass, and the patch image as read (`none`: a read answered other than OK) -/
  | s5 (cpPass : List Bool) (image : Option (List Byte))
  | s6
  deriving DecidableEq, Repr

/-- A CFG response (R344, R463). -/
inductive CfgResp where
  | serial (v : Nat)
  | identify (volGib persGib : Nat)
  | health (lifeUsed : Nat)
  deriving DecidableEq, Repr

/-- A CXL.mem response to one 64-byte request of a transfer (R463): Cmp of a write, or MemData of a read. -/
inductive CxlResp where
  | cmp
  | memData (poison : Bool)
  deriving DecidableEq, Repr

/-- What wakes the block from IDLE (R428). -/
inductive WakeSrc where
  | registerWrite (offset : Nat) (value : Word)
  | doorbell (q : QIx) (value : Word)
  | frame
  deriving DecidableEq, Repr

/-- The commands of the block: one constructor per row of spec/opcode_table.json, in the table's order. -/
inductive Instr where
  | nop (q : QIx)
  | fence (q : QIx)
  | fenceRelease (q : QIx)
  | signal (q : QIx)
  | wait (q : QIx)
  | waitSatisfied (q : QIx)
  | stepSet (q : QIx)
  | matmul (q : QIx)
  | matvec (q : QIx)
  | gatherMatmul (q : QIx)
  | segmentSum (q : QIx)
  | combine (q : QIx)
  | finish (q : QIx)
  | scaleScan (q : QIx)
  | copy (q : QIx)
  | fill (q : QIx)
  | frameSend (q : QIx)
  | frameRecv (q : QIx)
  | frameCombine (q : QIx)
  | maxExchange (q : QIx)
  | spill (q : QIx)
  | reload (q : QIx)
  | tunSave (q : QIx)
  | tunRestore (q : QIx)
  | tunRestoreBind (q : QIx)
  | query (q : QIx)
  | countersClear (q : QIx)
  | unknownOpcode (q : QIx)
  | spareRead (src : SvcSrc)
  | repairAdd (src : SvcSrc)
  /-- `burnOk`: which burned records read back correctly, in order (R399) -/
  | fuseBurn (src : SvcSrc) (burnOk : List Bool)
  | paritySet (src : SvcSrc)
  /-- `errors`: the 2,048 lane error counts of the run (R334) -/
  | loopback (src : SvcSrc) (errors : List Nat)
  | wearReset (src : SvcSrc)
  | farEvacuate (src : SvcSrc)
  | frameRetag (src : SvcSrc)
  | frameDiscard (src : SvcSrc)
  | quiesce (src : SvcSrc)
  | workCounterRecordFree (q : QIx)
  | ledgerRunWrite (q : QIx) (pos : Nat)
  | qDoorbellWrite (q : QIx) (value : Word)
  | qBaseWrite (q : QIx) (value : Word)
  | enable (n : CIx) (value : Word)
  | disable (n : CIx) (value : Word)
  | preempt (n : CIx) (value : Word)
  | resume (n : CIx) (value : Word)
  | disableStageEnd (n : CIx)
  | farWriteAbandon (n : CIx)
  | tunZeroComplete (n : CIx)
  | warmReset (value : Word)
  | attemptsClr (value : Word)
  | contextReset (value : Word)
  | targetIdle (value : Word)
  | targetArraysOff (value : Word)
  | targetDeep (value : Word)
  | targetActive (value : Word)
  | autoIdleExpiry
  | idleWake (src : WakeSrc)
  | powerStateReached
  | kprLimitsWrite (value : Word)
  | sprintCtrlWrite (value : Word)
  | rampLimitWrite (value : Word)
  | memResvWrite (value : Word)
  | wearLedgerIdxWrite (value : Word)
  | wearLedgerDataRead
  | ratedTibWrite (value : Word)
  | registerWrite (offset : Nat) (value : Word)
  | powerOnReset (straps : Word)
  | resetNAssert
  | resetNRelease (straps : Word)
  | railLoss
  | startStageEnd (e : StageEnd)
  | startStageTimeout
  | startRetry
  | linkDown (p : PIx)
  | moduleAttach (p : PIx) (m : ModuleInfo)
  | inboundFrame (raw : List Byte)
  | ack (raw : List Byte)
  | sync (raw : List Byte)
  | syncRequest (raw : List Byte)
  | endFrame (raw : List Byte)
  | ackSend (h : HIx)
  | frameResendTimeout (h : HIx) (fseq : Nat)
  | receiverTimeout (q : QIx) (pos : Nat)
  | hostAccessRequest (addr : Nat) (write : Bool) (beats tag : Nat) (data : List Byte) (strb : List Bool)
      (upset : Option CacheUpset)
  /-- the answer to the oldest outstanding request of its sender, with the data of a read -/
  | hostOutboundResponse (src : OutSrc) (status : Fin 4) (data : List Byte)
  | cxlResponse (q : QIx) (pos : Nat) (granule : Nat) (r : CxlResp)
  /-- `fails`: attempts of the access that met an error, 5 when the fifth fails too (R326) -/
  | phyParityError (stack : SIx) (chan : Fin 32) (fails : Nat) (addr : Nat)
  | stackUncorrectable (stack : SIx) (chan : Fin 32) (addr : Nat) (verifyOk : Bool)
  | rebuildDone
  | stripeGatherExpiry (stripe : Nat)
  | stackFenceComplete (stack : SIx)
  | stackReturnPhase1End (stack : SIx) (responds : Bool)
  | stackReturnComplete (stack : StackAnswer)
  /-- `bad`: the member the parity check finds bad, if any, as its channel and whether the rewrite verifies -/
  | patrolScrub (bad : Option (SIx × Fin 32 × Bool))
  | farWriteComplete (q : QIx) (pos : Nat) (granule : Nat)
  | keeperSample (x : Sample)
  | voltageStep
  | sprintContinuousLimit
  | throttleClear
  | stackLevelFall (stack : SIx)
  | voltageMonitorAlarm
  | sensorFailed (sensor : Fin 96)
  /-- `vMeas`, `tStack`: readings taken at the record, else those of the latest sample stand; `workSteps`, `fillerSteps`: steps since
  the last record that were no row of their own (R430) -/
  | telemetryRecord (vMeas : Option Nat) (tStack : Option Int) (workSteps fillerSteps : Nat)
  | wearMirror
  /-- `margin`: the delay margin of the core can be met (R429) -/
  | delayMarginCalibration (c : KIx) (margin : Bool)
  | gradeInterval (c : KIx)
  | holdWindowExpiry (c : KIx)
  | tunScrub (c : KIx) (double : Bool)
  | tunScrubForced (c : KIx) (slot : Fin 32) (double : Bool)
  | stageScrub (upset : Option ScrubUpset)
  | draw (u : UIx)
  | mailboxTake (u : UIx)
  | prefetchReadReturn (a : AIx) (area : StageArea) (addr len : Nat) (upset : ReadUpset)
  /-- `double`: an uncorrectable stage word of an area at this byte offset, met by the vector or by a weight row (R135) -/
  | feederVectorRead (a : AIx) (double : Option (StageArea × Nat))
  | arrayStep (a : AIx) (upset : Option ArrayUpset)
  | thinStep (half : Fin 16) (upset : Option ThinUpset)
  | drainRowGrant (c : KIx) (upset : Option DrainUpset)
  /-- `residue`: the shared-cache adder's residue check fails (R384) -/
  | doneAction (u : UIx) (residue : Bool)
  | speculativeCopy (a : AIx)
  | replyWrite (q : QIx) (pos : Nat)
  /-- `reads`: the partials that differ from a sound array's (R124) -/
  | diagnosticPassEnd (a : AIx) (reads : List DiagRead)
  | granuleComplete (q : QIx) (pos : Nat) (granule : Nat)
  /-- `unit`: 0–3 array, 4 sequencer, 5 fusion unit, 6 thin path (R404) -/
  | watchdogStall (c : KIx) (unit : Fin 7)
  | cpLockstepMismatch (addr : Nat)
  | switchoverResume
  | cpSelftestEnd (pass0 pass1 : Bool)
  /-- `reads`: the partials that differ from a sound array's (R124, R468) -/
  | abist (a : AIx) (reads : List DiagRead)
  | mbist (mem : Nat) (pass : Bool)
  | fusePgm (bits : Nat)
  | fuseRead
  | status
  | wsBypass
  | wsExtest
  | wsIntest
  | wsSafe
  | testEnFall
  | reservedSubcode (src : SvcSrc)
  | cfgResponse (p : PIx) (r : CfgResp)
  | peerLinkUp (i : Fin 8) (up : Bool)
  | extraInputStreamArrival (u : UIx) (stream : Fin 3) (row : Nat)
  | thinFetchArrival (half : Fin 16) (f : ThinFetch)
  deriving DecidableEq, Repr

end Sys2Proof
end

