-- ==== Sys2Proof/Machine/Bits.lean ====
section
/-! DEFINITION. Bit fields, byte order and small integer helpers (R4). Structures of the manual are read as one number
whose bit i is bit i of its table, so that a field [hi:lo] is cut exactly as the table writes it. -/
namespace Sys2Proof.Machine

/-- The field [hi:lo] of `w` (R4). -/
def bitsOf (w hi lo : Nat) : Nat := (w >>> lo) % 2 ^ (hi + 1 - lo)

/-- Bit `i` of `w` (R4). -/
def bitOf (w i : Nat) : Bool := (w >>> i) % 2 == 1

/-- `v` placed at bit `lo`, cut to `width` bits (R4). -/
def putBits (v width lo : Nat) : Nat := (v % 2 ^ width) <<< lo

/-- A Bool as a bit. -/
def bit (b : Bool) : Nat := if b then 1 else 0

/-- `w` read as a `width`-bit two's-complement number (R6). -/
def toSigned (w width : Nat) : Int :=
  let x := w % 2 ^ width
  if x ≥ 2 ^ (width - 1) then (x : Int) - (2 ^ width : Nat) else x

/-- The `width`-bit two's-complement code of `i` (R6: arithmetic wraps). -/
def ofSigned (i : Int) (width : Nat) : Nat := (i % ((2 ^ width : Nat) : Int)).toNat

/-- Little-endian bytes read as one number (R4). -/
def leNat : List Byte → Nat
  | [] => 0
  | b :: bs => b.toNat + 256 * leNat bs

/-- The `n` little-endian bytes of `w` (R4). -/
def natLe (w : Nat) : Nat → List Byte
  | 0 => []
  | n + 1 => BitVec.ofNat 8 w :: natLe (w / 256) n

/-- ⌈a / b⌉, as the manual's tile and block counts use it. -/
def ceilDiv (a b : Nat) : Nat := (a + b - 1) / b

/-- ⌊log2 m⌋ for m ≠ 0, and 0 for m = 0 (R85, R91, R97). -/
def flog2 (m : Nat) : Nat := Nat.log2 m

/-- `m * 2^d` for d ≥ 0 and ⌊m / 2^-d⌋ otherwise. -/
def shiftZ (m : Nat) (d : Int) : Nat :=
  if 0 ≤ d then m <<< d.toNat else m >>> (-d).toNat

/-- `[lo, lo + 1, …]`, `n` numbers. -/
def rangeFrom (lo : Nat) : Nat → List Nat
  | 0 => []
  | n + 1 => lo :: rangeFrom (lo + 1) n

/-- A 32-bit counter saturates at 0xFFFF_FFFF (R93). -/
def sat32 (n : Nat) : Nat := min n 0xFFFFFFFF

/-- A 64-bit total saturates at 2^64 - 1 (R289). -/
def sat64 (n : Nat) : Nat := min n (2 ^ 64 - 1)

/-- The ⊔ of a list of integers, `none` for the empty list. -/
def maxInt : List Int → Option Int
  | [] => none
  | x :: xs => match maxInt xs with
    | none => some x
    | some y => some (max x y)

/-- `mix` of R87 (also the checksum's, R173): multiplications modulo 2^64. -/
def mix64 (x : Word) : Word :=
  let x := (x ^^^ (x >>> 30)) * 0xBF58476D1CE4E5B9#64
  let x := (x ^^^ (x >>> 27)) * 0x94D049BB133111EB#64
  x ^^^ (x >>> 31)

/-- CRC-32C over bytes, reflected polynomial of 0x1EDC_6F41, before the final XOR (R362). -/
def crc32cStep : Nat → BitVec 32 → BitVec 32
  | 0, c => c
  | n + 1, c =>
    crc32cStep n (if c.getLsbD 0 then (c >>> 1) ^^^ 0x82F63B78#32 else c >>> 1)

/-- The running CRC-32C of R362. -/
def crc32cGo : List Byte → BitVec 32 → BitVec 32
  | [], c => c
  | b :: bs, c => crc32cGo bs (crc32cStep 8 (c ^^^ b.setWidth 32))

/-- CRC-32C with initial value and final XOR 0xFFFF_FFFF (R362). -/
def crc32c (bs : List Byte) : BitVec 32 := crc32cGo bs 0xFFFFFFFF#32 ^^^ 0xFFFFFFFF#32

/-- Bits of a list of flags. -/
def maskOf (l : List Bool) : Nat := (l.zipIdx).foldl (fun a x => a + bit x.1 <<< x.2) 0

end Sys2Proof.Machine
end

