-- ==== Sys2Proof/Machine/LongWord.lean ====
section
/-! DEFINITION. The 128-bit long word and its addition ⊕ (R44 to R47, R64, R65). -/
namespace Sys2Proof.Machine

/-- The class of a long word or of a chain float value (R44). -/
inductive Cls where
  | finite | posInf | negInf | nan
  deriving DecidableEq, Repr, Inhabited

/-- The class code in bits [127:126] (R44). -/
def Cls.code : Cls → Nat
  | .finite => 0 | .posInf => 1 | .negInf => 2 | .nan => 3

/-- The class of a 2-bit code (R44). -/
def clsOfCode (c : Nat) : Cls :=
  match c % 4 with
  | 0 => .finite | 1 => .posInf | 2 => .negInf | _ => .nan

/-- How classes combine under ⊕ (R65). -/
def clsJoin : Cls → Cls → Cls
  | .finite, y => y
  | x, .finite => x
  | .posInf, .posInf => .posInf
  | .negInf, .negInf => .negInf
  | _, _ => .nan

/-- A long word: its class, and its 126-bit two's-complement value, 0 unless FINITE (R44, R45). -/
structure LW where
  cls : Cls
  val : BitVec 126
  deriving DecidableEq, Repr, Inhabited

/-- The FINITE zero. -/
def lwZero : LW := ⟨.finite, 0⟩

/-- The long word of a class, value bits zero (R45). -/
def lwOfCls (c : Cls) : LW := ⟨c, 0⟩

/-- The long word of an integer count of units of 2^A, modulo 2^126 (R44). -/
def lwOfInt (i : Int) : LW := ⟨.finite, BitVec.ofInt 126 i⟩

/-- ⊕ of R64: the class table of R65, and the sum modulo 2^126 when the class is FINITE. -/
def lwAdd (x y : LW) : LW :=
  match clsJoin x.cls y.cls with
  | .finite => ⟨.finite, x.val + y.val⟩
  | c => ⟨c, 0⟩

/-- ⊕ over a list, from the FINITE zero (R66, R69). -/
def lwSum : List LW → LW
  | [] => lwZero
  | x :: xs => lwAdd x (lwSum xs)

/-- The 128-bit code of a long word (R44, R45). -/
def lwCode (x : LW) : Nat := x.cls.code * 2 ^ 126 + (if x.cls = .finite then x.val.toNat else 0)

/-- A 128-bit code read as a long word; a class other than FINITE drops bits [125:0] (R45). -/
def lwDecode (w : Nat) : LW :=
  let c := clsOfCode (bitsOf w 127 126)
  ⟨c, if c = .finite then BitVec.ofNat 126 w else 0⟩

/-- The sixteen little-endian bytes of a long word (R47). -/
def lwBytes (x : LW) : List Byte := natLe (lwCode x) 16

end Sys2Proof.Machine
end

