-- ==== Sys2Proof/Machine/Formats.lean ====
section
/-! DEFINITION. Element and scale formats (02_element_formats.md): codes, exact values, grid integers, packing,
L_pair and P_top. -/
namespace Sys2Proof.Machine

/-- The formats of R24. -/
inductive Fmt where
  | e4m3 | e5m2 | e3m2 | e2m3 | e2m1 | mxint8 | bf16 | fp16 | fp32 | long | grad16
  deriving DecidableEq, Repr, Inhabited

/-- The 4-bit code of a format (R24). -/
def Fmt.code : Fmt → Nat
  | .e4m3 => 0 | .e5m2 => 1 | .e3m2 => 2 | .e2m3 => 3 | .e2m1 => 4 | .mxint8 => 5
  | .bf16 => 6 | .fp16 => 7 | .fp32 => 8 | .long => 9 | .grad16 => 10

/-- The format of a code; 0xB to 0xF are reserved (R24). -/
def fmtOfCode : Nat → Option Fmt
  | 0 => some .e4m3 | 1 => some .e5m2 | 2 => some .e3m2 | 3 => some .e2m3 | 4 => some .e2m1
  | 5 => some .mxint8 | 6 => some .bf16 | 7 => some .fp16 | 8 => some .fp32 | 9 => some .long
  | 10 => some .grad16 | _ => none

/-- The six MX formats (R25). -/
def Fmt.isMx : Fmt → Bool
  | .e4m3 | .e5m2 | .e3m2 | .e2m3 | .e2m1 | .mxint8 => true
  | _ => false

/-- The wide formats (R25). -/
def Fmt.isWide : Fmt → Bool
  | .bf16 | .fp16 | .fp32 => true
  | _ => false

/-- Formats with a separate scale array: MX, and GRAD16 (R34, R48). -/
def Fmt.hasScale (f : Fmt) : Bool := f.isMx || f == .grad16

/-- Element width in bits (R28, R38, R44, R48). -/
def Fmt.bits : Fmt → Nat
  | .e4m3 | .e5m2 | .mxint8 => 8
  | .e3m2 | .e2m3 => 6
  | .e2m1 => 4
  | .bf16 | .fp16 | .grad16 => 16
  | .fp32 => 32
  | .long => 128

/-- Exponent field width, fraction field width and bias of a floating format (R28, R38). -/
def Fmt.emb : Fmt → Nat × Nat × Nat
  | .e4m3 => (4, 3, 7) | .e5m2 => (5, 2, 15) | .e3m2 => (3, 2, 3) | .e2m3 => (2, 3, 1)
  | .e2m1 => (2, 1, 1) | .bf16 => (8, 7, 127) | .fp16 => (5, 10, 15) | .fp32 => (8, 23, 127)
  | _ => (0, 0, 0)

/-- Exponent of the smallest step (R28): 1 - B - m for a floating format. -/
def Fmt.stepExp : Fmt → Int
  | .e4m3 => -9 | .e5m2 => -16 | .e3m2 => -4 | .e2m3 => -3 | .e2m1 => -1 | .mxint8 => -6
  | .bf16 => -133 | .fp16 => -24 | .fp32 => -149 | .grad16 => -14 | .long => 0

/-- emax_elem of R28, and 0 for GRAD16 (R48). -/
def Fmt.emaxElem : Fmt → Int
  | .e4m3 => 8 | .e5m2 => 15 | .e3m2 => 4 | .e2m3 => 2 | .e2m1 => 2 | _ => 0

/-- max|x| of R28 in grid integers. -/
def Fmt.maxGrid : Fmt → Nat
  | .e4m3 => 0x38000 | .e5m2 => 0xE0000000 | .e3m2 => 0x1C0 | .e2m3 => 0x3C | .e2m1 => 0xC
  | .mxint8 => 0x80 | _ => 0

/-- An exact value: a class, and for FINITE the number (-1)^neg * m * 2^e (R83). -/
structure XV where
  cls : Cls
  neg : Bool
  m : Nat
  e : Int
  deriving DecidableEq, Repr, Inhabited

/-- The exact value +0. -/
def xvZero : XV := ⟨.finite, false, 0, 0⟩

/-- The exact value of a special class. -/
def xvOfCls (c : Cls) : XV := ⟨c, c == .negInf, 0, 0⟩

/-- The exact NaN. -/
def xvNan : XV := xvOfCls .nan

/-- x * 2^k. -/
def XV.scale (x : XV) (k : Int) : XV := { x with e := x.e + k }

/-- Special codes of the floating formats (R30, R38): `some c` for ±∞ and NaN. -/
def specialOf (f : Fmt) (code : Nat) : Option Cls :=
  match f with
  | .e4m3 => if code % 128 = 0x7F then some .nan else none
  | .e5m2 | .bf16 | .fp16 | .fp32 =>
    let (eb, mb, _) := f.emb
    let ef := (code >>> mb) % 2 ^ eb
    if ef = 2 ^ eb - 1 then
      if code % 2 ^ mb = 0 then some (if bitOf code (eb + mb) then .negInf else .posInf)
      else some .nan
    else none
  | _ => none

/-- Value of an element code as a number, without block scale (R29, R32, R38, R48). -/
def decodeElem (f : Fmt) (code : Nat) : XV :=
  match f with
  | .mxint8 | .grad16 =>
    let i := toSigned code f.bits
    ⟨.finite, decide (i < 0), i.natAbs, f.stepExp⟩
  | .long =>
    let w := lwDecode code
    ⟨w.cls, decide (w.val.toInt < 0), w.val.toInt.natAbs, 0⟩
  | _ =>
    match specialOf f code with
    | some c => xvOfCls c
    | none =>
      let (eb, mb, _) := f.emb
      let ef := (code >>> mb) % 2 ^ eb
      let ff := code % 2 ^ mb
      ⟨.finite, bitOf code (eb + mb), if ef = 0 then ff else 2 ^ mb + ff,
        if ef = 0 then f.stepExp else f.stepExp + ((ef : Int) - 1)⟩

/-- The unbiased scale of an E8M0 code; `none` for 0xFF, NaN (R27). -/
def scaleOf (c : Nat) : Option Int := if c % 256 = 255 then none else some ((c % 256 : Nat) - 127 : Int)

/-- Value of an MX or GRAD16 element under its block scale; a NaN scale gives NaN (R78, R150). -/
def decodeScaled (f : Fmt) (code scale : Nat) : XV :=
  match scaleOf scale with
  | none => xvNan
  | some s => (decodeElem f code).scale s

/-- Bit position, in bits from the row's start, of element i of a packed run (R33). -/
def posBits (f : Fmt) (i : Nat) : Nat := i * f.bits

/-- pos(i) of R33 and R214 for formats whose elements are whole bytes; for packed formats the byte that holds the
element's lowest bit. -/
def posByte (f : Fmt) (i : Nat) : Nat := posBits f i / 8

/-- Bytes that element i of a run touches: first byte offset and count (R33). -/
def elemSpan (f : Fmt) (i : Nat) : Nat × Nat :=
  let lo := posBits f i / 8
  let hi := (posBits f i + f.bits - 1) / 8
  (lo, hi + 1 - lo)

/-- Element i cut out of the little-endian number of the bytes it touches (R33). -/
def cutElem (f : Fmt) (i : Nat) (bytes : Nat) : Nat := (bytes >>> (posBits f i % 8)) % 2 ^ f.bits

/-- Bytes of a run of n elements from a row's start (R33, R42). -/
def runBytes (f : Fmt) (n : Nat) : Nat := ceilDiv (n * f.bits) 8

/-- Size in bytes for alignment: wide elements and long words lie on a multiple of it (R35, R47). -/
def Fmt.alignBytes : Fmt → Nat
  | .bf16 | .fp16 => 2
  | .fp32 => 4
  | .long => 16
  | _ => 1

/-- L_pair of an MX pair (R39). -/
def lPairMx (a b : Fmt) : Int := a.stepExp + b.stepExp

/-- ⌈log2 n⌉ for n ≥ 1. -/
def clog2 (n : Nat) : Nat := if n ≤ 1 then 0 else flog2 (n - 1) + 1

/-- P_top (R40; R105 for wide pairs): ⌈log2(32 max|a| max|b|)⌉. -/
def pTop (a b : Fmt) : Int :=
  if a.isMx && b.isMx then (clog2 (32 * a.maxGrid * b.maxGrid) : Int) + lPairMx a b else 8

/-- The SCAN anchor of R54. -/
def scanAnchor (sa sb : Int) (a b : Fmt) : Int := sa + sb + pTop a b - 93

end Sys2Proof.Machine
end

