-- ==== Sys2Proof/Machine/Rounding.lean ====
section
/-! DEFINITION. The single rounding into an output format, special classes on output, stochastic bits, overflow,
underflow and MX/GRAD16 block scales (04_specials_rounding.md, R84 to R92). -/
namespace Sys2Proof.Machine

/-- ROUND_MODE of R76. -/
inductive RoundMode where
  | rne | rtz | stoch
  deriving DecidableEq, Repr, Inhabited

/-- ROUND_MODE codes; 0b11 is reserved (R76). -/
def roundModeOf : Nat → Option RoundMode
  | 0 => some .rne | 1 => some .rtz | 2 => some .stoch | _ => none

/-- What one element's rounding adds to the counters 2 to 4 (R94: at most one). -/
inductive Tally where
  | none | sat | lost | uflow
  deriving DecidableEq, Repr, Inhabited

/-- p, emin and fixed q of R85 (`none`: a floating format). -/
structure RParams where
  p : Int
  emin : Int
  fixedQ : Option Int
  deriving DecidableEq, Repr

/-- The output rounding parameters of R85. -/
def rparams : Fmt → RParams
  | .fp32 => ⟨24, -126, .none⟩ | .bf16 => ⟨8, -126, .none⟩ | .fp16 => ⟨11, -14, .none⟩
  | .e4m3 => ⟨4, -6, .none⟩ | .e5m2 => ⟨3, -14, .none⟩ | .e3m2 => ⟨3, -2, .none⟩
  | .e2m3 => ⟨4, 0, .none⟩ | .e2m1 => ⟨2, 0, .none⟩
  | .mxint8 => ⟨0, 0, some (-6)⟩ | .grad16 => ⟨0, 0, some (-14)⟩ | .long => ⟨0, 0, some 0⟩

/-- lim of R85, the largest finite magnitude, as m * 2^e. -/
def limOf : Fmt → Nat × Int
  | .fp32 => (2 ^ 24 - 1, 104) | .bf16 => (2 ^ 8 - 1, 120) | .fp16 => (65504, 0)
  | .e4m3 => (448, 0) | .e5m2 => (57344, 0) | .e3m2 => (28, 0) | .e2m3 => (15, -1) | .e2m1 => (6, 0)
  | .mxint8 => (127, -6) | .grad16 => (32767, -14) | .long => (2 ^ 125 - 1, 0)

/-- Formats that hold infinities (R42). -/
def Fmt.hasInf : Fmt → Bool
  | .e5m2 | .bf16 | .fp16 | .fp32 => true
  | _ => false

/-- a * 2^x > b * 2^y, exactly. -/
def gtPow (a : Nat) (x : Int) (b : Nat) (y : Int) : Bool :=
  let k := min x y
  decide (a * 2 ^ (x - k).toNat > b * 2 ^ (y - k).toNat)

/-- `round_mag` of R86: n and q with the rounded magnitude n * 2^q; `u` is the 16 bits of R87. -/
def roundMag (m : Nat) (e : Int) (f : Fmt) (mode : RoundMode) (u : Nat) : Nat × Int :=
  let r := rparams f
  let q : Int := match r.fixedQ with
    | some q => q
    | none => max ((flog2 m : Int) + e) r.emin - r.p + 1
  let d := q - e
  if d ≤ 0 then (m <<< (-d).toNat, q)
  else if d > 141 then (0, q)
  else
    let k := d.toNat
    let n := m >>> k
    let rem := m - (n <<< k)
    let h := 1 <<< (k - 1)
    let t := (rem <<< 16) >>> k
    let up := match mode with
      | .rne => decide (rem > h) || (decide (rem = h) && decide (n % 2 = 1))
      | .rtz => false
      | .stoch => decide (t + u ≥ 0x10000)
    (n + bit up, q)

/-- Code of the largest finite value of a sign (R30, R38, R84). -/
def maxFiniteCode (f : Fmt) (neg : Bool) : Nat :=
  match f with
  | .fp32 => if neg then 0xFF7FFFFF else 0x7F7FFFFF
  | .bf16 => if neg then 0xFF7F else 0x7F7F
  | .fp16 => if neg then 0xFBFF else 0x7BFF
  | .e5m2 => if neg then 0xFB else 0x7B
  | .e4m3 => if neg then 0xFE else 0x7E
  | .e3m2 | .e2m3 => if neg then 0x3F else 0x1F
  | .e2m1 => if neg then 0xF else 0x7
  | .mxint8 => if neg then 0x81 else 0x7F
  | .grad16 => if neg then 0x8001 else 0x7FFF
  | .long => 0

/-- Special classes on output: the code, and whether the class is lost (R84). -/
def specialCode (f : Fmt) (c : Cls) : Nat × Tally :=
  match f, c with
  | .fp32, .nan => (0x7FC00000, .none) | .fp32, .posInf => (0x7F800000, .none) | .fp32, .negInf => (0xFF800000, .none)
  | .bf16, .nan => (0x7FC0, .none) | .bf16, .posInf => (0x7F80, .none) | .bf16, .negInf => (0xFF80, .none)
  | .fp16, .nan => (0x7E00, .none) | .fp16, .posInf => (0x7C00, .none) | .fp16, .negInf => (0xFC00, .none)
  | .e5m2, .nan => (0x7E, .none) | .e5m2, .posInf => (0x7C, .none) | .e5m2, .negInf => (0xFC, .none)
  | .e4m3, .nan => (0x7F, .none)
  | .long, c => (lwCode (lwOfCls c), .none)
  | f, .negInf => (maxFiniteCode f true, .lost)
  | f, _ => (maxFiniteCode f false, .lost)

/-- The sign bit of a format with signed zeros, placed (R31, R90). -/
def signBit (f : Fmt) (neg : Bool) : Nat :=
  match f with
  | .mxint8 | .grad16 | .long => 0
  | _ => if neg then 2 ^ (f.bits - 1) else 0

/-- The code of sign and magnitude n * 2^q, n not above the format's range (R28, R38, R48). -/
def packMag (f : Fmt) (neg : Bool) (n : Nat) (q : Int) : Nat :=
  match f with
  | .mxint8 | .grad16 | .long => ofSigned (if neg then -(n : Int) else n) f.bits
  | _ =>
    let (_, mb, _) := f.emb
    let (n, q) := if n = 2 ^ (mb + 1) then (n / 2, q + 1) else (n, q)
    -- R85's q is at least the subnormal step, whose exponent field is 1 (with a hidden bit) or 0
    let ef := if n < 2 ^ mb then 0 else (q - f.stepExp + 1).toNat
    signBit f neg + ef * 2 ^ mb + n % 2 ^ mb

/-- Result of rounding one element: its code, and what it adds to a counter. -/
structure Rounded where
  code : Nat
  tally : Tally
  deriving DecidableEq, Repr, Inhabited

/-- How a value beyond the range is treated: R89, or R92 for an MX block whose scale was not clamped. -/
inductive OvfRule where
  | counted | quiet
  deriving DecidableEq, Repr

/-- Rounds an exact value (already divided by the block scale, where there is one) into `f` (R84 to R90, R92).
`ieee` is OVF_MODE; `ovf` and `uf` say whether overflow and underflow are counted. -/
def roundElem (f : Fmt) (mode : RoundMode) (ieee : Bool) (u : Nat) (ovf : OvfRule) (uf : Bool) (x : XV) : Rounded :=
  match x.cls with
  | .finite =>
    if x.m = 0 then ⟨0, .none⟩
    else
      let (n, q) := roundMag x.m x.e f mode u
      let (lm, le) := limOf f
      if gtPow n q lm le then
        match ovf with
        | .quiet => ⟨maxFiniteCode f x.neg, .none⟩
        | .counted =>
          if ieee && f.hasInf && mode != .rtz then
            ⟨(specialCode f (if x.neg then .negInf else .posInf)).1, .sat⟩
          else ⟨maxFiniteCode f x.neg, .sat⟩
      else if n = 0 then ⟨signBit f x.neg, if uf then .uflow else .none⟩
      else ⟨packMag f x.neg n q, .none⟩
  | c => let (code, t) := specialCode f c; ⟨code, t⟩

/-- X = ⌊log2 |x|⌋ of a finite nonzero value (R91, R97). -/
def xvLog (x : XV) : Int := (flog2 x.m : Int) + x.e

/-- Finite and nonzero. -/
def XV.nz (x : XV) : Bool := x.cls == .finite && decide (x.m ≠ 0)

/-- The block scale of R91: unbiased scale s, and −1, 0 or 1 as it was clamped at −127, not clamped, or clamped at 127. -/
def blockScale (f : Fmt) (xs : List XV) : Int × Int :=
  match maxInt ((xs.filter XV.nz).map xvLog) with
  | none => (0, 0)
  | some x =>
    let s := x - f.emaxElem
    if s < -127 then (-127, -1) else if s > 127 then (127, 1) else (s, 0)

/-- Rounds one MX or GRAD16 block: the scale code, and the elements with their draws (R91, R92). -/
def roundBlock (f : Fmt) (mode : RoundMode) (ieee : Bool) (xs : List (XV × Nat)) : Nat × List Rounded :=
  let (s, cl) := blockScale f (xs.map (·.1))
  ((s + 127).toNat, xs.map fun (x, u) =>
    roundElem f mode ieee u (if cl = 1 then .counted else .quiet) (cl == -1) (x.scale (-s)))

/-- The 16 stochastic bits of R87. -/
def srBits (seed tag row col step : Nat) : Nat :=
  let h := mix64 (BitVec.ofNat 64 seed ^^^ BitVec.ofNat 64 (step % 2 ^ 48))
  let h := mix64 (h ^^^ BitVec.ofNat 64 (tag % 2 ^ 32))
  let h := mix64 (h ^^^ BitVec.ofNat 64 ((row % 2 ^ 32) <<< 32 ||| (col % 2 ^ 32)))
  (h >>> 48).toNat

end Sys2Proof.Machine
end

