-- ==== Sys2Proof/Machine/ChainFloat.lean ====
section
/-! DEFINITION. Chain float, the epilogue's internal format (R179 to R182), and onto_grid (R187). -/
namespace Sys2Proof.Machine

/-- A chain float value: (-1)^neg * sig * 2^(exp - 39) when FINITE; zero has sig 0 and exp 0 (R179). -/
structure CF where
  cls : Cls
  neg : Bool
  sig : Nat
  exp : Int
  deriving DecidableEq, Repr, Inhabited

/-- A zero of a sign (R179). -/
def cfZero (neg : Bool) : CF := ⟨.finite, neg, 0, 0⟩

/-- A special class; SIGN, SIG and EXP zero (R182). -/
def cfOfCls (c : Cls) : CF := ⟨c, false, 0, 0⟩

/-- The infinity of a sign. -/
def cfInf (neg : Bool) : CF := cfOfCls (if neg then .negInf else .posInf)

/-- Chain float NaN. -/
def cfNan : CF := cfOfCls .nan

/-- Chain float 1. -/
def cfOne : CF := ⟨.finite, false, 2 ^ 39, 0⟩

/-- Rounds the magnitude m * 2^e, plus a nonzero amount below one unit of m when `sticky`, to 40 bits under RNE,
with the range rules of R180. -/
def cfRound (neg : Bool) (m : Nat) (e : Int) (sticky : Bool) : CF :=
  if m = 0 then cfZero neg
  else
    -- widen first, so that the sticky amount lies below the guard bit
    let (m, e) := if m < 2 ^ 44 then (m * 2 ^ 44, e - 44) else (m, e)
    let k := flog2 m - 39
    let n := m >>> k
    let rem := m - (n <<< k)
    let h := 1 <<< (k - 1)
    let up := decide (rem > h) || (decide (rem = h) && (sticky || decide (n % 2 = 1)))
    let n := n + bit up
    let ex := e + k + 39
    let (n, ex) := if n = 2 ^ 40 then (2 ^ 39, ex + 1) else (n, ex)
    if ex > 511 then cfInf neg
    else if ex < -512 then cfZero neg
    else ⟨.finite, neg, n, ex⟩

/-- The exact value of a chain float value. -/
def CF.xv (x : CF) : XV :=
  match x.cls with
  | .finite => ⟨.finite, x.neg, x.sig, x.exp - 39⟩
  | c => xvOfCls c

/-- An exact value rounded to chain float (R180). -/
def cfOfXv (x : XV) : CF :=
  match x.cls with
  | .finite => cfRound x.neg x.m x.e false
  | c => cfOfCls c

/-- The exact value of a long word at anchor A (R44). -/
def lwXv (x : LW) (A : Int) : XV :=
  match x.cls with
  | .finite => ⟨.finite, decide (x.val.toInt < 0), x.val.toInt.natAbs, A⟩
  | c => xvOfCls c

/-- Long word to chain float (R180). -/
def cfOfLong (x : LW) (A : Int) : CF := cfOfXv (lwXv x A)

/-- An unsigned integer in chain float (R151: COUNT is exact). -/
def cfOfNat (n : Nat) : CF := cfRound false n 0 false

/-- An FP32 code in chain float, exact (R180). -/
def cfOfFp32 (w : Nat) : CF := cfOfXv (decodeElem .fp32 w)

/-- Negation. -/
def cfNeg (x : CF) : CF :=
  match x.cls with
  | .finite => { x with neg := !x.neg }
  | .posInf => cfOfCls .negInf
  | .negInf => cfOfCls .posInf
  | .nan => x

/-- Addition (R180, R181). -/
def cfAdd (x y : CF) : CF :=
  match clsJoin x.cls y.cls with
  | .finite =>
    if x.sig = 0 ∧ y.sig = 0 then cfZero (x.neg && y.neg)
    else
      let ex := if x.sig = 0 then y.exp else x.exp
      let ey := if y.sig = 0 then x.exp else y.exp
      let k := min ex ey
      let a : Int := (x.sig <<< (ex - k).toNat : Nat)
      let b : Int := (y.sig <<< (ey - k).toNat : Nat)
      let s := (if x.neg then -a else a) + (if y.neg then -b else b)
      if s = 0 then cfZero false else cfRound (decide (s < 0)) s.natAbs (k - 39) false
  | c => cfOfCls c

/-- Subtraction. -/
def cfSub (x y : CF) : CF := cfAdd x (cfNeg y)

/-- The sign of a value, infinities included. -/
def CF.sgn (x : CF) : Bool := match x.cls with
  | .finite => x.neg | .negInf => true | _ => false

/-- Multiplication (R180, R181). -/
def cfMul (x y : CF) : CF :=
  let neg := x.sgn != y.sgn
  match x.cls, y.cls with
  | .nan, _ => cfNan
  | _, .nan => cfNan
  | .finite, .finite => if x.sig = 0 ∨ y.sig = 0 then cfZero neg
      else cfRound neg (x.sig * y.sig) (x.exp + y.exp - 78) false
  | .finite, _ => if x.sig = 0 then cfNan else cfInf neg
  | _, .finite => if y.sig = 0 then cfNan else cfInf neg
  | _, _ => cfInf neg

/-- Division (R180, R181). -/
def cfDiv (x y : CF) : CF :=
  let neg := x.sgn != y.sgn
  match x.cls, y.cls with
  | .nan, _ => cfNan
  | _, .nan => cfNan
  | .finite, .finite =>
    if y.sig = 0 then (if x.sig = 0 then cfNan else cfInf neg)
    else if x.sig = 0 then cfZero neg
    else
      let num := x.sig <<< 90
      cfRound neg (num / y.sig) (x.exp - y.exp - 90) (decide (num % y.sig ≠ 0))
  | .finite, _ => cfZero neg
  | _, .finite => cfInf neg
  | _, _ => cfNan

/-- Integer square root, `fuel` bits of result from bit `b` down. -/
def isqrtGo (n : Nat) : Nat → Nat → Nat
  | 0, r => r
  | b + 1, r => let t := r + 2 ^ b; isqrtGo n b (if t * t ≤ n then t else r)

/-- ⌊√n⌋. -/
def isqrt (n : Nat) : Nat := isqrtGo n (flog2 n / 2 + 1) 0

/-- 1/√x, correctly rounded (R151); the sign of a zero passes to the infinity, and a negative x gives NaN as IEEE 754
has it (R181). -/
def cfRsqrt (x : CF) : CF :=
  match x.cls with
  | .nan => cfNan
  | .posInf => cfZero false
  | .negInf => cfNan
  | .finite =>
    if x.sig = 0 then cfInf x.neg
    else if x.neg then cfNan
    else
      let t := x.exp - 39
      -- x = s * 2^t'; t' even
      let (s, t) := if t % 2 = 0 then (x.sig, t) else (x.sig * 2, t - 1)
      let num := 2 ^ 220
      let r := isqrt (num / s)
      cfRound false r (-110 - t / 2) (decide (r * r * s ≠ num))

/-- x < y for finite values or infinities, zeros equal (R194 refines it for the maximum). -/
def xvLt (x y : XV) : Bool :=
  match x.cls, y.cls with
  | .nan, _ => false
  | _, .nan => false
  | .negInf, .negInf => false
  | .negInf, _ => true
  | _, .negInf => false
  | .posInf, _ => false
  | _, .posInf => true
  | .finite, .finite =>
    let k := min x.e y.e
    let a : Int := (x.m <<< (x.e - k).toNat : Nat)
    let b : Int := (y.m <<< (y.e - k).toNat : Nat)
    decide ((if x.neg then -a else a) < (if y.neg then -b else b))

/-- The maximum of R194: NAN wins; +∞ above every finite value, −∞ below; +0 over −0. -/
def cfMax (x y : CF) : CF :=
  if x.cls = .nan ∨ y.cls = .nan then cfNan
  else if xvLt x.xv y.xv then y
  else if xvLt y.xv x.xv then x
  else if x.neg then y else x

/-- The 64-bit code of a stored chain float (R182). -/
def cfCode (x : CF) : Nat :=
  match x.cls with
  | .finite => putBits x.sig 40 0 + putBits (ofSigned x.exp 10) 10 40 + putBits (bit x.neg) 1 50
  | c => putBits c.code 2 51

/-- A stored chain float as the block reads it (R182). -/
def cfDecode (w : Nat) : CF :=
  match clsOfCode (bitsOf w 52 51) with
  | .finite =>
    let sig := bitsOf w 39 0
    let neg := bitOf w 50
    if sig = 0 then cfZero neg else cfRound neg sig (toSigned (bitsOf w 49 40) 10 - 39) false
  | c => cfOfCls c

/-- C_max = 2^93 - 1 (R61). -/
def cMax : Nat := 2 ^ 93 - 1

/-- `onto_grid` of R187: the contribution of an exact real on the grid 2^Ag, and whether it was clipped. -/
def ontoGrid (neg : Bool) (m : Nat) (e Ag : Int) : Int × Bool :=
  if m = 0 then (0, false)
  else
    let sh := e - Ag
    let q0 : Nat × Bool :=
      if sh ≥ 0 then (if sh > 93 ∨ m > cMax >>> sh.toNat then cMax + 1 else m <<< sh.toNat, false)
      else if -sh ≥ 256 then (0, true)
      else let q := m >>> (-sh).toNat; (q, decide (q <<< (-sh).toNat ≠ m))
    let q := if neg && q0.2 then q0.1 + 1 else q0.1
    let cl := decide (q > cMax)
    let q := if cl then cMax else q
    (if neg then -(q : Int) else q, cl)

/-- The long word an exact value adds on the grid 2^A: its class, or onto_grid (R186, R194). -/
def gridTerm (x : XV) (A : Int) : LW × Bool :=
  match x.cls with
  | .finite => let (i, c) := ontoGrid x.neg x.m x.e A; (lwOfInt i, c)
  | c => (lwOfCls c, false)

end Sys2Proof.Machine
end

