-- ==== Sys2Proof/Machine/Functions.lean ====
section
/-! DEFINITION. The functions of R150, correctly rounded to chain float. A transcendental value is formed in fixed
point with `funBits` fraction bits and rounded once as an inexact amount; that this precision separates every result
from a rounding boundary is DEDUCED, unsafe (log 12). -/
namespace Sys2Proof.Machine

/-- Fraction bits of the fixed-point evaluation (log 12). -/
def funBits : Nat := 1600

/-- 1.0 in fixed point. -/
def fxOne : Nat := 2 ^ funBits

/-- Σ (1/3)^(2n+1)/(2n+1), the series of atanh(1/3): `p` is (1/3)^(2n+1) in fixed point. -/
def atanhThird : Nat → Nat → Nat → Nat → Nat
  | 0, _, _, acc => acc
  | f + 1, n, p, acc => atanhThird f (n + 1) (p / 9) (acc + p / (2 * n + 1))

/-- ln 2 in fixed point: 2 atanh(1/3). -/
def fxLn2 : Nat := 2 * atanhThird 520 0 (fxOne / 3) 0

/-- Σ ± (1/k)^(2n+1)/(2n+1), the series of atan(1/k). -/
def atanInv (k : Nat) : Nat → Nat → Nat → Int → Int
  | 0, _, _, acc => acc
  | f + 1, n, p, acc =>
    atanInv k f (n + 1) (p / (k * k)) (if n % 2 = 0 then acc + ((p / (2 * n + 1) : Nat) : Int) else acc - ((p / (2 * n + 1) : Nat) : Int))

/-- π in fixed point: 16 atan(1/5) - 4 atan(1/239). -/
def fxPi : Nat := (16 * atanInv 5 360 0 (fxOne / 5) 0 - 4 * atanInv 239 110 0 (fxOne / 239) 0).toNat

/-- Taylor sum of e^r for 0 ≤ r < 1 in fixed point. -/
def expTaylor (r : Nat) : Nat → Nat → Nat → Nat → Nat
  | 0, _, _, acc => acc
  | f + 1, n, t, acc => expTaylor r f (n + 1) (((t * r) >>> funBits) / (n + 1)) (acc + t)

/-- e^x for x in fixed point: a pair (E, k) with e^x = E * 2^(k - funBits) and E in [1, 2) in fixed point. -/
def fxExp (x : Int) : Nat × Int :=
  let k := x / (fxLn2 : Int)
  let r := (x - k * (fxLn2 : Int)).toNat
  (expTaylor r 300 0 fxOne 0, k)

/-- A finite chain float value in fixed point, truncated towards zero; |x| must be moderate. -/
def fxOfCf (x : CF) : Int :=
  let m := shiftZ x.sig (x.exp - 39 + funBits)
  if x.neg then -(m : Int) else m

/-- The positive quotient n/d rounded once; a transcendental quotient is never exact. -/
def cfQuot (neg : Bool) (n d : Nat) (e : Int) : CF :=
  let k := 200 + flog2 d
  cfRound neg ((n <<< k) / d) (e - k) true

/-- e^x (R150, EXP). -/
def cfExp (x : CF) : CF :=
  match x.cls with
  | .nan => cfNan
  | .posInf => cfInf false
  | .negInf => cfZero false
  | .finite =>
    if x.sig = 0 then cfOne
    else if x.exp ≥ 9 then (if x.neg then cfZero false else cfInf false)
    else
      let (e, k) := fxExp (fxOfCf x)
      cfRound false e (k - funBits) true

/-- 1/(1 + e^-t) as a quotient of fixed-point numbers: numerator, denominator and a power of two, for moderate t. -/
def logistic (t : Int) : Nat × Nat × Int :=
  if t ≥ 0 then
    let (e, k) := fxExp (-t)           -- k ≤ 0
    (fxOne, fxOne + shiftZ e k, 0)
  else
    let (e, k) := fxExp t              -- e^t small: e * 2^(k - funBits), k ≤ 0
    (e, fxOne + shiftZ e k, k)

/-- x * 1/(1 + e^-t), rounded once; x finite and nonzero, t moderate. -/
def timesLogistic (x : CF) (t : Int) : CF :=
  let (n, d, k) := logistic t
  cfQuot x.neg (x.sig * n) d (x.exp - 39 + k)

/-- 1/(1 + e^-x) (R150, SIGMOID). -/
def cfSigmoid (x : CF) : CF :=
  match x.cls with
  | .nan => cfNan
  | .posInf => cfOne
  | .negInf => cfZero false
  | .finite =>
    if x.sig = 0 then ⟨.finite, false, 2 ^ 39, -1⟩
    else if x.exp ≥ 11 then (if x.neg then cfZero false else cfOne)
    else timesLogistic cfOne (fxOfCf x)

/-- x/(1 + e^-x) (R150, SILU). -/
def cfSilu (x : CF) : CF :=
  match x.cls with
  | .nan => cfNan
  | .posInf => cfInf false
  | .negInf => cfZero false
  | .finite =>
    if x.sig = 0 then x
    else if x.exp ≥ 11 then (if x.neg then cfZero true else x)
    else timesLogistic x (fxOfCf x)

/-- tanh x (R150, TANH): (e^2x - 1)/(e^2x + 1). -/
def cfTanh (x : CF) : CF :=
  match x.cls with
  | .nan => cfNan
  | .posInf => cfOne
  | .negInf => ⟨.finite, true, 2 ^ 39, 0⟩
  | .finite =>
    if x.sig = 0 then x
    else if x.exp ≥ 8 then ⟨.finite, x.neg, 2 ^ 39, 0⟩
    else
      let (e, k) := fxExp (2 * (fxOfCf { x with neg := false }))
      let y := shiftZ e k
      if y ≤ fxOne then x   -- below the fixed point's grid tanh x rounds to x
      else cfQuot x.neg (y - fxOne) (y + fxOne) 0

/-- √2 in fixed point. -/
def fxSqrt2 : Nat := isqrt (2 * fxOne * fxOne)

/-- √(2/π) in fixed point. -/
def fxSqrt2Pi : Nat := isqrt (2 * fxOne * fxOne / fxPi * fxOne)

/-- 0.5x(1 + tanh(√(2/π)(x + 0.044715x³))) (R150, GELU_TANH): x times the logistic of twice the argument. -/
def cfGeluTanh (x : CF) : CF :=
  match x.cls with
  | .nan => cfNan
  | .posInf => cfInf false
  | .negInf => cfZero false
  | .finite =>
    if x.sig = 0 then x
    else if x.exp ≥ 7 then (if x.neg then cfZero true else x)
    else
      let v := (fxOfCf { x with neg := false }).toNat
      let v2 := (v * v) >>> funBits
      let v3 := (v2 * v) >>> funBits
      let u := (2 * fxSqrt2Pi * (v + 44715 * v3 / 1000000)) >>> funBits
      timesLogistic x (if x.neg then -(u : Int) else u)

/-- Σ 2^n z^(2n+1)/(2n+1)!!: `t` is the n-th term and `z2` twice z². -/
def erfSeries (z2 : Nat) : Nat → Nat → Nat → Nat → Nat
  | 0, _, _, acc => acc
  | f + 1, n, t, acc =>
    if t = 0 then acc else erfSeries z2 f (n + 1) (((t * z2) >>> funBits) / (2 * n + 3)) (acc + t)

/-- erf(|x|/√2) in fixed point, for x² = `x2` and |x| = `v` in fixed point: 2/√π e^(-z²) Σ. -/
def fxErfHalf (v : Nat) : Nat :=
  let x2 := (v * v) >>> funBits            -- = 2 z²
  let z := (v * fxOne) / fxSqrt2
  let s := erfSeries x2 4000 0 z 0
  let (e, k) := fxExp (-((x2 / 2 : Nat) : Int))
  let c := isqrt (4 * fxOne * fxOne / fxPi * fxOne)   -- 2/√π
  shiftZ ((((c * s) >>> funBits) * e) >>> funBits) k

/-- 0.5x(1 + erf(x/√2)) (R150, GELU_ERF). -/
def cfGeluErf (x : CF) : CF :=
  match x.cls with
  | .nan => cfNan
  | .posInf => cfInf false
  | .negInf => cfZero false
  | .finite =>
    if x.sig = 0 then x
    else if x.exp ≥ 5 then (if x.neg then cfZero true else x)
    else
      let er := fxErfHalf (fxOfCf { x with neg := false }).toNat
      let w := if x.neg then fxOne - er else fxOne + er
      cfRound x.neg (x.sig * w) (x.exp - 39 - funBits - 1) true

/-- x < 0 (a zero of either sign is not). -/
def CF.isNeg (x : CF) : Bool := match x.cls with
  | .finite => x.neg && decide (x.sig ≠ 0)
  | .negInf => true
  | _ => false

/-- max(x, +0) (R150, RELU; R186). -/
def cfRelu (x : CF) : CF :=
  match x.cls with
  | .nan => cfNan
  | .negInf => cfZero false
  | .posInf => x
  | .finite => if x.neg then cfZero false else x

/-- x, or x * slope for x < 0 (R150, LRELU); at −∞ a zero slope gives +0. -/
def cfLrelu (slope x : CF) : CF :=
  match x.cls with
  | .nan => cfNan
  | .negInf => if slope.sig = 0 then cfZero false else cfMul x slope
  | _ => if x.isNeg then cfMul x slope else x

/-- The activation functions of R150, codes 0x1 to 0x9; any other code leaves x. -/
def actFn (code : Nat) (slope x : CF) : CF :=
  match code with
  | 1 => cfRelu x
  | 2 => cfLrelu slope x
  | 3 => cfGeluErf x
  | 4 => cfGeluTanh x
  | 5 => cfSilu x
  | 6 => cfSigmoid x
  | 7 => cfTanh x
  | 8 => cfExp x
  | 9 => cfMul x x
  | _ => x

end Sys2Proof.Machine
end

