-- ==== Sys2Proof/Machine/Contribution.lean ====
section
/-! DEFINITION. Delivered elements, wide operands by pieces, block partials and contributions (R50 to R66, R77 to R82,
R96 to R106, R110, R114, R115). -/
namespace Sys2Proof.Machine

/-- The class of an operand element (R77). -/
inductive ECls where
  | zero | finite | posInf | negInf | nan
  deriving DecidableEq, Repr, Inhabited

/-- The element class of an exact value (R77, R79: taken before alignment). -/
def XV.ecls (x : XV) : ECls :=
  match x.cls with
  | .finite => if x.m = 0 then .zero else .finite
  | .posInf => .posInf | .negInf => .negInf | .nan => .nan

/-- A delivered element or piece: the pair (σ, h) and the element's class; a special has σ = 0 (R110). -/
structure DElem where
  sig : Int
  h : Nat
  cls : ECls
  neg : Bool
  deriving DecidableEq, Repr, Inhabited

/-- A disabled row's latch: σ = 0 and class ZERO (R112). -/
def dZero : DElem := ⟨0, 0, .zero, false⟩

/-- The pair (σ, h) of an MX element code (R110). -/
def deliverMx (f : Fmt) (code : Nat) : DElem :=
  let x := decodeElem f code
  match x.cls with
  | .finite =>
    let s : Int := if x.neg then -(x.m : Int) else x.m
    ⟨s, (x.e - f.stepExp).toNat, x.ecls, x.neg⟩
  | _ => ⟨0, 0, x.ecls, x.neg⟩

/-- A special class delivered beside σ = 0 (R154). -/
def deliverSpecial (c : Cls) : DElem := ⟨0, 0, (xvOfCls c).ecls, c == .negInf⟩

/-- Is the format pair's pair format wide, and which (R96): MX < BF16 < FP16 < FP32. -/
def pairFmt (a b : Fmt) : Fmt :=
  if a == .fp32 || b == .fp32 then .fp32
  else if a == .fp16 || b == .fp16 then .fp16
  else if a == .bf16 || b == .bf16 then .bf16
  else .e4m3

/-- The pair format is wide (R96). -/
def pairWide (a b : Fmt) : Bool := a.isWide || b.isWide

/-- F of R96: magnitude bits of the alignment field. -/
def fieldF : Fmt → Nat
  | .bf16 => 15 | .fp16 => 23 | _ => 24

/-- Number of pieces of the alignment field (R96). -/
def pieceCount : Fmt → Nat
  | .bf16 => 2 | _ => 3

/-- An element of a mixed pair at or beyond 2^128 is delivered as an infinity (R98). -/
def mixedXv (x : XV) : XV :=
  if x.nz && decide (xvLog x ≥ 128) then xvOfCls (if x.neg then .negInf else .posInf) else x

/-- The block exponent E of R97 over the values of one K-block. -/
def blockExp (xs : List XV) : Int :=
  match maxInt ((xs.filter XV.nz).map xvLog) with
  | none => -127
  | some e => max (-127) e

/-- `align` of R100: the aligned value x on the grid of the field. -/
def alignTo (x : XV) (E : Int) (F : Nat) : Int :=
  match x.cls with
  | .finite =>
    let k := x.e + ((F : Int) - 1) - E
    let mag := if k ≥ 0 then x.m <<< k.toNat else if -k ≥ 32 then 0 else x.m >>> (-k).toNat
    if x.neg then -(mag : Int) else mag
  | _ => 0

/-- Piece i of n of an aligned value (R101): the high piece signed, the others unsigned bytes. -/
def pieceOf (x : Int) (n i : Nat) : Int :=
  let s := x / (2 ^ (8 * (n - 1 - i)) : Int)
  if i = 0 then s else s % 256

/-- Piece i of an element aligned into the field of pair format `pf` (R100, R101, R79). -/
def deliverPiece (pf : Fmt) (x : XV) (E : Int) (i : Nat) : DElem :=
  let a := alignTo x E (fieldF pf)
  ⟨pieceOf a (pieceCount pf) i, 0, x.ecls, x.neg⟩

/-- The passes of a pair's pass set as (activation piece, weight piece), weight piece outermost (R102, R103, R106). -/
def passSet (a b : Fmt) (full : Bool) : List (Nat × Nat) :=
  if !pairWide a b then [(0, 0)]
  else if pairFmt a b == .bf16 then
    if full then [(0, 0), (1, 0), (0, 1), (1, 1)] else [(0, 0), (1, 0), (0, 1)]
  else if full then [(0, 0), (1, 0), (2, 0), (0, 1), (1, 1), (2, 1), (0, 2), (1, 2), (2, 2)]
  else [(0, 0), (1, 0), (2, 0), (0, 1), (1, 1), (0, 2)]

/-- The distinct weight pieces of a pass set, ascending (R106). -/
def weightPieces (a b : Fmt) (_full : Bool) : List Nat :=
  if !pairWide a b then [0] else if pairFmt a b == .bf16 then [0, 1] else [0, 1, 2]

/-- The activation pieces paired with a weight piece, ascending (R106). -/
def actPieces (a b : Fmt) (full : Bool) (wj : Nat) : List Nat :=
  ((passSet a b full).filter fun p => p.2 == wj).map (·.1)

/-- L_pair of a pass (R39, R104). -/
def lPairPass (a b : Fmt) (i j : Nat) : Int :=
  if !pairWide a b then lPairMx a b
  else
    let pf := pairFmt a b
    8 * (2 * (pieceCount pf : Int) - 2 - i - j) - 2 * ((fieldF pf : Int) - 1)

/-- The class of a product; `nanScale` is an 0xFF scale on either side (R77, R78). `none` for FINITE or ZERO. -/
def productCls (nanScale : Bool) (a b : DElem) : Option Cls :=
  if a.cls = .nan ∨ b.cls = .nan ∨ nanScale then some .nan
  else
    let ia := a.cls = .posInf ∨ a.cls = .negInf
    let ib := b.cls = .posInf ∨ b.cls = .negInf
    if (ia ∧ b.cls = .zero) ∨ (ib ∧ a.cls = .zero) then some .nan
    else if ia ∨ ib then some (if a.neg = b.neg then .posInf else .negInf)
    else none

/-- What a cell latches (R109): the product σa σw, its shift and its special class. -/
structure CellProd where
  sig : Int
  h : Nat
  cls : Option Cls
  deriving DecidableEq, Repr, Inhabited

/-- The product of a cell (R110, R113). -/
def prodOf (a b : DElem) : CellProd := ⟨a.sig * b.sig, a.h + b.h, productCls false a b⟩

/-- The leaf of a block tree: the product shifted (R114). -/
def CellProd.leaf (x : CellProd) : Int := x.sig * ((2 ^ x.h : Nat) : Int)

/-- A block partial: the leaves summed exactly (R50, R114). -/
def treeSum (l : List CellProd) : Int := (l.map CellProd.leaf).foldl (· + ·) 0

/-- The class lane of a block tree: the special products joined (R65, R114). -/
def treeCls (l : List CellProd) : Option Cls :=
  l.foldl (fun acc x => match acc, x.cls with
    | none, c => c
    | c, none => c
    | some c, some d => some (clsJoin c d)) none

/-- The exact block partial of R50: Σ (σa σw) 2^(ha + hw). -/
def partialSum : List (DElem × DElem) → Int
  | [] => 0
  | (a, b) :: ps => a.sig * b.sig * ((2 ^ (a.h + b.h) : Nat) : Int) + partialSum ps

/-- The set S of special products of a K-block (R80), joined by R65; `none` when S is empty. -/
def specialJoin (nanScale : Bool) : List (DElem × DElem) → Option Cls
  | [] => none
  | (a, b) :: ps =>
    match productCls nanScale a b, specialJoin nanScale ps with
    | none, r => r
    | some c, none => some c
    | some c, some d => some (clsJoin c d)

/-- The `contribution` of R61: a partial on the anchor grid, and whether it was clipped. -/
def contribution (P sa sb lp A : Int) : Int × Bool :=
  if P = 0 then (0, false)
  else
    let sh := sa + sb + lp - A
    if sh ≥ 0 then
      if sh > 93 ∨ P.natAbs > cMax >>> sh.toNat then
        ((if P < 0 then -(cMax : Int) else cMax), true)
      else (P * ((2 ^ sh.toNat : Nat) : Int), false)
    else
      let n := if -sh > 71 then 71 else (-sh).toNat
      (P / ((2 ^ n : Nat) : Int), false)

/-- A scale as the combine stage uses it: unbiased, `none` for 0xFF (R27, R78). -/
abbrev Scale := Option Int

/-- What one K-block of one pass hands to an output element: the long word, a clip (0 or 1), and whether FLUSH replaced a
product (R61, R80, R81). -/
structure Contrib where
  lw : LW
  clip : Nat
  flush : Bool
  deriving DecidableEq, Repr

/-- The contribution of a K-block's products under the specials policy (R61, R80, R81): `P` is the sum of the finite
products, `special` the join of the special ones. -/
def contribOf (flush : Bool) (P : Int) (special : Option Cls) (sa sb : Scale) (lp A : Int) : Contrib :=
  match special with
  | some c =>
    if flush then
      let (i, cl) := contribution P (sa.getD 0) (sb.getD 0) lp A
      -- an 0xFF scale makes every product special, so every product is replaced by zero (R78, R81)
      if sa.isNone || sb.isNone then ⟨lwZero, 0, true⟩ else ⟨lwOfInt i, bit cl, true⟩
    else ⟨lwOfCls c, 0, false⟩
  | none =>
    let (i, cl) := contribution P (sa.getD 0) (sb.getD 0) lp A
    ⟨lwOfInt i, bit cl, false⟩

/-- The contribution of one column's block tree: a scale code 0xFF makes its class NAN (R78, R115). -/
def treeContrib (flush : Bool) (l : List CellProd) (sa sb : Scale) (lp A : Int) : Contrib :=
  contribOf flush (treeSum l) (if sa.isNone || sb.isNone then some .nan else treeCls l) sa sb lp A

/-- The contribution of one K-block's enabled rows of a thin lane (R247). -/
def kblockContrib (flush : Bool) (ps : List (DElem × DElem)) (sa sb : Scale) (lp A : Int) : Contrib :=
  contribOf flush (partialSum ps) (specialJoin (sa.isNone || sb.isNone) ps) sa sb lp A

end Sys2Proof.Machine
end

