-- ==== Sys2Proof/Config.lean ====
section
/-! DEFINITION. Free values: results the spec leaves open. Each is an opaque constant applied to `State.free`, which the
command reads and advances, so nothing can be proved of its value (log 10). -/
namespace Sys2Proof.Config

/-- A byte the spec leaves undefined: the data beats of a DATA read (R455). -/
opaque freeByte : Nat → Byte

/-- A choice the spec leaves open: whether a dirty line had been evicted before a rail loss (R267, R407, R446). -/
opaque freeBool : Nat → Bool

/-- A word the spec names without giving its value: the firmware code of an INTERNAL record (R404). -/
opaque freeWord : Nat → BitVec 64

/-- The shared-cache slice of a line: the spec spreads lines over the slices by a hash it does not give (R268). -/
opaque sliceOf : Nat → BitVec 4

/-- Which of the 16 stack-controller sensors stands at a stack's controller (R416, R417; log 84). -/
opaque stackSensor : Nat → BitVec 4

/-- The order in which lines leave a full shared cache: the spec gives none (R10; log 73). -/
opaque cacheRank : Nat → Nat

end Sys2Proof.Config
end

