-- ==== Sys2Proof/Machine/CmdTypes.lean ====
section
/-! DEFINITION. The plain data of commands, ledger, claims, drains and engines (13, 14, 10, 11, 06-09, 12). -/
namespace Sys2Proof.Machine

/-- Status codes of R286, in the order of R287: the reply carries the first that applies. -/
inductive Status where
  | opcodeInvalid | descriptorInvalid | anchorMismatch | internal | memoryUnrecoverable
  | stackFencedNoParity | farTierAbsent | farTierWorn | frameTimeout | stepSkew
  | partialDisabled | partialPreempted | doneRecovered | doneWithCounts | done
  deriving DecidableEq, Repr, Inhabited

/-- The code of R286. -/
def Status.code : Status → Nat
  | .done => 0x00 | .doneWithCounts => 0x01 | .doneRecovered => 0x02
  | .partialDisabled => 0x10 | .partialPreempted => 0x11
  | .stepSkew => 0x20 | .anchorMismatch => 0x21 | .frameTimeout => 0x22
  | .descriptorInvalid => 0x30 | .opcodeInvalid => 0x31
  | .memoryUnrecoverable => 0x40 | .stackFencedNoParity => 0x41
  | .farTierWorn => 0x50 | .farTierAbsent => 0x51 | .internal => 0x7F

/-- The rank of R287: 0 applies first. -/
def Status.rank : Status → Nat
  | .opcodeInvalid => 0 | .descriptorInvalid => 1 | .anchorMismatch => 2 | .internal => 3
  | .memoryUnrecoverable => 4 | .stackFencedNoParity => 5 | .farTierAbsent => 6 | .farTierWorn => 7
  | .frameTimeout => 8 | .stepSkew => 9 | .partialDisabled => 10 | .partialPreempted => 11
  | .doneRecovered => 12 | .doneWithCounts => 13 | .done => 14

/-- A status that applies to a command, with its INFO (R286). -/
structure Cond where
  status : Status
  info : Nat
  deriving DecidableEq, Repr, Inhabited

/-- The six counters of R93. -/
structure Counts where
  clip : Nat
  flush : Nat
  sat : Nat
  lost : Nat
  uflow : Nat
  dup : Nat
  deriving DecidableEq, Repr, Inhabited

/-- No counts. -/
def Counts.zero : Counts := ⟨0, 0, 0, 0, 0, 0⟩

/-- Sums of counts (R72, R93). -/
def Counts.add (a b : Counts) : Counts :=
  ⟨a.clip + b.clip, a.flush + b.flush, a.sat + b.sat, a.lost + b.lost, a.uflow + b.uflow, a.dup + b.dup⟩

/-- An output tile (R212): fold and per-fold origin. -/
structure Tile where
  f : Nat
  m0 : Nat
  n0 : Nat
  deriving DecidableEq, Repr, Inhabited

/-- A box of the loop nest (R210): origin and end in F, M, N, K. -/
structure Box where
  f0 : Nat
  f1 : Nat
  m0 : Nat
  m1 : Nat
  n0 : Nat
  n1 : Nat
  k0 : Nat
  k1 : Nat
  deriving DecidableEq, Repr, Inhabited

/-- Ledger states (R229). -/
inductive EState where
  | unclaimed | claimed | done | disputed
  deriving DecidableEq, Repr, Inhabited

/-- A vote of R241: the checksum, the unit that formed it, and the counts of that copy (R242). -/
structure Vote where
  sum : Nat
  unit : Nat
  counts : Counts
  deriving DecidableEq, Repr, Inhabited

/-- A ledger entry (R229) with what the command processor keeps beside it: votes (R241), the credited counts (R72) and
the progress of the most advanced copy (R292). TICKET and STAGE are its command's and its run's. -/
structure Entry where
  tile : Tile
  state : EState
  unit : Nat
  copies : Nat
  spec : Bool
  recov : Bool
  checksum : Nat
  votes : List Vote
  everDisputed : Bool
  unresolved : Bool
  counts : Counts
  /-- counts kept from phase 1 of a FINISH (R72, R202) -/
  base : Counts
  begun : Bool
  kbDone : Nat
  rowsWritten : Nat
  deriving DecidableEq, Repr, Inhabited

/-- A stage tile's run (R222, R229): written into the ledger, freed (R232), and whether it ever had a speculative copy. -/
structure Run where
  box : Box
  entries : List Entry
  written : Bool
  freed : Bool
  hadSpec : Bool
  deriving DecidableEq, Repr, Inhabited

/-- Where a command's tiles run (R249, R243, R200, R264). -/
inductive UnitKind where
  | array | thin | fusion
  deriving DecidableEq, Repr, Inhabited

/-- A dispatched compute command: the copies of its structures read at dispatch (R206, R219, R221, R260), its anchor (R52)
and its work-counter record (R227). -/
structure Comp where
  desc : Nat
  anchor : Int
  kind : UnitKind
  fEff : Nat
  mEff : List Nat
  nEff : List Nat
  kEff : List Nat
  frozen : Nat
  index : List Nat
  /-- FINISH with DENOM: 1 or 2; otherwise 0 (R202) -/
  phase : Nat
  runs : List Run
  recNo : Option Nat
  ticket : Nat
  next : Nat
  limit : Nat
  stageCount : Nat
  exhausted : Bool
  stop : Bool
  specOut : Nat
  published : Bool
  overflow : Bool
  deriving DecidableEq, Repr, Inhabited

/-- The extent a SPILL is writing (R348): whole or in part, its place, and the place it leaves. -/
structure SpillExt where
  idx : Nat
  whole : Bool
  port : Nat
  place : Nat
  old : Option (Nat × Nat)
  deriving DecidableEq, Repr, Inhabited

/-- An engine command (R284, R348, R486): its granules and what is outstanding for them. -/
structure Eng where
  granules : Nat
  doneBits : List Bool
  /-- granules with a request out on the host port, oldest first, and whether it is the write -/
  awaiting : List (Nat × Bool)
  /-- SCALE_SCAN: what the record is formed from -/
  comp : Option Comp
  /-- SPILL: the extent being written -/
  cur : Option SpillExt
  /-- 64-byte responses counted per far granule -/
  cmps : List (Nat × Nat)
  /-- ended by a fault: no further granule is issued -/
  halted : Bool
  deriving DecidableEq, Repr, Inhabited

/-- A frame command in flight (R371, R374-R376): frames expected and accepted, the next frame FRAME_SEND releases, and what a
receiver keeps: the byte maxima, formats and flags of MAX_EXCHANGE, or the anchor of FRAME_RECV. -/
structure Frm where
  expected : Nat
  accepted : Nat
  next : Nat
  maxA : Int
  maxB : Int
  fmts : Nat
  flags : Nat
  deriving DecidableEq, Repr, Inhabited

/-- TUN_SAVE or TUN_RESTORE in flight (R301, R302): the named (core, slot) pairs, and images moved. -/
structure TunCmd where
  slots : List (Nat × Nat)
  images : Nat
  deriving DecidableEq, Repr, Inhabited

/-- What a command read and not yet replied to is doing (R391). -/
inductive Body where
  /-- waits at dispatch for a work-counter record (R227) -/
  | waitRecord (c : Comp)
  | compute (c : Comp)
  | engine (e : Eng)
  | frame (f : Frm)
  | tunSave (t : TunCmd)
  /-- TUN_RESTORE: `bound` once it has bound its slots (R302) -/
  | tunRestore (t : TunCmd) (bound : Bool)
  | fence (await : List (Nat × Nat))
  | wait (cmp addr value : Nat)
  /-- SIGNAL to the host aperture, awaiting the response -/
  | signal (addr : Nat)
  deriving DecidableEq, Repr, Inhabited

/-- A command in flight: its packet as read (R273), journal state (R391) and what its reply will carry (R285). -/
structure Cmd where
  q : Nat
  pos : Nat
  pkt : Nat
  ticket : Option Nat
  step : Nat
  dispatched : Bool
  applied : Bool
  conds : List Cond
  /-- faults masked, and the error-log index of the first (R286) -/
  masked : Nat
  firstLog : Option Nat
  /-- every unit of the command's work is done or abandoned: only the reply is left -/
  ended : Bool
  /-- ended by a fault: claims are abandoned (R406) -/
  cut : Bool
  /-- frames of the command sent on a hop, and those acknowledged (R373) -/
  sent : Nat
  acked : Nat
  body : Body
  deriving DecidableEq, Repr, Inhabited

/-- A command's name in flight. -/
abbrev Key := Nat × Nat

/-- Origins of copies (R238); an arbiter is placed for one disputed tile of its run (R240). -/
inductive Origin where
  | draw | recovery | speculation
  | arbitration (tile : Nat)
  deriving DecidableEq, Repr, Inhabited

/-- The copy is an arbiter. -/
def Origin.isArb : Origin → Bool
  | .arbitration _ => true
  | _ => false

/-- The tile an arbiter is placed for. -/
def Origin.tile : Origin → Nat
  | .arbitration t => t
  | _ => 0

/-- A claim of a stage tile (R228, R234). -/
structure Seed where
  key : Key
  ord : Nat
  origin : Origin
  deriving DecidableEq, Repr, Inhabited

/-- A weight load step (R116): logical row `row` of the pass tile with first fold `f`, K origin `k0`, `klen` indices, columns
`n0` to `n1`, weight piece `wj`, rows `rows`; `buf` names the stored load it takes its row from (R132). -/
structure LoadOp where
  buf : Nat × Nat
  f : Nat
  k0 : Nat
  klen : Nat
  n0 : Nat
  n1 : Nat
  wj : Nat
  row : Nat
  rows : Nat
  deriving DecidableEq, Repr, Inhabited

/-- An activation vector of the walk (R112, R223): output row, K-pass, columns `n0` to `n1` of its pass tile, pieces, slot,
WRITE (R159), and whether it is the last vector of its tile (R168); `buf` names the activation buffer it is read from (R132). -/
structure VecOp where
  buf : Nat
  f : Nat
  m : Nat
  k0 : Nat
  klen : Nat
  n0 : Nat
  n1 : Nat
  ai : Nat
  wj : Nat
  slot : Nat
  tile : Nat
  write : Bool
  firstPass : Bool
  last : Bool
  /-- K-blocks of the tile done, over every pass and row, once this vector's update is complete (R292) -/
  kb : Nat
  deriving DecidableEq, Repr, Inhabited

/-- One step of a claim's walk (R223); `zero`: a tile without updates (R161), finished at this point. -/
inductive WalkOp where
  | load (o : LoadOp)
  | vec (o : VecOp)
  | zero (tile : Nat)
  deriving DecidableEq, Repr, Inhabited

/-- A delivered activation vector (R112): its place in the walk, elements by K-index offset, scales by K-block. -/
structure Vec where
  op : VecOp
  elems : List DElem
  scales : List Scale
  deriving DecidableEq, Repr, Inhabited

/-- A claim being walked by an array (R233, R223): steps of the walk left, its slot range, the tiles this walk has begun (R163),
and the contribution counts of each of its tiles. -/
structure Claim where
  seed : Seed
  todo : List WalkOp
  begun : List Nat
  tileCounts : List Counts
  /-- slot each tile was placed in at its first update (R163) -/
  tileSlots : List Nat
  slots : List Nat
  steps : Nat
  started : Bool
  deriving DecidableEq, Repr, Inhabited

/-- What a row's statistics give: (μ, r), or (mx, d) for a softmax (R151, R152). -/
structure NormRow where
  x : CF
  y : CF
  deriving DecidableEq, Repr, Inhabited

/-- What a drain reads (R168, R161, R253, R243, R201, R263). -/
inductive DSrc where
  | slot (n : Nat)
  | zero
  | thin (half : Nat)
  | combine
  | finish
  | segsum
  deriving DecidableEq, Repr, Inhabited

/-- An additive output staged until the done action (R174, R196, R370). -/
inductive Staged where
  | add (addr : Nat) (w : LW)
  | max (addr : Nat) (c : CF)
  | cnt (addr n : Nat)
  | validBit (addr : Nat)
  /-- frame data of one element block: words or GRAD16 codes with their scale -/
  | frame (row col : Nat) (payload : List Byte)
  deriving DecidableEq, Repr, Inhabited

/-- Statistics accumulators of one row of a RESIDENT band (R198), in the layout of R193. -/
structure StatAcc where
  row : Nat
  sum : LW
  sumsq : LW
  mx : CF
  n : Nat
  denom : Bool
  deriving DecidableEq, Repr, Inhabited

/-- Sweeps of a drain (R198, R202): an ordinary drain, the sweeps of a RESIDENT band, phase 1 of FINISH. -/
inductive Sweep where
  | plain
  | stat
  | denom
  | final
  deriving DecidableEq, Repr, Inhabited

/-- A tile being drained (R168): rows still to be read, checksum so far (R173), counts, staged outputs. -/
structure Drain where
  seed : Seed
  tile : Nat
  src : DSrc
  sweep : Sweep
  row : Nat
  rows : Nat
  sum : Word
  counts : Counts
  staged : List Staged
  /-- every output write is issued: the done action is due (R235) -/
  complete : Bool
  /-- rows of data arrived for the extra input streams, (stream, row) (R192) -/
  fed : List (Nat × Nat)
  stats : List StatAcc
  deriving DecidableEq, Repr, Inhabited

/-- A WREG row (R109): the weights of the row's cells, two slots in dual mode, and its checksum weights (R120): per slot,
the C_lo and C_hi of E5M2 or C and 0. -/
structure WRow where
  row : Nat
  s0 : List DElem
  s1 : List DElem
  c0 : Int × Int
  c1 : Int × Int
  deriving DecidableEq, Repr, Inhabited

/-- The activation latch of a row (R109): σ, h and class per slot, whether its parity holds, and the row-enable bit. -/
structure ALatch where
  a0 : DElem
  a1 : DElem
  parityOk : Bool
  enabled : Bool
  deriving DecidableEq, Repr, Inhabited

/-- The product latches of a row (R109): one product per slot and column of the load; the last of each list stands for every
column that holds a zero weight. -/
structure PRow where
  row : Nat
  p0 : List CellProd
  p1 : List CellProd
  deriving DecidableEq, Repr, Inhabited

/-- A stage buffer (R132): the load or the rows it holds, the stored bytes by address, and how often it was fetched again after an
uncorrectable word without a good read since (R135, R390). -/
structure StageBuf (κ : Type) where
  no : κ
  cells : List Host.Cell
  refetch : Nat
  deriving DecidableEq, Repr, Inhabited

/-- The stage memory of a feeder (R132): the weight area with the current load and the next, the activation area with its
buffers, and the side area with the normalisation cache (row, values; oldest first), γ and β, and the block exponents of wide
weights by load and K-block. -/
structure StageSt where
  weights : List (StageBuf (Nat × Nat))
  acts : List (StageBuf Nat)
  norm : List (Nat × NormRow)
  affine : List Host.Cell
  sideRefetch : Nat
  exps : List ((Nat × Nat) × Nat × List Scale)
  deriving DecidableEq, Repr, Inhabited

/-- Stage memory with every area empty (R134). -/
def StageSt.empty : StageSt := ⟨[], [], [], [], 0, []⟩

/-- One array with its feeder, mailbox and drains (06, 07, R234). -/
structure ArraySt where
  inService : Bool
  /-- kept out until the next start -/
  retired : Bool
  wardFails : Nat
  /-- a diagnostic pass is due (R124) -/
  diag : Bool
  wreg : List WRow
  /-- row and product latches as the last activation left them (R109, R112) -/
  alat : List ALatch
  plat : List PRow
  /-- the two weight scale sets, per K-block group a list of 256 codes as scales (R117) -/
  set0 : List (Nat × List Scale)
  set1 : List (Nat × List Scale)
  active : Bool
  stage : StageSt
  vecs : List Vec
  claim : Option Claim
  hold : Option (Key × Nat)
  mailbox : Option Seed
  noDraw : List Key
  drains : List Drain
  deriving DecidableEq, Repr, Inhabited

/-- Steps a thin half's claim has behind it (R253). -/
structure TClaim where
  seed : Seed
  b : Nat
  pass : Nat
  m : Nat
  steps : Nat
  counts : Counts
  deriving DecidableEq, Repr, Inhabited

/-- A delivered operand value before it is cut into pieces (R145): an MX pair (σ, h), or a wide value to be aligned. -/
inductive DVal where
  | mx (d : DElem)
  | wide (x : XV)
  deriving DecidableEq, Repr, Inhabited

/-- A row (or a column of weights) of delivered values with the scale or exponent of each K-block. -/
structure DRow where
  idx : Nat
  vals : List DVal
  scales : List Scale
  deriving DecidableEq, Repr, Inhabited

/-- One accumulator word of a thin half (R246): row m, lane group g. -/
structure AccCell where
  m : Nat
  g : Nat
  word : LW
  deriving DecidableEq, Repr, Inhabited

/-- One thin-path half (R246): activation store by row, weights of the K-block by column, accumulators by (m, g). -/
structure ThinSt where
  claim : Option TClaim
  store : List DRow
  /-- the K-block whose weights are held, and its columns -/
  wBlock : Option Nat
  weights : List DRow
  acc : List AccCell
  drains : List Drain
  noDraw : List Key
  mailbox : Option Seed
  hold : Option (Key × Nat)
  /-- uncorrectable events per lane group since the start (R390) -/
  events : List (Nat × Nat)
  deriving DecidableEq, Repr, Inhabited

/-- A slot binding (R300): the slot, the array, the command and the ordinal. -/
structure Binding where
  slot : Nat
  unit : Nat
  key : Key
  ord : Nat
  deriving DecidableEq, Repr, Inhabited

/-- A paused claim (R301): its walk position, the drains and slots it had when its slots were saved, whether they are saved,
whether every slot of it is restored so that it goes on as its array is free, and whether it was dropped meanwhile. `names`, `rec_`:
the save that holds its accumulators, by its (core, slot) pairs, and the number of its record there. -/
structure Paused where
  array : Nat
  ctx : Nat
  claim : Claim
  drains : List Drain
  slots : List Nat
  saved : Bool
  ready : Bool
  dropped : Bool
  names : List (Nat × Nat)
  rec_ : Nat
  deriving DecidableEq, Repr, Inhabited

/-- A core: service, fusion unit, virtual times, slot bindings, grade, scrub (06, 08, 14). -/
structure CoreSt where
  inService : Bool
  retired : Bool
  thinIn : Bool
  v : Vector Nat 16
  elig : List Nat
  binds : List Binding
  lastCtx : Vector (Option Nat) 32
  yielded : List (Nat × Nat)
  paused : List Paused
  fusionDrains : List Drain
  fusionNoDraw : List Key
  fusionMail : Option Seed
  fusionHold : Option (Key × Nat)
  grade : Nat
  /-- 1 rising, 0 still, 2 falling (R129) -/
  dir : Nat
  holding : Bool
  scrub : Nat
  /-- uncorrectable events per slot since the start (R390) -/
  events : Vector Nat 32
  deriving DecidableEq, Repr, Inhabited

/-- A nonzero tun element (R156): core, slot, row, column and long word. -/
structure TunCell where
  core : Nat
  slot : Nat
  row : Nat
  col : Nat
  word : LW
  deriving DecidableEq, Repr, Inhabited

/-- A held progress area (R291): the record number and the ended command. -/
structure Area where
  recNo : Nat
  ctx : Nat
  ticket : Nat
  op : Nat
  status : Nat
  comp : Comp
  deriving DecidableEq, Repr, Inhabited

end Sys2Proof.Machine
end

