-- ==== Sys2Proof/Machine/UnitTypes.lean ====
section
/-! DEFINITION. The plain data of registers, contexts, memory, far tier, exchange, keeper, start and test (14-21). -/
namespace Sys2Proof.Machine

/-- Block states (R443). -/
inductive BlkMode where
  | starting | ready | skeleton | quiesced | failed
  deriving DecidableEq, Repr, Inhabited

/-- The code of R443. -/
def BlkMode.code : BlkMode → Nat
  | .starting => 0 | .ready => 1 | .skeleton => 2 | .quiesced => 3 | .failed => 4

/-- Context states (R295). -/
inductive CtxMode where
  | disabled | active | disabling | preempting | suspended
  deriving DecidableEq, Repr, Inhabited

/-- The code of R295. -/
def CtxMode.code : CtxMode → Nat
  | .disabled => 0 | .active => 1 | .disabling => 2 | .preempting => 3 | .suspended => 4

/-- Power states (R428). -/
inductive PState where
  | active | idle | arraysOff | deep
  deriving DecidableEq, Repr, Inhabited

/-- The code of R428. -/
def PState.code : PState → Nat
  | .active => 0 | .idle => 1 | .arraysOff => 2 | .deep => 3

/-- One context: CTX_CTRL, CTX_STAT, CTX_IRQ, totals and the stage of its disable or preemption (R295-R312, R289). -/
structure Ctx where
  mode : CtxMode
  wBase : Nat
  wCount : Nat
  share : Nat
  quota : Nat
  bwRate : Nat
  bwBurst : Nat
  qerr : Bool
  cmdErr : Bool
  step : Nat
  qpend : Nat
  qmask : Nat
  totals : Vector Nat 6
  /-- stage of R308 in progress, 0 for none -/
  stage : Nat
  /-- the window has been zeroed in stage 5 -/
  zeroed : Bool
  /-- a context reset waits for the sequence to complete (R444, R447) -/
  resetAfter : Bool
  /-- areas held when the running sequence began (R308, R311) -/
  heldBefore : List Nat
  deriving DecidableEq, Repr, Inhabited

/-- One queue: Q_BASE, the positions of R270, positions replied above OLDEST, and the position that holds the queue at
dispatch (R273). -/
structure Queue where
  log : Nat
  base : Nat
  tail : Nat
  head : Nat
  oldest : Nat
  replied : List Nat
  hold : Option Nat
  deriving DecidableEq, Repr, Inhabited

/-- What a start follows (R444). -/
inductive StartKind where
  | por | cold | warm | deep
  deriving DecidableEq, Repr, Inhabited

/-- START_REC, stage and the kind of start (R432-R441). -/
structure StartSt where
  stageFail : Nat
  attempts : Nat
  code : Nat
  unitKind : Nat
  unit : Nat
  skeleton : Bool
  startCount : Nat
  /-- stage in progress: 0-6, or 7 when no start runs -/
  stage : Nat
  /-- a failed attempt waits for its 1 ms to pass (R438) -/
  retryDue : Bool
  kind : StartKind
  /-- RESET_N is low -/
  resetLow : Bool
  /-- keeper retention was lost, and the error log, and the wear ledger, have not been restored from their mirrors since (R450) -/
  logDue : Bool
  ledgerDue : Bool
  deriving DecidableEq, Repr, Inhabited

/-- A mapped-out channel (R329, R331): the first granule of its relocation range, the channels that range skips, how many of its
slots are moved (all or none: a rebuild is one step), those of them that R328 could not form, and whether its rebuild is over. -/
structure MapOut where
  stack : Nat
  chan : Nat
  base : Nat
  skip : List (Nat × Nat)
  moved : Nat
  gaps : List Nat
  rebuilt : Bool
  deriving DecidableEq, Repr, Inhabited

/-- BLK_STATE, BLK_ID, straps, fuses and repair (R474, R475, R467, R435, R396, R126). -/
structure Blk where
  mode : BlkMode
  degraded : Bool
  replace : Bool
  lastCond : Nat
  /-- conditions of R409 that hold, by code -/
  conds : List Nat
  patchVer : Nat
  straps : Nat
  fuse : Nat
  /-- failed eFuse slots are seen by their wrong CHECK; records found bad are logged at S1 -/
  spare : Vector Nat 32
  keepArrays : List Nat
  keepCores : List Nat
  repair : List Nat
  fwPatch : Nat
  paritySet : Bool
  mapList : List MapOut
  deriving DecidableEq, Repr, Inhabited

/-- SERVICE_CMD and SVC_IRQ (R400, R478). -/
structure Svc where
  argAddr : Nat
  busy : Bool
  /-- the area of the run in progress, and its image once read from the host aperture -/
  area : Nat
  image : Option Nat
  status : Nat
  irq : Nat
  mask : Nat
  deriving DecidableEq, Repr, Inhabited

/-- The error log (R402): records by index and the head register. -/
structure ErrLog where
  recs : List (Nat × Nat)
  wr : Nat
  rd : Nat
  wrapped : Bool
  nextSeq : Nat
  deriving DecidableEq, Repr, Inhabited

/-- The command processor: its three cores (R391-R394, R485), tickets (R226), commands in flight, claims waiting for a
mailbox (R234), and held progress areas (R291). -/
structure Cp where
  /-- cores running: 2 in lockstep, 1 alone, 0 while halted -/
  running : Nat
  spare : Bool
  /-- numbers of the cores in service: those that run, then the hot spare, then those in self-test -/
  ids : List Nat
  /-- cores in self-test (R394, R485) -/
  testing : Nat
  /-- dispatch, replies, placement and speculation are paused (R392, R485) -/
  paused : Bool
  nextTicket : Nat
  cmds : List Cmd
  unplaced : List Seed
  areas : List Area
  deriving DecidableEq, Repr, Inhabited

/-- Keeper registers, sensors, budget, wear and telemetry (R414-R430, R395). -/
structure Kpr where
  pLimit : Nat
  tThrottle : Nat
  vSust : Nat
  vSprint : Nat
  sprintEn : Bool
  sprintOn : Bool
  reason : Nat
  vReq : Nat
  /-- what a rising request goes to (R414) -/
  vTarget : Nat
  tHot : Int
  pF : Nat
  throttle : Nat
  chipAlarm : Bool
  limitErr : Bool
  vminTrim : Nat
  gradeCap : Nat
  sample : Nat
  deriving DecidableEq, Repr, Inhabited

/-- The voltage request ports (R414, R464): the transition rate in mV/µs and the last Voltage target in mV that the keeper wrote over
AVSBus with its rail select, and CODE and STB of the parallel request port. -/
structure VPort where
  rate : Nat
  rail : Nat
  mv : Nat
  code : Nat
  stb : Bool
  deriving DecidableEq, Repr, Inhabited

/-- Keeper state behind the registers (R417-R424): sensors, windows in samples, budget, wear and copies. -/
structure KprIn where
  /-- per sensor: last accepted reading, consecutive rejections, failed -/
  sensors : List (Option Int × Nat × Bool)
  /-- P_s of the last samples in µW, newest first -/
  recent : List Nat
  /-- B in 10⁻¹¹ J -/
  budget : Nat
  /-- continuous sprint time in samples -/
  cont : Nat
  /-- samples since the last sprint tick of 10 ms, since the last second powered, 1e-7 nominal seconds of age -/
  sprintFrac : Nat
  sprintCs : Nat
  poweredFrac : Nat
  poweredS : Nat
  ageFrac : Nat
  ageS : Nat
  /-- a thermal throttle that has not cleared, and its consecutive cool samples -/
  thermal : Bool
  coolThrottle : Nat
  /-- an alarm that has not cleared, and its consecutive cool samples -/
  alarm : Bool
  coolAlarm : Nat
  /-- samples at code 120 with a cause to lower the grade cap, and steps towards the next raise -/
  capHold : Nat
  capRaise : Nat
  /-- consecutive samples with VDD_ARR more than 20 mV below the request, and the alarm they raised (R415) -/
  lowV : Nat
  vFault : Bool
  vport : VPort
  copies : Nat
  /-- per copy: in service, and the sample in which it was last outvoted -/
  votes : List (Bool × Option Nat)
  /-- since the last telemetry record: least and greatest P_s in µW, step rates summed, samples -/
  pMin : Nat
  pMax : Nat
  rateSum : Nat
  rateN : Nat
  /-- work and filler steps of all arrays since it (R128, R430) -/
  workN : Nat
  fillN : Nat
  /-- of the latest sample: the mean VDD_ARR monitor reading as a code, and the hottest stack's temperature -/
  vMeas : Nat
  tStack : Int
  deriving DecidableEq, Repr, Inhabited

/-- PWR_CTRL and RAMP_LIMIT (R428, R479). -/
structure Pwr where
  target : PState
  autoIdle : Bool
  idleDelay : Nat
  state : PState
  refused : Bool
  /-- the state being entered, when a transition runs (R428) -/
  going : Option PState
  /-- register writes that wait for ACTIVE, the one that woke the block first (R428, R459) -/
  waking : List (Nat × Nat)
  ramp : Nat
  tG : Nat
  iGrade : Nat
  deriving DecidableEq, Repr, Inhabited

/-- Stack thermal levels (R335). -/
inductive SLevel where
  | normal | warm | hot | critical
  deriving DecidableEq, Repr, Inhabited

/-- The code R404 logs. -/
def SLevel.code : SLevel → Nat
  | .normal => 0 | .warm => 1 | .hot => 2 | .critical => 3

/-- Fence states of a stack (R337, R340, R342). `refencing`: its fence runs again out of a return, FENCED not having cleared. -/
inductive Fence where
  | none | fencing | fenced | return1 | return2 | refencing | dead
  deriving DecidableEq, Repr, Inhabited

/-- One stack (R313-R342). -/
structure StackSt where
  level : SLevel
  cool : Nat
  fence : Fence
  /-- channels lost, and the samples in which they were -/
  lost : List Nat
  lostAt : List Nat
  /-- retried accesses of the last 100 samples: channel and sample (R327) -/
  retries : List (Nat × Nat)
  /-- slots that failed their verify in the last 100,000 samples: channel, slot and sample (R327) -/
  ues : List (Nat × Nat × Nat)
  deriving DecidableEq, Repr, Inhabited

/-- A line held for a resident operand (R217): its command, the origin of its level-3 tile in F, M, N, K, and the line. -/
structure HeldLine where
  key : Key
  tile : Nat × Nat × Nat × Nat
  line : Nat
  deriving DecidableEq, Repr, Inhabited

/-- Near memory: stack contents, shared-cache data not yet written to the stacks, and the cellar (R316, R267, R338). -/
structure MemSt where
  near : List Host.Cell
  dirty : List Host.Cell
  held : List HeldLine
  /-- cached lines with an uncorrectable word that no access has met yet (false), and lines whose next long-word add fails its residue
  check (true) (R384, R385) -/
  upsets : List (Nat × Bool)
  /-- 128-byte lines parked for fenced stacks, ascending -/
  parked : List Nat
  /-- stripes marked stale, ascending: (stack, stripe) -/
  marks : List (Nat × Nat)
  /-- granules the memory reports uncorrectable (R407) -/
  bad : List Nat
  /-- shared-cache slices out of service: those of a skeleton start that failed the march test (R439) -/
  slicesOut : List Nat
  deriving DecidableEq, Repr, Inhabited

/-- MAP_STATE and the channel map (R333, R329-R331). -/
structure MapSt where
  top : Nat
  parity : Bool
  profile : Nat
  /-- fenced stacks in the order they were fenced -/
  fenced : List Nat
  /-- U of R314 -/
  slots : Nat
  /-- channels mapped out in order; the first whose rebuild is not over is being rebuilt -/
  outs : List MapOut
  /-- rebuilds are under way: from the first map-out, or from S6 of a start on -/
  rebuilds : Bool
  /-- the next stripe of the patrol scrub -/
  patrol : Nat
  resvRate : Nat
  resvBurst : Nat
  deriving DecidableEq, Repr, Inhabited

/-- A wear-ledger entry (R351). -/
structure Wear where
  serial : Nat
  /-- 0 EMPTY, 1 PRESENT, 2 ABSENT -/
  state : Nat
  rated : Bool
  warn : Bool
  worn : Bool
  port : Nat
  ratedTib : Nat
  /-- written by the block, in requests of 64 bytes: 16,384 to a MiB -/
  written : Nat
  lifeUsed : Nat
  capGib : Nat
  /-- order in which it became ABSENT -/
  absentAt : Nat
  deriving DecidableEq, Repr, Inhabited

/-- A far extent (R346): its index in the aperture and where it lies; `lost`: the serial number it was lost with. -/
structure Extent where
  idx : Nat
  port : Nat
  place : Nat
  lost : Option Nat
  deriving DecidableEq, Repr, Inhabited

/-- A module attached to a root port, with the capacity used of it (R344). -/
structure Module extends ModuleInfo where
  capGib : Nat
  deriving DecidableEq, Repr, Inhabited

/-- The kind of a module (R345): RATED when it reports persistent capacity, UNLIMITED when it reports volatile capacity only. -/
def Module.rated (m : Module) : Bool := decide (0 < m.persGib)

/-- The far tier (R344-R356). -/
structure FarSt where
  modules : Vector (Option Module) 4
  linkUp : Vector Bool 4
  /-- aperture size in extents -/
  extents : Nat
  map : List Extent
  /-- old places not yet freed: a new place has granules outstanding -/
  pendingFree : List (Nat × Nat)
  cells : List Host.Cell
  wear : Vector Wear 16
  wearIdx : Nat
  wearLatch : Nat
  clock : Nat
  deriving DecidableEq, Repr, Inhabited

/-- What the keeper's near-memory mirrors hold (R424, R350, R448, R450): wear counters, wear ledger, totals, error log. -/
structure Mirror where
  sprintCs : Nat
  poweredS : Nat
  ageS : Nat
  wear : Vector Wear 16
  totals : Vector (Vector Nat 6) 16
  log : ErrLog
  deriving DecidableEq, Repr, Inhabited

/-- A frame kept by a sender until acknowledged (R364). -/
structure Sent where
  fseq : Nat
  resends : Nat
  sync : Bool
  image : List Byte
  /-- the command whose reply waits for it (R373), and whether it is an END -/
  cmd : Option Key
  isEnd : Bool
  deriving DecidableEq, Repr, Inhabited

/-- A sending hop (R364, R365). -/
structure TxHop where
  next : Nat
  buf : List Sent
  /-- a SYNC is out and not acknowledged: other frames wait -/
  syncOut : Bool
  synced : Bool
  epoch : Nat
  deriving DecidableEq, Repr, Inhabited

/-- A receiving hop (R364, R365). -/
structure RxHop where
  epoch : Option Nat
  base : Nat
  accepted : List Nat
  unacked : Nat
  /-- a SYNC request went out in the present 2 µs -/
  asked : Bool
  deriving DecidableEq, Repr, Inhabited

/-- A frame held in its context's share (R367). -/
structure Held where
  header : Nat
  payload : List Byte
  skew : Bool
  deriving DecidableEq, Repr, Inhabited

/-- The exchange engine (R357-R382): XCH_ID, PEER_TBL, hops, shares, frames handed to the streams with their stream (newest last). -/
structure XchSt where
  boardId : Nat
  fdom : Nat
  peers : Vector (Nat × Bool × Bool) 8
  tx : Vector TxHop 9
  rx : Vector RxHop 9
  held : Vector (List Held) 16
  out : List (Nat × List Byte)
  /-- the stream the next frame goes to -/
  stream : Nat
  deriving DecidableEq, Repr, Inhabited

/-- Wrapper instructions (R468). -/
inductive Wir where
  | bypass | extest | intest | safe
  deriving DecidableEq, Repr, Inhabited

/-- A request out on the host port (R457): of a command, or of the SERVICE_CMD run. -/
structure OutReq where
  key : Option Key
  addr : Nat
  write : Bool
  data : List Byte
  len : Nat
  deriving DecidableEq, Repr, Inhabited

/-- Pins and port outputs (R454-R469). -/
structure Port where
  regData : Nat
  hinTag : Nat
  hinStatus : Nat
  hinData : List Byte
  /-- requests out on the host port, oldest first -/
  hout : List OutReq
  wir : Wir
  instrument : Option Nat
  testOut : Nat
  testEn : Bool
  deriving DecidableEq, Repr, Inhabited

end Sys2Proof.Machine
end

