-- ==== Sys2Proof/Machine/State.lean ====
section
/-! DEFINITION. The state of the block, its reset, and the two reason types. Every piece of state the spec gives the block
is a field; INVENTORY.md lists them with their rules. -/
namespace Sys2Proof.Machine

/-- Why a command stops the model. -/
inductive Fault where
  /-- Raised by no command: a transfer that breaks a port's framing (R454, R455, R457, R462) leaves only its own result unspecified
  (R3), so it runs, with free values. The name stands for the type, which has no other constructor. SAFE. -/
  | portRule
  deriving DecidableEq, Repr

/-- Commands without a meaning. -/
inductive Refusal where
  /-- Raised only by an arm of `exec` that has no meaning yet; no arm is left so. SAFE: the model stops. -/
  | notModelled (mnemonic : String)
  deriving DecidableEq, Repr

/-- The block. -/
structure State where
  /-- commands waiting, first in first out (the model's own field) -/
  pending : List Instr
  /-- counter of free values (the model's own field, log 10) -/
  free : Nat
  blk : Blk
  start : StartSt
  svc : Svc
  log : ErrLog
  kpr : Kpr
  kin : KprIn
  pwr : Pwr
  ctxs : Vector Ctx 16
  qs : Vector Queue 64
  cp : Cp
  arrays : Vector ArraySt 32
  halves : Vector ThinSt 16
  cores : Vector CoreSt 8
  tun : List TunCell
  mem : MemSt
  stks : Vector StackSt 24
  map : MapSt
  far : FarSt
  mirror : Mirror
  xch : XchSt
  port : Port
  deriving DecidableEq, Repr

/-- Reset values of a context's settings (R296, R297); SHARE 0x10, LEDGER_QUOTA 0x040, BW_RATE 62, BW_BURST 16. -/
def Ctx.reset : Ctx where
  mode := .disabled
  wBase := 0
  wCount := 0
  share := 0x10
  quota := 0x040
  bwRate := 62
  bwBurst := 16
  qerr := false
  cmdErr := false
  step := 0
  qpend := 0
  qmask := 0
  totals := Vector.replicate 6 0
  stage := 0
  zeroed := false
  resetAfter := false
  heldBefore := []

/-- Q_BASE 0 and positions 0 (R476, R270). -/
def Queue.reset : Queue := ⟨0, 0, 0, 0, 0, [], none⟩

/-- An array before S3 has tested it; memories hold nothing (R432, R475: ARRAY_MASK 0). -/
def ArraySt.reset : ArraySt where
  inService := false
  retired := false
  wardFails := 0
  diag := false
  wreg := []
  alat := []
  plat := []
  set0 := []
  set1 := []
  active := false
  stage := StageSt.empty
  vecs := []
  claim := none
  hold := none
  mailbox := none
  noDraw := []
  drains := []

/-- A thin half holding nothing (R246, R432). -/
def ThinSt.reset : ThinSt := ⟨none, [], none, [], [], [], [], none, none, []⟩

/-- A core before S3 and S4 (R475: CORE_MASK 0); grade 0 and virtual times 0 are the model's choice (log 9). -/
def CoreSt.reset : CoreSt where
  inService := false
  retired := false
  thinIn := false
  v := Vector.replicate 16 0
  elig := []
  binds := []
  lastCtx := Vector.replicate 32 none
  yielded := []
  paused := []
  fusionDrains := []
  fusionNoDraw := []
  fusionMail := none
  fusionHold := none
  grade := 0
  dir := 0
  holding := false
  scrub := 0
  events := Vector.replicate 32 0

/-- The eFuse bank of the model's part: BLK_SERIAL 1, every other bit unprogrammed (R435; log 8). -/
def fuseReset : Nat := putBits 1 64 512

/-- Fuses, straps and repair at power-on (R448: repair log, FW_PATCH and map-out list C; parity on, R314). -/
def Blk.reset : Blk where
  mode := .starting
  degraded := false
  replace := false
  lastCond := 0
  conds := []
  patchVer := 0
  straps := 0
  fuse := fuseReset
  spare := Vector.replicate 32 0
  keepArrays := []
  keepCores := []
  repair := []
  fwPatch := 0
  paritySet := true
  mapList := []

/-- SERVICE_CMD and SVC_IRQ (R400, R478). -/
def Svc.reset : Svc := ⟨0, false, 0, none, 0, 0, 0⟩

/-- START_REC 0 (R441) and the start at S0 (R432). -/
def StartSt.reset : StartSt := ⟨0, 0, 0, 0, 0, false, 0, 0, false, .por, false, true, true⟩

/-- Keeper registers at power-on (R426, R427). -/
def Kpr.reset : Kpr where
  pLimit := 700
  tThrottle := 100
  vSust := 0x96
  vSprint := 0xAA
  sprintEn := false
  sprintOn := false
  reason := 0
  vReq := 0x96
  vTarget := 0x96
  tHot := 0
  pF := 0
  throttle := 0
  chipAlarm := false
  limitErr := false
  vminTrim := 0
  gradeCap := 8
  sample := 0

/-- 300 J in the model's unit of 10⁻¹¹ J (R421). -/
def budgetFull : Nat := 30000000000000

/-- Keeper state behind the registers at power-on (R421, R424, R395); no sensor has an accepted reading (log 9). -/
def KprIn.reset : KprIn where
  sensors := List.replicate 96 (none, 0, false)
  recent := []
  budget := budgetFull
  cont := 0
  sprintFrac := 0
  sprintCs := 0
  poweredFrac := 0
  poweredS := 0
  ageFrac := 0
  ageS := 0
  thermal := false
  coolThrottle := 0
  alarm := false
  coolAlarm := 0
  capHold := 0
  capRaise := 0
  lowV := 0
  vFault := false
  vport := ⟨0, 0, 0, 0, false⟩
  copies := 3
  votes := [(true, none), (true, none), (true, none)]
  pMin := 0
  pMax := 0
  rateSum := 0
  rateN := 0
  workN := 0
  fillN := 0
  vMeas := 0
  tStack := 0

/-- PWR_CTRL and RAMP_LIMIT at power-on (R428, R479). -/
def Pwr.reset : Pwr := ⟨.active, false, 1000, .active, false, none, [], 120, 728, 68⟩

/-- A stack at power-on. -/
def StackSt.reset : StackSt := ⟨.normal, 0, .none, [], [], [], []⟩

/-- Near memory with nothing listed (R448: undefined at POR; log 2). -/
def MemSt.reset : MemSt := ⟨[], [], [], [], [], [], [], []⟩

/-- MAP_STATE before S2 (log 9); MEM_RESV of R324. -/
def MapSt.reset : MapSt := ⟨0, false, 0, [], 0, [], false, 0, 0, 16⟩

/-- An EMPTY wear-ledger entry (R351). -/
def Wear.empty : Wear := ⟨0, 0, false, false, false, 0, 0, 0, 0, 0, 0⟩

/-- The far tier before S2: nothing attached, ledger EMPTY (log 9). -/
def FarSt.reset : FarSt where
  modules := Vector.replicate 4 none
  linkUp := Vector.replicate 4 false
  extents := 0
  map := []
  pendingFree := []
  cells := []
  wear := Vector.replicate 16 Wear.empty
  wearIdx := 0
  wearLatch := 0
  clock := 0

/-- The mirrors before anything is mirrored (log 9). -/
def Mirror.reset : Mirror :=
  ⟨0, 0, 0, Vector.replicate 16 Wear.empty, Vector.replicate 16 (Vector.replicate 6 0), ⟨[], 0, 0, false, 0⟩⟩

/-- A sending hop after a start: FSEQ 0, nothing kept (R364). -/
def TxHop.reset : TxHop := ⟨0, [], false, false, 0⟩

/-- A receiving hop after a start: no epoch (R365). -/
def RxHop.reset : RxHop := ⟨none, 0, [], 0, false⟩

/-- The exchange engine at reset (R359, R360, R364, R367). -/
def XchSt.reset : XchSt where
  boardId := 0
  fdom := 0
  peers := Vector.replicate 8 (0, false, false)
  tx := Vector.replicate 9 TxHop.reset
  rx := Vector.replicate 9 RxHop.reset
  held := Vector.replicate 16 []
  out := []
  stream := 0

/-- Pins and port outputs at power-on (log 9). -/
def Port.reset : Port := ⟨0, 0, 0, [], [], .bypass, none, 0, false⟩

/-- The command processor before S5 (R432: cores untested; journal, ledger and records cleared; first ticket 0, R226). -/
def Cp.reset : Cp := ⟨0, false, [], 0, false, 0, [], [], []⟩

/-- The block at the instant of power-on reset, stage S0 about to run (R8, R444). -/
def State.reset : State where
  pending := []
  free := 0
  blk := Blk.reset
  start := StartSt.reset
  svc := Svc.reset
  log := ⟨[], 0, 0, false, 0⟩
  kpr := Kpr.reset
  kin := KprIn.reset
  pwr := Pwr.reset
  ctxs := Vector.replicate 16 Ctx.reset
  qs := Vector.replicate 64 Queue.reset
  cp := Cp.reset
  arrays := Vector.replicate 32 ArraySt.reset
  halves := Vector.replicate 16 ThinSt.reset
  cores := Vector.replicate 8 CoreSt.reset
  tun := []
  mem := MemSt.reset
  stks := Vector.replicate 24 StackSt.reset
  map := MapSt.reset
  far := FarSt.reset
  mirror := Mirror.reset
  xch := XchSt.reset
  port := Port.reset

end Sys2Proof.Machine
end

