-- ==== Sys2Proof/Machine/Ops.lean ====
section
/-! DEFINITION. The named operations over State: unit access, memory, the address map, the channel map, the error log, the
service interrupt and the replacement conditions (R470, R316, R328-R342, R402-R409, R478). -/
namespace Sys2Proof.Machine

/-! Unit access. -/

/-- Element `i` of a bank of units (a default outside it). -/
def vget {α : Type} [Inhabited α] {n : Nat} (v : Vector α n) (i : Nat) : α := v[i]?.getD default

/-- Unit `i` of a bank changed by `f` (unchanged outside it). -/
def vmod {α : Type} {n : Nat} (v : Vector α n) (i : Nat) (f : α → α) : Vector α n :=
  if h : i < n then v.set i (f v[i]) else v

/-- Every unit of a bank changed by `f`. -/
def vall {α β : Type} {n : Nat} (v : Vector α n) (f : α → β) : Vector β n := v.map f

/-- Context `n`. -/
def State.ctx (s : State) (n : Nat) : Ctx := vget s.ctxs n
/-- Context `n` changed. -/
def State.onCtx (s : State) (n : Nat) (f : Ctx → Ctx) : State := { s with ctxs := vmod s.ctxs n f }
/-- Queue `q`. -/
def State.queue (s : State) (q : Nat) : Queue := vget s.qs q
/-- Queue `q` changed. -/
def State.onQ (s : State) (q : Nat) (f : Queue → Queue) : State := { s with qs := vmod s.qs q f }
/-- Array `a`. -/
def State.array (s : State) (a : Nat) : ArraySt := vget s.arrays a
/-- Array `a` changed. -/
def State.onArray (s : State) (a : Nat) (f : ArraySt → ArraySt) : State := { s with arrays := vmod s.arrays a f }
/-- Thin half `h` (2 × core + half). -/
def State.half (s : State) (h : Nat) : ThinSt := vget s.halves h
/-- Thin half `h` changed. -/
def State.onHalf (s : State) (h : Nat) (f : ThinSt → ThinSt) : State := { s with halves := vmod s.halves h f }
/-- Core `c`. -/
def State.core (s : State) (c : Nat) : CoreSt := vget s.cores c
/-- Core `c` changed. -/
def State.onCore (s : State) (c : Nat) (f : CoreSt → CoreSt) : State := { s with cores := vmod s.cores c f }
/-- Stack `x`. -/
def State.stack (s : State) (x : Nat) : StackSt := vget s.stks x
/-- Stack `x` changed. -/
def State.onStack (s : State) (x : Nat) (f : StackSt → StackSt) : State := { s with stks := vmod s.stks x f }
/-- The command processor changed. -/
def State.onCp (s : State) (f : Cp → Cp) : State := { s with cp := f s.cp }
/-- Memory changed. -/
def State.onMem (s : State) (f : MemSt → MemSt) : State := { s with mem := f s.mem }
/-- The exchange engine changed. -/
def State.onXch (s : State) (f : XchSt → XchSt) : State := { s with xch := f s.xch }
/-- The far tier changed. -/
def State.onFar (s : State) (f : FarSt → FarSt) : State := { s with far := f s.far }
/-- Keeper registers changed. -/
def State.onKpr (s : State) (f : Kpr → Kpr) : State := { s with kpr := f s.kpr }
/-- Keeper state behind the registers changed. -/
def State.onKin (s : State) (f : KprIn → KprIn) : State := { s with kin := f s.kin }
/-- PWR_CTRL and its like changed. -/
def State.onPwr (s : State) (f : Pwr → Pwr) : State := { s with pwr := f s.pwr }
/-- START_REC and its like changed. -/
def State.onStart (s : State) (f : StartSt → StartSt) : State := { s with start := f s.start }
/-- BLK_STATE and its like changed. -/
def State.onBlk (s : State) (f : Blk → Blk) : State := { s with blk := f s.blk }
/-- The service registers changed. -/
def State.onSvc (s : State) (f : Svc → Svc) : State := { s with svc := f s.svc }
/-- The error log changed. -/
def State.onLog (s : State) (f : ErrLog → ErrLog) : State := { s with log := f s.log }
/-- Tuning memories changed. -/
def State.onTun (s : State) (f : List TunCell → List TunCell) : State := { s with tun := f s.tun }
/-- The memory map changed. -/
def State.onMap (s : State) (f : MapSt → MapSt) : State := { s with map := f s.map }
/-- The persistent mirrors changed. -/
def State.onMirror (s : State) (f : Mirror → Mirror) : State := { s with mirror := f s.mirror }
/-- The ports changed. -/
def State.onPort (s : State) (f : Port → Port) : State := { s with port := f s.port }

/-- The context of queue `q` (R269). -/
def ctxOf (q : Nat) : Nat := q / 4
/-- The priority of queue `q` (R298). -/
def prioOf (q : Nat) : Nat := q % 4

/-! Association lists by key. -/

/-- The value under a key. -/
def aget {β : Type} : List (Nat × β) → Nat → Option β
  | [], _ => none
  | (k, v) :: r, i => if k = i then some v else aget r i

/-- The list with `v` under key `i`, ascending. -/
def aput {β : Type} : List (Nat × β) → Nat → β → List (Nat × β)
  | [], i, v => [(i, v)]
  | (k, w) :: r, i, v => if k = i then (i, v) :: r else if i < k then (i, v) :: (k, w) :: r else (k, w) :: aput r i v

/-- The list without key `i`. -/
def adel {β : Type} : List (Nat × β) → Nat → List (Nat × β)
  | [], _ => []
  | (k, w) :: r, i => if k = i then r else if i < k then (k, w) :: r else (k, w) :: adel r i

/-- `x` in an ascending list without repeats. -/
def nput : List Nat → Nat → List Nat
  | [], x => [x]
  | y :: r, x => if x = y then y :: r else if x < y then x :: y :: r else y :: nput r x

/-! Memory cells in canonical form. -/

/-- The listed byte at `a`. -/
def cellGet (c : List Host.Cell) (a : Nat) : Option Byte := aget c a

/-- Near-memory cells with byte `b` at `a`: an unlisted byte reads 0, so writing 0 removes the entry (log 2). -/
def cellPut (c : List Host.Cell) (a : Nat) (b : Byte) : List Host.Cell := if b = 0 then adel c a else aput c a b

/-- Near-memory cells with bytes written from `a` on, zeros unlisted. -/
def cellWrite (c : List Host.Cell) (a : Nat) (bs : List Byte) : List Host.Cell :=
  c.filter (fun x => decide (x.1 < a)) ++ ((rangeFrom a bs.length).zip bs).filter (fun x => decide (x.2 ≠ 0))
    ++ c.filter (fun x => decide (a + bs.length ≤ x.1))

/-- Addresses strictly rising, every one above `lo`. -/
def risingAbove (lo : Nat) : List Host.Cell → Bool
  | [] => true
  | (a, _) :: r => decide (lo < a) && risingAbove a r

/-- Addresses strictly rising. -/
def rising : List Host.Cell → Bool
  | [] => true
  | (a, _) :: r => risingAbove a r

/-- The canonical form of near memory: addresses strictly rising, and no entry equal to what an unlisted address reads. -/
def cellsWf (c : List Host.Cell) : Bool := rising c && c.all (fun x => decide (x.2 ≠ 0))

/-- The canonical form of the whole memory: the stacks' contents, and strictly rising addresses in the shared cache. -/
def MemSt.wf (m : MemSt) : Bool := cellsWf m.near && rising m.dirty

/-- A byte of near memory as every reader sees it: the shared cache's data, else the stacks' (R267). -/
def MemSt.read (m : MemSt) (a : Nat) : Byte := (cellGet m.dirty a).getD ((cellGet m.near a).getD 0)

/-- `n` bytes from `a` on. -/
def MemSt.readBytes (m : MemSt) (a n : Nat) : List Byte := (rangeFrom a n).map m.read

/-- `n` bytes from `a` on as a little-endian number (R4). -/
def MemSt.readNat (m : MemSt) (a n : Nat) : Nat := leNat (m.readBytes a n)

/-- Cells with a run of bytes from `a` on put in place of what stood there; every byte of the run is listed. -/
def runWrite (c : List Host.Cell) (a : Nat) (bs : List Byte) : List Host.Cell :=
  c.filter (fun x => decide (x.1 < a)) ++ (rangeFrom a bs.length).zip bs ++ c.filter (fun x => decide (a + bs.length ≤ x.1))

/-- Bytes written at `a`, held in the shared cache (R267). A granule written whole is readable again (R407). -/
def MemSt.write (m : MemSt) (a : Nat) (bs : List Byte) : MemSt :=
  { m with
    dirty := runWrite m.dirty a bs
    bad := m.bad.filter (fun g => !(decide (a ≤ g * 2048) && decide (g * 2048 + 2048 ≤ a + bs.length))) }

/-- The shared-cache bytes that satisfy `p` written to the stacks. -/
def MemSt.flush (m : MemSt) (p : Nat → Bool) : MemSt :=
  { m with
    near := (m.dirty.filter (fun x => p x.1)).foldl (fun c x => cellPut c x.1 x.2) m.near
    dirty := m.dirty.filter (fun x => !p x.1) }

/-- The shared-cache bytes that satisfy `p` lost (R407). -/
def MemSt.drop (m : MemSt) (p : Nat → Bool) : MemSt := { m with dirty := m.dirty.filter (fun x => !p x.1) }

/-- Lines of the shared cache: 96 MiB (R10). -/
def cacheLines : Nat := 786432

/-- Lines of the slices in service: 6 MiB each (R10, R439). -/
def MemSt.capacity (m : MemSt) : Nat := cacheLines / 16 * (16 - m.slicesOut.length)

/-- A line of data not yet written to the stacks is still in the shared cache: at most 96 MiB is, 6 MiB in each slice in service, and
which lines go first is a free value (R10; log 73). -/
def MemSt.resident (m : MemSt) (line : Nat) : Bool :=
  if m.dirty.length ≤ m.capacity || m.parked.contains line then true
  else
    let lines := (m.dirty.map (fun x => x.1 / 128)).eraseDups
    ((lines.mergeSort (fun x y => decide (Config.cacheRank x ≤ Config.cacheRank y))).take m.capacity).contains line

/-- `n` bytes of near memory as a little-endian number. -/
def State.readNat (s : State) (a n : Nat) : Nat := s.mem.readNat a n
/-- `n` bytes of near memory. -/
def State.readBytes (s : State) (a n : Nat) : List Byte := s.mem.readBytes a n
/-- Bytes written to near memory. -/
def State.writeBytes (s : State) (a : Nat) (bs : List Byte) : State := s.onMem (fun _ => s.mem.write a bs)
/-- An `n`-byte little-endian number written to near memory. -/
def State.writeNat (s : State) (a w n : Nat) : State := s.writeBytes a (natLe w n)

/-! The address map (R470). -/

/-- Regions of R470. -/
inductive Region where
  | near | far | reserved | host | window
  deriving DecidableEq, Repr

/-- The region of a byte address (R470). -/
def regionOf (a : Nat) : Region :=
  if a < 0x020000000000 then .near
  else if a < 0x0A0000000000 then .far
  else if a < 0x100000000000 then .reserved
  else if a < 0xFFFFFFFF0000 then .host
  else .window

/-- The first byte of the far-tier aperture (R470). -/
def farBase : Nat := 0x020000000000

/-- The end of the valid part of the region of `a`, and whether `a` lies in it (R470, R472: the window and the reserved
range have no valid part for a command). -/
def validEnd (s : State) (a : Nat) : Nat :=
  match regionOf a with
  | .near => s.map.top * 2048
  | .far => farBase + s.far.extents * 0x100000
  | .host => 0xFFFFFFFF0000
  | .reserved => 0
  | .window => 0

/-- The first byte of a run outside the valid part of the region of its first byte (R214, R225); for a run that wraps, the
address 0 after the wrap; `none` when it lies in it whole. An empty run is an access of nothing. -/
def badByte (s : State) (a len : Nat) : Option Nat :=
  if len = 0 then none
  else if a < 2 ^ 48 ∧ 2 ^ 48 < a + len then some 0
  else if a ≥ 2 ^ 48 ∨ a ≥ validEnd s a then some (a % 2 ^ 48)
  else if a + len ≤ validEnd s a then none
  else some (validEnd s a % 2 ^ 48)

/-- The run overlaps the block region outside the descriptor table (R471, R472). -/
def hitsBlockRegion (a len : Nat) : Bool :=
  decide (a < 0x0C000000) && decide (0 < len)
    || decide (a < 0x0D000000) && decide (0x0C040000 < a + len) && decide (0 < len)

/-- The run overlaps the far-tier aperture (R347). -/
def hitsAperture (a len : Nat) : Bool := decide (a < 0x0A0000000000) && decide (farBase < a + len) && decide (0 < len)

/-- A run that no output of a command may touch: the block region outside the descriptor table, or the far-tier aperture (R347,
R472). -/
def forbidsWrite (a len : Nat) : Bool := hitsBlockRegion a len || hitsAperture a len

/-! The channel map (R313-R316). -/

/-- Stacks of the assembly (R313). -/
def stackCount (profile : Nat) : Nat :=
  match profile with | 0 => 8 | 1 => 12 | 2 => 16 | _ => 24
/-- Parity group width w (R313). -/
def groupWidth (profile : Nat) : Nat :=
  match profile with | 0 => 8 | 1 => 12 | _ => 16
/-- Parity groups G (R313). -/
def groupCount (profile : Nat) : Nat := if profile = 3 then 48 else 32

/-- CHMAP: the physical channel of member `m` of group `k` (R315). -/
def chmap (profile k m : Nat) : Nat × Nat :=
  if profile = 3 then
    let i := k % 16
    match k / 16 with
    | 0 => if m < 8 then (m, i) else (m, i)
    | 1 => if m < 8 then (8 + m, 16 + i) else (8 + m, i)
    | _ => if m < 8 then (16 + m, 16 + i) else (m - 8, 16 + i)
  else (m, k)

/-- Data members per stripe (R316). -/
def dataWidth (p : MapSt) : Nat := if p.parity then groupWidth p.profile - 1 else groupWidth p.profile
/-- Data granules per row, D (R316). -/
def rowGranules (p : MapSt) : Nat := groupCount p.profile * dataWidth p

/-- Where a granule lies (R316). -/
structure Place where
  stack : Nat
  chan : Nat
  slot : Nat
  group : Nat
  member : Nat
  deriving DecidableEq, Repr

/-- `place` of R316. -/
def place (p : MapSt) (g : Nat) : Place :=
  let v := dataWidth p
  let w := groupWidth p.profile
  let G := groupCount p.profile
  let r := g / rowGranules p
  let x := g % rowGranules p
  let k := (x / v + 7 * r) % G
  let j := x % v
  let m := if p.parity && decide (j ≥ (r + k) % w) then j + 1 else j
  let c := chmap p.profile k m
  ⟨c.1, c.2, r, k, m⟩

/-- The stripe of a granule, as row × G + group (R316). -/
def stripeOf (p : MapSt) (g : Nat) : Nat := (place p g).slot * groupCount p.profile + (place p g).group

/-- The members of group `k`. -/
def members (p : MapSt) (k : Nat) : List (Nat × Nat) := (rangeFrom 0 (groupWidth p.profile)).map (chmap p.profile k)

/-- A stack serves no direct access: being fenced, fenced, dead or in phase 1 of its return (R337, R338, R340, R342). Requests that
arrive during the fence wait for it, so they see what it leaves. -/
def Fence.away : Fence → Bool
  | .fencing | .fenced | .refencing | .return1 | .dead => true
  | _ => false

/-- The cellar takes the stack's writes (R337, R338, R340): from the beginning of its fence to phase 2 of its return. -/
def Fence.parks : Fence → Bool
  | .fencing | .fenced | .refencing | .return1 => true
  | _ => false

/-- FENCED shows the stack (R333). -/
def Fence.shown : Fence → Bool
  | .fenced | .return1 | .return2 | .refencing | .dead => true
  | _ => false

/-- Group and member of a physical channel: CHMAP read backwards (R315). -/
def chanMember (profile stack chan : Nat) : Nat × Nat :=
  if profile = 3 then
    let i := chan % 16
    if stack < 8 then (if chan < 16 then (i, stack) else (32 + i, 8 + stack))
    else if stack < 16 then (if chan < 16 then (i, stack) else (16 + i, stack - 8))
    else if chan < 16 then (16 + i, stack - 8) else (32 + i, stack - 16)
  else (chan, stack)

/-- Data granules of row `r` on channels outside `skip` (R329). -/
def usableIn (p : MapSt) (skip : List (Nat × Nat)) (r : Nat) : Nat :=
  rowGranules p - (skip.filter (fun c =>
    let x := chanMember p.profile c.1 c.2
    !(p.parity && x.2 == (r + x.1) % groupWidth p.profile))).length

/-- The row that holds the `i`-th usable granule from row `r` on, and its rank in that row. -/
def seekRow (p : MapSt) (skip : List (Nat × Nat)) : Nat → Nat → Nat → Nat × Nat
  | 0, r, i => (r, i)
  | n + 1, r, i => if i < usableIn p skip r then (r, i) else seekRow p skip n (r + 1) (i - usableIn p skip r)

/-- The relocation granule of slot `r` of a mapped-out channel: the r-th of its range on channels in service (R329). -/
def relocGranule (p : MapSt) (o : MapOut) (r : Nat) : Nat :=
  let d := rowGranules p
  let x := seekRow p o.skip (r + 1) (o.base / d) r
  (((rangeFrom (x.1 * d) d).filter (fun g => !o.skip.contains ((place p g).stack, (place p g).chan)))[x.2]?).getD (x.1 * d)

/-- How a channel's slot is missing: by the fence of a stack, by a loss, or not (R332, R339). -/
inductive Missing where
  | no | fence (stack : Nat) | lost
  deriving DecidableEq, Repr

/-- A missing slot of a mapped-out channel that has been moved (R331). -/
def State.movedOut (s : State) (c : Nat × Nat) (r : Nat) : Option MapOut :=
  s.map.outs.find? (fun o => o.stack == c.1 && o.chan == c.2 && decide (r < o.moved) && !o.gaps.contains r)

/-- The later fenced of two stacks (R339). -/
def laterFenced (s : State) (x y : Nat) : Nat :=
  if s.map.fenced.idxOf x < s.map.fenced.idxOf y then y else x

/-- What stands in the way of reading granule `g` (R332, R339, R341, R407): with parity, a granule whose own member is missing is
rebuilt from its stripe unless another member is missing too; a moved slot is missing when its relocation granule cannot be
read (R329, R331). The number bounds the relocations followed. -/
def granuleFaultN : Nat → State → Nat → Option Cond
  | 0, _, g => some ⟨.memoryUnrecoverable, g * 2048⟩
  | n + 1, s, g =>
    let p := place s.map g
    let state := fun (c : Nat × Nat) =>
      if (s.stack c.1).fence.away then Missing.fence c.1
      else if !(s.stack c.1).lost.contains c.2 then Missing.no
      else match s.movedOut c p.slot with
        | none => Missing.lost
        | some o => match granuleFaultN n s (relocGranule s.map o p.slot) with
          | none => Missing.no
          | some ⟨.stackFencedNoParity, x⟩ => Missing.fence x
          | some _ => Missing.lost
    let own := state (p.stack, p.chan)
    if s.mem.bad.contains g then some ⟨.memoryUnrecoverable, g * 2048⟩
    else if own = .no then none
    else if !s.map.parity then
      match own with
      | .fence x => some ⟨.stackFencedNoParity, x⟩
      | _ => some ⟨.memoryUnrecoverable, g * 2048⟩
    else
      let others := ((members s.map p.group).filter (fun c => c != (p.stack, p.chan))).filterMap (fun c =>
        match state c with
        | .no => none
        | x => some x)
      match own, others with
      | _, [] => none
      | .fence x, .fence y :: _ => some ⟨.stackFencedNoParity, laterFenced s x y⟩
      | .fence x, _ => some ⟨.stackFencedNoParity, x⟩
      | _, .fence y :: _ => some ⟨.stackFencedNoParity, y⟩
      | _, _ => some ⟨.memoryUnrecoverable, g * 2048⟩

/-- What stands in the way of reading granule `g`: at most 8 map-outs can follow one another. -/
def granuleFault (s : State) (g : Nat) : Option Cond := granuleFaultN 10 s g

/-- Where a granule is written: its relocation granule once its slot is moved (R331). -/
def effPlaceN : Nat → State → Nat → Place
  | 0, s, g => place s.map g
  | n + 1, s, g =>
    let p := place s.map g
    if (s.stack p.stack).lost.contains p.chan then
      match s.movedOut (p.stack, p.chan) p.slot with
      | none => p
      | some o => effPlaceN n s (relocGranule s.map o p.slot)
    else p

/-- Where a granule is written. -/
def effPlace (s : State) (g : Nat) : Place := effPlaceN 10 s g

/-- All is well in the stacks: no channel lost, none fenced, no granule bad. -/
def memSound (s : State) : Bool :=
  s.mem.bad.isEmpty && s.stks.toList.all (fun x => x.lost.isEmpty && x.fence == .none)

/-- The 128-byte line of an address. -/
def lineOf (a : Nat) : Nat := a / 128

/-- Lines held for resident operands at most: 48 MiB (R218). -/
def heldLimit : Nat := 48 * 8192

/-- Lines held for a resident operand; those beyond the limit are ordinary cached lines (R217, R218). -/
def MemSt.hold (m : MemSt) (key : Key) (tile : Nat × Nat × Nat × Nat) (lines : List Nat) : MemSt :=
  { m with held := lines.foldl (fun l x =>
      if l.contains ⟨key, tile, x⟩ then l
      else if l.any (·.line == x) || decide ((l.map (·.line)).eraseDups.length < heldLimit) then l ++ [⟨key, tile, x⟩] else l) m.held }

/-- Every byte of the run is held by the shared cache or the cellar, so the stacks are not read (R136, R217, R267, R338). -/
def heldInCache (s : State) (a len : Nat) : Bool :=
  (rangeFrom a len).all (fun x => ((cellGet s.mem.dirty x).isSome && s.mem.resident (x / 128)) || s.mem.held.any (fun h => h.line == x / 128))

/-- The first cached line of a run with an uncorrectable word, by its address (R385). `add`: a line whose next long-word add fails
(R384). -/
def MemSt.badLine (m : MemSt) (add : Bool) (a len : Nat) : Option Nat :=
  (m.upsets.find? (fun u => u.2 == add && decide (a < u.1 * 128 + 128) && decide (u.1 * 128 < a + len))).map (·.1 * 128)

/-- The first unit of a near-memory run that cannot be read, with the status it gives: a cached line with an uncorrectable word, or a
granule (R332, R339, R385, R406). -/
def readFault (s : State) (a len : Nat) : Option Cond :=
  if len = 0 then none
  else if let some l := s.mem.badLine false a len then some ⟨.memoryUnrecoverable, l⟩
  else if memSound s then none
  else (rangeFrom (a / 2048) ((a + len - 1) / 2048 + 1 - a / 2048)).findSome? (fun g =>
    let lo := max a (g * 2048)
    if heldInCache s lo (min (a + len) (g * 2048 + 2048) - lo) then none else granuleFault s g)

/-- A write to a fenced stack without parity, or to a lost channel without parity, fails (R332, R341). -/
def writeFault (s : State) (a len : Nat) : Option Cond :=
  if len = 0 || memSound s || s.map.parity then none
  else (rangeFrom (a / 2048) ((a + len - 1) / 2048 + 1 - a / 2048)).findSome? (fun g =>
    let p := place s.map g
    if (s.stack p.stack).fence.away then some ⟨.stackFencedNoParity, p.stack⟩
    else if (s.stack p.stack).lost.contains p.chan then some ⟨.memoryUnrecoverable, g * 2048⟩
    else none)

/-- Lines the cellar holds at most: 21 MiB (R338). -/
def cellarLines : Nat := 21 * 8192

/-- Lines parked in the cellar (R338). -/
def MemSt.park (m : MemSt) (lines : List Nat) : MemSt := { m with parked := lines.foldl nput m.parked }

/-- The lines a write touches. -/
def linesOf (a len : Nat) : List Nat :=
  if len = 0 then [] else rangeFrom (a / 128) ((a + len - 1) / 128 + 1 - a / 128)

/-- A stripe marked stale for a fenced stack (R338). -/
def MemSt.mark (m : MemSt) (stack stripe : Nat) : MemSt :=
  if m.marks.contains (stack, stripe) then m else { m with marks := (stack, stripe) :: m.marks }

/-- The stack that a line of near memory is written to. -/
def lineStack (s : State) (l : Nat) : Nat := (effPlace s (l / 16)).stack

/-- The cellar's bookkeeping of one line written (R338, R339, R342): a line of a fenced stack is parked, or with no room written
degraded, its stripe marked; a stripe whose parity lies on the fenced stack is marked; a DEAD stack takes degraded writes. -/
def State.parkLine (s : State) (l : Nat) : State :=
  let p := effPlace s (l / 16)
  let stripe := p.slot * groupCount s.map.profile + p.group
  let par := (chmap s.map.profile p.group ((p.slot + p.group) % groupWidth s.map.profile)).1
  if (s.stack p.stack).fence.parks then
    if s.mem.parked.contains l || decide (s.mem.parked.length < cellarLines) then s.onMem (·.park [l])
    else s.onMem (·.mark p.stack stripe)
  else if (s.stack p.stack).fence = .dead then s
  else if (s.stack par).fence.parks then s.onMem (·.mark par stripe) else s

/-- The cellar's bookkeeping of a write at `a` (R338, R339, R342). -/
def State.parkWrite (s : State) (a len : Nat) : State :=
  if memSound s || !s.map.parity then s else (linesOf a len).foldl State.parkLine s

/-- A write that is not collective waits: for room in the cellar until the return of the stack begins, unless its context is being
disabled or preempted, and through phase 1 of the return (R339, R340). -/
def State.writeWaits (s : State) (ctx : Option Nat) (runs : List (Nat × Nat)) : Bool :=
  if memSound s || !s.map.parity then false
  else
    let lines := (runs.flatMap (fun r => linesOf r.1 r.2)).eraseDups
    let new := lines.filter (fun l => (s.stack (lineStack s l)).fence.parks && !s.mem.parked.contains l)
    let hurry := match ctx with
      | some n => (s.ctx n).mode == .disabling || (s.ctx n).mode == .preempting
      | none => false
    lines.any (fun l => (s.stack (lineStack s l)).fence == .return1)
      || (!hurry && !new.isEmpty && decide (cellarLines < s.mem.parked.length + new.length))

/-- A unit's write to near memory: the data in the shared cache, with the cellar's bookkeeping (R267, R338). -/
def State.store (s : State) (a : Nat) (bs : List Byte) : State := (s.parkWrite a bs.length).writeBytes a bs

/-! Service interrupt, error log, replacement conditions. -/

/-- Cause `i` of SVC_IRQ set (R478). -/
def State.raiseSvc (s : State) (i : Nat) : State := s.onSvc (fun x => { x with irq := s.svc.irq ||| 2 ^ i })

/-- What a record says (R403). -/
structure Rec where
  event : Nat
  action : Nat
  kind : Nat := 0
  unit : Nat := 0
  ctx : Option Nat := none
  ticket : Option Nat := none
  d0 : Nat := 0
  d1 : Nat := 0
  deriving DecidableEq, Repr

/-- The 256-bit record (R403). -/
def recWord (seq telem : Nat) (r : Rec) : Nat :=
  putBits seq 32 0 + putBits r.event 8 32 + putBits r.action 4 40 + putBits r.kind 4 48 + putBits r.unit 12 52
    + putBits (r.ctx.getD 0) 4 64 + putBits (bit r.ctx.isSome) 1 68 + putBits (bit r.ticket.isSome) 1 69
    + putBits (r.ticket.getD 0) 16 72 + putBits telem 32 96 + putBits r.d0 64 128 + putBits r.d1 64 192

/-- The error-log mirror in the block region (R471). -/
def logMirror : Nat := 0x0C080000
/-- The keeper mirrors in the block region: wear counters, wear ledger, saved totals (R471); their places in it: log 83. -/
def keeperMirror : Nat := 0x0C088000

/-- The records that raise the service interrupt (R405). -/
def recRaises (r : Rec) : Bool :=
  r.action == 1 || r.action == 4 || r.action == 5 || r.action == 6 || r.action == 7
    || r.event == 0x20 || r.event == 0x1A || r.event == 0x13

/-- The log after one more record (R402). -/
def ErrLog.push (l : ErrLog) (w : Nat) : ErrLog :=
  { l with
    recs := aput l.recs l.wr w
    wr := (l.wr + 1) % 1024
    wrapped := l.wrapped || l.wr == 1023
    nextSeq := (l.nextSeq + 1) % 2 ^ 32 }

/-- A record's mirror in near memory; not before the stacks are trained at stage S2 (R402, R432, R471). -/
def State.mirrorRec (s : State) (i w : Nat) : State :=
  if s.start.stage ≤ 2 then s
  else (s.store (logMirror + 32 * i) (natLe w 32)).onMirror (fun x => { x with log := s.log })

/-- One record written: the log, its mirror, and the service interrupt (R402-R405, R471). -/
def State.logRec (s : State) (r : Rec) : State :=
  let w := recWord s.log.nextSeq s.kpr.sample r
  let i := s.log.wr
  let s := s.onLog (fun _ => s.log.push w)
  let s := s.mirrorRec i w
  if recRaises r then s.raiseSvc 0 else s

/-- The line address of a byte address. -/
def lineAddr (a : Nat) : Nat := a / 128 * 128

/-- A SC_UE record (R404); the slice of a line follows a hash the spec does not give. -/
def scRec (line how action : Nat) : Rec :=
  { event := 0x07, action := action, kind := 6, unit := (Config.sliceOf line).toNat, d0 := line, d1 := how }

/-- A RESIDUE record of the shared cache's adder (R384, R404). -/
def addResidue (line : Nat) (ctx : Nat) (ticket : Option Nat) : Rec :=
  { event := 0x04, action := 6, kind := 6, unit := (Config.sliceOf line).toNat, ctx := some ctx, ticket := ticket, d0 := 4 }

/-- A dirty line that cannot be read is dropped: near memory keeps its earlier contents (R407). -/
def State.dropLine (s : State) (a : Nat) : State :=
  s.onMem (fun m => { m.drop (fun x => x / 128 == a / 128) with upsets := m.upsets.filter (fun u => u.1 != a / 128) })

/-- The record of a dirty line lost to a command, and the line dropped, when that is what the condition names (R385, R404, R407). -/
def State.meetLine (s : State) (c : Cond) : State :=
  if c.status = .memoryUnrecoverable ∧ c.info % 128 = 0 ∧ s.mem.upsets.contains (c.info / 128, false) then
    (s.logRec (scRec c.info 2 6)).dropLine c.info
  else s

/-- The lines that a command's conditions name as lost (R385, R407). -/
def State.meetAll (s : State) (l : List Cond) : State := l.foldl State.meetLine s

/-- The index the next record takes: what replies name as a record's log index (R286). -/
def State.nextLog (s : State) : Nat := s.log.wr

/-- Arrays in service (R475). -/
def arraysIn (s : State) : Nat := (s.arrays.toList.filter (·.inService)).length
/-- Cores in service (R475). -/
def coresIn (s : State) : Nat := (s.cores.toList.filter (·.inService)).length
/-- Cores whose thin path serves (R254). -/
def thinsIn (s : State) : Nat := (s.cores.toList.filter (·.thinIn)).length

/-- A fuse record slot is unprogrammed (R396, R399). -/
def fuseRec (fuse i : Nat) : Nat := (fuse >>> (4096 + 32 * i)) % 2 ^ 32

/-- The conditions of R409 that hold now, by code. -/
def condsNow (s : State) : List Nat :=
  (if 32 - arraysIn s ≥ 4 then [0x01] else [])
    ++ (if 32 - arraysIn s ≥ 8 then [0x02] else [])
    ++ (if coresIn s = 7 then [0x03] else [])
    ++ (if coresIn s ≤ 6 then [0x04] else [])
    ++ (if 8 - thinsIn s ≥ 2 then [0x05] else [])
    ++ (if !s.cp.spare then [0x06] else [])
    ++ (if s.cp.running ≤ 1 && s.cp.testing = 0 then [0x07] else [])
    ++ (if s.kin.copies ≤ 2 then [0x08] else [])
    ++ (if s.map.outs.length ≥ 4 then [0x09] else [])
    ++ (if (s.stks.toList.map (·.lost.length)).foldl (· + ·) 0 > s.map.outs.length then [0x0A] else [])
    ++ (if s.stks.toList.any (·.fence == .dead) then [0x0B] else [])
    ++ (if decide (64 ≤ s.blk.repair.length) || (rangeFrom 0 384).all (fun i => fuseRec s.blk.fuse i != 0) then [0x0C] else [])

/-- The level of a condition is REPLACE (R409). -/
def condReplace (c : Nat) : Bool := [0x02, 0x04, 0x07, 0x08, 0x0A, 0x0B].contains c

/-- Conditions that newly hold are reported: a REPLACE record, the service interrupt and BLK_STATE (R408, R409). -/
def State.report (s : State) : State :=
  if s.blk.mode = .starting ∨ s.blk.mode = .failed then s
  else
    let now := condsNow s
    let fresh := now.filter (fun c => !s.blk.conds.contains c)
    let s := fresh.foldl (fun s c => s.logRec { event := 0x20, action := 9, d0 := c }) s
    s.onBlk (fun x => { x with
        conds := now
        degraded := now.any (fun c => !condReplace c)
        replace := now.any condReplace
        lastCond := fresh.getLast?.getD s.blk.lastCond })

end Sys2Proof.Machine
end

