-- ==== Sys2Proof/Machine/Packet.lean ====
section
/-! DEFINITION. Fields of the packet (R275, R278, R280, R282), the prologue record (R148), the chain record (R183, R184) and
the loop descriptor (R207, R208), cut from the little-endian numbers of their structures (R4). -/
namespace Sys2Proof.Machine

/-- Address of the packet at position `p` of a queue (R270). -/
def packetAddr (q : Queue) (p : Nat) : Nat := q.base + (p % 2 ^ q.log) * 512
/-- Address of the reply of position `p` (R269, R270). -/
def replyAddr (q : Queue) (p : Nat) : Nat := q.base + 2 ^ q.log * 512 + (p % 2 ^ q.log) * 64

def pOp (p : Nat) : Nat := bitsOf p 7 0
def pExtLen (p : Nat) : Nat := bitsOf p 10 8
def pIrq (p : Nat) : Bool := bitOf p 11
def pHostTag (p : Nat) : Nat := bitsOf p 63 32

def cDesc (p : Nat) : Nat := bitsOf p 69 64
def cAnchorMode (p : Nat) : Nat := bitsOf p 71 70
def cAnchor (p : Nat) : Int := toSigned (bitsOf p 87 72) 16
def cFmtA (p : Nat) : Nat := bitsOf p 91 88
def cFmtW (p : Nat) : Nat := bitsOf p 95 92
def cOutFmt (p : Nat) : Nat := bitsOf p 99 96
def cFlush (p : Nat) : Bool := bitOf p 100
def cRound (p : Nat) : Nat := bitsOf p 102 101
def cIeee (p : Nat) : Bool := bitOf p 103
def cFullPasses (p : Nat) : Bool := bitOf p 104
def cDest (p : Nat) : Nat := bitsOf p 106 105
def cProEn (p : Nat) : Bool := bitOf p 107
def cChainEn (p : Nat) : Bool := bitOf p 108
def cPerFold (p i : Nat) : Bool := bitOf p (109 + i)
def cScanAddr (p : Nat) : Nat := bitsOf p 175 128
/-- LBi, i = 0–2 (R278). -/
def cLb (p i : Nat) : Nat := bitsOf p (239 + 64 * i) (192 + 64 * i)
def cSeed (p : Nat) : Nat := bitsOf p 447 384
def cTagMain (p : Nat) : Nat := bitsOf p 479 448
def cTagSave (p : Nat) : Nat := bitsOf p 511 480

/-- Extension block `i` (R280). -/
def extBlock (p i : Nat) : Nat := bitsOf p (512 * (i + 2) - 1) (512 * (i + 1))

/-! The prologue record (R148). -/

def proFn (p : Nat) : Nat := if cProEn p then bitsOf (extBlock p 0) 3 0 else 0
def proPost (p : Nat) : Nat := if cProEn p then bitsOf (extBlock p 0) 7 4 else 0
def proInFmt (p : Nat) : Nat := if cProEn p then bitsOf (extBlock p 0) 11 8 else cFmtA p
def proAffine (p : Nat) : Bool := cProEn p && bitOf (extBlock p 0) 12
def proPad (p : Nat) : Nat := if cProEn p then bitsOf (extBlock p 0) 47 16 else 0
def proSlope (p : Nat) : Nat := bitsOf (extBlock p 0) 95 64
def proEps (p : Nat) : Nat := bitsOf (extBlock p 0) 127 96
def proStatBase (p : Nat) : Nat := bitsOf (extBlock p 0) 175 128
def proStatStride (p : Nat) : Nat := bitsOf (extBlock p 0) 223 192
def proAS (p : Nat) : Int := toSigned (bitsOf (extBlock p 0) 239 224) 16
def proAQ (p : Nat) : Int := toSigned (bitsOf (extBlock p 0) 255 240) 16
def proCount (p : Nat) : Nat := bitsOf (extBlock p 0) 287 256
def proGamma (p : Nat) : Nat := bitsOf (extBlock p 0) 367 320
def proBeta (p : Nat) : Nat := bitsOf (extBlock p 0) 431 384
/-- A NORM function code (R150). -/
def isNorm (fn : Nat) : Bool := fn == 0xA || fn == 0xB || fn == 0xC
/-- Elements and scales pass through unchanged (R149). -/
def passThrough (p : Nat) : Bool := proFn p == 0 && proInFmt p == cFmtA p

/-! The chain record (R183), blocks 1 and 2 read as one number, in the commands that read CHAIN_EN (R279). -/

def readsChain (op : Nat) : Bool := op == 0x10 || op == 0x11 || op == 0x12 || op == 0x15
def chainWord (p : Nat) : Nat := if readsChain (pOp p) && cChainEn p then bitsOf p 2047 1024 else 0
def opCount (p : Nat) : Nat := bitsOf (chainWord p) 3 0
def statMode (p : Nat) : Nat := bitsOf (chainWord p) 5 4
def statInit (p : Nat) : Bool := bitOf (chainWord p) 6
/-- Operation i as (KIND, ARG) (R184). -/
def chainOp (p i : Nat) : Nat × Nat := (bitsOf (chainWord p) (15 + 8 * i) (12 + 8 * i), bitsOf (chainWord p) (11 + 8 * i) (8 + 8 * i))
/-- The operations in order (R184). -/
def chainOps (p : Nat) : List (Nat × Nat) := (rangeFrom 0 (min (opCount p) 8)).map (chainOp p)
def mulcK (p : Nat) : Nat := bitsOf (chainWord p) 103 72
def chainSlope (p : Nat) : Nat := bitsOf (chainWord p) 135 104
def chainEps (p : Nat) : Nat := bitsOf (chainWord p) 167 136
/-- Input stream record i (R183). -/
def streamWord (p i : Nat) : Nat := bitsOf (chainWord p) (383 + 128 * i) (256 + 128 * i)
def stBase (w : Nat) : Nat := bitsOf w 47 0
def stFmt (w : Nat) : Nat := bitsOf w 51 48
def stShape (w : Nat) : Nat := bitsOf w 53 52
def stEn (w : Nat) : Bool := bitOf w 54
def stStride (w : Nat) : Nat := bitsOf w 95 64
def stAnchor (w : Nat) : Int := toSigned (bitsOf w 111 96) 16
def saveWord (p : Nat) : Nat := bitsOf (chainWord p) 895 640
def svBase (w : Nat) : Nat := bitsOf w 47 0
def svFmt (w : Nat) : Nat := bitsOf w 51 48
def svEn (w : Nat) : Bool := bitOf w 52
def svStride (w : Nat) : Nat := bitsOf w 95 64
def svScaleStride (w : Nat) : Nat := bitsOf w 127 96
def svScaleBase (w : Nat) : Nat := bitsOf w 175 128
def statWord (p : Nat) : Nat := bitsOf (chainWord p) 1023 896
def ssBase (w : Nat) : Nat := bitsOf w 47 0
def ssEn (w : Nat) : Bool := bitOf w 48
def ssStride (w : Nat) : Nat := bitsOf w 95 64
def ssAS (w : Nat) : Int := toSigned (bitsOf w 111 96) 16
def ssAQ (w : Nat) : Int := toSigned (bitsOf w 127 112) 16

/-! Operand blocks (R280). -/

def gIndexBase (p : Nat) : Nat := bitsOf (extBlock p 3) 47 0
def gTableRows (p : Nat) : Nat := bitsOf (extBlock p 3) 95 64
def cbBase (p i : Nat) : Nat := bitsOf (extBlock p 3) (64 * i + 47) (64 * i)
def cbAnchor (p i : Nat) : Int := toSigned (bitsOf (extBlock p 3) (64 * i + 63) (64 * i + 48)) 16
def finFn (p : Nat) : Nat := bitsOf (extBlock p 3) 3 0
def finDenom (p : Nat) : Bool := bitOf (extBlock p 3) 4
def finOutEn (p : Nat) : Bool := bitOf (extBlock p 3) 5
def finAS (p : Nat) : Int := toSigned (bitsOf (extBlock p 3) 31 16) 16
def finAQ (p : Nat) : Int := toSigned (bitsOf (extBlock p 3) 47 32) 16
def finStatBase (p : Nat) : Nat := bitsOf (extBlock p 3) 111 64
def finStatStride (p : Nat) : Nat := bitsOf (extBlock p 3) 159 128
def sgBase (p : Nat) : Nat := bitsOf (extBlock p 3) 47 0
def sgRows (p : Nat) : Nat := bitsOf (extBlock p 3) 95 64
def sgAnchor (p : Nat) : Int := toSigned (bitsOf (extBlock p 3) 111 96) 16

/-- Number of inputs of a COMBINE: the present ones are contiguous from 0 (R280). -/
def cbCount (p : Nat) : Nat := ((rangeFrom 0 8).takeWhile (fun i => cbBase p i != 0)).length

/-! The loop descriptor (R207, R208). -/

def dVersion (d : Nat) : Nat := bitsOf d 3 0
def dFoldInto (d : Nat) : Bool := bitOf d 4
def dAInner (d : Nat) : Bool := bitOf d 5
def dWInner (d : Nat) : Bool := bitOf d 6
def dFrozenEn (d : Nat) : Bool := bitOf d 7
def dFrozenBase (d : Nat) : Nat := bitsOf d 63 16
/-- The record of level l (R207). -/
def dLevel (d l : Nat) : Nat := bitsOf d (128 + 320 * l + 319) (128 + 320 * l)
def dOrder (d l : Nat) : Nat := bitsOf (dLevel d l) 7 0
def dResA (d l : Nat) : Bool := bitOf (dLevel d l) 8
def dResW (d l : Nat) : Bool := bitOf (dLevel d l) 9
def dSlotBase (d l : Nat) : Nat := bitsOf (dLevel d l) 15 11
def dSlotQuota (d l : Nat) : Nat := bitsOf (dLevel d l) 19 16
/-- LB selector of dimension i: 0 M, 1 N, 2 K, 3 F. -/
def dLb (d l i : Nat) : Nat := bitsOf (dLevel d l) (21 + 2 * i) (20 + 2 * i)
/-- EXT of dimension i at level l: 0 M, 1 N, 2 K, 3 F. -/
def dExt (d l i : Nat) : Nat := bitsOf (dLevel d l) (63 + 32 * i) (32 + 32 * i)
def dTA (d l : Nat) : Nat := bitsOf (dLevel d l) 207 160
def dTW (d l : Nat) : Nat := bitsOf (dLevel d l) 255 208
def dTO (d l : Nat) : Nat := bitsOf (dLevel d l) 303 256
/-- Byte offset of level l's record (R207). -/
def lvOff (l : Nat) : Nat := 16 + 40 * l
/-- Dimension codes of ORDER from outermost to innermost (R209). -/
def orderDims (o : Nat) : List Nat := [bitsOf o 1 0, bitsOf o 3 2, bitsOf o 5 4, bitsOf o 7 6]

/-- Address of descriptor i of context n (R205, R471). -/
def descAddr (n i : Nat) : Nat := 0x0C000000 + (64 * n + i) * 256

/-! Addresses of R214. -/

/-- Modulo 2^48 (R214). -/
def a48 (a : Nat) : Nat := a % 2 ^ 48

/-- a_elem of R214 and R259: the byte where the element (f, m, k) begins, with pos in `fmt`; `m` is the source row. -/
def aElem (d : Nat) (fmt : Fmt) (f m k : Nat) : Nat :=
  a48 (dTA d 5 + f * dTA d 3 + (if dAInner d then k * dTA d 4 + posByte fmt m else m * dTA d 4 + posByte fmt k))
/-- a_scale of R214. -/
def aScale (d f m b : Nat) : Nat :=
  a48 (dTA d 2 + f * dTA d 0 + (if dAInner d then b * dTA d 1 + m else m * dTA d 1 + b))
/-- w_elem of R214. -/
def wElem (d : Nat) (fmt : Fmt) (f k n : Nat) : Nat :=
  a48 (dTW d 5 + f * dTW d 3 + (if dWInner d then n * dTW d 4 + posByte fmt k else k * dTW d 4 + posByte fmt n))
/-- w_scale of R214. -/
def wScale (d f b n : Nat) : Nat :=
  a48 (dTW d 2 + f * dTW d 0 + (if dWInner d then n * dTW d 1 + b else b * dTW d 1 + n))
/-- o_elem of R214. -/
def oElem (d : Nat) (fmt : Fmt) (f m n : Nat) : Nat := a48 (dTO d 5 + f * dTO d 3 + m * dTO d 4 + posByte fmt n)
/-- o_scale of R214. -/
def oScale (d f m c : Nat) : Nat := a48 (dTO d 2 + f * dTO d 0 + m * dTO d 1 + c)

end Sys2Proof.Machine
end

