-- ==== Sys2Proof/Machine/Tiles.lean ====
section
/-! DEFINITION. The loop nest: boxes, live bounds, skipped and frozen tiles, stage tiles and their runs (R210-R212, R219-R222,
R229, R251, R279). -/
namespace Sys2Proof.Machine

/-- The origin and end of dimension `d` (0 M, 1 N, 2 K, 3 F) of a box. -/
def Box.range (b : Box) : Nat → Nat × Nat
  | 0 => (b.m0, b.m1)
  | 1 => (b.n0, b.n1)
  | 2 => (b.k0, b.k1)
  | _ => (b.f0, b.f1)

/-- The box with dimension `d` cut to [lo, hi). -/
def Box.cut (b : Box) (d lo hi : Nat) : Box :=
  match d with
  | 0 => { b with m0 := lo, m1 := hi }
  | 1 => { b with n0 := lo, n1 := hi }
  | 2 => { b with k0 := lo, k1 := hi }
  | _ => { b with f0 := lo, f1 := hi }

/-- Pieces of [lo, hi) of length `ext`, the last one ragged (R210). -/
def cuts (lo hi ext : Nat) : List (Nat × Nat) :=
  if ext = 0 then [] else
  (rangeFrom 0 (ceilDiv (hi - lo) ext)).map (fun i => (lo + i * ext, min hi (lo + (i + 1) * ext)))

/-- The tiles of a box, outermost dimension first, ascending origins (R209, R210). -/
def loopNest (ext : Nat → Nat) : List Nat → Box → List Box
  | [], b => [b]
  | d :: ds, b => (cuts (b.range d).1 (b.range d).2 (ext d)).flatMap (fun r => loopNest ext ds (b.cut d r.1 r.2))

/-- A bound that is one number for every fold, or one per fold (R219). -/
def boundAt (l : List Nat) (f : Nat) : Nat :=
  match l with
  | [x] => x
  | l => l.getD f 0

/-- The largest value a bound takes over the folds. -/
def boundMax (l : List Nat) : Nat := l.foldl max 0

def Comp.mAt (c : Comp) (f : Nat) : Nat := boundAt c.mEff f
def Comp.nAt (c : Comp) (f : Nat) : Nat := boundAt c.nEff f
def Comp.kAt (c : Comp) (f : Nat) : Nat := boundAt c.kEff f

/-- The mask index t of an output tile (R221). -/
def maskIndex (d : Nat) (t : Tile) : Nat :=
  (t.f * ceilDiv (dExt d 5 0) 256 + t.m0 / 256) * ceilDiv (dExt d 5 1) 256 + t.n0 / 256

/-- The tile is frozen (R221). -/
def Comp.isFrozen (c : Comp) (t : Tile) : Bool := bitOf c.frozen (maskIndex c.desc t)

/-- Fold f is excluded from the box (R220). -/
def Comp.foldOut (c : Comp) (b : Box) (f : Nat) : Bool :=
  decide (f ≥ c.fEff) || decide (b.m0 ≥ c.mAt f) || decide (b.n0 ≥ c.nAt f)

/-- The folds of a box that have work in it (R220). -/
def Comp.foldsIn (c : Comp) (b : Box) : List Nat :=
  (rangeFrom b.f0 (b.f1 - b.f0)).filter (fun f => !c.foldOut b f && (decide (b.k0 = 0) || decide (b.k0 < c.kAt f)))

/-- Output tiles of one fold of a box, in ascending (m0, n0), live and not frozen (R229). -/
def Comp.foldTiles (c : Comp) (b : Box) (f : Nat) : List Tile :=
  ((cuts b.m0 (min b.m1 (c.mAt f)) 256).flatMap (fun m =>
    (cuts b.n0 (min b.n1 (c.nAt f)) 256).map (fun n => (⟨f, m.1, n.1⟩ : Tile)))).filter (fun t => !c.isFrozen t)

/-- The output tiles of a stage tile (R229). -/
def Comp.boxTiles (c : Comp) (b : Box) : List Tile := (c.foldsIn b).flatMap (c.foldTiles b)

/-- A ledger entry as dispatch writes it (R230). -/
def Entry.fresh (t : Tile) : Entry where
  tile := t
  state := .unclaimed
  unit := 0
  copies := 0
  spec := false
  recov := false
  checksum := 0
  votes := []
  everDisputed := false
  unresolved := false
  counts := Counts.zero
  base := Counts.zero
  begun := false
  kbDone := 0
  rowsWritten := 0

/-- The command as one box (R210): the level-5 extents. -/
def wholeBox (d : Nat) : Box := ⟨0, dExt d 5 3, 0, dExt d 5 0, 0, dExt d 5 1, 0, dExt d 5 2⟩

/-- The level-2 tiles in the order in which the walk of levels 5 to 3 reaches them (R222). -/
def stageBoxes (d : Nat) : List Box :=
  (loopNest (dExt d 4) (orderDims (dOrder d 5)) (wholeBox d)).flatMap (fun b4 =>
    (loopNest (dExt d 3) (orderDims (dOrder d 4)) b4).flatMap (fun b3 =>
      loopNest (dExt d 2) (orderDims (dOrder d 3)) b3))

/-- The 256 × 256 tiles of COMBINE and FINISH in the ORDER of level 3, those of SEGMENT_SUM ascending (R279; log 14). -/
def fusionBoxes (op d : Nat) : List Box :=
  let ext := fun i => if i = 3 then 1 else if i = 2 then 1 else 256
  if op = 0x13 then loopNest ext [3, 0, 1] { wholeBox d with f1 := 1, k1 := 1 }
  else loopNest ext (orderDims (dOrder d 3)) { wholeBox d with k1 := 1 }

/-- A run over a box. -/
def mkRun (c : Comp) (b : Box) : Run := ⟨b, (c.boxTiles b).map Entry.fresh, false, false, false⟩

/-- Stage tiles with work, with their runs in ordinal order (R222, R251, R279). A stage tile without entries takes no
ordinal. -/
def mkRuns (op : Nat) (c : Comp) : List Run :=
  let boxes := match c.kind with
    | .fusion => fusionBoxes op c.desc
    | _ => stageBoxes c.desc
  match c.kind with
  | .array => (boxes.map (mkRun c)).filter (fun r => !r.entries.isEmpty)
  | .thin =>
    (boxes.filter (fun b => b.k0 = 0)).flatMap (fun b => (c.boxTiles b).map (fun t =>
      (⟨⟨t.f, t.f + 1, t.m0, c.mAt t.f, t.n0, min (t.n0 + 256) (c.nAt t.f), 0, c.kAt t.f⟩,
        [Entry.fresh t], false, false, false⟩ : Run)))
  | .fusion => (boxes.flatMap (fun b => (c.boxTiles b).map (fun t =>
      (⟨⟨t.f, t.f + 1, t.m0, min (t.m0 + 256) (c.mAt t.f), t.n0, min (t.n0 + 256) (c.nAt t.f), 0, 1⟩,
        [Entry.fresh t], false, false, false⟩ : Run))))

/-- Output tiles of a command in ledger order (R290). -/
def Comp.entries (c : Comp) : List Entry := c.runs.flatMap (·.entries)

/-- Entries that a command holds in the ledger: runs written and not freed (R231, R232). -/
def Comp.heldEntries (c : Comp) : Nat :=
  (c.runs.filter (fun r => r.written && !r.freed)).foldl (fun n r => n + r.entries.length) 0

/-- Folded coordinates of the per-fold element (f, m, n) (R212). -/
def foldedRow (d f m : Nat) : Nat := if dFoldInto d then m else f * dExt d 5 0 + m
/-- Folded column (R212). -/
def foldedCol (d f n : Nat) : Nat := if dFoldInto d then f * dExt d 5 1 + n else n

end Sys2Proof.Machine
end

