-- ==== Sys2Proof/Machine/Operands.lean ====
section
/-! DEFINITION. Checks of a compute command at dispatch and the copies it takes (R224, R279, R482 and the check rules of the
chapters they name). A check is a pair (fails, byte offset); within a structure the lowest failing offset is named. -/
namespace Sys2Proof.Machine

/-- DESCRIPTOR_INVALID naming a field: the structure's kind, its address and the field's byte offset (R286, R482). -/
def badField (st addr off : Nat) : Cond :=
  ⟨.descriptorInvalid, st + putBits off 32 16 + putBits addr 48 48⟩

/-- The lowest offset of the failing checks (R482). -/
def firstFail : List (Bool × Nat) → Option Nat
  | [] => none
  | (b, o) :: r => match firstFail r with
    | none => if b then some o else none
    | some x => if b then some (min o x) else some x

/-- An FP32 word is finite. -/
def fp32Finite (w : Nat) : Bool := bitsOf w 30 23 != 255

/-- A multiple. -/
def isMult (a k : Nat) : Bool := a % k == 0

/-- A code of R24 as a format, E4M3 for a reserved one (never used: the check refuses it first). -/
def fmtD (c : Nat) : Fmt := (fmtOfCode c).getD .e4m3

/-- Highest extension block read, plus one (R280). -/
def extNeed (op p : Nat) : Nat :=
  let pro := if (op = 0x10 ∨ op = 0x11 ∨ op = 0x12 ∨ op = 0x16) ∧ cProEn p then 1 else 0
  let ch := if (op = 0x10 ∨ op = 0x11 ∨ op = 0x12 ∨ op = 0x15) ∧ cChainEn p then 3 else 0
  let opb := if op = 0x12 ∨ op = 0x13 ∨ op = 0x14 ∨ op = 0x15 then 4 else 0
  max pro (max ch opb)

/-- Opcodes of matrix products (R277). -/
def isMat (op : Nat) : Bool := op == 0x10 || op == 0x11 || op == 0x12

/-- The command writes a main output: SEGMENT_SUM and SCALE_SCAN have none; FINISH by OUT_EN. -/
def hasMain (op p : Nat) : Bool := isMat op || op == 0x14 || (op == 0x15 && finOutEn p)

/-- DEST FRAME in a command that reads DEST. -/
def destFrame (op p : Nat) : Bool := (isMat op || op == 0x14 || op == 0x15) && cDest p == 2

/-- Sending is impossible by strap or skeleton mode (R357, R439). -/
def noOutbound (s : State) : Bool := (!bitOf s.blk.straps 2 && !bitOf s.blk.straps 3) || s.start.skeleton
/-- Receiving is impossible by strap or skeleton mode (R462, R439). -/
def noInbound (s : State) : Bool := (!bitOf s.blk.straps 4 && !bitOf s.blk.straps 5) || s.start.skeleton

/-- The prologue record's checks (R148, R149), offsets in the packet. -/
def proChecks (p : Nat) : List (Bool × Nat) :=
  let fn := proFn p
  let post := proPost p
  if !cProEn p then [] else
  [ (decide (fn > 0xC), 64), (if isNorm fn then decide (post > 9) else decide (post ≠ 0), 64),
    (decide (proInFmt p > 8), 65), (proAffine p && !isNorm fn, 65),
    ((fn == 2 || (isNorm fn && post == 2)) && !fp32Finite (proSlope p), 72),
    ((fn == 0xA || fn == 0xB) && (!fp32Finite (proEps p) || bitOf (proEps p) 31), 76),
    (isNorm fn && !isMult (proStatBase p) 16, 80), (isNorm fn && !isMult (proStatStride p) 16, 88),
    (isNorm fn && proCount p == 0, 96),
    (proAffine p && !isMult (proGamma p) 4, 104), (proAffine p && !isMult (proBeta p) 4, 112) ]

/-- Index of the first operation of a kind. -/
def opIndex (ops : List (Nat × Nat)) (k : Nat) : Option Nat := ops.findIdx? (fun o => o.1 == k)

/-- Offset of the second operation of a kind, if there are two. -/
def secondOp (ops : List (Nat × Nat)) (k : Nat) : Option Nat :=
  match opIndex ops k with
  | none => none
  | some i => ((ops.drop (i + 1)).findIdx? (fun o => o.1 == k)).map (fun j => i + 1 + j)

/-- The value is still on the long-word path after these operations, when it starts there (R186). -/
def staysLong (streams : Nat → Nat) : List (Nat × Nat) → Bool
  | [] => true
  | (k, a) :: r =>
    (k == 1 || (k == 4 && a == 1) || k == 5 || k == 6) && staysLong streams r

/-- The chain record's checks (R183-R185, R188, R190). `long0`: the value starts as a long word; `fin`: FINISH. -/
def chainChecks (p : Nat) (fin long0 : Bool) : List (Bool × Nat) :=
  let ops := chainOps p
  let has := fun k => (opIndex ops k).isSome
  let statArg := ((ops.find? (fun o => o.1 == 6)).map (·.2)).getD 0
  let rowfin := (ops.find? (fun o => o.1 == 7)).map (·.2)
  let sw := statWord p
  let sv := saveWord p
  let iOf := fun k => (opIndex ops k).getD 0
  let stream := fun i =>
    let w := streamWord p i
    let o := 160 + 16 * i
    let f := fmtD (stFmt w)
    if !stEn w then [] else
    [ (!isMult (stBase w) f.alignBytes, o), (decide (stFmt w < 6 ∨ stFmt w > 9), o + 6), (stShape w == 3, o + 6),
      (if stShape w == 2 then !isMult (stStride w) f.alignBytes else stStride w != 0, o + 8),
      (stFmt w != 9 && stAnchor w != 0, o + 12) ]
  if !cChainEn p then [] else
  [ (decide (opCount p > 8), 128), (statMode p == 3, 128), (!fp32Finite (mulcK p), 137), (!fp32Finite (chainSlope p), 141),
    (!fp32Finite (chainEps p) || bitOf (chainEps p) 31, 145) ]
  ++ (ops.zipIdx).flatMap (fun x =>
      let k := x.1.1
      let a := x.1.2
      [ (k == 0 || decide (k > 7), 129 + x.2),
        ((k == 1 || k == 2) && decide (a > 2), 129 + x.2),
        ((k == 1 || k == 2) && decide (a ≤ 2) && !stEn (streamWord p a), 129 + x.2),
        (k == 3 && a != 0, 129 + x.2), (k == 4 && (a == 0 || decide (a > 9)), 129 + x.2), (k == 5 && a != 0, 129 + x.2),
        (k == 6 && (a == 0 || decide (a > 3)), 129 + x.2), (k == 7 && !isNorm a, 129 + x.2) ])
  ++ [5, 6, 7].flatMap (fun k => match secondOp ops k with | some i => [(true, 129 + i)] | none => [])
  ++ stream 0 ++ stream 1 ++ stream 2
  ++ [ (has 5 != svEn sv, 214) ]
  ++ (if !svEn sv then [] else
      let f := fmtD (svFmt sv)
      [ (decide (svFmt sv > 10), 214), (!isMult (svBase sv) f.alignBytes, 208), (!isMult (svStride sv) f.alignBytes, 216),
        (!f.hasScale && svScaleStride sv != 0, 220), (!f.hasScale && svScaleBase sv != 0, 224),
        (regionOf (svBase sv) == .far, 208), (f.hasScale && regionOf (svScaleBase sv) == .far, 224),
        (svFmt sv == 9 && !(long0 && staysLong (streamWord p) (ops.take (iOf 5))), 214) ])
  ++ (if !ssEn sw then [] else
      [ (!isMult (ssBase sw) 16, 240), (regionOf (ssBase sw) != .near, 240),
        (!isMult (ssStride sw) 16 || decide (ssStride sw < 48), 248) ])
  ++ (if fin then [(statMode p != 0, 128)] else [])
  ++ [ (pOp p == 0x11 && statMode p == 2, 128), (statMode p == 0 && (has 6 || has 7), 128),
       (statMode p == 1 && (!has 6 || has 7 || !ssEn sw), 128),
       (statMode p == 2 && !(has 6 && has 7 && decide (iOf 6 < iOf 7)), 128),
       ((rowfin == some 0xA || rowfin == some 0xB) && !bitOf statArg 0, 129 + iOf 7),
       (rowfin == some 0xC && (statArg != 2 || ssAS sw != -92), 129 + iOf 7) ]

/-- The packet's checks of a compute command (R279, R280 and the chapters they name). -/
def packetChecks (s : State) (op p : Nat) : List (Bool × Nat) :=
  let reads := fun i => op != 0x13 && cLb p i != 0
  let rounds := isMat op || op == 0x14 || op == 0x15
  let need := extNeed op p
  if pExtLen p < need then [(true, 1)] else
  [ (destFrame op p && noOutbound s, 13) ]
  ++ (if op == 0x16 then [] else [ (cAnchorMode p == 3, 8), (op == 0x15 && cAnchorMode p != 0, 8) ])
  ++ (if isMat op || op == 0x16 then [(decide (cFmtA p > 8), 11), (decide (cFmtW p > 8), 11)] else [])
  ++ (if op == 0x13 || op == 0x15 then [(decide (cFmtA p > 9), 11)] else [])
  ++ (if rounds then
      [ (decide (cOutFmt p > 10), 12), (cRound p == 3, 12), (cDest p == 3, 13),
        (cDest p == 1 && cOutFmt p != 9, 13), (cDest p == 2 && cOutFmt p != 9 && cOutFmt p != 10, 13),
        (cDest p == 2 && decide (bitsOf (cTagMain p) 19 16 > 8), 56) ] else [])
  ++ (if op == 0x15 then [(cProEn p, 13)] else [])
  ++ (if op == 0x16 then
      [ (!isMult (cScanAddr p) 8, 16), (regionOf (cScanAddr p) == .far, 16), (hitsBlockRegion (cScanAddr p) 8, 16) ]
      else [ ((cAnchorMode p == 1 || cAnchorMode p == 2) && !isMult (cScanAddr p) 8, 16) ])
  ++ [ (reads 0 && !isMult (cLb p 0) 4, 24), (reads 1 && !isMult (cLb p 1) 4, 32), (reads 2 && !isMult (cLb p 2) 4, 40) ]
  ++ (if isMat op || op == 0x16 then proChecks p else [])
  ++ (if isMat op then
      chainChecks p false true
        ++ [ (cOutFmt p == 9 && cChainEn p && !staysLong (streamWord p) (chainOps p), 12) ] else [])
  ++ (if op == 0x15 then
      chainChecks p true (cFmtA p == 9 && finFn p == 0)
        ++ [ (finOutEn p && cOutFmt p == 9
                && !(cFmtA p == 9 && finFn p == 0 && staysLong (streamWord p) (chainOps p)), 12),
             (finFn p != 0 && !isNorm (finFn p), 256), (!finOutEn p && !finDenom p, 256),
             (!isMult (finStatBase p) 16, 264), (!isMult (finStatStride p) 16, 272),
             (finDenom p && regionOf (finStatBase p) != .near, 264),
             (isNorm (finFn p) && regionOf (finStatBase p) == .far, 264) ] else [])
  ++ (if op == 0x12 then [(!isMult (gIndexBase p) 4, 256)] else [])
  ++ (if op == 0x14 then
      (rangeFrom 0 8).map (fun i => (!isMult (cbBase p i) 16, 256 + 8 * i))
        ++ [ (cbBase p 0 == 0, 256), (cbBase p 1 == 0, 264) ]
        ++ (rangeFrom 2 6).map (fun i => (cbBase p i != 0 && cbBase p (i - 1) == 0, 256 + 8 * i)) else [])
  ++ (if op == 0x13 then [(!isMult (sgBase p) 4, 256)] else [])

/-- The order byte is a permutation of M, N, K and F (R209). -/
def orderOk (o : Nat) : Bool := [0, 1, 2, 3].all (fun d => (orderDims o).contains d)

/-- Alignment of a base and strides to an element size (R35), offsets of the tensor fields `fo` of levels 5, 4 and 3. -/
def alignChecks (f : Fmt) (b5 b4 b3 fo : Nat) : List (Bool × Nat) :=
  if f.alignBytes = 1 then [] else
  [ (!isMult b5 f.alignBytes, lvOff 5 + fo), (!isMult b4 f.alignBytes, lvOff 4 + fo), (!isMult b3 f.alignBytes, lvOff 3 + fo) ]

/-- The rows of the main output written to memory (R214, R472): the first address and length of each row of each fold. -/
def outRuns (d p : Nat) (fEff : Nat) (mAt nAt : Nat → Nat) : List (Nat × Nat) :=
  let f := fmtD (cOutFmt p)
  (rangeFrom 0 fEff).flatMap (fun fo => (rangeFrom 0 (mAt fo)).map (fun m =>
    (oElem d f fo m 0, runBytes f (if f.hasScale then ceilDiv (nAt fo) 32 * 32 else nAt fo))))

/-- The rows of scales of the main output (R214). -/
def outScaleRuns (d p : Nat) (fEff : Nat) (mAt nAt : Nat → Nat) : List (Nat × Nat) :=
  if !(fmtD (cOutFmt p)).hasScale then [] else
  (rangeFrom 0 fEff).flatMap (fun fo => (rangeFrom 0 (mAt fo)).map (fun m => (oScale d fo m 0, ceilDiv (nAt fo) 32)))

/-- The loop order of level 2 places N inside M and F (R197). -/
def nInside (d : Nat) : Bool :=
  let place := fun x => ((orderDims (dOrder d 2)).findIdx? (· == x)).getD 0
  decide (place 1 > place 0) && decide (place 1 > place 3)

/-- Descriptor checks of a matrix product (R224): every level. -/
def matDescChecks (s : State) (op p d ctxN : Nat) : List (Bool × Nat) :=
  let a := fmtD (proInFmt p)
  let w := fmtD (cFmtW p)
  let o := fmtD (cOutFmt p)
  let ext := dExt d
  let kMax := if cFmtA p == 4 && cFmtW p == 4 then 512 else 256
  let wCount := (s.ctx ctxN).wCount
  (rangeFrom 0 6).flatMap (fun l =>
    [ (if l = 0 then dOrder d 0 != 0 else !orderOk (dOrder d l), lvOff l),
      ((dResA d l || dResW d l) && l != 2 && l != 3, lvOff l + 1),
      (l != 2 && dSlotBase d l != 0, lvOff l + 1), (l != 2 && dSlotQuota d l != 0, lvOff l + 2) ]
    ++ (rangeFrom 0 4).flatMap (fun i =>
      [ (l != 5 && dLb d l i != 0, lvOff l + (20 + 2 * i) / 8),
        (ext l i == 0, lvOff l + 4 + 4 * i),
        (l != 5 && decide (ext l i > ext (l + 1) i), lvOff l + 4 + 4 * i) ])
    ++ (if l = 2 ∨ l = 3 ∨ l = 4 then
        [ (!isMult (ext l 0) 256 && ext l 0 != ext 5 0, lvOff l + 4),
          (!isMult (ext l 1) 256 && ext l 1 != ext 5 1, lvOff l + 8) ] else [])
    ++ (if 1 ≤ l ∧ l ≤ 4 then [(!isMult (ext l 2) 32 && ext l 2 != ext 5 2, lvOff l + 12)] else []))
  ++ [ (!(ext 1 1 == 32 || ext 1 1 == 64 || ext 1 1 == 128 || ext 1 1 == 256 || (ext 1 1 == ext 5 1 && decide (ext 5 1 < 256))),
          lvOff 1 + 8),
       (decide (ext 1 2 > kMax), lvOff 1 + 12),
       ((dFoldInto d || dTW d 3 != 0 || (w.isMx && dTW d 0 != 0)) && ext 1 3 != 1, lvOff 1 + 16),
       (ext 0 0 != 1, lvOff 0 + 4), (ext 0 3 != 1, lvOff 0 + 16), (ext 0 1 != ext 1 1, lvOff 0 + 8),
       (ext 0 2 != ext 1 2, lvOff 0 + 12),
       (dSlotQuota d 2 == 0 || decide (dSlotQuota d 2 > 8), lvOff 2 + 2),
       (decide (dSlotBase d 2 + 4 * dSlotQuota d 2 > wCount), lvOff 2 + 1),
       (decide (ext 2 2 < ext 5 2) && !(cOutFmt p == 9 && cDest p == 1 && statMode p == 0 && opCount p == 0), lvOff 2 + 12),
       (dFrozenEn d && dFrozenBase d == 0, 0), (!dFrozenEn d && dFrozenBase d != 0, 2),
       (dFoldInto d && svEn (saveWord p) && (fmtD (svFmt (saveWord p))).hasScale && !isMult (ext 5 1) 32, lvOff 5 + 8) ]
  ++ alignChecks a (dTA d 5) (dTA d 4) (dTA d 3) 20 ++ alignChecks w (dTW d 5) (dTW d 4) (dTW d 3) 26
  ++ (if cDest p == 2 then [] else
      alignChecks o (dTO d 5) (dTO d 4) (dTO d 3) 32
        ++ [ (regionOf (dTO d 5) == .far, lvOff 5 + 32), (cDest p == 1 && regionOf (dTO d 5) != .near, lvOff 5 + 32),
             (o.hasScale && regionOf (dTO d 2) == .far, lvOff 2 + 32) ])
  ++ (if op == 0x12 then [(ext 5 3 != 1, lvOff 5 + 16), (dAInner d, 0)] else [])
  ++ [ (statMode p == 2 && !nInside d, lvOff 2) ]

/-- Live-bound selectors of level 5, of the dimensions that the command uses (R219, R224, R279). -/
def lbChecks (p d : Nat) (dims : List Nat) : List (Bool × Nat) :=
  dims.flatMap (fun i =>
    let x := dLb d 5 i
    [ (x != 0 && cLb p (x - 1) == 0, lvOff 5 + (20 + 2 * i) / 8),
      (i == 3 && x != 0 && cPerFold p (x - 1), lvOff 5 + (20 + 2 * i) / 8) ])

/-- The descriptor's checks (R224, R279). -/
def descChecks (s : State) (op p d ctxN : Nat) : List (Bool × Nat) :=
  let o := fmtD (cOutFmt p)
  let x := fmtD (cFmtA p)
  [(dVersion d != 1, 0)]
  ++ (if isMat op then matDescChecks s op p d ctxN ++ lbChecks p d [0, 1, 2, 3]
      else if op == 0x16 then
        (rangeFrom 0 4).map (fun i => (dExt d 5 i == 0, lvOff 5 + 4 + 4 * i)) ++ lbChecks p d [0, 1, 2, 3]
          ++ alignChecks (fmtD (proInFmt p)) (dTA d 5) (dTA d 4) (dTA d 3) 20
          ++ alignChecks (fmtD (cFmtW p)) (dTW d 5) (dTW d 4) (dTW d 3) 26
      else if op == 0x13 then
        [ (dExt d 5 0 == 0 || decide (dExt d 5 0 > 2 ^ 24), lvOff 5 + 4), (dExt d 5 1 == 0, lvOff 5 + 8), (dExt d 5 2 != 1, lvOff 5 + 12),
          (!isMult (dTO d 5) 16, lvOff 5 + 32), (!isMult (dTO d 4) 16, lvOff 4 + 32),
          (regionOf (dTO d 5) != .near, lvOff 5 + 32) ]
          ++ alignChecks x (dTA d 5) (dTA d 4) 0 20
      else
        [ (dExt d 5 0 == 0, lvOff 5 + 4), (dExt d 5 1 == 0, lvOff 5 + 8), (dExt d 5 3 == 0, lvOff 5 + 16),
          (dExt d 5 2 != 1, lvOff 5 + 12), (!orderOk (dOrder d 5), lvOff 5), (!orderOk (dOrder d 4), lvOff 4),
          (!orderOk (dOrder d 3), lvOff 3) ]
          ++ lbChecks p d [0, 1, 3]
          ++ (if op == 0x15 then alignChecks x (dTA d 5) (dTA d 4) (dTA d 3) 20
              else [ (!isMult (dTA d 4) 16, lvOff 4 + 20), (!isMult (dTA d 3) 16, lvOff 3 + 20) ])
          ++ (if hasMain op p && cDest p != 2 then
              alignChecks o (dTO d 5) (dTO d 4) (dTO d 3) 32
                ++ [ (regionOf (dTO d 5) == .far, lvOff 5 + 32), (cDest p == 1 && regionOf (dTO d 5) != .near, lvOff 5 + 32),
                     (o.hasScale && regionOf (dTO d 2) == .far, lvOff 2 + 32) ] else [])
          ++ [(op == 0x15 && dFoldInto d && svEn (saveWord p) && (fmtD (svFmt (saveWord p))).hasScale
                && !isMult (dExt d 5 1) 32, lvOff 5 + 8)])

/-- A read of a near-memory structure that cannot be made (R225, R278: such addresses lie in near memory; R406; log 15). -/
def nearFault (s : State) (a len : Nat) : Option Cond :=
  if len = 0 then none
  else if regionOf a ≠ .near then some ⟨.memoryUnrecoverable, a⟩
  else match badByte s a len with
    | some x => some ⟨.memoryUnrecoverable, x⟩
    | none => readFault s a len

/-- The first condition of R287. -/
def firstCond : List Cond → Option Cond
  | [] => none
  | c :: r => match firstCond r with
    | none => some c
    | some x => if c.status.rank ≤ x.status.rank then some c else some x

/-- What dispatch finds in one part: its value, or the condition that stops the command. -/
abbrev Chk (α : Type) := Except Cond α

/-- The condition that a part fails with. -/
def Chk.conds {α : Type} : Chk α → List Cond
  | .ok _ => []
  | .error e => [e]

/-- Fails with `c` when there is one. -/
def failIf (c : Option Cond) : Chk Unit := match c with | none => .ok () | some x => .error x

/-- The failing field of a structure at the lowest offset, as a condition (R482). -/
def fieldConds (st addr : Nat) (l : List (Bool × Nat)) : List Cond := ((firstFail l).map (badField st addr)).toList

/-- The anchor of a command, from the packet or the scan record (R53, R57, R58). -/
def readAnchor (s : State) (p : Nat) : Chk Int :=
  if cAnchorMode p = 0 then .ok (cAnchor p) else do
    failIf (nearFault s (cScanAddr p) 8)
    let w := s.readNat (cScanAddr p) 8
    let agreed := bitOf w 58
    failIf (fieldConds 2 (cScanAddr p)
      [ (!bitOf w 63, 7), ((cAnchorMode p == 2) != agreed, 7), (bitsOf w 51 48 != cFmtA p, 6), (bitsOf w 55 52 != cFmtW p, 6) ]).head?
    .ok (toSigned (bitsOf w 47 32) 16)

/-- The effective extents of dimension `i` (R140, R219, R220): one number, or one per fold below F_eff (log 76). -/
def readBound (s : State) (p d i : Nat) (folds : Chk Nat) : Chk (List Nat) :=
  let x := dLb d 5 i
  if x = 0 then .ok [dExt d 5 i]
  else
    let a := cLb p (x - 1)
    if cPerFold p (x - 1) then do
      let n ← folds
      failIf (nearFault s a (4 * n))
      .ok ((rangeFrom 0 n).map (fun f => min (s.readNat (a + 4 * f) 4) (dExt d 5 i)) ++ (if n ≤ 1 then [0] else []))
    else do
      failIf (nearFault s a 4)
      .ok [min (s.readNat a 4) (dExt d 5 i)]

/-- A bound that breaks a condition: its dimension, the first fold that breaks it, and the descriptor field that is named when no
live bound is selected for the dimension (R482). -/
structure BoundFail where
  dim : Nat
  fold : Nat
  off : Nat

/-- Where a broken bound is named: the length word, or the descriptor (R482). -/
def BoundFail.cond (p d dA : Nat) (x : BoundFail) : Cond :=
  let sel := dLb d 5 x.dim
  if sel = 0 then badField 1 dA x.off
  else badField 3 (cLb p (sel - 1) + if cPerFold p (sel - 1) then 4 * x.fold else 0) 0

/-- The first limit on an effective extent that fails, M before K (R249, R250, R258). -/
def limitFail (op : Nat) (m k : List Nat) : Option BoundFail :=
  let at' := fun i f => (⟨i, f, lvOff 5 + 4 + 4 * i⟩ : BoundFail)
  if op == 0x12 then (m.findIdx? (fun x => decide (x > 2 ^ 24))).map (at' 0)
  else if op == 0x11 then
    ((m.findIdx? (fun x => decide (x > 8))).map (at' 0)).orElse (fun _ =>
      (k.findIdx? (fun x => decide (boundMax m * (32 * ceilDiv x 32) > 131072))).map (at' 2))
  else none

/-- The conditions of RESIDENT on N_eff that fail: each claim covers it, and the slots hold it (R197). -/
def residentFails (p d : Nat) (n : List Nat) : List BoundFail :=
  if statMode p != 2 then [] else
  ((n.findIdx? (fun x => decide (dExt d 2 1 < x))).map (fun f => (⟨1, f, lvOff 2 + 8⟩ : BoundFail))).toList
    ++ ((n.findIdx? (fun x => decide (ceilDiv x 256 > dSlotQuota d 2))).map (fun f => (⟨1, f, lvOff 2 + 2⟩ : BoundFail))).toList

/-- The index or segment list, checked against its limit (R260, R264). -/
def readIndex (s : State) (a n limit : Nat) : Chk (List Nat) := do
  failIf (nearFault s a (4 * n))
  let l := (rangeFrom 0 n).map (fun i => s.readNat (a + 4 * i) 4)
  match l.findIdx? (fun x => decide (x ≥ limit) && x != 0xFFFFFFFF) with
  | some i => .error (badField 3 a (4 * i))
  | none => .ok l

/-- A compute command without tiles yet. -/
def Comp.base (d : Nat) (anchor : Int) (kind : UnitKind) : Comp where
  desc := d
  anchor := anchor
  kind := kind
  fEff := 0
  mEff := [0]
  nEff := [0]
  kEff := [0]
  frozen := 0
  index := []
  phase := 0
  runs := []
  recNo := none
  ticket := 0
  next := 0
  limit := 0
  stageCount := 0
  exhausted := false
  stop := false
  specOut := 0
  published := false
  overflow := false

/-- The first three conditions of R249: rows, store size, statistics. -/
def thinFits (p : Nat) (c : Comp) : Bool :=
  decide (boundMax c.mEff ≤ 8) && decide (boundMax c.mEff * (32 * ceilDiv (boundMax c.kEff) 32) ≤ 131072) && statMode p != 2

/-- The fourth condition of R249. -/
def thinServes (s : State) : Bool := !s.start.skeleton && s.cores.toList.any (·.thinIn)

/-- An input that dispatch knows to lie in the far tier ends the command when there is no far tier (R354, R439). -/
def farAbsent (s : State) : Bool :=
  !bitOf s.blk.straps 6 || s.start.skeleton || s.far.modules.toList.all (·.isNone)

/-- The input bases of a command (R354). -/
def inputBases (op p d : Nat) : List Nat :=
  if isMat op || op == 0x16 then [dTA d 5, dTW d 5]
  else if op == 0x14 then (rangeFrom 0 (cbCount p)).map (cbBase p)
  else [dTA d 5]

/-- The anchors of LONG inputs against the command's (R185, R244, R263): the first that differs, with its input index. -/
def anchorFault (op p : Nat) (A : Int) : Option Cond :=
  let streams := (rangeFrom 0 3).filterMap (fun i =>
    let w := streamWord p i
    if stEn w && stFmt w == 9 && stAnchor w != A then some ⟨.anchorMismatch, ofSigned (stAnchor w) 16 + putBits i 8 16⟩ else none)
  if isMat op || op == 0x15 then streams.head?
  else if op == 0x14 then
    ((rangeFrom 0 (cbCount p)).filterMap (fun i =>
      if cbAnchor p i != A then some (⟨.anchorMismatch, ofSigned (cbAnchor p i) 16 + putBits i 8 16⟩ : Cond) else none)).head?
  else if op == 0x13 && cFmtA p == 9 && sgAnchor p != A then some ⟨.anchorMismatch, ofSigned (sgAnchor p) 16⟩
  else none

/-- Save-stream rows written to memory: elements, then scales (R484). -/
def saveRuns (d p : Nat) (c : Comp) : List (Nat × Nat) :=
  let w := saveWord p
  let f := fmtD (svFmt w)
  if !svEn w then [] else
  (rangeFrom 0 c.fEff).flatMap (fun fo => (rangeFrom 0 (c.mAt fo)).map (fun m =>
    (a48 (svBase w + foldedRow d fo m * svStride w + posByte f (foldedCol d fo 0)), runBytes f (c.nAt fo))))

/-- The scales of the save stream's rows (R484). -/
def saveScaleRuns (d p : Nat) (c : Comp) : List (Nat × Nat) :=
  let w := saveWord p
  if !svEn w || !(fmtD (svFmt w)).hasScale then [] else
  (rangeFrom 0 c.fEff).flatMap (fun fo => (rangeFrom 0 (c.mAt fo)).map (fun m =>
    (a48 (svScaleBase w + foldedRow d fo m * svScaleStride w + foldedCol d fo 0 / 32), ceilDiv (c.nAt fo) 32)))

/-- Statistics records at a base and stride, one for each folded row (R192, R195). -/
def statRuns (d base stride : Nat) (c : Comp) : List (Nat × Nat) :=
  (rangeFrom 0 c.fEff).flatMap (fun f => (rangeFrom 0 (c.mAt f)).map (fun m => (a48 (base + foldedRow d f m * stride), 48)))

/-- Packet fields whose output rows reach where no output may go, named by the field that holds the base address (R347, R472;
log 77). -/
def packetRuns (op p d : Nat) (c : Comp) : List (Bool × Nat) :=
  let hits := fun (l : List (Nat × Nat)) => l.any (fun r => forbidsWrite r.1 r.2)
  [ (hits (saveRuns d p c), 208), (hits (saveScaleRuns d p c), 224),
    (isMat op && ssEn (statWord p) && hits (statRuns d (ssBase (statWord p)) (ssStride (statWord p)) c), 240),
    (op == 0x15 && finDenom p && hits (statRuns d (finStatBase p) (finStatStride p) c), 264) ]

/-- The same for the main output, whose base addresses stand in the descriptor. -/
def descRuns (op p d : Nat) (c : Comp) : List (Bool × Nat) :=
  let hits := fun (l : List (Nat × Nat)) => l.any (fun r => forbidsWrite r.1 r.2)
  if !hasMain op p || cDest p == 2 then [] else
  [ (hits (outRuns d p c.fEff c.mAt c.nAt), lvOff 5 + 32), (hits (outScaleRuns d p c.fEff c.mAt c.nAt), lvOff 2 + 32) ]

/-- The destination rows of SEGMENT_SUM: the first list entry whose row reaches where no output may go (R265, R472, R482). -/
def segRowFault (d p : Nat) (index : List Nat) : Option Cond :=
  (index.findIdx? (fun r => r != 0xFFFFFFFF && forbidsWrite (a48 (dTO d 5 + r * dTO d 4)) (16 * dExt d 5 1))).map
    (fun i => badField 3 (sgBase p) (4 * i))

/-- The unit kind that a command runs on (R249, R250). -/
def unitKind (s : State) (op p : Nat) (c : Comp) : UnitKind :=
  if op == 0x11 then (if thinServes s then .thin else .array)
  else if op == 0x10 || op == 0x12 then (if thinFits p c && thinServes s then .thin else .array) else .fusion

/-- Counts of entries that a command may not exceed, named by the extents that set them (R227, R232, R291; log 77). -/
def countChecks (runs : List Run) : List (Bool × Nat) :=
  [ (runs.any (fun r => decide (r.entries.length > 65536)), lvOff 2 + 4),
    (decide (runs.length ≥ 2 ^ 31) || decide ((runs.flatMap (·.entries)).length > 2 ^ 21), lvOff 5 + 4) ]

/-- What dispatch reads and checks once the packet and the descriptor stand: live bounds, limits, masks, lists and tiles
(R219-R222, R258-R260, R264, R279, R291). FINISH with DENOM and another FIN_FN than NORM_SOFTMAX: log 89. Every condition that
applies, in the order of R482, or the command as it will run. -/
def prepareTail (s : State) (pktA op p dA d : Nat) (anchor : Chk Int) : Chk Comp :=
  let ones : Chk (List Nat) := .ok [1]
  let fB := if op == 0x13 then ones else readBound s p d 3 (.ok 1)
  let folds : Chk Nat := fB.map (fun l => l.headD 0)
  let mB := if op == 0x13 then .ok [dExt d 5 0] else readBound s p d 0 folds
  let nB := if op == 0x13 then .ok [dExt d 5 1] else readBound s p d 1 folds
  let kB := if isMat op || op == 0x16 then readBound s p d 2 folds else ones
  let bound := fun (x : Chk (List Nat)) => x.toOption.getD []
  let fails := (limitFail op (bound mB) (bound kB)).toList ++ (if isMat op then residentFails p d (bound nB) else [])
  let tiles := dExt d 5 3 * ceilDiv (dExt d 5 0) 256 * ceilDiv (dExt d 5 1) 256
  let mask : Chk Nat := if isMat op && dFrozenEn d then do
      failIf (nearFault s (dFrozenBase d) (ceilDiv tiles 8))
      .ok (s.readNat (dFrozenBase d) (ceilDiv tiles 8))
    else .ok 0
  let index : Chk (List Nat) :=
    if op == 0x12 then mB.bind (fun m => readIndex s (gIndexBase p) (boundAt m 0) (gTableRows p))
    else if op == 0x13 then readIndex s (sgBase p) (dExt d 5 0) (sgRows p) else .ok []
  let run : Chk Comp := do
    let fEff ← folds
    let m ← mB
    let n ← nB
    let k ← kB
    let fz ← mask
    let ix ← index
    let A ← anchor
    let c : Comp := { Comp.base d A (if isMat op then .array else .fusion) with
      fEff := fEff, mEff := m, nEff := n, kEff := k, frozen := fz, index := ix }
    let c := { c with kind := unitKind s op p c, phase := if op == 0x15 && finDenom p && finFn p == 0xC then 1 else 0 }
    let runs := if op == 0x16 then [] else mkRuns op c
    .ok { c with runs := runs, stageCount := runs.length }
  let shape : Option Comp := (do
    let fEff ← folds
    let m ← mB
    let n ← nB
    .ok { Comp.base d 0 .array with fEff := fEff, mEff := m, nEff := n } : Chk Comp).toOption
  let conds :=
    fieldConds 0 pktA ((shape.map (packetRuns op p d)).getD [])
      ++ fieldConds 1 dA ((shape.map (descRuns op p d)).getD [] ++ ((fails.filter (fun x => dLb d 5 x.dim == 0)).map (fun x => (true, x.off)))
          ++ ((run.toOption.map (fun c => countChecks c.runs)).getD []))
      ++ anchor.conds
      ++ (rangeFrom 1 3).flatMap (fun l => (fails.filter (fun x => dLb d 5 x.dim == l)).map (BoundFail.cond p d dA))
      ++ fB.conds ++ mB.conds ++ nB.conds ++ kB.conds ++ mask.conds ++ index.conds
      ++ (if op == 0x13 then ((index.toOption.bind (segRowFault d p))).toList else [])
      ++ ((anchor.toOption.bind (anchorFault op p))).toList
      ++ (if (inputBases op p d).any (fun a => regionOf a == .far) && farAbsent s then [⟨.farTierAbsent, 0⟩] else [])
  match firstCond conds with
  | some e => .error e
  | none => run

/-- Everything dispatch reads and checks of a compute command (R206, R224, R258-R260, R279, R482), before a record or a
ticket is taken: the command as it will run, or the status it fails with, the first of R287. -/
def prepare (s : State) (q : Nat) (pktA op p : Nat) : Chk Comp :=
  let dA := descAddr (ctxOf q) (cDesc p)
  let d := s.readNat dA 256
  let anchor : Chk Int := if op == 0x16 then .ok 0 else readAnchor s p
  let unread := (nearFault s dA 256).toList
  let bad := if unread.isEmpty then fieldConds 1 dA (descChecks s op p d (ctxOf q)) else []
  match fieldConds 0 pktA (packetChecks s op p) with
  | e :: _ => .error e
  | [] =>
    if unread.isEmpty && bad.isEmpty then prepareTail s pktA op p dA d anchor
    else .error ((firstCond (bad ++ anchor.conds ++ unread ++ (anchor.toOption.bind (anchorFault op p)).toList)).getD ⟨.internal, 0⟩)

end Sys2Proof.Machine
end

