-- ==== Sys2Proof/Machine/Far.lean ====
section
/-! DEFINITION. The far tier's shared operations: extents, wear, and reads of a command through any region (R214, R225,
R344-R356, R406). -/
namespace Sys2Proof.Machine

/-- The extent of an aperture address (R346). -/
def extentIdx (a : Nat) : Nat := (a - farBase) / 0x100000

/-- The extent-map entry; `none` when unplaced (R346). -/
def State.extent? (s : State) (i : Nat) : Option Extent := s.far.map.find? (fun e => e.idx == i)

/-- Key of a byte of a module's contents: port, place and offset (a module holds at most 8 TiB, R344). -/
def moduleKey (port place off : Nat) : Nat := port * 2 ^ 43 + place * 2 ^ 20 + off

/-- The byte at an aperture address; an unplaced extent reads zero (R346). -/
def State.farByte (s : State) (a : Nat) : Byte :=
  match s.extent? (extentIdx a) with
  | none => 0
  | some e => (cellGet s.far.cells (moduleKey e.port e.place ((a - farBase) % 0x100000))).getD 0

/-- The first lost extent of an aperture range, with the serial number it was lost with (R355). -/
def farLost (s : State) (a len : Nat) : Option Cond :=
  if len = 0 then none else
  (rangeFrom (extentIdx a) (extentIdx (a + len - 1) + 1 - extentIdx a)).findSome? (fun i =>
    match s.extent? i with
    | some e => match e.lost with
      | some serial => some ⟨.farTierAbsent, serial⟩
      | none => none
    | none => none)

/-- What stands in the way of a command's read of `len` bytes at `a` (R214, R225, R332, R339, R354, R355, R406). The host
aperture carries no operand reads (R457; log 15). -/
def accessFault (s : State) (a len : Nat) : Option Cond :=
  if len = 0 then none else
  match regionOf a with
  | .near => match badByte s a len with
    | some x => some ⟨.memoryUnrecoverable, x⟩
    | none => readFault s a len
  | .far =>
    if let some x := farLost s a len then some x
    else if farAbsent s then some ⟨.farTierAbsent, 0⟩
    else (badByte s a len).map (fun x => ⟨.memoryUnrecoverable, x⟩)
  | _ => some ⟨.memoryUnrecoverable, a⟩

/-- Bytes of near memory or of the aperture. -/
def State.bytesAt (s : State) (a n : Nat) : List Byte :=
  if regionOf a = .far then (rangeFrom a n).map s.farByte else s.readBytes a n

/-- Data that was valid and cannot be rebuilt: logged as MEM_UE, its command failed (R404, R406). -/
def State.logLost (s : State) (c : Cond) (ctx : Nat) (ticket : Option Nat) : State :=
  if c.status = .memoryUnrecoverable ∧ (badByte s c.info 1).isNone ∧ (s.mem.badLine false c.info 1).isNone then
    s.logRec { event := 0x16, action := 6, ctx := some ctx, ticket := ticket, d0 := c.info }
  else s

/-! Wear (R348, R350, R353). -/

/-- r ≤ num / den of a RATED entry: its remaining life 1 − max(WRITTEN / (RATED_TIB × 2^20), LIFE_USED / 100), WRITTEN in MiB
(R350); the count here is in requests of 64 bytes. An unrated entry with RATED_TIB 0 takes no placement and has no r. -/
def Wear.lifeAtMost (w : Wear) (pct : Nat) : Bool :=
  w.rated && w.ratedTib != 0 &&
    (decide (100 * (w.written / 16384) ≥ (100 - pct) * (w.ratedTib * 2 ^ 20)) || decide (w.lifeUsed ≥ 100 - pct))

/-- The ledger entry of a module, by serial number (R350). -/
def State.wearOf (s : State) (serial : Nat) : Option Wear :=
  s.far.wear.toList.find? (fun w => w.state != 0 && w.serial == serial)

/-- The ledger entry of a serial number changed. -/
def State.onWear (s : State) (serial : Nat) (f : Wear → Wear) : State :=
  s.onFar (fun x => { x with wear := vall x.wear (fun w => if w.state != 0 && w.serial == serial then f w else w) })

/-- The module of a ledger entry, if it is present. -/
def moduleOf (s : State) (w : Wear) : Option Module :=
  if w.state = 1 then (vget s.far.modules w.port).bind (fun m => if m.serial = w.serial then some m else none) else none

/-- A wear-ledger entry (R351). -/
def wearWord (w : Wear) : Nat :=
  putBits w.serial 64 0 + putBits w.state 2 64 + putBits (bit w.rated) 1 66 + putBits (bit w.warn) 1 67
    + putBits (bit w.worn) 1 68 + putBits w.port 2 69 + putBits w.ratedTib 32 96 + putBits (w.written / 16384) 64 128
    + putBits w.lifeUsed 7 192 + putBits w.capGib 32 224

/-- Bytes of a keeper mirror in the block region; not before the stacks are trained at stage S2 (R424, R432, R471; log 83). -/
def State.mirrorBytes (s : State) (off : Nat) (bs : List Byte) : State :=
  if s.start.stage ≤ 2 then s else s.store (keeperMirror + off) bs

/-- The wear ledger as the mirror holds it (log 83). -/
def ledgerBytes (w : Vector Wear 16) : List Byte := w.toList.flatMap (fun e => natLe (wearWord e) 32)

/-- The wear ledger mirrored to near memory (R350). -/
def State.mirrorLedger (s : State) : State :=
  (s.onMirror (fun x => { x with wear := s.far.wear })).mirrorBytes 0x1000 (ledgerBytes s.far.wear)

/-- The wear ledger mirrored to near memory, and the entry to the reserved record of a RATED module (R350). -/
def State.mirrorWear (s : State) (serial : Nat) : State :=
  let s := s.mirrorLedger
  match s.wearOf serial with
  | none => s
  | some w => match moduleOf s w with
    | none => s
    | some m => if !m.rated then s else s.onFar (fun x => { x with
        modules := vmod x.modules w.port (fun _ => some { m with recWritten := w.written, recRatedTib := w.ratedTib }) })

/-- WARN and WORN set as r falls, with the record and the interrupt (R353, R404). -/
def State.wearCheck (s : State) (serial : Nat) : State :=
  match s.wearOf serial with
  | none => s
  | some w =>
    let warn := w.warn || w.lifeAtMost 10
    let worn := w.worn || w.lifeAtMost 1
    if warn == w.warn && worn == w.worn then s
    else
      let s := (s.onWear serial (fun w => { w with warn := warn, worn := worn })).mirrorWear serial
      s.logRec { event := 0x1A, action := 9, kind := 10, unit := w.port, d0 := serial, d1 := bit warn + 2 * bit worn }

/-- `n` requests of 64 bytes written to a module: WRITTEN, its mirror at each multiple of 1 GiB, and the thresholds (R350,
R353). -/
def State.addWear (s : State) (serial n : Nat) : State :=
  match s.wearOf serial with
  | none => s
  | some w =>
    let s := s.onWear serial (fun w => { w with written := w.written + n })
    let s := if (w.written + n) / 2 ^ 24 = w.written / 2 ^ 24 then s else s.mirrorWear serial
    s.wearCheck serial

/-- The lowest extent of a module that is neither held by the map nor waiting to be freed (R346, R348): one among the first
n + 1, where n extents are held. -/
def freeExtent (s : State) (port : Nat) : Option Nat :=
  match vget s.far.modules port with
  | none => none
  | some m => (rangeFrom 0 (min (m.capGib * 1024) (s.far.map.length + s.far.pendingFree.length + 1))).find? (fun x =>
      !(s.far.map.any (fun e => e.port == port && e.place == x && e.lost.isNone)) && !(s.far.pendingFree.contains (port, x)))

/-- The life of a module as a fraction over a common scale: r × RATED_TIB × 2^20 × 100, 1 for UNLIMITED (R348, R350). -/
def lifeLess (a b : Wear) : Bool :=
  -- r(a) < r(b), r = 1 − max(x, y): compare max(x_a, y_a) > max(x_b, y_b)
  let num := fun (w : Wear) => if !w.rated then (0, 1) else
    let d := w.ratedTib * 2 ^ 20
    if d = 0 then (1, 1)
    else if 100 * (w.written / 16384) ≥ w.lifeUsed * d then (w.written / 16384, d) else (w.lifeUsed, 100)
  decide ((num a).1 * (num b).2 > (num b).1 * (num a).2)

/-- A module may take a new placement (R348, R352). -/
def placeable (s : State) (port : Nat) : Bool :=
  match vget s.far.modules port with
  | none => false
  | some m => vget s.far.linkUp port && (freeExtent s port).isSome &&
      (!m.rated || (match s.wearOf m.serial with
        | some w => w.ratedTib != 0 && !(w.lifeAtMost 1)
        | none => false))

/-- The module of a port, as its ledger entry (an entry with no life used for one that has none). -/
def wearAt (s : State) (port : Nat) : Wear :=
  match vget s.far.modules port with
  | none => Wear.empty
  | some m => (s.wearOf m.serial).getD Wear.empty

/-- The place of a new extent: the present module of largest remaining life with room and r > 0.01, ties to the lowest port
(R348). -/
def choosePlace (s : State) (not_ : Option Nat) : Option (Nat × Nat) :=
  let l := (rangeFrom 0 4).filter (fun p => placeable s p && not_ != some p)
  let best := l.foldl (fun (b : Option Nat) p => match b with
    | none => some p
    | some x => if lifeLess (wearAt s x) (wearAt s p) then some p else b) none
  match best with
  | none => none
  | some p => (freeExtent s p).map (fun x => (p, x))

/-- The worn module of least remaining life, which a refused placement names (R353). -/
def leastLife (s : State) : Nat :=
  let l := (rangeFrom 0 4).filterMap (fun p => match vget s.far.modules p with
    | some m => match s.wearOf m.serial with
      | some w => if w.worn then some w else none
      | none => none
    | none => none)
  match l.foldl (fun (b : Option Wear) w => match b with
    | none => some w
    | some x => if lifeLess w x then some w else b) none with
  | some w => w.serial
  | none => 0

/-- The extent map with an extent at a place; its entry in the block region follows (R346, R471). -/
def State.placeExtent (s : State) (i port place : Nat) : State :=
  let s := s.onFar (fun x => { x with map := ⟨i, port, place, none⟩ :: x.map.filter (fun e => e.idx != i) })
  s.store (0x08000000 + 8 * i) (natLe (place + putBits port 2 23 + putBits 1 2 25) 8)

/-- The serial number of the module on a port. -/
def serialAt (s : State) (port : Nat) : Nat := ((vget s.far.modules port).map (·.serial)).getD 0

/-- A place emptied. -/
def State.farErase (s : State) (port place : Nat) : State :=
  let lo := moduleKey port place 0
  s.onFar (fun x => { x with cells := x.cells.filter (fun c => !(decide (lo ≤ c.1) && decide (c.1 < lo + 2 ^ 20))) })

/-- The bytes of one place written to another. -/
def State.farCopy (s : State) (p0 x0 p1 x1 : Nat) : State :=
  let lo := moduleKey p0 x0 0
  (s.farErase p1 x1).onFar (fun x => { x with
    cells := (x.cells.filter (fun c => decide (lo ≤ c.1) && decide (c.1 < lo + 2 ^ 20))).foldl
      (fun l c => aput l (moduleKey p1 x1 (c.1 - lo)) c.2) x.cells })

/-- A place back in the free pool, empty (R348). -/
def State.freePlace (s : State) (port place : Nat) : State :=
  (s.farErase port place).onFar (fun x => { x with pendingFree := x.pendingFree.erase (port, place) })

/-- Bytes written to a module. -/
def State.farWrite (s : State) (port place off : Nat) (bs : List Byte) : State :=
  s.onFar (fun x => { x with cells := cellWrite x.cells (moduleKey port place off) bs })

end Sys2Proof.Machine
end

