-- ==== Sys2Proof/Machine/Deliver.lean ====
section
/-! DEFINITION. Delivered operands: padding, prologue, rounding, scales, block exponents and pieces (R97-R101, R110, R140-R155),
read through any reader of bytes: stage memory for an array, near memory for the thin path and for SCALE_SCAN. -/
namespace Sys2Proof.Machine

/-- A reader of `n` bytes at an address as a little-endian number; `none` when they are not at hand. -/
abbrev Rd := Nat → Nat → Option Nat

/-- A reader of memory as it stands. -/
def memRd (s : State) : Rd := fun a n => some (leNat (s.bytesAt a n))

/-! Element codes (R33, R214, R259). -/

/-- Index along the innermost dimension of an activation array. -/
def aInner (d m k : Nat) : Nat := if dAInner d then m else k
/-- Index along the innermost dimension of a weight array. -/
def wInner (d k n : Nat) : Nat := if dWInner d then k else n

/-- Address and bytes of an activation element. -/
def aSpan (d : Nat) (fmt : Fmt) (f m k : Nat) : Nat × Nat := (aElem d fmt f m k, (elemSpan fmt (aInner d m k)).2)
/-- Address and bytes of a weight element. -/
def wSpan (d : Nat) (fmt : Fmt) (f k n : Nat) : Nat × Nat := (wElem d fmt f k n, (elemSpan fmt (wInner d k n)).2)

/-- The code of an activation element; `m` is the source row. -/
def aCode (rd : Rd) (d : Nat) (fmt : Fmt) (f m k : Nat) : Option Nat :=
  let s := aSpan d fmt f m k
  (rd s.1 s.2).map (cutElem fmt (aInner d m k))

/-- The code of a weight element. -/
def wCode (rd : Rd) (d : Nat) (fmt : Fmt) (f k n : Nat) : Option Nat :=
  let s := wSpan d fmt f k n
  (rd s.1 s.2).map (cutElem fmt (wInner d k n))

/-- The scale code of an activation block, 0x7F for a format without scales. -/
def aScaleCode (rd : Rd) (d : Nat) (fmt : Fmt) (f m b : Nat) : Option Nat :=
  if fmt.isMx then rd (aScale d f m b) 1 else some 127

/-- The scale code of a weight block. -/
def wScaleCode (rd : Rd) (d : Nat) (fmt : Fmt) (f b n : Nat) : Option Nat :=
  if fmt.isMx then rd (wScale d f b n) 1 else some 127

/-! Normalisation (R151). -/

/-- μ and r, or mx and d, of a row (R151). -/
def normRow (fn : Nat) (S Q mx n eps : CF) : NormRow :=
  if fn = 0xA then
    let mu := cfDiv S n
    let v := cfSub (cfDiv Q n) (cfMul mu mu)
    let v := if v.isNeg || (v.cls == .finite && v.sig == 0) then cfZero false else v
    ⟨mu, cfRsqrt (cfAdd v eps)⟩
  else if fn = 0xB then ⟨cfZero false, cfRsqrt (cfAdd (cfDiv Q n) eps)⟩
  else ⟨mx, S⟩

/-- The normalised value of an element (R151). -/
def normApply (fn : Nat) (r : NormRow) (x : CF) : CF :=
  if fn = 0xC then cfDiv (cfExp (cfSub x r.x)) r.y else cfMul (cfSub x r.x) r.y

/-- The statistics of a 48-byte record read as one number (R193): SUM, SUMSQ, MAX. -/
def statSum (w : Nat) : LW := lwDecode (bitsOf w 127 0)
def statSumsq (w : Nat) : LW := lwDecode (bitsOf w 255 128)
def statMax (w : Nat) : CF := cfDecode (bitsOf w 319 256)
def statN (w : Nat) : Nat := bitsOf w 351 320

/-! The prologue (R142, R148-R154). -/

/-- The row whose statistics a normalising prologue reads: the source row of a gather, else the folded row (R151, R261). -/
def proRow (op d f m src : Nat) : Nat := if op = 0x12 then src else foldedRow d f m

/-- Address of the statistics record of a row. -/
def proStatAddr (p row : Nat) : Nat := a48 (proStatBase p + row * proStatStride p)

/-- The normalisation that a statistics record gives (R151). -/
def proNormOf (p w : Nat) : NormRow :=
  normRow (proFn p) (cfOfLong (statSum w) (proAS p)) (cfOfLong (statSumsq w) (proAQ p)) (statMax w)
    (cfOfNat (proCount p)) (cfOfFp32 (proEps p))

/-- The normalisation of a row, for a normalising prologue, read where it lies. -/
def proNorm (rd : Rd) (p row : Nat) : Option NormRow :=
  if isNorm (proFn p) then (rd (proStatAddr p row) 48).map (proNormOf p) else some ⟨cfZero false, cfZero false⟩

/-- y = y γ + β (R151). -/
def proAffineAt (rd : Rd) (p k : Nat) (y : CF) : Option CF :=
  if proAffine p then
    match rd (a48 (proGamma p + 4 * k)) 4, rd (a48 (proBeta p + 4 * k)) 4 with
    | some g, some b => some (cfAdd (cfMul y (cfOfFp32 g)) (cfOfFp32 b))
    | _, _ => none
  else some y

/-- The prologue of a stored element at K-index k (R150, R151). -/
def proElem (rd : Rd) (p k : Nat) (r : NormRow) (x : CF) : Option CF :=
  let slope := cfOfFp32 (proSlope p)
  if isNorm (proFn p) then (proAffineAt rd p k (normApply (proFn p) r x)).map (actFn (proPost p) slope)
  else some (actFn (proFn p) slope x)

/-- The prologue of a pad position: under a NORM function only POST_FN (R142). -/
def proPadValue (p : Nat) : CF :=
  let slope := cfOfFp32 (proSlope p)
  actFn (if isNorm (proFn p) then proPost p else proFn p) slope (cfOfFp32 (proPad p))

/-- An exact value as the format's element: its finite code's value under RNE and SATFINITE, or its class (R89, R153, R154). -/
def roundDelivered (f : Fmt) (x : XV) : XV :=
  if x.cls = .finite then
    if x.m = 0 then x else decodeElem f (roundElem f .rne false 0 .counted false x).code
  else xvOfCls x.cls

/-- A K-block of delivered activation values: 32 values on the element grid, and the unbiased scale; `none` for scale code
0xFF. A wide operand has scale 0. -/
structure DBlock where
  vals : List XV
  scale : Scale
  deriving DecidableEq, Repr

/-- Chain float results rounded into the operand format, with the scale formed for an MX format (R91, R153). -/
def roundDBlock (f : Fmt) (xs : List XV) : DBlock :=
  if f.isMx then
    let s := (blockScale f xs).1
    ⟨xs.map (fun x => roundDelivered f (x.scale (-s))), some s⟩
  else ⟨xs.map (roundDelivered f), some 0⟩

/-- A list of optional values, all present. -/
def allSome {α : Type} : List (Option α) → Option (List α)
  | [] => some []
  | x :: r => match x, allSome r with
    | some x, some r => some (x :: r)
    | _, _ => none

/-- K-block `b` of activation row `m` of fold `f` as delivered: stored elements below `kEff`, pad positions beyond
(R140-R145). `src` is the source row; `norm` gives the normalisation of a row. -/
def deliverABlock (rd : Rd) (norm : Nat → Option NormRow) (p d f m src kEff b : Nat) : Option DBlock :=
  let a := fmtD (cFmtA p)
  let inF := fmtD (proInFmt p)
  let ks := rangeFrom (32 * b) 32
  match aScaleCode rd d inF f src b with
  | none => none
  | some sc =>
    if passThrough p then
      let pad := (decodeElem .fp32 (proPad p)).scale (if a.isMx then -((scaleOf sc).getD 0) else 0)
      (allSome (ks.map (fun k =>
        if k < kEff then (aCode rd d a f src k).map (decodeElem a) else some (roundDelivered a pad)))).map
        (fun l => ⟨l, if a.isMx then scaleOf sc else some 0⟩)
    else
      match norm (proRow (pOp p) d f m src) with
      | none => none
      | some r =>
        (allSome (ks.map (fun k =>
          if k < kEff then (aCode rd d inF f src k).bind (fun c => proElem rd p k r (cfOfXv (decodeScaled inF c sc)))
          else some (proPadValue p)))).map (fun l => roundDBlock a (l.map CF.xv))

/-- K-block `b` of weight column `n` of fold `f`: elements below `kEff` (R141), and the scale. -/
def deliverWBlock (rd : Rd) (p d f n kEff b : Nat) : Option DBlock :=
  let w := fmtD (cFmtW p)
  match wScaleCode rd d w f b n with
  | none => none
  | some sc =>
    (allSome ((rangeFrom (32 * b) (min 32 (kEff - 32 * b))).map (fun k => (wCode rd d w f k n).map (decodeElem w)))).map
      (fun l => ⟨l, if w.isMx then scaleOf sc else some 0⟩)

/-- Exact values of a block of a pair whose pair format is wide (R97, R98). -/
def DBlock.wide (x : DBlock) : List XV :=
  x.vals.map (fun v => match x.scale with
    | none => xvNan
    | some s => mixedXv (v.scale s))

/-- The unbiased scale the combine stage uses: the block's scale for an MX pair, else the block exponent (R97). -/
def DBlock.expOf (x : DBlock) (wide : Bool) : Scale := if wide then some (blockExp x.wide) else x.scale

/-- An MX value as the pair (σ, h) of R110, a special with σ = 0 (R154). -/
def pairOf (f : Fmt) (x : XV) : DElem :=
  match x.cls with
  | .finite => ⟨if x.neg then -(x.m : Int) else x.m, (x.e - f.stepExp).toNat, x.ecls, x.neg⟩
  | _ => ⟨0, 0, x.ecls, x.neg⟩

/-- The delivered pairs of a block for piece `i` (R100, R101, R110). -/
def DBlock.pieces (x : DBlock) (a b f : Fmt) (i : Nat) : List DElem :=
  if pairWide a b then
    let e := blockExp x.wide
    x.wide.map (fun v => deliverPiece (pairFmt a b) v e i)
  else x.vals.map (pairOf f)

end Sys2Proof.Machine
end

