-- ==== Sys2Proof/Machine/Flags.lean ====
section
/-! DEFINITION. Commands in flight, status priority, counters, progress, the reply and the interrupts (R93, R274, R285-R294,
R391, R466, R478). -/
namespace Sys2Proof.Machine

/-- A command's name in flight: queue and position. -/
def Cmd.key (c : Cmd) : Key := (c.q, c.pos)

/-- The command in flight with that name. -/
def State.cmd? (s : State) (k : Key) : Option Cmd := s.cp.cmds.find? (fun c => c.key == k)

/-- The command in flight changed. -/
def State.onCmd (s : State) (k : Key) (f : Cmd → Cmd) : State :=
  s.onCp (fun cp => { cp with cmds := cp.cmds.map (fun c => if c.key == k then f c else c) })

/-- The command taken out of flight (its journal entry freed, R391). -/
def State.dropCmd (s : State) (k : Key) : State :=
  s.onCp (fun cp => { cp with cmds := cp.cmds.filter (fun c => !(c.key == k)) })

/-- A command put in flight, newest last (R391). -/
def State.addCmd (s : State) (c : Cmd) : State := s.onCp (fun cp => { cp with cmds := cp.cmds ++ [c] })

/-- The compute part of a command. -/
def Cmd.comp? (c : Cmd) : Option Comp := match c.body with
  | .compute x => some x
  | _ => none

/-- The compute part of a command changed. -/
def Cmd.onComp (c : Cmd) (f : Comp → Comp) : Cmd := match c.body with
  | .compute x => { c with body := .compute (f x) }
  | _ => c

/-- The compute part of the command `k`. -/
def State.comp? (s : State) (k : Key) : Option Comp := (s.cmd? k).bind Cmd.comp?

/-- The compute part of command `k` changed. -/
def State.onComp (s : State) (k : Key) (f : Comp → Comp) : State := s.onCmd k (·.onComp f)

/-- A command as read at HEAD (R273, R391), not dispatched yet. -/
def Cmd.read (q pos pkt step : Nat) (body : Body) : Cmd where
  q := q
  pos := pos
  pkt := pkt
  ticket := none
  step := step
  dispatched := false
  applied := false
  conds := []
  masked := 0
  firstLog := none
  ended := false
  cut := false
  sent := 0
  acked := 0
  body := body

/-- Commands of context `n` in flight. -/
def State.cmdsOf (s : State) (n : Nat) : List Cmd := s.cp.cmds.filter (fun c => ctxOf c.q == n)

/-! Progress (R290-R293). -/

/-- A unit is done: its entry is DONE (R18, R290). -/
def Entry.isDone (e : Entry) : Bool := e.state == .done

/-- The entry's counts are in the reply: some execution set it done (R72, R235, R242). -/
def Entry.credited (e : Entry) : Bool := e.state == .done || e.state == .disputed

/-- Leading done units (R290). -/
def lowOf (l : List Bool) : Nat := (l.takeWhile id).length
/-- One past the last done unit (R290). -/
def highOf (l : List Bool) : Nat := l.length - (l.reverse.takeWhile (fun b => !b)).length

/-- The units of a command's progress, in order (R290). -/
def Cmd.units (c : Cmd) : List Bool := match c.body with
  | .compute x => x.entries.map (·.isDone)
  | .engine e => if e.comp.isSome then [] else e.doneBits
  | .frame f => if pOp c.pkt = 0x23 then [] else List.replicate f.accepted true
  | .tunSave t => List.replicate t.images true
  | .tunRestore t _ => List.replicate t.images true
  | _ => []

/-- The entry stands in the live-tile table (R292). -/
def Entry.live (e : Entry) : Bool := e.everDisputed || (!e.isDone && e.begun)

/-- Counters of a command (R72, R288). -/
def Comp.counts (c : Comp) : Counts :=
  (c.entries.filter (·.credited)).foldl (fun a e => a.add e.counts) Counts.zero

/-- Counters of a command's reply (R288). -/
def Cmd.counts (c : Cmd) : Counts := match c.body with
  | .compute x => x.counts
  | _ => Counts.zero

/-- A counter of code 0–4 is nonzero (R285). -/
def Counts.any (c : Counts) : Bool :=
  c.clip != 0 || c.flush != 0 || c.sat != 0 || c.lost != 0 || c.uflow != 0

/-- The live-tile table: tile number and entry, at most 1,023 (R292). -/
def Comp.liveTiles (c : Comp) : List (Nat × Entry) :=
  ((c.entries.zipIdx).filter (fun x => x.1.live)).map (fun x => (x.2, x.1)) |>.take 1023

/-- The table overflowed (R292). -/
def Comp.tooLive (c : Comp) : Bool := c.overflow || decide ((c.entries.filter (·.live)).length > 1023)

/-- A live-tile entry (R292). -/
def liveWord (t : Nat) (e : Entry) : Nat :=
  putBits t 32 0 + putBits e.kbDone 32 32 + putBits e.rowsWritten 9 64 + putBits (bit e.everDisputed) 1 73
    + putBits e.copies 3 74

/-- The work-counter record (R227). -/
def wcRecord (c : Comp) (ctx : Nat) : Nat :=
  putBits c.next 32 0 + putBits c.limit 32 32 + putBits c.stageCount 32 64 + putBits c.ticket 16 96 + putBits ctx 4 112
    + putBits (bit c.exhausted) 1 116 + putBits (bit c.stop) 1 117 + putBits c.specOut 3 118

/-- The header of a progress area (R291): `st` 1 in flight, 2 held, 0 once it is freed (log 16). -/
def areaHeader (c : Comp) (ctx op st status : Nat) : Nat :=
  putBits c.ticket 16 0 + putBits ctx 4 16 + putBits st 2 20 + putBits (bit c.tooLive) 1 22 + putBits op 8 24
    + putBits status 8 32 + putBits c.entries.length 32 64 + putBits (c.entries.filter (·.isDone)).length 32 96
    + putBits c.liveTiles.length 16 128 + putBits (c.entries.filter (·.everDisputed)).length 16 144
    + wcRecord c ctx <<< 384

/-- Bits as bytes, bit t in bit t mod 8 of byte ⌊t / 8⌋ (R291). -/
def bitBytes (l : List Bool) : Nat := (l.zipIdx).foldl (fun a x => a + bit x.1 <<< x.2) 0

/-- The done bitmap (R232, R291). -/
def Comp.bitmap (c : Comp) : List Byte := natLe (bitBytes (c.entries.map (·.isDone))) (ceilDiv c.entries.length 8)

/-- The live-tile table as bytes (R292). -/
def Comp.liveBytes (c : Comp) : List Byte := c.liveTiles.flatMap (fun x => natLe (liveWord x.1 x.2) 16)

/-- The progress area of record `i`, one of 256, written: header, live table, and a bitmap of at most 256 KiB (R291). -/
def State.writeArea (s : State) (c : Comp) (i ctx op st status : Nat) : State :=
  let a := i % 256 * 0x80000
  ((s.store a (natLe (areaHeader c ctx op st status) 64)).store (a + 64) c.liveBytes).store (a + 262144) (c.bitmap.take 262144)

/-- The area of a command in flight brought up to date (R291). -/
def State.syncArea (s : State) (k : Key) : State :=
  match s.cmd? k with
  | none => s
  | some cmd => match cmd.comp? with
    | none => s
    | some c => match c.recNo with
      | none => s
      | some i => s.writeArea c i (ctxOf cmd.q) (pOp cmd.pkt) 1 0

/-! The reply. -/

/-- The status and INFO of a reply (R286, R287). -/
def Cmd.final (c : Cmd) : Cond :=
  let rec_ := if c.masked = 0 then [] else
    [(⟨.doneRecovered, putBits c.masked 16 0 + putBits (c.firstLog.getD 0) 16 16⟩ : Cond)]
  let cnt := if c.counts.any then [(⟨.doneWithCounts, 0⟩ : Cond)] else []
  (firstCond (c.conds ++ rec_ ++ cnt)).getD ⟨.done, 0⟩

/-- A complete ending: DONE, DONE_WITH_COUNTS or DONE_RECOVERED (R291). -/
def Status.complete : Status → Bool
  | .done | .doneWithCounts | .doneRecovered => true
  | _ => false

/-- A LONG input stream of the chain is enabled (R285). -/
def longStream (p : Nat) : Bool := (rangeFrom 0 3).any (fun i => stEn (streamWord p i) && stFmt (streamWord p i) == 9)

/-- ANCHOR of the reply (R285, R46, R374). -/
def Cmd.replyAnchor (c : Cmd) : Nat :=
  let op := pOp c.pkt
  match c.body with
  | .compute x =>
    if op == 0x15 && cFmtA c.pkt != 9 && !longStream c.pkt then 0 else ofSigned x.anchor 16
  | .frame f =>
    if op == 0x20 then (if bitsOf c.pkt 67 64 = 2 then 0 else bitsOf c.pkt 111 96)
    else if op == 0x22 then bitsOf c.pkt 111 96
    else if op == 0x21 then bitsOf f.fmts 15 0 else 0
  | _ => 0

/-- The reply image (R285). `area`: the progress area held for the command. Area 255 and no area both give PROG_REC 0xFF; HELD
tells them apart (R291). -/
def replyWord (c : Cmd) (fin : Cond) (area : Option Nat) : Nat :=
  let n := c.counts
  let u := c.units
  let (live, many, disp, ph2) := match c.comp? with
    | some x => (x.liveTiles.length, x.tooLive, x.entries.any (·.everDisputed), x.phase == 2)
    | none => (0, false, false, false)
  putBits c.pos 32 0 + putBits fin.status.code 8 32 + putBits (pOp c.pkt) 8 40 + putBits (c.ticket.getD 0) 16 48
    + putBits (pHostTag c.pkt) 32 64 + putBits c.replyAnchor 16 96 + putBits (bit c.ticket.isSome) 1 112
    + putBits (bit (c.masked != 0)) 1 113 + putBits (bit n.any) 1 114 + putBits (bit area.isSome) 1 115
    + putBits (bit disp) 1 116 + putBits (bit ph2) 1 117 + putBits (bit many) 1 118
    + putBits (sat32 n.clip) 32 128 + putBits (sat32 n.flush) 32 160 + putBits (sat32 n.sat) 32 192
    + putBits (sat32 n.lost) 32 224 + putBits (sat32 n.uflow) 32 256 + putBits (sat32 n.dup) 32 288
    + putBits fin.info 96 320 + putBits (lowOf u) 32 416 + putBits (highOf u) 32 448 + putBits (area.getD 255) 8 480
    + putBits live 16 488

/-- OLDEST moves past the positions replied below which nothing is unreplied (R274). -/
def Queue.advance : Nat → Queue → Queue
  | 0, q => q
  | n + 1, q =>
    if q.replied.contains q.oldest then
      Queue.advance n { q with oldest := (q.oldest + 1) % 2 ^ 32, replied := q.replied.filter (· != q.oldest) }
    else q

/-- The position replied to (R274); a hold of it on its queue ends (R273). -/
def Queue.markReplied (q : Queue) (pos : Nat) : Queue :=
  Queue.advance (q.replied.length + 1)
    { q with replied := pos :: q.replied, hold := if q.hold = some pos then none else q.hold }

/-- Totals with a command's counters added, saturating (R289). -/
def addTotals (t : Vector Nat 6) (c : Counts) : Vector Nat 6 :=
  #v[sat64 (t[0] + sat32 c.clip), sat64 (t[1] + sat32 c.flush), sat64 (t[2] + sat32 c.sat), sat64 (t[3] + sat32 c.lost),
    sat64 (t[4] + sat32 c.uflow), sat64 (t[5] + sat32 c.dup)]

/-- The progress area that a command's ending leaves: held (R291), or freed, with its header's STATE 0b00 (log 16). -/
def State.settleArea (s : State) (c : Cmd) (fin : Cond) : State × Option Nat :=
  match c.comp? with
  | none => (s, none)
  | some x => match x.recNo with
    | none => (s, none)
    | some i =>
      let n := ctxOf c.q
      if fin.status.complete || decide ((s.cp.areas.filter (·.ctx == n)).length ≥ 4) then
        (s.writeArea x i n (pOp c.pkt) 0 fin.status.code, none)
      else
        let s := s.writeArea x i n (pOp c.pkt) 2 fin.status.code
        (s.onCp (fun cp => { cp with areas := ⟨i, n, x.ticket, pOp c.pkt, fin.status.code, x⟩ :: cp.areas }), some i)

/-- The reply of a command: written whole, its journal entry freed, then the interrupt, the totals and OLDEST (R19, R274,
R285-R291, R391). -/
def State.reply (s : State) (c : Cmd) : State :=
  let fin := c.final
  let r := s.settleArea c fin
  let q := s.queue c.q
  let s := (r.1.meetAll c.conds).store (replyAddr q c.pos) (natLe (replyWord c fin r.2) 64)
  let s := s.dropCmd c.key
  let s := s.onCtx (ctxOf c.q) (fun x => { x with
    totals := addTotals x.totals c.counts
    qpend := if pIrq c.pkt then x.qpend ||| 2 ^ prioOf c.q else x.qpend })
  s.onQ c.q (·.markReplied c.pos)

/-- The packet at HEAD consumed (R273). -/
def State.takePacket (s : State) (q : Nat) : State := s.onQ q (fun x => { x with head := (x.head + 1) % 2 ^ 32 })

/-- INT_CTX[n]; the interrupt lines are 0 in DEEP (R466). -/
def intCtx (s : State) (n : Nat) : Bool :=
  s.pwr.state != .deep && decide ((s.ctx n).qpend &&& (15 ^^^ (s.ctx n).qmask) ≠ 0)
/-- INT_SVC (R466). -/
def intSvc (s : State) : Bool := s.pwr.state != .deep && decide (s.svc.irq &&& (31 ^^^ s.svc.mask) ≠ 0)

/-- Records in use: by commands in flight and by held areas (R227, R291). -/
def State.recUsed (s : State) (i : Nat) : Bool :=
  s.cp.cmds.any (fun c => match c.comp? with | some x => x.recNo == some i | none => false)
    || s.cp.areas.any (fun a => a.recNo == i)

/-- The lowest free work-counter record (R227). -/
def State.freeRec (s : State) : Option Nat := (rangeFrom 0 256).find? (fun i => !s.recUsed i)

/-- A ticket is held by a command in flight or a held area (R226). -/
def State.ticketUsed (s : State) (t : Nat) : Bool :=
  s.cp.cmds.any (fun c => c.ticket == some t) || s.cp.areas.any (fun a => a.ticket == t)

/-- The next ticket: ascending modulo 2^16 from the last given (R226). At most 320 tickets are held, so 321 tries do. -/
def State.nextTicket (s : State) : Nat → Nat → Nat
  | 0, t => t
  | n + 1, t => if s.ticketUsed t then s.nextTicket n ((t + 1) % 65536) else t

/-- Units handshake: not in IDLE or DEEP (R428). -/
def unitsRun (s : State) : Bool := s.pwr.state == .active || s.pwr.state == .arraysOff

/-- The sustained ceiling (R418). -/
def sustCode (k : Kpr) : Nat := min 170 (min (k.vSust + k.vminTrim) (k.vSprint + k.vminTrim))

/-- On the way to ACTIVE from IDLE the request rises to its ceiling, code 120 under an alarm, one code at a time (R414, R418, R428). -/
def State.riseToCeiling (s : State) : State :=
  if s.pwr.state = .idle then s.onKpr (fun k => { k with vTarget := max k.vReq (if s.kin.alarm then 120 else sustCode k) }) else s

/-- The block wakes from IDLE (R428, R449). -/
def State.wake (s : State) : State :=
  (s.onPwr (fun p => { p with going := some .active, target := .active })).riseToCeiling

/-- The block sleeps in IDLE and can wake (R428, R434). -/
def sleeps (s : State) : Bool :=
  s.pwr.state == .idle && s.blk.mode != .starting && s.blk.mode != .failed && !s.start.resetLow

/-- The block is in service and powered (R428, R443). -/
def blkRuns (s : State) : Bool :=
  (s.blk.mode == .ready || s.blk.mode == .skeleton || s.blk.mode == .quiesced) && unitsRun s

/-- A command processor that reads packets: not halted or switching, the block in service, the context ACTIVE (R295, R392,
R428, R444). -/
def canDispatch (s : State) (q : Nat) : Bool :=
  blkRuns s && !s.cp.paused && (s.ctx (ctxOf q)).mode == .active

/-- A packet waits at HEAD and nothing holds the queue or fills the journal (R270, R273, R391). -/
def hasPacket (s : State) (q : Nat) : Bool :=
  let x := s.queue q
  x.log != 0 && x.head != x.tail && x.hold == none && decide (s.cp.cmds.length < 512)

/-- Bytes read of the packet at `a`: the header and EXT_LEN extension blocks (R276). -/
def packetBytes (s : State) (a : Nat) : Nat := 64 * (1 + pExtLen (s.readNat a 64))

/-- The packet at `a` as one number, zeros in place of the bytes that are not read (R276). -/
def packetAt (s : State) (a : Nat) : Nat := s.readNat a (packetBytes s a)

/-- The first byte of the packet at `a` that cannot be read (R276, R406). -/
def packetFault (s : State) (a : Nat) : Option Cond := nearFault s a (packetBytes s a)

/-- The packet at HEAD (R276). -/
def headPacket (s : State) (q : Nat) : Nat := packetAt s (packetAddr (s.queue q) (s.queue q).head)

/-- Opcodes of R277. -/
def opcodeKnown (op : Nat) : Bool :=
  [0x01, 0x02, 0x03, 0x04, 0x08, 0x10, 0x11, 0x12, 0x13, 0x14, 0x15, 0x16, 0x18, 0x19, 0x20, 0x21, 0x22, 0x23, 0x28, 0x29,
    0x30, 0x31, 0x38, 0x39, 0x3C].contains op

/-- What every packet row does first (R273, R276, R406): nothing when no packet of that opcode can be dispatched (log 3); a
packet that cannot be read is replied to with the reason; otherwise the packet is consumed and `f` gets the packet, its
address and its position. -/
def withPacket (s : State) (q : Nat) (isOp : Nat → Bool) (f : State → Nat → Nat → Nat → State) : State :=
  if !canDispatch s q || !hasPacket s q then s
  else
    let x := s.queue q
    let a := packetAddr x x.head
    let p := headPacket s q
    if !isOp (pOp p) then s
    else match packetFault s a with
      | some c => (s.takePacket q).reply { Cmd.read q x.head p (s.ctx (ctxOf q)).step (.fence []) with conds := [c] }
      | none => f (s.takePacket q) p a x.head

/-- A packet answered at once (R277, R287): its reply carries `conds`. -/
def State.replyNow (s : State) (q pos p : Nat) (conds : List Cond) : State :=
  s.reply { Cmd.read q pos p (s.ctx (ctxOf q)).step (.fence []) with conds := conds }

/-- A packet field that fails a command: INFO names the packet (R482). -/
def pktBad (pktA off : Nat) : List Cond := [badField 0 pktA off]

end Sys2Proof.Machine
end

