-- ==== Sys2Proof/Machine/Link.lean ====
section
/-! DEFINITION. The exchange engine's shared operations: frames, hops, acknowledgement, holding and matching (R357-R379). -/
namespace Sys2Proof.Machine

/-- This block's board position (R358, R467). -/
def ownPos (s : State) : Nat := bitsOf s.blk.straps 13 11
/-- This block's chip identity (R467). -/
def ownChip (s : State) : Nat := bitsOf s.blk.straps 63 32

/-- What a sender puts in a header beside its identity, FSEQ and CRC (R361). -/
structure Hdr where
  typ : Nat
  ctx : Nat := 0
  ticket : Nat := 0
  layer : Nat := 0
  step : Nat := 0
  anchor : Nat := 0
  dst : Nat
  tileM : Nat := 0
  tileN : Nat := 0
  rowLen : Nat := 0
  elems : Nat := 0
  sub : Nat := 0
  localScale : Bool := false
  deriving DecidableEq, Repr

/-- The header of R361 with CRC zero. -/
def headerWord (s : State) (h : Hdr) (fseq : Nat) : Nat :=
  putBits h.typ 2 0 + putBits h.ctx 4 4 + putBits h.ticket 16 8 + putBits h.layer 16 24 + putBits h.step 48 40
    + putBits h.anchor 16 88 + putBits h.dst 4 104 + putBits (ownPos s) 4 108 + putBits h.tileM 32 112
    + putBits h.tileN 32 144 + putBits h.rowLen 32 176 + putBits h.elems 13 208 + putBits fseq 32 224
    + putBits (ownPos s) 4 256 + putBits (ownChip s) 32 288 + putBits s.xch.boardId 32 320 + putBits s.xch.fdom 32 352
    + putBits h.sub 4 384 + putBits (bit h.localScale) 1 388

/-- Bytes padded with zeros to a multiple of 64 (R363). -/
def pad64 (bs : List Byte) : List Byte := bs ++ List.replicate ((64 - bs.length % 64) % 64) 0

/-- A whole frame: header with its CRC, and the padded payload (R361-R363). -/
def frameImage (hdr : Nat) (payload : List Byte) : List Byte :=
  let p := pad64 payload
  natLe (hdr + (crc32c (natLe hdr 64 ++ p)).toNat <<< 480) 64 ++ p

/-- Field cuts of a received header (R361). -/
def hType (h : Nat) : Nat := bitsOf h 1 0
def hCtx (h : Nat) : Nat := bitsOf h 7 4
def hLayer (h : Nat) : Nat := bitsOf h 39 24
def hStep (h : Nat) : Nat := bitsOf h 87 40
def hAnchor (h : Nat) : Nat := bitsOf h 103 88
def hDst (h : Nat) : Nat := bitsOf h 107 104
def hHop (h : Nat) : Nat := bitsOf h 111 108
def hElems (h : Nat) : Nat := bitsOf h 220 208
def hFseq (h : Nat) : Nat := bitsOf h 255 224
def hSrcPos (h : Nat) : Nat := bitsOf h 259 256
def hSrcChip (h : Nat) : Nat := bitsOf h 319 288
def hSrcBoard (h : Nat) : Nat := bitsOf h 351 320
def hSub (h : Nat) : Nat := bitsOf h 387 384
/-- The destination index of payload position 0 (R361). -/
def hDestIdx (h : Nat) : Nat := bitsOf h 143 112 * bitsOf h 207 176 + bitsOf h 175 144

/-- Payload bytes before padding (R363). -/
def payloadLen (h : Nat) : Nat :=
  match hType h with
  | 0 => 16 * hElems h
  | 1 => 2 * hElems h + ceilDiv (hElems h) 32
  | 2 => hElems h
  | _ => 64

/-- The CRC of a frame is right and its length is that of its payload (R362, R363). -/
def frameSound (raw : List Byte) : Bool :=
  let h := leNat (raw.take 64)
  raw.length == 64 + ceilDiv (payloadLen h) 64 * 64
    && (crc32c (raw.take 60 ++ [0, 0, 0, 0] ++ raw.drop 64)).toNat == bitsOf h 511 480

/-- A frame image handed to the outbound streams, alternately when both are present (R357). -/
def State.emit (s : State) (img : List Byte) : State :=
  s.onXch (fun x =>
    let st := if !bitOf s.blk.straps 2 then 1 else if !bitOf s.blk.straps 3 then 0 else x.stream
    { x with out := x.out ++ [(st, img)], stream := 1 - st })

/-- A unit of a beat: its 64 bytes, and whether it begins and ends a frame (R461). -/
structure BeatUnit where
  data : List Byte
  sof : Bool
  eof : Bool
  deriving DecidableEq, Repr

/-- The units of a frame: 64 bytes each (R461). -/
def frameUnits (img : List Byte) : List BeatUnit :=
  let n := ceilDiv img.length 64
  (rangeFrom 0 n).map (fun i => ⟨(img.drop (64 * i)).take 64, i == 0, i + 1 == n⟩)

/-- The beats in which stream `st` carries the frames handed to it: packed back to back, 16 units to a beat (R461). -/
def streamBeats (s : State) (st : Nat) : List (List BeatUnit) :=
  let us := (s.xch.out.filter (fun x => x.1 == st)).flatMap (fun x => frameUnits x.2)
  (rangeFrom 0 (ceilDiv us.length 16)).map (fun i => (us.drop (16 * i)).take 16)

/-- UV, SOF and EOF of a beat (R461). -/
def beatMarks (b : List BeatUnit) : Nat × Nat × Nat :=
  (maskOf (b.map (fun _ => true)), maskOf (b.map (·.sof)), maskOf (b.map (·.eof)))

/-- Sending hop `h`. -/
def State.txHop (s : State) (h : Nat) : TxHop := vget s.xch.tx h
/-- Sending hop `h` changed. -/
def State.onTx (s : State) (h : Nat) (f : TxHop → TxHop) : State := s.onXch (fun x => { x with tx := vmod x.tx h f })
/-- Receiving hop `h`. -/
def State.rxHop (s : State) (h : Nat) : RxHop := vget s.xch.rx h
/-- Receiving hop `h` changed. -/
def State.onRx (s : State) (h : Nat) (f : RxHop → RxHop) : State := s.onXch (fun x => { x with rx := vmod x.rx h f })

/-- A SYNC with BASE goes to a receiver; it is kept until acknowledged (R365). -/
def State.sendSync (s : State) (dst base : Nat) : State :=
  let hdr := headerWord s { typ := 3, dst := dst, sub := 2 } 0
  let img := frameImage hdr (natLe ((s.txHop dst).epoch % 2 ^ 32 + base <<< 32) 64)
  (s.emit img).onTx dst (fun t => { t with
    syncOut := true
    buf := ⟨0, 0, true, img, none, false⟩ :: t.buf.filter (fun f => !f.sync) })

/-- A CTRL ACK frame (R363): up to which FSEQ, or the SYNC request. -/
def State.sendAck (s : State) (dst upTo : Nat) (request : Bool) : State :=
  let hdr := headerWord s { typ := 3, dst := dst, sub := 1 } 0
  s.emit (frameImage hdr (natLe (if request then 0xFFFFFFFF <<< 32 else upTo % 2 ^ 32) 64))

/-- A data, MAX or END frame to another receiver: numbered, kept until acknowledged, and sent once the hop is in step
(R364, R365). -/
def State.txFrame (s : State) (h : Hdr) (payload : List Byte) (cmd : Option Key) (isEnd : Bool) : State :=
  let t := s.txHop h.dst
  let img := frameImage (headerWord s h t.next) payload
  let s := s.onTx h.dst (fun t => { t with
    next := (t.next + 1) % 2 ^ 32
    buf := t.buf ++ [⟨t.next, 0, false, img, cmd, isEnd⟩] })
  let s := match cmd with | some k => s.onCmd k (fun c => { c with sent := c.sent + 1 }) | none => s
  if t.synced then s.emit img
  else if t.syncOut then s
  else s.sendSync h.dst t.next

/-- Bytes of the send buffer in use (R364). -/
def sendBytes (s : State) : Nat :=
  s.xch.tx.toList.foldl (fun n t => t.buf.foldl (fun n f => n + f.image.length) n) 0

/-- The send buffer: 8 MiB (R364). -/
def sendLimit : Nat := 0x800000

/-- No frame of the command is unacknowledged (R373). -/
def framesAcked (s : State) (k : Key) : Bool :=
  s.xch.tx.toList.all (fun t => t.buf.all (fun f => f.cmd != some k))

/-! Held frames (R367-R379). -/

/-- The frames held for context `n`, in order of acceptance. -/
def State.heldOf (s : State) (n : Nat) : List Held := vget s.xch.held n
/-- The held frames of context `n` changed. -/
def State.onHeld (s : State) (n : Nat) (f : List Held → List Held) : State :=
  s.onXch (fun x => { x with held := vmod x.held n f })

/-- Bytes a context's share holds (R367). -/
def shareBytes (s : State) (n : Nat) : Nat := (s.heldOf n).foldl (fun a f => a + 64 + (pad64 f.payload).length) 0
/-- A context's share: 1 MiB (R367). -/
def shareLimit : Nat := 0x100000
/-- XR_STOP[n]: less than 16 KiB of the share is free (R462). -/
def xrStop (s : State) (n : Nat) : Bool := decide (shareLimit < shareBytes s n + 0x4000)

/-- The frame record of a command. -/
def Cmd.frm? (c : Cmd) : Option Frm := match c.body with | .frame f => some f | _ => none
/-- The frame record changed. -/
def Cmd.onFrm (c : Cmd) (g : Frm → Frm) : Cmd := match c.body with | .frame f => { c with body := .frame (g f) } | _ => c

/-- The LAYER a receiver matches: FRAME_RECV and FRAME_COMBINE by LAYER, MAX_EXCHANGE by GROUP (R368, R376). -/
def recvLayer (c : Cmd) : Nat := if pOp c.pkt = 0x23 then bitsOf c.pkt 207 192 else bitsOf c.pkt 223 208

/-- The frame is one the receiver takes (R368, R375): kind, layer, and source for FRAME_COMBINE. -/
def Cmd.matches (c : Cmd) (f : Held) : Bool :=
  let h := f.header
  !c.ended && c.frm?.isSome && recvLayer c == hLayer h &&
    (match pOp c.pkt with
     | 0x21 => hType h == 0 || (hType h == 2 && hSub h == 1)
     | 0x22 => hType h == 0 && (bitsOf c.pkt 263 256 == 0 || bitOf (bitsOf c.pkt 263 256) (hSrcPos h))
     | 0x23 => hType h == 2 && hSub h == 0
     | _ => false)

/-- A long word of a payload (R363, R47). -/
def payloadLong (bs : List Byte) (e : Nat) : Nat := leNat ((bs.drop (16 * e)).take 16)

/-- A long-word atomic add in the shared cache (R64, R266). -/
def State.lwAddAt (s : State) (a : Nat) (w : LW) : State :=
  s.store a (natLe (lwCode (lwAdd (lwDecode (s.readNat a 16)) w)) 16)

/-- A 64-bit unsigned maximum in the shared cache (R266). -/
def State.maxAt (s : State) (a v : Nat) : State := s.store a (natLe (max (s.readNat a 8) v) 8)

/-- The scan record MAX_EXCHANGE writes (R57, R59): maxima, A of R54, formats, NaN flags, AGREED_SRC and VALID. -/
def agreedRecord (f : Frm) : Nat :=
  let sa := f.maxA - 127
  let sb := f.maxB - 127
  let fa := f.fmts % 16
  let fb := f.fmts / 16 % 16
  ofSigned sa 16 + ofSigned sb 16 <<< 16 + ofSigned (scanAnchor sa sb (fmtD fa) (fmtD fb)) 16 <<< 32 + fa <<< 48 + fb <<< 52
    + putBits f.flags 1 56 + putBits (f.flags / 256) 1 57 + 1 <<< 58 + 1 <<< 63

/-- The END frame of a command that sent frames (R363, R372): data frames released, tiles frozen, status. -/
def State.txEnd (s : State) (c : Cmd) (dst sent frozen : Nat) : State :=
  let hdr : Hdr := { typ := 3, ctx := ctxOf c.q, ticket := c.ticket.getD 0,
                     layer := if pOp c.pkt = 0x23 then bitsOf c.pkt 207 192 else if pOp c.pkt = 0x20 then bitsOf c.pkt 223 208
                              else bitsOf (cTagMain c.pkt) 15 0,
                     step := c.step, dst := dst, sub := 3 }
  let payload := natLe (sent % 2 ^ 32 + (frozen % 2 ^ 32) <<< 32 + c.final.status.code <<< 64) 64
  if dst = ownPos s then s else s.txFrame hdr payload (some c.key) true

/-- A receiving or sending frame command ends with a condition; MAX_EXCHANGE, which sent a frame, sends its END (R372). -/
def State.endFrm (s : State) (k : Key) (conds : List Cond) : State :=
  let s := (s.meetAll conds).onCmd k (fun c => { c with ended := true, conds := c.conds ++ conds })
  match s.cmd? k with
  | none => s
  | some c => if pOp c.pkt = 0x23 then s.txEnd c 8 1 0 else s

/-- What stands in the way of writing a frame of receiver `c` at `a` (R47, R225, R266, R406, R472): the block region and a word off
its boundary name the packet's DST or SCAN_ADDR. `rmw`: the words are read and written. -/
def frameFault (s : State) (c : Cmd) (a len align : Nat) (rmw : Bool) : Option Cond :=
  if regionOf a ≠ .near then some ⟨.memoryUnrecoverable, a⟩
  else if hitsBlockRegion a len || !isMult a align then some (badField 0 (packetAddr (s.queue c.q) c.pos) 16)
  else match badByte s a len with
    | some x => some ⟨.memoryUnrecoverable, x⟩
    | none => match writeFault s a len with
      | some x => some x
      | none => if rmw then readFault s a len else none

/-- Long words written or added at consecutive destination indices (R374, R375). -/
def State.putLongs (s : State) (add : Bool) (a : Nat) : List Byte → Nat → State
  | _, 0 => s
  | bs, n + 1 =>
    let w := leNat (bs.take 16)
    let s := if add then s.lwAddAt a (lwDecode w) else s.store a (natLe w 16)
    State.putLongs s add (a48 (a + 16)) (bs.drop 16) n

/-- Scale bytes taken into 64-bit words by maximum (R374). -/
def State.putMaxima (s : State) (a : Nat) : List Byte → State
  | [] => s
  | b :: bs => State.putMaxima (s.maxAt a b.toNat) (a48 (a + 8)) bs

/-- What becomes of a frame that its earliest receiver matches. -/
inductive Take where
  /-- consumed -/
  | consumed (s : State)
  /-- left held; the receiver has ended -/
  | kept (s : State)

/-- The receiver `c` meets the frame `f` (R374-R379). -/
def State.takeFrame (s : State) (c : Cmd) (r : Frm) (f : Held) : Take :=
  let h := f.header
  let k := c.key
  let idx := hDestIdx h
  let dst := bitsOf c.pkt 175 128
  let skewed := f.skew || hStep h != c.step
  let count := fun (s : State) => s.onCmd k (fun c => c.onFrm (fun x => { x with accepted := x.accepted + 1 }))
  match pOp c.pkt with
  | 0x21 =>
    if f.skew then .kept (s.endFrm k [⟨.stepSkew, c.step + putBits (hStep h) 48 48⟩])
    else if hType h == 0 then
      if r.flags = 1 ∧ r.fmts ≠ hAnchor h then .kept (s.endFrm k [⟨.anchorMismatch, hAnchor h + putBits 0xFF 8 16⟩])
      else
        let a := a48 (dst + 16 * idx)
        match frameFault s c a (16 * hElems h) 16 false with
        | some e => .kept (s.endFrm k [e])
        | none =>
          let s := s.putLongs false a f.payload (hElems h)
          .consumed ((count s).onCmd k (fun c => c.onFrm (fun x => { x with flags := 1, fmts := hAnchor h })))
    else
      let a := a48 (dst + 8 * idx)
      match frameFault s c a (8 * hElems h) 8 true with
      | some e => .kept (s.endFrm k [e])
      | none => .consumed (count (s.putMaxima a (f.payload.take (hElems h))))
  | 0x22 =>
    if skewed then
      .kept ((s.onHeld (ctxOf c.q) (fun l => l.map (fun x => if x == f then { x with skew := true } else x))).endFrm k
        [⟨.stepSkew, c.step + putBits (hStep h) 48 48⟩])
    else if hAnchor h ≠ bitsOf c.pkt 111 96 then .kept (s.endFrm k [⟨.anchorMismatch, hAnchor h + putBits 0xFF 8 16⟩])
    else
      let a := a48 (dst + 16 * idx)
      match frameFault s c a (16 * hElems h) 16 true, s.mem.badLine true a (16 * hElems h) with
      | some e, _ => .kept (s.endFrm k [e])
      | none, some l => .kept (((s.logRec (addResidue l (ctxOf c.q) c.ticket)).dropLine l).endFrm k [⟨.memoryUnrecoverable, l⟩])
      | none, none => .consumed (count (s.putLongs true a f.payload (hElems h)))
  | _ =>
    if skewed then
      .kept ((s.onHeld (ctxOf c.q) (fun l => l.map (fun x => if x == f then { x with skew := true } else x))).endFrm k
        [⟨.stepSkew, c.step + putBits (hStep h) 48 48⟩])
    else
      let b := fun i => (f.payload.getD i 0).toNat
      if b 2 ≠ r.fmts % 16 then .kept (s.endFrm k [badField 3 0 2])
      else if b 3 ≠ r.fmts / 16 % 16 then .kept (s.endFrm k [badField 3 0 3])
      else .consumed ((count s).onCmd k (fun c => c.onFrm (fun x => { x with
        maxA := max x.maxA (b 0), maxB := max x.maxB (b 1),
        flags := max (x.flags % 256) (b 4) + 256 * max (x.flags / 256) (b 5) })))

/-- A receiver that has all its frames completes (R374-R376). -/
def State.completeFrm (s : State) (k : Key) : State :=
  match s.cmd? k with
  | none => s
  | some c => match c.frm? with
    | none => s
    | some r =>
      if c.ended || decide (r.accepted < r.expected) || pOp c.pkt = 0x20 then s
      else if pOp c.pkt = 0x23 then
        let a := bitsOf c.pkt 175 128
        match frameFault s c a 8 8 false with
        | some e => s.endFrm k [e]
        | none => (s.store a (natLe (agreedRecord r) 8)).endFrm k []
      else s.endFrm k []

/-- The first held frame that some receiver takes, with its earliest receiver (R368). -/
def firstMatch (cmds : List Cmd) : List Held → Option (Held × Cmd)
  | [] => none
  | f :: fs => match cmds.find? (fun c => c.matches f) with
    | some c => some (f, c)
    | none => firstMatch cmds fs

/-- Held frames of context `n` meet their receivers, in the order of acceptance (R368). -/
def State.matchFrames : Nat → Nat → State → State
  | 0, _, s => s
  | fuel + 1, n, s =>
    match firstMatch (s.cmdsOf n) (s.heldOf n) with
    | none => s
    | some (f, c) => match c.frm? with
      | none => s
      | some r => match s.takeFrame c r f with
        | .consumed s' => State.matchFrames fuel n ((s'.onHeld n (·.erase f)).completeFrm c.key)
        | .kept s' => State.matchFrames fuel n s'

/-- Matching with fuel for every frame and every receiver; a context that is not ACTIVE has no work issued (R308). -/
def State.matchAll (s : State) (n : Nat) : State :=
  if (s.ctx n).mode = .active then State.matchFrames ((s.heldOf n).length + s.cp.cmds.length + 1) n s else s

/-- The clause of R366 by which a frame is discarded, acknowledged and logged, if one holds. -/
def rejectClause (s : State) (h : Nat) : Option Nat :=
  let p := vget s.xch.peers (hSrcPos h)
  let pairOk := match hType h with
    | 0 => hSub h == 0
    | 1 => hSub h == 0
    | 2 => hSub h == 0 || hSub h == 1
    | _ => hSub h == 1 || hSub h == 2 || hSub h == 3
  let elemsOk := match hType h with
    | 0 | 1 => decide (1 ≤ hElems h ∧ hElems h ≤ 256)
    | 2 => decide (1 ≤ hElems h ∧ hElems h ≤ 4096)
    | _ => hElems h == 0
  let chip := if hSrcPos h = ownPos s then ownChip s else p.1 -- the SELF entry reads the strap (R360)
  if hDst h ≠ ownPos s then some 0
  else if !pairOk || !elemsOk then some 1
  else if hSrcBoard h = s.xch.boardId ∧ (hHop h ≠ hSrcPos h ∨ !p.2.1 ∨ hSrcChip h ≠ chip) then some 2
  else if (s.ctx (hCtx h)).mode = .disabled then some 3
  else if hType h = 1 then some 4
  else none

/-- An accepted frame held in its context's share and matched (R367, R368). -/
def State.holdFrame (s : State) (h : Nat) (payload : List Byte) : State :=
  (s.onHeld (hCtx h) (· ++ [⟨h, payload.take (payloadLen h), false⟩])).matchAll (hCtx h)

/-- The record of a frame discarded by a clause of R366 (R404). -/
def State.logReject (s : State) (h c : Nat) : State :=
  s.logRec { event := 0x19, action := 8, kind := 9, unit := hHop h, d0 := c }

/-- A frame accepted or discarded by the clauses of R366 (data and MAX frames). -/
def State.judgeFrame (s : State) (h : Nat) (payload : List Byte) : State :=
  match rejectClause s h with
  | some c => s.logReject h c
  | none => s.holdFrame h payload

/-- A data or MAX frame sent: to this block's own position it never leaves the exchange engine (R358); otherwise by its
hop. -/
def State.sendFrame (s : State) (h : Hdr) (payload : List Byte) (cmd : Option Key) : State :=
  if h.dst = ownPos s then
    let s := match cmd with
      | some k => s.onCmd k (fun c => { c with sent := c.sent + 1, acked := c.acked + 1 })
      | none => s
    s.judgeFrame (headerWord s h 0) (pad64 payload)
  else s.txFrame h payload cmd false

end Sys2Proof.Machine
end

