-- ==== Sys2Proof/Machine/Ledger.lean ====
section
/-! DEFINITION. Ledger transitions, copies, reissue, retirement, the done action and arbitration (R226-R242, R174, R175, R236,
R389, R390). -/
namespace Sys2Proof.Machine

/-- The core of a unit (R12: array 4c + j; 32 + 2c + h; 48 + c). -/
def coreOfUnit (u : Nat) : Nat := if u < 32 then u / 4 else if u < 48 then (u - 32) / 2 else u - 48

/-- The units of a core: its arrays, thin halves and fusion unit. -/
def coreUnits (c : Nat) : List Nat := rangeFrom (4 * c) 4 ++ rangeFrom (32 + 2 * c) 2 ++ [48 + c]

/-! What a unit holds: mailbox, held ordinal, drains, records it draws no more from (R228, R234, R168). -/

/-- The mailbox of a unit (R234). -/
def State.mailOf (s : State) (u : Nat) : Option Seed :=
  if u < 32 then (s.array u).mailbox else if u < 48 then (s.half (u - 32)).mailbox else (s.core (u - 48)).fusionMail
/-- The mailbox of a unit set. -/
def State.setMail (s : State) (u : Nat) (m : Option Seed) : State :=
  if u < 32 then s.onArray u (fun a => { a with mailbox := m })
  else if u < 48 then s.onHalf (u - 32) (fun h => { h with mailbox := m })
  else s.onCore (u - 48) (fun c => { c with fusionMail := m })
/-- The ordinal a unit holds (R228). -/
def State.holdOf (s : State) (u : Nat) : Option (Key × Nat) :=
  if u < 32 then (s.array u).hold else if u < 48 then (s.half (u - 32)).hold else (s.core (u - 48)).fusionHold
/-- The held ordinal of a unit set. -/
def State.setHold (s : State) (u : Nat) (m : Option (Key × Nat)) : State :=
  if u < 32 then s.onArray u (fun a => { a with hold := m })
  else if u < 48 then s.onHalf (u - 32) (fun h => { h with hold := m })
  else s.onCore (u - 48) (fun c => { c with fusionHold := m })
/-- The drains of a unit. -/
def State.drainsOf (s : State) (u : Nat) : List Drain :=
  if u < 32 then (s.array u).drains else if u < 48 then (s.half (u - 32)).drains else (s.core (u - 48)).fusionDrains
/-- The drains of a unit changed. -/
def State.onDrains (s : State) (u : Nat) (f : List Drain → List Drain) : State :=
  if u < 32 then s.onArray u (fun a => { a with drains := f a.drains })
  else if u < 48 then s.onHalf (u - 32) (fun h => { h with drains := f h.drains })
  else s.onCore (u - 48) (fun c => { c with fusionDrains := f c.fusionDrains })
/-- The records a unit draws no more from. -/
def State.noDrawOf (s : State) (u : Nat) : List Key :=
  if u < 32 then (s.array u).noDraw else if u < 48 then (s.half (u - 32)).noDraw else (s.core (u - 48)).fusionNoDraw
/-- The records a unit draws no more from, changed. -/
def State.onNoDraw (s : State) (u : Nat) (f : List Key → List Key) : State :=
  if u < 32 then s.onArray u (fun a => { a with noDraw := f a.noDraw })
  else if u < 48 then s.onHalf (u - 32) (fun h => { h with noDraw := f h.noDraw })
  else s.onCore (u - 48) (fun c => { c with fusionNoDraw := f c.fusionNoDraw })
/-- The seed of the claim a unit walks. -/
def State.walkOf (s : State) (u : Nat) : Option (Seed × Nat) :=
  if u < 32 then (s.array u).claim.map (fun c => (c.seed, c.steps))
  else if u < 48 then (s.half (u - 32)).claim.map (fun c => (c.seed, c.steps))
  else none
/-- A unit is in service for the work of its kind (R389, R254). -/
def State.serves (s : State) (u : Nat) : Bool :=
  if u < 32 then (s.array u).inService else if u < 48 then (s.core (coreOfUnit u)).thinIn else (s.core (u - 48)).inService
/-- Every drawing unit. -/
def allUnits : List Nat := rangeFrom 0 56
/-- Two units of one kind: arrays, thin halves, fusion units. -/
def sameKind (u w : Nat) : Bool := decide (w < 32) == decide (u < 32) && decide (w < 48) == decide (u < 48)

/-- A run changed. -/
def Comp.onRun (c : Comp) (ord : Nat) (f : Run → Run) : Comp := { c with runs := c.runs.modify ord f }

/-- An entry of a run changed. -/
def Comp.onEntry (c : Comp) (ord i : Nat) (f : Entry → Entry) : Comp :=
  c.onRun ord (fun r => { r with entries := r.entries.modify i f })

/-- The run of a stage tile. -/
def Comp.run? (c : Comp) (ord : Nat) : Option Run := c.runs[ord]?

/-- The origin of the level-3 tile around a position of one dimension: level-4 tiles are cut from 0, level-3 tiles from their origin
(R210). -/
def sharedOrigin (d dim x : Nat) : Nat :=
  let o := x / dExt d 4 dim * dExt d 4 dim
  o + (x - o) / dExt d 3 dim * dExt d 3 dim

/-- The level-3 tile of a stage tile, by its origin in F, M, N, K (R210, R217). -/
def Comp.sharedTile (c : Comp) (ord : Nat) : Nat × Nat × Nat × Nat :=
  match c.run? ord with
  | none => (0, 0, 0, 0)
  | some r => (sharedOrigin c.desc 3 r.box.f0, sharedOrigin c.desc 0 r.box.m0, sharedOrigin c.desc 1 r.box.n0, sharedOrigin c.desc 2 r.box.k0)

/-- Lines of a resident operand held for a level-3 tile (R217). -/
def State.holdLines (s : State) (key : Key) (tile : Nat × Nat × Nat × Nat) (lines : List Nat) : State :=
  s.onMem (fun m => m.hold key tile lines)

/-- A level-3 tile of a command has a claim that is not done (R217). -/
def tileOpen (s : State) (key : Key) (tile : Nat × Nat × Nat × Nat) : Bool :=
  match s.cmd? key with
  | none => false
  | some cmd => match cmd.comp? with
    | none => false
    | some c => !cmd.ended && !cmd.cut
        && (rangeFrom 0 c.runs.length).any (fun o => c.sharedTile o == tile && !((c.run? o).elim true (fun r => r.entries.all (·.isDone))))

/-- Held lines let go once the last claim of their tile is done (R217). -/
def State.letGo (s : State) : State :=
  if s.mem.held.isEmpty then s else s.onMem (fun _ => { s.mem with held := s.mem.held.filter (fun h => tileOpen s h.key h.tile) })

/-- Every entry of the run is DONE (R236). -/
def Run.allDone (r : Run) : Bool := r.entries.all (·.isDone)
/-- The run is all DONE with no copy in flight (R232). -/
def Run.quiet (r : Run) : Bool := r.entries.all (fun e => e.isDone && e.copies == 0)

/-- A copy of a tile begins (R230): the first claim, or another copy with its origin's bit. -/
def Entry.begin_ (e : Entry) (u : Nat) (o : Origin) : Entry :=
  if e.state = .unclaimed then { e with state := .claimed, unit := u, copies := 1 }
  else { e with
    copies := e.copies + 1
    spec := e.spec || o == .speculation
    recov := e.recov || o == .recovery || o.isArb }

/-- A copy of a tile is stopped or abandoned (R230). -/
def Entry.lessOne (e : Entry) : Entry := { e with copies := e.copies - 1 }

/-- Runs all DONE without copies are freed (R232). -/
def Comp.freeRuns (c : Comp) : Comp :=
  { c with runs := c.runs.map (fun r => if r.written && !r.freed && r.quiet then { r with freed := true } else r) }

/-- Every tile of the command is settled: DONE, or DISPUTED beyond agreement (R242). -/
def Comp.settled (c : Comp) : Bool := c.entries.all (fun e => e.isDone || e.unresolved)

/-- No copy of any tile is in flight (R237). -/
def Comp.noCopies (c : Comp) : Bool := c.entries.all (fun e => e.copies == 0)

/-- Tiles of a claim whose last update is still to come. -/
def Claim.openTiles (c : Claim) : List Nat :=
  c.todo.filterMap (fun o => match o with
    | .vec v => if v.last then some v.tile else none
    | .zero t => some t
    | .load _ => none)

/-- Tiles of a paused claim of the seed on array `u` (R301). -/
def State.pausedOn (s : State) (u : Nat) (sd : Seed) : List Nat :=
  if u < 32 then
    ((s.core (u / 4)).paused.filter (fun p => p.array == u && p.claim.seed == sd && !p.dropped)).flatMap (fun p =>
      p.claim.openTiles ++ p.drains.map (·.tile))
  else []

/-- Tiles whose last update the walk of a seed still owes. -/
def State.walking (s : State) (u : Nat) (sd : Seed) : List Nat :=
  if u < 32 then (match (s.array u).claim with | some c => if c.seed = sd then c.openTiles else [] | none => [])
  else if u < 48 then (match (s.half (u - 32)).claim with | some c => if c.seed = sd then [0] else [] | none => [])
  else []

/-- The walk, the drains and the paused tiles of a seed on a unit: what it still has in flight (R230). -/
def State.openOn (s : State) (u : Nat) (sd : Seed) : List Nat :=
  s.walking u sd ++ ((s.drainsOf u).filter (fun d => d.seed = sd)).map (·.tile) ++ s.pausedOn u sd

/-- A claim's steps charged to its context's virtual time on the core (R299). -/
def State.charge (s : State) (u : Nat) (key : Key) (steps : Nat) : State :=
  let n := ctxOf key.1
  let sh := (s.ctx n).share
  let d := if sh = 0 then steps else steps * 16 / sh
  s.onCore (coreOfUnit u) (fun c => { c with v := vmod c.v n (· + d) })

/-- The slots a seed binds on an array released (R300). -/
def State.unbind (s : State) (u : Nat) (sd : Seed) : State :=
  s.onCore (coreOfUnit u) (fun c => { c with
    binds := c.binds.filter (fun b => !(b.unit == u && b.key == sd.key && b.ord == sd.ord)) })

/-- A drain has still to read a slot row: an update of it waits (R168, R169, R198). -/
def Drain.holds (d : Drain) (slot row : Nat) : Bool :=
  d.src == .slot slot && (
    if d.sweep == .plain then !d.complete && ((decide (d.row ≤ row) && decide (row < d.rows)) || (decide (d.rows ≤ row) && d.row == 0))
    else true)

/-- Rows of the seed's tiles that a drain of the unit has still to read, or a walk to update: its slots stay bound; those of a
RESIDENT band until its done action (R198, R300). -/
def State.stillBinds (s : State) (u : Nat) (sd : Seed) : Bool :=
  (match s.walkOf u with | some (x, _) => x == sd | none => false)
    || (s.drainsOf u).any (fun d => d.seed == sd && (d.sweep != .plain || (!d.complete && decide (d.row < d.rows))))
    || (decide (u < 32) && (s.core (u / 4)).paused.any (fun p => p.array == u && p.claim.seed == sd && !p.dropped))

/-- The slots of a seed released once nothing of it is left to read (R198, R300). -/
def State.release (s : State) (u : Nat) (sd : Seed) : State := if s.stillBinds u sd then s else s.unbind u sd

/-- The speculative copies of a command, one fewer (R239). -/
def State.specEnds (s : State) (sd : Seed) : State :=
  if sd.origin = .speculation then s.onComp sd.key (fun c => { c with specOut := c.specOut - 1 }) else s

/-- An array without a walk: its delivered vectors dropped and its stage areas empty (R134). -/
def ArraySt.walkOver (a : ArraySt) : ArraySt := { a with claim := none, vecs := [], stage := StageSt.empty }

/-- The walk of a seed on a unit ends, and its paused claim is dropped (R236, R308). -/
def State.dropWalk (s : State) (u : Nat) (sd : Seed) : State :=
  if u < 32 then
    (s.onArray u (fun a => match a.claim with
      | some c => if c.seed = sd then a.walkOver else a
      | none => a)).onCore (u / 4) (fun c => { c with
        paused := c.paused.map (fun p => if p.array == u && p.claim.seed == sd then { p with dropped := true } else p) })
  else if u < 48 then s.onHalf (u - 32) (fun h => match h.claim with
      | some c => if c.seed = sd then { h with claim := none } else h
      | none => h)
  else s

/-- Rows that a drain no longer holds and that another context's claim has taken over are zeroed, every element FINITE zero: the slot
was last bound by that context (R178, R300). `kept`: the drains that may hold rows yet. -/
def State.wipe (s : State) (u : Nat) (d : Drain) (kept : List Drain) : State :=
  match d.src with
  | .slot n =>
    let k := coreOfUnit u
    if vget (s.core k).lastCtx n = some (ctxOf d.seed.key.1) then s
    else s.onTun (fun _ => s.tun.filter (fun x => !(x.core == k && x.slot == n && d.holds n x.row && !kept.any (·.holds n x.row))))
  | _ => s

/-- A copy is stopped or abandoned on a unit: its walk and unfinished drains end, staged outputs are discarded (R175), COPIES
falls on what it had in flight, its slots are released and its steps are charged (R230, R236, R299, R300). Drains that
`stays` holds of go on to their done action (R236, R308). -/
def State.abandon (s : State) (u : Nat) (sd : Seed) (stays : Drain → Bool) : State :=
  let saved := ((s.drainsOf u).filter (fun d => d.seed == sd && stays d)).map (·.tile)
  let gone := (s.openOn u sd).filter (fun t => !saved.contains t)
  let steps := match s.walkOf u with | some (x, n) => if x = sd then n else 0 | none => 0
  let s := s.onComp sd.key (fun c => gone.foldl (fun c t => c.onEntry sd.ord t Entry.lessOne) c)
  let s := s.dropWalk u sd
  let (kept, lost) := (s.drainsOf u).partition (fun d => !(d.seed == sd) || stays d)
  let s := lost.foldl (fun s d => s.wipe u d kept) s
  let s := s.onDrains u (fun _ => kept)
  let s := if saved.isEmpty then s.specEnds sd else s
  (s.charge u sd.key steps).release u sd

/-- The seeds a unit works on: its walk, its drains, its paused claims. -/
def State.seedsOn (s : State) (u : Nat) : List Seed :=
  ((match s.walkOf u with | some (x, _) => [x] | none => []) ++ (s.drainsOf u).map (·.seed)
    ++ (if u < 32 then ((s.core (u / 4)).paused.filter (fun p => p.array == u && !p.dropped)).map (·.claim.seed) else [])).eraseDups

/-- Every unit that runs a copy of a stage tile, with that copy's seed. -/
def State.copiesOf (s : State) (key : Key) (ord : Nat) : List (Nat × Seed) :=
  allUnits.flatMap (fun u => ((s.seedsOn u).filter (fun sd => sd.key == key && sd.ord == ord)).map (fun sd => (u, sd)))

/-- The command keeps running: in flight, not cut, its context neither disabling nor preempting (R309, R406). -/
def State.lives (s : State) (key : Key) : Bool :=
  match s.cmd? key with
  | none => false
  | some c => !c.cut && (s.ctx (ctxOf key.1)).mode == .active

/-- A fault masked in a command: the count and the first log index of its reply (R286, R393). -/
def State.maskFault (s : State) (key : Key) (log : Nat) : State :=
  s.onCmd key (fun c => { c with masked := c.masked + 1, firstLog := some (c.firstLog.getD log) })

/-- Claims waiting in mailboxes, or for one, dropped (R236, R308). -/
def State.dropQueued (s : State) (p : Seed → Bool) : State :=
  let s := s.onCp (fun cp => { cp with unplaced := cp.unplaced.filter (fun sd => !p sd) })
  allUnits.foldl (fun s u => match s.mailOf u with
    | some sd => if p sd then (s.setMail u none).specEnds sd else s
    | none => s) s

/-- Copies of a claim stopped everywhere, but for the done actions of drains that have issued every write (R236); queued
copies of it are dropped too. -/
def State.stopCopies (s : State) (key : Key) (ord : Nat) : State :=
  let s := (s.copiesOf key ord).foldl (fun s x => s.abandon x.1 x.2 (·.complete)) s
  s.dropQueued (fun sd => sd.key == key && sd.ord == ord)

/-! Staged outputs (R174, R196, R370). -/

/-- The larger of two stored chain floats in the order of R194. -/
def State.cfMaxAt (s : State) (a : Nat) (c : CF) : State :=
  s.store a (natLe (cfCode (cfMax (cfDecode (s.readNat a 8)) c)) 8)

/-- One staged output applied or released at the done action (R174, R196, R266, R370). -/
def State.applyStaged (s : State) (cmd : Cmd) : Staged → State
  | .add a w => s.lwAddAt a w
  | .max a c => s.cfMaxAt a c
  | .cnt a n => s.store a (natLe ((s.readNat a 4 + n) % 2 ^ 32) 4)
  | .validBit a => s.store a (natLe (s.readNat a 1 ||| 1) 1)
  | .frame row col payload =>
    let out := cOutFmt cmd.pkt
    let elems := if out = 9 then payload.length / 16 else (payload.length * 32) / 65
    match cmd.comp? with
    | none => s
    | some c =>
      let d := c.desc
      s.sendFrame { typ := if out = 9 then 0 else 1, ctx := ctxOf cmd.q, ticket := c.ticket,
                    layer := bitsOf (cTagMain cmd.pkt) 15 0, step := cmd.step, anchor := ofSigned c.anchor 16,
                    dst := bitsOf (cTagMain cmd.pkt) 19 16, tileM := row, tileN := col,
                    rowLen := if dFoldInto d then dExt d 5 3 * dExt d 5 1 else dExt d 5 1,
                    elems := elems, localScale := out != 9 } payload (some cmd.key)

/-- Every staged output of a tile applied (R174). -/
def State.applyAll (s : State) (cmd : Cmd) (l : List Staged) : State := l.foldl (fun s x => s.applyStaged cmd x) s

/-- A command's outputs that add rather than overwrite (R174). -/
def additive (cmd : Cmd) : Bool :=
  let op := pOp cmd.pkt
  op == 0x13 || ((isMat op || op == 0x14 || op == 0x15) && cDest cmd.pkt != 0) || (isMat op && ssEn (statWord cmd.pkt))
    || (op == 0x15 && finDenom cmd.pkt)

/-! Ending a compute command. -/

/-- Data frames that a command with DEST FRAME released: one per row of each DONE tile (R370, R372). Phase 1 of a FINISH releases
none, nor does a FINISH without a main output (R202). -/
def Comp.framesReleased (c : Comp) (p : Nat) : Nat :=
  if c.phase = 1 || !hasMain (pOp p) p then 0 else
  (c.entries.filter (·.credited)).foldl (fun n e => n + (min (e.tile.m0 + 256) (c.mAt e.tile.f) - e.tile.m0)) 0

/-- Frozen output tiles (R221, R372). -/
def Comp.frozenCount (c : Comp) : Nat :=
  let b := wholeBox c.desc
  ((c.foldsIn { b with k1 := 1 }).map (fun f =>
    ((cuts 0 (c.mAt f) 256).flatMap (fun m => (cuts 0 (c.nAt f) 256).filter (fun n => c.isFrozen ⟨f, m.1, n.1⟩))).length)).foldl
      (· + ·) 0

/-- FINISH with DENOM: phase 1 is complete (R202). -/
def Comp.phase1Done (c : Comp) : Bool := c.phase == 1 && c.entries.all (·.isDone) && c.noCopies

/-- Phase 2 of FINISH: every tile to be claimed again, for the outputs (R202). -/
def Comp.startPhase2 (c : Comp) : Comp :=
  { c with
    phase := 2
    next := 0
    limit := 0
    exhausted := false
    runs := c.runs.map (fun r => { r with
      written := false
      freed := false
      hadSpec := false
      entries := r.entries.map (fun e => { Entry.fresh e.tile with counts := e.counts, base := e.counts, everDisputed := e.everDisputed }) }) }

/-- DENOM_VALID set in every record once phase 1 is complete (R199, R202). -/
def State.setDenomValid (s : State) (c : Comp) (p : Nat) : State :=
  ((rangeFrom 0 c.fEff).flatMap (fun f => (rangeFrom 0 (c.mAt f)).map (foldedRow c.desc f))).foldl (fun s m =>
    let a := a48 (finStatBase p + m * finStatStride p + 44)
    s.store a (natLe (s.readNat a 1 ||| 1) 1)) s

/-- Entries a context holds in the ledger (R231). -/
def State.ctxEntries (s : State) (n : Nat) : Nat :=
  (s.cmdsOf n).foldl (fun a c => a + (match c.comp? with | some x => x.heldEntries | none => 0)) 0
/-- Entries held by every context (R229). -/
def State.allEntries (s : State) : Nat :=
  s.cp.cmds.foldl (fun a c => a + (match c.comp? with | some x => x.heldEntries | none => 0)) 0

/-- A run of `len` entries may be written for context `n`: within the quota, or alone beyond it, and always within the 65,536
entries of the ledger (R229, R231). -/
def runFits (s : State) (n len : Nat) : Bool :=
  let held := s.ctxEntries n
  let quota := 64 * (s.ctx n).quota
  (decide (held + len ≤ quota) || (held == 0 && decide (quota < len))) && decide (s.allEntries + len ≤ 65536)

/-- The run at LIMIT written, and LIMIT raised past it (R229, R231). -/
def Comp.writeRun (c : Comp) : Comp :=
  { c.onRun c.limit (fun r => { r with written := true }) with limit := c.limit + 1 }

/-- The run at LIMIT fits now. -/
def State.nextRunFits (s : State) (key : Key) : Bool :=
  match s.comp? key with
  | none => false
  | some c => match c.runs[c.limit]? with
    | none => false
    | some r => runFits s (ctxOf key.1) r.entries.length

/-- Runs written in ordinal order while they fit (R222, R231). -/
def State.writeRuns : Nat → Key → State → State
  | 0, _, s => s
  | n + 1, key, s => if s.nextRunFits key then State.writeRuns n key (s.onComp key Comp.writeRun) else s

/-- Every run of the command that fits, written. -/
def State.writeAllRuns (s : State) (key : Key) : State :=
  match s.comp? key with
  | none => s
  | some c => s.writeRuns c.runs.length key

/-- A record that every unit may draw from: none has drawn C or more from it (R228). -/
def State.allowDraws (s : State) (key : Key) : State :=
  allUnits.foldl (fun s u => s.onNoDraw u (fun l => l.filter (· != key))) s

/-- Phase 2 of FINISH begins: outputs of every tile, claimed again from ordinal 0 (R202). -/
def State.beginPhase2 (s : State) (key : Key) : State :=
  ((s.onComp key Comp.startPhase2).allowDraws key).writeAllRuns key

/-- Only the reply is left: the END frame of a command that sent frames goes out (R372). -/
def State.finishCmd (s : State) (key : Key) (cmd : Cmd) (c : Comp) : State :=
  let s := s.onCmd key (fun x => { x with ended := true })
  if destFrame (pOp cmd.pkt) cmd.pkt then
    s.txEnd cmd (bitsOf (cTagMain cmd.pkt) 19 16) (c.framesReleased cmd.pkt) c.frozenCount else s

/-- One step of settling: phase 2 of FINISH begins, or the command has ended (R202, R237, R372). -/
def State.settleOnce (s : State) (key : Key) : State :=
  match s.cmd? key with
  | none => s
  | some cmd => match cmd.comp? with
    | none => s
    | some c =>
      if cmd.ended then s
      else if cmd.cut then (if c.noCopies then s.finishCmd key cmd c else s)
      else if !c.published then s
      else if c.phase1Done then
        if !finOutEn cmd.pkt then (s.setDenomValid c cmd.pkt).finishCmd key cmd c
        else if (s.ctx (ctxOf key.1)).mode = .active then (s.setDenomValid c cmd.pkt).beginPhase2 key
        else s
      else if c.phase != 1 && c.settled && c.noCopies then s.finishCmd key cmd c
      else s

/-- A command whose work is settled goes on to phase 2 or ends; a command without tiles does both at once (R202, R220). -/
def State.settle (s : State) (key : Key) : State := (s.settleOnce key).settleOnce key

/-- What follows a copy that ended: quiet runs freed, the progress area brought up to date, the command settled, and held lines let go
(R217, R232, R237, R291). -/
def State.tidy (s : State) (key : Key) : State := (((s.onComp key Comp.freeRuns).syncArea key).settle key).letGo

/-- A drain that stage 3 of a disable completes: one of a finished tile, read from a slot or from accumulators, that writes
its outputs (R308); one that has issued every write. -/
def Drain.finishes (d : Drain) : Bool :=
  d.complete || ((match d.src with | .slot _ | .zero | .thin _ => true | _ => false) && (d.sweep == .plain || d.sweep == .final))

/-- Work of a command taken from every unit: drains of finished tiles go on, every other copy is abandoned, arbiters among them;
queued claims and held ordinals are dropped (R308, R310, R406). -/
def State.clearWork (s : State) (key : Key) : State :=
  let s := allUnits.foldl (fun s u =>
    ((s.seedsOn u).filter (fun sd => sd.key == key)).foldl (fun s sd =>
      s.abandon u sd (fun d => d.finishes && !d.seed.origin.isArb)) s) s
  let s := s.dropQueued (fun sd => sd.key == key)
  allUnits.foldl (fun s u => match s.holdOf u with
    | some h => if h.1 = key then s.setHold u none else s
    | none => s) s

/-- A command ends by a fault: its status, its work counter stopped, every copy abandoned (R406). -/
def State.cutCmd (s : State) (key : Key) (cond : Cond) : State :=
  let s := s.onCmd key (fun c => { c.onComp (fun x => { x with stop := true }) with conds := c.conds ++ [cond], cut := true })
  ((s.meetLine cond).clearWork key).tidy key

/-- A claim placed for reissue, unless its run is all DONE or its command does not go on (R238, R309). -/
def State.reissue (s : State) (sd : Seed) : State :=
  match s.comp? sd.key with
  | none => s
  | some c =>
    let done := match c.run? sd.ord with | some r => r.allDone | none => true
    if done || !s.lives sd.key then s
    else
      let o := if sd.origin.isArb then sd.origin else Origin.recovery
      s.onCp (fun cp => { cp with unplaced := cp.unplaced ++ [{ sd with origin := o }] })

/-- Everything a unit holds is abandoned and placed for reissue: claims, drains, paused claims, its mailbox and its held
ordinal (R238, R389). `log`: the index of the record that reports the fault. -/
def State.evict (s : State) (u log : Nat) : State :=
  let s := (s.seedsOn u).foldl (fun s sd => (((s.abandon u sd (fun _ => false)).maskFault sd.key log).reissue sd).tidy sd.key) s
  let s := match s.mailOf u with | some sd => ((s.setMail u none).specEnds sd).reissue sd | none => s
  match s.holdOf u with
  | some (k, o) => (s.setHold u none).reissue ⟨k, o, .recovery⟩
  | none => s

/-- The kind of unit that runs a command's tiles now: a thin command falls to the arrays when no thin path serves (R249, R250,
R254; log 13). -/
def Comp.runsOn (s : State) (c : Comp) (u : Nat) : Bool :=
  match c.kind with
  | .array => decide (u < 32)
  | .thin => if s.cores.toList.any (·.thinIn) then decide (32 ≤ u) && decide (u < 48) else decide (u < 32)
  | .fusion => decide (48 ≤ u)

/-- A unit of the kind could run an arbiter for an entry (R240): one of a core without a copy or a vote, else one without a vote. -/
def State.arbiterFits (s : State) (key : Key) (ord : Nat) (e : Entry) (u : Nat) : Bool :=
  let copies := s.copiesOf key ord
  let coreFree := fun c => !(copies.any (fun x => coreOfUnit x.1 == c)) && !(e.votes.any (fun v => coreOfUnit v.unit == c))
  if allUnits.any (fun w => sameKind u w && s.serves w && coreFree (coreOfUnit w)) then coreFree (coreOfUnit u)
  else !(e.votes.any (fun v => v.unit == u))

/-- The entries of the run of a seed. -/
def State.entriesOf (s : State) (sd : Seed) : List Entry := ((s.comp? sd.key).bind (fun c => c.run? sd.ord)).elim [] (·.entries)

/-- An entry of a command. -/
def Comp.entry? (c : Comp) (ord i : Nat) : Option Entry := (c.run? ord).bind (fun r => r.entries[i]?)

/-- Some unit in service qualifies for an arbiter of a disputed entry (R240). -/
def State.arbiterPossible (s : State) (key : Key) (ord i : Nat) : Bool :=
  match s.comp? key with
  | none => true
  | some c => match c.entry? ord i with
    | none => true
    | some e => e.state != .disputed || e.unresolved || allUnits.any (fun u => c.runsOn s u && s.serves u && s.arbiterFits key ord e u)

/-- Arbitration of an entry ends without agreement: it stays DISPUTED, and the command ends INTERNAL (R242). -/
def State.endArbitration (s : State) (key : Key) (ord i log : Nat) : State :=
  s.onCmd key (fun x => { x.onComp (fun c => c.onEntry ord i (fun e => { e with unresolved := true })) with
    conds := x.conds ++ [⟨.internal, log⟩] })

/-- Waiting arbiters that no unit in service qualifies for any more end their arbitration (R240). -/
def State.endArbiters (s : State) (log : Nat) : State :=
  s.cp.unplaced.foldl (fun s sd => match sd.origin with
    | .arbitration i =>
      if s.arbiterPossible sd.key sd.ord i then s
      else ((s.onCp (fun cp => { cp with unplaced := cp.unplaced.erase sd })).endArbitration sd.key sd.ord i log).tidy sd.key
    | _ => s) s

/-- An array out of service until the next start, its work placed for reissue (R123, R389). -/
def State.retireArray (s : State) (a log : Nat) : State :=
  (((s.evict a log).onArray a (fun x => { x with inService := false, retired := true })).endArbiters log).report

/-- A core's thin path out until the next start (R254). -/
def State.retireThin (s : State) (c log : Nat) : State :=
  ((((s.evict (32 + 2 * c) log).evict (33 + 2 * c) log).onCore c (fun x => { x with thinIn := false })).endArbiters log).report

/-- A core out until the next start: its 4 arrays, thin path and fusion unit (R388, R389). -/
def State.retireCore (s : State) (c log : Nat) : State :=
  let s := (rangeFrom (4 * c) 4).foldl (fun s a =>
    (s.evict a log).onArray a (fun x => { x with inService := false, retired := true, diag := false })) s
  let s := ((s.evict (32 + 2 * c) log).evict (33 + 2 * c) log).evict (48 + c) log
  ((s.onCore c (fun x => { x with inService := false, retired := true, thinIn := false })).endArbiters log).report

/-- A drain that cannot read or write a row is abandoned; what else stays is what a cut lets finish (R308, R406). -/
def State.loseDrain (s : State) (u : Nat) (d : Drain) : State :=
  s.abandon u d.seed (fun x => x.finishes && !x.seed.origin.isArb && x != d)

/-! Arbitration (R240-R242). -/

/-- A LEDGER_VOTE record (R404); a vote of a thin half names the core's thin path, one of a fusion unit the core (log 88). -/
def voteRec (ctx ticket u tileNo sum action : Nat) : Rec :=
  { event := 0x0D, action := action, kind := if u < 32 then 1 else if u < 48 then 3 else 2
    unit := if u < 32 then u else coreOfUnit u
    ctx := some ctx, ticket := some ticket, d0 := sum, d1 := tileNo }

/-- The tile's number in ledger order (R290). -/
def Comp.tileNo (c : Comp) (ord i : Nat) : Nat :=
  ((c.runs.take ord).foldl (fun n r => n + r.entries.length) 0) + i

/-- The arrays whose votes differ from the standing checksum retired, one LEDGER_VOTE record each with ACTION 1 (R242); for a thin half
the core's thin path, for a fusion unit the core (log 88). -/
def State.retireVoters (s : State) (cmd : Cmd) (c : Comp) (ord i : Nat) (votes : List Vote) (sum : Nat) : State :=
  (votes.filter (fun v => v.sum != sum)).foldl (fun s v =>
    let log := s.nextLog
    let s := s.logRec (voteRec (ctxOf cmd.q) c.ticket v.unit (c.tileNo ord i) v.sum 1)
    if v.unit < 32 then s.retireArray v.unit log
    else if v.unit < 48 then s.retireThin (coreOfUnit v.unit) log else s.retireCore (v.unit - 48) log) s

/-- An arbiter for the stage tile (R240, R241), or the end of arbitration when no unit can run one (R242). A command that does
not go on gets none (R310). -/
def State.placeArbiter (s : State) (sd : Seed) (i log : Nat) : State :=
  if !s.lives sd.key then s
  else if s.arbiterPossible sd.key sd.ord i then
    s.onCp (fun cp => { cp with unplaced := cp.unplaced ++ [⟨sd.key, sd.ord, .arbitration i⟩] })
  else s.endArbitration sd.key sd.ord i log

/-- The done action on an entry (R235, R241, R242): the unit, the seed, the tile, its checksum, counts and staged outputs. A vote of a
command that does not go on ends no arbitration (R310). -/
def State.doneEntry (s : State) (u : Nat) (d : Drain) : State :=
  let sd := d.seed
  match s.cmd? sd.key with
  | none => s
  | some cmd => match cmd.comp? with
    | none => s
    | some c => match c.entry? sd.ord d.tile with
      | none => s
      | some e =>
        let on := fun (s : State) (f : Entry → Entry) => s.onComp sd.key (fun c => c.onEntry sd.ord d.tile f)
        let sum := d.sum.toNat
        match e.state with
        | .unclaimed => s
        | .claimed =>
          (on s (fun e => { e with state := .done, checksum := sum, unit := u, copies := e.copies - 1,
                                   counts := e.counts.add d.counts })).applyAll cmd d.staged
        | .done =>
          if e.checksum = sum then
            on s (fun e => { e with copies := e.copies - 1, counts := { e.counts with dup := e.counts.dup + 1 } })
          else
            let s := on s (fun e => { e with
              state := .disputed, everDisputed := true, copies := e.copies - 1,
              votes := [⟨e.checksum, e.unit, e.counts⟩, ⟨sum, u, d.counts⟩] })
            let log := s.nextLog
            let no := c.tileNo sd.ord d.tile
            let s := s.logRec (voteRec (ctxOf cmd.q) c.ticket e.unit no e.checksum 9)
            let s := s.logRec (voteRec (ctxOf cmd.q) c.ticket u no sum 9)
            (s.maskFault sd.key log).placeArbiter sd d.tile log
        | .disputed =>
          let log := s.nextLog
          let s := s.logRec (voteRec (ctxOf cmd.q) c.ticket u (c.tileNo sd.ord d.tile) sum 9)
          let votes := e.votes ++ [⟨sum, u, d.counts⟩]
          if e.unresolved || !s.lives sd.key then on s (fun e => { e with copies := e.copies - 1 })
          else match e.votes.findIdx? (fun v => v.sum == sum) with
          | some 0 =>
            let s := on s (fun e => { e with state := .done, copies := e.copies - 1, votes := [],
                                             counts := { e.counts with dup := e.counts.dup + 1 } })
            s.retireVoters cmd c sd.ord d.tile votes sum
          | some _ =>
            let s := on s (fun e => { e with state := .done, checksum := sum, unit := u, copies := e.copies - 1, votes := [],
                                             counts := { e.base.add d.counts with dup := e.counts.dup + 1 } })
            let s := if additive cmd then s.onCmd sd.key (fun x => { x with conds := x.conds ++ [⟨.internal, log⟩] }) else s
            s.retireVoters cmd c sd.ord d.tile votes sum
          | none =>
            let s := on s (fun e => { e with copies := e.copies - 1, votes := votes })
            if votes.length ≥ 4 then
              s.endArbitration sd.key sd.ord d.tile log
            else s.placeArbiter sd d.tile log

/-- After a done action: the other copies of a run all DONE are stopped, quiet runs freed, the progress area brought up to
date, and the command settled (R232, R236, R237, R291). -/
def State.afterDone (s : State) (sd : Seed) : State :=
  let s := match (s.comp? sd.key).bind (fun c => c.run? sd.ord) with
    | some r => if r.allDone then s.stopCopies sd.key sd.ord else s
    | none => s
  s.tidy sd.key

end Sys2Proof.Machine
end

