-- ==== Sys2Proof/Machine/Walk.lean ====
section
/-! DEFINITION. Claims: the walk of a stage tile (R106, R116, R163, R217, R220-R223), slots and their bindings (R300), the
start of a claim on each kind of unit (R233, R251, R253), and the choice of a context at a draw (R228, R298, R299). -/
namespace Sys2Proof.Machine

/-! The walk of R223. -/

/-- Pass tiles of a stage tile in ORDER of level 2 (R209, R210). -/
def passTiles (d : Nat) (b : Box) : List Box := loopNest (dExt d 1) (orderDims (dOrder d 2)) b

/-- Rows (f, m) of a pass tile in ORDER of level 1 (R209, R215). -/
def stepRows (d : Nat) (b : Box) : List (Nat × Nat) :=
  (loopNest (dExt d 0) (orderDims (dOrder d 1)) b).map (fun x => (x.f0, x.m0))

/-- Row `m` of a GATHER_MATMUL is a null row: it takes no vectors (R260). -/
def Comp.nullRow (c : Comp) (op m : Nat) : Bool := op == 0x12 && c.index.getD m 0 == 0xFFFFFFFF

/-- The output tile that holds element (f, m) of columns from `n0`. -/
def tileOf (f m n0 : Nat) : Tile := ⟨f, m / 256 * 256, n0 / 256 * 256⟩

/-- Index of a tile in its run. -/
def tileIndex (es : List Entry) (t : Tile) : Option Nat := es.findIdx? (fun e => e.tile == t)

/-- A fold has work in a pass tile (R220). -/
def Comp.passFold (c : Comp) (p : Box) (f : Nat) : Bool := !c.foldOut p f && decide (p.k0 < c.kAt f)

/-- The rows of a pass tile below its folds' bounds, with their tile's index in the run (R144, R220, R221, R223). -/
def Comp.passRows (c : Comp) (es : List Entry) (p : Box) : List (Nat × Nat × Nat) :=
  (stepRows c.desc p).filterMap (fun r =>
    if c.passFold p r.1 && decide (r.2 < c.mAt r.1) then (tileIndex es (tileOf r.1 r.2 p.n0)).map (fun t => (r.1, r.2, t))
    else none)

/-- K-indices of a pass that fold `f` uses (R118, R140). -/
def Comp.passLen (c : Comp) (p : Box) (f : Nat) : Nat := min p.k1 (c.kAt f) - p.k0

/-- Rows in stretches of one length: with a wide pair each stretch has a load of its own, since a block exponent takes in the
elements below the K_eff of the row's own fold (R71, R97, R220; log 64). -/
def stretches (len : Nat → Nat) : List (Nat × Nat × Nat) → List (List (Nat × Nat × Nat))
  | [] => []
  | r :: rs => match stretches len rs with
    | (x :: xs) :: ys => if len r.1 = len x.1 then (r :: x :: xs) :: ys else [r] :: (x :: xs) :: ys
    | ys => [r] :: ys

/-- The stretches of rows that share one load. -/
def Comp.loadGroups (c : Comp) (wide : Bool) (p : Box) (rows : List (Nat × Nat × Nat)) : List (List (Nat × Nat × Nat)) :=
  if wide then stretches (c.passLen p) rows else if rows.isEmpty then [] else [rows]

/-- The load of a stretch of rows for one weight piece: one step per row (R116, R118). `no`: the stored load. With a wide pair the rows are
of one K_eff (`Comp.loadGroups`; log 64). -/
def Comp.loadOps (c : Comp) (p : Box) (no : Nat × Nat) (rows : List (Nat × Nat × Nat)) (wj : Nat) : List WalkOp :=
  let klen := (rows.map (fun r => c.passLen p r.1)).foldl max 0
  let n := min klen 256
  (rangeFrom 0 n).map (fun r => .load ⟨no, p.f0, p.k0, klen, p.n0, p.n1, wj, r, n⟩)

/-- The vectors of a stretch of rows for one pair of pieces; null rows take none (R260). WRITE stands on a row's first update:
the first pass of the first K-pass, in the first column piece of the tile (R66, R159; log 65). -/
def Comp.vecOps (c : Comp) (op buf : Nat) (b p : Box) (rows : List (Nat × Nat × Nat)) (ai wj : Nat) : List WalkOp :=
  (rows.filter (fun r => !c.nullRow op r.2.1)).map (fun r => .vec
    { buf := buf, f := r.1, m := r.2.1, k0 := p.k0, klen := c.passLen p r.1, n0 := p.n0, n1 := p.n1, ai := ai, wj := wj, slot := 0
      tile := r.2.2, write := decide (p.k0 = b.k0) && p.n0 % 256 == 0 && ai == 0 && wj == 0, firstPass := ai == 0 && wj == 0
      last := false, kb := 0 })

/-- Two pass tiles read the same activation rows: same rows, folds and K range (R217, RES_A of level 2). -/
def sameActs (x y : Box) : Bool :=
  x.f0 == y.f0 && x.f1 == y.f1 && x.m0 == y.m0 && x.m1 == y.m1 && x.k0 == y.k0 && x.k1 == y.k1

/-- The activation buffer of each pass tile, numbered from `i`: kept for the next tile with the same rows under RES_A (R217). -/
def actBufs (keep : Bool) : Nat → List Box → List (Nat × Box)
  | _, [] => []
  | i, p :: r => (i, p) :: actBufs keep (match r.head? with | some q => if keep && sameActs p q then i else i + 1 | none => i) r

/-- Two loads bring the same rows, columns, fold and piece (R217). -/
def sameBlock (x y : LoadOp) : Bool :=
  x.f == y.f && x.k0 == y.k0 && x.klen == y.klen && x.n0 == y.n0 && x.n1 == y.n1 && x.wj == y.wj

/-- Loads that bring what WREG already holds left out (R217, RES_W of level 2). -/
def dropLoads (same : LoadOp → LoadOp → Bool) : Option LoadOp → List WalkOp → List WalkOp
  | _, [] => []
  | held, .load o :: r =>
    let skip := match held with | some h => same h o | none => false
    if skip then dropLoads same held r
    else .load o :: dropLoads same (if o.row + 1 = o.rows then some o else if o.row = 0 then none else held) r
  | held, x :: r => x :: dropLoads same held r

/-- From the right: the last vector of each tile, and the leading K-blocks complete once a vector's update is (R168, R292).
`pend`: the least K origin of a tile still to the right. -/
def markOps (b : Box) (kEnd : Nat → Nat) : List WalkOp → List WalkOp × List (Nat × Nat)
  | [] => ([], [])
  | .vec v :: r =>
    let (ops, pend) := markOps b kEnd r
    let kb := match aget pend v.tile with
      | none => ceilDiv (kEnd v.f - b.k0) 32
      | some k => (k - b.k0) / 32
    let k := match aget pend v.tile with | none => v.k0 | some k => min k v.k0
    (.vec { v with last := (aget pend v.tile).isNone, kb := kb } :: ops, aput pend v.tile k)
  | x :: r => let (ops, pend) := markOps b kEnd r; (x :: ops, pend)

/-- Tiles of the walk in the order of their first updates (R163). -/
def tileOrder (ops : List WalkOp) : List Nat :=
  (ops.filterMap (fun o => match o with | .vec v => some v.tile | _ => none)).eraseDups

/-- The first slot of array j's range (R163). -/
def slotBase (s : State) (n : Nat) (d j : Nat) : Nat := (s.ctx n).wBase + dSlotBase d 2 + j * dSlotQuota d 2

/-- The slot range of an array for a command (R163). -/
def slotRange (s : State) (n d j : Nat) : List Nat := rangeFrom (slotBase s n d j) (dSlotQuota d 2)

/-- The slot of a tile by its ordinal (R163). -/
def slotOf (s : State) (n d j : Nat) (order : List Nat) (t : Nat) : Nat :=
  slotBase s n d j + (order.idxOf t) % (max 1 (dSlotQuota d 2))

/-- The steps of a pass tile: for each weight piece the loads and the vectors of its activation pieces (R106, R223). -/
def Comp.passOps (c : Comp) (p buf no : Nat) (b pt : Box) (rows : List (Nat × Nat × Nat)) : List WalkOp :=
  let a := fmtD (cFmtA p)
  let w := fmtD (cFmtW p)
  let full := cFullPasses p
  let groups := (c.loadGroups (pairWide a w) pt rows).zipIdx
  (weightPieces a w full).flatMap (fun wj => groups.flatMap (fun g =>
    c.loadOps pt (no, g.2) g.1 wj ++ (actPieces a w full wj).flatMap (fun ai => c.vecOps (pOp p) buf b pt g.1 ai wj)))

/-- The walk of a claim on array j of a core (R223), with the tiles that take no update last (R161). -/
def Comp.walk (c : Comp) (s : State) (q p : Nat) (r : Run) (j : Nat) : List WalkOp :=
  let tiles := (passTiles c.desc r.box).filter (fun pt => !(c.passRows r.entries pt).isEmpty)
  let raw := ((actBufs (dResA c.desc 2) 0 tiles).zipIdx).flatMap (fun x =>
    c.passOps p x.1.1 x.2 r.box x.1.2 (c.passRows r.entries x.1.2))
  let raw := if dResW c.desc 2 then dropLoads (fun x y => x.row + 1 == x.rows && sameBlock x y) none raw else raw
  let ops := (markOps r.box (fun f => min r.box.k1 (c.kAt f)) raw).1
  let order := tileOrder ops
  let ops := ops.map (fun o => match o with
    | .vec v => .vec { v with slot := slotOf s (ctxOf q) c.desc j order v.tile }
    | x => x)
  ops ++ ((rangeFrom 0 r.entries.length).filter (fun t => !order.contains t)).map WalkOp.zero

/-! Slots (R300). -/

/-- The walk of the claim that holds a binding is paused on array `u` (R301). -/
def pausedBinding (s : State) (u : Nat) (b : Binding) : Bool :=
  (s.core (coreOfUnit u)).paused.any (fun p => p.array == u && !p.dropped && p.claim.seed.key == b.key && p.claim.seed.ord == b.ord)

/-- A binding of slot `x` that holds a new claim of array `u` back: one by another array's claim, or by a paused claim of this
array; a slot of the array's preceding claim is taken over (R300). -/
def bindingHolds (s : State) (u x : Nat) (b : Binding) : Bool := b.slot == x && (b.unit != u || pausedBinding s u b)

/-- The range of a claim of context `n` is free on array `u`: no binding holds it back, and its context has yielded none of it
(R300). -/
def slotsFree (s : State) (u n : Nat) (d : Nat) : Bool :=
  let c := s.core (coreOfUnit u)
  (slotRange s n d (u % 4)).all (fun x => !c.binds.any (bindingHolds s u x) && !c.yielded.contains (n, x))

/-- A slot row of an array that its drains have still to read: an update of it waits (R168, R169, R198). -/
def drainPending (s : State) (a slot row : Nat) : Bool :=
  (s.array a).drains.any (·.holds slot row)

/-- Rows of slots of a core zeroed, every element FINITE zero, but for those that `keep` holds of (R178, R300). -/
def State.zeroSlots (s : State) (c : Nat) (l : List Nat) (keep : Nat → Nat → Bool) : State :=
  s.onTun (fun _ => s.tun.filter (fun x => !(x.core == c && l.contains x.slot && !keep x.slot x.row)))

/-- The slots of a claim bound, those last bound by another context zeroed first but for rows that a drain has still to read
(R169, R300). -/
def State.bind (s : State) (u : Nat) (sd : Seed) (l : List Nat) : State :=
  let k := coreOfUnit u
  let n := ctxOf sd.key.1
  let stale := l.filter (fun x => vget (s.core k).lastCtx x != some n)
  let s := s.zeroSlots k stale (drainPending s u)
  s.onCore k (fun c => { c with
    binds := c.binds.filter (fun b => !(l.contains b.slot && b.unit == u)) ++ l.map (fun x => ⟨x, u, sd.key, sd.ord⟩)
    lastCtx := l.foldl (fun v x => vmod v x (fun _ => some n)) c.lastCtx })

/-! The start of a claim. -/

/-- A drain that begins. -/
def Drain.start (sd : Seed) (tile : Nat) (src : DSrc) (sweep : Sweep) (rows : Nat) (counts : Counts) : Drain where
  seed := sd
  tile := tile
  src := src
  sweep := sweep
  row := 0
  rows := rows
  sum := 0
  counts := counts
  staged := []
  complete := false
  fed := []
  stats := []

/-- Rows of an output tile that are written (R168, R171). -/
def Comp.tileRows (c : Comp) (t : Tile) : Nat := min (t.m0 + 256) (c.mAt t.f) - t.m0

/-- The first sweep of a tile's drain: sweep 1 of a RESIDENT band, phase 1 of FINISH, or an ordinary drain (R198, R202). -/
def firstSweep (p : Nat) (c : Comp) : Sweep :=
  if isMat (pOp p) && statMode p == 2 then .stat else if c.phase == 1 then .denom else .plain

/-- A drain's rows at the start: none when nothing is to be read; the tile is then complete at once. -/
def State.addDrain (s : State) (u : Nat) (d : Drain) : State := s.onDrains u (· ++ [d])

/-- Steps of a thin claim in its order: K-block, pass, row (R253), null rows left out (R260). -/
def Comp.thinRows (c : Comp) (op : Nat) (t : Tile) : List Nat :=
  (rangeFrom 0 (c.mAt t.f)).filter (fun m => !c.nullRow op m)

/-- A thin claim without lane steps is drained at once (R161, R253). -/
def Comp.thinEmpty (c : Comp) (op : Nat) (t : Tile) : Bool := c.kAt t.f == 0 || (c.thinRows op t).isEmpty

/-- Stage areas and delivered vectors of an array empty, for a claim that begins (R134). -/
def ArraySt.fresh (a : ArraySt) (c : Claim) : ArraySt := { a with claim := some c, vecs := [], stage := StageSt.empty }

/-- The stage tile is claimed by unit `u`: every entry of its run moves by R230 (R233), and the walk or the drain begins. -/
def State.startClaim (s : State) (u : Nat) (sd : Seed) : State :=
  match s.cmd? sd.key with
  | none => s
  | some cmd => match cmd.comp? with
    | none => s
    | some c => match c.run? sd.ord with
      | none => s
      | some r =>
        let op := pOp cmd.pkt
        let s := s.onComp sd.key (fun c => c.onRun sd.ord (fun r =>
          { r with entries := r.entries.map (fun e => e.begin_ u sd.origin) }))
        let s := s.setMail u none
        let s := if s.holdOf u = some (sd.key, sd.ord) then s.setHold u none else s
        if u < 32 then
          let j := u % 4
          let ops := c.walk s cmd.q cmd.pkt r j
          let order := tileOrder ops
          let range := slotRange s (ctxOf cmd.q) c.desc j
          let s := s.bind u sd range
          let cl : Claim :=
            { seed := sd, todo := ops, begun := [], tileCounts := r.entries.map (fun _ => Counts.zero)
              tileSlots := (rangeFrom 0 r.entries.length).map (slotOf s (ctxOf cmd.q) c.desc j order)
              slots := range, steps := 0, started := false }
          s.onArray u (fun a => a.fresh cl)
        else if u < 48 then
          let t := (r.entries.headD (Entry.fresh ⟨0, 0, 0⟩)).tile
          let cl : TClaim := ⟨sd, 0, 0, ((c.thinRows op t).headD 0), 0, Counts.zero⟩
          let s := s.onHalf (u - 32) (fun h => { h with claim := some cl, store := [], wBlock := none, weights := [], acc := [] })
          if c.thinEmpty op t then
            (s.onHalf (u - 32) (fun h => { h with claim := none })).addDrain u
              (Drain.start sd 0 (.thin (u - 32)) (firstSweep cmd.pkt c) (c.tileRows t) Counts.zero)
          else s
        else
          let t := (r.entries.headD (Entry.fresh ⟨0, 0, 0⟩)).tile
          let src : DSrc := if op = 0x14 then .combine else if op = 0x15 then .finish else .segsum
          s.addDrain u (Drain.start sd 0 src (firstSweep cmd.pkt c) (c.tileRows t) Counts.zero)

/-- A claim begins, and the progress area shows its copies (R230, R233, R291). -/
def State.beginClaim (s : State) (u : Nat) (sd : Seed) : State := (s.startClaim u sd).syncArea sd.key

/-! Draws (R228, R298, R299). -/

/-- A unit without work of its own may begin a claim: no walk; for a fusion unit and a thin half no tile still to be read
(R228, R253; for fusion units log 13). -/
def State.idle (s : State) (u : Nat) : Bool :=
  s.serves u && (s.walkOf u).isNone &&
    (if u < 32 then true else (s.drainsOf u).all (fun d => d.complete))

/-- The arrays are powered (R428). -/
def arraysPowered (s : State) : Bool := s.pwr.state == .active

/-- Units of `u`'s kind work now: arrays only in ACTIVE, the others in ARRAYS_OFF too (R428). -/
def unitPowered (s : State) (u : Nat) : Bool := if u < 32 then arraysPowered s else unitsRun s

/-- A unit that may begin a claim: powered, in service, and without work of its own (R164, R228, R253). -/
def unitFree (s : State) (u : Nat) : Bool := unitPowered s u && s.idle u

/-- A record allows a draw on the unit (R228, R298). -/
def drawable (s : State) (u : Nat) (c : Cmd) : Bool :=
  match c.comp? with
  | none => false
  | some x => x.published && !c.ended && x.runsOn s u && !((s.noDrawOf u).contains c.key)

/-- The command a context's draw takes: the highest-priority queue, then the first dispatched (R298). -/
def topCmd (s : State) (u n : Nat) : Option Cmd :=
  let l := (s.cmdsOf n).filter (drawable s u)
  (rangeFrom 0 4).findSome? (fun j => l.find? (fun c => prioOf c.q == j))

/-- A context is eligible on a unit (R299). -/
def eligible (s : State) (u n : Nat) : Bool :=
  (s.ctx n).mode == .active && (match topCmd s u n with
    | none => false
    | some c => match c.comp? with
      | none => false
      | some x => if u < 32 then slotsFree s u n x.desc else true)

/-- The contexts eligible on a unit. -/
def eligibles (s : State) (u : Nat) : List Nat := (rangeFrom 0 16).filter (eligible s u)

/-- The contexts eligible on some unit of a core, for its virtual times (R299). -/
def coreEligibles (s : State) (c : Nat) : List Nat := (rangeFrom 0 16).filter (fun n => (coreUnits c).any (fun u => eligible s u n))

/-- The least virtual time of a list of contexts. -/
def leastV (v : Vector Nat 16) : List Nat → Option Nat
  | [] => none
  | n :: r => match leastV v r with
    | none => some (vget v n)
    | some x => some (min (vget v n) x)

/-- The context of least virtual time, lowest first (R299). -/
def minV (v : Vector Nat 16) : List Nat → Option Nat
  | [] => none
  | n :: r => match minV v r with
    | none => some n
    | some m => if vget v n ≤ vget v m then some n else some m

/-- Virtual times when eligibility is taken anew: a context that becomes eligible starts at the least of those already eligible
(R299). -/
def CoreSt.refresh (c : CoreSt) (now : List Nat) : CoreSt :=
  let old := now.filter c.elig.contains
  let v := match leastV c.v old with
    | none => c.v
    | some x => (now.filter (fun n => !c.elig.contains n)).foldl (fun v n => vmod v n (max x)) c.v
  { c with v := v, elig := now }

/-- Eligibility on a core taken anew (R299; log 71). -/
def State.elect (s : State) (c : Nat) : State := s.onCore c (·.refresh (coreEligibles s c))

/-- Eligibility taken anew on every core. -/
def State.electAll (s : State) : State := (rangeFrom 0 8).foldl State.elect s

/-- The context a draw goes to (R299). -/
def chooseCtx (s : State) (v : Vector Nat 16) (now : List Nat) : Option Nat :=
  match minV v (now.filter (fun n => (s.ctx n).share != 0)) with
  | some n => some n
  | none => minV v now

/-- The ordinal a unit holds is claimed once LIMIT has passed it, the unit has no claim and no mailbox claim, and its slots are free
(R164, R228, R234, R300). -/
def heldClaim (s : State) (u : Nat) : Option Seed :=
  match s.holdOf u with
  | none => none
  | some (k, o) => match s.comp? k with
    | none => none
    | some c =>
      if !c.stop && unitFree s u && (s.mailOf u).isNone && decide (o < c.limit) && (decide (32 ≤ u) || slotsFree s u (ctxOf k.1) c.desc) then
        some ⟨k, o, .draw⟩
      else none

/-- The held ordinal claimed, if it can be. -/
def State.claimHeld (s : State) (u : Nat) : State := (heldClaim s u).elim s (s.beginClaim u)

/-- One fetch-add on NEXT and its outcome (R228), which the progress area shows (R291). -/
def State.drawFrom (s : State) (u : Nat) (cmd : Cmd) (c : Comp) : State :=
  let o := c.next
  let k := cmd.key
  let s := s.onComp k (fun c => { c with next := (c.next + 1) % 2 ^ 32 })
  State.syncArea (
    if c.stop then s.onNoDraw u (· ++ [k])
    else if o < c.limit then s.startClaim u ⟨k, o, .draw⟩
    else if o < c.stageCount then s.setHold u (some (k, o))
    else (s.onComp k (fun c => { c with exhausted := true })).onNoDraw u (· ++ [k])) k

/-- A draw of a unit: the context, then the record, then the fetch-add (R228, R298, R299). -/
def State.drawOn (s : State) (u : Nat) : State :=
  let s := s.elect (coreOfUnit u)
  match chooseCtx s (s.core (coreOfUnit u)).v (eligibles s u) with
  | none => s
  | some n => match topCmd s u n with
    | none => s
    | some cmd => match cmd.comp? with
      | none => s
      | some c => (s.drawFrom u cmd c).elect (coreOfUnit u)

end Sys2Proof.Machine
end

