-- ==== Sys2Proof/Machine/Feeder.lean ====
section
/-! DEFINITION. The feeder of an array: prefetch reads into stage memory, and vectors delivered from it (R132-R147, R152, R217,
R225, R385, R406). -/
namespace Sys2Proof.Machine

/-- A reader of stage cells: every byte must be at hand. -/
def cellsRd (c : List Host.Cell) : Rd := fun a n =>
  (allSome ((rangeFrom a n).map (cellGet c))).map leNat

/-- The command, its compute part, and the packet of a claim. -/
def State.claimCmd (s : State) (sd : Seed) : Option (Cmd × Comp) :=
  match s.cmd? sd.key with
  | none => none
  | some cmd => cmd.comp?.map (fun c => (cmd, c))

/-! What the walk reads (R214, R259). -/

/-- A run of bytes: address and length. -/
abbrev Span := Nat × Nat

/-- The source row of output row `m` (R259). -/
def Comp.srcRow (c : Comp) (op m : Nat) : Nat := if op = 0x12 then c.index.getD m 0 else m

/-- The K-indices of a weight row of a load: one, or two in dual mode (R111, R118). -/
def LoadOp.ks (o : LoadOp) : List Nat :=
  (if o.row < o.klen then [o.k0 + o.row] else []) ++ (if o.row + 256 < o.klen then [o.k0 + 256 + o.row] else [])

/-- N_eff of a load: of its fold, or the largest when the folds of a pass share one tensor (R141, R224). -/
def Comp.loadN (c : Comp) (o : LoadOp) : Nat := if dExt c.desc 1 3 = 1 then c.nAt o.f else boundMax c.nEff

/-- Columns of a load that are read: below N_eff (R141). -/
def Comp.loadCols (c : Comp) (o : LoadOp) : List Nat := rangeFrom o.n0 (min o.n1 (c.loadN o) - o.n0)

/-- Weight bytes a load row needs: the elements of the row's K-block (a wide pair forms exponents from all of them, R147) and
the scales. -/
def Comp.loadSpans (c : Comp) (p : Nat) (o : LoadOp) : List Span :=
  let w := fmtD (cFmtW p)
  let kEnd := o.k0 + o.klen
  o.ks.flatMap (fun k =>
    let b := k / 32
    let ks := if pairWide (fmtD (cFmtA p)) w then rangeFrom (32 * b) (min 32 (kEnd - 32 * b)) else [k]
    (c.loadCols o).flatMap (fun n =>
      ks.map (fun k => wSpan c.desc w o.f k n) ++ (if w.isMx then [(wScale c.desc o.f b n, 1)] else [])))

/-- K-blocks of a vector. -/
def VecOp.blocks (v : VecOp) : List Nat := rangeFrom (v.k0 / 32) (ceilDiv v.klen 32)

/-- Activation bytes a vector needs: stored elements and scales of its K-blocks (R145). -/
def Comp.vecSpans (c : Comp) (p : Nat) (v : VecOp) : List Span :=
  let inF := fmtD (proInFmt p)
  let src := c.srcRow (pOp p) v.m
  (rangeFrom v.k0 v.klen).map (fun k => aSpan c.desc inF v.f src k)
    ++ (if inF.isMx then v.blocks.map (fun b => (aScale c.desc v.f src b, 1)) else [])

/-- The row whose statistics a vector's prologue uses (R151, R261). -/
def Comp.vecStatRow (c : Comp) (p : Nat) (v : VecOp) : Nat := proRow (pOp p) c.desc v.f v.m (c.srcRow (pOp p) v.m)

/-- The bytes of γ and β over a K-pass (R132, R151). -/
def affineSpans (p k0 klen : Nat) : List Span :=
  if proAffine p then (rangeFrom k0 klen).flatMap (fun k => [(a48 (proGamma p + 4 * k), 4), (a48 (proBeta p + 4 * k), 4)]) else []

/-- Side-area bytes a vector needs: its row's statistics record, γ and β (R132, R151, R152). -/
def Comp.sideSpans (c : Comp) (p : Nat) (v : VecOp) : List Span :=
  (if isNorm (proFn p) then [(proStatAddr p (c.vecStatRow p v), 48)] else []) ++ affineSpans p v.k0 v.klen

/-! Stage memory (R132, R133). -/

/-- Bytes of the side area (R132). -/
def sideArea : Nat := 128 * 1024
/-- Stage memory of one feeder (R132). -/
def stageBytes : Nat := 4 * 1024 * 1024
/-- Rows that the normalisation cache holds (R132, R152). -/
def normRows : Nat := 4096

/-- The stored size of `rows` runs of `n` elements with their scale codes. -/
def storedSize (f : Fmt) (rows n : Nat) : Nat := ceilDiv (rows * n * f.bits) 8 + (if f.isMx then rows * ceilDiv n 32 else 0)

/-- One load: k rows of 256 columns with their scale codes (R132). -/
def loadSize (p d : Nat) : Nat := storedSize (fmtD (cFmtW p)) 256 (dExt d 1 2)

/-- One activation buffer: R rows of the K-pass length with their scale codes (R132). -/
def actSize (p d : Nat) : Nat := storedSize (fmtD (proInFmt p)) (dExt d 1 0 * dExt d 1 3) (dExt d 1 2)

/-- Activation buffers that the feeder keeps: two in DOUBLE mode, one in SINGLE; none in STREAM (R133). -/
def actBuffers (p d : Nat) : Nat :=
  let rest := stageBytes - sideArea - 2 * loadSize p d
  if 2 * actSize p d ≤ rest then 2 else if actSize p d ≤ rest then 1 else 0

/-- The vectors of a walk that are not delivered yet. -/
def vecsLeft (cl : Claim) (delivered : Nat) : List VecOp :=
  (cl.todo.filterMap (fun o => match o with | .vec v => some v | _ => none)).drop delivered

/-- The stored loads that the weight area takes: the current one and the next (R132). -/
def openLoads (cl : Claim) : List (Nat × Nat) :=
  ((cl.todo.filterMap (fun o => match o with | .load o => some o.buf | _ => none)).eraseDups).take 2

/-- The vectors whose rows the activation area takes: those of the open buffers, or the next vector alone in STREAM mode (R132,
R133). -/
def openVecs (p d : Nat) (cl : Claim) (delivered : Nat) : List VecOp :=
  let l := vecsLeft cl delivered
  match actBuffers p d with
  | 0 => l.take 1
  | n => let nos := ((l.map (·.buf)).eraseDups).take n
         l.filter (fun v => nos.contains v.buf)

/-- A byte lies in one of the runs. -/
def inSpans (l : List Span) (x : Nat) : Bool := l.any (fun r => decide (r.1 ≤ x) && decide (x < r.1 + r.2))

/-- The bytes of a load that the rest of a walk needs. -/
def Comp.bufSpans (c : Comp) (p : Nat) (cl : Claim) (no : Nat × Nat) : List Span :=
  cl.todo.flatMap (fun o => match o with | .load o => if o.buf = no then c.loadSpans p o else [] | _ => [])

/-- The bytes of an activation buffer that the rest of a walk needs. -/
def Comp.actSpans (c : Comp) (p : Nat) (l : List VecOp) (no : Nat) : List Span :=
  l.flatMap (fun v => if v.buf = no then c.vecSpans p v else [])

/-- The bytes of an area that an array's walk needs next: of the two loads, of the open activation buffers, or the statistics
records of their rows and γ and β of the K-pass (R132, R133, R152). -/
def Comp.needs (c : Comp) (p : Nat) (st : ArraySt) (cl : Claim) (area : StageArea) : List Span :=
  let vs := openVecs p c.desc cl st.vecs.length
  match area with
  | .weight => (openLoads cl).flatMap (c.bufSpans p cl)
  | .activation => vs.flatMap (c.vecSpans p)
  | .side => vs.flatMap (c.sideSpans p)

/-- The cells of a read that lie in some runs. -/
def cellsIn (need : List Span) (addr : Nat) (bs : List Byte) : List Host.Cell :=
  ((rangeFrom addr bs.length).zip bs).filter (fun x => inSpans need x.1)

/-- Cells put one by one. -/
def putCells (c : List Host.Cell) (l : List Host.Cell) : List Host.Cell := l.foldl (fun c x => aput c x.1 x.2) c

/-- Buffers with a read's bytes: one per number of `nos`, those of other numbers dropped (R132). -/
def fillBufs {κ : Type} [DecidableEq κ] (l : List (StageBuf κ)) (nos : List κ) (need : κ → List Span) (addr : Nat)
    (bs : List Byte) : List (StageBuf κ) :=
  nos.map (fun no =>
    let b := (l.find? (fun x => x.no == no)).getD ⟨no, [], 0⟩
    { b with cells := putCells b.cells (cellsIn (need no) addr bs) })

/-- The block exponents of a K-block of a stored load, one per column, once the stored rows are there (R97, R147). -/
def Comp.loadExps (c : Comp) (p : Nat) (cells : List Host.Cell) (o : LoadOp) (b : Nat) : Option (List Scale) :=
  allSome ((c.loadCols o).map (fun n => (deliverWBlock (cellsRd cells) p c.desc o.f n (o.k0 + o.klen) b).map (·.expOf true)))

/-- The derived exponents of wide weights, written into the side area as the weight area fills (R147). -/
def Comp.formExps (c : Comp) (p : Nat) (cl : Claim) (st : StageSt) : StageSt :=
  if !pairWide (fmtD (cFmtA p)) (fmtD (cFmtW p)) then st
  else
    let l := st.weights.flatMap (fun b =>
      match cl.todo.findSome? (fun o => match o with | .load o => if o.buf = b.no then some o else none | _ => none) with
      | none => []
      | some o => (rangeFrom (o.k0 / 32) (ceilDiv o.klen 32)).filterMap (fun g =>
          (c.loadExps p b.cells o g).map (fun e => (b.no, g, e))))
    { st with exps := st.exps.filter (fun x => (openLoads cl).contains x.1 && !l.any (fun y => y.1 == x.1 && y.2.1 == x.2.1)) ++ l }

/-- The normalisation cache with the records that a read holds whole: the oldest rows leave it beyond 4,096 (R132, R152). -/
def Comp.formNorm (c : Comp) (p : Nat) (vs : List VecOp) (addr : Nat) (bs : List Byte) (l : List (Nat × NormRow)) :
    List (Nat × NormRow) :=
  let rows := if isNorm (proFn p) then ((vs.map (c.vecStatRow p)).eraseDups).filter (fun r =>
      decide (addr ≤ proStatAddr p r) && decide (proStatAddr p r + 48 ≤ addr + bs.length)) else []
  let new := rows.map (fun r => (r, proNormOf p (leNat ((bs.drop (proStatAddr p r - addr)).take 48))))
  let l := l.filter (fun x => !rows.contains x.1) ++ new
  l.drop (l.length - normRows)

/-- Stage memory of an area with a read's bytes filled in (R132, R136, R147, R152). -/
def Comp.fillStage (c : Comp) (p : Nat) (st : ArraySt) (cl : Claim) (area : StageArea) (addr : Nat) (bs : List Byte) : StageSt :=
  let vs := openVecs p c.desc cl st.vecs.length
  let x := st.stage
  match area with
  | .weight => c.formExps p cl { x with weights := fillBufs x.weights (openLoads cl) (c.bufSpans p cl) addr bs }
  | .activation => { x with acts := fillBufs x.acts ((vs.map (·.buf)).eraseDups) (c.actSpans p vs) addr bs }
  | .side =>
    let need := (vs.head?.elim [] (fun v => affineSpans p v.k0 v.klen))
    { x with
      norm := c.formNorm p vs addr bs x.norm
      affine := putCells (x.affine.filter (fun y => inSpans need y.1)) (cellsIn need addr bs) }

/-! Shared-cache upsets (R385). -/

/-- An upset of the line waits for the access that meets it (R384, R385; log 74). -/
def State.addUpset (s : State) (line : Nat) (add : Bool) : State :=
  s.onMem (fun m => { m with upsets := if m.upsets.contains (line, add) then m.upsets else m.upsets ++ [(line, add)] })

/-- The line holds data that the stacks do not have. -/
def MemSt.dirtyLine (m : MemSt) (line : Nat) : Bool :=
  m.resident line && (rangeFrom (line * 128) 128).any (fun y => (cellGet m.dirty y).isSome)

/-- A shared-cache upset in a step with an access of `len` bytes at `a`: an uncorrectable word is replaced or fetched again, with its
record; a dirty line is lost, and the fault is what the access meets, now or later (R385, R404, R406, R407). -/
def State.cacheUpset (s : State) (a len : Nat) : Option CacheUpset → State × Option Cond
  | none => (s, none)
  | some (.duplicated x) => (s.logRec (scRec (lineAddr x) 1 0), none)
  | some (.clean x) => (s.logRec (scRec (lineAddr x) 0 0), none)
  | some (.dirty x) =>
    let hit := decide (a < lineAddr x + 128) && decide (lineAddr x < a + len)
    if !s.mem.dirtyLine (x / 128) then (s, none)
    else if hit then ((s.logRec (scRec (lineAddr x) 2 6)).dropLine x, some ⟨.memoryUnrecoverable, lineAddr x⟩)
    else (s.addUpset (x / 128) false, none)
  | some (.residue x) => (s.addUpset (x / 128) true, none)

/-! PREFETCH_READ_RETURN. -/

/-- A read of a claim's array cannot be made: the loss is logged and the command cut (R225, R406). -/
def State.failRead (s : State) (cmd : Cmd) (c : Cond) : State :=
  (s.logLost c (ctxOf cmd.q) cmd.ticket).cutCmd cmd.key c

/-- VDD_ARR carries the arrays: the power state is ACTIVE and the rail stands at 0.60 V or more (R411, R428). -/
def arrayRuns (s : State) (a : Nat) : Bool := (s.array a).inService && arraysPowered s && decide (120 ≤ s.kpr.vReq)

/-- A STAGE_UE record (R404). -/
def stageRec (a : Nat) (cmd : Cmd) (off action : Nat) : Rec :=
  { event := 0x06, action := action, kind := 1, unit := a, ctx := some (ctxOf cmd.q), ticket := cmd.ticket, d0 := off }

/-- A buffer of stage memory that an uncorrectable word lies in (R135, R390). -/
inductive StagePart where
  | weights (no : Nat × Nat)
  | acts (no : Nat)
  | side
  deriving DecidableEq, Repr

/-- Times the buffer was fetched again without a good read since. -/
def StageSt.refetches (x : StageSt) : StagePart → Nat
  | .weights no => (x.weights.find? (fun b => b.no == no)).elim 0 (·.refetch)
  | .acts no => (x.acts.find? (fun b => b.no == no)).elim 0 (·.refetch)
  | .side => x.sideRefetch

/-- A buffer discarded, to be fetched again (R135): for the side area its cache, γ, β and exponents; exponents are formed again as
their weights return. -/
def StageSt.discard (x : StageSt) : StagePart → StageSt
  | .weights no => { x with
      weights := x.weights.map (fun b => if b.no == no then { b with cells := [], refetch := b.refetch + 1 } else b)
      exps := x.exps.filter (fun e => e.1 != no) }
  | .acts no => { x with acts := x.acts.map (fun b => if b.no == no then { b with cells := [], refetch := b.refetch + 1 } else b) }
  | .side => { x with
      norm := [], affine := [], exps := [], sideRefetch := x.sideRefetch + 1
      weights := if x.exps.isEmpty then x.weights else x.weights.map (fun b => { b with cells := [] }) }

/-- A buffer read without error: its refetches no longer count (R390). -/
def StageSt.goodRead (x : StageSt) : StagePart → StageSt
  | .weights no => { x with weights := x.weights.map (fun b => if b.no == no then { b with refetch := 0 } else b) }
  | .acts no => { x with acts := x.acts.map (fun b => if b.no == no then { b with refetch := 0 } else b) }
  | .side => { x with sideRefetch := 0 }

/-- The part of an area that a walk reads next. -/
def currentPart (cl : Claim) (delivered : Nat) : StageArea → Option StagePart
  | .weight => (openLoads cl).head?.map .weights
  | .activation => (vecsLeft cl delivered).head?.map (fun v => .acts v.buf)
  | .side => some .side

/-- An uncorrectable stage word of a claim's buffer: the buffer is discarded for a refetch, or a second refetch that fails again
retires the array (R135, R390). -/
def State.stageError (s : State) (a : Nat) (cmd : Cmd) (off : Nat) (part : StagePart) : State :=
  let log := s.nextLog
  if (s.array a).stage.refetches part ≥ 2 then (s.logRec (stageRec a cmd off 1)).retireArray a log
  else ((s.logRec (stageRec a cmd off 0)).maskFault cmd.key log).onArray a (fun x => { x with stage := x.stage.discard part })

/-- The bytes of a read that the walk needs, as one access from the first to the last of them (R214, R225). -/
def neededHull (need : List Span) (addr len : Nat) : Option Span :=
  let l := (rangeFrom addr len).filter (inSpans need)
  match l.head?, l.getLast? with
  | some x, some y => some (x, y + 1 - x)
  | _, _ => none

/-- The operand of an area is held in the shared cache for the level-3 tile (R217). -/
def heldOperand (d : Nat) : StageArea → Bool
  | .weight => dResW d 3
  | .activation => dResA d 3
  | .side => false

/-- A prefetch read returns through the shared cache and fills stage memory with the bytes of it that the walk needs; a read that
cannot be made ends the command; lines of a resident operand are held; an uncorrectable stage word met while the buffer fills
discards it (R135, R136, R217, R225, R328, R332, R385, R406). -/
def execPrefetchReadReturn (a : AIx) (area : StageArea) (addr len : Nat) (upset : ReadUpset) (s : State) :
    Host.Outcome State Fault Refusal :=
  .next (match (s.array a).claim with
    | none => s
    | some cl => match s.claimCmd cl.seed with
      | none => s
      | some (cmd, c) => match neededHull (c.needs cmd.pkt (s.array a) cl area) addr len with
        | none => s
        | some h =>
          if !arrayRuns s a || !s.lives cmd.key then s
          else match accessFault s h.1 h.2 with
            | some e => s.failRead cmd e
            | none => match s.cacheUpset addr len upset.cache with
              | (s, some e) => s.cutCmd cmd.key e
              | (s, none) =>
                let s := if heldOperand c.desc area then s.holdLines cl.seed.key (c.sharedTile cl.seed.ord) (linesOf h.1 h.2) else s
                match upset.stage, currentPart cl (s.array a).vecs.length area with
                | some off, some part => s.stageError a cmd off part
                | _, _ => s.onArray a (fun x => { x with stage := c.fillStage cmd.pkt x cl area addr (s.bytesAt addr len) }))

/-! FEEDER_VECTOR_READ. -/

/-- The vector as delivered: one element per row and slot, and a scale per K-block; `none` while bytes or its row's statistics are
missing (R112, R145, R152). -/
def Comp.deliver (c : Comp) (x : StageSt) (p : Nat) (v : VecOp) : Option Vec :=
  let act := ((x.acts.find? (fun b => b.no == v.buf)).elim [] (·.cells))
  let rd : Rd := fun a n => match cellsRd act a n with
    | some w => some w
    | none => cellsRd x.affine a n
  let norm := fun row => if isNorm (proFn p) then (x.norm.find? (fun y => y.1 == row)).map (·.2) else some ⟨cfZero false, cfZero false⟩
  let fa := fmtD (cFmtA p)
  let fw := fmtD (cFmtW p)
  (allSome (v.blocks.map (fun b =>
    deliverABlock rd norm p c.desc v.f v.m (c.srcRow (pOp p) v.m) (c.kAt v.f) b))).map (fun l =>
      { op := v
        elems := (l.flatMap (fun x => x.pieces fa fw fa v.ai)).take v.klen
        scales := l.map (fun x => x.expOf (pairWide fa fw)) })

/-- The feeder reads the next vector from stage memory, pads it, applies the prologue and delivers it (R142-R154); in STREAM mode
its row is then gone (R133). An uncorrectable word that it or the loader reads discards the buffer for a refetch (R135). -/
def execFeederVectorRead (a : AIx) (double : Option (StageArea × Nat)) (s : State) : Host.Outcome State Fault Refusal :=
  .next (
    let st := s.array a
    match st.claim with
    | none => s
    | some cl => match s.claimCmd cl.seed with
      | none => s
      | some (cmd, c) =>
        if !arrayRuns s a || !s.lives cmd.key then s
        else match double with
        | some (area, off) => match currentPart cl st.vecs.length area with
          | none => s
          | some part => s.stageError a cmd off part
        | none => match (vecsLeft cl st.vecs.length).head? with
          | none => s
          | some v => match c.deliver st.stage cmd.pkt v with
            | none => s
            | some vec => s.onArray a (fun x => { x with
                vecs := x.vecs ++ [vec]
                stage := let y := (x.stage.goodRead (.acts v.buf)).goodRead .side
                  if actBuffers cmd.pkt c.desc = 0 then { y with acts := [] } else y }))

/-! STAGE_SCRUB. -/

/-- The background scrub of stage memory and the shared cache meets an uncorrectable word (R135, R385, R429): a stage word
discards the buffer it lies in; a cache word is replaced or fetched again, and a dirty line is lost to whoever reads it next
(R407). The scrub pauses in IDLE and DEEP (R428). -/
def execStageScrub (upset : Option ScrubUpset) (s : State) : Host.Outcome State Fault Refusal :=
  .next (
    if !unitsRun s then s
    else match upset with
    | none => s
    | some (.cache (.dirty x)) =>
      if s.mem.dirtyLine (x / 128) then
        (s.logRec (scRec (lineAddr x) 2 9)).dropLine x
      else s
    | some (.cache u) => (s.cacheUpset 0 0 (some u)).1
    | some (.stage a area i off) =>
      if !(s.array a).inService then s
      else
        let x := (s.array a).stage
        let part : Option StagePart := match area with
          | .weight => (x.weights[i]?).map (fun b => .weights b.no)
          | .activation => (x.acts[i]?).map (fun b => .acts b.no)
          | .side => some .side
        match (s.array a).claim.bind (fun cl => s.claimCmd cl.seed), part with
        | some (cmd, _), some part => s.stageError a cmd off part
        | _, _ => s.logRec { event := 0x06, action := 0, kind := 1, unit := a, d0 := off })

end Sys2Proof.Machine
end

