-- ==== Sys2Proof/Machine/Slots.lean ====
section
/-! DEFINITION. The tun's slots: rows of long words, slot events and claims abandoned for them (R156-R160, R176, R390). -/
namespace Sys2Proof.Machine

/-- The order of tun elements: core, slot, row, column. -/
def TunCell.key (x : TunCell) : Nat := ((x.core * 32 + x.slot) * 256 + x.row) * 256 + x.col

/-- Tun cells in canonical form: keys rising, no FINITE zero. -/
def tunWf : List TunCell → Bool
  | [] => true
  | [x] => x.word != lwZero
  | x :: y :: r => decide (x.key < y.key) && x.word != lwZero && tunWf (y :: r)

/-- The cells of one slot row. -/
def tunCells (l : List TunCell) (core slot row : Nat) : List TunCell :=
  l.filter (fun x => x.core == core && x.slot == slot && x.row == row)

/-- A long word of a slot row: the FINITE zero where none is listed. -/
def tunAt (cells : List TunCell) (col : Nat) : LW := ((cells.find? (fun x => x.col == col)).map (·.word)).getD lwZero

/-- One slot row: 256 long words (R156). -/
def State.tunRow (s : State) (core slot row : Nat) : List LW :=
  let cells := tunCells s.tun core slot row
  (rangeFrom 0 256).map (tunAt cells)

/-- The cells of a row of long words, without its zeros. -/
def rowCells (core slot row : Nat) (ws : List LW) : List TunCell :=
  (ws.zipIdx.filter (fun x => x.1 != lwZero)).map (fun x => ⟨core, slot, row, x.2, x.1⟩)

/-- One slot row written (R158). -/
def tunPut (l : List TunCell) (core slot row : Nat) (ws : List LW) : List TunCell :=
  let lo := ((core * 32 + slot) * 256 + row) * 256
  let rest := l.filter (fun x => !(x.core == core && x.slot == slot && x.row == row))
  rest.filter (fun x => decide (x.key < lo)) ++ rowCells core slot row ws ++ rest.filter (fun x => decide (lo ≤ x.key))

/-- One slot row of the tun written. -/
def State.setTunRow (s : State) (core slot row : Nat) (ws : List LW) : State := s.onTun (fun _ => tunPut s.tun core slot row ws)

/-- The rows of two slot rows added by ⊕ (R158). -/
def rowAdd (a b : List LW) : List LW := List.zipWith lwAdd a b

/-- A claim abandoned on its unit for a fault that leaves the unit in service, and placed for reissue (R176, R255, R238). -/
def State.giveUp (s : State) (u : Nat) (sd : Seed) (log : Nat) : State :=
  (((s.abandon u sd (fun _ => false)).maskFault sd.key log).reissue sd).tidy sd.key

/-- An uncorrectable event of a slot counted (R390). -/
def State.countSlot (s : State) (core slot : Nat) : State :=
  s.onCore core (fun c => { c with events := vmod c.events slot (· + 1) })

/-- The second event of a slot since the start (R390). -/
def secondEvent (s : State) (core slot : Nat) : Bool := decide (1 ≤ vget (s.core core).events slot)

/-- An uncorrectable event of a slot met by a claim: logged; the claim is abandoned and reissued, or at the second event of the
slot the core is retired (R176, R390). -/
def State.slotEvent (s : State) (core slot : Nat) (u : Nat) (sd : Seed) (r : Rec) : State :=
  let log := s.nextLog
  let again := secondEvent s core slot
  let s := s.logRec { r with action := if again then 1 else 2 }
  let s := s.countSlot core slot
  if again then s.retireCore core log else s.giveUp u sd log

/-- A TUN_UE record (R404). -/
def tunUe (core slot row : Nat) : Rec :=
  { event := 0x05, action := 2, kind := 11, unit := core * 32 + slot, d0 := slot + row * 32 }

/-- A RESIDUE record of a slot's update: site 0 combine, 1 tun; it has no place for the row of R176 (R384, R404; log 89). -/
def tunResidue (core slot site : Nat) : Rec := { event := 0x04, action := 2, kind := 11, unit := core * 32 + slot, d0 := site }

end Sys2Proof.Machine
end

