-- ==== Sys2Proof/Machine/Control.lean ====
section
/-! DEFINITION. Control commands: NOP, FENCE, SIGNAL, WAIT, STEP_SET, QUERY, COUNTERS_CLEAR, unknown opcodes, and the reply
of a command that has ended (R274, R277, R289, R294, R304-R307). -/
namespace Sys2Proof.Machine

/-- A command dispatched and in flight; with `hold` it holds its queue (R273). -/
def State.launchCmd (s : State) (c : Cmd) (hold : Bool) : State :=
  let s := s.addCmd c
  if hold then s.onQ c.q (fun x => { x with hold := some c.pos }) else s

/-- The command that holds queue `q` at dispatch. -/
def State.holder (s : State) (q : Nat) : Option Cmd := (s.queue q).hold.bind (fun p => s.cmd? (q, p))

/-- The command processor acts for context `n`: it is powered, no switchover runs and the context is ACTIVE (R295, R392,
R428). -/
def actsFor (s : State) (n : Nat) : Bool := !s.cp.paused && unitsRun s && (s.ctx n).mode == .active

/-- An output of a command other than a compute command: it must lie in near memory outside the far tier and the block region
(R347, R472); elsewhere it is no valid address (R225). -/
def outputChecks (a len off : Nat) : List (Bool × Nat) :=
  [ (regionOf a == .far, off), (regionOf a == .near && hitsBlockRegion a len, off) ]

/-- An output whose range cannot be written (R225, R332, R341). -/
def outputFault (s : State) (a len : Nat) : Option Cond :=
  if regionOf a ≠ .near then some ⟨.memoryUnrecoverable, a⟩
  else match badByte s a len with
    | some x => some ⟨.memoryUnrecoverable, x⟩
    | none => writeFault s a len

/-- NOP does nothing and replies DONE (R277). -/
def execNop (q : QIx) (s : State) : Host.Outcome State Fault Refusal :=
  .next (withPacket s q (· == 0x01) (fun s p _ pos => s.replyNow q pos p []))

/-- The commands a FENCE awaits (R304). -/
def fenceAwaits (s : State) (q p : Nat) : List Key :=
  ((if bitOf p 64 then s.cmdsOf (ctxOf q) else s.cp.cmds.filter (fun c => c.q == q))).map Cmd.key

/-- FENCE waits at dispatch for the replies of its scope (R304). -/
def execFence (q : QIx) (s : State) : Host.Outcome State Fault Refusal :=
  .next (withPacket s q (· == 0x02) (fun s p _ pos =>
    match fenceAwaits s q p with
    | [] => s.replyNow q pos p []
    | l => s.launchCmd (Cmd.read q pos p (s.ctx (ctxOf q)).step (.fence l)) true))

/-- The last awaited reply is written: the FENCE replies DONE and its queue proceeds (R304). -/
def execFenceRelease (q : QIx) (s : State) : Host.Outcome State Fault Refusal :=
  .next (match s.holder q with
    | some c => match c.body with
      | .fence l => if actsFor s (ctxOf q) && l.all (fun k => (s.cmd? k).isNone) then s.reply c else s
      | _ => s
    | none => s)

/-- SIGNAL's field checks (R282, R305, R472). -/
def signalChecks (p : Nat) : List (Bool × Nat) :=
  let op := bitsOf p 65 64
  let a := bitsOf p 175 128
  [ (decide (op > 1), 8), (!isMult a 8, 16), (op == 1 && regionOf a != .near, 16),
    (regionOf a != .near && regionOf a != .host, 16), (regionOf a == .near && hitsBlockRegion a 8, 16) ]

/-- SIGNAL acts at dispatch (R305): a store or a fetch-add in near memory is answered at once; a store to the host aperture is
in flight, its write applied, until the integrator answers (R391, R457). -/
def execSignal (q : QIx) (s : State) : Host.Outcome State Fault Refusal :=
  .next (withPacket s q (· == 0x03) (fun s p pktA pos =>
    let a := bitsOf p 175 128
    let v := bitsOf p 255 192
    match firstFail (signalChecks p) with
    | some o => s.replyNow q pos p (pktBad pktA o)
    | none =>
      if regionOf a = .host then
        let c := Cmd.read q pos p (s.ctx (ctxOf q)).step (.signal a)
        let s := s.launchCmd { c with dispatched := true, applied := true } false
        s.onPort (fun x => { x with hout := s.port.hout ++ [⟨some (q.val, pos), a, true, natLe v 8, 8⟩] })
      else match outputFault s a 8, (if bitsOf p 65 64 = 1 then readFault s a 8 else none) with
        | some e, _ => s.replyNow q pos p [e]
        | none, some e => s.replyNow q pos p [e]
        | none, none =>
          let w := if bitsOf p 65 64 = 1 then (s.readNat a 8 + v) % 2 ^ 64 else v
          (s.store a (natLe w 8)).replyNow q pos p []))

/-- The condition of a WAIT (R306). -/
def waitHolds (s : State) (cmp a v : Nat) : Bool :=
  if cmp = 0 then decide (s.readNat a 8 = v) else decide (v ≤ s.readNat a 8)

/-- WAIT checks its fields, then holds its queue until its condition holds (R306). -/
def execWait (q : QIx) (s : State) : Host.Outcome State Fault Refusal :=
  .next (withPacket s q (· == 0x04) (fun s p pktA pos =>
    let cmp := bitsOf p 65 64
    let a := bitsOf p 175 128
    let v := bitsOf p 255 192
    match firstFail [ (decide (cmp > 1), 8), (!isMult a 8 || regionOf a != .near || (badByte s a 8).isSome, 16) ] with
    | some o => s.replyNow q pos p (pktBad pktA o)
    | none => match readFault s a 8 with
      | some e => s.replyNow q pos p [e]
      | none =>
        if waitHolds s cmp a v then s.replyNow q pos p []
        else s.launchCmd (Cmd.read q pos p (s.ctx (ctxOf q)).step (.wait cmp a v)) true))

/-- A waiting WAIT whose condition holds replies DONE (R306). -/
def execWaitSatisfied (q : QIx) (s : State) : Host.Outcome State Fault Refusal :=
  .next (match s.holder q with
    | some c => match c.body with
      | .wait cmp a v => if actsFor s (ctxOf q) && waitHolds s cmp a v then s.reply c else s
      | _ => s
    | none => s)

/-- STEP_SET writes the context's step register (R307). -/
def execStepSet (q : QIx) (s : State) : Host.Outcome State Fault Refusal :=
  .next (withPacket s q (· == 0x08) (fun s p _ pos =>
    (s.onCtx (ctxOf q) (fun c => { c with step := bitsOf p 111 64 })).replyNow q pos p []))

/-- The totals as QUERY writes them: 48 bytes in counter-code order (R294). -/
def totalsBytes (t : Vector Nat 6) : List Byte := t.toList.flatMap (fun x => natLe x 8)

/-- What QUERY PROGRESS finds of a ticket in its context: header, live table, bitmap (R294). -/
def progressOf (s : State) (n t : Nat) : Option (Nat × List Byte × List Byte) :=
  match (s.cmdsOf n).find? (fun c => c.ticket == some t && c.comp?.isSome) with
  | some c => match c.comp? with
    | some x => some (areaHeader x n (pOp c.pkt) 1 0, x.liveBytes, x.bitmap)
    | none => none
  | none => match s.cp.areas.find? (fun a => a.ctx == n && a.ticket == t) with
    | some a => some (areaHeader a.comp n a.op 2 a.status, a.comp.liveBytes, a.comp.bitmap)
    | none => none

/-- Bytes QUERY writes from RESULT_ADDR on (R294). -/
def querySpan (kind : Nat) (pr : Option (Nat × List Byte × List Byte)) : Nat :=
  if kind = 1 then 48 else match pr with
    | none => 64
    | some (_, _, b) => 16448 + b.length

/-- A held area of a context freed with its record (R291, R294). -/
def State.releaseArea (s : State) (n t : Nat) : State :=
  s.onCp (fun cp => { cp with areas := cp.areas.filter (fun a => !(a.ctx == n && a.ticket == t)) })

/-- QUERY copies an area or the totals (R294). -/
def execQuery (q : QIx) (s : State) : Host.Outcome State Fault Refusal :=
  .next (withPacket s q (· == 0x38) (fun s p pktA pos =>
    let n := ctxOf q
    let kind := bitsOf p 65 64
    let t := bitsOf p 95 80
    let a := bitsOf p 175 128
    let pr := progressOf s n t
    let len := querySpan kind pr
    match firstFail ([ (decide (kind > 1), 8), (!isMult a 64, 16) ] ++ outputChecks a len 16) with
    | some o => s.replyNow q pos p (pktBad pktA o)
    | none => match outputFault s a len with
      | some e => s.replyNow q pos p [e]
      | none =>
        let s := if kind = 1 then s.store a (totalsBytes (s.ctx n).totals)
          else match pr with
            | none => s.store a (List.replicate 64 0)
            | some (h, l, b) => ((s.store a (natLe h 64)).store (a + 64) l).store (a + 16448) b
        (if kind = 0 && bitOf p 66 then s.releaseArea n t else s).replyNow q pos p []))

/-- COUNTERS_CLEAR zeroes the totals named by MASK (R289). -/
def execCountersClear (q : QIx) (s : State) : Host.Outcome State Fault Refusal :=
  .next (withPacket s q (· == 0x39) (fun s p _ pos =>
    let z := fun (t : Vector Nat 6) i => if bitOf p (64 + i) then 0 else vget t i
    (s.onCtx (ctxOf q) (fun c => { c with
      totals := #v[z c.totals 0, z c.totals 1, z c.totals 2, z c.totals 3, z c.totals 4, z c.totals 5] })).replyNow q pos p []))

/-- A packet outside the opcode table fails with OPCODE_INVALID (R276). -/
def execUnknownOpcode (q : QIx) (s : State) : Host.Outcome State Fault Refusal :=
  .next (withPacket s q (fun op => !opcodeKnown op) (fun s p _ pos => s.replyNow q pos p [⟨.opcodeInvalid, pOp p⟩]))

/-- Nothing of the command is in flight any more: its work is over, no copy runs, and no frame of it is unacknowledged
(R237, R373). -/
def Cmd.over (s : State) (c : Cmd) : Bool :=
  c.ended && (match c.body with | .compute x => x.noCopies | _ => true) && framesAcked s c.key

end Sys2Proof.Machine
end

