-- ==== Sys2Proof/Machine/Work.lean ====
section
/-! DEFINITION. Draws, mailbox claims, speculation, the done action, and units taken out by the watchdog (R228, R234-R242,
R386-R389). -/
namespace Sys2Proof.Machine

/-- A claim may begin on the unit: its command goes on, its run is written and not all DONE, and the unit's slots are free
(R233, R234, R300). An arbiter meets the rule of R240. -/
def mailFits (s : State) (u : Nat) (sd : Seed) : Bool :=
  s.lives sd.key && (match s.comp? sd.key with
    | none => false
    | some c => c.runsOn s u && decide (sd.ord < c.limit) && (decide (32 ≤ u) || slotsFree s u (ctxOf sd.key.1) c.desc)
        && (match c.run? sd.ord with
          | none => false
          | some r => !r.allDone && (!sd.origin.isArb ||
              (match r.entries[sd.origin.tile]? with
                | none => true
                | some e => e.state != .disputed || e.unresolved || s.arbiterFits sd.key sd.ord e u))))

/-- The claim waiting for a mailbox that goes to unit `u`, if the command processor is placing claims (R234, R240, R392). -/
def State.placeFor (s : State) (u : Nat) : Option Seed :=
  if s.cp.paused then none else s.cp.unplaced.find? (mailFits s u)

/-- A stage tile that may have a speculative copy on array `a` (R239). -/
def specRun (s : State) (a : Nat) (key : Key) (c : Comp) (ord : Nat) : Bool :=
  match c.run? ord with
  | none => false
  | some r => r.written && !r.allDone && !r.entries.any (fun e => e.state == .disputed) && !r.hadSpec &&
      (match s.copiesOf key ord with
        | [x] => coreOfUnit x.1 != coreOfUnit a
        | _ => false)

/-- The command and the lowest ordinal that a speculative copy on array `a` would take (R239). -/
def specChoice (s : State) (a : Nat) : Option (Key × Nat) :=
  s.cp.cmds.findSome? (fun cmd => match cmd.comp? with
    | none => none
    | some c =>
      if s.lives cmd.key && c.exhausted && decide (c.specOut < 4) && c.runsOn s a && ((s.noDrawOf a).contains cmd.key) then
        ((rangeFrom 0 c.limit).find? (specRun s a cmd.key c)).map (fun o => (cmd.key, o))
      else none)

/-- A copy of the lowest qualifying straggler placed in the mailbox of an idle array (R239). Never in skeleton mode. -/
def execSpeculativeCopy (a : AIx) (s : State) : Host.Outcome State Fault Refusal :=
  .next (
    if s.cp.paused || s.start.skeleton || !unitFree s a || (s.mailOf a).isSome then s
    else match specChoice s a with
      | none => s
      | some (key, o) =>
        ((s.onComp key (fun c => { c.onRun o (fun r => { r with hadSpec := true }) with specOut := c.specOut + 1 })).setMail a
          (some ⟨key, o, .speculation⟩)).syncArea key)

/-- The command of the unit's claim, for a record's CTX and TICKET (R403). -/
def State.withCmd (s : State) (key : Option Key) (r : Rec) : Rec :=
  (key.bind s.cmd?).elim r (fun c => { r with ctx := some (ctxOf c.q), ticket := c.ticket })

/-! The done action. -/

/-- Drains of one RESIDENT band: of one claim, over one fold and one band of rows (R198). -/
def sameBand (es : List Entry) (x y : Drain) : Bool :=
  x.seed == y.seed && (match es[x.tile]?, es[y.tile]? with
    | some a, some b => a.tile.f == b.tile.f && a.tile.m0 == b.tile.m0
    | _, _ => false)

/-- Tiles of a run in the band of tile `t` (R198). -/
def bandSize (es : List Entry) (t : Nat) : Nat :=
  match es[t]? with
  | none => 0
  | some a => (es.filter (fun b => a.tile.f == b.tile.f && a.tile.m0 == b.tile.m0)).length

/-- The drains of unit `u` whose done action is due together with that of its first complete drain: that drain alone, or a
whole RESIDENT band (R198, R235). -/
def dueDrains (s : State) (u : Nat) : List Drain :=
  match (s.drainsOf u).find? (·.complete) with
  | none => []
  | some d =>
    if d.sweep != .final then [d]
    else
      let es := s.entriesOf d.seed
      let band := (s.drainsOf u).filter (sameBand es d)
      if band.all (·.complete) then band else []

/-- The copy of a seed on a unit has ended once nothing of it is left there (R239). -/
def State.copyEnds (s : State) (u : Nat) (sd : Seed) : State := if (s.seedsOn u).contains sd then s else s.specEnds sd

/-- Where a done action adds long words: those of the copy that sets the entry DONE (R174). -/
def appliedAdds (s : State) (d : Drain) : List Nat :=
  match (s.comp? d.seed.key).bind (·.entry? d.seed.ord d.tile) with
  | none => []
  | some e => if e.state = .claimed then d.staged.filterMap (fun x => match x with | .add a _ => some a | _ => none) else []

/-- The first of these adds that fails its residue check: the first of all when the step says so, else one into a line whose next add
fails (R384). -/
def failedAdd (s : State) (residue : Bool) (l : List Nat) : Option Nat :=
  if residue then l.head? else l.find? (fun a => (s.mem.badLine true a 16).isSome)

/-- A residue mismatch on a long-word add: it acts as an uncorrectable word of the dirty line it updates (R384, R385, R406,
R407). -/
def State.addFails (s : State) (key : Key) (a : Nat) : State :=
  let line := a / 128 * 128
  let t := (s.cmd? key).bind (·.ticket)
  ((s.logRec (addResidue line (ctxOf key.1) t)).dropLine a).cutCmd key
    ⟨.memoryUnrecoverable, line⟩

/-- A staged output's bytes: where they will be applied (R174). -/
def Staged.span : Staged → Option (Nat × Nat)
  | .add a _ => some (a, 16)
  | .max a _ => some (a, 8)
  | .cnt a _ => some (a, 4)
  | .validBit a => some (a, 1)
  | .frame _ _ _ => none

/-- What stands in the way of an additive output, which reads what it adds to (R174, R332). -/
def stagedFault (s : State) (x : Staged) : Option Cond :=
  x.span.bind (fun r => (outputFault s r.1 r.2).orElse (fun _ => readFault s r.1 r.2))

/-- The first output of a done action that cannot be applied (R332, R406). -/
def dueFault (s : State) (ds : List Drain) : Option Cond := ds.findSome? (fun d => d.staged.findSome? (stagedFault s))

/-- The writes of a done action wait for the cellar (R339, R340). -/
def dueWaits (s : State) (ds : List Drain) : Bool :=
  match ds with
  | [] => false
  | d :: _ => s.writeWaits (some (ctxOf d.seed.key.1)) (ds.flatMap (fun d => d.staged.filterMap Staged.span))

/-- The frames of a command go to the block's own position (R358, R370). -/
def toSelf (s : State) (key : Key) : Bool :=
  ((s.cmd? key).map (fun c => bitsOf (cTagMain c.pkt) 19 16 == ownPos s)).getD false

/-- The frames that a done action releases fit the send buffer; the wait for room changes only time (R364). -/
def framesFit (s : State) (ds : List Drain) : Bool :=
  let n := if ds.any (fun d => toSelf s d.seed.key) then 0 else ds.foldl (fun n d => d.staged.foldl (fun n x => match x with
    | .frame _ _ p => n + 64 + (pad64 p).length
    | _ => n) n) 0
  n == 0 || decide (sendBytes s + n ≤ sendLimit)

/-- The done action of a drain or band on unit `u`. -/
def State.doneAction (s : State) (u : Nat) (residue : Bool) (d : Drain) (ds : List Drain) : State :=
  let sd := d.seed
  let bad := failedAdd s residue ((d :: ds).flatMap (appliedAdds s))
  let (due, kept) := (s.drainsOf u).partition (d :: ds).contains
  let s := due.foldl (fun s x => s.wipe u x kept) (s.onDrains u (fun _ => kept))
  let s := (d :: ds).foldl (fun s x => s.doneEntry u x) s
  let s := ((s.copyEnds u sd).release u sd).afterDone sd
  match bad with
  | some a => (s.addFails sd.key a).electAll
  | none => s.electAll

/-- Frames to the block's own position do not fit the context's share: the done action waits while the context is ACTIVE (R358, R367;
log 81). -/
def shareWaits (s t : State) (n : Nat) : Bool :=
  (s.ctx n).mode == .active && decide (shareLimit < shareBytes t n) && decide (shareBytes s n < shareBytes t n)

/-- Drains that release frames. -/
def sendsFrames (ds : List Drain) : Bool :=
  ds.any (fun d => d.staged.any (fun x => match x with | .frame _ _ _ => true | _ => false))

/-- The done action of the unit's complete drain: its writes are accepted, the ledger entry moves, staged outputs are applied or
discarded, slots are released, and other copies of a stage tile all DONE are stopped (R174, R235-R242). An output that memory cannot
take ends the command (R332, R406). -/
def execDoneAction (u : UIx) (residue : Bool) (s : State) : Host.Outcome State Fault Refusal :=
  .next (match dueDrains s u with
    | [] => s
    | d :: ds =>
      let sd := d.seed
      let n := s.ctx (ctxOf sd.key.1)
      if !unitsRun s || !framesFit s (d :: ds) || dueWaits s (d :: ds) || !(n.mode == .active || decide (1 ≤ n.stage ∧ n.stage ≤ 3)) then s
      else if let some e := dueFault s (d :: ds) then
        ((s.onDrains u (fun l => l.filter (fun x => !(d :: ds).contains x))).cutCmd sd.key e).electAll
      else
        let t := s.doneAction u residue d ds
        if sendsFrames (d :: ds) && shareWaits s t (ctxOf sd.key.1) then s else t)

end Sys2Proof.Machine
end

