-- ==== Sys2Proof/Machine/Array.lean ====
section
/-! DEFINITION. ARRAY_STEP: load steps, activation steps through product, tree, combine and tun, filler steps, and the ward check
(R109-R123, R128, R158-R160, R168, R169, R176, R384). -/
namespace Sys2Proof.Machine

/-! Loading (R116-R118, R120). -/

/-- The block exponent of a column as the side area holds it (R147). -/
def StageSt.expAt (x : StageSt) (no : Nat × Nat) (g col : Nat) : Option Scale :=
  (x.exps.find? (fun e => e.1 == no && e.2.1 == g)).bind (fun e => e.2.2[col]?)

/-- The stored bytes of a load. -/
def StageSt.loadCells (x : StageSt) (no : Nat × Nat) : List Host.Cell := (x.weights.find? (fun b => b.no == no)).elim [] (·.cells)

/-- A weight of a load as delivered, with its column's scale, or the block exponent that the side area holds (R97, R110, R147). -/
def Comp.loadElem (c : Comp) (x : StageSt) (p : Nat) (o : LoadOp) (k n : Nat) : Option (DElem × Scale) :=
  let rd := cellsRd (x.loadCells o.buf)
  let fa := fmtD (cFmtA p)
  let fw := fmtD (cFmtW p)
  match wCode rd c.desc fw o.f k n, wScaleCode rd c.desc fw o.f (k / 32) n with
  | some w, some sc =>
    if pairWide fa fw then
      (x.expAt o.buf (k / 32) (n - o.n0)).map (fun e =>
        let v := match if fw.isMx then scaleOf sc else some 0 with
          | none => xvNan
          | some s => mixedXv ((decodeElem fw w).scale s)
        (deliverPiece (pairFmt fa fw) v (e.getD 0) o.wj, e))
    else some (pairOf fw (decodeElem fw w), scaleOf sc)
  | _, _ => none

/-- The row of weights of K-index `k` in the loaded columns. -/
def Comp.loadRowAt (c : Comp) (x : StageSt) (p : Nat) (o : LoadOp) (k : Nat) : Option (List (DElem × Scale)) :=
  allSome ((c.loadCols o).map (c.loadElem x p o k))

/-- The grid integer of a delivered element (R110). -/
def DElem.grid (x : DElem) : Int := x.sig * ((2 ^ x.h : Nat) : Int)

/-- An E5M2 element split as R120 states: the part with E ≤ 16, and the part with E ≥ 17 over 2^16. -/
def splitE5 (x : DElem) : Int × Int := if x.h < 16 then (x.grid, 0) else (0, x.grid / 65536)

/-- The operand halves that a ward multiplier takes (R120, R121). -/
def wardHalves (f : Fmt) (x : DElem) : Int × Int := if f = .e5m2 then splitE5 x else (x.grid, 0)

/-- The checksum weight of a row (R120). -/
def checksumWeight (f : Fmt) (l : List DElem) : Int × Int :=
  l.foldl (fun a x => let y := wardHalves f x; (a.1 + y.1, a.2 + y.2)) (0, 0)

/-- The weight row that a load step writes: slot 0, and slot 1 in dual mode (R111, R120). -/
def mkWRow (f : Fmt) (row : Nat) (s0 s1 : List DElem) : WRow := ⟨row, s0, s1, checksumWeight f s0, checksumWeight f s1⟩

/-- WREG with a row replaced. -/
def putRow (l : List WRow) (r : WRow) : List WRow := r :: l.filter (fun x => x.row != r.row)

/-- A load step on the array: the row in WREG, and at row 32g the scales of group g in the set not in use (R116, R117). -/
def Comp.loadStep (c : Comp) (a : ArraySt) (p : Nat) (o : LoadOp) : Option ArraySt :=
  let rd := a.stage
  let fw := fmtD (cFmtW p)
  let at0 := c.loadRowAt rd p o (o.k0 + o.row)
  let at1 := if o.row + 256 < o.klen then c.loadRowAt rd p o (o.k0 + 256 + o.row) else some []
  match at0, at1 with
  | some r0, some r1 =>
    let row := mkWRow fw o.row (r0.map (·.1)) (r1.map (·.1))
    let base := if o.row = 0 then [] else if a.active then a.set0 else a.set1
    let set := if o.row % 32 = 0 then
        base ++ [(o.row / 32, r0.map (·.2))] ++ (if r1.isEmpty then [] else [(o.row / 32 + 8, r1.map (·.2))]) else base
    let a := { a with wreg := putRow a.wreg row }
    let a := if a.active then { a with set0 := set } else { a with set1 := set }
    some (if o.row + 1 = o.rows then { a with active := !a.active } else a)
  | _, _ => none

/-! An activation step (R112-R115). -/

/-- The WREG row of a logical row. -/
def wregRow (a : ArraySt) (r : Nat) : WRow := (a.wreg.find? (fun x => x.row == r)).getD ⟨r, [], [], (0, 0), (0, 0)⟩

/-- Columns that a vector's load holds weights for. -/
def widthOf (a : ArraySt) : Nat := a.wreg.foldl (fun n r => max n r.s0.length) 0

/-- What row r latches of a vector (R109, R112, R118): slot 0 takes K-index r of the pass and slot 1 K-index 256 + r. -/
def aLatch (v : Vec) (up : Option ArrayUpset) (r : Nat) : ALatch where
  a0 := v.elems.getD r dZero
  a1 := v.elems.getD (256 + r) dZero
  parityOk := up != some (.parity (r / 32)) || r % 32 != 0
  enabled := decide (r < v.op.klen)

/-- The products of an enabled row's cells (R110, R111, R113). -/
def prodRow (a : ArraySt) (v : Vec) (l : ALatch × Nat) : PRow :=
  let w := wregRow a l.2
  let cols := rangeFrom 0 (min 256 (widthOf a) + 1)
  ⟨l.2, cols.map (fun c => prodOf l.1.a0 (w.s0.getD c dZero)),
    if l.2 + 256 < v.op.klen then cols.map (fun c => prodOf l.1.a1 (w.s1.getD c dZero)) else []⟩

/-- The product stage: the row latches take the vector and the cells latch their products (R109, R113). -/
def ArraySt.latch (a : ArraySt) (v : Vec) (up : Option ArrayUpset) : ArraySt :=
  let rows := (rangeFrom 0 256).map (aLatch v up)
  { a with alat := rows, plat := ((rows.zipIdx).filter (·.1.enabled)).map (prodRow a v) }

/-- One K-block of a step: its activations, its products by row and column, and its activation scale. -/
structure StepBlock where
  g : Nat
  acts : List DElem
  prods : List (List CellProd)
  sa : Scale

/-- The activation that an offset within the pass latched. -/
def latchAt (a : ArraySt) (off : Nat) : DElem :=
  match a.alat[off % 256]? with
  | none => dZero
  | some l => if off < 256 then l.a0 else l.a1

/-- The checksum weights an offset meets (R120). -/
def wardAt (a : ArraySt) (off : Nat) : Int × Int := if off < 256 then (wregRow a (off % 256)).c0 else (wregRow a (off % 256)).c1

/-- The K-blocks of a latched vector: slot 0 of the group g of rows forms block g, slot 1 block g + 8 (R111, R114). -/
def stepBlocks (a : ArraySt) (v : Vec) : List StepBlock :=
  (rangeFrom 0 (ceilDiv v.op.klen 32)).map (fun g =>
    let n := min 32 (v.op.klen - 32 * g)
    let rows := a.plat.filter (fun r => decide (32 * (g % 8) ≤ r.row) && decide (r.row < 32 * (g % 8) + n))
    ⟨g, (rangeFrom (32 * g) n).map (latchAt a), rows.map (fun r => if g < 8 then r.p0 else r.p1), v.scales.getD g (some 0)⟩)

/-- The products of a column in a block. -/
def StepBlock.column (b : StepBlock) (col : Nat) : List CellProd := b.prods.map (fun l => l.getD col default)

/-- The sum of the column partials of a block, over `width` columns; the others hold zero weights (R122). -/
def StepBlock.columnSum (b : StepBlock) (width : Nat) : Int :=
  (rangeFrom 0 width).foldl (fun n col => n + treeSum (b.column col)) 0

/-- The ward partial of a block (R121). -/
def wardPartial (fa : Fmt) (a : ArraySt) (b : StepBlock) : Int :=
  (b.acts.zipIdx).foldl (fun n x =>
    let y := wardHalves fa x.1
    let c := wardAt a (32 * b.g + x.2)
    n + y.1 * c.1 + 65536 * (y.1 * c.2 + y.2 * c.1) + 65536 * 65536 * (y.2 * c.2)) 0

/-- The weight scale of a column in the active set (R117). -/
def scaleAt (a : ArraySt) (g col : Nat) : Scale := ((aget (if a.active then a.set1 else a.set0) g).getD []).getD col (some 0)

/-- One column's update of a step: the ⊕ of its contributions, clips, and K-blocks with a flushed product (R115, R81). -/
def columnUpdate (flush : Bool) (lp A : Int) (a : ArraySt) (bs : List StepBlock) (col : Nat) : LW × Nat × Nat :=
  bs.foldl (fun acc b =>
    let c := treeContrib flush (b.column col) b.sa (scaleAt a b.g col) lp A
    (lwAdd acc.1 c.lw, acc.2.1 + c.clip, acc.2.2 + bit c.flush)) (lwZero, 0, 0)

/-- A step's 256 column updates: columns without weights share one value (R115). -/
def rowUpdate (flush : Bool) (lp A : Int) (a : ArraySt) (bs : List StepBlock) : List (LW × Nat × Nat) :=
  let w := min 256 (widthOf a)
  (rangeFrom 0 w).map (columnUpdate flush lp A a bs) ++ List.replicate (256 - w) (columnUpdate flush lp A a bs w)

/-! The ward check (R122, R123). -/

/-- What an upset adds to the difference of a group: column sum minus ward partial. -/
def upsetDiff : Option ArrayUpset → Nat → Int
  | some (.groupDiff g col delta), x => if g = x then (if col = 256 then -delta else delta) else 0
  | _, _ => 0

/-- The first group that fails the check, with its difference and whether a parity fails: a row latch's, or a class lane's at a
column foot (R122). -/
def wardFault (fa : Fmt) (a : ArraySt) (bs : List StepBlock) (up : Option ArrayUpset) : Option (Nat × Int × Bool) :=
  match up with
  | some (.parity g) => some (g % 8, 0, true)
  | _ => (rangeFrom 0 16).findSome? (fun g =>
      let d := (match bs.find? (fun b => b.g == g) with
        | none => 0
        | some b => b.columnSum (widthOf a) - wardPartial fa a b) + upsetDiff up g
      if d = 0 then none else some (g % 8, d, false))

/-- A failed check: the record, the array retired with its work placed for reissue, and after the first failure since the start a
diagnostic pass (R122-R125, R404). -/
def State.wardFail (s : State) (a : Nat) (f : Nat × Int × Bool) : State :=
  let log := s.nextLog
  let first := (s.array a).wardFails == 0
  let key := (s.seedsOn a).head?.map (·.key)
  let s := s.logRec (s.withCmd key
    { event := 0x01, action := 1, kind := 1, unit := a, d0 := ofSigned f.2.1 64, d1 := f.1 + 8 * bit f.2.2 })
  let s := s.onArray a (fun x => { x with wardFails := x.wardFails + 1, diag := first })
  s.retireArray a log

/-! The step. -/

/-- A step of the array counts for its claim: from the first step of its first load to the step of its last vector, waits among
them (R299). -/
def Claim.counts (cl : Claim) (works : Bool) : Bool :=
  (cl.started || works) && cl.todo.any (fun o => match o with
    | .vec _ => true
    | _ => false)

/-- A step that counts. -/
def Claim.tick (cl : Claim) (works : Bool) : Claim := if cl.counts works then { cl with steps := cl.steps + 1 } else cl

/-- The walk of a claim one step further; the claim ends with its last step (R164, R223, R299). -/
def State.advance (s : State) (a : Nat) : State :=
  match (s.array a).claim with
  | none => s
  | some cl =>
    let cl := { cl with todo := cl.todo.drop 1, started := true }
    if cl.todo.isEmpty then
      ((s.onArray a ArraySt.walkOver).charge a cl.seed.key cl.steps).release a cl.seed
    else s.onArray a (fun x => { x with claim := some cl })

/-- A tile's progress after an update (R292). -/
def Entry.reached (e : Entry) (kb : Nat) : Entry := { e with begun := true, kbDone := max e.kbDone kb }

/-- Counts of the columns of a pass tile below N_eff (R72, R81): flushes only in the first pass of a pass set. -/
def stepCounts (l : List (LW × Nat × Nat)) (width : Nat) (first : Bool) : Counts :=
  (l.take width).foldl (fun c x => { c with clip := c.clip + x.2.1, flush := c.flush + (if first then x.2.2 else 0) }) Counts.zero

/-- Array column of a tile column in a vector's pass tile: column c of the array is output column n0 + c. Columns of another pass
tile of the same output tile take no part (R112, R157; log 65). -/
def passCol (nExt : Nat) (t : Tile) (v : VecOp) (j : Nat) : Option Nat :=
  if v.n0 ≤ t.n0 + j ∧ (t.n0 + j < v.n1 ∨ nExt ≤ t.n0 + j) then some (t.n0 + j - v.n0) else none

/-- A slot row after a vector's long words: written, or added by ⊕ (R158, R159). -/
def updatedRow (nExt : Nat) (t : Tile) (v : VecOp) (old new : List LW) : List LW :=
  (rangeFrom 0 256).map (fun j => match passCol nExt t v j with
    | some c => if v.write then new.getD c lwZero else lwAdd (old.getD j lwZero) (new.getD c lwZero)
    | none => if v.write then lwZero else old.getD j lwZero)

/-- A vector's update: the combine stage's long words written or added in the tun, the tile's counts and progress, and its drain
when this was its last vector (R115, R158, R168). -/
def State.vecStep (s : State) (a : Nat) (cmd : Cmd) (c : Comp) (cl : Claim) (v : VecOp) (l : List (LW × Nat × Nat)) : State :=
  let k := a / 4
  let tile := ((c.run? cl.seed.ord).bind (fun r => r.entries[v.tile]?)).elim (⟨0, 0, 0⟩ : Tile) (·.tile)
  let row := v.m - tile.m0
  let s := s.setTunRow k v.slot row (updatedRow (dExt c.desc 5 1) tile v (s.tunRow k v.slot row) (l.map (·.1)))
  let counts := (cl.tileCounts.getD v.tile Counts.zero).add (stepCounts l (min v.n1 (c.nAt v.f) - v.n0) v.firstPass)
  let s := s.onArray a (fun x => { x with
    vecs := x.vecs.drop 1
    claim := some { cl with begun := nput cl.begun v.tile, tileCounts := cl.tileCounts.set v.tile counts } })
  let s := (s.onComp cl.seed.key (fun c => c.onEntry cl.seed.ord v.tile (·.reached v.kb))).syncArea cl.seed.key
  let s := if v.last then
      s.addDrain a (Drain.start cl.seed v.tile (.slot v.slot) (firstSweep cmd.pkt c) (c.tileRows tile) counts) else s
  s.advance a

/-- A fault of a vector's update after the ward check: residue of the combine stage or of the tun adder, or a double-bit error of
the word it reads (R176, R384). -/
def updateFault (k : Nat) (v : VecOp) (row : Nat) : Option ArrayUpset → Option Rec
  | some .residueCombine => some (tunResidue k v.slot 0)
  | some .residueTun => if v.write then none else some (tunResidue k v.slot 1)
  | some .tunDouble => if v.write then none else some (tunUe k v.slot row)
  | _ => none

/-- A filler or load step's check: every partial is zero but for an upset (R122, R128). -/
def fillerFault (up : Option ArrayUpset) : Option (Nat × Int × Bool) := wardFault .e4m3 ArraySt.reset [] up

/-- A step without an activation: a filler step, whose ward check runs and which changes no state that a result reads (R122,
R128); telemetry counts it (R430). -/
def State.fillerStep (s : State) (a : Nat) (up : Option ArrayUpset) : State :=
  let s := s.onKin (fun i => { i with fillN := i.fillN + 1 })
  match fillerFault up with
  | some f => s.wardFail a f
  | none => s

/-- An activation step (R113, R122); a vector whose slot row is drain-pending is not issued (R169);
telemetry counts the step (R430). -/
def State.workStep (s : State) (a : Nat) (cmd : Cmd) (c : Comp) (cl : Claim) (v : VecOp) (vec : Vec) (up : Option ArrayUpset) :
    State :=
  let fa := fmtD (cFmtA cmd.pkt)
  let fw := fmtD (cFmtW cmd.pkt)
  let tile := ((c.run? cl.seed.ord).bind (fun r => r.entries[v.tile]?)).elim (⟨0, 0, 0⟩ : Tile) (·.tile)
  let row := v.m - tile.m0
  if drainPending s a v.slot row then s.fillerStep a up
  else
    let s := s.onKin (fun i => { i with workN := i.workN + 1 })
    let x := (s.array a).latch vec up
    let bs := stepBlocks x vec
    let s := s.onArray a (fun _ => x)
    match wardFault fa x bs up with
    | some f => s.wardFail a f
    | none => match updateFault (a / 4) v row up with
      | some r => s.slotEvent (a / 4) v.slot a cl.seed { r with ctx := some (ctxOf cmd.q), ticket := cmd.ticket }
      | none => s.vecStep a cmd c cl v (rowUpdate (cFlush cmd.pkt) (lPairPass fa fw v.ai v.wj) c.anchor x bs)

/-- The step of a claim: its load, its vector, or a tile without updates whose drain begins (R116, R161); a step whose data is not
there is a filler step (R128, R146). -/
def State.claimStep (s : State) (a : Nat) (cmd : Cmd) (c : Comp) (cl : Claim) (up : Option ArrayUpset) : State :=
  match cl.todo with
  | .load o :: _ => match fillerFault up with
    | some f => s.wardFail a f
    | none => match c.loadStep (s.array a) cmd.pkt o with
      | some x => (s.onArray a (fun _ => x)).advance a
      | none => s
  | .vec v :: _ => match (s.array a).vecs.find? (fun x => x.op == v) with
    | some vec => s.workStep a cmd c cl v vec up
    | none => s.fillerStep a up
  | .zero t :: _ =>
    let tile := ((c.run? cl.seed.ord).bind (fun r => r.entries[t]?)).elim (⟨0, 0, 0⟩ : Tile) (·.tile)
    (s.addDrain a (Drain.start cl.seed t .zero (firstSweep cmd.pkt c) (c.tileRows tile) (cl.tileCounts.getD t Counts.zero))).advance a
  | [] => s.advance a

/-- The claim that an array walks, with its command, while the command goes on. -/
def liveClaim (s : State) (a : Nat) : Option (Claim × Cmd × Comp) :=
  ((s.array a).claim.bind (fun cl => (s.claimCmd cl.seed).map (fun x => (cl, x.1, x.2)))).filter (fun x => s.lives x.2.1.key)

/-- An array has work in this step: a load row or a vector is ready, or a tile without updates ends; an array whose next vector or
load row is not ready counts as one without work (R129, R146). -/
def arrayWorks (s : State) (a : Nat) : Bool :=
  match liveClaim s a with
  | none => false
  | some (cl, cmd, c) => match cl.todo with
    | .load o :: _ => (c.loadStep (s.array a) cmd.pkt o).isSome
    | .vec v :: _ => ((s.array a).vecs.find? (fun x => x.op == v)).isSome
    | _ => true

/-- Work on a core: its hold window starts over, and at grade 0 its first interval runs at grade 1 (R129, R131). -/
def CoreSt.works (c : CoreSt) : CoreSt :=
  { c with holding := true, grade := max 1 c.grade, dir := if c.grade = 0 then 1 else c.dir }

/-- One step of an array: the step its claim calls for, or a filler step, under the ward check; none under a grade cap of 0, and no
filler step at grade 0 (R113, R122, R128, R129, R389, R419). -/
def execArrayStep (a : AIx) (upset : Option ArrayUpset) (s : State) : Host.Outcome State Fault Refusal :=
  .next (
    if !arrayRuns s a || s.kpr.gradeCap = 0 then s
    else match liveClaim s a with
      | some (cl, cmd, c) =>
        let works := arrayWorks s a
        if !works && (s.core (a / 4)).grade == 0 then s
        else
          let cl := cl.tick works
          let s := s.onArray a (fun x => { x with claim := some cl })
          if works then (s.onCore (a / 4) CoreSt.works).claimStep a cmd c cl upset else s.fillerStep a upset
      | none => if (s.core (a / 4)).grade = 0 then s else s.fillerStep a upset)

end Sys2Proof.Machine
end

