-- ==== Sys2Proof/Machine/Compute.lean ====
section
/-! DEFINITION. Dispatch of the commands that use the ledger: MATMUL, MATVEC, GATHER_MATMUL, SEGMENT_SUM, COMBINE, FINISH, and
what lets a waiting one proceed (R17, R195, R202, R222, R226, R227, R231, R279). -/
namespace Sys2Proof.Machine

/-- A statistics record as STAT_INIT writes it: SUM and SUMSQ the FINITE zero, MAX NEG_INF, N_ELEM and DENOM_VALID 0 (R193,
R195). -/
def statZero : List Byte := List.replicate 32 0 ++ natLe (cfCode (cfOfCls .negInf)) 8 ++ List.replicate 8 0

/-- The folded output rows a command has (R195). -/
def Comp.statRows (c : Comp) : List Nat :=
  ((rangeFrom 0 c.fEff).flatMap (fun f => (rangeFrom 0 (c.mAt f)).map (foldedRow c.desc f))).eraseDups

/-- The statistics writes of dispatch as (address, bytes): STAT_INIT of a matrix product (R195), SUM and DENOM_VALID of a
FINISH in phase 1 (R202, R310). -/
def Comp.statWrites (c : Comp) (p : Nat) : List (Nat × List Byte) :=
  if isMat (pOp p) && statInit p && ssEn (statWord p) then
    c.statRows.map (fun m => (a48 (ssBase (statWord p) + m * ssStride (statWord p)), statZero))
  else if c.phase = 1 then
    c.statRows.flatMap (fun m =>
      [ (a48 (finStatBase p + m * finStatStride p), List.replicate 16 0),
        (a48 (finStatBase p + m * finStatStride p + 44), [0]) ])
  else []

/-- The work counter published once the anchor is fixed and the first runs are written; until a run fits, the command holds its
queue (R17, R222, R231, R273). -/
def State.publish (s : State) (key : Key) : State :=
  let s := s.writeAllRuns key
  match s.cmd? key with
  | none => s
  | some cmd => match cmd.comp? with
    | none => s
    | some c =>
      if decide (0 < c.limit) || c.runs.isEmpty then
        let s := (c.statWrites cmd.pkt).foldl (fun s w => s.store w.1 w.2) s
        let s := s.onCmd key (fun x => { x.onComp (fun c => { c with published := true }) with dispatched := true })
        let s := s.onQ key.1 (fun x => if x.hold = some key.2 then { x with hold := none } else x)
        ((s.syncArea key).settle key).electAll
      else s.onQ key.1 (fun x => { x with hold := some key.2 })

/-- A checked command takes the lowest free record and the next ticket, and is published; with no record free it holds its
queue (R226, R227). -/
def State.launch (s : State) (q pos p step : Nat) (c : Comp) : State :=
  match s.freeRec with
  | none => s.launchCmd (Cmd.read q pos p step (.waitRecord c)) true
  | some r =>
    let t := s.nextTicket 400 s.cp.nextTicket
    let s := s.onCp (fun cp => { cp with nextTicket := (t + 1) % 65536 })
    let s := s.addCmd { Cmd.read q pos p step (.compute { c with recNo := some r, ticket := t }) with ticket := some t }
    (s.allowDraws (q, pos)).publish (q, pos)

/-- The first statistics write of dispatch that near memory cannot take (R225, R332, R341). -/
def statWriteFault (s : State) (c : Comp) (p : Nat) : Option Cond :=
  (c.statWrites p).findSome? (fun w => outputFault s w.1 w.2.length)

/-- Dispatch of a command that uses the ledger: the checks of R279 and R482, the copies of its structures, then the launch; a
command that fails is answered at once without a ticket (R287). -/
def dispatchComp (op q : Nat) (s : State) : State :=
  withPacket s q (· == op) (fun s p pktA pos =>
    match prepare s q pktA op p with
    | .error e => s.replyNow q pos p [e]
    | .ok c => match statWriteFault s c p with
      | some e => s.replyNow q pos p [e]
      | none => s.launch q pos p (s.ctx (ctxOf q)).step c)

/-- MATMUL (R222). -/
def execMatmul (q : QIx) (s : State) : Host.Outcome State Fault Refusal := .next (dispatchComp 0x10 q s)
/-- MATVEC: the thin path, or the arrays when none serves (R250). -/
def execMatvec (q : QIx) (s : State) : Host.Outcome State Fault Refusal := .next (dispatchComp 0x11 q s)
/-- GATHER_MATMUL: activation rows through an index list (R259, R260). -/
def execGatherMatmul (q : QIx) (s : State) : Host.Outcome State Fault Refusal := .next (dispatchComp 0x12 q s)
/-- SEGMENT_SUM (R262-R264). -/
def execSegmentSum (q : QIx) (s : State) : Host.Outcome State Fault Refusal := .next (dispatchComp 0x13 q s)
/-- COMBINE (R243, R244). -/
def execCombine (q : QIx) (s : State) : Host.Outcome State Fault Refusal := .next (dispatchComp 0x14 q s)
/-- FINISH (R200-R202). -/
def execFinish (q : QIx) (s : State) : Host.Outcome State Fault Refusal := .next (dispatchComp 0x15 q s)

/-- A record becomes free: the command of queue `q` that waits at dispatch takes it and proceeds (R227), with the step value
read with its packet (log 89). -/
def execWorkCounterRecordFree (q : QIx) (s : State) : Host.Outcome State Fault Refusal :=
  .next (match s.holder q with
    | some c => match c.body with
      | .waitRecord x =>
        if actsFor s (ctxOf q) && s.freeRec.isSome then
          ((s.dropCmd c.key).onQ q (fun y => { y with hold := none })).launch q c.pos c.pkt c.step x
        else s
      | _ => s
    | none => s)

/-- Units that hold an ordinal of the command claim it once LIMIT has passed it (R228). -/
def State.claimAllHeld (s : State) (key : Key) : State :=
  allUnits.foldl (fun s u => match s.holdOf u with
    | some (k, _) => if k = key then s.claimHeld u else s
    | none => s) s

/-- The run of a further stage tile is written as entries become free, LIMIT is raised past it, and a unit that holds its
ordinal claims it (R228, R231). -/
def execLedgerRunWrite (q : QIx) (pos : Nat) (s : State) : Host.Outcome State Fault Refusal :=
  let key : Key := (q.val, pos)
  .next (if s.cp.paused || !s.lives key || !s.nextRunFits key then s
    else match s.comp? key with
      | none => s
      | some c =>
        if c.published then ((s.onComp key Comp.writeRun).claimAllHeld key).syncArea key
        else s.publish key)

end Sys2Proof.Machine
end

