-- ==== Sys2Proof/Machine/Engine.lean ====
section
/-! DEFINITION. Engine commands: SCALE_SCAN, COPY and FILL (R54, R57, R99, R282-R284, R483, R486), SPILL and RELOAD (R344-R355),
granules, and the far tier's responses. -/
namespace Sys2Proof.Machine

def gSrc (p : Nat) : Nat := bitsOf p 111 64
def gDst (p : Nat) : Nat := bitsOf p 175 128
def gLen (p : Nat) : Nat := bitsOf p 239 192
def gPattern (p : Nat) : Nat := bitsOf p 383 256

/-- The engine part of a command. -/
def Cmd.eng? (c : Cmd) : Option Eng := match c.body with | .engine e => some e | _ => none
/-- The engine part changed. -/
def Cmd.onEng (c : Cmd) (f : Eng → Eng) : Cmd := match c.body with | .engine e => { c with body := .engine (f e) } | _ => c
/-- The engine part of a command in flight changed. -/
def State.onEng (s : State) (k : Key) (f : Eng → Eng) : State := s.onCmd k (·.onEng f)

/-- An engine command with `n` granules, none done. -/
def Eng.start (n : Nat) (comp : Option Comp) : Eng := ⟨n, List.replicate n false, [], comp, none, [], false⟩

/-- Every granule is done. -/
def Eng.allDone (e : Eng) : Bool := e.doneBits.all id
/-- Nothing is outstanding. -/
def Eng.quiet (e : Eng) : Bool := e.awaiting.isEmpty && e.cmps.isEmpty
/-- Granule `g` is done. -/
def Eng.isDone (e : Eng) (g : Nat) : Bool := e.doneBits.getD g true
/-- The first granule not done. -/
def Eng.nextGranule (e : Eng) : Option Nat := e.doneBits.findIdx? (fun b => !b)

/-- An engine command ends once every granule is done, or it has halted, and nothing of it is outstanding (R284, R349). -/
def State.engSettle (s : State) (k : Key) : State :=
  s.onCmd k (fun c => match c.eng? with
    | some e => if (e.halted || e.allDone) && e.quiet then { c with ended := true } else c
    | none => c)

/-- A fault of an engine command: its status, and no further granule (R406, R486). -/
def State.engHalt (s : State) (k : Key) (cond : Cond) : State :=
  ((s.onCmd k (fun c => { c with conds := c.conds ++ [cond], cut := true })).onEng k (fun e => { e with halted := true })).engSettle k

/-- A fault of a read: data lost is logged (R404, R406). -/
def State.engReadFails (s : State) (k : Key) (cond : Cond) : State :=
  (s.logLost cond (ctxOf k.1) none).engHalt k cond

/-- Granule `g` is written at the destination (R290). -/
def State.granuleDone (s : State) (k : Key) (g : Nat) : State :=
  (s.onEng k (fun e => { e with doneBits := e.doneBits.set g true })).engSettle k

/-- An engine command in flight (R284). -/
def State.startEng (s : State) (q pos p : Nat) (e : Eng) : State :=
  s.launchCmd { Cmd.read q pos p (s.ctx (ctxOf q)).step (.engine e) with dispatched := true } false

/-! SCALE_SCAN. -/

/-- The scan reads the activation elements: all but an MX operand of an MX pair under no or a pass-through prologue (R483). -/
def scanReadsA (p : Nat) : Bool := pairWide (fmtD (cFmtA p)) (fmtD (cFmtW p)) || !passThrough p
/-- The scan reads the weight elements (R483). -/
def scanReadsW (p : Nat) : Bool := pairWide (fmtD (cFmtA p)) (fmtD (cFmtW p))

/-- The byte runs SCALE_SCAN reads of a row of the activation operand (R483). -/
def scanRowSpans (p : Nat) (c : Comp) (f m : Nat) : List (Nat × Nat) :=
  let inF := fmtD (proInFmt p)
  (if scanReadsA p then (rangeFrom 0 (c.kAt f)).map (aSpan c.desc inF f m) else [])
    ++ (if inF.isMx then (rangeFrom 0 (ceilDiv (c.kAt f) 32)).map (fun b => (aScale c.desc f m b, 1)) else [])
    ++ (if isNorm (proFn p) then [(proStatAddr p (foldedRow c.desc f m), 48)] else [])

/-- The byte runs SCALE_SCAN reads of a column of the weight operand (R483). -/
def scanColSpans (p : Nat) (c : Comp) (f n : Nat) : List (Nat × Nat) :=
  let w := fmtD (cFmtW p)
  (if scanReadsW p then (rangeFrom 0 (c.kAt f)).map (fun k => wSpan c.desc w f k n) else [])
    ++ (if w.isMx then (rangeFrom 0 (ceilDiv (c.kAt f) 32)).map (fun b => (wScale c.desc f b n, 1)) else [])

/-- The byte runs SCALE_SCAN reads (R483). -/
def scanSpans (p : Nat) (c : Comp) : List (Nat × Nat) :=
  (rangeFrom 0 c.fEff).flatMap (fun f =>
    (rangeFrom 0 (c.mAt f)).flatMap (scanRowSpans p c f) ++ (rangeFrom 0 (c.nAt f)).flatMap (scanColSpans p c f)
      ++ (if proAffine p then (rangeFrom 0 (c.kAt f)).flatMap (fun k =>
            [(a48 (proGamma p + 4 * k), 4), (a48 (proBeta p + 4 * k), 4)]) else []))

/-- The 2 KiB granules of those bytes (R284, R483). -/
def scanGranules (l : List (Nat × Nat)) : List Nat := (l.flatMap (fun x => [x.1 / 2048, (x.1 + x.2 - 1) / 2048])).eraseDups

/-- What stands in the way of reading the bytes of one granule. -/
def scanFault (s : State) (l : List (Nat × Nat)) (g : Nat) : Option Cond :=
  (l.filter (fun x => x.1 / 2048 == g || (x.1 + x.2 - 1) / 2048 == g)).findSome? (fun x => accessFault s x.1 x.2)

/-- The largest unbiased scale or block exponent, −127 when there is none (R54, R99). -/
def scanMax (l : List Scale) : Int := (maxInt (l.filterMap id)).getD (-127)

/-- Rows of the activation operand with their K-blocks: (fold, row, block). -/
def scanABlocks (c : Comp) : List (Nat × Nat × Nat) :=
  (rangeFrom 0 c.fEff).flatMap (fun f => (rangeFrom 0 (c.mAt f)).flatMap (fun m =>
    (rangeFrom 0 (ceilDiv (c.kAt f) 32)).map (fun b => (f, m, b))))
/-- Columns of the weight operand with their K-blocks: (fold, column, block). -/
def scanWBlocks (c : Comp) : List (Nat × Nat × Nat) :=
  (rangeFrom 0 c.fEff).flatMap (fun f => (rangeFrom 0 (c.nAt f)).flatMap (fun n =>
    (rangeFrom 0 (ceilDiv (c.kAt f) 32)).map (fun b => (f, n, b))))

/-- The scale or exponent of an activation block (R54, R97, R153, R483). -/
def scanAScale (s : State) (p : Nat) (c : Comp) (x : Nat × Nat × Nat) : Scale :=
  if scanReadsA p then
    (deliverABlock (memRd s) (proNorm (memRd s) p) p c.desc x.1 x.2.1 x.2.1 (c.kAt x.1) x.2.2).bind (·.expOf (scanReadsW p))
  else (aScaleCode (memRd s) c.desc (fmtD (cFmtA p)) x.1 x.2.1 x.2.2).bind scaleOf

/-- The scale or exponent of a weight block (R54, R97, R483). -/
def scanWScale (s : State) (p : Nat) (c : Comp) (x : Nat × Nat × Nat) : Scale :=
  if scanReadsW p then (deliverWBlock (memRd s) p c.desc x.1 x.2.1 (c.kAt x.1) x.2.2).bind (·.expOf true)
  else (wScaleCode (memRd s) c.desc (fmtD (cFmtW p)) x.1 x.2.2 x.2.1).bind scaleOf

/-- The record of a scan, VALID set, AGREED_SRC 0 (R54, R57, R99). Under a prologue other than pass-through no scale as delivered is
0xFF (R154), so NAN_SCALE_A is 0 (log 17). -/
def scanRecord (s : State) (p : Nat) (c : Comp) : Nat :=
  let rd := memRd s
  let fa := cFmtA p
  let fw := cFmtW p
  let sa := scanMax ((scanABlocks c).map (scanAScale s p c))
  let sb := scanMax ((scanWBlocks c).map (scanWScale s p c))
  let nanA := passThrough p && (scanABlocks c).any (fun x => aScaleCode rd c.desc (fmtD fa) x.1 x.2.1 x.2.2 == some 255)
  let nanB := (scanWBlocks c).any (fun x => wScaleCode rd c.desc (fmtD fw) x.1 x.2.2 x.2.1 == some 255)
  putBits (ofSigned sa 16) 16 0 + putBits (ofSigned sb 16) 16 16
    + putBits (ofSigned (scanAnchor sa sb (fmtD fa) (fmtD fw)) 16) 16 32 + putBits fa 4 48 + putBits fw 4 52
    + putBits (bit nanA) 1 56 + putBits (bit nanB) 1 57 + putBits 1 1 63

/-- The record written with one 8-byte write (R57). -/
def State.writeScan (s : State) (k : Key) (p : Nat) (c : Comp) : State :=
  match outputFault s (cScanAddr p) 8 with
  | some e => s.engHalt k e
  | none => s.store (cScanAddr p) (natLe (scanRecord s p c) 8)

/-- SCALE_SCAN (R54, R57, R99, R284). -/
def execScaleScan (q : QIx) (s : State) : Host.Outcome State Fault Refusal :=
  .next (withPacket s q (· == 0x16) (fun s p pktA pos =>
    match prepare s q pktA 0x16 p with
    | .error e => s.replyNow q pos p [e]
    | .ok c =>
      let n := (scanGranules (scanSpans p c)).length
      let s := s.startEng q pos p (Eng.start n (some c))
      if n = 0 then (s.writeScan (q.val, pos) p c).engSettle (q.val, pos) else s))

/-- A granule of a scan read; the last one forms the record (R57, R284). -/
def State.scanGranule (s : State) (k : Key) (p : Nat) (e : Eng) (c : Comp) (g : Nat) : State :=
  let l := scanSpans p c
  match scanFault s l ((scanGranules l).getD g 0) with
  | some x => s.engReadFails k x
  | none =>
    if (e.doneBits.set g true).all id then ((s.onEng k (fun e => { e with doneBits := e.doneBits.set g true })).writeScan k p c).engSettle k
    else s.granuleDone k g

/-! COPY and FILL. -/

/-- Field checks of COPY and FILL (R282, R283, R472). -/
def copyChecks (copy : Bool) (p : Nat) : List (Bool × Nat) :=
  let a := gSrc p
  let b := gDst p
  let n := gLen p
  (if copy then [(!isMult a 2048, 8), (regionOf a == .far, 8), (decide (a < b + n ∧ b < a + n) && n != 0, 16)] else [])
    ++ [(!isMult b 2048, 16), (regionOf b == .far, 16), (regionOf b == .near && hitsBlockRegion b n, 16), (!isMult n 2048, 24)]

/-- The first byte of a range outside the valid part of its region (R486). -/
def rangeBad (s : State) (a n : Nat) : List Cond := ((badByte s a n).map (fun x => (⟨.memoryUnrecoverable, x⟩ : Cond))).toList

/-- Dispatch of a copying command: checks, ranges against the map, far presence, then granules (R282, R283, R354, R486). With no
far tier an aperture range has no valid part, and R354 alone judges it (log 18). -/
def State.copyStart (s : State) (q pos p pktA : Nat) (checks : List (Bool × Nat)) (ranges : List Nat) (far : Bool) : State :=
  let n := gLen p
  match firstFail checks with
  | some o => s.replyNow q pos p (pktBad pktA o)
  | none =>
    if n = 0 then s.replyNow q pos p []
    else match (ranges.filter (fun a => !(far && farAbsent s && regionOf a == .far))).flatMap (fun a => rangeBad s a n) with
      | c :: _ => s.replyNow q pos p [c]
      | [] =>
        if far && farAbsent s then s.replyNow q pos p [⟨.farTierAbsent, 0⟩]
        else s.startEng q pos p (Eng.start (n / 2048) none)

/-- COPY (R283). -/
def execCopy (q : QIx) (s : State) : Host.Outcome State Fault Refusal :=
  .next (withPacket s q (· == 0x18) (fun s p pktA pos => s.copyStart q pos p pktA (copyChecks true p) [gSrc p, gDst p] false))

/-- FILL (R283). -/
def execFill (q : QIx) (s : State) : Host.Outcome State Fault Refusal :=
  .next (withPacket s q (· == 0x19) (fun s p pktA pos => s.copyStart q pos p pktA (copyChecks false p) [gDst p] false))

/-- A 2 KiB request to the host aperture for granule `g` (R455, R457). -/
def State.hostGranule (s : State) (k : Key) (g a : Nat) (write : Bool) (data : List Byte) : State :=
  let s := s.onPort (fun x => { x with hout := s.port.hout ++ [(⟨some k, a, write, data, 2048⟩ : OutReq)] })
  s.onEng k (fun e => { e with awaiting := e.awaiting ++ [(g, write)] })

/-- The bytes of a granule written at the destination: near memory at once, the host aperture by a request (R283, R457, R486). -/
def State.putGranule (s : State) (k : Key) (g b : Nat) (data : List Byte) : State :=
  if regionOf b = .host then s.hostGranule k g b true data
  else match outputFault s b 2048 with
    | some e => s.engHalt k e
    | none => (s.store b data).granuleDone k g

/-- A granule of COPY: its bytes read and written (R283, R406, R486). -/
def State.copyGranule (s : State) (k : Key) (p g : Nat) : State :=
  let a := gSrc p + 2048 * g
  if regionOf a = .host then s.hostGranule k g a false []
  else match accessFault s a 2048 with
    | some e => s.engReadFails k e
    | none => s.putGranule k g (gDst p + 2048 * g) (s.readBytes a 2048)

/-- PATTERN repeated over a granule (R283). -/
def patternBytes (p : Nat) : List Byte := (List.replicate 128 (natLe (gPattern p) 16)).flatten

/-- Granules of a context's engine commands complete: while it is ACTIVE, and up to stage 4 of its disable those already issued
(R308; log 75). -/
def granulesRun (s : State) (n : Nat) : Bool := (s.ctx n).mode == .active || decide (1 ≤ (s.ctx n).stage ∧ (s.ctx n).stage ≤ 3)

/-- An engine may complete granule `g` of the command: engines powered and present, the granule neither done nor out (R284, R308,
R428). -/
def granuleOpen (s : State) (k : Key) (e : Eng) (g : Nat) : Bool :=
  unitsRun s && granulesRun s (ctxOf k.1) && decide (0 < arraysIn s) && !e.halted && !e.isDone g
    && !e.awaiting.any (fun x => x.1 == g)

/-- The write of a granule of COPY or FILL waits for the cellar (R339, R340). -/
def granuleWaits (s : State) (k : Key) (p g : Nat) : Bool :=
  (pOp p == 0x18 || pOp p == 0x19) && regionOf (gDst p) == .near && s.writeWaits (some (ctxOf k.1)) [(gDst p + 2048 * g, 2048)]

/-- A prefetch engine completes a granule of SCALE_SCAN, COPY or FILL, or hands it to the host port (R284). -/
def execGranuleComplete (q : QIx) (pos granule : Nat) (s : State) : Host.Outcome State Fault Refusal :=
  let k : Key := (q.val, pos)
  .next (match s.cmd? k with
    | none => s
    | some c => match c.eng? with
      | none => s
      | some e =>
        if c.ended || !granuleOpen s k e granule || granuleWaits s k c.pkt granule then s
        else match pOp c.pkt, e.comp with
          | 0x16, some x => s.scanGranule k c.pkt e x granule
          | 0x18, _ => s.copyGranule k c.pkt granule
          | 0x19, _ => s.putGranule k granule (gDst c.pkt + 2048 * granule) (patternBytes c.pkt)
          | _, _ => s)

/-- The answer to a host request of an engine command (R457): any code but OK ends the command with the request's address. -/
def State.engAnswer (s : State) (k : Key) (r : OutReq) (ok : Bool) (data : List Byte) : State :=
  match (s.cmd? k).bind Cmd.eng? with
  | none => s
  | some e => match e.awaiting with
    | [] => s
    | (g, write) :: rest =>
      let s := s.onEng k (fun e => { e with awaiting := rest })
      if !ok then s.engHalt k ⟨.memoryUnrecoverable, r.addr⟩
      else if write then s.granuleDone k g
      else match s.cmd? k with
        | none => s
        | some c => s.putGranule k g (gDst c.pkt + 2048 * g) data

/-! SPILL and RELOAD. -/

/-- Field checks of SPILL (R282, R348). -/
def spillChecks (p : Nat) : List (Bool × Nat) :=
  [ (!isMult (gSrc p) 2048 || regionOf (gSrc p) != .near, 8), (!isMult (gDst p) 2048 || regionOf (gDst p) != .far, 16),
    (!isMult (gLen p) 2048, 24) ]

/-- Field checks of RELOAD (R282, R472). -/
def reloadChecks (p : Nat) : List (Bool × Nat) :=
  [ (!isMult (gSrc p) 2048 || regionOf (gSrc p) != .far, 8),
    (!isMult (gDst p) 2048 || regionOf (gDst p) != .near || hitsBlockRegion (gDst p) (gLen p), 16), (!isMult (gLen p) 2048, 24) ]

/-- The aperture address of a far granule. -/
def farGranule (p g : Nat) : Nat := (if pOp p = 0x28 then gDst p else gSrc p) + 2048 * g

/-- A SPILL covers extent `i` whole (R348). -/
def coversWhole (p i : Nat) : Bool :=
  decide (gDst p ≤ farBase + i * 0x100000) && decide (farBase + (i + 1) * 0x100000 ≤ gDst p + gLen p)

/-- The extent is open in another SPILL: two of them unordered write the one place, granule by granule (R349; log 82). -/
def openElsewhere (s : State) (k : Key) (i : Nat) : Option SpillExt :=
  s.cp.cmds.findSome? (fun c => if c.key == k || c.ended then none else match c.eng? with
    | some e => e.cur.bind (fun x => if x.idx = i then some x else none)
    | none => none)

/-- A whole extent placed afresh: the map names the new place, which holds the old contents until they are rewritten; the old
place stays until every granule has completed (R346, R348, R355). -/
def State.placeWhole (s : State) (k : Key) (i : Nat) : State :=
  if let some x := openElsewhere s k i then s.onEng k (fun e => { e with cur := some ⟨i, true, x.port, x.place, none⟩ })
  else match choosePlace s none with
  | none => s.engHalt k ⟨.farTierWorn, leastLife s⟩
  | some (port, place) =>
    let old := match s.extent? i with
      | some e => if e.lost.isNone then some (e.port, e.place) else none
      | none => none
    let s := match old with
      | some px => (s.farCopy px.1 px.2 port place).onFar (fun f => { f with pendingFree := px :: f.pendingFree })
      | none => s.farErase port place
    (s.placeExtent i port place).onEng k (fun e => { e with cur := some ⟨i, true, port, place, old⟩ })

/-- A module's WORN bit (R353). -/
def wornAt (s : State) (port : Nat) : Bool := (wearAt s port).worn

/-- A partly covered extent written in place; an unplaced one gets a place first (R348, R353, R355). -/
def State.placePart (s : State) (k : Key) (i : Nat) : State :=
  match s.extent? i with
  | none => match choosePlace s none with
    | none => s.engHalt k ⟨.farTierWorn, leastLife s⟩
    | some (port, place) =>
      ((s.farErase port place).placeExtent i port place).onEng k (fun e => { e with cur := some ⟨i, false, port, place, none⟩ })
  | some e => match e.lost with
    | some serial => s.engHalt k ⟨.farTierAbsent, serial⟩
    | none =>
      if wornAt s e.port then s.engHalt k ⟨.farTierWorn, serialAt s e.port⟩
      else s.onEng k (fun x => { x with cur := some ⟨i, false, e.port, e.place, none⟩ })

/-- The next extent of a SPILL opened (R348). -/
def State.openExtent (s : State) (k : Key) : State :=
  match s.cmd? k with
  | none => s
  | some c => match c.eng? with
    | none => s
    | some e => match e.nextGranule with
      | none => s.engSettle k
      | some g =>
        let i := extentIdx (farGranule c.pkt g)
        if coversWhole c.pkt i then s.placeWhole k i else s.placePart k i

/-- A granule of RELOAD written to near memory. -/
def State.reloadGranule (s : State) (k : Key) (p g : Nat) : State :=
  match outputFault s (gDst p + 2048 * g) 2048 with
  | some e => s.engHalt k e
  | none => (s.store (gDst p + 2048 * g) (s.bytesAt (farGranule p g) 2048)).granuleDone k g

/-- Granule `g` of RELOAD without a read, and whether it is done: an unplaced extent reads zeros, a LOST one ends the command
(R346, R355). -/
def State.reloadZero (s : State) (k : Key) (p g : Nat) (lost : Option Cond) : State × Bool :=
  match lost with
  | some x => (s.engHalt k x, false)
  | none => if (s.extent? (extentIdx (farGranule p g))).isSome then (s, false) else (s.reloadGranule k p g, true)

/-- The next granule of RELOAD, and whether it needed no read. -/
def State.reloadNext (s : State) (k : Key) : State × Bool :=
  match s.cmd? k with
  | none => (s, false)
  | some c => match c.eng? with
    | none => (s, false)
    | some e => if e.halted then (s, false) else match e.nextGranule with
      | none => (s.engSettle k, false)
      | some g => s.reloadZero k c.pkt g (farLost s (farGranule c.pkt g) 2048)

/-- RELOAD goes over granules that need no read. -/
def State.reloadOn : Nat → Key → State → State
  | 0, _, s => s
  | n + 1, k, s => match s.reloadNext k with
    | (s, true) => State.reloadOn n k s
    | (s, false) => s

/-- SPILL (R347-R349, R353-R355). -/
def execSpill (q : QIx) (s : State) : Host.Outcome State Fault Refusal :=
  .next (withPacket s q (· == 0x28) (fun s p pktA pos =>
    (s.copyStart q pos p pktA (spillChecks p) [gSrc p, gDst p] true).openExtent (q.val, pos)))

/-- RELOAD (R347, R353-R355). -/
def execReload (q : QIx) (s : State) : Host.Outcome State Fault Refusal :=
  .next (withPacket s q (· == 0x29) (fun s p pktA pos =>
    let s := s.copyStart q pos p pktA (reloadChecks p) [gSrc p, gDst p] true
    s.reloadOn (gLen p / 2048 + 1) (q.val, pos)))

/-- A granule of an engine command is answered: its context's granules complete and the command has not halted, or part of it has
been answered already (R308; log 75). -/
def farSends (s : State) (k : Key) (e : Eng) (g : Nat) : Bool :=
  unitsRun s && ((granulesRun s (ctxOf k.1) && !e.halted) || (aget e.cmps g).isSome)

/-- One Cmp of a SPILL granule: 64 bytes are on the module (R350, R463). -/
def State.spillCmp (s : State) (k : Key) (c : Cmd) (e : Eng) (g : Nat) : State :=
  match e.cur with
  | none => s
  | some x =>
    let n := (aget e.cmps g).getD 0
    if extentIdx (farGranule c.pkt g) ≠ x.idx || e.isDone g || !farSends s k e g || decide (32 ≤ n) then s
    else (s.onEng k (fun e => { e with cmps := aput e.cmps g (n + 1) })).addWear (serialAt s x.port) 1

/-- One MemData of a RELOAD granule of which `n` are in; the 32nd completes it; a LOST extent ends the command (R355, R406, R463). -/
def State.reloadData (s : State) (k : Key) (c : Cmd) (e : Eng) (g n : Nat) (poison : Bool) : State :=
  if e.nextGranule ≠ some g || !farSends s k e g then s
  else if let some x := farLost s (farGranule c.pkt g) 2048 then (s.onEng k (fun e => { e with cmps := [] })).engHalt k x
  else if poison then
    (s.onEng k (fun e => { e with cmps := [] })).engReadFails k ⟨.memoryUnrecoverable, farGranule c.pkt g + 64 * n⟩
  else if n < 31 then s.onEng k (fun e => { e with cmps := aput e.cmps g (n + 1) })
  else
    let s := (s.onEng k (fun e => { e with cmps := [] })).reloadGranule k c.pkt g
    if (s.ctx (ctxOf k.1)).mode = .active then s.reloadOn e.granules k else s

/-- A Cmp or MemData arrives (R463). Poisoned data of a compute command ends it with the aperture address of the 64-byte request
`granule` (R406); good data of one is used at PREFETCH_READ_RETURN. -/
def execCxlResponse (q : QIx) (pos granule : Nat) (r : CxlResp) (s : State) : Host.Outcome State Fault Refusal :=
  let k : Key := (q.val, pos)
  .next (match s.cmd? k with
    | none => s
    | some c => if c.ended then s else match c.body, r with
      | .engine e, .cmp => if pOp c.pkt = 0x28 then s.spillCmp k c e granule else s
      | .engine e, .memData poison =>
        if pOp c.pkt = 0x29 then s.reloadData k c e granule ((aget e.cmps granule).getD 0) poison
        else if poison && e.comp.isSome && unitsRun s && !e.halted then
          s.engReadFails k ⟨.memoryUnrecoverable, farBase + 64 * granule⟩
        else s
      | .compute _, .memData true =>
        if !unitsRun s || c.cut then s
        else
          let x : Cond := ⟨.memoryUnrecoverable, farBase + 64 * granule⟩
          (s.logLost x (ctxOf k.1) c.ticket).cutCmd k x
      | _, _ => s)

/-- A granule of a SPILL has its 32 completions: its bytes are on the module; the last of an extent frees the old place, and the
next extent is opened (R348, R349, R353). -/
def State.spillDone (s : State) (k : Key) (c : Cmd) (e : Eng) (x : SpillExt) (g : Nat) : State :=
  let s := s.onEng k (fun e => { e with cmps := adel e.cmps g })
  match accessFault s (gSrc c.pkt + 2048 * g) 2048 with
  | some f => s.engReadFails k f
  | none =>
    let s := s.farWrite x.port x.place ((farGranule c.pkt g - farBase) % 0x100000) (s.readBytes (gSrc c.pkt + 2048 * g) 2048)
    let s := s.granuleDone k g
    let inExt := (rangeFrom 0 e.granules).filter (fun j => extentIdx (farGranule c.pkt j) == x.idx)
    if inExt.all (fun j => j == g || e.isDone j) then
      let s := match x.old with | some (p, y) => s.freePlace p y | none => s
      let s := s.onEng k (fun e => { e with cur := none })
      if (s.ctx (ctxOf k.1)).mode = .active && !e.halted then s.openExtent k else s
    else if !x.whole && wornAt s x.port && !e.halted then s.engHalt k ⟨.farTierWorn, serialAt s x.port⟩
    else s

/-- A far-tier write completes (R348, R349). -/
def execFarWriteComplete (q : QIx) (pos granule : Nat) (s : State) : Host.Outcome State Fault Refusal :=
  let k : Key := (q.val, pos)
  .next (match s.cmd? k with
    | none => s
    | some c => match c.eng? with
      | none => s
      | some e => match e.cur with
        | none => s
        | some x =>
          if c.ended || !unitsRun s || aget e.cmps granule ≠ some 32 || pOp c.pkt ≠ 0x28 then s
          else s.spillDone k c e x granule)

end Sys2Proof.Machine
end

