-- ==== Sys2Proof/Machine/Chain.lean ====
section
/-! DEFINITION. The epilogue of one row: chain operations, statistics terms, rounding into an output stream, and the content
checksum (R83-R95, R173, R183-R203, R242, R370). -/
namespace Sys2Proof.Machine

/-- A value in the chain: on the long-word path, or in chain float (R186). -/
inductive CVal where
  | long (w : LW)
  | cf (x : CF)
  deriving DecidableEq, Repr, Inhabited

/-- The value in chain float (R180, R186). -/
def CVal.toCf (v : CVal) (A : Int) : CF := match v with | .long w => cfOfLong w A | .cf x => x
/-- The exact value (R83). -/
def CVal.xv (v : CVal) (A : Int) : XV := match v with | .long w => lwXv w A | .cf x => x.xv
/-- The 128-bit code that enters the checksum (R173). -/
def CVal.code (v : CVal) : Nat := match v with | .long w => lwCode w | .cf x => cfCode x

/-- An element in the chain: its present value, clips of its addends, and what SAVE and STAT tapped (R184). -/
structure ChainSt where
  v : CVal
  clips : Nat
  save : Option CVal
  stat : Option CVal
  deriving DecidableEq, Repr, Inhabited

/-- An input stream's element in chain float: a LONG one at its anchor (R186). -/
def streamCf (w code : Nat) : CF :=
  if stFmt w = 9 then cfOfLong (lwDecode code) (stAnchor w) else cfOfXv (decodeElem (fmtD (stFmt w)) code)

/-- RELU on the long-word path (R186). -/
def lwRelu (w : LW) : LW :=
  match w.cls with
  | .finite => if w.val.toInt < 0 then lwZero else w
  | .negInf => lwZero
  | _ => w

/-- One operation (R184, R186). `strm i` is the code of input stream i at the element; `nr` the row's normalisation. -/
def chainStep (p : Nat) (A : Int) (strm : Nat → Nat) (nr : NormRow) (st : ChainSt) (op : Nat × Nat) : ChainSt :=
  let w := streamWord p op.2
  match op.1 with
  | 1 => match st.v with
    | .long x =>
      if stFmt w = 9 then { st with v := .long (lwAdd x (lwDecode (strm op.2))) }
      else
        let t := gridTerm (decodeElem (fmtD (stFmt w)) (strm op.2)) A
        { st with v := .long (lwAdd x t.1), clips := st.clips + bit t.2 }
    | .cf x => { st with v := .cf (cfAdd x (streamCf w (strm op.2))) }
  | 2 => { st with v := .cf (cfMul (st.v.toCf A) (streamCf w (strm op.2))) }
  | 3 => { st with v := .cf (cfMul (st.v.toCf A) (cfOfFp32 (mulcK p))) }
  | 4 => match st.v, op.2 with
    | .long x, 1 => { st with v := .long (lwRelu x) }
    | v, a => { st with v := .cf (actFn a (cfOfFp32 (chainSlope p)) (v.toCf A)) }
  | 5 => { st with save := some st.v }
  | 6 => { st with stat := some st.v }
  | 7 => { st with v := .cf (normApply op.2 nr (st.v.toCf A)) }
  | _ => st

/-- Operations run on an element in order (R184). -/
def runChain (p : Nat) (A : Int) (ops : List (Nat × Nat)) (strm : Nat → Nat) (nr : NormRow) (v : CVal) : ChainSt :=
  ops.foldl (chainStep p A strm nr) ⟨v, 0, none, none⟩

/-- The operations before ROWFIN (R198). -/
def opsBefore (p : Nat) : List (Nat × Nat) := (chainOps p).takeWhile (fun o => o.1 != 7)
/-- The row function of the chain (R184). -/
def rowFin (p : Nat) : Nat := (((chainOps p).find? (fun o => o.1 == 7)).map (·.2)).getD 0
/-- The ARG of STAT (R184). -/
def statArg (p : Nat) : Nat := (((chainOps p).find? (fun o => o.1 == 6)).map (·.2)).getD 0

/-! Row statistics (R194, R199). -/

/-- Terms of a row: SUM, SUMSQ, MAX, N_ELEM, and clips. -/
structure StatTerms where
  sum : LW
  sumsq : LW
  mx : CF
  n : Nat
  clips : Nat
  deriving DecidableEq, Repr, Inhabited

/-- No terms: the contents of an initialised record (R195). -/
def StatTerms.zero : StatTerms := ⟨lwZero, lwZero, cfOfCls .negInf, 0, 0⟩

/-- x² of a finite value, exactly; NAN for NAN and POS_INF for an infinity (R194). -/
def xvSquare (x : XV) : XV :=
  match x.cls with
  | .finite => ⟨.finite, false, x.m * x.m, 2 * x.e⟩
  | .nan => xvNan
  | _ => xvOfCls .posInf

/-- One element entered (R194): ARG bit 0 SUM and SUMSQ, bit 1 MAX. -/
def StatTerms.enter (t : StatTerms) (arg : Nat) (aS aQ A : Int) (v : CVal) : StatTerms :=
  let x := v.xv A
  let s := gridTerm x aS
  let q := gridTerm (xvSquare x) aQ
  let t := { t with n := t.n + 1 }
  let t := if bitOf arg 0 then
      { t with sum := lwAdd t.sum s.1, sumsq := lwAdd t.sumsq q.1, clips := t.clips + bit s.2 + bit q.2 } else t
  if bitOf arg 1 then { t with mx := cfMax t.mx (v.toCf A) } else t

/-- A softmax denominator term and whether it clips (R199). -/
def denomTerm (x mx : CF) : LW × Bool := gridTerm (cfExp (cfSub x mx)).xv (-92)

/-! Rounded output streams (R42, R83-R94, R189, R484). -/

/-- How a stream is rounded: format, modes, and the inputs of its draws (R87, R88). -/
structure Stream where
  fmt : Fmt
  mode : RoundMode
  ieee : Bool
  seed : Nat
  tag : Nat
  step : Nat
  deriving DecidableEq, Repr

/-- What a row of a stream is written as: element codes, block scales, and the counts of its elements. -/
structure Coded where
  codes : List Nat
  scales : List Nat
  counts : Counts
  deriving DecidableEq, Repr

/-- What an element adds to the counters (R94). -/
def Tally.counts : Tally → Counts
  | .none => Counts.zero
  | .sat => { Counts.zero with sat := 1 }
  | .lost => { Counts.zero with lost := 1 }
  | .uflow => { Counts.zero with uflow := 1 }

/-- Counts of rounded elements. -/
def tallySum (l : List Rounded) : Counts := l.foldl (fun c r => c.add r.tally.counts) Counts.zero

/-- Pieces of a list of 32 each. -/
def blocksOf {α : Type} (n : Nat) (l : List α) : List (List α) := (rangeFrom 0 (ceilDiv n 32)).map (fun b => (l.drop (32 * b)).take 32)

/-- The values of a row rounded into a stream, from output row `row` and column `col` on (R42, R83, R91). -/
def encodeRow (st : Stream) (A : Int) (row col : Nat) (vs : List CVal) : Coded :=
  if st.fmt = .long then ⟨vs.map CVal.code, [], Counts.zero⟩
  else
    let u := fun j => if st.mode = .stoch then srBits st.seed st.tag row (col + j) st.step else 0
    if st.fmt.hasScale then
      let n := ceilDiv vs.length 32 * 32
      let xs := vs.map (·.xv A) ++ List.replicate (n - vs.length) xvZero
      let bs := (blocksOf n (xs.zipIdx)).map (fun b => roundBlock st.fmt st.mode st.ieee (b.map (fun x => (x.1, u x.2))))
      ⟨bs.flatMap (fun b => b.2.map (·.code)), bs.map (·.1), tallySum (bs.flatMap (·.2))⟩
    else
      let l := (vs.zipIdx).map (fun x => roundElem st.fmt st.mode st.ieee (u x.2) .counted true (x.1.xv A))
      ⟨l.map (·.code), [], tallySum l⟩

/-- Element codes packed from a row's start (R33, R47). -/
def packRow (f : Fmt) (codes : List Nat) : List Byte :=
  natLe ((codes.zipIdx).foldl (fun n x => n + (x.1 % 2 ^ f.bits) <<< (f.bits * x.2)) 0) (runBytes f codes.length)

/-- Scale bytes. -/
def scaleBytes (l : List Nat) : List Byte := l.map (BitVec.ofNat 8)

/-- The checksum term of element j's code in a stream; LONG streams add none (R173). -/
def Coded.sumTerm (c : Coded) (f : Fmt) (j : Nat) : Option Nat :=
  if f = .long then none
  else some (c.codes.getD j 0 + (if f.hasScale then c.scales.getD (j / 32) 0 <<< 32 else 0))

/-- The checksum of one element (R173). -/
def elemSum (i j y : Nat) (terms : List Nat) : Word :=
  let h := mix64 (BitVec.ofNat 64 (i * 256 + j))
  let h := mix64 (h ^^^ BitVec.ofNat 64 y)
  let h := mix64 (h ^^^ BitVec.ofNat 64 (y / 2 ^ 64))
  terms.foldl (fun h t => mix64 (h ^^^ BitVec.ofNat 64 t)) h

/-- The checksum of a row of starting values with its rounded streams (R173). -/
def rowSum (i : Nat) (ys : List Nat) (streams : List (Fmt × Coded)) : Word :=
  (ys.zipIdx).foldl (fun s y => s + elemSum i y.2 y.1 (streams.filterMap (fun st => st.2.sumTerm st.1 y.2))) 0

end Sys2Proof.Machine
end

