-- ==== Sys2Proof/Machine/Frames.lean ====
section
/-! DEFINITION. Frame commands and the hops: FRAME_SEND, FRAME_RECV, FRAME_COMBINE, MAX_EXCHANGE, frames that arrive, their
acknowledgement, resend and SYNC (R357-R379). -/
namespace Sys2Proof.Machine

def fsType (p : Nat) : Nat := bitsOf p 67 64
def fsAnchor (p : Nat) : Nat := bitsOf p 111 96
def fsSrc (p : Nat) : Nat := bitsOf p 175 128
def fsCount (p : Nat) : Nat := bitsOf p 207 176
def fsLayer (p : Nat) : Nat := bitsOf p 223 208
def fsPeer (p : Nat) : Nat := bitsOf p 231 224
def fsScaleSrc (p : Nat) : Nat := bitsOf p 287 240
def fsTile (p : Nat) : Nat := bitsOf p 319 288
def frTimeout (p : Nat) : Nat := bitsOf p 255 224
def mxLocal (p : Nat) : Nat := bitsOf p 111 64
def mxGroup (p : Nat) : Nat := bitsOf p 207 192
def mxParts (p : Nat) : Nat := bitsOf p 223 208

/-- The exchange engine runs: the block is in service and powered (R428, R443). -/
def xchRuns (s : State) : Bool := unitsRun s && (s.blk.mode == .ready || s.blk.mode == .quiesced)

/-- A frame command in flight (R273, R391). -/
def State.startFrm (s : State) (q pos p : Nat) (f : Frm) : State :=
  s.launchCmd { Cmd.read q pos p (s.ctx (ctxOf q)).step (.frame f) with dispatched := true } false

/-! FRAME_SEND. -/

/-- Elements (bytes, for MAX) of a frame of FRAME_SEND (R371). -/
def fsPer (p : Nat) : Nat := if fsType p = 2 then 4096 else 256
/-- Data frames of a FRAME_SEND (R371). -/
def fsFrames (p : Nat) : Nat := ceilDiv (fsCount p) (fsPer p)
/-- Elements of frame `i` (R371). -/
def fsElems (p i : Nat) : Nat := min (fsPer p) (fsCount p - fsPer p * i)
/-- Source address and bytes of frame `i` (R371). -/
def fsSpan (p i : Nat) : Nat × Nat :=
  let w := if fsType p = 2 then 1 else 16
  (a48 (fsSrc p + w * fsPer p * i), w * fsElems p i)

/-- Field checks of FRAME_SEND (R47, R357, R358, R371). -/
def sendChecks (s : State) (p : Nat) : List (Bool × Nat) :=
  [ (noOutbound s, 0), (decide (2 < fsType p), 8), (decide (fsType p < 2) && !isMult (fsSrc p) 16, 16), (decide (8 < fsPeer p), 28),
    (fsType p == 1 && !isMult (fsScaleSrc p) 8, 30), (fsType p == 1 && !isMult (fsTile p) 32, 36) ]

/-- A long word rounded to GRAD16 under agreed scale `sc`: RNE onto 2^(sc − 127 − 14), saturated, special codes of R84 (R371). -/
def gradCode (A : Int) (sc : Nat) (w : Nat) : Nat :=
  (roundElem .grad16 .rne false 0 .quiet false ((lwXv (lwDecode w) A).scale (-((sc : Int) - 127)))).code

/-- The agreed scales of the blocks of frame `i` (R371, R381). -/
def agreedScales (s : State) (p i : Nat) : List Nat :=
  (rangeFrom (8 * i) (ceilDiv (fsElems p i) 32)).map (fun b => leNat (s.bytesAt (a48 (fsScaleSrc p + 8 * b)) 1))

/-- Payload of frame `i` (R363, R371). -/
def fsPayload (s : State) (p i : Nat) : List Byte :=
  let x := fsSpan p i
  let bytes := s.bytesAt x.1 x.2
  if fsType p = 1 then
    let sc := agreedScales s p i
    let A := toSigned (fsAnchor p) 16
    ((rangeFrom 0 (fsElems p i)).flatMap (fun e => natLe (gradCode A (sc.getD (e / 32) 0) (payloadLong bytes e)) 2))
      ++ sc.map (BitVec.ofNat 8)
  else bytes

/-- What stands in the way of reading frame `i`'s source (R225, R406). -/
def fsFault (s : State) (p i : Nat) : Option Cond :=
  let x := fsSpan p i
  match accessFault s x.1 x.2 with
  | some e => some e
  | none =>
    if fsType p = 1 then
      (rangeFrom (8 * i) (ceilDiv (fsElems p i) 32)).findSome? (fun b => accessFault s (a48 (fsScaleSrc p + 8 * b)) 8)
    else none

/-- The header of frame `i` (R361, R371). -/
def fsHdr (c : Cmd) (i : Nat) : Hdr :=
  let p := c.pkt
  { typ := fsType p, ctx := ctxOf c.q, layer := fsLayer p, step := c.step, anchor := if fsType p = 2 then 0 else fsAnchor p,
    dst := fsPeer p, tileN := fsTile p + fsPer p * i, elems := fsElems p i, sub := if fsType p = 2 then 1 else 0 }

/-- FRAME_SEND ends: its END goes out when it sent a frame (R372). -/
def State.endSend (s : State) (k : Key) (conds : List Cond) : State :=
  let s := s.onCmd k (fun c => { c with ended := true, conds := c.conds ++ conds })
  match s.cmd? k with
  | none => s
  | some c => match c.frm? with
    | none => s
    | some f => if f.next = 0 then s else s.txEnd c (fsPeer c.pkt) f.next 0

/-- The next frame of FRAME_SEND released, if the send buffer, or for a frame to the block's own position the context's share, has
room (R364, R367, R371; log 81): whether another may follow. -/
def State.sendOne (s : State) (k : Key) : State × Bool :=
  match s.cmd? k with
  | none => (s, false)
  | some c => match c.frm? with
    | none => (s, false)
    | some f =>
      if c.ended then (s, false)
      else if f.next ≥ fsFrames c.pkt then (s.endSend k [], false)
      else match fsFault s c.pkt f.next with
        | some e => ((s.logLost e (ctxOf k.1) none).endSend k [e], false)
        | none =>
          let pay := fsPayload s c.pkt f.next
          let own := fsPeer c.pkt = ownPos s
          if ¬own ∧ sendBytes s + 64 + (pad64 pay).length > sendLimit then (s, false)
          else
            let t := (s.onCmd k (fun c => c.onFrm (fun x => { x with
              next := x.next + 1, accepted := if own then x.accepted + 1 else x.accepted }))).sendFrame (fsHdr c f.next) pay (some k)
            if own ∧ shareLimit < shareBytes t (ctxOf k.1) then (s, false) else (t, true)

/-- FRAME_SEND releases frames while the send buffer has room. -/
def State.sendOn : Nat → Key → State → State
  | 0, _, s => s
  | n + 1, k, s => match s.sendOne k with
    | (s, true) => State.sendOn n k s
    | (s, false) => s

/-- Every FRAME_SEND in flight goes on as room is freed (R364). -/
def State.sendAll (s : State) : State :=
  (s.cp.cmds.filter (fun c => pOp c.pkt == 0x20 && !c.ended && (s.ctx (ctxOf c.q)).mode == .active)).foldl
    (fun s c => s.sendOn (fsFrames c.pkt + 1) c.key) s

/-- FRAME_SEND (R371-R373). -/
def execFrameSend (q : QIx) (s : State) : Host.Outcome State Fault Refusal :=
  .next (withPacket s q (· == 0x20) (fun s p pktA pos =>
    match firstFail (sendChecks s p) with
    | some o => s.replyNow q pos p (pktBad pktA o)
    | none => (s.startFrm q pos p ⟨fsFrames p, 0, 0, 0, 0, 0, 0⟩).sendOn (fsFrames p + 1) (q.val, pos)))

/-! Receivers. -/

/-- The strap checks of a receiver (R357, R439, R462). -/
def recvStraps (s : State) : Bool := noOutbound s || noInbound s

/-- A receiver in flight meets the frames held for it; one that expects none is complete, and one that would match a frame with a skew
mark ends at once (R368, R374-R378). -/
def State.beginRecv (s : State) (k : Key) : State :=
  match s.cmd? k with
  | none => s
  | some c =>
    if (c.frm?.map (·.expected)).getD 0 = 0 then s.completeFrm k
    else match (s.heldOf (ctxOf k.1)).find? (fun f => f.skew && c.matches f) with
      | some f => s.endFrm k [⟨.stepSkew, c.step + putBits (hStep f.header) 48 48⟩]
      | none => (s.matchAll (ctxOf k.1)).completeFrm k

/-- Field checks of FRAME_RECV and FRAME_COMBINE: DST lies in near memory outside the block region, aligned for the words that go
there (R47, R266, R347, R472). -/
def recvChecks (s : State) (p align : Nat) : List (Bool × Nat) :=
  let d := bitsOf p 175 128
  [ (recvStraps s, 0), (!isMult d align || regionOf d != .near || hitsBlockRegion d 1, 16) ]

/-- FRAME_RECV (R374). -/
def execFrameRecv (q : QIx) (s : State) : Host.Outcome State Fault Refusal :=
  .next (withPacket s q (· == 0x21) (fun s p pktA pos =>
    match firstFail (recvChecks s p 8) with
    | some o => s.replyNow q pos p (pktBad pktA o)
    | none => (s.startFrm q pos p ⟨fsCount p, 0, 0, 0, 0, 0, 0⟩).beginRecv (q.val, pos)))

/-- FRAME_COMBINE (R375, R378, R379). -/
def execFrameCombine (q : QIx) (s : State) : Host.Outcome State Fault Refusal :=
  .next (withPacket s q (· == 0x22) (fun s p pktA pos =>
    match firstFail (recvChecks s p 16) with
    | some o => s.replyNow q pos p (pktBad pktA o)
    | none => (s.startFrm q pos p ⟨fsCount p, 0, 0, 0, 0, 0, 0⟩).beginRecv (q.val, pos)))

/-- Field checks of MAX_EXCHANGE (R282, R347, R376, R472). -/
def maxChecks (s : State) (p : Nat) : List (Bool × Nat) :=
  let a := bitsOf p 175 128
  [ (recvStraps s, 0), (!isMult (mxLocal p) 8, 8), (!isMult a 8 || regionOf a != .near || hitsBlockRegion a 8, 16),
    (mxParts p == 0, 26) ]

/-- The payload of a MAX SCAN frame (R363): of the local record. -/
def maxPayload (w : Nat) : List Byte :=
  natLe ((bitsOf w 15 0 + 127) % 256) 1 ++ natLe ((bitsOf w 31 16 + 127) % 256) 1 ++ natLe (bitsOf w 51 48) 1
    ++ natLe (bitsOf w 55 52) 1 ++ natLe (bitsOf w 56 56) 1 ++ natLe (bitsOf w 57 57) 1 ++ [0, 0]

/-- MAX_EXCHANGE (R59, R376, R378). -/
def execMaxExchange (q : QIx) (s : State) : Host.Outcome State Fault Refusal :=
  .next (withPacket s q (· == 0x23) (fun s p pktA pos =>
    let k : Key := (q.val, pos)
    match firstFail (maxChecks s p) with
    | some o => s.replyNow q pos p (pktBad pktA o)
    | none => match nearFault s (mxLocal p) 8 with
      | some e => s.replyNow q pos p [e]
      | none =>
        let w := s.readNat (mxLocal p) 8
        if !bitOf w 63 || bitOf w 58 then s.replyNow q pos p [badField 2 (mxLocal p) 7]
        else
          let pay := maxPayload w
          let b := fun i => (pay.getD i 0).toNat
          let s := s.startFrm q pos p ⟨mxParts p - 1, 0, 1, b 0, b 1, b 2 + 16 * b 3, b 4 + 256 * b 5⟩
          let hdr : Hdr := { typ := 2, ctx := ctxOf q, layer := mxGroup p, step := (s.ctx (ctxOf q)).step, dst := 8, elems := 8 }
          (s.sendFrame hdr pay (some k)).beginRecv k))

/-- A receiver's TIMEOUT expires (R377); 0 sets no limit. -/
def execReceiverTimeout (q : QIx) (pos : Nat) (s : State) : Host.Outcome State Fault Refusal :=
  let k : Key := (q.val, pos)
  .next (match s.cmd? k with
    | none => s
    | some c => match c.frm? with
      | none => s
      | some f =>
        if c.ended || pOp c.pkt = 0x20 || frTimeout c.pkt = 0 || (s.ctx (ctxOf q)).mode != .active || !unitsRun s then s
        else s.endFrm k [⟨.frameTimeout, f.accepted + putBits f.expected 32 32⟩])

/-! Frames that arrive. -/

/-- FSEQs accepted from the window's begin on (R364). -/
def RxHop.slide : Nat → RxHop → RxHop
  | 0, r => r
  | n + 1, r =>
    if r.accepted.contains r.base then
      RxHop.slide n { r with accepted := r.accepted.filter (· != r.base), base := (r.base + 1) % 2 ^ 32 }
    else r

/-- A frame's FSEQ accepted (R364). -/
def RxHop.accept (r : RxHop) (n : Nat) : RxHop :=
  RxHop.slide (r.accepted.length + 1) { r with accepted := n :: r.accepted, unacked := r.unacked + 1 }

/-- An ACK of a hop: every frame below the window's begin is accepted (R363, R364). -/
def State.ackHop (s : State) (h : Nat) : State :=
  ((s.sendAck h ((s.rxHop h).base + 2 ^ 32 - 1) false)).onRx h (fun r => { r with unacked := 0 })

/-- An ACK after 64 frames (R364). -/
def State.ackIfDue (s : State) (h : Nat) : State := if (s.rxHop h).unacked ≥ 64 then s.ackHop h else s

/-- A numbered frame at its hop (R364, R365): discarded without an epoch, outside the window or when already accepted; otherwise
accepted, and `f` judges it. A reserved code of HOP_SRC names no hop (log 81). -/
def State.atHop (s : State) (h n : Nat) (f : State → State) : State :=
  let r := s.rxHop h
  if 8 < h then s
  else if r.epoch.isNone then
    if r.asked then s else (s.sendAck h 0 true).onRx h (fun r => { r with asked := true })
  else if (n + 2 ^ 32 - r.base) % 2 ^ 32 ≥ 4096 || r.accepted.contains n then
    -- accepted before: its acknowledgement is due again
    if (r.base + 2 ^ 32 - 1 - n) % 2 ^ 32 < 2 ^ 31 || r.accepted.contains n then
      (s.onRx h (fun r => { r with unacked := r.unacked + 1 })).ackIfDue h
    else s
  else (f (s.onRx h (·.accept n))).ackIfDue h

/-- A frame that the block takes from a stream: powered, its stream present, its CRC and length right (R357, R366, R462). -/
def frameTaken (s : State) (raw : List Byte) : Bool := xchRuns s && !noInbound s && frameSound raw

/-- A frame at the streams (R428): in IDLE it wakes the block, and the sender offers it again; else `f` says what becomes of it. -/
def State.atStream (s : State) (f : State → State) : State := if sleeps s then s.wake else f s

/-- Header of a frame. -/
def hdrOf (raw : List Byte) : Nat := leNat (raw.take 64)

/-- A frame named by a reserved code of HOP_SRC: discarded, and recorded when a clause of R366 holds; no hop acknowledges it. -/
def State.noHop (s : State) (h : Nat) : State :=
  match rejectClause s h with
  | some c => s.logReject h c
  | none => s

/-- A frame of which only the hop is told (R3, R462; log 63): it was sent against XR_STOP, and its share has no room for it. Whether
its hop takes it is free; its payload is lost. -/
def State.frameUnroomed (s : State) (h : Nat) : State :=
  let t := { s with free := s.free + 1 }
  if Config.freeBool s.free then t.atHop (hHop h) (hFseq h) id else t

/-- A data or MAX frame, or one of a reserved pair, arrives (R364-R368). -/
def execInboundFrame (raw : List Byte) (s : State) : Host.Outcome State Fault Refusal :=
  let h := hdrOf raw
  .next (s.atStream (fun s =>
    if !frameTaken s raw || (hType h == 3 && (hSub h == 1 || hSub h == 2 || hSub h == 3)) then s
    else if 8 < hHop h then s.noHop h
    else if rejectClause s h = none ∧ shareLimit < shareBytes s (hCtx h) + raw.length then s.frameUnroomed h
    else s.atHop (hHop h) (hFseq h) (fun s => s.judgeFrame h (raw.drop 64))))

/-- A CTRL frame of subtype `sub` that is to be acted on, else what becomes of it (R366): a discarded SYNC is acknowledged, an ACK has
no acknowledgement. -/
def withCtrl (s : State) (raw : List Byte) (sub : Nat) (f : State → Nat → Nat → State) : State :=
  let h := hdrOf raw
  let w := leNat ((raw.drop 64).take 8)
  s.atStream (fun s =>
    if !frameTaken s raw || hType h != 3 || hSub h != sub then s
    else if 8 < hHop h then s.noHop h
    else match rejectClause s h with
      | some c =>
        let s := s.logReject h c
        if sub = 2 then s.sendAck (hHop h) (w / 2 ^ 32 + 2 ^ 32 - 1) false else s
      | none => f s (hHop h) w)

/-- The frames of a hop sent again, each with its resend count 0 (R365). -/
def State.resendHop (s : State) (h : Nat) : State :=
  let s := s.onTx h (fun t => { t with buf := t.buf.map (fun f => { f with resends := 0 }) })
  ((s.txHop h).buf.filter (fun f => !f.sync)).foldl (fun s f => s.emit f.image) s

/-- Frames of a hop acknowledged up to FSEQ `n`: they leave the send buffer and are counted for their commands (R364, R373). -/
def State.ackUpTo (s : State) (h n : Nat) : State :=
  let out := fun (f : Sent) => !f.sync && decide ((n + 2 ^ 32 - f.fseq) % 2 ^ 32 < 2 ^ 31)
  let gone := (s.txHop h).buf.filter out
  let s := s.onTx h (fun t => { t with buf := t.buf.filter (fun f => !out f) })
  gone.foldl (fun s f => match f.cmd with
    | none => s
    | some k => s.onCmd k (fun c =>
        let c := { c with acked := c.acked + 1 }
        if pOp c.pkt = 0x20 && !f.isEnd then c.onFrm (fun x => { x with accepted := x.accepted + 1 }) else c)) s

/-- BASE of a SYNC that is out (R363). -/
def syncBase (t : TxHop) : Nat := ((t.buf.find? (·.sync)).map (fun f => leNat ((f.image.drop 68).take 4))).getD 0

/-- The SYNC of a hop is acknowledged: the frames held behind it are sent (R365). -/
def State.syncAcked (s : State) (h : Nat) : State :=
  (s.onTx h (fun t => { t with buf := t.buf.filter (fun f => !f.sync), syncOut := false, synced := true })).resendHop h

/-- An ACK arrives (R364, R365, R373). -/
def execAck (raw : List Byte) (s : State) : Host.Outcome State Fault Refusal :=
  .next (withCtrl s raw 1 (fun s h w =>
    if w / 2 ^ 32 ≠ 0 then s
    else
      let n := w % 2 ^ 32
      let t := s.txHop h
      let s := if t.syncOut then
          if (n + 1) % 2 ^ 32 = syncBase t then s.syncAcked h else s
        else s.ackUpTo h n
      s.sendAll))

/-- A SYNC request arrives (R365): a SYNC from the oldest unacknowledged FSEQ, or the next one. -/
def execSyncRequest (raw : List Byte) (s : State) : Host.Outcome State Fault Refusal :=
  .next (withCtrl s raw 1 (fun s h w =>
    if w ≠ 0xFFFFFFFF * 2 ^ 32 then s
    else
      let t := s.txHop h
      let base := ((t.buf.find? (fun f => !f.sync)).map (·.fseq)).getD t.next
      (s.onTx h (fun t => { t with synced := false })).sendSync h base))

/-- A SYNC arrives (R365): a new epoch begins the hop's window at BASE; it is acknowledged with BASE − 1. -/
def execSync (raw : List Byte) (s : State) : Host.Outcome State Fault Refusal :=
  .next (withCtrl s raw 2 (fun s h w =>
    let e := w % 2 ^ 32
    let base := w / 2 ^ 32
    let s := if (s.rxHop h).epoch = some e then s
      else s.onRx h (fun r => { r with epoch := some e, base := base, accepted := [], unacked := 0 })
    s.sendAck h (base + 2 ^ 32 - 1) false))

/-- An END arrives: it takes its FSEQ and is discarded, recorded when a clause of R366 holds (R364, R366, R368). -/
def execEndFrame (raw : List Byte) (s : State) : Host.Outcome State Fault Refusal :=
  let h := hdrOf raw
  .next (s.atStream (fun s =>
    if !frameTaken s raw || hType h != 3 || hSub h != 3 then s
    else if 8 < hHop h then s.noHop h
    else s.atHop (hHop h) (hFseq h) (fun s => s.noHop h)))

/-- 2 µs have passed for a receiving hop: what is unacknowledged is acknowledged, and a SYNC request may go out again (R364,
R365). -/
def execAckSend (h : HIx) (s : State) : Host.Outcome State Fault Refusal :=
  .next (
    if !xchRuns s then s
    else
      let s := s.onRx h (fun r => { r with asked := false })
      if (s.rxHop h).unacked = 0 then s else s.ackHop h)

/-- A FRAME_DROP record with the interrupt (R364, R404, R478). -/
def State.logDrop (s : State) (h fseq : Nat) : State :=
  (s.logRec { event := 0x18, action := 8, kind := 9, unit := h, d0 := fseq }).raiseSvc 3

/-- A frame dropped after its fourth resend; a dropped END ends its command with FRAME_TIMEOUT (R364, R373). -/
def State.dropFrame (s : State) (h : Nat) (f : Sent) : State :=
  let s := (s.onTx h (fun t => { t with buf := t.buf.filter (· != f) })).logDrop h f.fseq
  match f.cmd with
  | some k => if f.isEnd then
      s.onCmd k (fun c => { c with conds := c.conds ++ [⟨.frameTimeout, putBits c.acked 32 0 + putBits c.sent 32 32⟩] })
    else s
  | none => s

/-- A frame is not acknowledged within 10 µs: resent, or after the fourth resend dropped; a dropped SYNC drops every frame held
behind it (R364, R365). -/
def execFrameResendTimeout (h : HIx) (fseq : Nat) (s : State) : Host.Outcome State Fault Refusal :=
  .next (
    let t := s.txHop h
    let f? := if t.syncOut then t.buf.find? (fun f => f.sync && f.fseq == fseq)
      else if t.synced then t.buf.find? (fun f => !f.sync && f.fseq == fseq) else none
    match f? with
    | none => s
    | some f =>
      if !xchRuns s then s
      else if f.resends < 4 then
        (s.onTx h (fun t => { t with buf := t.buf.map (fun x => if x == f then { x with resends := x.resends + 1 } else x) })).emit f.image
      else if f.sync then
        let s := t.buf.foldl (fun s x => s.dropFrame h x) s
        (s.onTx h (fun t => { t with syncOut := false })).sendAll
      else (s.dropFrame h f).sendAll)

/-- The network interface reports the direct lanes to position `i` (R360). -/
def execPeerLinkUp (i : Fin 8) (up : Bool) (s : State) : Host.Outcome State Fault Refusal :=
  .next (s.onXch (fun x => { x with peers := vmod x.peers i (fun p => (p.1, p.2.1, up)) }))

end Sys2Proof.Machine
end

