-- ==== Sys2Proof/Machine/Pause.lean ====
section
/-! DEFINITION. Pausing claims and saving tun slots, and restoring both (R157, R300-R303). -/
namespace Sys2Proof.Machine

def tsSlots (p : Nat) : Nat := bitsOf p 95 64
def tsCores (p : Nat) : Nat := bitsOf p 103 96
def tsAddr (p : Nat) : Nat := bitsOf p 175 128

/-- The named (core, slot) pairs, ascending core and then ascending slot (R301). -/
def namedSlots (s : State) (n p : Nat) : List (Nat × Nat) :=
  ((rangeFrom 0 8).filter (bitOf (tsCores p))).flatMap (fun c =>
    ((rangeFrom 0 32).filter (bitOf (tsSlots p))).map (fun i => (c, (s.ctx n).wBase + i)))

/-- A mask bit at or beyond W_COUNT (R303). -/
def beyondWindow (s : State) (n p : Nat) : Bool := decide (tsSlots p ≥ 2 ^ (s.ctx n).wCount)

/-- The slot is yielded for the context on the core (R301). -/
def isYielded (s : State) (n : Nat) (x : Nat × Nat) : Bool := (s.core x.1).yielded.contains (n, x.2)

/-- A claim is being paused on an array: it starts no further drain (R301). -/
def pausing (s : State) (u : Nat) (sd : Seed) : Bool :=
  decide (u < 32) && (s.core (u / 4)).paused.any (fun p => p.array == u && p.claim.seed == sd && !p.dropped)

/-- Slots of a core that a seed binds from an array. -/
def slotsOfSeed (s : State) (u : Nat) (sd : Seed) : List Nat :=
  ((s.core (u / 4)).binds.filter (fun b => b.unit == u && b.key == sd.key && b.ord == sd.ord)).map (·.slot)

/-- Claims of context `n` on an array that bind a named slot (R301). -/
def toPause (s : State) (n : Nat) (named : List (Nat × Nat)) (a : Nat) : List Seed :=
  (s.seedsOn a).filter (fun sd => ctxOf sd.key.1 == n && !pausing s a sd
    && (slotsOfSeed s a sd).any (fun x => named.contains (a / 4, x)))

/-- A claim without steps left: one whose walk has ended and whose drains are pending. -/
def walkedClaim (s : State) (sd : Seed) (slots : List Nat) : Claim :=
  let n := ((s.comp? sd.key).bind (fun c => c.run? sd.ord)).elim 0 (·.entries.length)
  { seed := sd, todo := [], begun := [], tileCounts := List.replicate n Counts.zero, tileSlots := [], slots := slots, steps := 0, started := true }

/-- A claim paused on its array: its walk stops where it is, and its steps are charged (R299, R301). -/
def State.pause (s : State) (a : Nat) (sd : Seed) : State :=
  let slots := slotsOfSeed s a sd
  let walks := match (s.array a).claim with | some c => if c.seed = sd then some c else none | none => none
  let cl := walks.getD (walkedClaim s sd slots)
  let s := s.charge a sd.key (walks.elim 0 (·.steps))
  let s := if walks.isSome then s.onArray a ArraySt.walkOver else s
  s.onCore (a / 4) (fun c => { c with
    paused := c.paused ++ [⟨a, ctxOf sd.key.1, { cl with steps := 0 }, [], slots, false, false, false, [], 0⟩] })

/-- Every claim of the context that binds a named slot paused (R301). -/
def State.pauseAll (s : State) (n : Nat) (named : List (Nat × Nat)) : State :=
  (rangeFrom 0 32).foldl (fun s a => (toPause s n named a).foldl (fun s sd => s.pause a sd) s) s

/-- Claims paused and not saved yet that a save of context `n` covers. -/
def unsaved (s : State) (n : Nat) (named : List (Nat × Nat)) : List Paused :=
  (rangeFrom 0 8).flatMap (fun c => ((s.core c).paused.filter (fun p => p.ctx == n && !p.saved && !p.dropped
    && p.slots.any (fun x => named.contains (c, x)))).mergeSort (fun x y => decide (x.array ≤ y.array)))

/-- No drain of a paused claim is in progress (R301). -/
def saveReady (s : State) (n : Nat) (named : List (Nat × Nat)) : Bool :=
  (unsaved s n named).all (fun p => (s.drainsOf p.array).all (fun d =>
    d.seed != p.claim.seed || d.complete || d.row == 0 || decide (d.rows ≤ d.row)))

/-- A drain stays on its array at a save: it has issued every write, and so has its band (R198, R301). -/
def staysDrain (s : State) (u : Nat) (d : Drain) : Bool :=
  d.complete && (d.sweep != .final ||
    (let es := s.entriesOf d.seed
     ((s.drainsOf u).filter (sameBand es d)).all (·.complete)))

/-- A slot's image: its 256 rows of 256 long words (R157). -/
def slotImage (s : State) (x : Nat × Nat) : List Byte :=
  (rangeFrom 0 256).flatMap (fun r => (s.tunRow x.1 x.2 r).flatMap (fun w => natLe (lwCode w) 16))

/-- The slot is bound to a claim of the context (R301). -/
def boundTo (s : State) (n : Nat) (x : Nat × Nat) : Bool :=
  (s.core x.1).binds.any (fun b => b.slot == x.2 && ctxOf b.key.1 == n)

/-- The slot is bound to another context's claim (R302). -/
def boundToOther (s : State) (n : Nat) (x : Nat × Nat) : Bool :=
  (s.core x.1).binds.any (fun b => b.slot == x.2 && ctxOf b.key.1 != n)

/-- One row of a paused claim's record: R193's layout, one row in 64 bytes. In a denominator sweep SUM is formed anew (R198, R199). -/
def statRecRow (l : List Drain) (row : Nat) : List Byte :=
  let xs := l.flatMap (fun d => d.stats.filter (fun x => x.row == row))
  let sums := if xs.any (·.denom) then xs.filter (·.denom) else xs
  if xs.isEmpty then List.replicate 64 0
  else
    natLe (lwCode (lwSum (sums.map (·.sum)))) 16 ++ natLe (lwCode (lwSum (xs.map (·.sumsq)))) 16
      ++ natLe (cfCode (xs.foldl (fun a x => cfMax a x.mx) (cfOfCls .negInf))) 8 ++ natLe (xs.foldl (fun a x => a + x.n) 0) 4
      ++ natLe (bit (xs.any (·.denom))) 20

/-- Drains of a claim that keep the accumulators of its record: those of the first band that has some (R198, R301; log 72). -/
def recDrains (es : List Entry) (l : List Drain) : List Drain :=
  match l.find? (fun d => !d.stats.isEmpty) with
  | none => []
  | some d => l.filter (sameBand es d)

/-- The 16 KiB record of a paused claim: its RESIDENT accumulators (R193, R198, R301). -/
def statRecord (l : List Drain) : List Byte := (rangeFrom 0 256).flatMap (statRecRow l)

/-- The drains a save takes from an array with its paused claim. -/
def takenDrains (s : State) (p : Paused) : List Drain :=
  (s.drainsOf p.array).filter (fun d => d.seed == p.claim.seed && !staysDrain s p.array d)

/-- A paused claim's drains kept with it (R301); `i`: its record in the save of the slots `named`. -/
def State.keepDrains (s : State) (named : List (Nat × Nat)) (p : Paused) (i : Nat) : State :=
  let l := takenDrains s p
  (s.onDrains p.array (fun ds => ds.filter (fun d => !l.contains d))).onCore (p.array / 4) (fun c => { c with
    paused := c.paused.map (fun x => if x == p then { x with drains := l, saved := true, names := named, rec_ := i } else x) })

/-- Images and records written, the paused claims put by, and the bindings of the named slots released (R301). -/
def State.saveSlots (s : State) (n a : Nat) (named : List (Nat × Nat)) : State :=
  let ps := unsaved s n named
  let images := named.map (fun x => if boundTo s n x then slotImage s x else List.replicate 0x100000 0)
  let recs := ps.map (fun p => statRecord (recDrains (s.entriesOf p.claim.seed) (takenDrains s p)))
  let s := (images.zipIdx).foldl (fun s x => s.store (a48 (a + 0x100000 * x.2)) x.1) s
  let s := (recs.zipIdx).foldl (fun s x => s.store (a48 (a + 0x100000 * named.length + 0x4000 * x.2)) x.1) s
  let s := (ps.zipIdx).foldl (fun s x => s.keepDrains named x.1 x.2) s
  (rangeFrom 0 8).foldl (fun s c => s.onCore c (fun k => { k with
    binds := k.binds.filter (fun b => !(ctxOf b.key.1 == n && named.contains (c, b.slot))) })) s

/-- A TUN_SAVE whose claims are paused and whose drains in progress have completed writes its images and is over (R301). -/
def State.finishSave (s : State) (k : Key) : State :=
  match s.cmd? k with
  | none => s
  | some c => match c.body with
    | .tunSave t =>
      if c.ended || (s.ctx (ctxOf k.1)).mode != .active || !saveReady s (ctxOf k.1) t.slots then s
      else
        let s := s.saveSlots (ctxOf k.1) (tsAddr c.pkt) t.slots
        s.onCmd k (fun c => { c with ended := true, body := .tunSave { t with images := t.slots.length } })
    | _ => s

/-- Every TUN_SAVE in flight that can finish does. -/
def State.finishSaves (s : State) : State :=
  (s.cp.cmds.filter (fun c => pOp c.pkt == 0x30 && !c.ended)).foldl (fun s c => s.finishSave c.key) s

/-! TUN_RESTORE. -/

/-- The loads that end a stretch of a walk: those of the pass tile and piece in progress. -/
def lastLoads (l : List WalkOp) : List WalkOp :=
  let isLoad := fun (o : WalkOp) => match o with | .load _ => true | _ => false
  (((l.reverse.dropWhile (fun o => !isLoad o)).takeWhile isLoad)).reverse

/-- A paused walk as it goes on: the weights of its pass tile and piece loaded again, then the first row not yet issued (R302). -/
def resumeOps (all todo : List WalkOp) : List WalkOp :=
  match todo with
  | [] => []
  | .load o :: r => if o.row = 0 then .load o :: r else lastLoads (all.take (all.length - todo.length)) ++ .load o :: r
  | o :: r => lastLoads (all.take (all.length - todo.length)) ++ o :: r

/-- A paused claim goes on on its array (R302). -/
def State.resumePaused (s : State) (p : Paused) : State :=
  let s := s.onCore (p.array / 4) (fun c => { c with paused := c.paused.filter (· != p) })
  match s.cmd? p.claim.seed.key with
  | none => s
  | some cmd => match cmd.comp? with
    | none => s
    | some c => match c.run? p.claim.seed.ord with
      | none => s
      | some r =>
        if p.claim.todo.isEmpty then s
        else
          let all := c.walk s cmd.q cmd.pkt r (p.array % 4)
          s.onArray p.array (fun a => a.fresh { p.claim with todo := resumeOps all p.claim.todo })

/-- A paused claim of an array that is ready to go on. -/
def readyPaused (s : State) (u : Nat) : Option Paused :=
  if u < 32 then (s.core (u / 4)).paused.find? (fun p => p.array == u && p.ready && !p.dropped) else none

/-- Ready claims of arrays that are free go on (R302). -/
def State.resumeFree (s : State) : State :=
  (rangeFrom 0 32).foldl (fun s a => match readyPaused s a with
    | some p => if s.idle a then s.resumePaused p else s
    | none => s) s

/-- A slot written from its image (R157, R302). -/
def State.restoreSlot (s : State) (n : Nat) (x : Nat × Nat) (a : Nat) : State :=
  let s := (rangeFrom 0 256).foldl (fun s r =>
    s.setTunRow x.1 x.2 r ((rangeFrom 0 256).map (fun j => lwDecode (s.readNat (a48 (a + 4096 * r + 16 * j)) 16)))) s
  s.onCore x.1 (fun c => { c with
    yielded := c.yielded.filter (· != (n, x.2)), lastCtx := vmod c.lastCtx x.2 (fun _ => some n) })

/-- A paused claim's slots are all restored: none of them is yielded (R302). -/
def slotsBack (s : State) (n : Nat) (p : Paused) : Bool := p.slots.all (fun x => !isYielded s n (p.array / 4, x))

/-- Row `row` of a drain's accumulators taken from a record at `a`: the drain that keeps the row gets the record's values, the others
of its band none; a sum that a denominator sweep has still to form stays (R193, R198, R302). -/
def restoreStat (s : State) (a : Nat) (keeper : Nat → Option Nat) (d : Drain) : Drain :=
  { d with stats := d.stats.filterMap (fun x =>
      let r := a48 (a + 64 * x.row)
      if keeper x.row = some d.tile then
        some ⟨x.row, lwDecode (s.readNat r 16), lwDecode (s.readNat (a48 (r + 16)) 16), cfDecode (s.readNat (a48 (r + 32)) 8),
          s.readNat (a48 (r + 40)) 4, bitOf (s.readNat (a48 (r + 44)) 1) 0⟩
      else none) }

/-- The drain of a band that keeps a row's accumulators: the first that has formed its part of the denominator, else the first that
has some. -/
def statKeeper (l : List Drain) (row : Nat) : Option Nat :=
  let has := l.filter (fun d => d.stats.any (·.row == row))
  ((has.find? (fun d => d.stats.any (fun x => x.row == row && x.denom))).orElse (fun _ => has.head?)).map (·.tile)

/-- The accumulators of the paused claims that a save of the slots `named` put into records, read back from the save area (R302). -/
def State.restoreStats (s : State) (n addr : Nat) (named : List (Nat × Nat)) : State :=
  let back := fun (p : Paused) =>
    if p.ctx == n && p.saved && !p.dropped && p.names == named then
      let band := recDrains (s.entriesOf p.claim.seed) p.drains
      let a := a48 (addr + 0x100000 * named.length + 0x4000 * p.rec_)
      { p with names := [], drains := p.drains.map (fun d => if band.contains d then restoreStat s a (statKeeper band) d else d) }
    else p
  (rangeFrom 0 8).foldl (fun s c => s.onCore c (fun k => { k with paused := k.paused.map back })) s

/-- Records that a restore of the slots `named` reads: those of the paused claims that their save covered (R301, R302). -/
def recordCount (s : State) (n : Nat) (named : List (Nat × Nat)) : Nat :=
  (s.cores.toList.flatMap (·.paused)).foldl (fun m p =>
    if p.ctx == n && p.saved && p.names == named then max m (p.rec_ + 1) else m) 0

/-- The claims of a core that pause for context `n`, after slots came back: bindings of the restored slots, drains back to their
array, and claims with every slot restored made ready; dropped ones go (R236, R302). -/
def State.wakeCore (s : State) (n c : Nat) (named : List (Nat × Nat)) : State :=
  let ps := (s.core c).paused.filter (fun p => p.ctx == n && p.saved)
  let s := ps.foldl (fun s p =>
    if p.dropped then s
    else s.onCore c (fun k => { k with
      binds := k.binds ++ ((p.slots.filter (fun x => named.contains (c, x))).map (fun x =>
        (⟨x, p.array, p.claim.seed.key, p.claim.seed.ord⟩ : Binding))) })) s
  ps.foldl (fun s p =>
    if !slotsBack s n p then s
    else if p.dropped then s.onCore c (fun k => { k with paused := k.paused.filter (· != p) })
    else
      let s := s.onDrains p.array (fun l => p.drains ++ l)
      s.onCore c (fun k => { k with
        paused := k.paused.map (fun x => if x == p then { x with drains := [], ready := true } else x) })) s

/-- TUN_RESTORE binds the named slots, writes the images back and resumes the paused claims (R302). -/
def State.restore (s : State) (k : Key) (p : Nat) (named : List (Nat × Nat)) : State :=
  let n := ctxOf k.1
  match nearFault s (tsAddr p) (0x100000 * named.length + 0x4000 * recordCount s n named) with
  | some e => s.onCmd k (fun c => { c with ended := true, conds := c.conds ++ [e] })
  | none =>
    let s := (named.zipIdx).foldl (fun s x => s.restoreSlot n x.1 (a48 (tsAddr p + 0x100000 * x.2))) s
    let s := s.restoreStats n (tsAddr p) named
    let s := (rangeFrom 0 8).foldl (fun s c => s.wakeCore n c named) s
    let s := s.resumeFree
    s.onCmd k (fun c => { c with
      ended := true, dispatched := true, body := .tunRestore ⟨named, named.length⟩ true })

/-- Field checks of TUN_SAVE and TUN_RESTORE (R282, R303, R347, R472). -/
def tunChecks (s : State) (n p : Nat) (bad : Nat × Nat → Bool) (save : Bool) : List (Bool × Nat) :=
  let named := namedSlots s n p
  [ (beyondWindow s n p || (!beyondWindow s n p && named.any bad), 8), (!isMult (tsAddr p) 0x100000, 16) ]
    ++ (if save then outputChecks (tsAddr p) (0x100000 * named.length) 16 else [])

/-- TUN_SAVE: the slots are yielded and their claims pause; once no drain of them is in progress the images are written (R301,
R303). -/
def execTunSave (q : QIx) (s : State) : Host.Outcome State Fault Refusal :=
  .next (withPacket s q (· == 0x30) (fun s p pktA pos =>
    let n := ctxOf q
    let named := namedSlots s n p
    match firstFail (tunChecks s n p (isYielded s n) true) with
    | some o => s.replyNow q pos p (pktBad pktA o)
    | none =>
      let count := ((rangeFrom 0 32).flatMap (toPause s n named)).length
      match outputFault s (tsAddr p) (0x100000 * named.length + 0x4000 * count) with
      | some e => s.replyNow q pos p [e]
      | none =>
        let s := named.foldl (fun s x => s.onCore x.1 (fun c => { c with yielded := c.yielded ++ [(n, x.2)] })) s
        let s := s.pauseAll n named
        let s := s.launchCmd { Cmd.read q pos p (s.ctx n).step (.tunSave ⟨named, 0⟩) with dispatched := true } false
        s.finishSave (q.val, pos)))

/-- TUN_RESTORE: waits at dispatch until no named slot is bound to another context's claim (R302, R303). -/
def execTunRestore (q : QIx) (s : State) : Host.Outcome State Fault Refusal :=
  .next (withPacket s q (· == 0x31) (fun s p pktA pos =>
    let n := ctxOf q
    let named := namedSlots s n p
    match firstFail (tunChecks s n p (fun x => !isYielded s n x) false) with
    | some o => s.replyNow q pos p (pktBad pktA o)
    | none =>
      let c := Cmd.read q pos p (s.ctx n).step (.tunRestore ⟨named, 0⟩ false)
      if named.any (boundToOther s n) then s.launchCmd c true
      else (s.launchCmd c false).restore (q.val, pos) p named))

/-- The named slots are free of other contexts' claims: the waiting TUN_RESTORE proceeds (R302). -/
def execTunRestoreBind (q : QIx) (s : State) : Host.Outcome State Fault Refusal :=
  .next (match s.holder q with
    | some c => match c.body with
      | .tunRestore t false =>
        if actsFor s (ctxOf q) && !t.slots.any (boundToOther s (ctxOf q)) then
          (s.onQ q (fun x => { x with hold := none })).restore c.key c.pkt t.slots
        else s
      | _ => s
    | none => s)

/-! Scrub (R177, R390, R429). -/

/-- A drain has not read a row of its tile yet. -/
def Drain.unread (d : Drain) (slot row : Nat) : Bool :=
  d.src == .slot slot && !d.complete && (decide (d.row ≤ row) || d.sweep != .plain)

/-- A walk has begun a tile in the slot and not finished it (R163). -/
def Claim.fills (cl : Claim) (slot : Nat) : Bool := cl.openTiles.any (fun t => cl.begun.contains t && cl.tileSlots[t]? == some slot)

/-- A paused claim has a tile begun in the slot whose row no drain has read: its slot not saved yet, or restored (R301, R302). -/
def Paused.owns (k : CoreSt) (slot row : Nat) (p : Paused) : Bool :=
  !p.dropped && (!p.saved || (p.slots.contains slot && !k.yielded.contains (p.ctx, slot)))
    && (p.claim.fills slot || p.drains.any (·.unread slot row))

/-- The copy that a slot row belongs to: a tile begun whose row no drain has read (R176, R177). -/
def slotOwner (s : State) (c slot row : Nat) : Option (Nat × Seed) :=
  (rangeFrom (4 * c) 4).findSome? (fun a =>
    match (s.drainsOf a).find? (·.unread slot row), (s.core c).paused.find? (fun p => p.array == a && p.owns (s.core c) slot row) with
    | some d, _ => some (a, d.seed)
    | none, some p => some (a, p.claim.seed)
    | none, none => (s.array a).claim.bind (fun cl => if cl.fills slot then some (a, cl.seed) else none))

/-- A scrub meets a double-bit error (R176, R177, R390); the ACTION of a SCRUB_ZERO record: log 89. -/
def State.scrubError (s : State) (c slot row : Nat) : State :=
  match slotOwner s c slot row with
  | some (a, sd) => s.slotEvent c slot a sd (s.withCmd (some sd.key) (tunUe c slot row))
  | none =>
    let log := s.nextLog
    let again := secondEvent s c slot
    let s := s.setTunRow c slot row (List.replicate 256 lwZero)
    let s := s.logRec { event := 0x08, action := if again then 1 else 0, kind := 11, unit := c * 32 + slot, d0 := slot + row * 32 }
    let s := s.countSlot c slot
    if again then s.retireCore c log else s

/-- The scrubber of a core goes over one slot row: it reads, corrects and rewrites it (R177). -/
def State.scrubRow (s : State) (c : Nat) (double : Bool) : State :=
  if !unitsRun s || !(s.core c).inService then s
  else
    let pos := (s.core c).scrub
    let s := s.onCore c (fun k => { k with scrub := (k.scrub + 1) % 8192 })
    if double then s.scrubError c (pos / 256) (pos % 256) else s

/-- TUN_SCRUB (R177). -/
def execTunScrub (c : KIx) (double : Bool) (s : State) : Host.Outcome State Fault Refusal := .next (s.scrubRow c double)

/-- A bank without an idle step for 2^16 steps has its scrub step taken; its array stalls a step, which changes only time
(R177). -/
def execTunScrubForced (c : KIx) (slot : Fin 32) (double : Bool) (s : State) : Host.Outcome State Fault Refusal :=
  .next (if (s.core c).scrub / 256 = slot.val then s.scrubRow c double else s)

end Sys2Proof.Machine
end

