-- ==== Sys2Proof/Machine/Contexts.lean ====
section
/-! DEFINITION. Contexts: CTX_CTRL, the disable and preemption sequences, context reset and service quiesce (R295-R297,
R308-R312, R444, R447, R448). -/
namespace Sys2Proof.Machine

def ccCmd (v : Nat) : Nat := bitsOf v 2 0
def ccBase (v : Nat) : Nat := bitsOf v 12 8
def ccCount (v : Nat) : Nat := bitsOf v 18 13
def ccShare (v : Nat) : Nat := bitsOf v 31 24
def ccQuota (v : Nat) : Nat := bitsOf v 42 32
def ccRate (v : Nat) : Nat := bitsOf v 57 48
def ccBurst (v : Nat) : Nat := bitsOf v 63 58

/-- CMD_ERR of a context set (R295, R296). -/
def State.cmdErr (s : State) (n : Nat) : State := s.onCtx n (fun c => { c with cmdErr := true })

/-- Queues of context `n`. -/
def queuesOf (n : Nat) : List Nat := rangeFrom (4 * n) 4

/-- Every queue of context `n` changed. -/
def State.onQueues (s : State) (n : Nat) (f : Queue → Queue) : State := (queuesOf n).foldl (fun s q => s.onQ q f) s

/-- Positions 0 (R270, R295). -/
def Queue.zeroed (q : Queue) : Queue := { q with tail := 0, head := 0, oldest := 0, replied := [], hold := none }

/-- A CTX_CTRL write refused as a whole (R296). -/
def ccRefused (v : Nat) : Bool := decide (ccCount v > 32) || decide (ccQuota v > 1024) || decide (ccRate v > 1000)

/-- The fields of a CTX_CTRL write (R296): SHARE and the regulator in every state, the window and the quota in DISABLED only. -/
def Ctx.withFields (c : Ctx) (v : Nat) : Ctx :=
  let c := { c with share := ccShare v, bwRate := ccRate v, bwBurst := ccBurst v }
  if c.mode = .disabled then { c with wBase := ccBase v, wCount := ccCount v, quota := ccQuota v }
  else if c.wBase = ccBase v ∧ c.wCount = ccCount v ∧ c.quota = ccQuota v then c
  else { c with cmdErr := true }

/-- Areas a context holds. -/
def heldAreas (s : State) (n : Nat) : List Nat := (s.cp.areas.filter (fun a => a.ctx == n)).map (·.recNo)

/-- A disable or a preemption begins (R308, R311). -/
def State.beginSeq (s : State) (n : Nat) (mode : CtxMode) : State :=
  let held := heldAreas s n
  s.onCtx n (fun c => { c with mode := mode, stage := 1, zeroed := false, heldBefore := held })

/-- DISABLE by the context's state (R295, R308, R311): one accepted in PREEMPTING goes on from the point reached. -/
def State.disableCtx (s : State) (n : Nat) : State :=
  match (s.ctx n).mode with
  | .active | .suspended => s.beginSeq n .disabling
  | .preempting => s.onCtx n (fun c => { c with mode := .disabling, stage := if c.stage ≤ 3 then c.stage else 5 })
  | _ => s.cmdErr n

/-- CMD of a CTX_CTRL write (R295, R312, R444). -/
def State.ctxCommand (s : State) (n cmd : Nat) : State :=
  let c := s.ctx n
  match cmd, c.mode with
  | 0, _ => s
  | 1, .disabled =>
    if c.wBase + c.wCount ≤ 32 ∧ s.blk.mode ≠ .quiesced then
      (s.onQueues n Queue.zeroed).onCtx n (fun c => { c with mode := .active, stage := 0 })
    else s.cmdErr n
  | 2, _ => s.disableCtx n
  | 3, .active => s.beginSeq n .preempting
  | 4, .suspended => if s.blk.mode = .quiesced then s.cmdErr n else s.onCtx n (fun c => { c with mode := .active })
  | _, _ => s.cmdErr n

/-- A write of CTX_CTRL[n]: the fields first, CMD second (R296). -/
def State.writeCtxCtrl (s : State) (n v : Nat) : State :=
  if ccRefused v then s.cmdErr n else ((s.onCtx n (·.withFields v)).ctxCommand n (ccCmd v)).electAll

/-! The stages of R308. -/

/-- The status of a command that the running sequence ends (R308, R311). -/
def partialStatus (s : State) (n : Nat) : Status := if (s.ctx n).mode = .preempting then .partialPreempted else .partialDisabled

/-- Stage 2: records stopped, queued and paused claims dropped, copies abandoned but for the drains of finished tiles, and the
queues released (R308). -/
def State.stopContext (s : State) (n : Nat) : State :=
  let s := (s.cmdsOf n).foldl (fun s c => match c.comp? with
    | some _ => ((s.onComp c.key (fun x => { x with stop := true })).clearWork c.key).tidy c.key
    | none => s) s
  let s := (rangeFrom 0 8).foldl (fun s c => s.onCore c (fun k => { k with paused := k.paused.filter (fun p => p.ctx != n) })) s
  s.onQueues n (fun q => { q with hold := none })

/-- Drains of a context on any unit. -/
def drainsLeft (s : State) (n : Nat) : Bool := allUnits.any (fun u => (s.drainsOf u).any (fun d => ctxOf d.seed.key.1 == n))

/-- A command with transfers outstanding at the host port or the far tier (R308). -/
def Cmd.outstanding (c : Cmd) : Bool :=
  match c.body with
  | .engine e => !e.quiet
  | .signal _ => !c.ended
  | _ => false

/-- Stages 3 and 4 have no work left: no drain of a finished tile, no granule, far-tier write or host request (R308). -/
def settledStages (s : State) (n : Nat) : Bool := !drainsLeft s n && !(s.cmdsOf n).any Cmd.outstanding

/-- A frame in the send buffer belongs to context `n`. -/
def Sent.ofCtx (n : Nat) (f : Sent) : Bool := !f.sync && hCtx (leNat (f.image.take 64)) == n

/-- The END of command `k` is in the send buffer. -/
def endQueued (s : State) (k : Key) : Bool := s.xch.tx.toList.any (fun t => t.buf.any (fun f => f.isEnd && f.cmd == some k))

/-- The END of a command that the sequence ends, after stage 4 (R372): its destination, frames released and tiles frozen. -/
def Cmd.endOf (c : Cmd) : Option (Nat × Nat × Nat) :=
  match c.body with
  | .compute x =>
    if destFrame (pOp c.pkt) c.pkt then some (bitsOf (cTagMain c.pkt) 19 16, x.framesReleased c.pkt, x.frozenCount) else none
  | .frame f =>
    if pOp c.pkt = 0x23 then some (8, 1, 0)
    else if pOp c.pkt = 0x20 ∧ f.next ≠ 0 then some (fsPeer c.pkt, f.next, 0) else none
  | _ => none

/-- A command as its reply will state it: one that has not ended carries the status of the sequence (R308, R309, R311). -/
def Cmd.partialOf (st : Status) (c : Cmd) : Cmd := if c.ended then c else { c with ended := true, conds := c.conds ++ [⟨st, 0⟩] }

/-- Frames of the context leave the send buffer, and the END of each command that sends frames goes out, unless it went before
(R308, R372). -/
def State.discardSends (s : State) (n : Nat) : State :=
  let st := partialStatus s n
  let cmds := (s.cmdsOf n).filter (fun c => !c.ended || endQueued s c.key)
  let s := s.onXch (fun x => { x with tx := vall x.tx (fun t => { t with buf := t.buf.filter (fun f => !f.ofCtx n) }) })
  cmds.foldl (fun s c => match c.endOf with
    | some (dst, sent, frozen) => s.txEnd (c.partialOf st) dst sent frozen
    | none => s) s

/-- The ENDs of the context's commands are acknowledged or dropped: their replies may be written (R373). -/
def endsAcked (s : State) (n : Nat) : Bool := (s.cmdsOf n).all (fun c => framesAcked s c.key)

/-- Bindings of a context's claims released (R308). -/
def State.unbindCtx (s : State) (n : Nat) : State :=
  (rangeFrom 0 8).foldl (fun s c => s.onCore c (fun k => { k with binds := k.binds.filter (fun b => ctxOf b.key.1 != n) })) s

/-- Window slots of context `n` on core `c` not bound to another context's claim (R178, R308). -/
def windowFree (s : State) (n c : Nat) : List Nat :=
  (rangeFrom (s.ctx n).wBase (s.ctx n).wCount).filter (fun x => !boundToOther s n (c, x))

/-- The window zeroed on every core (R178). -/
def State.zeroWindow (s : State) (n : Nat) : State :=
  (rangeFrom 0 8).foldl (fun s c =>
    let l := windowFree s n c
    (s.zeroSlots c l (fun _ _ => false)).onCore c (fun k => { k with lastCtx := l.foldl (fun v x => vmod v x (fun _ => none)) k.lastCtx })) s

/-- Areas held before the disable freed (R308). -/
def State.freeAreas (s : State) (n : Nat) (l : List Nat) : State :=
  s.onCp (fun cp => { cp with areas := cp.areas.filter (fun a => !(a.ctx == n && l.contains a.recNo)) })

/-- Replies of the commands in flight (R308, R309, R311). -/
def State.replyAll (s : State) (n : Nat) : State :=
  let st := partialStatus s n
  (s.cmdsOf n).foldl (fun s c => s.reply (c.partialOf st)) s

/-- Queued packets of a queue replied to, unread by any unit (R274, R308, R311). -/
def State.drainQueue : Nat → Nat → Status → State → State
  | 0, _, _, s => s
  | k + 1, q, st, s =>
    let x := s.queue q
    if x.head = x.tail then s
    else
      let a := packetAddr x x.head
      let conds := (⟨st, 0⟩ : Cond) :: (packetFault s a).toList
      State.drainQueue k q st ((s.takePacket q).replyNow q x.head (packetAt s a) conds)

/-- Every queued packet of the context replied to. -/
def State.drainQueues (s : State) (n : Nat) : State :=
  let st := partialStatus s n
  (queuesOf n).foldl (fun s q =>
    let x := s.queue q
    if x.log = 0 then s else s.drainQueue ((x.tail + 2 ^ 32 - x.head) % 2 ^ 32) q st) s

/-- What the reset of a context clears beside its settings: areas, held frames, the window and the yielded marks (R310, R448). -/
def State.clearCtx (s : State) (n : Nat) : State :=
  let s := (s.freeAreas n (heldAreas s n)).onHeld n (fun _ => [])
  (rangeFrom 0 8).foldl (fun s c => s.onCore c (fun k => { k with yielded := k.yielded.filter (fun y => y.1 != n) })) s

/-- Settings of a context after a context reset: defaults, positions and totals 0 (R448, R449). -/
def State.resetCtx (s : State) (n : Nat) : State :=
  let s := (s.zeroWindow n).clearCtx n
  let s := (queuesOf n).foldl (fun s q => s.onQ q (fun _ => Queue.reset)) s
  s.onCtx n (fun c => { Ctx.reset with qpend := c.qpend, qmask := c.qmask })

/-- The end of the sequence: SUSPENDED after a preemption, else DISABLED with held frames discarded (R308, R310, R311, R369). -/
def State.endSeq (s : State) (n : Nat) : State :=
  if (s.ctx n).mode = .preempting then s.onCtx n (fun c => { c with mode := .suspended, stage := 0 })
  else
    let s := s.onHeld n (fun _ => [])
    let s := (rangeFrom 0 8).foldl (fun s c => s.onCore c (fun k => { k with yielded := k.yielded.filter (fun y => y.1 != n) })) s
    let s := s.onCtx n (fun c => { c with mode := .disabled, stage := 0 })
    if (s.ctx n).resetAfter then s.resetCtx n else s

/-- The next stage of a context's sequence. -/
def State.toStage (s : State) (n k : Nat) : State := s.onCtx n (fun c => { c with stage := k })

/-- A stage of the disable or preemption sequence ends, its work being complete, and the next begins (R308, R309, R311). Stages 3
and 4 run together as 3. -/
def execDisableStageEnd (n : CIx) (s : State) : Host.Outcome State Fault Refusal :=
  let c := s.ctx n
  .next (
    if !blkRuns s || s.cp.paused then s
    else match c.stage with
    | 1 => s.toStage n 2
    | 2 => (s.stopContext n).toStage n 3
    | 3 =>
      if !settledStages s n then s
      else ((s.discardSends n).unbindCtx n).toStage n (if c.mode = .preempting then 6 else 5)
    | 5 => if c.zeroed || c.wCount = 0 then s.toStage n 6 else s
    | 6 => if !endsAcked s n then s else ((if c.mode = .preempting then s else s.freeAreas n c.heldBefore).replyAll n).toStage n 7
    | 7 => (s.drainQueues n).endSeq n
    | _ => s)

/-- A far-tier write of the context is without completion 20 µs into stage 4: it is abandoned, and its granule does not count as
written (R308). -/
def execFarWriteAbandon (n : CIx) (s : State) : Host.Outcome State Fault Refusal :=
  .next (
    if (s.ctx n).stage != 3 || !unitsRun s then s
    else
      let l := (s.cmdsOf n).filter (fun c => match c.eng? with
        | some e => pOp c.pkt == 0x28 && !e.cmps.isEmpty
        | none => false)
      l.foldl (fun s c => (s.onEng c.key (fun e => { e with cmps := [] })).engSettle c.key) s)

/-- Stage 5: every window slot not bound to another context's claim is zeroed (R178, R308). -/
def execTunZeroComplete (n : CIx) (s : State) : Host.Outcome State Fault Refusal :=
  .next (
    if (s.ctx n).stage != 5 || !blkRuns s then s
    else (s.zeroWindow n).onCtx n (fun c => { c with zeroed := true }))

/-! Context reset and service quiesce (R444, R447). -/

/-- A context reset: at once when DISABLED, else after the disable that it begins or joins (R444, R447). -/
def State.contextReset (s : State) (n : Nat) : State :=
  match (s.ctx n).mode with
  | .disabled => s.resetCtx n
  | .disabling => s.onCtx n (fun c => { c with resetAfter := true })
  | _ => (s.disableCtx n).onCtx n (fun c => { c with resetAfter := true })

/-- Every context of the mask reset. -/
def State.contextResets (s : State) (mask : Nat) : State :=
  ((rangeFrom 0 16).filter (bitOf mask)).foldl (fun s n => s.contextReset n) s

/-- Service quiesce: every ACTIVE context is preempted, and the block is QUIESCED (R444). -/
def State.quiesce (s : State) : State :=
  let s := ((rangeFrom 0 16).filter (fun n => (s.ctx n).mode == .active)).foldl (fun s n => s.beginSeq n .preempting) s
  s.onBlk (fun x => { x with mode := .quiesced })

end Sys2Proof.Machine
end

