-- ==== Sys2Proof/Machine/Repair.lean ====
section
/-! DEFINITION. Repair records: the repair log, the eFuse records, and the spare maps that stage S1 forms of them (R126, R127,
R396-R399). -/
namespace Sys2Proof.Machine

def repArray (r : Nat) : Nat := bitsOf r 4 0
def repKind (r : Nat) : Nat := bitsOf r 6 5
def repPhys (r : Nat) : Nat := bitsOf r 15 7
/-- VALID of a record (R396). -/
def repValid (r : Nat) : Bool := bitOf r 31
/-- CHECK of R396: bitwise NOT of bits [7:0] XOR bits [15:8]. -/
def repCheck (r : Nat) : Nat := 255 - (bitsOf r 7 0 ^^^ bitsOf r 15 8)
/-- A record with VALID set and a correct CHECK (R397). -/
def repGood (r : Nat) : Bool := repValid r && bitsOf r 23 16 == repCheck r

/-- A record as the block writes it (R396). -/
def mkRepair (array kind phys : Nat) : Nat :=
  let w := putBits array 5 0 + putBits kind 2 5 + putBits phys 9 7
  w + putBits (repCheck w) 8 16 + putBits 1 1 31

/-- The 384 eFuse records (R396). -/
def fuseRecs (fuse : Nat) : List Nat := (rangeFrom 0 384).map (fuseRec fuse)

/-- Every good record, from both places, without duplicates (R397). -/
def goodRecords (s : State) : List Nat := ((fuseRecs s.blk.fuse ++ s.blk.repair).filter repGood).eraseDups

/-- The distinct physical rows (kind 0) or columns (kind 1) of an array that records name, ascending (R397). A number beyond 257 names
none: the ward column, 258, cannot be mapped out (R127, R396; log 67). -/
def repairsFor (l : List Nat) (a kind : Nat) : List Nat :=
  (l.filter (fun r => repArray r == a && repKind r == kind && decide (repPhys r < 258))).foldl (fun acc r => nput acc (repPhys r)) []

/-- A record put into the repair log of 64 records, or the log is full: what was written, and the DIAG action (R398, R404,
R409). -/
def State.addRepair (s : State) (r : Nat) : State × Nat :=
  if s.blk.repair.length < 64 then (s.onBlk (fun x => { x with repair := s.blk.repair ++ [r] }), 10)
  else (s, 9)

/-- The spare map of an array as one number (R126). -/
def spareWord (rows cols : List Nat) : Nat :=
  let put := fun (l : List Nat) i lo => match l[i]? with | none => 0 | some x => putBits x 9 lo + putBits 1 1 (lo + 9)
  put rows 0 0 + put rows 1 10 + put cols 0 20 + put cols 1 30

/-- The rows (kind 0) or columns (kind 1) that a spare map names: its valid skips (R126). -/
def spareSkips (w kind : Nat) : List Nat :=
  let lo := 20 * kind
  (if bitOf w (lo + 9) then [bitsOf w (lo + 8) lo] else []) ++ (if bitOf w (lo + 19) then [bitsOf w (lo + 18) (lo + 10)] else [])

/-- A map in which a second skip is valid without the first, or is not greater than the first (R127). -/
def spareBad (w : Nat) : Bool :=
  [0, 20].any (fun lo => bitOf w (lo + 19) && (!bitOf w (lo + 9) || decide (bitsOf w (lo + 18) (lo + 10) ≤ bitsOf w (lo + 8) lo)))

/-- The physical row or column that a logical one uses: the unskipped one below which that many are unskipped (R126). -/
def physOf (skips : List Nat) (x : Nat) : Nat := skips.foldl (fun p k => if k ≤ p then p + 1 else p) x

/-- The physical rows or columns 0 to 257 that hold zero weights and are disabled: those skipped, and spares that no skip calls
into use (R126). -/
def physIdle (skips : List Nat) : List Nat :=
  (rangeFrom 0 258).filter (fun p => !((rangeFrom 0 256).map (physOf skips)).contains p)

end Sys2Proof.Machine
end

