-- ==== Sys2Proof/Machine/Diagnose.lean ====
section
/-! DEFINITION. Diagnostic passes: the five phases on an array, their expected partials, the finding and its repair records (R124,
R125, R398, R404). -/
namespace Sys2Proof.Machine

/-! The phases (R124); phase 0-4 is the table's 1-5. -/

/-- The format of a phase. -/
def diagFmt (ph : Nat) : Fmt := if ph = 4 then .e2m1 else .mxint8

/-- The weight code of a column. -/
def diagCode (ph col : Nat) : Nat :=
  match ph with
  | 0 => 0x01 | 1 => 0x7F | 2 => 0x80
  | 3 => if col % 2 = 0 then 0x55 else 0xAA
  | _ => 0x2

/-- The activation code issued in one row, in both slots of dual mode. -/
def diagActCode (ph : Nat) : Nat :=
  match ph with
  | 0 => 0x01 | 1 => 0x7F | 2 => 0x80 | 3 => 0x55 | _ => 0x2

/-- The weights of a phase, one per column. -/
def diagWeights (ph : Nat) : List DElem := (rangeFrom 0 256).map (fun c => deliverMx (diagFmt ph) (diagCode ph c))

/-- A row of WREG under a phase's load. -/
def diagRow (ph r : Nat) : WRow := mkWRow (diagFmt ph) r (diagWeights ph) (if ph = 4 then diagWeights ph else [])

/-- WREG as a phase's load leaves it. -/
def diagWreg (ph : Nat) : List WRow := (rangeFrom 0 256).map (diagRow ph)

/-- The partial that a column, or the ward column (256), must show: the table's in the group of the row issued, else 0. -/
def diagExpect (x : DiagRead) : Int :=
  if x.row.val / 32 ≠ x.group.val ∨ (x.slot1 ∧ x.phase.val ≠ 4) then 0
  else match x.phase.val with
    | 0 => if x.col.val = 256 then 256 else 1
    | 1 => if x.col.val = 256 then 4129024 else 16129
    | 2 => if x.col.val = 256 then 4194304 else 16384
    | 3 => if x.col.val = 256 then -10880 else if x.col.val % 2 = 0 then 7225 else -7310
    | _ => if x.col.val = 256 then 1024 else 4

/-- A partial that a sound array forms for a unit activation: the datapath of a work step (R110, R121, R124). -/
def diagSound (x : DiagRead) : Int :=
  if x.row.val / 32 ≠ x.group.val ∨ (x.slot1 ∧ x.phase.val ≠ 4) then 0
  else
    let act := deliverMx (diagFmt x.phase) (diagActCode x.phase)
    if x.col.val = 256 then act.grid * (diagRow x.phase x.row).c0.1
    else treeSum [prodOf act (deliverMx (diagFmt x.phase) (diagCode x.phase x.col))]

/-- The partials of a pass that differ from the expected ones. -/
def diagWrong (l : List DiagRead) : List DiagRead := l.filter (fun x => decide (x.value ≠ diagExpect x))

/-! The finding (R125). -/

/-- What a pass finds, by logical row and column: the rows of R125. -/
inductive Finding where
  | transient
  /-- wrong partials in one column, or in two (log 66), with the rows in which they show -/
  | columns (cols rows : List Nat)
  /-- wrong partials of one row, or of two (log 66) -/
  | rows (rows : List Nat)
  | wardOnly
  | group
  | tooMany
  deriving DecidableEq, Repr

/-- A group's partials are wrong for every row of it. -/
def groupWrong (l : List DiagRead) (g : Nat) : Bool :=
  (rangeFrom (32 * g) 32).all (fun r => l.any (fun x => x.group.val == g && x.row.val == r))

/-- The finding of a pass (R125). -/
def diagFinding (reads : List DiagRead) : Finding :=
  let wrong := diagWrong reads
  let l := wrong.filter (fun x => decide (x.col.val < 256))
  let cols := (l.map (·.col.val)).foldl nput []
  let rows := (l.map (·.row.val)).foldl nput []
  if wrong.isEmpty then .transient
  else if l.isEmpty then .wardOnly
  else if cols.length = 1 then .columns cols rows
  else if rows.length = 1 then .rows rows
  else if (rangeFrom 0 8).any (groupWrong l) && decide (2 < cols.length) then .group
  else if cols.length ≤ 2 then .columns cols rows
  else if rows.length ≤ 2 then .rows rows
  else .tooMany

/-! Repair (R125, R126, R397, R398). -/

/-- Records of a kind for logical rows or columns of an array, by their physical numbers; `none` when its two spares do not reach
them (R126). -/
def spareRecords (s : State) (a kind : Nat) (logical : List Nat) : Option (List Nat) :=
  let skips := spareSkips (vget s.blk.spare a) kind
  let phys := logical.map (physOf skips)
  let all := phys.foldl nput (repairsFor (goodRecords s) a kind)
  if all.length ≤ 2 then some (phys.map (mkRepair a kind)) else none

/-- The row of R125's table that the DIAG record names, and the records that the finding calls for: a column when a spare is free,
otherwise a row, otherwise a keep-out (R125, R398). -/
def repairOf (s : State) (a : Nat) : Finding → Nat × List Nat
  | .transient => (0, [])
  | .columns cols rows => match spareRecords s a 1 cols with
    | some l => (1, l)
    | none => match spareRecords s a 0 rows with
      | some l => (1, l)
      | none => (5, [mkRepair a 2 0])
  | .rows rows => match spareRecords s a 0 rows with
    | some l => (2, l)
    | none => (5, [mkRepair a 2 0])
  | .wardOnly => (3, [mkRepair a 2 0])
  | .group => (4, [mkRepair a 2 0])
  | .tooMany => (5, [mkRepair a 2 0])

/-- One repair record of a finding: into the repair log, with its DIAG record (R398, R404). -/
def State.diagRecord (s : State) (a row r : Nat) : State :=
  let (s, act) := s.addRepair r
  s.logRec { event := 0x02, action := act, kind := 1, unit := a, d0 := row, d1 := if act = 10 then r else 0 }

/-- A diagnostic pass ends: WREG holds the last phase's pattern; the DIAG record, the repair record it calls for, and a transient
array back in service (R124, R125, R398, R404). -/
def execDiagnosticPassEnd (a : AIx) (reads : List DiagRead) (s : State) : Host.Outcome State Fault Refusal :=
  .next (
    if !(s.array a).diag || !arraysPowered s || decide (s.kpr.vReq < 120) then s
    else
      let s := s.onArray a (fun x => { x with diag := false, wreg := diagWreg 4 })
      match repairOf s a (diagFinding reads) with
      | (row, []) =>
        let s := s.onArray a (fun x => { x with inService := true, retired := false })
        (s.logRec { event := 0x02, action := 3, kind := 1, unit := a, d0 := row }).report
      | (row, l) => (l.foldl (fun s r => s.diagRecord a row r) s).report)

end Sys2Proof.Machine
end

