-- ==== Sys2Proof/Machine/FarLink.lean ====
section
/-! DEFINITION. Far-tier modules that come and go, and what the configuration sideband reports (R344, R345, R350-R356). -/
namespace Sys2Proof.Machine

/-- Root port `p` is wired, and the far tier present, by strap (R354, R467). -/
def portWired (s : State) (p : Nat) : Bool := bitOf s.blk.straps 6 && bitOf s.blk.straps (7 + p) && !s.start.skeleton

/-- Capacity used of a module on port `p`: at most 8 TiB in total (R344). `cap`: what it reports. -/
def capUsed (s : State) (p : Nat) (cap : Nat) : Nat :=
  min cap (8192 - ((rangeFrom 0 4).filter (· != p)).foldl (fun n q => n + ((vget s.far.modules q).elim 0 (·.capGib))) 0)

/-- The ledger slot of a serial number: its own entry, an EMPTY one, or the one absent longest (R350, R352). -/
def entrySlot (w : Vector Wear 16) (serial : Nat) : Nat :=
  let l := w.toList
  match l.findIdx? (fun e => e.state != 0 && e.serial == serial) with
  | some i => i
  | none => match l.findIdx? (fun e => e.state == 0) with
    | some i => i
    | none =>
      let absent := (l.zipIdx).filter (fun x => x.1.state == 2)
      match absent.foldl (fun (b : Option (Wear × Nat)) x => match b with
        | none => some x
        | some y => if x.1.absentAt < y.1.absentAt then some x else some y) none with
      | some x => x.2
      | none => 0

/-- A module's ledger entry becomes PRESENT; a new one starts from the module's own record (R350, R352, R356; log 30). -/
def State.takeEntry (s : State) (p : Nat) (m : Module) : State :=
  let i := entrySlot s.far.wear m.serial
  let s := s.onFar (fun f => { f with wear := vmod f.wear i (fun w =>
    let base : Wear := if w.state != 0 && w.serial == m.serial then w
      else { Wear.empty with serial := m.serial, written := if m.rated then m.recWritten else 0,
                             ratedTib := if m.rated then m.recRatedTib else 0 }
    { base with state := 1, rated := m.rated, port := p, lifeUsed := min 100 m.lifeUsed, capGib := m.capGib }) })
  (s.mirrorWear m.serial).wearCheck m.serial

/-- An extent's entry in the block region says LOST (R346, R471). -/
def State.writeLost (s : State) (e : Extent) : State :=
  s.store (0x08000000 + 8 * e.idx) (natLe (e.place + putBits e.port 2 23 + putBits 2 2 25) 8)

/-- A SPILL or RELOAD that has come to an extent lost on port `p`: its granules in flight are abandoned, and it ends with the lost
module's serial number (R355). -/
def State.abandonFar (s : State) (p serial : Nat) (c : Cmd) : State :=
  match c.eng? with
  | none => s
  | some e =>
    let lostRead := pOp c.pkt == 0x29 && (match e.nextGranule with
      | none => false
      | some g => match s.extent? (extentIdx (farGranule c.pkt g)) with
        | some x => x.lost.isSome && x.port == p
        | none => false)
    let lostWrite := match e.cur with | some x => x.port == p | none => false
    if c.ended || !(lostRead || lostWrite) then
      s.onEng c.key (fun e => { e with cur := e.cur.map (fun x => match x.old with
        | some o => if o.1 = p then { x with old := none } else x
        | none => x) })
    else (s.onEng c.key (fun e => { e with cmps := [], cur := none })).engHalt c.key ⟨.farTierAbsent, serial⟩

/-- A module is gone from port `p`: its entry is ABSENT, its extents are LOST, and granules in flight to it are abandoned (R355). -/
def State.detach (s : State) (p : Nat) (m : Module) : State :=
  let s := s.onFar (fun f => { f with
    clock := f.clock + 1
    linkUp := vmod f.linkUp p (fun _ => false)
    modules := vmod f.modules p (fun _ => none)
    pendingFree := f.pendingFree.filter (fun x => x.1 != p)
    map := f.map.map (fun e => if e.port == p && e.lost.isNone then { e with lost := some m.serial } else e)
    cells := f.cells.filter (fun c => c.1 / 2 ^ 43 != p) })
  let s := (s.onWear m.serial (fun w => { w with state := 2, absentAt := s.far.clock })).mirrorWear m.serial
  let s := (s.far.map.filter (fun e => e.port == p && e.lost == some m.serial)).foldl (fun s e => s.writeLost e) s
  let s := s.logRec { event := 0x1B, action := 9, kind := 10, unit := p, d0 := m.serial }
  s.cp.cmds.foldl (fun s c => s.abandonFar p m.serial c) s

/-- A module's link goes down (R355). -/
def execLinkDown (p : PIx) (s : State) : Host.Outcome State Fault Refusal :=
  .next (match vget s.far.modules p with
    | none => s.onFar (fun f => { f with linkUp := vmod f.linkUp p (fun _ => false) })
    | some m => s.detach p m)

/-- A module joins port `p`, empty (R344, R356). -/
def State.attach (s : State) (p : Nat) (m : ModuleInfo) : State :=
  let m : Module := { toModuleInfo := m, capGib := capUsed s p (m.volGib + m.persGib) }
  (s.onFar (fun f => { f with
    linkUp := vmod f.linkUp p (fun _ => true)
    modules := vmod f.modules p (fun _ => some m)
    cells := f.cells.filter (fun c => c.1 / 2 ^ 43 != p) })).takeEntry p m

/-- A module is attached after start, or returns: its extents are free and empty (R356). -/
def execModuleAttach (p : PIx) (m : ModuleInfo) (s : State) : Host.Outcome State Fault Refusal :=
  .next (
    if !portWired s p || (vget s.far.modules p).isSome || s.blk.mode == .starting || s.blk.mode == .failed then s
    else s.attach p m)

/-- The configuration sideband answers for a present module (R344, R345, R350, R463): its serial number, its capacities, which give
its kind, or its Life Used. Another serial number is another module: the one held is gone, and the new one joins (R355, R356). -/
def execCfgResponse (p : PIx) (r : CfgResp) (s : State) : Host.Outcome State Fault Refusal :=
  .next (match vget s.far.modules p with
    | none => s
    | some m =>
      let put := fun (m : Module) => (s.onFar (fun f => { f with modules := vmod f.modules p (fun _ => some m) })).takeEntry p m
      match r with
      | .serial v => if v % 2 ^ 64 = m.serial then put m else (s.detach p m).attach p { m.toModuleInfo with serial := v % 2 ^ 64 }
      | .identify vol pers => put { m with volGib := vol, persGib := pers, capGib := capUsed s p (vol + pers) }
      | .health l => put { m with lifeUsed := min 100 l })

/-! CXL.mem requests (R344, R348, R463). -/

/-- A 64-byte request on a root port (R463): MemWr or MemRd, and the byte address within the module. -/
structure CxlReq where
  port : Nat
  write : Bool
  addr : Nat
  deriving DecidableEq, Repr

/-- Requests of one far granule that wait for their answers: 32 but for those answered (R344). -/
def granuleReqs (write : Bool) (port place off answered : Nat) : List CxlReq :=
  (rangeFrom answered (32 - answered)).map (fun i => ⟨port, write, place * 0x100000 + off + 64 * i⟩)

/-- Requests of a SPILL or RELOAD that wait for their answers: those of the granules left of the extent that is open, or of the
granule read next. -/
def Cmd.farReqs (s : State) (c : Cmd) : List CxlReq :=
  match c.eng? with
  | none => []
  | some e =>
    let off := fun g => (farGranule c.pkt g - farBase) % 0x100000
    if c.ended || e.halted then []
    else if pOp c.pkt = 0x28 then
      match e.cur with
      | none => []
      | some x => ((rangeFrom 0 e.granules).filter (fun g => !e.isDone g && extentIdx (farGranule c.pkt g) == x.idx)).flatMap (fun g =>
          granuleReqs true x.port x.place (off g) ((aget e.cmps g).getD 0))
    else if pOp c.pkt = 0x29 then
      match e.nextGranule with
      | none => []
      | some g => match s.extent? (extentIdx (farGranule c.pkt g)) with
        | some x => if x.lost.isNone then granuleReqs false x.port x.place (off g) ((aget e.cmps g).getD 0) else []
        | none => []
    else []

/-- The requests out on root port `p`, at most 512 (R463). -/
def cxlOut (s : State) (p : Nat) : List CxlReq :=
  ((s.cp.cmds.flatMap (Cmd.farReqs s)).filter (fun r => r.port == p)).take 512

end Sys2Proof.Machine
end

