-- ==== Sys2Proof/Machine/Memory.lean ====
section
/-! DEFINITION. The stack controllers: interface errors, lost channels, map-out and rebuild, patrol, fences and returns, and the
host access port (R318, R325-R342, R455, R456). -/
namespace Sys2Proof.Machine

/-- A stack of the assembly that serves accesses (R313, R338). -/
def stackServes (s : State) (x : Nat) : Bool := decide (x < stackCount s.map.profile) && !(s.stack x).fence.away

/-- A rebuild runs (R331, R333). -/
def rebuilding (s : State) : Bool := s.map.rebuilds && s.map.outs.any (fun o => !o.rebuilt)

/-- Channels out of service: lost ones, and those of a DEAD stack (R329, R342). -/
def chansOut (s : State) : List (Nat × Nat) :=
  s.stks.toList.zipIdx.flatMap (fun x =>
    (if x.1.fence = .dead then rangeFrom 0 32 else x.1.lost).map (fun c => (x.2, c)))

/-- Whole rows below row `r` that hold `need` usable granules (R329). -/
def rowsNeeded (p : MapSt) (skip : List (Nat × Nat)) : Nat → Nat → Nat → Nat
  | 0, _, need => if need = 0 then 0 else 1
  | r + 1, n, need => if need ≤ n then 0 else 1 + rowsNeeded p skip r (n + usableIn p skip r) need

/-- E_n in granules for the next channel mapped out (R329). -/
def mapOutSize (p : MapSt) (skip : List (Nat × Nat)) : Nat :=
  min p.top (rowsNeeded p skip (p.top / rowGranules p) 0 p.slots * rowGranules p)

/-- A REBUILD record (R404). -/
def rebuildRec (o : MapOut) (what top : Nat) : Rec :=
  { event := 0x12, action := 9, kind := 8, unit := o.stack * 32 + o.chan, d0 := what, d1 := top }

/-- A lost channel mapped out: TOP falls, the range is logged, and the rebuild runs or waits (R329-R331). -/
def State.mapOut (s : State) (x c : Nat) : State :=
  let skip := chansOut s
  let e := mapOutSize s.map skip
  let o : MapOut := ⟨x, c, s.map.top - e, skip, 0, [], false⟩
  let idle := !rebuilding s
  let old := s.map.top
  let s := s.onMap (fun x => { x with top := o.base, outs := s.map.outs ++ [o], rebuilds := true })
  let s := s.onBlk (fun x => { x with mapList := s.map.outs })
  let s := s.logRec { event := 0x13, action := 9, d0 := o.base * 2048, d1 := old * 2048 - 1 }
  if idle then s.logRec (rebuildRec o 0 o.base) else s

/-- A stack is DEAD until the next start: fenced, and its channels no longer mapped out (R342). -/
def State.stackDead (s : State) (x : Nat) : State :=
  let s := s.onStack x (fun k => { k with fence := .dead, lost := [], lostAt := [], retries := [], ues := [] })
  let s := s.onMap (fun z => { z with
    fenced := if s.map.fenced.contains x then s.map.fenced else s.map.fenced ++ [x]
    outs := s.map.outs.filter (fun o => o.stack != x) })
  let s := s.onBlk (fun x => { x with mapList := s.map.outs })
  let s := s.onMem (fun m => { m with
    parked := m.parked.filter (fun l => (effPlace s (l / 16)).stack != x), marks := m.marks.filter (fun y => y.1 != x) })
  (s.logRec { event := 0x15, action := 5, kind := 7, unit := x }).report

/-- A channel is lost (R327): mapped out when parity is on and fewer than 8 are (R329, R332); a stack all of whose channels fail
within one sample is DEAD (R342). -/
def State.loseChannel (s : State) (x c cause : Nat) : State :=
  if (s.stack x).lost.contains c then s
  else
    let now := s.kpr.sample
    let s := s.onStack x (fun k => { k with
      lost := k.lost ++ [c]
      lostAt := now :: k.lostAt.filter (fun t => decide (now ≤ t + 1))
      retries := k.retries.filter (fun r => r.1 != c)
      ues := k.ues.filter (fun r => r.1 != c) })
    if (s.stack x).lostAt.length = 32 then s.stackDead x
    else
      let can := s.map.parity && decide (s.map.outs.length < 8)
      let s := s.logRec { event := 0x11, action := if can then 4 else 9, kind := 8, unit := x * 32 + c, d0 := cause }
      (if can then s.mapOut x c else s).report

/-- A MEM_CORRECTED record (R404). -/
def correctedRec (x c addr : Nat) : Rec :=
  { event := 0x10, action := 0, kind := 8, unit := x * 32 + c, d0 := addr / 2048 * 2048 }

/-- An access meets `fails` interface parity errors: retried up to 4 times and logged as corrected; a fifth failure, or 16
retried accesses in 100 samples, loses the channel (R326, R327). -/
def execPhyParityError (stack : SIx) (chan : Fin 32) (fails addr : Nat) (s : State) : Host.Outcome State Fault Refusal :=
  .next (
    if fails = 0 || !blkRuns s || !stackServes s stack || (s.stack stack).lost.contains chan.val then s
    else if 5 ≤ fails then s.loseChannel stack chan 0
    else
      let now := s.kpr.sample
      let s := s.logRec (correctedRec stack chan addr)
      let s := s.onStack stack (fun k => { k with
        retries := (chan.val, now) :: k.retries.filter (fun r => decide (now < r.2 + 100)) })
      if ((s.stack stack).retries.filter (fun r => r.1 == chan.val)).length ≥ 16 then s.loseChannel stack chan 1 else s)

/-- A member of a stripe can be read (R328, R331). -/
def memberReadable (s : State) (c : Nat × Nat) (slot : Nat) : Bool :=
  if (s.stack c.1).fence.away then false
  else if !(s.stack c.1).lost.contains c.2 then true
  else match s.movedOut c slot with
    | none => false
    | some o => (granuleFault s (relocGranule s.map o slot)).isNone

/-- The granule in slot `r` of member `m` of group `k`; `none` for the parity member (R316). -/
def granuleOf (p : MapSt) (r k m : Nat) : Option Nat :=
  let v := dataWidth p
  let g := groupCount p.profile
  let par := (r + k) % groupWidth p.profile
  if p.parity && m == par then none
  else
    let j := if p.parity && decide (par < m) then m - 1 else m
    some (r * rowGranules p + ((k + g * (7 * r / g + 1) - 7 * r) % g) * v + j)

/-- A slot that the stack reports as uncorrectable: reconstructed from its stripe and rewritten, and counted when the verify
fails; without a stripe to rebuild it from, the granule stays uncorrectable (R327, R407). -/
def State.slotUncorrectable (s : State) (x c slot : Nat) (verifyOk : Bool) : State :=
  let km := chanMember s.map.profile x c
  let g := granuleOf s.map slot km.1 km.2
  let others := (members s.map km.1).filter (fun y => y != (x, c))
  if !stackServes s x || (s.stack x).lost.contains c then s
  else if s.map.parity && others.all (fun y => memberReadable s y slot) then
    let s := s.logRec (correctedRec x c (2048 * g.getD (slot * rowGranules s.map)))
    if verifyOk then s
    else
      let now := s.kpr.sample
      let s := s.onStack x (fun k => { k with
        ues := (c, slot, now) :: k.ues.filter (fun r => decide (now < r.2.2 + 100000) && !(r.1 == c && r.2.1 == slot)) })
      if ((s.stack x).ues.filter (fun r => r.1 == c)).length ≥ 8 then s.loseChannel x c 2 else s
  else match g with
    | some g => s.onMem (fun m => { m with bad := nput m.bad g })
    | none => s

/-- The places that an access to granule `g` goes through: its own, and those of the granules it is relocated to (R329, R331). -/
def accessPlaces : Nat → State → Nat → List Place
  | 0, s, g => [place s.map g]
  | n + 1, s, g =>
    let p := place s.map g
    p :: (match s.movedOut (p.stack, p.chan) p.slot with
      | none => []
      | some o => accessPlaces n s (relocGranule s.map o p.slot))

/-- The slot of a channel that an access to granule `g` may touch: one of the stripe of a place it goes through, its own, its parity,
or a member read to rebuild or to form the parity (R318, R328, R331). -/
def touchedSlot (s : State) (x c g : Nat) : Option Nat :=
  ((accessPlaces 9 s g).find? (fun p => (members s.map p.group).contains (x, c))).map (·.slot)

/-- An access meets a slot that the stack reports as uncorrectable (R327). -/
def execStackUncorrectable (stack : SIx) (chan : Fin 32) (addr : Nat) (verifyOk : Bool) (s : State) :
    Host.Outcome State Fault Refusal :=
  .next (if !blkRuns s || (badByte s addr 1).isSome || regionOf addr != .near then s
    else match touchedSlot s stack chan (addr / 2048) with
      | none => s
      | some slot => s.slotUncorrectable stack chan slot verifyOk)

/-- The patrol scrub goes over one stripe and corrects a single bad member; it pauses while a rebuild runs (R325, R327). -/
def execPatrolScrub (bad : Option (SIx × Fin 32 × Bool)) (s : State) : Host.Outcome State Fault Refusal :=
  .next (
    let total := s.map.slots * groupCount s.map.profile
    if !blkRuns s || rebuilding s || total = 0 then s
    else
      let at_ := s.map.patrol
      let s := s.onMap (fun x => { x with patrol := (at_ + 1) % total })
      match bad with
      | none => s
      | some (x, c, ok) =>
        if s.map.parity && (members s.map (at_ % groupCount s.map.profile)).contains (x.val, c.val) then
          s.slotUncorrectable x c (at_ / groupCount s.map.profile) ok
        else s)

/-- The members of a channel's stripes but itself. -/
def otherMembers (s : State) (o : MapOut) : List (Nat × Nat) :=
  (members s.map (chanMember s.map.profile o.stack o.chan).1).filter (fun y => y != (o.stack, o.chan))

/-- A member is gone for every slot: its stack DEAD, or its channel lost with no slot moved (R328, R331, R342). -/
def memberGone (s : State) (c : Nat × Nat) : Bool :=
  (s.stack c.1).fence == .dead || ((s.stack c.1).lost.contains c.2
    && !s.map.outs.any (fun o => o.stack == c.1 && o.chan == c.2 && decide (0 < o.moved)))

/-- A mapped-out channel as its rebuild leaves it: each slot that R328 can form moved; what cannot be formed stays under R332. -/
def rebuiltOut (s : State) (o : MapOut) : MapOut :=
  let others := otherMembers s o
  if others.any (memberGone s) then { o with rebuilt := true }
  else
    let late := others.filter (fun c => (s.stack c.1).lost.contains c.2)
    { o with
      moved := s.map.slots
      gaps := if late.isEmpty then [] else (rangeFrom 0 s.map.slots).filter (fun r => !late.all (fun c => memberReadable s c r))
      rebuilt := true }

/-- A rebuild cannot read a fenced member: it goes on after the return (R331, R338; log 79). -/
def rebuildWaits (s : State) (o : MapOut) : Bool :=
  (otherMembers s o).any (fun c => (s.stack c.1).fence.away && (s.stack c.1).fence != .dead)

/-- The rebuild of the first mapped-out channel not yet rebuilt is done; the next waiting one begins (R331). -/
def execRebuildDone (s : State) : Host.Outcome State Fault Refusal :=
  .next (
    if !blkRuns s || !s.map.rebuilds then s
    else match s.map.outs.find? (fun o => !o.rebuilt) with
    | none => s
    | some o =>
      if rebuildWaits s o then s
      else
        let s := s.onMap (fun x => { x with outs := s.map.outs.map (fun y => if y == o then rebuiltOut s o else y) })
        let s := s.onBlk (fun x => { x with mapList := s.map.outs })
        let s := s.logRec (rebuildRec o 1 s.map.top)
        match s.map.outs.find? (fun o => !o.rebuilt) with
        | none => s
        | some y => s.logRec (rebuildRec y 0 s.map.top))

/-- The write buffers of a stripe are written out: shared-cache data of its granules reaches the stacks that serve it; parked lines
stay in the cellar (R318, R338). -/
def execStripeGatherExpiry (stripe : Nat) (s : State) : Host.Outcome State Fault Refusal :=
  .next (if !blkRuns s then s
    else s.onMem (fun m => m.flush (fun a => stripeOf s.map (a / 2048) == stripe && !m.parked.contains (lineOf a)
      && !(s.stack (effPlace s (a / 2048)).stack).fence.away && (writeFault s a 1).isNone)))

/-! Fences (R335-R342). -/

/-- Dirty lines of a stack that have left the shared cache: writes queued or in flight at the stack. -/
def queuedLines (s : State) (x : Nat) : List Nat :=
  ((s.mem.dirty.map (fun c => lineOf c.1)).eraseDups).filter (fun l => !s.mem.resident l && lineStack s l == x)

/-- A stack begins its fence (R337). With parity on, the cellar takes its queued writes; at CRITICAL they are abandoned writes, whose
stripes are marked. A stack whose return had begun shows FENCED all along. -/
def State.beginFence (s : State) (x : Nat) (critical : Bool) : State :=
  let ret := (s.stack x).fence.shown
  let l := if s.map.parity then queuedLines s x else []
  let s := s.onMem (fun m => { m.park l with marks := if critical then
    (l.map (fun y => (x, stripeOf s.map (y / 16)))).foldl (fun k y => if k.contains y then k else y :: k) m.marks else m.marks })
  (s.onStack x (fun k => { k with fence := if ret then .refencing else .fencing })).onMap (fun m => { m with
    fenced := if m.fenced.contains x then m.fenced else m.fenced ++ [x] })

/-- A stack serves directly again and FENCED clears (R340, R341). -/
def State.clearFence (s : State) (x : Nat) : State :=
  (s.onStack x (fun k => { k with fence := .none })).onMap (fun m => { m with fenced := m.fenced.erase x })

/-- Another stack is fenced, or being fenced (R339). -/
def otherFenced (s : State) (x : Nat) : Bool := s.map.fenced.any (· != x)

/-- The level of a stack rises (R335, R337, R339, R341): HOT fences it, unless with parity on another stack is fenced; CRITICAL
always. -/
def State.raiseLevel (s : State) (x : Nat) (l : SLevel) : State :=
  let s := s.onStack x (fun k => { k with level := l, cool := 0 })
  let free := match (s.stack x).fence with | .none | .return1 | .return2 => true | _ => false
  match l with
  | .hot => if free && !(s.map.parity && otherFenced s x) then s.beginFence x false else s
  | .critical => if free then s.beginFence x true else s
  | _ => s

/-- The fence of a stack is complete: FENCED is set and logged with the level (R337). -/
def execStackFenceComplete (stack : SIx) (s : State) : Host.Outcome State Fault Refusal :=
  .next (
    if (s.stack stack).fence ≠ .fencing ∧ (s.stack stack).fence ≠ .refencing then s
    else (s.onStack stack (fun k => { k with fence := .fenced })).logRec
      { event := 0x14, action := 5, kind := 7, unit := stack, d0 := (s.stack stack).level.code })

/-- The level of a stack falls by one after 100 samples at or below its exit value; a fenced stack that leaves HOT begins its
return (R335, R340, R341). -/
def execStackLevelFall (stack : SIx) (s : State) : Host.Outcome State Fault Refusal :=
  let k := s.stack stack
  .next (
    if k.cool < 100 then s
    else match k.level with
    | .normal => s
    | .warm => s.onStack stack (fun k => { k with level := .normal, cool := 0 })
    | .critical => s.onStack stack (fun k => { k with level := .hot, cool := 0 })
    | .hot =>
      let s := s.onStack stack (fun k => { k with level := .warm, cool := 0 })
      match k.fence with
      | .fenced | .fencing | .refencing => if s.map.parity then s.onStack stack (fun k => { k with fence := .return1 }) else s.clearFence stack
      | _ => s)

/-- Phase 1 of a return ends: every marked stripe of the stack is resynchronised; a stack that does not respond is DEAD (R340). -/
def execStackReturnPhase1End (stack : SIx) (responds : Bool) (s : State) : Host.Outcome State Fault Refusal :=
  .next (
    if (s.stack stack).fence ≠ .return1 || !blkRuns s then s
    else if !responds then s.stackDead stack
    else (s.onStack stack (fun k => { k with fence := .return2 })).onMem (fun m => { m with
      marks := m.marks.filter (fun y => y.1 != stack.val) }))

/-- The parked lines of a stack, and those of them written back to it (R340). -/
def MemSt.unpark (m : MemSt) (mine : Nat → Bool) : MemSt :=
  { m.flush (fun a => m.parked.contains (lineOf a) && mine (lineOf a)) with parked := m.parked.filter (fun l => !mine l) }

/-- The last parked line of a stack is written back: FENCED clears; a stack that does not respond is DEAD (R340). -/
def execStackReturnComplete (x : StackAnswer) (s : State) : Host.Outcome State Fault Refusal :=
  .next (
    if (s.stack x.stack).fence ≠ .return2 || !blkRuns s then s
    else if !x.responds then s.stackDead x.stack
    else (s.onMem (·.unpark (fun l => lineStack s l == x.stack.val))).clearFence x.stack)

/-! The host access port (R455, R456). -/

/-- The response to the host (R455). -/
def State.hostRsp (s : State) (tag status : Nat) (data : List Byte) : State :=
  s.onPort (fun x => { x with hinTag := tag, hinStatus := status, hinData := data })

/-- Undefined data beats (R455): free values. -/
def State.freeBytes (s : State) (n : Nat) : State × List Byte :=
  ({ s with free := s.free + n }, (rangeFrom s.free n).map Config.freeByte)

/-- The bytes that STRB names written (R454). -/
def State.hostWrite (s : State) (a : Nat) (data : List Byte) (strb : List Bool) : State :=
  if strb.all id then s.store a data
  else
    let s := s.parkWrite a data.length
    ((data.zip strb).zipIdx).foldl (fun s x => if x.1.2 then s.writeBytes (a + x.2) [x.1.1] else s) s

/-- The block takes no host access: STARTING, FAILED, IDLE or DEEP (R455). -/
def hostAway (s : State) : Bool :=
  s.blk.mode == .starting || s.blk.mode == .failed || s.pwr.state == .idle || s.pwr.state == .deep

/-- A host request of `len` bytes in range (R455, R470, R471). -/
def hostRange (s : State) (a len : Nat) (write : Bool) : Bool :=
  regionOf a == .near && (badByte s a len).isNone && !(write && hitsBlockRegion a len)

/-- The response to a request outside the port's framing (R3, R454, R455): its status and data are free, and nothing else changes
(log 43). -/
def State.hostUnspecified (s : State) (tag n : Nat) : State :=
  let x := s.freeBytes (n + 1)
  x.1.hostRsp tag ((x.2.headD 0).toNat % 4) (x.2.drop 1)

/-- The host reads or writes near memory (R455). -/
def execHostAccessRequest (addr : Nat) (write : Bool) (beats tag : Nat) (data : List Byte) (strb : List Bool)
    (upset : Option CacheUpset) (s : State) : Host.Outcome State Fault Refusal :=
  let n := 64 * beats
  if beats = 0 ∨ 32 < beats ∨ 2 ^ 48 ≤ addr ∨ 1024 ≤ tag ∨ 2048 < addr % 2048 + n
      ∨ (write = true ∧ (data.length ≠ n ∨ strb.length ≠ n)) then .next (s.hostUnspecified tag n)
  else .next (
    if hostAway s then s.hostRsp tag 2 []
    else if !hostRange s addr n write then s.hostRsp tag 1 []
    else if write then (((s.cacheUpset addr n upset).1).hostWrite addr data strb).hostRsp tag 0 []
    else
      let lost := fun (s : State) => let x := s.freeBytes n; x.1.hostRsp tag 3 x.2
      match readFault s addr n with
      | some _ => lost s
      | none => match s.cacheUpset addr n upset with
        | (s, some _) => lost s
        | (s, none) => s.hostRsp tag 0 (s.readBytes addr n))

end Sys2Proof.Machine
end

