-- ==== Sys2Proof/Machine/Keeper.lean ====
section
/-! DEFINITION. The keeper: sensors, decisions of a sample, sprint, grade cap, budgets and wear, voltage steps, grades, telemetry
and calibration (R129-R131, R335, R395, R411-R430). -/
namespace Sys2Proof.Machine

/-- A value the spec names without giving it (log 10). -/
def State.freeWord (s : State) : State × Nat := ({ s with free := s.free + 1 }, (Config.freeWord s.free).toNat)

/-- An INTERNAL record: DETAIL0 is a firmware code that the spec does not list (R404). -/
def State.logInternal (s : State) (action kind unit : Nat) : State :=
  let x := s.freeWord
  x.1.logRec { event := 0x7F, action := action, kind := kind, unit := unit, d0 := x.2 }

/-- The keeper alert: a chip or hot-spot alarm, a stack at CRITICAL, a low voltage reading, or a stack above NORMAL in DEEP
(R335, R415, R418, R428). -/
def keeperAlert (s : State) : Bool :=
  s.kin.alarm || s.kin.vFault || s.stks.toList.any (fun x => x.level == .critical)
    || (s.pwr.state == .deep && s.stks.toList.any (fun x => x.level != .normal))

/-! Sensors (R417). -/

/-- A failed sensor. -/
def sensorFailedNow (x : Option Int × Nat × Bool) : Bool := x.2.2

/-- One thermal reading filtered (R417). -/
def filterReading (x : Option Int × Nat × Bool) (t : Int) : Option Int × Nat × Bool :=
  match x with
  | (last, n, failed) =>
    if failed then (last, n, true)
    else if t < -40 ∨ 150 < t then (last, n, true)
    else match last with
      | none => (some t, 0, false)
      | some y => if t - y ≤ 10 ∧ y - t ≤ 10 then (some t, 0, false) else (some y, n + 1, false)

/-- The greatest accepted reading of sensors in service at the given indices. -/
def hottest (l : List (Option Int × Nat × Bool)) (ix : List Nat) : Option Int :=
  maxInt (ix.filterMap (fun i => match l[i]? with
    | some (some t, _, false) => some t
    | _ => none))

/-- Core `c` has more than 2 failed sensors (R417). -/
def coreBlind (l : List (Option Int × Nat × Bool)) (c : Nat) : Bool :=
  decide (2 < ((l.drop (8 * c)).take 8).countP sensorFailedNow)

/-- T_hot (R417): sensors 8c to 8c + 7 stand in core c, 64 to 79 in the shared cache. -/
def hotSpot (l : List (Option Int × Nat × Bool)) (before : Int) : Int :=
  let base := (hottest l (rangeFrom 0 80)).toList
  let others := ((rangeFrom 0 8).filter (coreBlind l)).filterMap (fun c =>
    (hottest l ((rangeFrom 0 64).filter (fun i => i / 8 != c))).map (· + 5))
  (maxInt (base ++ others)).getD before

/-- P_s in µW: the sum over the 16 rail pairs of the mean of 4 readings of mA × mV (R417). -/
def samplePower (x : Sample) : Nat :=
  (x.rails.foldl (fun a r => r.foldl (fun a p => a + p.1 * p.2) a) 0) / 4

/-- P_f in W: the mean of the last 10 samples (R417). -/
def meanPower (l : List Nat) : Nat := if l.isEmpty then 0 else l.foldl (· + ·) 0 / l.length / 1000000

/-- A VDD_ARR monitor reads more than 20 mV below the request (R415); pairs 0 to 7 stand at the cores (R416). -/
def lowVoltage (x : Sample) (vReq : Nat) : Bool :=
  (rangeFrom 0 8).any (fun i =>
    decide ((x.rails.foldl (fun a r => a + (r.getD i (0, 0)).2) 0) + 80 < 20 * vReq))

/-- The mean reading of the VDD_ARR monitors as a code (R413, R416, R430; log 90). -/
def meanVdd (x : Sample) : Nat :=
  (x.rails.foldl (fun a r => (r.take 8).foldl (fun a p => a + p.2) a) 0) / 160

/-! Decisions (R418-R423). -/

/-- The ceiling of a sprint (R418). -/
def sprintCode (k : Kpr) : Nat := min 170 (k.vSprint + k.vminTrim)

/-- The power ceiling in W (R418, R423). -/
def powerCeiling (k : Kpr) : Nat := if k.sprintOn then min 900 (k.pLimit + 200) else k.pLimit

/-- 150 J in units of 10⁻¹¹ J (R422). -/
def budgetHalf : Nat := 15000000000000

/-- The keeper runs with two copies (R395, R420). -/
def twoCopies (s : State) : Bool := decide (s.kin.copies ≤ 2)

/-- The first reason against sprint in this sample (R422, R427); 0 for none. A refusal by R420 is a STATE. -/
def sprintReason (s : State) : Nat :=
  let k := s.kpr
  let i := s.kin
  if i.alarm ∨ i.vFault then 7
  else if (k.tThrottle : Int) - k.tHot < 8 then 2
  else if (if k.sprintOn then i.budget = 0 else i.budget < budgetHalf) then 3
  else if 150000 ≤ i.cont then 4
  else if 2 * i.poweredS ≤ i.sprintCs then 5
  else if s.pwr.state ≠ .active ∨ s.pwr.going.isSome ∨ s.blk.mode = .starting ∨ s.blk.mode = .failed ∨ s.start.skeleton ∨ twoCopies s
    then 6
  else if !k.sprintEn then 1
  else 0

/-- A request at code `v` on the port that STRAP_VSEL selects (R414, R464): over AVSBus a Voltage write of the target in mV, on the
parallel port CODE, one code at a time with a toggle of STB each; the unused port's outputs are 0. -/
def VPort.drive (p : VPort) (parallel : Bool) (rail v : Nat) : VPort :=
  if parallel then { p with rail := 0, mv := 0, code := v, stb := p.stb ^^ ((p.code + v) % 2 == 1) }
  else { p with rail := rail, mv := 5 * v, code := 0, stb := false }

/-- The present request driven on its port (R414, R464). -/
def State.driveRequest (s : State) : State :=
  s.onKin (fun i => { i with vport := i.vport.drive (bitOf s.blk.straps 14) (bitsOf s.blk.straps 18 15) s.kpr.vReq })

/-- Sprint ends with its reason: the request falls to the sustained ceiling (R423). -/
def State.endSprint (s : State) (reason : Nat) : State :=
  if !s.kpr.sprintOn then s
  else
    (s.onKpr (fun k => { k with
      sprintOn := false, reason := reason, vReq := min k.vReq (sustCode k), vTarget := min k.vReq (sustCode k) })).onKin
      (fun i => { i with cont := 0 })

/-- Sprint is granted, goes on, or ends (R422). -/
def State.sprintDecision (s : State) : State :=
  let r := sprintReason s
  if r = 0 then s.onKpr (fun k => { k with sprintOn := true, reason := 0 })
  else if s.kpr.sprintOn then s.endSprint r
  else s.onKpr (fun k => { k with reason := r })

/-- The core grades kept under the cap (R419). -/
def State.underCap (s : State) : State :=
  { s with cores := vall s.cores (fun c => { c with grade := min c.grade s.kpr.gradeCap }) }

/-- The ceiling falls by one every 10 samples at code 120, down to `floor` (R418). -/
def State.capFall (s : State) (floor : Nat) : State :=
  let s := s.onKin (fun i => { i with capHold := i.capHold + 1 })
  if s.kin.capHold < 10 then s
  else (s.onKin (fun i => { i with capHold := 0 })).onKpr (fun k => { k with
    gradeCap := if floor < k.gradeCap then k.gradeCap - 1 else k.gradeCap })

/-- The grade cap rises by one every T_g steps once its cause has cleared (R418). -/
def State.capRise (s : State) (rate : Nat) : State :=
  let t := s.pwr.tG
  let n := s.kin.capRaise + 10 * rate
  if s.kpr.gradeCap ≥ 8 ∨ t = 0 then s.onKin (fun i => { i with capRaise := 0, capHold := 0 })
  else (s.onKin (fun i => { i with capRaise := n % t, capHold := 0 })).onKpr (fun k => { k with gradeCap := min 8 (k.gradeCap + n / t) })

/-- The alarm and the thermal throttle with their counts of cool samples (R418). -/
def KprIn.thermals (i : KprIn) (alarm hot cool : Bool) : KprIn :=
  { i with
    alarm := i.alarm || alarm
    coolAlarm := if alarm || !cool then 0 else i.coolAlarm + 1
    thermal := i.thermal || hot
    coolThrottle := if hot || !cool then 0 else i.coolThrottle + 1 }

/-- The request of a sample and what it rises to (R414, R418): under an alarm code 120 at once, under a throttle or above the power
ceiling one code down to 120, one code up while power leaves 20 W and no throttle stands, and never above the present ceiling. A
rise to `t` that goes on, as on waking, goes on. -/
def requestOf (alarm down hold up : Bool) (ceil v t : Nat) : Nat × Nat :=
  if alarm then (min v 120, min t 120)
  else
    let v := min v ceil
    if down then (max (min v 120) (v - 1), max (min v 120) (v - 1))
    else if hold then (v, v)
    else if up then (v, min ceil (max t (v + 1)))
    else (v, max v (min ceil t))

/-- Decisions 1 to 6 of R418. `ps`: P_s in µW. -/
def State.decide_ (s : State) (x : Sample) (ps : Nat) : State :=
  let k := s.kpr
  let alarm := x.chipAlarm || decide (105 ≤ k.tHot)
  let hot := decide ((k.tThrottle : Int) ≤ k.tHot)
  let cool := decide (k.tHot + 3 ≤ (k.tThrottle : Int))
  let above := decide (powerCeiling k * 1000000 < ps)
  let spare := decide (ps + 20000000 ≤ powerCeiling k * 1000000)
  let s := s.onKin (·.thermals alarm hot cool)
  let s := s.sprintDecision
  let ceil := if s.kpr.sprintOn then sprintCode s.kpr else sustCode s.kpr
  let at120 := decide (s.kpr.vReq ≤ 120)
  let awake := s.pwr.state == .active || s.pwr.state == .arraysOff || s.pwr.going == some .active
  let r := requestOf s.kin.alarm (hot || above) s.kin.thermal (spare && s.pwr.state != .idle) ceil s.kpr.vReq s.kpr.vTarget
  let s := if awake then s.onKpr (fun k => { k with vReq := r.1, vTarget := r.2 }) else s
  let s := s.onKpr (fun k => { k with
    chipAlarm := x.chipAlarm
    throttle := if s.kin.alarm then 3 else if s.kin.thermal then 2 else if above then 1 else 0 })
  let tG := 8 * ceilDiv (x.iGrade * x.rate) (10 * s.pwr.ramp)
  let s := s.onPwr (fun p => { p with tG := tG, iGrade := x.iGrade })
  let s :=
    if s.kin.alarm then s.onKpr (fun k => { k with gradeCap := 0 })
    else if at120 && hot then s.capFall (if above then 1 else 2)
    else if at120 && above then s.capFall 1
    else if s.kin.thermal || above then s.onKin (fun i => { i with capHold := 0 })
    else s.capRise x.rate
  s.underCap

/-- The level that a temperature enters (R335). -/
def levelOf (t : Int) : SLevel := if 100 < t then .critical else if 95 < t then .hot else if 85 < t then .warm else .normal

/-- The temperature at or below which a level is left (R335). -/
def SLevel.exit : SLevel → Int
  | .normal => 85 | .warm => 82 | .hot => 92 | .critical => 97

/-- One stack's temperature (R335): a level rises at once; cool samples are counted. In DEEP only the level is kept (R428). -/
def State.stackSample (s : State) (x : Nat) (t : Int) : State :=
  let k := s.stack x
  if stackCount s.map.profile ≤ x then s
  else if k.level.code < (levelOf t).code then
    if s.pwr.state = .deep then s.onStack x (fun k => { k with level := levelOf t, cool := 0 })
    else s.raiseLevel x (levelOf t)
  else s.onStack x (fun k => { k with cool := if t ≤ k.level.exit then k.cool + 1 else 0 })

/-- What a stack's level goes by (R335, R417): the greater of its own temperature and the last accepted reading of the sensor at its
controller; in DEEP its own temperature alone (R428). -/
def State.stackHeat (s : State) (x : Nat) (t : Int) : Int :=
  if s.pwr.state = .deep then t
  else match s.kin.sensors[80 + (Config.stackSensor x).toNat]? with
    | some (some y, _, false) => max t y
    | _ => t

/-- A counter that carries into another at `n`. -/
def carry (n frac whole add : Nat) : Nat × Nat := ((frac + add) % n, whole + (frac + add) / n)

/-- Accounting of a sample (R421, R422, R424, R430): charge, continuous time, wear counters, telemetry. The wear counters count outside
DEEP. -/
def KprIn.account (i : KprIn) (k : Kpr) (deep : Bool) (ps rate : Nat) : KprIn :=
  let spr := carry 1000 i.sprintFrac i.sprintCs (bit k.sprintOn)
  let pow := carry 100000 i.poweredFrac i.poweredS (bit (!deep))
  let age := carry 10000000 i.ageFrac i.ageS (if deep then 0 else 100 + 35 * (k.vReq - 150))
  { i with
    budget := min budgetFull (i.budget + k.pLimit * 1000000 - ps)
    cont := if k.sprintOn then i.cont + bit (decide (k.vSust + k.vminTrim < k.vReq)) else 0
    sprintFrac := spr.1, sprintCs := spr.2
    poweredFrac := pow.1, poweredS := pow.2
    ageFrac := age.1, ageS := age.2
    pMin := if i.rateN = 0 then ps else min i.pMin ps
    pMax := if i.rateN = 0 then ps else max i.pMax ps
    rateSum := i.rateSum + rate
    rateN := i.rateN + 1 }

/-- With two copies that differ, the more restrictive choice is taken: the lower request, throttling and alerts applied, the larger wear
counts (R395, R420). -/
def State.restrict (s : State) (x : CopyView) : State :=
  let s := s.onKpr (fun k => { k with
    vReq := min k.vReq (max 110 x.vReq), vTarget := min k.vTarget (max 110 x.vReq), throttle := max k.throttle (min 3 x.throttle)
    gradeCap := min k.gradeCap x.gradeCap })
  let s := s.onKin (fun i => { i with
    alarm := i.alarm || x.alarm, thermal := i.thermal || decide (2 ≤ x.throttle), sprintCs := max i.sprintCs x.sprintCs
    poweredS := max i.poweredS x.poweredS, ageS := max i.ageS x.ageS })
  let more := (x.written.zipIdx).filter (fun y => decide ((vget s.far.wear y.2).written < y.1))
  more.foldl (fun s y =>
    (s.onFar (fun f => { f with wear := vmod f.wear y.2 (fun w => { w with written := y.1 }) })).wearCheck
      (vget s.far.wear y.2).serial) s

/-- A keeper copy is outvoted (R395): reloaded, and retired when it was outvoted within the last second; with two copies the difference
is logged, and `State.restrict` takes the more restrictive choice. -/
def State.outvote (s : State) (copy kind : Nat) : State :=
  let vote := s.kin.votes.getD copy (false, none)
  let now := s.kpr.sample
  if !vote.1 then s
  else if twoCopies s then s.logRec { event := 0x0C, action := 9, kind := 5, unit := copy, d0 := kind }
  else match vote.2 with
    | some t =>
      if now < t + 100000 then
        ((s.onKin (fun i => { i with copies := i.copies - 1, votes := i.votes.set copy (false, none) })).logRec
          { event := 0x0C, action := 1, kind := 5, unit := copy, d0 := kind }).report
      else (s.onKin (fun i => { i with votes := i.votes.set copy (true, some now) })).logRec
        { event := 0x0C, action := 0, kind := 5, unit := copy, d0 := kind }
    | none => (s.onKin (fun i => { i with votes := i.votes.set copy (true, some now) })).logRec
        { event := 0x0C, action := 0, kind := 5, unit := copy, d0 := kind }

/-- One sample of the keeper (R416-R424): sensors, then the decisions in the order of R418. The keeper runs in every state once
it has left stage S0 (R431). -/
def execKeeperSample (x : Sample) (s : State) : Host.Outcome State Fault Refusal :=
  .next (
    if s.start.stage = 0 then s
    else
      let ps := samplePower x
      let s := s.onKpr (fun k => { k with sample := (k.sample + 1) % 2 ^ 48 })
      let s := match x.outvoted with | none => s | some v => s.outvote v.1 v.2
      let s := s.onKin (fun i => { i with
        sensors := List.zipWith filterReading i.sensors x.thermal, recent := (ps :: i.recent).take 10
        vMeas := meanVdd x, tStack := (maxInt x.stackT).getD i.tStack })
      let s := s.onKpr (fun k => { k with tHot := hotSpot s.kin.sensors k.tHot, pF := meanPower s.kin.recent })
      let low := s.pwr.state != .deep && lowVoltage x s.kpr.vReq
      let s := s.onKin (fun i => { i with lowV := if low then i.lowV + 1 else 0 })
      let s := s.decide_ x ps
      let s := (x.stackT.zipIdx).foldl (fun s y => s.stackSample y.2 (s.stackHeat y.2 y.1)) s
      let s := s.onKin (fun i => i.account s.kpr (s.pwr.state == .deep) ps x.rate)
      let s := if twoCopies s && x.outvoted.isSome then (s.restrict x.other).underCap else s
      s.driveRequest)

/-- The next one-code write of a rising request (R414). -/
def execVoltageStep (s : State) : Host.Outcome State Fault Refusal :=
  .next (if s.kpr.vReq < s.kpr.vTarget then (s.onKpr (fun k => { k with vReq := k.vReq + 1 })).driveRequest else s)

/-- 150,000 continuous samples of sprint have passed (R422, R425). -/
def execSprintContinuousLimit (s : State) : Host.Outcome State Fault Refusal :=
  .next (if 150000 ≤ s.kin.cont then (s.endSprint 4).driveRequest else s)

/-- A throttle or an alarm clears after 100 consecutive cool samples (R418). -/
def execThrottleClear (s : State) : Host.Outcome State Fault Refusal :=
  .next (
    let s := s.onKin (fun i => { i with
      thermal := i.thermal && decide (i.coolThrottle < 100)
      alarm := i.alarm && decide (i.coolAlarm < 100) })
    s.onKpr (fun k => { k with
      throttle := if s.kin.alarm then 3 else if s.kin.thermal then 2 else if k.throttle = 1 then 1 else 0 }))

/-- VDD_ARR has read low for 3 samples: sprint is refused with ALARM until the next start, the event logged and the alert raised
(R415). -/
def execVoltageMonitorAlarm (s : State) : Host.Outcome State Fault Refusal :=
  .next (
    if s.kin.lowV < 3 ∨ s.kin.vFault then s
    else (((s.onKin (fun i => { i with vFault := true })).endSprint 7).driveRequest).logInternal 9 0 0)

/-- A thermal sensor rejected in 3 consecutive samples is failed until the next start (R417). -/
def execSensorFailed (sensor : Fin 96) (s : State) : Host.Outcome State Fault Refusal :=
  .next (s.onKin (fun i => { i with sensors := i.sensors.modify sensor.val (fun x => (x.1, x.2.1, x.2.2 || decide (3 ≤ x.2.1))) }))

/-- A telemetry record (R430). -/
def telemetryWord (s : State) : Nat :=
  let k := s.kpr
  let i := s.kin
  let watts := fun (p : Nat) => putBits (min 1023 (p / 1000000)) 10
  putBits k.sample 48 0 + putBits k.vReq 8 48 + putBits i.vMeas 8 56 + putBits (ofSigned k.tHot 8) 8 64
    + putBits (ofSigned i.tStack 8) 8 72 + putBits (min 1023 k.pF) 10 80 + watts i.pMin 90 + watts i.pMax 100
    + putBits k.throttle 2 110 + putBits (bit k.sprintOn) 1 112 + putBits s.pwr.state.code 2 113
    + putBits (i.budget / 100000000000) 9 128 + putBits (i.rateSum / max 1 i.rateN) 16 144
    + putBits (sat32 i.workN) 32 160 + putBits (sat32 i.fillN) 32 192

/-- What a record shows beside the samples: readings taken at the record, and steps that were no row of their own (R430; log 90). -/
def KprIn.atRecord (i : KprIn) (vMeas : Option Nat) (tStack : Option Int) (work filler : Nat) : KprIn :=
  { i with vMeas := vMeas.getD i.vMeas, tStack := tStack.getD i.tStack, workN := i.workN + work, fillN := i.fillN + filler }

/-- Every 100 samples a telemetry record goes to the ring in the block region (R430, R471). -/
def execTelemetryRecord (vMeas : Option Nat) (tStack : Option Int) (workSteps fillerSteps : Nat) (s : State) :
    Host.Outcome State Fault Refusal :=
  .next (
    if !blkRuns s || s.kpr.sample % 100 != 0 then s
    else
      let s := s.onKin (·.atRecord vMeas tStack workSteps fillerSteps)
      (s.store (0x0C040000 + 64 * (s.kpr.sample / 100 % 4096)) (natLe (telemetryWord s) 64)).onKin
        (fun i => { i with pMin := 0, pMax := 0, rateSum := 0, rateN := 0, workN := 0, fillN := 0 }))

/-- Every 1,000 samples the wear counters go to their mirror and the bytes of it in the block region (R424, R471; log 83). -/
def execWearMirror (s : State) : Host.Outcome State Fault Refusal :=
  .next (
    if !blkRuns s || s.kpr.sample % 1000 != 0 then s
    else (s.onMirror (fun x => { x with
      sprintCs := s.kin.sprintCs, poweredS := s.kin.poweredS, ageS := s.kin.ageS })).mirrorBytes 0
        (natLe s.kin.sprintCs 8 ++ natLe s.kin.poweredS 8 ++ natLe s.kin.ageS 8))

/-- Delay-margin calibration of a core (R429): a margin that cannot be met raises VMIN_TRIM by one code, or at 10 retires the
core. -/
def execDelayMarginCalibration (c : KIx) (margin : Bool) (s : State) : Host.Outcome State Fault Refusal :=
  .next (
    if !blkRuns s || margin || !(s.core c).inService then s
    else if s.kpr.vminTrim < 10 then
      (s.onKpr (fun k => { k with vminTrim := k.vminTrim + 1 })).logInternal 9 2 c
    else (s.logInternal 1 2 c).retireCore c s.nextLog)

/-! Grades (R129-R131). -/

/-- An array of core `c` has work: a step whose data is ready (R129, R146). -/
def coreWorks (s : State) (c : Nat) : Bool := (rangeFrom (4 * c) 4).any (fun a => (s.array a).inService && arrayWorks s a)

/-- A T_g interval ends: the grade rises while any array of the core has work, and falls while none has, once the hold window has
passed; never above the grade cap (R129, R131, R419). -/
def execGradeInterval (c : KIx) (s : State) : Host.Outcome State Fault Refusal :=
  .next (
    if !arraysPowered s || !(s.core c).inService then s
    else if coreWorks s c then
      s.onCore c (fun k => { k with grade := min (min 8 s.kpr.gradeCap) (k.grade + 1), dir := 1, holding := true })
    else s.onCore c (fun k => if k.holding then k else { k with grade := k.grade - 1, dir := 2 }))

/-- The hold window of a core without work passes (R131). -/
def execHoldWindowExpiry (c : KIx) (s : State) : Host.Outcome State Fault Refusal :=
  .next (if coreWorks s c then s else s.onCore c (fun k => { k with holding := false, dir := 2 }))

end Sys2Proof.Machine
end

