-- ==== Sys2Proof/Machine/Start.lean ====
section
/-! DEFINITION. Starts and resets: what each reset keeps, the stages S0 to S6, failed starts, skeleton mode and the patch image
(R432-R450, R467, R469). -/
namespace Sys2Proof.Machine

/-! What a reset clears (R448). -/

/-- A context whose work is lost: DISABLED, its step register 0; settings, error bits, totals and interrupts kept. -/
def Ctx.stopped (c : Ctx) : Ctx :=
  { c with mode := .disabled, step := 0, stage := 0, zeroed := false, resetAfter := false, heldBefore := [] }

/-- Work in flight lost, without replies; on-chip memories of the compute units zero; held frames, send buffers and FSEQ cleared.
Settings, retirements, the shared cache and near memory are kept: the Warm column of R448. A diagnostic pass that is due is kept
too (R124; log 9). -/
def State.loseWork (s : State) : State :=
  { s with
    cp := { s.cp with paused := false, testing := 0, nextTicket := 0, cmds := [], unplaced := [], areas := [] }
    ctxs := vall s.ctxs Ctx.stopped
    qs := vall s.qs Queue.zeroed
    arrays := vall s.arrays (fun a => { ArraySt.reset with
      inService := a.inService, retired := a.retired, wardFails := a.wardFails, diag := a.diag })
    halves := vall s.halves (fun h => { ThinSt.reset with events := h.events })
    cores := vall s.cores (fun c => { CoreSt.reset with
      inService := c.inService, retired := c.retired, thinIn := c.thinIn, grade := c.grade, dir := c.dir, holding := c.holding
      scrub := c.scrub, events := c.events })
    tun := []
    mem := { s.mem with held := [] }
    svc := { s.svc with busy := false, image := none }
    xch := { s.xch with
      tx := Vector.replicate 9 TxHop.reset, rx := Vector.replicate 9 RxHop.reset, held := Vector.replicate 16 [] }
    port := { s.port with hout := [] } }

/-- The Cold column of R448, which the exit from DEEP shares but for the totals: after the write-back of the cache. -/
def State.coldClear (s : State) : State :=
  let s := s.loseWork
  { s with
    mem := { s.mem with upsets := [], slicesOut := [] }
    ctxs := Vector.replicate 16 Ctx.reset
    qs := Vector.replicate 64 Queue.reset
    arrays := Vector.replicate 32 ArraySt.reset
    halves := Vector.replicate 16 ThinSt.reset
    cores := Vector.replicate 8 CoreSt.reset
    cp := Cp.reset
    svc := Svc.reset
    xch := { XchSt.reset with out := s.xch.out }
    map := { MapSt.reset with profile := s.map.profile }
    stks := vall s.stks (fun x => { StackSt.reset with level := x.level, cool := x.cool })
    far := { s.far with wearIdx := 0, wearLatch := 0, pendingFree := [] }
    blk := { s.blk with
      mode := .starting, degraded := false, replace := false, lastCond := 0, conds := [], patchVer := 0
      spare := Vector.replicate 32 0, keepArrays := [], keepCores := [] }
    kpr := { s.kpr with sprintEn := false, sprintOn := false, reason := 0, limitErr := false }
    kin := { s.kin with
      sensors := s.kin.sensors.map (fun x => (x.1, 0, false)), cont := 0, lowV := 0, vFault := false }
    pwr := { s.pwr with target := .active, state := .active, refused := false, going := none, waking := [] }
    start := { s.start with stage := 7, retryDue := false, skeleton := false } }

/-- The dirty lines of the shared cache and the parked lines of the cellar written back (R428, R446). -/
def State.writeBack (s : State) : State :=
  s.onMem (fun m => { m.flush (fun _ => true) with parked := [], marks := [] })

/-- Straps as ASSY_PROFILE holds them (R467). -/
def strapBits (v : Nat) : Nat := bitsOf v 19 0 + putBits (bitsOf v 63 32) 32 32

/-- The straps latched (R467). -/
def State.latchStraps (s : State) (v : Nat) : State :=
  let s := (s.onBlk (fun b => { b with straps := strapBits v })).driveRequest
  (s.onMap (fun x => { x with profile := v % 4 })).onPort (fun x => { x with testEn := bitOf v 19 })

/-! Attempts (R438-R442). -/

/-- An attempt begins S1: a skeleton start once three have failed (R438, R441). -/
def State.beginS1 (s : State) (kind : StartKind) : State :=
  let skel := decide (3 ≤ s.start.attempts)
  (s.onStart (fun x => { x with
    stage := 1, retryDue := false, kind := kind, skeleton := skel
    startCount := if skel then x.startCount else min 65535 (x.startCount + 1) })).onBlk (fun b => { b with mode := .starting })

/-- A stage fails (R438, R441): the attempt is counted and recorded, and the next one waits 1 ms. -/
def State.failStage (s : State) (code kind unit : Nat) : State :=
  (s.onStart (fun x => { x with
    stageFail := x.stage, attempts := min 3 (x.attempts + 1), code := code, unitKind := kind, unit := unit
    stage := 7, retryDue := true })).raiseSvc 4

/-- The block is FAILED (R439, R485). -/
def State.fail (s : State) : State := (s.onStart (fun x => { x with stage := 7, retryDue := false })).onBlk (fun b => { b with mode := .failed })

/-- The stage passes. -/
def State.nextStage (s : State) : State := s.onStart (fun x => { x with stage := x.stage + 1 })

/-! S1 (R397). -/

/-- Arrays that need more rows or columns than there are spares (R397). -/
def beyondSpares (l : List Nat) : List Nat :=
  (rangeFrom 0 32).filter (fun a => decide (2 < (repairsFor l a 0).length) || decide (2 < (repairsFor l a 1).length))

/-- Arrays whose spare map is not a legal one (R127). -/
def badMaps (l : List Nat) : List Nat :=
  (rangeFrom 0 32).filter (fun a => spareBad (spareWord (repairsFor l a 0) (repairsFor l a 1)))

/-- Spare maps and keep-outs from the records of both places; records with a wrong CHECK are logged (R397, R404). -/
def State.stageS1 (s : State) : State :=
  let l := goodRecords s
  let bad := (fuseRecs s.blk.fuse ++ s.blk.repair).filter (fun r => repValid r && !repGood r)
  let s := s.onBlk (fun b => { b with
    spare := Vector.ofFn (fun (a : Fin 32) => spareWord (repairsFor l a 0) (repairsFor l a 1))
    keepArrays := (beyondSpares l ++ badMaps l ++ (l.filter (fun r => repKind r == 2)).map repArray).eraseDups
    keepCores := ((l.filter (fun r => repKind r == 3)).map (fun r => repArray r / 4)).eraseDups })
  bad.foldl (fun s r => s.logRec { event := 0x23, action := 9, d0 := r }) s

/-! S2 (R314, R329, R342, R345, R346, R352, R355, R424, R450). -/

/-- Stacks of the assembly that fail training. -/
def deadStacks (profile : Nat) (gib : List (Option Nat)) : List Nat :=
  (rangeFrom 0 (stackCount profile)).filter (fun x => (gib.getD x none).isNone)

/-- U: slots of the smallest capacity reported, up to 48 GiB (R314). -/
def slotsOf (profile : Nat) (gib : List (Option Nat)) : Nat :=
  ((rangeFrom 0 (stackCount profile)).filterMap (fun x => gib.getD x none)).foldl min 48 * 16384

/-- A map-out applied to a map that is being formed: its range lies under the present TOP (R329). -/
def MapSt.withOut (m : MapSt) (o : MapOut) : MapSt :=
  let e := mapOutSize m o.skip
  { m with top := m.top - e, outs := m.outs ++ [{ o with base := m.top - e, moved := if o.moved = 0 then 0 else m.slots }] }

/-- MAP_STATE with the map-out list applied, and the channels that training lost mapped out behind it (R329, R432). -/
def formMap (s : State) (slots : Nat) (dead : List Nat) (old : List MapOut) (lost : List (Nat × Nat)) : MapSt :=
  let m : MapSt := { s.map with parity := s.blk.paritySet, fenced := dead, slots := slots, outs := [], rebuilds := false, patrol := 0 }
  let m := { m with top := slots * rowGranules m }
  if !m.parity then m
  else
    let m := old.foldl MapSt.withOut m
    let out := dead.flatMap (fun x => (rangeFrom 0 32).map (fun c => (x, c))) ++ old.map (fun o => (o.stack, o.chan)) ++ lost
    lost.foldl (fun m c => m.withOut ⟨c.1, c.2, 0, out, 0, [], false⟩) m

/-- The error log restored from its mirror after a power-on reset, zeros when its CRC fails; records of this start follow (R450). -/
def State.restoreLog (s : State) (ok : Bool) : State :=
  let old : ErrLog := if ok then { s.mirror.log with rd := 0 } else ⟨[], 0, 0, false, 0⟩
  let new := s.log.recs.map (·.2)
  s.onLog (fun _ => new.foldl (fun l w => l.push (w / 2 ^ 32 * 2 ^ 32 + l.nextSeq)) old)

/-- The mirror of the log brought up to date once the stacks are trained (R402). -/
def State.mirrorLog (s : State) : State :=
  let s := s.log.recs.foldl (fun s x => s.store (logMirror + 32 * x.1) (natLe x.2 32)) s
  s.onMirror (fun x => { x with log := s.log })

/-- The wear ledger's mirror brought up to date once the stacks are trained (R350, R471). -/
def State.ledgerBack (s : State) : State := s.store (keeperMirror + 0x1000) (ledgerBytes s.far.wear)

/-- Wear counters from the larger of retention and mirror (R424, R450). -/
def State.restoreWear (s : State) (ok : Bool) : State :=
  if !ok then s
  else s.onKin (fun i => { i with
    sprintCs := max i.sprintCs s.mirror.sprintCs, poweredS := max i.poweredS s.mirror.poweredS, ageS := max i.ageS s.mirror.ageS })

/-- Modules as attached at S2: on wired ports, within 8 TiB in total (R344, R354). -/
def attachModules (s : State) (l : List (Option ModuleInfo)) : Vector (Option Module) 4 :=
  (rangeFrom 0 4).foldl (fun v p =>
    let used := v.toList.foldl (fun n m => n + m.elim 0 (·.capGib)) 0
    vmod v p (fun _ => if portWired s p then (l.getD p none).map (fun m => (⟨m, min (m.volGib + m.persGib) (8192 - used)⟩ : Module)) else none))
    (Vector.replicate 4 none)

/-- After a loss of keeper retention a present RATED module's entry takes the larger of its mirror and its on-module record
(R352). -/
def State.restoreEntry (s : State) (m : Module) : State :=
  if !m.rated || !s.start.ledgerDue then s
  else s.onWear m.serial (fun w => { w with
    ratedTib := if w.written < m.recWritten || w.ratedTib = 0 then m.recRatedTib else w.ratedTib
    written := max w.written m.recWritten })

/-- The far tier at S2 (R344-R346, R352, R355, R450): modules, aperture size, ledger entries, and extents whose module is gone
LOST. In skeleton mode the far tier is not used and stays as it was (R439): its ledger is restored by the next full start. -/
def State.farStart (s : State) (i : S2Info) : State :=
  if s.start.skeleton then s
  else
    let old := s.far.modules
    let now := attachModules s i.modules
    let lostSerial := fun (p : Nat) => match vget old p, vget now p with
      | some m, some n => if m.serial = n.serial then none else some m.serial
      | some m, none => some m.serial
      | none, _ => none
    let wear0 := if s.start.ledgerDue then
        (if i.ledgerOk then s.mirror.wear else Vector.replicate 16 Wear.empty) else s.far.wear
    let clock := wear0.toList.foldl (fun n w => max n w.absentAt) s.far.clock + 1
    let s := s.onFar (fun f => { f with
      clock := clock
      modules := now
      linkUp := vall now (·.isSome)
      extents := now.toList.foldl (fun n m => n + m.elim 0 (fun x => x.capGib * 1024 - 64)) 0
      map := f.map.map (fun e => if e.lost.isNone then { e with lost := lostSerial e.port } else e)
      cells := f.cells.filter (fun c => (lostSerial (c.1 / 2 ^ 43)).isNone)
      wear := vall wear0 (fun w => if w.state = 1 then { w with state := 2, absentAt := clock } else w) })
    let s := (rangeFrom 0 4).foldl (fun s p => match vget now p with
      | none => s
      | some m => ((s.takeEntry p m).restoreEntry m).wearCheck m.serial) s
    let s := (s.mirrorLedger).onStart (fun x => { x with ledgerDue := false })
    (s.far.map.filter (·.lost.isSome)).foldl (fun s e => s.writeLost e) s

/-- Stacks still HOT are fenced again (R447). -/
def State.fenceHot (s : State) : State :=
  (rangeFrom 0 (stackCount s.map.profile)).foldl (fun s x =>
    if (s.stack x).level.code < 2 then s else s.raiseLevel x (s.stack x).level) s

/-- A channel lost in training (R333, R433); its cause is no code of R327: a free value. -/
def State.logTrainLost (s : State) (c : Nat × Nat) : State :=
  let x := s.freeWord
  x.1.logRec { event := 0x11, action := if s.map.parity then 4 else 9, kind := 8, unit := c.1 * 32 + c.2, d0 := x.2 }

/-- Channels of stack `x` in a list. -/
def chansOf (l : List (Nat × Nat)) (x : Nat) : List Nat := (l.filter (fun c => c.1 == x)).map (·.2)

/-- A stack after training: DEAD, or serving with channels lost; its level is the keeper's (R335, R342). -/
def StackSt.trained (k : StackSt) (dead : Bool) (lost : List Nat) : StackSt :=
  { k with fence := if dead then .dead else .none, lost := if dead then [] else lost, lostAt := [], retries := [], ues := [] }

/-- The memory map formed and the stacks trained (R333, R433). -/
def State.trainStacks (s : State) (m : MapSt) (dead : List Nat) (gone : List (Nat × Nat)) : State :=
  { s with map := m, stks := Vector.ofFn (fun x => (vget s.stks x).trained (dead.contains x.val) (chansOf gone x)) }

/-- The map of a skeleton start: one stack of `slots` slots, alone, without parity (R439). -/
def State.skeletonMap (s : State) (slots : Nat) : State :=
  { s with
    map := { s.map with
      parity := false, fenced := [], slots := slots, outs := [], rebuilds := false, patrol := 0, top := 32 * slots }
    stks := vall s.stks (fun k => { k with fence := .none, lost := [], lostAt := [], retries := [], ues := [] }) }

/-- The error log has been restored once: later attempts keep it (R450). -/
def StartSt.restored (x : StartSt) : StartSt := { x with logDue := false }

/-- Stage S2 of a full start (R432). -/
def State.stageS2 (s : State) (i : S2Info) : State :=
  let prof := s.blk.straps % 4
  let dead := deadStacks prof i.stackGib
  let listed := s.blk.mapList.filter (fun o => !dead.contains o.stack)
  let lost : List (Nat × Nat) := (i.lostChannels.filter (fun (c : Nat × Nat) => decide (c.1 < stackCount prof) && decide (c.2 < 32) && !dead.contains c.1
    && !listed.any (fun o => o.stack == c.1 && o.chan == c.2))).eraseDups
  if 1 < dead.length then s.failStage 0x20 7 (dead.getLast?.getD 0)
  else if !s.blk.paritySet && !dead.isEmpty then s.failStage 0x21 7 (dead.getLast?.getD 0)
  else if s.blk.paritySet && decide (8 < listed.length + lost.length) then
    s.failStage 0x20 7 ((lost.getLast?.map (·.1)).getD 0)
  else
    let m := formMap s (slotsOf prof i.stackGib) dead listed lost
    let gone : List (Nat × Nat) := listed.map (fun o => (o.stack, o.chan)) ++ lost
    let s := s.trainStacks m dead gone
    let s := if m.parity then s.onBlk (fun b => { b with mapList := m.outs }) else s
    let s := s.restoreWear i.wearOk
    let s := if s.start.logDue then s.restoreLog i.errLogOk else s
    let s := dead.foldl (fun s x => s.logRec { event := 0x15, action := 5, kind := 7, unit := x }) s
    let s := lost.foldl State.logTrainLost s
    ((((s.farStart i).fenceHot).mirrorLog.ledgerBack).onStart StartSt.restored).nextStage

/-- Stage S2 of a skeleton start: the lowest-numbered stack that trains, alone, without parity (R439). -/
def State.stageS2Skeleton (s : State) (i : S2Info) : State :=
  let prof := s.blk.straps % 4
  match (rangeFrom 0 (stackCount prof)).find? (fun x => (i.stackGib.getD x none).isSome) with
  | none => s.fail
  | some x =>
    let s := s.skeletonMap (min 48 ((i.stackGib.getD x none).getD 0) * 16384)
    let s := s.restoreWear i.wearOk
    let s := if s.start.logDue then s.restoreLog i.errLogOk else s
    ((s.mirrorLog).onStart StartSt.restored).nextStage

/-! S3 and S4 (R432, R433, R439). -/

/-- A unit that its self-test retires until the next start is logged; R404 names no event for it (R433). -/
def State.logUnits (s : State) (kind : Nat) (l : List Nat) : State := l.foldl (fun s x => s.logInternal 1 kind x) s

/-- Arrays, cores and thin paths as the self-tests and the keep-outs leave them (R397, R432). -/
def State.unitsTested (s : State) (badA badT : List Nat) : State :=
  let out := fun (c : Nat) => s.blk.keepCores.contains c
  { s with
    arrays := Vector.ofFn (fun (a : Fin 32) => { ArraySt.reset with
      inService := !(badA.contains a.val || s.blk.keepArrays.contains a.val || out (a.val / 4))
      retired := badA.contains a.val || s.blk.keepArrays.contains a.val || out (a.val / 4) })
    cores := Vector.ofFn (fun (c : Fin 8) => { (vget s.cores c) with
      inService := !out c.val, retired := out c.val
      thinIn := !(badT.contains c.val || out c.val || s.start.skeleton) }) }

/-- Arrays that fail a phase of R124 (R127, R432). -/
def badArrays (reads : List (Nat × List DiagRead)) : List Nat := (reads.filter (fun x => !(diagWrong x.2).isEmpty)).map (·.1)

/-- Stage S3: the phases of R124 on every array, the thin paths' self-tests, and the keep-outs (R127, R397, R432). -/
def State.stageS3 (s : State) (reads : List (Nat × List DiagRead)) (badT : List Nat) : State :=
  let badA := badArrays reads
  let s := ((s.unitsTested badA badT).logUnits 1 badA).logUnits 3 badT
  if s.start.skeleton then (if arraysIn s = 0 then s.fail else s.nextStage)
  else if arraysIn s < 16 then s.failStage 0x30 0 0 else s.nextStage

/-- Memories left holding zeros by the march test (R432). -/
def State.marchZero (s : State) : State :=
  { s with
    tun := [], halves := vall s.halves (fun h => { h with store := [], wBlock := none, weights := [], acc := [] })
    arrays := vall s.arrays (fun a => { a with stage := StageSt.empty }) }

/-- Bad cores, and arrays with bad stage memory, retired (R432). -/
def State.unitsMarched (s : State) (badC badS : List Nat) : State :=
  { s with
    arrays := Vector.ofFn (fun (a : Fin 32) =>
      let x := vget s.arrays a
      let bad := badS.contains a.val || badC.contains (a.val / 4)
      { x with inService := x.inService && !bad, retired := x.retired || bad, stage := StageSt.empty })
    cores := Vector.ofFn (fun (c : Fin 8) =>
      let x := vget s.cores c
      let bad := badC.contains c.val
      { x with inService := x.inService && !bad, retired := x.retired || bad, thinIn := x.thinIn && !bad }) }

/-- One array and its core alone stay in service (R439). -/
def State.oneArray (s : State) (a : Nat) : State :=
  { s with
    arrays := Vector.ofFn (fun (b : Fin 32) => { (vget s.arrays b) with inService := b.val == a })
    cores := Vector.ofFn (fun (c : Fin 8) => { (vget s.cores c) with inService := c.val == a / 4 }) }

/-- Stage S4: a bad core or an array with bad stage memory is retired; in skeleton mode the lowest array of the lowest core that
passes stays, with the slices that pass (R432, R439). -/
def State.stageS4 (s : State) (badC badS badL : List Nat) : State :=
  let s := ((s.marchZero.unitsMarched badC badS).logUnits 2 badC).logUnits 1 badS
  if s.start.skeleton then
    let s := (s.onMem (fun m => { m with slicesOut := badL.eraseDups })).logUnits 6 badL
    if 16 ≤ badL.eraseDups.length then s.fail
    else match (rangeFrom 0 32).find? (fun a => (s.array a).inService) with
    | none => s.fail
    | some a => (s.oneArray a).nextStage
  else match badL with
    | x :: _ => s.failStage 0x40 6 x
    | [] => if arraysIn s < 16 then s.failStage 0x41 0 0 else s.nextStage

/-! S5 (R437, R439, R442). -/

/-- Bits set in a number below 2^n. -/
def popCount : Nat → Nat → Nat
  | 0, _ => 0
  | n + 1, x => x % 2 + popCount n (x / 2)

/-- The failure code of a patch image, 0 when it is accepted (R437, R442). -/
def imageCode (fuse : Nat) (img : Option (List Byte)) : Nat :=
  match img with
  | none => 0x50
  | some l =>
    let h := leNat (l.take 256)
    let len := bitsOf h 95 64
    if l.length < 256 then 0x50
    else if bitsOf h 31 0 ≠ 0x43525054 ∨ len % 64 ≠ 0 ∨ 4194304 - 256 < len ∨ bitsOf h 47 32 < popCount 64 (bitsOf fuse 447 384) then 0x51
    else if l.length < 256 + len then 0x50
    else
      let key := (l.drop 64).take 96
      let sig := (l.drop 160).take 96
      let pk := beNat (natLe (bitsOf fuse 383 0) 48).reverse
      if bitsOf fuse 383 0 = 0 ∨ sha384 key ≠ pk then 0x52
      else if ecdsaOk (beNat (key.take 48)) (beNat (key.drop 48)) (beNat (sig.take 48)) (beNat (sig.drop 48))
          (sha384 (l.take 160 ++ (l.drop 256).take len)) then 0
      else 0x53

/-- Stage S5: the command processor's cores, a CP_SELFTEST record when one fails (R404, R433), and the patch image, read from the host
aperture (R436, R457); journal, ledger and records cleared (R432, R437). -/
def State.stageS5 (s : State) (pass : List Bool) (img : Option (List Byte)) : State :=
  let n := pass.countP id
  let ok := if s.start.skeleton then decide (1 ≤ n) else decide (2 ≤ n)
  let s := if n < 3 then s.logRec { event := 0x0B, action := 1, kind := 4, d0 := maskOf pass } else s
  let named := s.blk.fwPatch ≠ 0 ∧ ¬ s.start.skeleton
  let code := imageCode s.blk.fuse (if regionOf s.blk.fwPatch = .host then img else none)
  if !ok then (if s.start.skeleton then s.fail else s.failStage 0x54 0 0)
  else if named ∧ code ≠ 0 then s.failStage code 0 0
  else
    let ver := if named then bitsOf (leNat ((img.getD []).take 256)) 47 32 else 0
    ((s.onCp (fun _ => { Cp.reset with running := min 2 n, spare := decide (3 ≤ n), ids := (rangeFrom 0 3).filter (fun i => pass.getD i false) })).onBlk (fun b => { b with patchVer := ver })).nextStage

/-! S6 (R432). -/

/-- Totals saved at DEEP entry come back (R448). -/
def State.restoreTotals (s : State) : State :=
  { s with ctxs := Vector.ofFn (fun (n : Fin 16) => { (vget s.ctxs n) with totals := vget s.mirror.totals n }) }

/-- Stage S6: B full, the epoch of the exchange, the waiting rebuild, BLK_STATE and the service interrupt (R365, R432, R438, R448). -/
def State.stageS6 (s : State) : State :=
  let full := !s.start.skeleton && s.start.kind != .warm
  let s := s.onKin (fun i => { i with budget := budgetFull })
  let s := s.onXch (fun x => { x with tx := vall x.tx (fun t => { t with epoch := s.kpr.sample % 2 ^ 32 }) })
  let s := if s.start.kind = .deep then s.restoreTotals else s
  let s := s.onStart (fun x => { x with stage := 7, attempts := if full then 0 else x.attempts })
  let s := s.onBlk (fun b => { b with mode := if s.start.skeleton then .skeleton else .ready })
  let s := s.onMap (fun x => { x with rebuilds := true })
  let s := match s.map.outs.find? (fun o => !o.rebuilt) with
    | none => s
    | some o => s.logRec (rebuildRec o 0 s.map.top)
  let s := (s.report).raiseSvc 1
  if s.pwr.target = s.pwr.state then s else s.onPwr (fun p => { p with going := some p.target })

/-! The rows. -/

/-- A start stage ends with what it found (R432, R433). A finding of another stage than the one that runs changes nothing. -/
def execStartStageEnd (e : StageEnd) (s : State) : Host.Outcome State Fault Refusal :=
  .next (
    if s.start.resetLow then s
    else match s.start.stage, e with
    | 0, .s0 agree =>
      let s := s.onKin (fun i => { i with
        copies := agree, votes := (rangeFrom 0 3).map (fun j => (decide (j < agree), none))
        vport := { i.vport with rate := if agree < 2 ∨ bitOf s.blk.straps 14 then i.vport.rate else 50 } })
      let s := s.logUnits 5 ((rangeFrom 0 3).filter (fun j => decide (agree ≤ j)))
      if agree < 2 then s.failStage 0 0 0 else s.beginS1 s.start.kind
    | 1, .s1 ok => if ok then (s.stageS1).nextStage else s.failStage 0x10 0 0
    | 2, .s2 i => if s.start.skeleton then s.stageS2Skeleton i else s.stageS2 i
    | 3, .s3 a t => s.stageS3 a t
    | 4, .s4 c st sl => s.stageS4 c st sl
    | 5, .s5 p img => s.stageS5 p img
    | 6, .s6 => s.stageS6
    | _, _ => s)

/-- A stage exceeds its bound (R432, R442); S6 has none. -/
def execStartStageTimeout (s : State) : Host.Outcome State Fault Refusal :=
  .next (if s.start.stage ≤ 5 ∧ ¬ s.start.resetLow then s.failStage 0x7F 0 0 else s)

/-- 1 ms after a failed attempt the next one begins at S1 (R438). A start retests every unit, so what a cold reset clears is clear for
it too. -/
def execStartRetry (s : State) : Host.Outcome State Fault Refusal :=
  .next (
    if !s.start.retryDue || s.start.resetLow then s
    else
      let svc := s.svc
      let k := if s.start.kind = .warm then .cold else s.start.kind
      ((s.writeBack.coldClear).onSvc (fun x => { x with irq := svc.irq, mask := svc.mask })).beginS1 k)

/-- VDD_KPR rises (R444, R448, R450): every setting at its power-on value; the eFuse bank, the mirrors and the modules are what they
were. -/
def execPowerOnReset (straps : Word) (s : State) : Host.Outcome State Fault Refusal :=
  .next (({ State.reset with
    pending := s.pending, free := s.free, mirror := s.mirror
    blk := { Blk.reset with fuse := s.blk.fuse }
    far := { FarSt.reset with modules := s.far.modules, linkUp := s.far.linkUp } } : State).latchStraps straps.toNat)

/-- RESET_N goes low (R446, R447): dirty lines and parked lines are written back; work is lost. -/
def execResetNAssert (s : State) : Host.Outcome State Fault Refusal :=
  .next (
    let s0 := s.start.stage
    (s.writeBack.coldClear).onStart (fun x => { x with resetLow := true, stage := if s0 = 0 then 0 else 7 }))

/-- RESET_N is released: straps are latched, the wrapper returns to WS_BYPASS, and a cold start runs from S1 (R444, R467, R469). -/
def execResetNRelease (straps : Word) (s : State) : Host.Outcome State Fault Refusal :=
  .next (
    if !s.start.resetLow then s
    else
      let s := s.latchStraps straps.toNat
      let s := s.onPort (fun x => { x with wir := .bypass, instrument := none })
      let s := s.onStart (fun x => { x with resetLow := false })
      if s.start.stage = 0 then s else s.beginS1 .cold)

/-- Cache lines that hold data not in the stacks. -/
def dirtyLines (m : MemSt) : List Nat := (m.dirty.map (fun c => lineOf c.1)).eraseDups

/-- Dirty lines as a rail loss leaves them: parked lines are lost; a line beyond the cache's capacity had been evicted before, and
whether another had is free (R10, R407, R446). -/
def State.loseCache (s : State) : State :=
  let s := s.onMem (fun m => m.flush (fun a => !m.resident (lineOf a)))
  let s := (dirtyLines s.mem).foldl (fun s l =>
    if s.mem.parked.contains l then s
    else { s with free := s.free + 1 }.onMem (fun m => if Config.freeBool s.free then m.flush (fun a => lineOf a == l) else m)) s
  s.onMem (fun m => { m.drop (fun _ => true) with held := [], upsets := [], parked := [], marks := [] })

/-- A rail below its range for 2 samples outside DEEP acts as a cold reset; dirty and parked lines are lost (R431, R446). -/
def execRailLoss (s : State) : Host.Outcome State Fault Refusal :=
  .next (
    if s.pwr.state = .deep ∨ s.start.stage = 0 then s
    else
      let low := s.start.resetLow
      let s := s.loseCache.coldClear
      if low then s else s.beginS1 .cold)

/-- A warm reset: claims are abandoned without replies, contexts DISABLED, and S5 and S6 run (R444, R447). -/
def State.warmReset (s : State) : State :=
  let s := s.loseWork
  (s.onStart (fun x => { x with stage := 5, retryDue := false, kind := .warm })).onBlk (fun b => { b with mode := .starting })

end Sys2Proof.Machine
end

