-- ==== Sys2Proof/Machine/CpFault.lean ====
section
/-! DEFINITION. Faults of the command processor: lockstep mismatch, switchover and self-test (R391-R394, R485). -/
namespace Sys2Proof.Machine

/-- The switchover recorded in every command read and not yet replied to (R393). -/
def State.maskAll (s : State) (log : Nat) : State := s.cp.cmds.foldl (fun s c => s.maskFault c.key log) s

/-- The lockstep cores differ: the write is blocked, the pair halts and tests itself, and dispatch, replies, placement, reissue and
speculation pause. A hot spare takes over (R392); without one nothing runs until the self-test ends (R485). -/
def execCpLockstepMismatch (addr : Nat) (s : State) : Host.Outcome State Fault Refusal :=
  .next (
    if s.cp.running ≠ 2 ∨ s.cp.paused ∨ ¬ blkRuns s then s
    else
      let log := s.nextLog
      let spare := s.cp.spare
      let s := s.maskAll log
      let s := s.onCp (fun cp => { cp with
        running := bit spare, spare := false, testing := 2, paused := true
        ids := if spare then cp.ids.drop 2 ++ cp.ids.take 2 else cp.ids })
      (s.logRec { event := 0x0A, action := if spare then 7 else 9, kind := 4, d0 := addr }).report)

/-- The core that goes on has read the journal, the records and every unreplied packet: the paused functions resume. Commands in
flight keep their stage: a dispatched one goes on, one only read is dispatched again with the same outcome (R392, R393). -/
def execSwitchoverResume (s : State) : Host.Outcome State Fault Refusal :=
  .next (if s.cp.paused && decide (1 ≤ s.cp.running) && blkRuns s then s.onCp (fun cp => { cp with paused := false }) else s)

/-- The numbers of the halted cores that pass, in order. -/
def passedCores (cp : Cp) (pass0 pass1 : Bool) : List Nat :=
  let l := cp.ids.drop cp.running
  (if pass0 then l.take 1 else []) ++ (if pass1 then (l.drop 1).take 1 else [])

/-- The self-test of the two halted cores ends (R394, R404, R485): a core that passes joins the running one as its partner, a second one
becomes the hot spare; with neither passing the running core goes on alone, and without a running core the block is FAILED. -/
def execCpSelftestEnd (pass0 pass1 : Bool) (s : State) : Host.Outcome State Fault Refusal :=
  .next (
    if s.cp.testing ≠ 2 then s
    else
      let n := bit pass0 + bit pass1
      let all := s.cp.running + n
      let won := passedCores s.cp pass0 pass1
      let s := s.onCp (fun cp => { cp with
        running := min 2 all, spare := decide (3 ≤ all), testing := 0, ids := cp.ids.take cp.running ++ won })
      let s := s.logRec { event := 0x0B, action := if n = 2 then 3 else 1, kind := 4, d0 := (won.map (2 ^ ·)).foldl (· + ·) 0 }
      if all = 0 then s.fail else s.report)

end Sys2Proof.Machine
end

