-- ==== Sys2Proof/Machine/Thin.lean ====
section
/-! DEFINITION. The thin path: fetches of store rows and weights, lane steps, and the check groups (R246, R247, R251-R255, R390). -/
namespace Sys2Proof.Machine

/-- A delivered value of the thin path. -/
def dvals (wide : Bool) (f : Fmt) (x : DBlock) : List DVal :=
  if wide then x.wide.map DVal.wide else x.vals.map (fun v => DVal.mx (pairOf f v))

/-- A claim's output tile (R251). -/
def Comp.thinTile (c : Comp) (ord : Nat) : Tile := ((c.run? ord).bind (·.entries.head?)).elim ⟨0, 0, 0⟩ (·.tile)

/-- Activation row `m` over all of K_eff as the store holds it (R145, R253). -/
def Comp.storeRow (c : Comp) (rd : Rd) (p f m : Nat) : Option DRow :=
  let fa := fmtD (cFmtA p)
  let wide := pairWide fa (fmtD (cFmtW p))
  (allSome ((rangeFrom 0 (ceilDiv (c.kAt f) 32)).map (deliverABlock rd (proNorm rd p) p c.desc f m (c.srcRow (pOp p) m) (c.kAt f)))).map (fun l =>
    ⟨m, l.flatMap (dvals wide fa), l.map (fun x => x.expOf wide)⟩)

/-- Column `n` of K-block `b` (R253). -/
def Comp.weightCol (c : Comp) (rd : Rd) (p f b n : Nat) : Option DRow :=
  let fw := fmtD (cFmtW p)
  let wide := pairWide (fmtD (cFmtA p)) fw
  (deliverWBlock rd p c.desc f n (c.kAt f) b).map (fun x => ⟨n, dvals wide fw x, [x.expOf wide]⟩)

/-- A vector's operands over all of K_eff, to name the bytes a store row reads. -/
def wholeRow (c : Comp) (f m : Nat) : VecOp where
  buf := 0
  f := f
  m := m
  k0 := 0
  klen := c.kAt f
  n0 := 0
  n1 := 0
  ai := 0
  wj := 0
  slot := 0
  tile := 0
  write := false
  firstPass := true
  last := false
  kb := 0

/-- Bytes that a store row reads (R253). -/
def Comp.storeSpans (c : Comp) (p f m : Nat) : List Span := c.vecSpans p (wholeRow c f m) ++ c.sideSpans p (wholeRow c f m)

/-- Columns of a thin claim (R251). -/
def Comp.thinCols (c : Comp) (t : Tile) : List Nat := rangeFrom t.n0 (min (t.n0 + 256) (c.nAt t.f) - t.n0)

/-- Bytes that the weights of K-block `b` read (R253). -/
def Comp.weightSpans (c : Comp) (p : Nat) (t : Tile) (b : Nat) : List Span :=
  let w := fmtD (cFmtW p)
  (c.thinCols t).flatMap (fun n =>
    (rangeFrom (32 * b) (min 32 (c.kAt t.f - 32 * b))).map (fun k => wSpan c.desc w t.f k n)
      ++ (if w.isMx then [(wScale c.desc t.f b n, 1)] else []))

/-- The first of some runs that cannot be read. -/
def spansFault (s : State) (l : List Span) : Option Cond := l.findSome? (fun x => accessFault s x.1 x.2)

/-- Store rows or the weights of a K-block arrive for a half's claim; a read that cannot be made ends the command (R225, R253,
R406). -/
def execThinFetchArrival (half : Fin 16) (f : ThinFetch) (s : State) : Host.Outcome State Fault Refusal :=
  .next (match (s.half half).claim with
    | none => s
    | some cl => match s.claimCmd cl.seed with
      | none => s
      | some (cmd, c) =>
        let t := c.thinTile cl.seed.ord
        if !unitsRun s || !s.lives cmd.key then s
        else match f with
        | .store m =>
          if !(c.thinRows (pOp cmd.pkt) t).contains m then s
          else match spansFault s (c.storeSpans cmd.pkt t.f m) with
            | some e => s.failRead cmd e
            | none => match c.storeRow (memRd s) cmd.pkt t.f m with
              | none => s
              | some r => s.onHalf half (fun h => { h with store := r :: h.store.filter (fun x => x.idx != m) })
        | .weights b =>
          if b != cl.b then s
          else match spansFault s (c.weightSpans cmd.pkt t b) with
            | some e => s.failRead cmd e
            | none => match allSome ((c.thinCols t).map (c.weightCol (memRd s) cmd.pkt t.f b)) with
              | none => s
              | some l => s.onHalf half (fun h => { h with wBlock := some b, weights := l }))

/-! Lane steps. -/

/-- A delivered value in the piece of a pass. -/
def DVal.piece (v : DVal) (pf : Fmt) (e : Scale) (i : Nat) : DElem :=
  match v with
  | .mx d => d
  | .wide x => deliverPiece pf x (e.getD 0) i

/-- The passes of a command's pass set, in the order of R106. -/
def cPasses (p : Nat) : List (Nat × Nat) := passSet (fmtD (cFmtA p)) (fmtD (cFmtW p)) (cFullPasses p)

/-- The activations of row r at K-block b, in piece i, with their scale. -/
def storeAt (pf : Fmt) (r : DRow) (b n i : Nat) : List DElem × Scale :=
  let sc := r.scales.getD b (some 0)
  (((r.vals.drop (32 * b)).take n).map (fun v => v.piece pf sc i), sc)

/-- One lane group's products for a column of weights in piece j. -/
def laneProducts (pf : Fmt) (acts : List DElem) (w : DRow) (j : Nat) : List (DElem × DElem) :=
  List.zipWith (fun x v => (x, v.piece pf (w.scales.headD (some 0)) j)) acts w.vals

/-- The contribution of a lane group (R247). -/
def laneContrib (p : Nat) (A : Int) (acts : List DElem) (sa : Scale) (w : DRow) (i j : Nat) : Contrib :=
  let fa := fmtD (cFmtA p)
  let fw := fmtD (cFmtW p)
  kblockContrib (cFlush p) (laneProducts (pairFmt fa fw) acts w j) sa (w.scales.headD (some 0)) (lPairPass fa fw i j) A

/-- The difference that the check group of a half finds: Σ of the block partials minus Σ a × C (R254). -/
def thinDiff (pf : Fmt) (acts : List DElem) (ws : List DRow) (j : Nat) (up : Option ThinUpset) : Int :=
  let cols := ws.map (fun w => (w.vals.map (fun v => (v.piece pf (w.scales.headD (some 0)) j).grid)))
  let total := (ws.map (fun w => partialSum (laneProducts pf acts w j))).foldl (· + ·) 0
  let ward := ((acts.zipIdx).map (fun a => a.1.grid * (cols.map (fun l => l.getD a.2 0)).foldl (· + ·) 0)).foldl (· + ·) 0
  total - ward + (match up with | some (.groupDiff _ d) => d | _ => 0)

/-- One accumulator (R246). -/
def accAt (l : List AccCell) (m g : Nat) : LW := ((l.find? (fun x => x.m == m && x.g == g)).map (·.word)).getD lwZero

/-- Accumulators of row m after a step's contributions (R247). -/
def accAdd (l : List AccCell) (m : Nat) (ws : List LW) : List AccCell :=
  (ws.zipIdx).foldl (fun l x =>
    let w := lwAdd (accAt l m x.2) x.1
    let rest := l.filter (fun y => !(y.m == m && y.g == x.2))
    if w = lwZero then rest else rest ++ [⟨m, x.2, w⟩]) l

/-- The place after (b, pass, m) in the walk of R253; `none` at its end. -/
def thinNext (rows : List Nat) (passes blocks : Nat) (cl : TClaim) : Option (Nat × Nat × Nat) :=
  match (rows.drop (rows.idxOf cl.m + 1)).head? with
  | some m => some (cl.b, cl.pass, m)
  | none =>
    if cl.pass + 1 < passes then some (cl.b, cl.pass + 1, rows.headD 0)
    else if cl.b + 1 < blocks then some (cl.b + 1, 0, rows.headD 0)
    else none

/-- A step's accumulation and the walk's next place; after the last step the drain begins (R247, R253, R299). -/
def State.thinAccumulate (s : State) (h : Nat) (cmd : Cmd) (c : Comp) (cl : TClaim) (cs : List Contrib) : State :=
  let t := c.thinTile cl.seed.ord
  let rows := c.thinRows (pOp cmd.pkt) t
  let blocks := ceilDiv (c.kAt t.f) 32
  let counts := cs.foldl (fun n x => { n with
    clip := n.clip + x.clip, flush := n.flush + (if cl.pass = 0 then bit x.flush else 0) }) cl.counts
  let s := s.onHalf h (fun x => { x with acc := accAdd x.acc cl.m (cs.map (·.lw)) })
  let show_ := fun (s : State) kb => (s.onComp cl.seed.key (fun c => c.onEntry cl.seed.ord 0 (·.reached kb))).syncArea cl.seed.key
  match thinNext rows (cPasses cmd.pkt).length blocks cl with
  | some (b, pass, m) =>
    let s := show_ s b
    s.onHalf h (fun x => { x with
      claim := some { cl with b := b, pass := pass, m := m, steps := cl.steps + 1, counts := counts }
      wBlock := if b = cl.b then x.wBlock else none })
  | none =>
    let s := show_ s blocks
    let s := (s.onHalf h (fun x => { x with claim := none })).charge (32 + h) cl.seed.key (cl.steps + 1)
    s.addDrain (32 + h) (Drain.start cl.seed 0 (.thin h) (firstSweep cmd.pkt c) (c.tileRows t) counts)

/-- A failed check group retires the core's thin path; the half's number is its check group's (R246, R254, R404; log 87). -/
def State.thinFail (s : State) (h : Nat) (cmd : Cmd) (d : Int) (parity : Bool) : State :=
  let log := s.nextLog
  (s.logRec { event := 0x03, action := 1, kind := 3, unit := h / 2, ctx := some (ctxOf cmd.q), ticket := cmd.ticket,
              d0 := ofSigned d 64, d1 := h % 2 + 8 * bit parity }).retireThin (h / 2) log

/-- An ACC_UE record (R404): the half, the lane group and the row. -/
def accUe (h g m : Nat) : Rec := { event := 0x0E, action := 2, kind := 3, unit := h / 2, d0 := h % 2 + g * 2 + m * 1024 }

/-- An accumulator event of a lane group: the claim is reissued, or at the group's second event the thin path is retired (R255,
R390). -/
def State.accEvent (s : State) (h : Nat) (sd : Seed) (g : Nat) (r : Rec) : State :=
  let log := s.nextLog
  let again := (aget (s.half h).events g).isSome
  let s := s.logRec { r with action := if again then 1 else 2 }
  let s := s.onHalf h (fun x => { x with events := aput x.events g ((aget x.events g).getD 0 + 1) })
  if again then s.retireThin (h / 2) log else s.giveUp (32 + h) sd log

/-- One lane step of a half whose store row and weights are there (R247, R253-R255). -/
def State.laneStep (s : State) (h : Nat) (cmd : Cmd) (c : Comp) (cl : TClaim) (row : DRow) (up : Option ThinUpset) : State :=
  let p := cmd.pkt
  let pf := pairFmt (fmtD (cFmtA p)) (fmtD (cFmtW p))
  let t := c.thinTile cl.seed.ord
  let ij := (cPasses p).getD cl.pass (0, 0)
  let n := min 32 (c.kAt t.f - 32 * cl.b)
  let (acts, sa) := storeAt pf row cl.b n ij.1
  let ws := (s.half h).weights
  let d := thinDiff pf acts ws ij.2 up
  let tag := fun (r : Rec) => { r with kind := 3, unit := h / 2, ctx := some (ctxOf cmd.q), ticket := cmd.ticket }
  if up = some .parity then s.thinFail h cmd 0 true
  else if d ≠ 0 then s.thinFail h cmd d false
  else match up with
    | some (.accDouble g m) => s.accEvent h cl.seed g (tag (accUe h g m))
    | some (.residue g) => s.accEvent h cl.seed g (tag { event := 0x04, action := 2, d0 := 2 })
    | _ => s.thinAccumulate h cmd c cl (ws.map (fun w => laneContrib p c.anchor acts sa w ij.1 ij.2))

/-- A step in which a half waits: once its claim has begun, it counts for the claim (R253, R299). -/
def State.thinWait (s : State) (h : Nat) (cl : TClaim) : State :=
  if cl.steps = 0 then s else s.onHalf h (fun x => { x with claim := some { cl with steps := cl.steps + 1 } })

/-- A lane step of a thin half: it waits until the store row and the weights of its K-block are present (R247, R253). -/
def execThinStep (half : Fin 16) (upset : Option ThinUpset) (s : State) : Host.Outcome State Fault Refusal :=
  .next (
    let h := s.half half
    match h.claim.bind (fun cl => (s.claimCmd cl.seed).map (fun x => (cl, x.1, x.2))) with
    | none => s
    | some (cl, cmd, c) =>
      if !unitsRun s || !(s.core (half / 2)).thinIn || !s.lives cmd.key then s
      else match h.store.find? (fun r => r.idx == cl.m && h.wBlock == some cl.b) with
        | none => s.thinWait half cl
        | some row => s.laneStep half cmd c cl row upset)

end Sys2Proof.Machine
end

