-- ==== Sys2Proof/Machine/Drain.lean ====
section
/-! DEFINITION. Drains: the rows that a core's fusion unit grants, with their reads, sweeps, writes and staged outputs, for arrays,
thin halves, and COMBINE, FINISH and SEGMENT_SUM (R168-R175, R191-R203, R243, R253, R263, R264). -/
namespace Sys2Proof.Machine

/-! What a row starts from. -/

/-- The tile of a drain. -/
def Comp.drainTile (c : Comp) (d : Drain) : Tile :=
  ((c.run? d.seed.ord).bind (fun r => r.entries[d.tile]?)).elim ⟨0, 0, 0⟩ (·.tile)

/-- Columns of a tile within N_eff (R171). -/
def Comp.tileCols (c : Comp) (t : Tile) : Nat := min 256 (c.nAt t.f - t.n0)

/-- Address of an element of a FINISH or SEGMENT_SUM input (R262, R279). -/
def inElem (d : Nat) (fmt : Fmt) (f m n : Nat) : Nat := a48 (dTA d 5 + f * dTA d 3 + m * dTA d 4 + posByte fmt n)
/-- Address of the scale of an element of such an input. -/
def inScale (d f m n : Nat) : Nat := a48 (dTA d 2 + f * dTA d 0 + m * dTA d 1 + n / 32)

/-- Runs that a row of a FINISH or SEGMENT_SUM input reads. -/
def inSpan (d : Nat) (fmt : Fmt) (f m n0 cols : Nat) : List Span :=
  (rangeFrom n0 cols).map (fun n => (inElem d fmt f m n, (elemSpan fmt n).2))
    ++ (if fmt.isMx then (rangeFrom (n0 / 32) (ceilDiv cols 32)).map (fun b => (inScale d f m (32 * b), 1)) else [])

/-- The exact value of an input element, or its long word. -/
def inValue (s : State) (d : Nat) (fmt : Fmt) (f m n : Nat) : CVal :=
  let code := cutElem fmt n (leNat (s.bytesAt (inElem d fmt f m n) (elemSpan fmt n).2))
  if fmt = .long then .long (lwDecode code)
  else .cf (cfOfXv (if fmt.isMx then decodeScaled fmt code (leNat (s.bytesAt (inScale d f m n) 1)) else decodeElem fmt code))

/-- Address of input `i` of a COMBINE (R243, R279). -/
def cbElem (p d i f m n : Nat) : Nat := a48 (cbBase p i + f * dTA d 3 + m * dTA d 4 + 16 * n)

/-- Runs that a granted row reads beside its extra streams. -/
def Comp.rowSpans (c : Comp) (p : Nat) (src : DSrc) (t : Tile) (m : Nat) : List Span :=
  let cols := c.tileCols t
  match src with
  | .combine => (rangeFrom 0 (cbCount p)).map (fun i => (cbElem p c.desc i t.f m t.n0, 16 * cols))
  | .finish => inSpan c.desc (fmtD (cFmtA p)) t.f m t.n0 cols
      ++ (if isNorm (finFn p) then [(a48 (finStatBase p + foldedRow c.desc t.f m * finStatStride p), 48)] else [])
  | .segsum => if c.index.getD m 0 = 0xFFFFFFFF then [] else inSpan c.desc (fmtD (cFmtA p)) 0 m t.n0 cols
  | _ => []

/-- The starting values of a row (R69, R161, R201, R243, R260). -/
def Comp.startRow (c : Comp) (s : State) (u p : Nat) (d : Drain) (t : Tile) (i : Nat) : List CVal :=
  let cols := c.tileCols t
  let m := t.m0 + i
  if c.nullRow (pOp p) m then List.replicate cols (.long lwZero)
  else match d.src with
  | .slot n => ((s.tunRow (coreOfUnit u) n i).take cols).map CVal.long
  | .thin h => (rangeFrom 0 cols).map (fun g => .long (accAt (s.half h).acc i g))
  | .combine => (rangeFrom t.n0 cols).map (fun n =>
      .long (lwSum ((rangeFrom 0 (cbCount p)).map (fun k => lwDecode (leNat (s.bytesAt (cbElem p c.desc k t.f m n) 16))))))
  | .finish => (rangeFrom t.n0 cols).map (inValue s c.desc (fmtD (cFmtA p)) t.f m)
  | _ => List.replicate cols (.long lwZero)

/-! Extra input streams (R183, R192, R212). -/

/-- Address of a stream's element at folded coordinates (R183). -/
def streamAddr (w row col : Nat) : Nat :=
  let b := (fmtD (stFmt w)).bits / 8
  a48 (stBase w + (match stShape w with
    | 0 => row * b
    | 1 => col * b
    | _ => row * stStride w + col * b))

/-- Streams that the chain names (R184). -/
def streamsUsed (p : Nat) : List Nat :=
  (rangeFrom 0 3).filter (fun i => stEn (streamWord p i) && (chainOps p).any (fun o => (o.1 == 1 || o.1 == 2) && o.2 == i))

/-- ROW and COL elements are held for the whole tile; FULL elements come row by row (R192). -/
def feedRow (p i row : Nat) : Nat := if stShape (streamWord p i) = 2 then row else 0

/-- The stream data of a tile row has arrived (R192). -/
def fedFor (p : Nat) (d : Drain) : Bool := (streamsUsed p).all (fun i => d.fed.contains (i, feedRow p i d.row))

/-- Runs that a stream's data for a tile row covers (R183, R192). -/
def Comp.feedSpans (c : Comp) (p i : Nat) (t : Tile) (row : Nat) : List Span :=
  let w := streamWord p i
  let b := (fmtD (stFmt w)).bits / 8
  let col := foldedCol c.desc t.f t.n0
  match stShape w with
  | 0 => (rangeFrom t.m0 (c.tileRows t)).map (fun m => (streamAddr w (foldedRow c.desc t.f m) col, b))
  | 1 => [(streamAddr w 0 col, b * c.tileCols t)]
  | _ => [(streamAddr w (foldedRow c.desc t.f (t.m0 + row)) col, b * c.tileCols t)]

/-- Data of an extra input stream arrives for the first drain of the unit that lacks it; a read that cannot be made ends the
command (R192, R225, R406). -/
def execExtraInputStreamArrival (u : UIx) (stream : Fin 3) (row : Nat) (s : State) : Host.Outcome State Fault Refusal :=
  .next (
    let wants := fun (d : Drain) => match s.claimCmd d.seed with
      | none => false
      | some (cmd, _) => decide (row < d.rows) && !d.complete && (streamsUsed cmd.pkt).contains stream.val
          && !d.fed.contains (stream.val, feedRow cmd.pkt stream row)
    match (s.drainsOf u).find? wants with
    | none => s
    | some d => match s.claimCmd d.seed with
      | none => s
      | some (cmd, c) =>
        if !unitsRun s then s
        else match spansFault s (c.feedSpans cmd.pkt stream (c.drainTile d) row) with
          | some e => (s.loseDrain u d).failRead cmd e
          | none => s.onDrains u (fun l => l.map (fun x =>
              if x == d then { x with fed := (stream.val, feedRow cmd.pkt stream row) :: x.fed } else x)))

/-! Choosing the row (R170). -/

/-- The drain of a unit that asks for a row: the first with rows left; in the later sweeps of a RESIDENT band the lowest tile
(R168, R198). -/
def currentDrain (s : State) (u : Nat) : Option Drain :=
  let l := (s.drainsOf u).filter (fun d => !d.complete && decide (d.row < d.rows))
  match l.head? with
  | none => none
  | some d =>
    if d.sweep == .plain || d.sweep == .stat || d.src == .finish then some d
    else
      let band := l.filter (sameBand (s.entriesOf d.seed) d)
      band.foldl (fun b x => match b with
        | none => some x
        | some y => if x.tile < y.tile then some x else b) none

/-- Drains of a core, with their units. -/
def coreDrains (s : State) (c : Nat) : List (Nat × Drain) :=
  (coreUnits c).flatMap (fun u => (s.drainsOf u).map (fun d => (u, d)))

/-- A core stages one tile at a time, a RESIDENT band counting as one (R174, R198). -/
def mayStage (s : State) (c : Nat) (u : Nat) (cmd : Cmd) (d : Drain) : Bool :=
  !additive cmd || d.sweep == .stat || (coreDrains s c).all (fun x =>
    x.2.staged.isEmpty || (x.1 == u && (x.2 == d || (d.sweep != .plain && sameBand (s.entriesOf d.seed) d x.2))))

/-- A context's drains go on while it is ACTIVE, and in stage 3 of its disable or preemption (R308). -/
def drainsRun (s : State) (key : Key) : Bool :=
  (s.ctx (ctxOf key.1)).mode == .active || (s.ctx (ctxOf key.1)).stage == 3

/-- The unit's drain waits for a row it could be granted (R170, R174, R192). -/
def requester (s : State) (c u : Nat) : Option Drain :=
  match currentDrain s u with
  | none => none
  | some d => match s.claimCmd d.seed with
    | none => none
    | some (cmd, _) =>
      if drainsRun s d.seed.key && fedFor cmd.pkt d && mayStage s c u cmd d && !(decide (d.row = 0) && pausing s u d.seed)
      then some d else none

/-- The units of a core in rank, those of a context in stage 3 of a disable first (R170). -/
def grantOrder (s : State) (c : Nat) : List Nat :=
  let us := coreUnits c
  let urgent := fun u => match requester s c u with
    | some d => (s.ctx (ctxOf d.seed.key.1)).stage == 3
    | none => false
  us.filter urgent ++ us.filter (fun u => !urgent u)

/-- The row that the fusion unit grants next (R170). -/
def nextGrant (s : State) (c : Nat) : Option (Nat × Drain) :=
  (grantOrder s c).findSome? (fun u => (requester s c u).map (fun d => (u, d)))

/-! A granted row. -/

/-- What a row produces: writes to memory, staged outputs, counts, its checksum, and statistics for a band. -/
structure RowOut where
  writes : List (Nat × List Byte)
  staged : List Staged
  counts : Counts
  sum : Word
  stat : Option StatAcc

/-- The main stream of a command. -/
def mainStream (cmd : Cmd) : Stream :=
  ⟨fmtD (cOutFmt cmd.pkt), (roundModeOf (cRound cmd.pkt)).getD .rne, cIeee cmd.pkt, cSeed cmd.pkt, cTagMain cmd.pkt, cmd.step⟩
/-- The save stream of a command (R189). -/
def saveStream (cmd : Cmd) : Stream := { mainStream cmd with fmt := fmtD (svFmt (saveWord cmd.pkt)), tag := cTagSave cmd.pkt }

/-- Address of the statistics record of a folded row (R193). -/
def ssAddr (p row : Nat) : Nat := a48 (ssBase (statWord p) + row * ssStride (statWord p))
/-- Address of a FINISH's record (R201). -/
def finAddr (p row : Nat) : Nat := a48 (finStatBase p + row * finStatStride p)

/-- Staged terms of a record (R196). -/
def stageStats (a arg : Nat) (t : StatTerms) (denom : Bool) : List Staged :=
  (if bitOf arg 0 then [.add a t.sum, .add (a48 (a + 16)) t.sumsq] else if denom then [.add a t.sum] else [])
    ++ (if bitOf arg 1 then [.max (a48 (a + 32)) t.mx] else []) ++ [.cnt (a48 (a + 40)) t.n]
    ++ (if denom then [.validBit (a48 (a + 44))] else [])

/-- The outputs of a row whose values have passed the chain (R171-R174, R189, R370). -/
def Comp.emitRow (c : Comp) (cmd : Cmd) (t : Tile) (i : Nat) (ys : List CVal) (es : List ChainSt) : RowOut :=
  let p := cmd.pkt
  let m := t.m0 + i
  let row := foldedRow c.desc t.f m
  let col := foldedCol c.desc t.f t.n0
  let main := mainStream cmd
  let save := saveStream cmd
  let hasM := hasMain (pOp p) p
  let svOn := svEn (saveWord p)
  let mc := encodeRow main c.anchor row col (if hasM then es.map (·.v) else [])
  let sc := encodeRow save c.anchor row col (if svOn then es.map (fun e => e.save.getD e.v) else [])
  let sv := saveWord p
  let toMem := if hasM && cDest p == 0 then
      (oElem c.desc main.fmt t.f m t.n0, packRow main.fmt mc.codes) ::
        (if main.fmt.hasScale then [(oScale c.desc t.f m (t.n0 / 32), scaleBytes mc.scales)] else []) else []
  let toSave := if svOn then
      (a48 (svBase sv + row * svStride sv + posByte save.fmt col), packRow save.fmt sc.codes) ::
        (if save.fmt.hasScale then [(a48 (svScaleBase sv + row * svScaleStride sv + col / 32), scaleBytes sc.scales)] else []) else []
  let adds := if hasM && cDest p == 1 then
      (es.zipIdx).map (fun x => Staged.add (oElem c.desc .long t.f m (t.n0 + x.2)) (match x.1.v with | .long w => w | .cf _ => lwZero))
    else []
  let frame := if hasM && cDest p == 2 then [Staged.frame row col (packRow main.fmt mc.codes ++ scaleBytes mc.scales)] else []
  { writes := toMem ++ toSave
    staged := adds ++ frame
    counts := (mc.counts.add sc.counts).add { Counts.zero with clip := (es.map (·.clips)).foldl (· + ·) 0 }
    sum := rowSum i (ys.map CVal.code) ((if hasM then [(main.fmt, mc)] else []) ++ (if svOn then [(save.fmt, sc)] else []))
    stat := none }

/-- The statistics terms of a row's STAT taps (R194). -/
def rowTerms (p : Nat) (A : Int) (es : List ChainSt) : StatTerms :=
  es.foldl (fun t e => match e.stat with
    | some v => t.enter (statArg p) (ssAS (statWord p)) (ssAQ (statWord p)) A v
    | none => t) StatTerms.zero

/-- The chain over a row. -/
def Comp.chainRow (c : Comp) (s : State) (p : Nat) (t : Tile) (i : Nat) (ops : List (Nat × Nat)) (nr : NormRow)
    (vs : List CVal) : List ChainSt :=
  let row := foldedRow c.desc t.f (t.m0 + i)
  let col := foldedCol c.desc t.f t.n0
  (vs.zipIdx).map (fun x =>
    let strm := fun k =>
      let w := streamWord p k
      leNat (s.bytesAt (streamAddr w row (col + x.2)) ((fmtD (stFmt w)).bits / 8))
    runChain p c.anchor ops strm nr x.1)

/-- The no-op normalisation. -/
def normNone : NormRow := ⟨cfZero false, cfZero false⟩

/-- x of a FINISH, normalised by the row's record under FIN_FN (R201). -/
def finValue (s : State) (p : Nat) (A : Int) (row : Nat) (v : CVal) : CVal :=
  if isNorm (finFn p) then
    let w := leNat (s.bytesAt (finAddr p row) 48)
    .cf (normApply (finFn p)
      (normRow (finFn p) (cfOfLong (statSum w) (finAS p)) (cfOfLong (statSumsq w) (finAQ p)) (statMax w) (cfOfNat (statN w))
        (cfOfFp32 (chainEps p))) (v.toCf A))
  else v

/-- A row of an ordinary drain: the chain, the rounded outputs, and DEFERRED statistics (R170, R196, R201). -/
def Comp.plainRow (c : Comp) (s : State) (cmd : Cmd) (d : Drain) (t : Tile) (i : Nat) (ys : List CVal) : RowOut :=
  let p := cmd.pkt
  let row := foldedRow c.desc t.f (t.m0 + i)
  let vs := if d.src = .finish then ys.map (finValue s p c.anchor row) else ys
  let es := if pOp p = 0x14 then vs.map (fun v => (⟨v, 0, none, none⟩ : ChainSt)) else c.chainRow s p t i (chainOps p) normNone vs
  let o := c.emitRow cmd t i ys es
  if isMat (pOp p) && statMode p == 1 then
    let ts := rowTerms p c.anchor es
    { o with staged := o.staged ++ stageStats (ssAddr p row) (statArg p) ts false, counts := { o.counts with clip := o.counts.clip + ts.clips } }
  else o

/-- A row of phase 1 of FINISH: the row's denominator terms (R199, R202). -/
def Comp.phase1Row (c : Comp) (s : State) (cmd : Cmd) (t : Tile) (i : Nat) (ys : List CVal) : RowOut :=
  let p := cmd.pkt
  let a := finAddr p (foldedRow c.desc t.f (t.m0 + i))
  let mx := statMax (leNat (s.bytesAt a 48))
  let ts := ys.map (fun y => denomTerm (y.toCf c.anchor) mx)
  { writes := []
    staged := [.add a (lwSum (ts.map (·.1)))]
    counts := { Counts.zero with clip := (ts.filter (·.2)).length }
    sum := rowSum i (ys.map CVal.code) []
    stat := none }

/-- A row of SEGMENT_SUM: each element's contribution added into its destination row; a skipped row adds nothing, and a
LONG element is added as it is; specials and the checksum: log 27 (R173, R262-R264). -/
def Comp.segRow (c : Comp) (s : State) (cmd : Cmd) (t : Tile) (i : Nat) : RowOut :=
  let p := cmd.pkt
  let fmt := fmtD (cFmtA p)
  let m := t.m0 + i
  let seg := c.index.getD m 0
  if seg = 0xFFFFFFFF then ⟨[], [], Counts.zero, 0, none⟩
  else
    let one := fun n => match inValue s c.desc fmt 0 m n with
      | .long w => (some w, false, false)
      | .cf x => if x.cls ≠ Cls.finite ∧ cFlush p then (none, false, true) else
          let g := gridTerm x.xv c.anchor
          (some g.1, g.2, false)
    let l := (rangeFrom t.n0 (c.tileCols t)).map (fun n => (n, one n))
    { writes := []
      staged := l.filterMap (fun x => x.2.1.map (fun w => Staged.add (a48 (dTO c.desc 5 + seg * dTO c.desc 4 + 16 * x.1)) w))
      counts := { Counts.zero with clip := (l.filter (fun x => x.2.2.1)).length, flush := (l.filter (fun x => x.2.2.2)).length }
      sum := rowSum i (l.map (fun x => lwCode (x.2.1.getD lwZero))) []
      stat := none }

/-! Sweeps of a RESIDENT band (R198, R199). -/

/-- The accumulated statistics of a tile row in one drain. -/
def Drain.statAt (d : Drain) (row : Nat) : StatAcc :=
  (d.stats.find? (fun x => x.row == row)).getD ⟨row, lwZero, lwZero, cfOfCls .negInf, 0, false⟩

/-- The accumulated statistics of a row over the drains of a band. -/
def bandStat (l : List Drain) (row : Nat) : StatAcc :=
  l.foldl (fun a d =>
    let x := d.statAt row
    ⟨row, lwAdd a.sum x.sum, lwAdd a.sumsq x.sumsq, cfMax a.mx x.mx, a.n + x.n, a.denom || x.denom⟩)
    ⟨row, lwZero, lwZero, cfOfCls .negInf, 0, false⟩

/-- Sweep 1: the operations before ROWFIN, and the STAT terms (R198). -/
def Comp.statRow (c : Comp) (s : State) (cmd : Cmd) (t : Tile) (i : Nat) (ys : List CVal) : RowOut :=
  let p := cmd.pkt
  let ts := rowTerms p c.anchor (c.chainRow s p t i (opsBefore p) normNone ys)
  ⟨[], [], { Counts.zero with clip := ts.clips }, 0, some ⟨i, ts.sum, ts.sumsq, ts.mx, ts.n, false⟩⟩

/-- The denominator sweep: SUM of the accumulators as R199 states (R198). -/
def Comp.denomRow (c : Comp) (s : State) (cmd : Cmd) (t : Tile) (i : Nat) (own band : StatAcc) (ys : List CVal) : RowOut :=
  let p := cmd.pkt
  let ts := (c.chainRow s p t i (opsBefore p) normNone ys).map (fun e => denomTerm (e.v.toCf c.anchor) band.mx)
  ⟨[], [], { Counts.zero with clip := (ts.filter (·.2)).length }, 0,
    some { own with sum := lwSum (ts.map (·.1)), denom := true }⟩

/-- The final sweep: the whole chain with ROWFIN by the row's own statistics, the outputs, and the statistics stream staged (R151,
R198). -/
def Comp.finalRow (c : Comp) (s : State) (cmd : Cmd) (t : Tile) (i : Nat) (own band : StatAcc) (ys : List CVal) : RowOut :=
  let p := cmd.pkt
  let sw := statWord p
  let nr := normRow (rowFin p) (cfOfLong band.sum (ssAS sw)) (cfOfLong band.sumsq (ssAQ sw)) band.mx (cfOfNat band.n)
    (cfOfFp32 (chainEps p))
  let o := c.emitRow cmd t i ys (c.chainRow s p t i (chainOps p) nr ys)
  if ssEn sw then
    let ts : StatTerms := ⟨own.sum, own.sumsq, own.mx, own.n, 0⟩
    { o with staged := o.staged ++ stageStats (ssAddr p (foldedRow c.desc t.f (t.m0 + i))) (statArg p) ts own.denom }
  else o

/-- What a granted row produces. -/
def Comp.grantRow (c : Comp) (s : State) (u : Nat) (cmd : Cmd) (d : Drain) : RowOut :=
  let t := c.drainTile d
  let i := d.row
  let ys := c.startRow s u cmd.pkt d t i
  let band := (s.drainsOf u).filter (sameBand (s.entriesOf d.seed) d)
  match d.src, d.sweep with
  | .segsum, _ => c.segRow s cmd t i
  | .finish, .denom => c.phase1Row s cmd t i ys
  | _, .stat => c.statRow s cmd t i ys
  | _, .denom => c.denomRow s cmd t i (d.statAt i) (bandStat band i) ys
  | _, .final => c.finalRow s cmd t i (d.statAt i) (bandStat band i) ys
  | _, .plain => c.plainRow s cmd d t i ys

/-- An output of a row that its destination cannot take (R225, R332, R341); an additive one is also read. -/
def rowFault (s : State) (o : RowOut) : Option Cond :=
  match o.writes.findSome? (fun w => outputFault s w.1 w.2.length) with
  | some e => some e
  | none => o.staged.findSome? (stagedFault s)

/-- The next sweep of a RESIDENT band once every tile of it has ended one (R198). -/
def nextSweep (p : Nat) : Sweep → Sweep
  | .stat => if rowFin p = 0xC then .denom else .final
  | .denom => .final
  | x => x

/-- A band whose tiles have all ended a sweep goes on to the next (R198). -/
def State.turnBand (s : State) (u p : Nat) (d : Drain) : State :=
  if d.sweep == .plain || d.sweep == .final || d.src == .finish then s
  else
    let es := s.entriesOf d.seed
    let band := (s.drainsOf u).filter (fun x => sameBand es d x && x.sweep == d.sweep)
    if band.length = bandSize es d.tile ∧ band.all (fun x => decide (x.rows ≤ x.row)) then
      s.onDrains u (fun l => l.map (fun x =>
        if sameBand es d x && x.sweep == d.sweep then { x with sweep := nextSweep p x.sweep, row := 0 } else x))
    else s

/-- The drain after a row (R168, R173, R292). -/
def Drain.after (d : Drain) (o : RowOut) : Drain :=
  let last := decide (d.rows ≤ d.row + 1)
  { d with
    row := d.row + 1
    sum := d.sum + o.sum
    counts := d.counts.add o.counts
    staged := d.staged ++ o.staged
    complete := last && (d.sweep == .plain || d.sweep == .final || d.src == .finish)
    stats := match o.stat with
      | none => d.stats
      | some x => x :: d.stats.filter (fun y => y.row != x.row) }

/-- Rows of a tile's memory streams written, for the live-tile table (R292, R293). -/
def rowsShown (cmd : Cmd) (d : Drain) : Nat :=
  if (d.sweep == .plain || d.sweep == .final) && ((hasMain (pOp cmd.pkt) cmd.pkt && cDest cmd.pkt == 0) || svEn (saveWord cmd.pkt))
  then d.row + 1 else 0

/-- A granted row read, run and written (R170-R174); one whose writes wait for the cellar is granted again (R339, R340). -/
def State.giveRow (s : State) (u : Nat) (cmd : Cmd) (c : Comp) (d : Drain) : State :=
  match spansFault s (c.rowSpans cmd.pkt d.src (c.drainTile d) ((c.drainTile d).m0 + d.row)) with
  | some e => (s.loseDrain u d).failRead cmd e
  | none =>
    let o := c.grantRow s u cmd d
    match rowFault s o with
    | some e => (s.loseDrain u d).cutCmd cmd.key e
    | none =>
      if s.writeWaits (some (ctxOf d.seed.key.1)) (o.writes.map (fun w => (w.1, w.2.length))) then s else
      let s := o.writes.foldl (fun s w => s.store w.1 w.2) s
      let s := s.onDrains u (fun l => l.map (fun x => if x == d then d.after o else x))
      let s := s.wipe u d (s.drainsOf u)
      let rows := rowsShown cmd d
      let s := s.onComp d.seed.key (fun c => c.onEntry d.seed.ord d.tile (fun e =>
        { e with begun := e.begun || decide (0 < rows), rowsWritten := max e.rowsWritten rows }))
      ((s.syncArea d.seed.key).turnBand u cmd.pkt d).release u d.seed

/-- The fusion unit of a core grants one row: a double-bit error of the slot row or accumulator row read abandons the claim, a residue
mismatch retires the core (R170, R176, R255, R384, R388). -/
def execDrainRowGrant (c : KIx) (upset : Option DrainUpset) (s : State) : Host.Outcome State Fault Refusal :=
  .next (
    if !unitsRun s || !(s.core c).inService then s
    else match nextGrant s c with
      | none => s
      | some (u, d) => match s.claimCmd d.seed with
        | none => s
        | some (cmd, x) =>
          let tag := fun (r : Rec) => { r with ctx := some (ctxOf cmd.q), ticket := cmd.ticket }
          match upset, d.src with
          | some .tunDouble, .slot n => s.slotEvent c n u d.seed (tag (tunUe c n d.row))
          | some (.accDouble g), .thin h => s.accEvent h d.seed g (tag (accUe h g d.row))
          | some .residue, _ =>
            let log := s.nextLog
            (s.logRec (tag { event := 0x04, action := 1, kind := 2, unit := c, d0 := 3 })).retireCore c log
          | _, _ => ((s.giveRow u cmd x d).finishSaves).elect c)

end Sys2Proof.Machine
end

