-- ==== Sys2Proof/Machine/Draw.lean ====
section
/-! DEFINITION. What the command processor and the sequencers do when a unit is free or a command is over: draws, mailbox claims,
replies (R228, R234, R237, R302). -/
namespace Sys2Proof.Machine

/-- A unit that is free goes on with a paused claim whose slots are restored (R302); with an empty mailbox, and no claim waiting that
the command processor would place there, it draws: it claims the ordinal it holds once that is written, or else fetch-adds a work
counter (R228, R234, R298, R299). -/
def execDraw (u : UIx) (s : State) : Host.Outcome State Fault Refusal :=
  .next (
    if !unitFree s u then s
    else if let some p := readyPaused s u then s.resumePaused p
    else if (s.mailOf u).isSome || (s.placeFor u).isSome then s
    else if (s.holdOf u).isSome then s.claimHeld u
    else s.drawOn u)

/-- A free unit takes the claim of its mailbox, or one that the command processor places there; the unit that takes it is any
that qualifies (R234). -/
def execMailboxTake (u : UIx) (s : State) : Host.Outcome State Fault Refusal :=
  .next (
    if !unitFree s u then s
    else if let some p := readyPaused s u then s.resumePaused p
    else match s.mailOf u with
      | some sd => if mailFits s u sd then s.beginClaim u sd else s
      | none => match s.placeFor u with
        | some sd => (s.onCp (fun cp => { cp with unplaced := cp.unplaced.erase sd })).beginClaim u sd
        | none => s)

/-- The reply of a command that has ended (R19, R237, R274, R285-R289). -/
def execReplyWrite (q : QIx) (pos : Nat) (s : State) : Host.Outcome State Fault Refusal :=
  let s := s.finishSave (q.val, pos)
  .next (match s.cmd? (q.val, pos) with
    | some c => if actsFor s (ctxOf q) && c.over s then s.reply c else s
    | none => s)

end Sys2Proof.Machine
end

