-- ==== Sys2Proof/Machine/Service.lean ====
section
/-! DEFINITION. SERVICE subcodes, from a packet or from SERVICE_CMD, and the host port's answers (R334, R352, R356, R380, R396-R401,
R444, R457). -/
namespace Sys2Proof.Machine

/-- SUBCODE of a SERVICE packet. -/
def svcSub (p : Nat) : Nat := bitsOf p 79 64

/-- The subcodes of R401. -/
def svcKnown (x : Nat) : Bool :=
  [0x0001, 0x0002, 0x0003, 0x0010, 0x0011, 0x0020, 0x0021, 0x0030, 0x0031, 0x0040].contains x

/-- Subcodes that a packet may carry (R401). -/
def svcPacketable (x : Nat) : Bool := [0x0001, 0x0030, 0x0031].contains x

/-- Where a run's arguments lie: its packet or area, and the context that a packet may name (R401, R482). -/
structure SvcArgs where
  pkt : Nat
  addr : Nat
  own : Option Nat
  deriving DecidableEq, Repr

/-- DESCRIPTOR_INVALID of a run, naming a field of its packet (R401, R482). -/
def SvcArgs.bad (a : SvcArgs) (off : Nat) : Cond := badField 0 a.addr off

/-- A run may name the context of its CTX field (R401). -/
def SvcArgs.mayName (a : SvcArgs) (n : Nat) : Bool := a.own.isNone || a.own == some n

/-! SERVICE_CMD (R400, R457). -/

/-- A SERVICE_CMD run is over (R400, R478). -/
def State.svcDone (s : State) (status : Nat) : State :=
  (s.onSvc (fun x => { x with busy := false, image := none, status := status })).raiseSvc 2

/-- The reply of a SERVICE_CMD run, in bytes 64 to 127 of its area (R400): written at once in near memory; in the host aperture the
run is over when the integrator has answered. -/
def State.svcReply (s : State) (p : Nat) (conds : List Cond) : State :=
  let c : Cmd := { Cmd.read 0 0 p 0 (.fence []) with conds := conds }
  let fin := c.final
  let bytes := natLe (replyWord c fin none) 64
  let a := s.svc.area + 64
  if regionOf a = .host then
    (s.onSvc (fun x => { x with image := none, status := fin.status.code })).onPort (fun x => { x with hout := s.port.hout ++ [⟨none, a, true, bytes, 64⟩] })
  else (s.store a bytes).svcDone fin.status.code

/-- A run of a subcode (R400, R401): from a packet of queue `q` it is dispatched and replied to, and fails when the subcode is for
registers only; from SERVICE_CMD it runs once its image is read. `f` gives the effect and the conditions of the reply. -/
def withService (s : State) (src : SvcSrc) (sub : Nat → Bool) (f : State → SvcArgs → State × List Cond) : State :=
  match src with
  | .packet q =>
    if !sub (svcSub (headPacket s q)) then s
    else withPacket s q (· == 0x3C) (fun s p pktA pos =>
      let a : SvcArgs := ⟨p, pktA, some (ctxOf q)⟩
      if svcKnown (svcSub p) && !svcPacketable (svcSub p) then s.replyNow q pos p [a.bad 8]
      else
        let r := f s a
        r.1.replyNow q pos p r.2)
  | .register =>
    match s.svc.image with
    | none => s
    | some p =>
      if !s.svc.busy || !blkRuns s || s.cp.paused || pOp p != 0x3C || !sub (svcSub p) then s
      else
        let r := f s ⟨p, s.svc.area, none⟩
        r.1.svcReply p r.2

/-! The subcodes. -/

/-- What SPARE_READ writes: the spare maps, the 64 repair-log records, the 384 eFuse records (R401). -/
def spareBytes (s : State) : List Byte :=
  (rangeFrom 0 32).flatMap (fun a => natLe (vget s.blk.spare a) 8)
    ++ (rangeFrom 0 64).flatMap (fun i => natLe (s.blk.repair.getD i 0) 4)
    ++ (rangeFrom 0 384).flatMap (fun i => natLe (fuseRec s.blk.fuse i) 4)

/-- A run's output written, or the condition that stops it (R225, R347, R472). -/
def State.svcWrite (s : State) (a : SvcArgs) (addr off : Nat) (bytes : List Byte) : State × List Cond :=
  match firstFail (outputChecks addr bytes.length off) with
  | some o => (s, [a.bad o])
  | none => match outputFault s addr bytes.length with
    | some e => (s, [e])
    | none => (s.store addr bytes, [])

/-- SPARE_READ (R401). -/
def execSpareRead (src : SvcSrc) (s : State) : Host.Outcome State Fault Refusal :=
  .next (withService s src (· == 0x0001) (fun s a => s.svcWrite a (bitsOf a.pkt 175 128) 16 (spareBytes s)))

/-- DONE of REPAIR_ADD or FUSE_BURN in skeleton mode clears ATTEMPTS (R440). -/
def State.skeletonRepaired (s : State) : State :=
  if s.start.skeleton then s.onStart (fun x => { x with attempts := 0 }) else s

/-- REPAIR_ADD: a record joins the repair log; a full log takes none, which is logged (R398, R401, R440). -/
def execRepairAdd (src : SvcSrc) (s : State) : Host.Outcome State Fault Refusal :=
  .next (withService s src (· == 0x0002) (fun s a =>
    let r := bitsOf a.pkt 111 80
    if s.blk.repair.length < 64 then
      ((s.onBlk (fun b => { b with repair := b.repair ++ [r] })).report.skeletonRepaired, [])
    else (s.logRec { event := 0x22, action := 9, d0 := r }, [a.bad 10])))

/-- The first unprogrammed eFuse record (R399). -/
def freeFuse (fuse : Nat) : Option Nat := (rangeFrom 0 384).find? (fun i => fuseRec fuse i == 0)

/-- What a failed burn leaves in its slot: some of the record's bits, never with a correct CHECK (R397, R399). -/
def badBurn (r x : Nat) : Nat :=
  let w := (r &&& x) ||| 2 ^ 31
  if repGood w then w ^^^ 2 ^ 16 else w

/-- One pending record burned and read back (R399, R404); `none` when no slot is left. -/
def State.burnOne (s : State) (r : Nat) (ok : Bool) : Option State :=
  match freeFuse s.blk.fuse with
  | none => none
  | some i =>
    let x := s.freeWord
    let w := if ok then r else badBurn r x.2
    let s := (if ok then s else x.1).onBlk (fun b => { b with
      fuse := b.fuse ||| w <<< (4096 + 32 * i), repair := if ok then b.repair.erase r else b.repair })
    some (s.logRec { event := 0x21, action := if ok then 0 else 10, d0 := r, d1 := i })

/-- Every pending record in turn; with no slot left the command ends with INTERNAL (R399). -/
def State.burnAll (s : State) : List Nat → List Bool → State × List Cond
  | [], _ => (s.report, [])
  | r :: rs, oks => match s.burnOne r (oks.headD true) with
    | some s => s.burnAll rs (oks.drop 1)
    | none =>
      let log := s.nextLog
      ((s.logRec { event := 0x21, action := 10, d0 := r, d1 := 0xFFFFFFFF }).report, [⟨.internal, log⟩])

/-- FUSE_BURN, in service quiesce or skeleton mode (R399, R401, R440). -/
def execFuseBurn (src : SvcSrc) (burnOk : List Bool) (s : State) : Host.Outcome State Fault Refusal :=
  .next (withService s src (· == 0x0003) (fun s a =>
    if s.blk.mode ≠ .quiesced ∧ ¬ s.start.skeleton then (s, [a.bad 8])
    else
      let r := s.burnAll s.blk.repair burnOk
      if r.2.isEmpty then (r.1.skeletonRepaired, []) else r))

/-- PARITY_SET: channel parity from the next start on (R314, R401). -/
def execParitySet (src : SvcSrc) (s : State) : Host.Outcome State Fault Refusal :=
  .next (withService s src (· == 0x0010) (fun s a => (s.onBlk (fun b => { b with paritySet := bitOf a.pkt 80 }), [])))

/-- LOOPBACK's report: 2,048 saturating lane counts and the first failing lane; no burst counts no error (R334, R401). -/
def loopbackBytes (p : Nat) (errors : List Nat) : List Byte :=
  let l := (rangeFrom 0 2048).map (fun i => if bitsOf p 127 96 = 0 then 0 else min 65535 (errors.getD i 0))
  l.flatMap (fun n => natLe n 2) ++ natLe ((l.findIdx? (· != 0)).getD 0xFFFF) 2

/-- LOOPBACK on a fenced stack, or in service quiesce or skeleton mode; no stored data changes (R334, R401). -/
def execLoopback (src : SvcSrc) (errors : List Nat) (s : State) : Host.Outcome State Fault Refusal :=
  .next (withService s src (· == 0x0011) (fun s a =>
    let x := bitsOf a.pkt 84 80
    if stackCount s.map.profile ≤ x ∨ ¬ ((s.stack x).fence.shown ∨ s.blk.mode = .quiesced ∨ s.start.skeleton) then (s, [a.bad 10])
    else s.svcWrite a (bitsOf a.pkt 239 192) 24 (loopbackBytes a.pkt errors)))

/-- WEAR_RESET: an entry's counts and marks to 0 (R352, R401). -/
def execWearReset (src : SvcSrc) (s : State) : Host.Outcome State Fault Refusal :=
  .next (withService s src (· == 0x0020) (fun s a =>
    let serial := bitsOf a.pkt 143 80
    match s.wearOf serial with
    | none => (s, [a.bad 10])
    | some _ => ((s.onWear serial (fun w => { w with
        written := 0, lifeUsed := 0, warn := false, worn := false, ratedTib := 0 })).mirrorWear serial, [])))

/-- A SPILL that has the extent open goes on at its new place (R349, R356). -/
def State.followExtent (s : State) (e : Extent) (port place : Nat) : State :=
  s.onCp (fun x => { x with cmds := x.cmds.map (fun c => c.onEng (fun y => { y with cur := y.cur.map (fun o =>
    if o.idx = e.idx ∧ o.port = e.port ∧ o.place = e.place then { o with port := port, place := place } else o) })) })

/-- One extent moved off a port (R348, R356): to the module of largest remaining life among the others, which counts the MiB written. -/
def State.evacuateOne (s : State) (port : Nat) (e : Extent) : State × List Cond :=
  match choosePlace s (some port) with
  | none => (s, [⟨.farTierWorn, leastLife s⟩])
  | some (p, x) =>
    let s := ((s.farCopy e.port e.place p x).placeExtent e.idx p x).followExtent e p x
    ((s.freePlace e.port e.place).addWear (serialAt s p) 16384, [])

/-- Every extent of a port in turn, until one finds no place (R356). -/
def State.evacuate (s : State) (port : Nat) : List Extent → State × List Cond
  | [] => (s, [])
  | e :: r => match s.evacuateOne port e with
    | (s, []) => s.evacuate port r
    | x => x

/-- FAR_EVACUATE: every extent off a module before it is removed (R356, R401). -/
def execFarEvacuate (src : SvcSrc) (s : State) : Host.Outcome State Fault Refusal :=
  .next (withService s src (· == 0x0021) (fun s a =>
    let p := bitsOf a.pkt 81 80
    if farAbsent s then (s, [⟨.farTierAbsent, 0⟩])
    else if (vget s.far.modules p).isNone then (s, [a.bad 10])
    else s.evacuate p (s.far.map.filter (fun e => e.port == p && e.lost.isNone))))

/-- STEP of a held frame set anew, its skew mark cleared (R380). -/
def Held.retag (f : Held) (step : Nat) : Held :=
  { f with header := f.header - hStep f.header <<< 40 + putBits step 48 40, skew := false }

/-- FRAME_RETAG (R380, R401): frames of the layer with the old STEP; receivers that wait then match them (R368). -/
def execFrameRetag (src : SvcSrc) (s : State) : Host.Outcome State Fault Refusal :=
  .next (withService s src (· == 0x0030) (fun s a =>
    let n := bitsOf a.pkt 83 80
    if !a.mayName n then (s, [a.bad 10])
    else
      let hit := fun (f : Held) => hLayer f.header == bitsOf a.pkt 111 96 && hStep f.header == bitsOf a.pkt 175 128
      ((s.onHeld n (fun l => l.map (fun f => if hit f then f.retag (bitsOf a.pkt 239 192) else f))).matchAll n, [])))

/-- FRAME_DISCARD (R380, R401): every held frame of the layer, or those of a STEP. -/
def execFrameDiscard (src : SvcSrc) (s : State) : Host.Outcome State Fault Refusal :=
  .next (withService s src (· == 0x0031) (fun s a =>
    let n := bitsOf a.pkt 83 80
    if !a.mayName n then (s, [a.bad 10])
    else
      let hit := fun (f : Held) => hLayer f.header == bitsOf a.pkt 111 96 && (bitOf a.pkt 84 || hStep f.header == bitsOf a.pkt 175 128)
      (s.onHeld n (fun l => l.filter (fun f => !hit f)), [])))

/-- QUIESCE: every ACTIVE context is preempted and the block is QUIESCED (R401, R444). -/
def execQuiesce (src : SvcSrc) (s : State) : Host.Outcome State Fault Refusal :=
  .next (withService s src (· == 0x0040) (fun s _ => (s.quiesce, [])))

/-- A reserved subcode fails with DESCRIPTOR_INVALID, naming SUBCODE; a SERVICE_CMD image with another opcode than SERVICE fails with
OPCODE_INVALID (R276, R400, R401). -/
def execReservedSubcode (src : SvcSrc) (s : State) : Host.Outcome State Fault Refusal :=
  .next (match src, s.svc.image with
    | .register, some p =>
      if pOp p ≠ 0x3C then
        (if s.svc.busy && blkRuns s && !s.cp.paused then s.svcReply p [⟨.opcodeInvalid, pOp p⟩] else s)
      else withService s .register (fun x => !svcKnown x) (fun s a => (s, [a.bad 8]))
    | _, _ => withService s src (fun x => !svcKnown x) (fun s a => (s, [a.bad 8])))

/-! Answers on the host port (R455, R457). -/

/-- The sender of a request. -/
def OutReq.of (src : OutSrc) (r : OutReq) : Bool :=
  match src with
  | .command q pos => r.key == some (q.val, pos)
  | .service => r.key.isNone

/-- A request leaves the port. -/
def State.popHout (s : State) (r : OutReq) : State := s.onPort (fun x => { x with hout := s.port.hout.erase r })

/-- The answer to a SIGNAL's write (R305, R457). -/
def State.signalAnswer (s : State) (k : Key) (r : OutReq) (ok : Bool) : State :=
  s.onCmd k (fun c => { c with ended := true, conds := c.conds ++ if ok then [] else [⟨.memoryUnrecoverable, r.addr⟩] })

/-- The answer to a request of SERVICE_CMD: its image, or the end of its run (R400, R457). -/
def State.serviceAnswer (s : State) (r : OutReq) (ok : Bool) (data : List Byte) : State :=
  if !ok then s.svcDone 0x40
  else if r.write then s.svcDone s.svc.status
  else s.onSvc (fun x => { x with image := some (leNat data) })

/-- The integrator answers the oldest request that its sender has out (R455, R457): any code but OK ends the command with
MEMORY_UNRECOVERABLE and the address. A read answered OK without all its data gets free bytes in place of the rest (R3; log 43). -/
def execHostOutboundResponse (src : OutSrc) (status : Fin 4) (data : List Byte) (s : State) : Host.Outcome State Fault Refusal :=
  .next (match s.port.hout.find? (OutReq.of src) with
    | none => s
    | some r =>
      let ok := status = 0
      let x := (s.popHout r).freeBytes (if r.write then 0 else r.len - data.length)
      let s := x.1
      let data := data.take r.len ++ x.2
      match r.key with
      | none => s.serviceAnswer r ok data
      | some k => match s.cmd? k with
        | none => s
        | some c => match c.body with
          | .signal _ => s.signalAnswer k r ok
          | .engine _ => s.engAnswer k r ok data
          | _ => s)

end Sys2Proof.Machine
end

