-- ==== Sys2Proof/Machine/Registers.lean ====
section
/-! DEFINITION. The register window: power states, every register's write and read, and the rows that write them (R269-R271, R295-R297,
R324, R359, R360, R402, R414-R428, R434-R445, R458, R459, R466, R473-R480). -/
namespace Sys2Proof.Machine

/-! Power states (R428). -/

/-- Every context is DISABLED. -/
def allDisabled (s : State) : Bool := s.ctxs.toList.all (fun c => c.mode == .disabled)

/-- A transition to a power state begins: away from ACTIVE it first ends sprint (R425, R428). -/
def State.goTo (s : State) (t : PState) : State :=
  (if t = .active then s else (s.endSprint 6).driveRequest).onPwr (fun p => { p with going := if t = p.state then none else some t })

/-- The exit from DEEP: a start from S1 (R428, R444). -/
def State.exitDeep (s : State) : State := s.coldClear.beginS1 .deep

/-- The power state of a TARGET code (R428). -/
def pstateOf (n : Nat) : PState := match n with | 0 => .active | 1 => .idle | 2 => .arraysOff | _ => .deep

/-- TARGET written (R428): DEEP is refused unless every context is DISABLED; from DEEP only ACTIVE leads anywhere; during a start the
target waits for S6. -/
def State.setTarget (s : State) (t : PState) : State :=
  if t = .deep ∧ ¬ allDisabled s then s.onPwr (fun p => { p with refused := true })
  else
    let s := s.onPwr (fun p => { p with target := t })
    if s.blk.mode = .starting ∨ s.blk.mode = .failed then s
    else if s.pwr.state = .deep then (if t = .active then s.exitDeep else s)
    else if t = .active then s.goTo t |>.riseToCeiling
    else s.goTo t

/-- PWR_CTRL written (R428). -/
def State.writePwr (s : State) (v : Nat) : State :=
  (s.onPwr (fun p => { p with
    autoIdle := bitOf v 2, idleDelay := bitsOf v 31 8, refused := p.refused && !bitOf v 34 })).setTarget (pstateOf (v % 4))

/-! Writes. -/

/-- The keeper set of R434: served in every state (R459). -/
def keeperSet (off : Nat) : Bool := decide (off ≤ 0x18) || off == 0x30 || off == 0x38 || (decide (0x100 ≤ off) && decide (off ≤ 0x130))

/-- RST_CTRL written (R444, R445). -/
def State.writeRst (s : State) (v : Nat) : State :=
  let s := if bitOf v 1 then s.onStart (fun x => { x with attempts := 0 }) else s
  let s := if bitOf v 0 then s.warmReset else s
  s.contextResets (bitsOf v 31 16)

/-- The image of a run is fetched (R400, R457): a near area at once, a host area by a read on the host port; an area that cannot be
used ends the run with its status and no reply image. -/
def State.svcGo (s : State) : State :=
  let a := s.svc.argAddr
  let s := s.onSvc (fun x => { x with busy := true, area := a, image := none })
  if a % 64 ≠ 0 then s.svcDone 0x30
  else match regionOf a with
    | .host => s.onPort (fun x => { x with hout := s.port.hout ++ [⟨none, a, false, [], 64⟩] })
    | .near =>
      if (badByte s a 128).isSome then s.svcDone 0x40
      else if hitsBlockRegion (a + 64) 64 then s.svcDone 0x30
      else match nearFault s a 128, writeFault s (a + 64) 64 with
        | some e, _ => s.svcDone e.status.code
        | none, some e => s.svcDone e.status.code
        | none, none => s.onSvc (fun x => { x with image := some (s.readNat a 64) })
    | .far => s.svcDone 0x30
    | _ => s.svcDone 0x40

/-- SERVICE_CMD written (R400). -/
def State.writeSvc (s : State) (v : Nat) : State :=
  let s := s.onSvc (fun x => { x with argAddr := bitsOf v 47 0 })
  if bitOf v 48 && !s.svc.busy then s.svcGo else s

/-- KPR_LIMITS in range (R426). -/
def limitsOk (v : Nat) : Bool :=
  let p := bitsOf v 9 0
  let t := bitsOf v 16 10
  let vs := bitsOf v 31 24
  let vp := bitsOf v 39 32
  decide (250 ≤ p) && decide (p ≤ 700) && decide (70 ≤ t) && decide (t ≤ 100) && decide (120 ≤ vs) && decide (vs ≤ 150)
    && decide (150 ≤ vp) && decide (vp ≤ 170) && decide (vs ≤ vp)

/-- KPR_LIMITS written (R426): ignored as a whole, with LIMIT_ERR, when a field is out of its range. -/
def State.writeLimits (s : State) (v : Nat) : State :=
  if limitsOk v then s.onKpr (fun k => { k with
    pLimit := bitsOf v 9 0, tThrottle := bitsOf v 16 10, vSust := bitsOf v 31 24, vSprint := bitsOf v 39 32 })
  else s.onKpr (fun k => { k with limitErr := true })

/-- The selected entry latched (R480). -/
def State.latchWear (s : State) : State := s.onFar (fun f => { f with wearLatch := wearWord (vget f.wear f.wearIdx) })

/-- RATED_TIB written: only while it is 0 and the entry PRESENT or ABSENT (R351, R480). -/
def State.writeRated (s : State) (v : Nat) : State :=
  let w := vget s.far.wear s.far.wearIdx
  if w.state = 0 ∨ w.ratedTib ≠ 0 then s
  else ((s.onWear w.serial (fun w => { w with ratedTib := bitsOf v 63 32 })).mirrorWear w.serial).wearCheck w.serial

/-- Q_BASE[q] written (R472, R476): only while the context is DISABLED, a ring above the block region, L from 4 to 12; the value 0
takes the queue away. -/
def State.writeQBase (s : State) (q v : Nat) : State :=
  let l := bitsOf v 3 0
  let b := bitsOf v 47 12 * 4096
  let n := ctxOf q
  let bad := decide (l < 4) || decide (12 < l)
    || (b != 0 && (decide (b < 0x0D000000) || regionOf b != .near || (badByte s b (576 * 2 ^ l)).isSome))
  if (s.ctx n).mode ≠ .disabled then s.cmdErr n
  else if l = 0 ∧ b = 0 then s.onQ q (fun x => { x with log := 0, base := 0 })
  else if bad then s.cmdErr n
  else s.onQ q (fun x => { x with log := l, base := b })

/-- A doorbell (R271, R476). -/
def State.writeDoorbell (s : State) (q v : Nat) : State :=
  let x := s.queue q
  let t := v % 2 ^ 32
  if x.log = 0 ∨ 2 ^ x.log < (t + 2 ^ 32 - x.oldest % 2 ^ 32) % 2 ^ 32
      ∨ 2 ^ x.log < (t + 2 ^ 32 - x.tail % 2 ^ 32) % 2 ^ 32 then
    s.onCtx (ctxOf q) (fun c => { c with qerr := true })
  else s.onQ q (fun x => { x with tail := t })

/-- Position `i` is the block's own (R360, R467). -/
def isSelf (s : State) (i : Nat) : Bool := bitsOf s.blk.straps 13 11 == i

/-- PEER_TBL[i] written (R360). -/
def State.writePeer (s : State) (i v : Nat) : State :=
  s.onXch (fun x => { x with peers := vmod x.peers i (fun p =>
    (if isSelf s i then p.1 else bitsOf v 31 0, bitOf v 32, p.2.2)) })

/-- A write of a context's page (R473): a doorbell, CTX_STAT or CTX_IRQ. -/
def State.writePage (s : State) (n r v : Nat) : State :=
  if r < 0x20 then s.writeDoorbell (4 * n + r / 8) v
  else if r = 0x40 then s.onCtx n (fun c => { c with qerr := c.qerr && !bitOf v 3, cmdErr := c.cmdErr && !bitOf v 4 })
  else if r = 0x48 then s.onCtx n (fun c => { c with qpend := c.qpend &&& (15 ^^^ bitsOf v 3 0), qmask := bitsOf v 7 4 })
  else s

/-- A write of a register that is not in the keeper set's power and reset part (R402, R473-R480). Offsets not listed ignore it. -/
def State.writeReg (s : State) (off v : Nat) : State :=
  if 0x8000 ≤ off then s.writePage ((off - 0x8000) / 0x800) ((off - 0x8000) % 0x800) v
  else if 0x800 ≤ off ∧ off < 0xA00 then s.writeQBase ((off - 0x800) / 8) v
  else if 0x400 ≤ off ∧ off < 0x480 then s.writeCtxCtrl ((off - 0x400) / 8) v
  else if 0x240 ≤ off ∧ off < 0x280 then s.writePeer ((off - 0x240) / 8) v
  else match off with
    | 0x30 => s.writeRst v
    | 0x38 => s.onBlk (fun b => { b with fwPatch := bitsOf v 47 0 })
    | 0x40 => s.writeSvc v
    | 0x48 => s.onSvc (fun x => { x with irq := s.svc.irq &&& (31 ^^^ bitsOf v 4 0), mask := bitsOf v 36 32 })
    | 0x50 => s.onLog (fun x => { x with rd := bitsOf v 19 10, wrapped := s.log.wrapped && !bitOf v 20 })
    | 0x78 => (s.onFar (fun f => { f with wearIdx := v % 16 })).latchWear
    | 0x88 => s.writeRated v
    | 0x100 => s.onKpr (fun k => { k with limitErr := k.limitErr && !bitOf v 30 })
    | 0x108 => s.writeLimits v
    | 0x110 => s.onKpr (fun k => { k with sprintEn := bitOf v 0 })
    | 0x118 => s.onPwr (fun p => { p with ramp := min 200 (max 40 (v % 256)) })
    | 0x120 => s.writePwr v
    | 0x200 => if bitsOf v 9 0 > 1000 then s
        else s.onMap (fun x => { x with resvRate := bitsOf v 9 0, resvBurst := bitsOf v 15 10 })
    | 0x208 => s.onXch (fun x => { x with boardId := bitsOf v 31 0, fdom := bitsOf v 63 32 })
    | _ => s

/-- A write while the block starts, has failed or is in DEEP (R434, R445, R459): the keeper set only, and of RST_CTRL only
ATTEMPTS_CLR. -/
def State.keeperWrite (s : State) (off v : Nat) : State :=
  if s.start.stage = 0 ∨ ¬ keeperSet off then s
  else if off = 0x30 then s.writeReg 0x30 (v &&& 2)
  else s.writeReg off v

/-- A write in IDLE (R428, R459): it wakes the block; the keeper set takes it at once, but for resets and power targets, which wait for
ACTIVE as every other register does, in the order of transfer. -/
def State.idleWrite (s : State) (off v : Nat) : State :=
  let s := s.wake
  if keeperSet off && off != 0x30 && off != 0x120 && s.pwr.waking.isEmpty then s.writeReg off v
  else s.onPwr (fun p => { p with waking := p.waking ++ [(off, v)] })

/-- A write on the register port (R458, R459). -/
def State.regWrite (s : State) (off v : Nat) : State :=
  if s.start.resetLow ∨ s.blk.mode = .starting ∨ s.blk.mode = .failed ∨ s.pwr.state = .deep then s.keeperWrite off v
  else if s.pwr.state = .idle then s.idleWrite off v
  else s.writeReg off v

/-! Reads. -/

/-- BLK_ID, 128 bits (R474). -/
def blkIdWord (s : State) : Nat :=
  0x0C8A + putBits 1 4 16 + putBits 0x0100 16 24 + putBits s.blk.patchVer 16 40 + putBits (bitsOf s.blk.fuse 575 512) 64 64

/-- BLK_STATE (R475). -/
def blkStateWord (s : State) : Nat :=
  s.blk.mode.code + putBits (bit s.blk.degraded) 1 3 + putBits (bit s.blk.replace) 1 4 + putBits s.blk.lastCond 8 8
    + putBits (maskOf (s.cores.toList.map (·.inService))) 8 16 + putBits (bit s.cp.spare) 1 24
    + putBits (bit (s.cp.running == 2)) 1 25 + putBits s.kin.copies 2 26
    + putBits (maskOf (s.arrays.toList.map (·.inService))) 32 32

/-- START_REC (R441). -/
def startRecWord (s : State) : Nat :=
  let x := s.start
  putBits x.stageFail 3 0 + putBits x.attempts 4 4 + putBits x.code 8 8 + putBits x.unitKind 4 16 + putBits x.unit 12 20
    + putBits (bit x.skeleton) 1 32 + putBits x.startCount 16 48

/-- MAP_STATE (R333). -/
def mapStateWord (s : State) : Nat :=
  putBits s.map.top 30 0 + putBits s.map.outs.length 4 30 + putBits (bit (rebuilding s)) 1 34
    + putBits (bit s.map.parity) 1 35 + putBits s.map.profile 2 36
    + putBits (maskOf (s.stks.toList.map (fun x => x.fence.shown))) 24 40

/-- SERVICE_CMD (R400). -/
def svcWord (s : State) : Nat := putBits s.svc.argAddr 48 0 + putBits (bit s.svc.busy) 1 49 + putBits s.svc.status 8 50

/-- ERR_LOG_HEAD (R402). -/
def logHeadWord (s : State) : Nat :=
  putBits s.log.wr 10 0 + putBits s.log.rd 10 10 + putBits (bit s.log.wrapped) 1 20 + putBits s.log.nextSeq 32 32

/-- KPR_STATUS (R427). -/
def kprStatusWord (s : State) : Nat :=
  let k := s.kpr
  putBits k.vReq 8 0 + putBits (ofSigned k.tHot 8) 8 8 + putBits (min 1023 k.pF) 10 16 + putBits k.throttle 2 26
    + putBits (bit (keeperAlert s)) 1 28 + putBits (bit k.chipAlarm) 1 29 + putBits (bit k.limitErr) 1 30
    + putBits (bit (twoCopies s)) 1 31 + putBits (s.kin.sensors.countP sensorFailedNow) 8 32 + putBits k.vminTrim 4 40
    + putBits k.gradeCap 4 44

/-- KPR_LIMITS (R426). -/
def kprLimitsWord (s : State) : Nat :=
  putBits s.kpr.pLimit 10 0 + putBits s.kpr.tThrottle 7 10 + putBits s.kpr.vSust 8 24 + putBits s.kpr.vSprint 8 32

/-- SPRINT_CTRL (R427). -/
def sprintWord (s : State) : Nat :=
  putBits (bit s.kpr.sprintEn) 1 0 + putBits (bit s.kpr.sprintOn) 1 1 + putBits s.kpr.reason 3 2
    + putBits (s.kin.budget / 100000000000) 9 8 + putBits (sat32 s.kin.sprintCs) 32 32

/-- RAMP_LIMIT (R479). -/
def rampWord (s : State) : Nat := putBits s.pwr.ramp 8 0 + putBits s.pwr.tG 16 16 + putBits s.pwr.iGrade 8 32

/-- PWR_CTRL (R428). -/
def pwrWord (s : State) : Nat :=
  putBits s.pwr.target.code 2 0 + putBits (bit s.pwr.autoIdle) 1 2 + putBits s.pwr.idleDelay 24 8
    + putBits s.pwr.state.code 2 32 + putBits (bit s.pwr.refused) 1 34

/-- CTX_CTRL[n] as read: CMD is write-only (R296). -/
def ctxCtrlWord (c : Ctx) : Nat :=
  putBits c.wBase 5 8 + putBits c.wCount 6 13 + putBits c.share 8 24 + putBits c.quota 11 32 + putBits c.bwRate 10 48
    + putBits c.bwBurst 6 58

/-- CTX_STAT[n] (R297). -/
def ctxStatWord (s : State) (n : Nat) : Nat :=
  let c := s.ctx n
  c.mode.code + putBits (bit c.qerr) 1 3 + putBits (bit c.cmdErr) 1 4 + putBits (heldAreas s n).length 3 5
    + putBits (min 255 (s.cmdsOf n).length) 8 8 + putBits c.step 48 16

/-- PEER_TBL[i] (R360). -/
def peerWord (s : State) (i : Nat) : Nat :=
  let p := vget s.xch.peers i
  putBits (if isSelf s i then bitsOf s.blk.straps 63 32 else p.1) 32 0 + putBits (bit p.2.1) 1 32 + putBits (bit p.2.2) 1 33
    + putBits (bit (isSelf s i)) 1 34

/-- A register of a context's page (R473, R477, R478). -/
def readPage (s : State) (n r : Nat) : Nat :=
  if 0x20 ≤ r ∧ r < 0x40 then
    let x := s.queue (4 * n + (r - 0x20) / 8)
    putBits x.tail 32 0 + putBits x.oldest 32 32
  else if r = 0x40 then ctxStatWord s n
  else if r = 0x48 then putBits (s.ctx n).qpend 4 0 + putBits (s.ctx n).qmask 4 4
  else 0

/-- What a register holds (R473). Offsets not listed read 0. -/
def readReg (s : State) (off : Nat) : Nat :=
  if off % 8 ≠ 0 then 0
  else if 0x8000 ≤ off then readPage s ((off - 0x8000) / 0x800) ((off - 0x8000) % 0x800)
  else if 0x800 ≤ off ∧ off < 0xA00 then
    let x := s.queue ((off - 0x800) / 8)
    x.log + x.base
  else if 0x400 ≤ off ∧ off < 0x480 then ctxCtrlWord (s.ctx ((off - 0x400) / 8))
  else if 0x240 ≤ off ∧ off < 0x280 then peerWord s ((off - 0x240) / 8)
  else if 0x58 ≤ off ∧ off < 0x78 then bitsOf ((aget s.log.recs s.log.rd).getD 0) (64 * ((off - 0x58) / 8) + 63) (64 * ((off - 0x58) / 8))
  else if 0x80 ≤ off ∧ off < 0xA0 then bitsOf s.far.wearLatch (64 * ((off - 0x80) / 8) + 63) (64 * ((off - 0x80) / 8))
  else match off with
    | 0x00 => bitsOf (blkIdWord s) 63 0
    | 0x08 => bitsOf (blkIdWord s) 127 64
    | 0x10 => blkStateWord s
    | 0x18 => startRecWord s
    | 0x20 => s.blk.straps
    | 0x28 => mapStateWord s
    | 0x38 => s.blk.fwPatch
    | 0x40 => svcWord s
    | 0x48 => putBits s.svc.irq 5 0 + putBits s.svc.mask 5 32
    | 0x50 => logHeadWord s
    | 0x78 => s.far.wearIdx
    | 0x100 => kprStatusWord s
    | 0x108 => kprLimitsWord s
    | 0x110 => sprintWord s
    | 0x118 => rampWord s
    | 0x120 => pwrWord s
    | 0x128 => putBits s.kpr.sample 48 0
    | 0x130 => putBits (sat32 s.kin.poweredS) 32 0 + putBits (sat32 s.kin.ageS) 32 32
    | 0x200 => putBits s.map.resvRate 10 0 + putBits s.map.resvBurst 6 10
    | 0x208 => putBits s.xch.boardId 32 0 + putBits s.xch.fdom 32 32
    | _ => 0

/-- The whole window is served (R434, R459). -/
def windowOpen (s : State) : Bool :=
  !s.start.resetLow && s.blk.mode != .starting && s.blk.mode != .failed && unitsRun s

/-- A read on the register port (R434, R459): outside the keeper set 0 while the window is not served. -/
def regRead (s : State) (off : Nat) : Nat := if keeperSet off || windowOpen s then readReg s off else 0

/-! The rows of single registers. A value that is another row's write changes nothing (log 3). -/

/-- Q_DOORBELL[q] written (R271, R477). -/
def execQDoorbellWrite (q : QIx) (value : Word) (s : State) : Host.Outcome State Fault Refusal :=
  .next (s.regWrite (0x8000 + 0x800 * (q / 4) + 8 * (q % 4)) value.toNat)

/-- Q_BASE[q] written (R476). -/
def execQBaseWrite (q : QIx) (value : Word) (s : State) : Host.Outcome State Fault Refusal :=
  .next (s.regWrite (0x800 + 8 * q) value.toNat)

/-- CTX_CTRL[n] written with a CMD. -/
def State.ctxCtrl (s : State) (n cmd : Nat) (value : Word) : State :=
  if ccCmd value.toNat = cmd then s.regWrite (0x400 + 8 * n) value.toNat else s

/-- ENABLE (R295, R296). -/
def execEnable (n : CIx) (value : Word) (s : State) : Host.Outcome State Fault Refusal := .next (s.ctxCtrl n 1 value)
/-- DISABLE (R295, R296, R308). -/
def execDisable (n : CIx) (value : Word) (s : State) : Host.Outcome State Fault Refusal := .next (s.ctxCtrl n 2 value)
/-- PREEMPT (R295, R296, R311). -/
def execPreempt (n : CIx) (value : Word) (s : State) : Host.Outcome State Fault Refusal := .next (s.ctxCtrl n 3 value)
/-- RESUME (R295, R296, R312). -/
def execResume (n : CIx) (value : Word) (s : State) : Host.Outcome State Fault Refusal := .next (s.ctxCtrl n 4 value)

/-- RST_CTRL written with WARM (R444, R445). -/
def execWarmReset (value : Word) (s : State) : Host.Outcome State Fault Refusal :=
  .next (if bitOf value.toNat 0 then s.regWrite 0x30 value.toNat else s)

/-- RST_CTRL written with ATTEMPTS_CLR (R440, R445). -/
def execAttemptsClr (value : Word) (s : State) : Host.Outcome State Fault Refusal :=
  .next (if bitOf value.toNat 1 then s.regWrite 0x30 value.toNat else s)

/-- RST_CTRL written with CTX_MASK (R444, R445). -/
def execContextReset (value : Word) (s : State) : Host.Outcome State Fault Refusal :=
  .next (if bitsOf value.toNat 31 16 = 0 then s else s.regWrite 0x30 value.toNat)

/-- PWR_CTRL written with a TARGET. -/
def State.target (s : State) (t : Nat) (value : Word) : State :=
  if value.toNat % 4 = t then s.regWrite 0x120 value.toNat else s

/-- TARGET ACTIVE (R428). -/
def execTargetActive (value : Word) (s : State) : Host.Outcome State Fault Refusal := .next (s.target 0 value)
/-- TARGET IDLE (R428). -/
def execTargetIdle (value : Word) (s : State) : Host.Outcome State Fault Refusal := .next (s.target 1 value)
/-- TARGET ARRAYS_OFF (R428). -/
def execTargetArraysOff (value : Word) (s : State) : Host.Outcome State Fault Refusal := .next (s.target 2 value)
/-- TARGET DEEP (R428). -/
def execTargetDeep (value : Word) (s : State) : Host.Outcome State Fault Refusal := .next (s.target 3 value)

/-- KPR_LIMITS written (R426). -/
def execKprLimitsWrite (value : Word) (s : State) : Host.Outcome State Fault Refusal := .next (s.regWrite 0x108 value.toNat)
/-- SPRINT_CTRL written (R425, R427): sprint follows in the next sample. -/
def execSprintCtrlWrite (value : Word) (s : State) : Host.Outcome State Fault Refusal := .next (s.regWrite 0x110 value.toNat)
/-- RAMP_LIMIT written (R130, R479). -/
def execRampLimitWrite (value : Word) (s : State) : Host.Outcome State Fault Refusal := .next (s.regWrite 0x118 value.toNat)
/-- MEM_RESV written (R324). -/
def execMemResvWrite (value : Word) (s : State) : Host.Outcome State Fault Refusal := .next (s.regWrite 0x200 value.toNat)
/-- WEAR_LEDGER_IDX written: the entry is latched (R480). -/
def execWearLedgerIdxWrite (value : Word) (s : State) : Host.Outcome State Fault Refusal := .next (s.regWrite 0x78 value.toNat)
/-- WEAR_LEDGER_DATA[1] written (R351, R480). -/
def execRatedTibWrite (value : Word) (s : State) : Host.Outcome State Fault Refusal := .next (s.regWrite 0x88 value.toNat)

/-- WEAR_LEDGER_DATA[0] read: the entry is latched afresh and its word 0 returned (R459, R480). -/
def execWearLedgerDataRead (s : State) : Host.Outcome State Fault Refusal :=
  .next (
    let s := if windowOpen s then s.latchWear else s
    s.onPort (fun x => { x with regData := regRead s 0x80 }))

/-- A write of any other register of the window, under its access code (R458, R473). -/
def execRegisterWrite (offset : Nat) (value : Word) (s : State) : Host.Outcome State Fault Refusal :=
  .next (if offset % 8 = 0 ∧ offset < 0x10000 then s.regWrite offset value.toNat else s)

/-! The rows of power states. -/

/-- No packet is unread and no command in flight in any context (R428). -/
def quietBlock (s : State) : Bool := s.cp.cmds.isEmpty && s.qs.toList.all (fun q => q.head == q.tail)

/-- IDLE_DELAY passes with nothing to do: the block enters IDLE (R428). -/
def execAutoIdleExpiry (s : State) : Host.Outcome State Fault Refusal :=
  .next (
    if !s.pwr.autoIdle || s.pwr.state != .active || s.pwr.going.isSome || !windowOpen s || !quietBlock s then s else s.goTo .idle)

/-- What wakes the block from IDLE (R428): the waking write takes effect afterwards. -/
def execIdleWake (src : WakeSrc) (s : State) : Host.Outcome State Fault Refusal :=
  .next (
    if !sleeps s then s
    else match src with
      | .registerWrite off v => s.regWrite (off % 0x10000 / 8 * 8) v.toNat
      | .doorbell q v => s.regWrite (0x8000 + 0x800 * (q / 4) + 8 * (q % 4)) v.toNat
      | .frame => s.wake)

/-- The arrays are gated: WREG and the checksum weights are lost, and a walk in progress loads its weights again (R302, R428,
R448). -/
def State.gateArrays (s : State) : State :=
  (rangeFrom 0 32).foldl (fun s a =>
    let s := s.onArray a (fun x => { x with wreg := [], set0 := [], set1 := [], active := false })
    match (s.array a).claim.bind (fun cl => (s.claimCmd cl.seed).map (fun x => (cl, x.1, x.2))) with
    | none => s
    | some (cl, cmd, c) => match c.run? cl.seed.ord with
      | none => s
      | some r => s.onArray a (fun x => { x with
          claim := some { cl with todo := resumeOps (c.walk s cmd.q cmd.pkt r (a % 4)) cl.todo } })) s

/-- Totals saved to near memory at DEEP entry (R448). -/
def State.saveTotals (s : State) : State :=
  (s.onMirror (fun x => { x with totals := vall s.ctxs (·.totals) })).mirrorBytes 0x2000
    (s.ctxs.toList.flatMap (fun c => totalsBytes c.totals))

/-- A transition is over and the new state holds (R428, R448, R449). -/
def execPowerStateReached (s : State) : Host.Outcome State Fault Refusal :=
  .next (match s.pwr.going with
    | none => s
    | some g =>
      let s := s.onPwr (fun p => { p with state := g, going := none })
      match g with
      | .idle => (s.onKpr (fun k => { k with vReq := 110, vTarget := 110 })).driveRequest
      | .arraysOff => s.gateArrays
      | .deep => s.saveTotals.writeBack
      | .active =>
        let l := s.pwr.waking
        let s := s.onPwr (fun p => { p with waking := [] })
        l.foldl (fun s x => s.regWrite x.1 x.2) s)

end Sys2Proof.Machine
end

