-- ==== Sys2Proof/Machine/Stall.lean ====
section
/-! DEFINITION. The handshake watchdog: units that hold work and ready input, and what becomes of one that stalls (R386-R389). -/
namespace Sys2Proof.Machine

/-- An array has a step to take whose data is there and whose row no drain holds (R146, R169, R386). -/
def arrayReady (s : State) (a : Nat) : Bool :=
  arrayRuns s a && arrayWorks s a && (match liveClaim s a with
    | none => false
    | some (cl, _, _) => match cl.todo with
      | .vec v :: _ =>
        let tile := ((s.entriesOf cl.seed)[v.tile]?).elim (⟨0, 0, 0⟩ : Tile) (·.tile)
        !drainPending s a v.slot (v.m - tile.m0)
      | _ => true)

/-- A thin half has the store row and the weights of its next lane step (R253, R386). -/
def halfReady (s : State) (h : Nat) : Bool :=
  (s.core (h / 2)).thinIn && (match (s.half h).claim with
    | none => false
    | some cl => s.lives cl.seed.key && (s.half h).wBlock == some cl.b && (s.half h).store.any (fun r => r.idx == cl.m))

/-- The sequencer has a claim to begin on a free unit of its core: a restored or held one, one of the mailbox, or one to draw (R228,
R234, R302, R386). -/
def sequencerReady (s : State) (u : Nat) : Bool :=
  unitFree s u && ((readyPaused s u).isSome || (match s.mailOf u with
    | some sd => mailFits s u sd
    | none => (s.placeFor u).isSome || (heldClaim s u).isSome || !(eligibles s u).isEmpty))

/-- The fusion unit of a core has a row to grant, or a done action that is due on a unit of the core (R170, R235, R386). -/
def fusionReady (s : State) (c : Nat) : Bool := (nextGrant s c).isSome || (coreUnits c).any (fun u => !(dueDrains s u).isEmpty)

/-- The units by which a named unit of core `c` holds work and ready input; waits on memory, the streams or another context's slot
are none (R386, R404). -/
def stallSubject (s : State) (c unit : Nat) : List Nat :=
  if unit < 4 then [4 * c + unit].filter (arrayReady s)
  else if unit = 4 then (coreUnits c).filter (sequencerReady s)
  else if unit = 5 then (if fusionReady s c then (nextGrant s c).elim [48 + c] (fun x => [x.1]) else [])
  else (rangeFrom (2 * c) 2).filterMap (fun h => if halfReady s h then some (32 + h) else none)

/-- A unit with work and ready input has completed no handshake for 8 µs and is named by the watchdog: an array alone is retired,
otherwise its core (R386, R388, R389). -/
def execWatchdogStall (c : KIx) (unit : Fin 7) (s : State) : Host.Outcome State Fault Refusal :=
  .next (match stallSubject s c unit with
    | [] => s
    | u :: _ =>
      if !unitsRun s || !(s.core c).inService then s
      else
        let log := s.nextLog
        let key := (s.seedsOn u).head?.map (·.key)
        if unit.val < 4 then
          (s.logRec (s.withCmd key { event := 0x09, action := 1, kind := 1, unit := 4 * c + unit, d0 := unit })).retireArray
            (4 * c + unit) log
        else (s.logRec (s.withCmd key { event := 0x09, action := 1, kind := 2, unit := c, d0 := unit })).retireCore c log)

end Sys2Proof.Machine
end

