-- ==== Sys2Proof/Machine/Test.lean ====
section
/-! DEFINITION. Test access: the IEEE 1687 instruments and the IEEE 1500 wrapper (R435, R468, R469). -/
namespace Sys2Proof.Machine

/-- The restricted rows of R468 are available: TEST_EN = 1 and RESET_N low. -/
def testOpen (s : State) : Bool := s.port.testEn && s.start.resetLow

/-- An instrument runs, with its result: 0 STATUS, 1 FUSE_READ, 2 ABIST, 3 MBIST, 4 FUSE_PGM. -/
def State.instrument (s : State) (i out : Nat) : State := s.onPort (fun x => { x with instrument := some i, testOut := out })

/-- The wrapper takes an instruction. -/
def State.wrapper (s : State) (w : Wir) : State := s.onPort (fun x => { x with wir := w })

/-- ABIST: the five phases of R124 on one array, pass or fail per phase (R468). -/
def execAbist (_a : AIx) (reads : List DiagRead) (s : State) : Host.Outcome State Fault Refusal :=
  .next (if testOpen s then s.instrument 2 (maskOf ((rangeFrom 0 5).map (fun ph => (diagWrong reads).all (fun x => x.phase.val != ph)))) else s)

/-- MBIST: the march test of S4 on one memory (R468). -/
def execMbist (_mem : Nat) (pass : Bool) (s : State) : Host.Outcome State Fault Refusal :=
  .next (if testOpen s then s.instrument 3 (bit pass) else s)

/-- FUSE_PGM: bits [4095:0] programmed; a set bit stays set (R435, R468). -/
def execFusePgm (bits : Nat) (s : State) : Host.Outcome State Fault Refusal :=
  .next (
    if testOpen s then (s.onBlk (fun b => { b with fuse := b.fuse ||| bits % 2 ^ 4096 })).instrument 4 0 else s)

/-- FUSE_READ: the eFuse bank (R468). -/
def execFuseRead (s : State) : Host.Outcome State Fault Refusal := .next (s.instrument 1 s.blk.fuse)

/-- STATUS: BLK_STATE, START_REC and ASSY_PROFILE (R468). -/
def execStatus (s : State) : Host.Outcome State Fault Refusal :=
  .next (s.instrument 0 (blkStateWord s + startRecWord s <<< 64 + s.blk.straps <<< 128))

/-- WS_BYPASS (R468). -/
def execWsBypass (s : State) : Host.Outcome State Fault Refusal := .next (s.wrapper .bypass)
/-- WS_EXTEST, where test is open (R468). -/
def execWsExtest (s : State) : Host.Outcome State Fault Refusal := .next (if testOpen s then s.wrapper .extest else s)
/-- WS_INTEST, where test is open (R468). -/
def execWsIntest (s : State) : Host.Outcome State Fault Refusal := .next (if testOpen s then s.wrapper .intest else s)
/-- WS_SAFE, where test is open (R468). -/
def execWsSafe (s : State) : Host.Outcome State Fault Refusal := .next (if testOpen s then s.wrapper .safe else s)

/-- TEST_EN falls: a running instrument of the restricted rows is abandoned, and the wrapper returns to WS_BYPASS (R469). -/
def execTestEnFall (s : State) : Host.Outcome State Fault Refusal :=
  .next (s.onPort (fun x => { x with
    testEn := false, wir := .bypass, instrument := s.port.instrument.bind (fun i => if i < 2 then some i else none) }))

end Sys2Proof.Machine
end

