-- ==== Sys2Proof/Machine/Dispatch.lean ====
section
/-! DEFINITION. The dispatch: one arm per command, each one direct call of its meaning. -/
namespace Sys2Proof.Machine

/-- The effect of a command on everything but the queue of waiting commands. -/
def exec (i : Instr) (s : State) : Host.Outcome State Fault Refusal :=
  match i with
  | .nop q => Sys2Proof.Machine.execNop q s
  | .fence q => Sys2Proof.Machine.execFence q s
  | .fenceRelease q => Sys2Proof.Machine.execFenceRelease q s
  | .signal q => Sys2Proof.Machine.execSignal q s
  | .wait q => Sys2Proof.Machine.execWait q s
  | .waitSatisfied q => Sys2Proof.Machine.execWaitSatisfied q s
  | .stepSet q => Sys2Proof.Machine.execStepSet q s
  | .matmul q => Sys2Proof.Machine.execMatmul q s
  | .matvec q => Sys2Proof.Machine.execMatvec q s
  | .gatherMatmul q => Sys2Proof.Machine.execGatherMatmul q s
  | .segmentSum q => Sys2Proof.Machine.execSegmentSum q s
  | .combine q => Sys2Proof.Machine.execCombine q s
  | .finish q => Sys2Proof.Machine.execFinish q s
  | .scaleScan q => Sys2Proof.Machine.execScaleScan q s
  | .copy q => Sys2Proof.Machine.execCopy q s
  | .fill q => Sys2Proof.Machine.execFill q s
  | .frameSend q => Sys2Proof.Machine.execFrameSend q s
  | .frameRecv q => Sys2Proof.Machine.execFrameRecv q s
  | .frameCombine q => Sys2Proof.Machine.execFrameCombine q s
  | .maxExchange q => Sys2Proof.Machine.execMaxExchange q s
  | .spill q => Sys2Proof.Machine.execSpill q s
  | .reload q => Sys2Proof.Machine.execReload q s
  | .tunSave q => Sys2Proof.Machine.execTunSave q s
  | .tunRestore q => Sys2Proof.Machine.execTunRestore q s
  | .tunRestoreBind q => Sys2Proof.Machine.execTunRestoreBind q s
  | .query q => Sys2Proof.Machine.execQuery q s
  | .countersClear q => Sys2Proof.Machine.execCountersClear q s
  | .unknownOpcode q => Sys2Proof.Machine.execUnknownOpcode q s
  | .spareRead src => Sys2Proof.Machine.execSpareRead src s
  | .repairAdd src => Sys2Proof.Machine.execRepairAdd src s
  | .fuseBurn src burnOk => Sys2Proof.Machine.execFuseBurn src burnOk s
  | .paritySet src => Sys2Proof.Machine.execParitySet src s
  | .loopback src errors => Sys2Proof.Machine.execLoopback src errors s
  | .wearReset src => Sys2Proof.Machine.execWearReset src s
  | .farEvacuate src => Sys2Proof.Machine.execFarEvacuate src s
  | .frameRetag src => Sys2Proof.Machine.execFrameRetag src s
  | .frameDiscard src => Sys2Proof.Machine.execFrameDiscard src s
  | .quiesce src => Sys2Proof.Machine.execQuiesce src s
  | .workCounterRecordFree q => Sys2Proof.Machine.execWorkCounterRecordFree q s
  | .ledgerRunWrite q pos => Sys2Proof.Machine.execLedgerRunWrite q pos s
  | .qDoorbellWrite q value => Sys2Proof.Machine.execQDoorbellWrite q value s
  | .qBaseWrite q value => Sys2Proof.Machine.execQBaseWrite q value s
  | .enable n value => Sys2Proof.Machine.execEnable n value s
  | .disable n value => Sys2Proof.Machine.execDisable n value s
  | .preempt n value => Sys2Proof.Machine.execPreempt n value s
  | .resume n value => Sys2Proof.Machine.execResume n value s
  | .disableStageEnd n => Sys2Proof.Machine.execDisableStageEnd n s
  | .farWriteAbandon n => Sys2Proof.Machine.execFarWriteAbandon n s
  | .tunZeroComplete n => Sys2Proof.Machine.execTunZeroComplete n s
  | .warmReset value => Sys2Proof.Machine.execWarmReset value s
  | .attemptsClr value => Sys2Proof.Machine.execAttemptsClr value s
  | .contextReset value => Sys2Proof.Machine.execContextReset value s
  | .targetIdle value => Sys2Proof.Machine.execTargetIdle value s
  | .targetArraysOff value => Sys2Proof.Machine.execTargetArraysOff value s
  | .targetDeep value => Sys2Proof.Machine.execTargetDeep value s
  | .targetActive value => Sys2Proof.Machine.execTargetActive value s
  | .autoIdleExpiry => Sys2Proof.Machine.execAutoIdleExpiry  s
  | .idleWake src => Sys2Proof.Machine.execIdleWake src s
  | .powerStateReached => Sys2Proof.Machine.execPowerStateReached  s
  | .kprLimitsWrite value => Sys2Proof.Machine.execKprLimitsWrite value s
  | .sprintCtrlWrite value => Sys2Proof.Machine.execSprintCtrlWrite value s
  | .rampLimitWrite value => Sys2Proof.Machine.execRampLimitWrite value s
  | .memResvWrite value => Sys2Proof.Machine.execMemResvWrite value s
  | .wearLedgerIdxWrite value => Sys2Proof.Machine.execWearLedgerIdxWrite value s
  | .wearLedgerDataRead => Sys2Proof.Machine.execWearLedgerDataRead  s
  | .ratedTibWrite value => Sys2Proof.Machine.execRatedTibWrite value s
  | .registerWrite offset value => Sys2Proof.Machine.execRegisterWrite offset value s
  | .powerOnReset straps => Sys2Proof.Machine.execPowerOnReset straps s
  | .resetNAssert => Sys2Proof.Machine.execResetNAssert  s
  | .resetNRelease straps => Sys2Proof.Machine.execResetNRelease straps s
  | .railLoss => Sys2Proof.Machine.execRailLoss  s
  | .startStageEnd e => Sys2Proof.Machine.execStartStageEnd e s
  | .startStageTimeout => Sys2Proof.Machine.execStartStageTimeout  s
  | .startRetry => Sys2Proof.Machine.execStartRetry  s
  | .linkDown p => Sys2Proof.Machine.execLinkDown p s
  | .moduleAttach p m => Sys2Proof.Machine.execModuleAttach p m s
  | .inboundFrame raw => Sys2Proof.Machine.execInboundFrame raw s
  | .ack raw => Sys2Proof.Machine.execAck raw s
  | .sync raw => Sys2Proof.Machine.execSync raw s
  | .syncRequest raw => Sys2Proof.Machine.execSyncRequest raw s
  | .endFrame raw => Sys2Proof.Machine.execEndFrame raw s
  | .ackSend h => Sys2Proof.Machine.execAckSend h s
  | .frameResendTimeout h fseq => Sys2Proof.Machine.execFrameResendTimeout h fseq s
  | .receiverTimeout q pos => Sys2Proof.Machine.execReceiverTimeout q pos s
  | .hostAccessRequest addr write beats tag data strb upset => Sys2Proof.Machine.execHostAccessRequest addr write beats tag data strb upset s
  | .hostOutboundResponse src status data => Sys2Proof.Machine.execHostOutboundResponse src status data s
  | .cxlResponse q pos granule r => Sys2Proof.Machine.execCxlResponse q pos granule r s
  | .phyParityError stack chan fails addr => Sys2Proof.Machine.execPhyParityError stack chan fails addr s
  | .stackUncorrectable stack chan addr verifyOk => Sys2Proof.Machine.execStackUncorrectable stack chan addr verifyOk s
  | .rebuildDone => Sys2Proof.Machine.execRebuildDone  s
  | .stripeGatherExpiry stripe => Sys2Proof.Machine.execStripeGatherExpiry stripe s
  | .stackFenceComplete stack => Sys2Proof.Machine.execStackFenceComplete stack s
  | .stackReturnPhase1End stack responds => Sys2Proof.Machine.execStackReturnPhase1End stack responds s
  | .stackReturnComplete stack => Sys2Proof.Machine.execStackReturnComplete stack s
  | .patrolScrub bad => Sys2Proof.Machine.execPatrolScrub bad s
  | .farWriteComplete q pos granule => Sys2Proof.Machine.execFarWriteComplete q pos granule s
  | .keeperSample x => Sys2Proof.Machine.execKeeperSample x s
  | .voltageStep => Sys2Proof.Machine.execVoltageStep  s
  | .sprintContinuousLimit => Sys2Proof.Machine.execSprintContinuousLimit  s
  | .throttleClear => Sys2Proof.Machine.execThrottleClear  s
  | .stackLevelFall stack => Sys2Proof.Machine.execStackLevelFall stack s
  | .voltageMonitorAlarm => Sys2Proof.Machine.execVoltageMonitorAlarm  s
  | .sensorFailed sensor => Sys2Proof.Machine.execSensorFailed sensor s
  | .telemetryRecord vMeas tStack workSteps fillerSteps => Sys2Proof.Machine.execTelemetryRecord vMeas tStack workSteps fillerSteps s
  | .wearMirror => Sys2Proof.Machine.execWearMirror  s
  | .delayMarginCalibration c margin => Sys2Proof.Machine.execDelayMarginCalibration c margin s
  | .gradeInterval c => Sys2Proof.Machine.execGradeInterval c s
  | .holdWindowExpiry c => Sys2Proof.Machine.execHoldWindowExpiry c s
  | .tunScrub c double => Sys2Proof.Machine.execTunScrub c double s
  | .tunScrubForced c slot double => Sys2Proof.Machine.execTunScrubForced c slot double s
  | .stageScrub upset => Sys2Proof.Machine.execStageScrub upset s
  | .draw u => Sys2Proof.Machine.execDraw u s
  | .mailboxTake u => Sys2Proof.Machine.execMailboxTake u s
  | .prefetchReadReturn a area addr len upset => Sys2Proof.Machine.execPrefetchReadReturn a area addr len upset s
  | .feederVectorRead a double => Sys2Proof.Machine.execFeederVectorRead a double s
  | .arrayStep a upset => Sys2Proof.Machine.execArrayStep a upset s
  | .thinStep half upset => Sys2Proof.Machine.execThinStep half upset s
  | .drainRowGrant c upset => Sys2Proof.Machine.execDrainRowGrant c upset s
  | .doneAction u residue => Sys2Proof.Machine.execDoneAction u residue s
  | .speculativeCopy a => Sys2Proof.Machine.execSpeculativeCopy a s
  | .replyWrite q pos => Sys2Proof.Machine.execReplyWrite q pos s
  | .diagnosticPassEnd a reads => Sys2Proof.Machine.execDiagnosticPassEnd a reads s
  | .granuleComplete q pos granule => Sys2Proof.Machine.execGranuleComplete q pos granule s
  | .watchdogStall c unit => Sys2Proof.Machine.execWatchdogStall c unit s
  | .cpLockstepMismatch addr => Sys2Proof.Machine.execCpLockstepMismatch addr s
  | .switchoverResume => Sys2Proof.Machine.execSwitchoverResume  s
  | .cpSelftestEnd pass0 pass1 => Sys2Proof.Machine.execCpSelftestEnd pass0 pass1 s
  | .abist a reads => Sys2Proof.Machine.execAbist a reads s
  | .mbist mem pass => Sys2Proof.Machine.execMbist mem pass s
  | .fusePgm bits => Sys2Proof.Machine.execFusePgm bits s
  | .fuseRead => Sys2Proof.Machine.execFuseRead  s
  | .status => Sys2Proof.Machine.execStatus  s
  | .wsBypass => Sys2Proof.Machine.execWsBypass  s
  | .wsExtest => Sys2Proof.Machine.execWsExtest  s
  | .wsIntest => Sys2Proof.Machine.execWsIntest  s
  | .wsSafe => Sys2Proof.Machine.execWsSafe  s
  | .testEnFall => Sys2Proof.Machine.execTestEnFall  s
  | .reservedSubcode src => Sys2Proof.Machine.execReservedSubcode src s
  | .cfgResponse p r => Sys2Proof.Machine.execCfgResponse p r s
  | .peerLinkUp pos up => Sys2Proof.Machine.execPeerLinkUp pos up s
  | .extraInputStreamArrival u stream row => Sys2Proof.Machine.execExtraInputStreamArrival u stream row s
  | .thinFetchArrival half f => Sys2Proof.Machine.execThinFetchArrival half f s

end Sys2Proof.Machine
end

