-- ==== Sys2Proof/Safety.lean ====
section
/-! DEFINITION. What counts as a sound state and a safe step, and which parts of the state a command may change, in the terms the
statements use. -/
namespace Sys2Proof.Machine

/-- Near memory and the shared cache are in their canonical form. -/
def State.sound (s : State) : Prop := s.mem.wf = true

/-- A step that neither faults nor refuses. -/
def completes (s : State) : Prop := ∃ t, step s = .next t

/-- The parts of the state. -/
inductive Field where
  | pending | free | blk | start | svc | log | kpr | kin | pwr | ctxs | qs | cp | arrays | halves | cores | tun | mem | stks | map | far | mirror | xch | port
  deriving DecidableEq, Repr

/-- A part of the state is as it was. -/
def State.same (s t : State) : Field → Prop
  | .pending => t.pending = s.pending
  | .free => t.free = s.free
  | .blk => t.blk = s.blk
  | .start => t.start = s.start
  | .svc => t.svc = s.svc
  | .log => t.log = s.log
  | .kpr => t.kpr = s.kpr
  | .kin => t.kin = s.kin
  | .pwr => t.pwr = s.pwr
  | .ctxs => t.ctxs = s.ctxs
  | .qs => t.qs = s.qs
  | .cp => t.cp = s.cp
  | .arrays => t.arrays = s.arrays
  | .halves => t.halves = s.halves
  | .cores => t.cores = s.cores
  | .tun => t.tun = s.tun
  | .mem => t.mem = s.mem
  | .stks => t.stks = s.stks
  | .map => t.map = s.map
  | .far => t.far = s.far
  | .mirror => t.mirror = s.mirror
  | .xch => t.xch = s.xch
  | .port => t.port = s.port

/-- Nothing but the listed parts has changed from `s` to `t`. -/
def State.onlyIn (l : List Field) (s t : State) : Prop := ∀ f, l.contains f = false → s.same t f

/-! What a command may touch. -/

/-- The parts of the state that a command may change; every other part it leaves as it was. -/
def touches : Instr → List Field
  | .nop _ | .fence _ | .fenceRelease _ | .wait _ | .waitSatisfied _ | .stepSet _ | .scaleScan _ | .copy _ | .fill _
  | .reload _ | .query _ | .countersClear _ | .unknownOpcode _ =>
    [.svc, .log, .ctxs, .qs, .cp, .mem, .mirror]
  | .signal _ | .spareRead _ | .loopback _ _ | .reservedSubcode _ =>
    [.svc, .log, .ctxs, .qs, .cp, .mem, .mirror, .port]
  | .matmul _ | .matvec _ | .gatherMatmul _ | .segmentSum _ | .combine _ | .finish _ =>
    [.svc, .log, .ctxs, .qs, .cp, .arrays, .halves, .cores, .mem, .mirror, .xch]
  | .frameSend _ | .frameRecv _ | .frameCombine _ | .maxExchange _ =>
    [.svc, .log, .ctxs, .qs, .cp, .mem, .mirror, .xch]
  | .spill _ =>
    [.svc, .log, .ctxs, .qs, .cp, .mem, .far, .mirror]
  | .tunSave _ | .replyWrite _ _ =>
    [.svc, .log, .ctxs, .qs, .cp, .arrays, .halves, .cores, .mem, .mirror]
  | .tunRestore _ =>
    [.svc, .log, .ctxs, .qs, .cp, .arrays, .halves, .cores, .tun, .mem, .mirror]
  | .tunRestoreBind _ =>
    [.qs, .cp, .arrays, .halves, .cores, .tun]
  | .repairAdd _ =>
    [.blk, .start, .svc, .log, .ctxs, .qs, .cp, .mem, .mirror, .port]
  | .fuseBurn _ _ =>
    [.free, .blk, .start, .svc, .log, .ctxs, .qs, .cp, .mem, .mirror, .port]
  | .paritySet _ | .quiesce _ =>
    [.blk, .svc, .log, .ctxs, .qs, .cp, .mem, .mirror, .port]
  | .wearReset _ | .farEvacuate _ =>
    [.svc, .log, .ctxs, .qs, .cp, .mem, .far, .mirror, .port]
  | .frameRetag _ | .frameDiscard _ =>
    [.svc, .log, .ctxs, .qs, .cp, .mem, .mirror, .xch, .port]
  | .workCounterRecordFree _ =>
    [.qs, .cp, .arrays, .halves, .cores, .mem, .xch]
  | .ledgerRunWrite _ _ =>
    [.qs, .cp, .arrays, .halves, .cores, .tun, .mem, .xch]
  | .qDoorbellWrite _ _ | .qBaseWrite _ _ | .enable _ _ | .disable _ _ | .preempt _ _ | .resume _ _ | .warmReset _
  | .attemptsClr _ | .contextReset _ | .targetIdle _ | .targetArraysOff _ | .targetDeep _ | .targetActive _
  | .idleWake _ | .powerStateReached | .kprLimitsWrite _ | .sprintCtrlWrite _ | .rampLimitWrite _ | .memResvWrite _
  | .wearLedgerIdxWrite _ | .ratedTibWrite _ | .registerWrite _ _ =>
    [.blk, .start, .svc, .log, .kpr, .kin, .pwr, .ctxs, .qs, .cp, .arrays, .halves, .cores, .tun, .mem, .stks, .map, .far, .mirror, .xch, .port]
  | .disableStageEnd _ =>
    [.svc, .log, .ctxs, .qs, .cp, .arrays, .halves, .cores, .tun, .mem, .mirror, .xch]
  | .farWriteAbandon _ | .switchoverResume =>
    [.cp]
  | .tunZeroComplete _ =>
    [.ctxs, .cores, .tun]
  | .autoIdleExpiry =>
    [.kpr, .kin, .pwr]
  | .wearLedgerDataRead =>
    [.far, .port]
  | .powerOnReset _ =>
    [.blk, .start, .svc, .log, .kpr, .kin, .pwr, .ctxs, .qs, .cp, .arrays, .halves, .cores, .tun, .mem, .stks, .map, .far, .xch, .port]
  | .resetNAssert | .startRetry =>
    [.blk, .start, .svc, .kpr, .kin, .pwr, .ctxs, .qs, .cp, .arrays, .halves, .cores, .tun, .mem, .stks, .map, .far, .xch, .port]
  | .resetNRelease _ =>
    [.blk, .start, .kin, .map, .port]
  | .railLoss =>
    [.free, .blk, .start, .svc, .kpr, .kin, .pwr, .ctxs, .qs, .cp, .arrays, .halves, .cores, .tun, .mem, .stks, .map, .far, .xch, .port]
  | .startStageEnd _ =>
    [.free, .blk, .start, .svc, .log, .kpr, .kin, .pwr, .ctxs, .qs, .cp, .arrays, .halves, .cores, .tun, .mem, .stks, .map, .far, .mirror, .xch, .port]
  | .startStageTimeout =>
    [.start, .svc]
  | .linkDown _ | .farWriteComplete _ _ _ | .cfgResponse _ _ =>
    [.svc, .log, .cp, .mem, .far, .mirror]
  | .moduleAttach _ _ =>
    [.svc, .log, .mem, .far, .mirror]
  | .inboundFrame _ =>
    [.free, .svc, .log, .kpr, .pwr, .cp, .mem, .mirror, .xch]
  | .ack _ =>
    [.svc, .log, .kpr, .pwr, .cp, .mem, .mirror, .xch]
  | .sync _ | .syncRequest _ | .endFrame _ =>
    [.svc, .log, .kpr, .pwr, .mem, .mirror, .xch]
  | .ackSend _ | .peerLinkUp _ _ =>
    [.xch]
  | .frameResendTimeout _ _ | .receiverTimeout _ _ =>
    [.svc, .log, .cp, .mem, .mirror, .xch]
  | .hostAccessRequest _ _ _ _ _ _ _ =>
    [.free, .svc, .log, .mem, .mirror, .port]
  | .hostOutboundResponse _ _ _ =>
    [.free, .svc, .cp, .mem, .port]
  | .cxlResponse _ _ _ _ =>
    [.svc, .log, .cp, .arrays, .halves, .cores, .tun, .mem, .far, .mirror, .xch]
  | .phyParityError _ _ _ _ | .stackUncorrectable _ _ _ _ | .stackReturnPhase1End _ _ | .stackReturnComplete _
  | .patrolScrub _ =>
    [.blk, .svc, .log, .mem, .stks, .map, .mirror]
  | .rebuildDone =>
    [.blk, .svc, .log, .mem, .map, .mirror]
  | .stripeGatherExpiry _ =>
    [.mem]
  | .stackFenceComplete _ =>
    [.svc, .log, .mem, .stks, .mirror]
  | .keeperSample _ =>
    [.blk, .svc, .log, .kpr, .kin, .pwr, .cores, .mem, .stks, .map, .far, .mirror]
  | .voltageStep | .sprintContinuousLimit | .throttleClear =>
    [.kpr, .kin]
  | .stackLevelFall _ =>
    [.stks, .map]
  | .voltageMonitorAlarm =>
    [.free, .svc, .log, .kpr, .kin, .mem, .mirror]
  | .sensorFailed _ =>
    [.kin]
  | .telemetryRecord _ _ _ _ =>
    [.kin, .mem]
  | .wearMirror =>
    [.mem, .mirror]
  | .delayMarginCalibration _ _ =>
    [.free, .blk, .svc, .log, .kpr, .cp, .arrays, .halves, .cores, .tun, .mem, .mirror, .xch]
  | .gradeInterval _ | .holdWindowExpiry _ =>
    [.cores]
  | .tunScrub _ _ | .tunScrubForced _ _ _ | .stageScrub _ | .prefetchReadReturn _ _ _ _ _ | .feederVectorRead _ _
  | .thinStep _ _ | .drainRowGrant _ _ | .doneAction _ _ | .watchdogStall _ _ =>
    [.blk, .svc, .log, .cp, .arrays, .halves, .cores, .tun, .mem, .mirror, .xch]
  | .draw _ | .mailboxTake _ =>
    [.cp, .arrays, .halves, .cores, .tun, .mem]
  | .arrayStep _ _ =>
    [.blk, .svc, .log, .kin, .cp, .arrays, .halves, .cores, .tun, .mem, .mirror, .xch]
  | .speculativeCopy _ =>
    [.cp, .arrays, .halves, .cores, .mem]
  | .diagnosticPassEnd _ _ =>
    [.blk, .svc, .log, .arrays, .mem, .mirror]
  | .granuleComplete _ _ _ =>
    [.svc, .log, .cp, .mem, .mirror, .port]
  | .cpLockstepMismatch _ =>
    [.blk, .svc, .log, .cp, .mem, .mirror]
  | .cpSelftestEnd _ _ =>
    [.blk, .start, .svc, .log, .cp, .mem, .mirror]
  | .abist _ _ | .mbist _ _ | .fuseRead | .status | .wsBypass | .wsExtest | .wsIntest | .wsSafe | .testEnFall =>
    [.port]
  | .fusePgm _ =>
    [.blk, .port]
  | .extraInputStreamArrival _ _ _ | .thinFetchArrival _ _ =>
    [.svc, .log, .cp, .arrays, .halves, .cores, .tun, .mem, .mirror, .xch]

/-! Bytes of memory. -/

/-- Near memory reads as before. -/
def State.memSame (s t : State) : Prop := ∀ x, t.mem.read x = s.mem.read x

/-- Near memory reads as before outside the `n` bytes from `a` on. -/
def State.memOutside (s t : State) (a n : Nat) : Prop := ∀ x, x < a ∨ a + n ≤ x → t.mem.read x = s.mem.read x

/-- Near memory reads as before outside the progress areas, its lowest 128 MiB (R471). -/
def State.memAbove (s t : State) : Prop := ∀ x, 0x08000000 ≤ x → t.mem.read x = s.mem.read x

/-- The cores are as before but for the eligibility and the virtual times of their contexts, taken anew (R299, log 71). -/
def State.coresElected (s t : State) : Prop := ∀ k, ∃ v e, t.core k = { s.core k with v := v, elig := e }

/-- Every queue but `q` is as before. -/
def State.queuesBut (s t : State) (q : Nat) : Prop := ∀ x, x ≠ q → t.queue x = s.queue x

/-- Every context but `n` is as before. -/
def State.ctxsBut (s t : State) (n : Nat) : Prop := ∀ x, x ≠ n → t.ctx x = s.ctx x

/-! Packets. -/

/-- The queue whose packet a command of the packet rows dispatches. -/
def packetOf : Instr → Option QIx
  | .nop q | .fence q | .signal q | .wait q | .stepSet q | .matmul q | .matvec q | .gatherMatmul q | .segmentSum q | .combine q
  | .finish q | .scaleScan q | .copy q | .fill q | .spill q | .reload q | .frameSend q | .frameRecv q | .frameCombine q | .maxExchange q | .tunSave q
  | .tunRestore q | .query q | .countersClear q | .unknownOpcode q => some q
  | .spareRead (.packet q) | .repairAdd (.packet q) | .fuseBurn (.packet q) _ | .paritySet (.packet q) | .loopback (.packet q) _
  | .wearReset (.packet q) | .farEvacuate (.packet q) | .frameRetag (.packet q) | .frameDiscard (.packet q) | .quiesce (.packet q)
  | .reservedSubcode (.packet q) => some q
  | _ => none

/-- The packet `p` with opcode `op` waits at HEAD of queue `q`, can be dispatched, and can be read (R270, R273, R276, R391). -/
structure Waits (s : State) (q op p : Nat) : Prop where
  dispatches : canDispatch s q = true
  present : hasPacket s q = true
  image : headPacket s q = p
  opcode : pOp p = op
  readable : packetFault s (packetAddr (s.queue q) (s.queue q).head) = none

/-- The command that a packet answered at once is, as its reply states it (R285). -/
def answerOf (s : State) (q p : Nat) (conds : List Cond) : Cmd :=
  { Cmd.read q (s.queue q).head p 0 (.fence []) with conds := conds }

/-- From `s` to `t` the packet `p` at HEAD of queue `q` is consumed and answered with `conds`: the reply stands in its slot and no
other byte changes but of cached lines that `conds` names as lost, HEAD moves by one, the interrupt is raised as the packet asks, and
other queues and contexts stay (R269-R274, R285, R407, R478). -/
structure Answered (s t : State) (q p : Nat) (conds : List Cond) : Prop where
  reply : t.readNat (replyAddr (s.queue q) (s.queue q).head) 64
    = replyWord (answerOf s q p conds) (answerOf s q p conds).final none % 256 ^ 64
  bytes : ((s.takePacket q).meetAll conds).memOutside t (replyAddr (s.queue q) (s.queue q).head) 64
  head : (t.queue q).head = ((s.queue q).head + 1) % 2 ^ 32
  ring : (t.queue q).log = (s.queue q).log ∧ (t.queue q).base = (s.queue q).base ∧ (t.queue q).tail = (s.queue q).tail
  queues : s.queuesBut t q
  ctx : t.ctx (ctxOf q) = { s.ctx (ctxOf q) with
    totals := addTotals (s.ctx (ctxOf q)).totals Counts.zero
    qpend := if pIrq p then (s.ctx (ctxOf q)).qpend ||| 2 ^ prioOf q else (s.ctx (ctxOf q)).qpend }
  ctxs : s.ctxsBut t (ctxOf q)
  flight : t.cp = { s.cp with cmds := s.cp.cmds.filter (fun c => !(c.key == (q, (s.queue q).head))) }
  rest : ((s.takePacket q).meetAll conds).onlyIn [.ctxs, .qs, .cp, .mem] t

/-- From `s` to `t` the packet at HEAD of queue `q` is consumed and its command `c` put in flight, newest last; with `held` it holds
its queue (R273, R391). No byte of memory changes. -/
structure Launched (s t : State) (q : Nat) (c : Cmd) (held : Bool) : Prop where
  cmds : t.cp.cmds = s.cp.cmds ++ [c]
  named : c.q = q ∧ c.pos = (s.queue q).head
  queue : t.queue q = { s.queue q with
    head := ((s.queue q).head + 1) % 2 ^ 32
    hold := if held then some (s.queue q).head else (s.queue q).hold }
  queues : s.queuesBut t q
  rest : s.onlyIn [.qs, .cp] t

/-- From `s` to `t` the command `c` in flight is answered, and its journal entry is freed: the reply stands in its slot and no other
byte changes but of cached lines that its conditions name as lost, its interrupt is raised as its packet asks, its context's totals
grow by its counters, and other queues and contexts stay (R19, R274, R285-R289, R391, R407, R478). `r` is the record its reply
names. -/
structure Replied (s t : State) (c : Cmd) (r : Option Nat) : Prop where
  reply : t.readNat (replyAddr (s.queue c.q) c.pos) 64 = replyWord c c.final r % 256 ^ 64
  bytes : (s.meetAll c.conds).memOutside t (replyAddr (s.queue c.q) c.pos) 64
  queue : t.queue c.q = (s.queue c.q).markReplied c.pos
  queues : s.queuesBut t c.q
  ctx : t.ctx (ctxOf c.q) = { s.ctx (ctxOf c.q) with
    totals := addTotals (s.ctx (ctxOf c.q)).totals c.counts
    qpend := if pIrq c.pkt then (s.ctx (ctxOf c.q)).qpend ||| 2 ^ prioOf c.q else (s.ctx (ctxOf c.q)).qpend }
  ctxs : s.ctxsBut t (ctxOf c.q)
  flight : t.cp = { s.cp with cmds := s.cp.cmds.filter (fun x => !(x.key == c.key)) }
  rest : (s.meetAll c.conds).onlyIn [.ctxs, .qs, .cp, .mem] t

/-- From `s` to `t` exactly the record `r` is written: it is the newest of the error log, no byte of near memory changes but those of its
place in the mirror, and the service interrupt is raised where R405 says so (R402, R403, R405, R471). -/
def Logs (s t : State) (r : Rec) : Prop :=
  t.log = s.log.push (recWord s.log.nextSeq s.kpr.sample r) ∧ s.memOutside t (logMirror + 32 * s.log.wr) 32
    ∧ (recRaises r = true → bitOf t.svc.irq 0 = true)

/-! Service commands. -/

/-- A SERVICE_CMD run of subcode `sub` is under way, its image `p` read, and the command processor can take it (R400, R401). Its
area lies outside the host aperture, so its reply is written at once. -/
structure SvcRuns (s : State) (sub p : Nat) : Prop where
  image : s.svc.image = some p
  busy : s.svc.busy = true
  runs : blkRuns s = true
  cpu : s.cp.paused = false
  opcode : pOp p = 0x3C
  sub : svcSub p = sub
  area : regionOf (s.svc.area + 64) ≠ .host

/-- The command that the reply of a SERVICE_CMD run states (R400). -/
def svcAnswer (p : Nat) (conds : List Cond) : Cmd := { Cmd.read 0 0 p 0 (.fence []) with conds := conds }

/-- From `s` to `t` a SERVICE_CMD run is over: its reply stands in bytes 64 to 127 of its area and no other byte changes, BUSY is
clear, STATUS is the reply's and the service interrupt is raised (R400, R478). -/
structure SvcReplied (s t : State) (p : Nat) (conds : List Cond) : Prop where
  reply : t.readNat (s.svc.area + 64) 64 = replyWord (svcAnswer p conds) (svcAnswer p conds).final none % 256 ^ 64
  bytes : s.memOutside t (s.svc.area + 64) 64
  svc : t.svc = { s.svc with
    busy := false, image := none, status := (svcAnswer p conds).final.status.code, irq := s.svc.irq ||| 2 ^ 2 }
  rest : s.onlyIn [.svc, .mem] t

/-- The command processor's window serves a write (R434, R459). -/
def Served (s : State) : Prop := windowOpen s = true

end Sys2Proof.Machine
end

