-- ==== Sys2Proof/Certificates/Slice0/Obligations.lean ====
section
/-! DEFINITION. The statements for the provers, family by family of the opcode table. -/
section
open Sys2Proof Sys2Proof.Machine

/-! The machine as a whole. -/

/-- A step runs the command at the front of the queue on the rest of the queue. -/
def Obligations.StepRunsFront : Prop :=
  ∀ (c : Instr) (rest : List Instr) (s : State), step { s with pending := c :: rest } = exec c { s with pending := rest }

/-- With no command waiting the block idles (the model's choice, log 4). -/
def Obligations.StepIdles : Prop := ∀ s : State, s.pending = [] → step s = .next s

/-- The settings that the registers' Reset columns give, in State.reset (R296, R426-R428, R435, R441, R443, R476, R478, R479). -/
def Obligations.ResetSettings : Prop :=
  State.reset.pending = [] ∧ State.reset.blk.mode = .starting ∧ State.reset.start.stage = 0 ∧ State.reset.start.attempts = 0
    ∧ State.reset.start.startCount = 0
    ∧ (State.reset.kpr.pLimit = 700 ∧ State.reset.kpr.tThrottle = 100 ∧ State.reset.kpr.vSust = 0x96
        ∧ State.reset.kpr.vSprint = 0xAA ∧ State.reset.kpr.sprintEn = false)
    ∧ (State.reset.pwr.target = .active ∧ State.reset.pwr.autoIdle = false ∧ State.reset.pwr.idleDelay = 1000
        ∧ State.reset.pwr.ramp = 120)
    ∧ State.reset.svc.irq = 0 ∧ State.reset.svc.mask = 0
    ∧ (∀ n < 16, (State.reset.ctx n).mode = .disabled ∧ (State.reset.ctx n).share = 0x10 ∧ (State.reset.ctx n).quota = 0x040
        ∧ (State.reset.ctx n).bwRate = 62 ∧ (State.reset.ctx n).bwBurst = 16 ∧ (State.reset.ctx n).qpend = 0)
    ∧ (∀ q < 64, (State.reset.queue q).log = 0 ∧ (State.reset.queue q).head = 0 ∧ (State.reset.queue q).tail = 0
        ∧ (State.reset.queue q).oldest = 0)

/-- The reset state is sound. Near memory lists nothing at reset (the model's choice, log 2). -/
def Obligations.ResetSound : Prop := State.reset.sound

/-- Whatever a step does, near memory keeps its canonical form. The form is the model's own (log 2). -/
def Obligations.StepsKeepSound : Prop := ∀ s t : State, s.sound → step s = .next t → t.sound

/-- A bit of the eFuse bank once programmed stays programmed, whatever a step does, reset and power loss among them (R396, R399,
R435: the bank is one-time programmable). That a power-on reset leaves the bank is the model's reading (log 9). -/
def Obligations.StepsKeepFuses : Prop :=
  ∀ s t : State, step s = .next t → ∀ i, bitOf s.blk.fuse i = true → bitOf t.blk.fuse i = true

/-- The frame of every command, in every state: it answers a next state, and changes only the parts of the state that `touches` lists
for it. The parts are the model's own division of its state. -/
def Obligations.CommandFrames : Prop := ∀ (c : Instr) (s : State), ∃ t, exec c s = .next t ∧ s.onlyIn (touches c) t

/-- A store of a number leaves that number at its address and every byte outside as it was; no other part of the state but memory
changes (R4, R267). -/
def Obligations.StoreReadsBack : Prop :=
  ∀ (s : State) (a w n : Nat), (s.store a (natLe w n)).readNat a n = w % 256 ^ n ∧ s.memOutside (s.store a (natLe w n)) a n
    ∧ s.onlyIn [.mem] (s.store a (natLe w n))

/-! Packets: the commands that are answered at dispatch. -/

/-- NOP does nothing and replies DONE; a packet whose opcode R277 does not list replies OPCODE_INVALID with the opcode as INFO;
STEP_SET writes STEP, bits [111:64], into the step register of its context; COUNTERS_CLEAR zeroes the totals whose bit of MASK, bits
[69:64], is set and keeps the others (R276, R277, R289, R307). -/
def Obligations.SimplePackets : Prop :=
  (∀ (q : QIx) (s : State) (p : Nat),
      (Waits s q 0x01 p → ∃ t, exec (.nop q) s = .next t ∧ Answered s t q p [])
      ∧ (∀ op, opcodeKnown op = false → Waits s q op p →
          ∃ t, exec (.unknownOpcode q) s = .next t ∧ Answered s t q p [⟨.opcodeInvalid, op⟩]))
  ∧ (∀ (q : QIx) (s : State) (p : Nat), Waits s q 0x08 p →
      ∃ t, exec (.stepSet q) s = .next t
        ∧ Answered (s.onCtx (ctxOf q) (fun c => { c with step := bitsOf p 111 64 })) t q p [])
  ∧ (∀ (q : QIx) (s : State) (p : Nat), Waits s q 0x39 p →
      ∃ (t : State) (z : Vector Nat 6 → Vector Nat 6), exec (.countersClear q) s = .next t
        ∧ (∀ v, ∀ i < 6, vget (z v) i = if bitOf p (64 + i) then 0 else vget v i)
        ∧ Answered (s.onCtx (ctxOf q) (fun c => { c with totals := z c.totals })) t q p [])

/-- FENCE awaits the commands in flight of its queue, or with SCOPE 1 of its context: with none in flight it replies DONE, else it
holds its queue, and replies DONE once none of the commands it awaits is in flight, and not before (R304). That a release row sent
too early has no effect is the model's reading (log 3). -/
def Obligations.FenceWaits : Prop :=
  (∀ (q : QIx) (s : State) (p : Nat), Waits s q 0x02 p →
      ((∀ c ∈ s.cp.cmds, (if bitOf p 64 then ctxOf c.q ≠ ctxOf q else c.q ≠ q)) →
        ∃ t, exec (.fence q) s = .next t ∧ Answered s t q p [])
      ∧ ((∃ c ∈ s.cp.cmds, if bitOf p 64 then ctxOf c.q = ctxOf q else c.q = q) →
        ∃ (t : State) (l : List Key), exec (.fence q) s = .next t
          ∧ (∀ k, k ∈ l ↔ ∃ c ∈ s.cp.cmds, c.key = k ∧ if bitOf p 64 then ctxOf c.q = ctxOf q else c.q = q)
          ∧ Launched s t q (Cmd.read q (s.queue q).head p (s.ctx (ctxOf q)).step (.fence l)) true))
  ∧ (∀ (q : QIx) (s : State) (c : Cmd) (l : List Key), s.holder q = some c → c.body = .fence l → actsFor s (ctxOf q) = true →
      ((∀ k ∈ l, s.cmd? k = none) → ∃ t, exec (.fenceRelease q) s = .next t ∧ Replied s t c none)
      ∧ ((∃ k ∈ l, (s.cmd? k).isSome) → exec (.fenceRelease q) s = .next s))

/-- WAIT with a valid CMP and an aligned word of readable near memory replies DONE at once when its condition holds; otherwise it
holds its queue, and replies DONE once the condition holds, and not before. With a bad CMP it fails with DESCRIPTOR_INVALID
(R306). That the row sent too early has no effect is the model's reading (log 3). -/
def Obligations.WaitHolds : Prop :=
  (∀ (q : QIx) (s : State) (p : Nat), Waits s q 0x04 p →
      (bitsOf p 65 64 ≤ 1 → bitsOf p 175 128 % 8 = 0 → regionOf (bitsOf p 175 128) = .near →
        badByte s (bitsOf p 175 128) 8 = none → readFault s (bitsOf p 175 128) 8 = none →
        (((if bitsOf p 65 64 = 0 then s.readNat (bitsOf p 175 128) 8 = bitsOf p 255 192
            else bitsOf p 255 192 ≤ s.readNat (bitsOf p 175 128) 8) →
          ∃ t, exec (.wait q) s = .next t ∧ Answered s t q p [])
        ∧ ((if bitsOf p 65 64 = 0 then s.readNat (bitsOf p 175 128) 8 ≠ bitsOf p 255 192
            else s.readNat (bitsOf p 175 128) 8 < bitsOf p 255 192) →
          ∃ t, exec (.wait q) s = .next t
            ∧ Launched s t q (Cmd.read q (s.queue q).head p (s.ctx (ctxOf q)).step
                (.wait (bitsOf p 65 64) (bitsOf p 175 128) (bitsOf p 255 192))) true)))
      ∧ (1 < bitsOf p 65 64 → ∃ t, exec (.wait q) s = .next t
          ∧ Answered s t q p [badField 0 (packetAddr (s.queue q) (s.queue q).head) 8]))
  ∧ (∀ (q : QIx) (s : State) (c : Cmd) (cmp a v : Nat), s.holder q = some c → c.body = .wait cmp a v → actsFor s (ctxOf q) = true →
      ((if cmp = 0 then s.readNat a 8 = v else v ≤ s.readNat a 8) → ∃ t, exec (.waitSatisfied q) s = .next t ∧ Replied s t c none)
      ∧ ((if cmp = 0 then s.readNat a 8 ≠ v else s.readNat a 8 < v) → exec (.waitSatisfied q) s = .next s))

/-- SIGNAL stores VALUE at an aligned word of near memory, or adds VALUE to it modulo 2^64, and replies DONE; into the host aperture
it hands an 8-byte write to the host port and stays in flight (R282, R305, R457). -/
def Obligations.SignalWrites : Prop :=
  ∀ (q : QIx) (s : State) (p : Nat), Waits s q 0x03 p → bitsOf p 175 128 % 8 = 0 →
    (bitsOf p 65 64 ≤ 1 → regionOf (bitsOf p 175 128) = .near → hitsBlockRegion (bitsOf p 175 128) 8 = false →
      badByte s (bitsOf p 175 128) 8 = none → writeFault s (bitsOf p 175 128) 8 = none →
      (bitsOf p 65 64 = 1 → readFault s (bitsOf p 175 128) 8 = none) →
      ∃ t, exec (.signal q) s = .next t
        ∧ Answered (s.store (bitsOf p 175 128) (natLe (if bitsOf p 65 64 = 1
            then (s.readNat (bitsOf p 175 128) 8 + bitsOf p 255 192) % 2 ^ 64 else bitsOf p 255 192) 8)) t q p [])
    ∧ (bitsOf p 65 64 = 0 → regionOf (bitsOf p 175 128) = .host →
      ∃ t, exec (.signal q) s = .next t
        ∧ Launched (s.onPort (fun x => { x with
              hout := x.hout ++ [⟨some (q.val, (s.queue q).head), bitsOf p 175 128, true, natLe (bitsOf p 255 192) 8, 8⟩] })) t q
            { Cmd.read q (s.queue q).head p (s.ctx (ctxOf q)).step (.signal (bitsOf p 175 128)) with
              dispatched := true, applied := true } false)

/-- QUERY with KIND 1 writes the six totals of its context, in counter-code order, and replies DONE; with KIND 0 and a ticket that
names no command it writes 64 zero bytes (R294). -/
def Obligations.QueryWrites : Prop :=
  ∀ (q : QIx) (s : State) (p : Nat), Waits s q 0x38 p → bitsOf p 175 128 % 64 = 0 → regionOf (bitsOf p 175 128) = .near →
    (bitsOf p 65 64 = 1 → hitsBlockRegion (bitsOf p 175 128) 48 = false → badByte s (bitsOf p 175 128) 48 = none →
      writeFault s (bitsOf p 175 128) 48 = none →
      ∃ t, exec (.query q) s = .next t
        ∧ Answered (s.store (bitsOf p 175 128) (totalsBytes (s.ctx (ctxOf q)).totals)) t q p [])
    ∧ (bitsOf p 65 64 = 0 → progressOf s (ctxOf q) (bitsOf p 95 80) = none → bitOf p 66 = false →
      hitsBlockRegion (bitsOf p 175 128) 64 = false →
      badByte s (bitsOf p 175 128) 64 = none → writeFault s (bitsOf p 175 128) 64 = none →
      ∃ t, exec (.query q) s = .next t ∧ Answered (s.store (bitsOf p 175 128) (List.replicate 64 0)) t q p [])

/-! Packets: engine commands. -/

/-- COPY and FILL (R283, R284, R472, R486): with 2 KiB aligned ranges of a whole number of granules that lie in valid parts of near
memory or the host aperture, outside the block region where written, and that do not overlap, the command is put in flight with one
granule per 2 KiB; LEN 0 replies DONE. -/
def Obligations.CopyFillDispatch : Prop :=
  (∀ (q : QIx) (s : State) (p : Nat), Waits s q 0x18 p →
      gSrc p % 2048 = 0 → gDst p % 2048 = 0 → gLen p % 2048 = 0 → regionOf (gSrc p) ≠ .far → regionOf (gDst p) ≠ .far →
      (regionOf (gDst p) = .near → hitsBlockRegion (gDst p) (gLen p) = false) →
      (gLen p = 0 ∨ gSrc p + gLen p ≤ gDst p ∨ gDst p + gLen p ≤ gSrc p) →
      (gLen p = 0 → ∃ t, exec (.copy q) s = .next t ∧ Answered s t q p [])
      ∧ (gLen p ≠ 0 → badByte s (gSrc p) (gLen p) = none → badByte s (gDst p) (gLen p) = none →
        ∃ t, exec (.copy q) s = .next t
          ∧ Launched s t q { Cmd.read q (s.queue q).head p (s.ctx (ctxOf q)).step (.engine (Eng.start (gLen p / 2048) none)) with
              dispatched := true } false))
  ∧ (∀ (q : QIx) (s : State) (p : Nat), Waits s q 0x19 p →
      gDst p % 2048 = 0 → gLen p % 2048 = 0 → regionOf (gDst p) ≠ .far →
      (regionOf (gDst p) = .near → hitsBlockRegion (gDst p) (gLen p) = false) →
      (gLen p = 0 → ∃ t, exec (.fill q) s = .next t ∧ Answered s t q p [])
      ∧ (gLen p ≠ 0 → badByte s (gDst p) (gLen p) = none →
        ∃ t, exec (.fill q) s = .next t
          ∧ Launched s t q { Cmd.read q (s.queue q).head p (s.ctx (ctxOf q)).step (.engine (Eng.start (gLen p / 2048) none)) with
              dispatched := true } false))

/-- SCALE_SCAN that passes its checks puts the granules it reads in flight; one that fails a check replies with the condition that the
check names (R54, R57, R279, R284, R483). -/
def Obligations.ScaleScanDispatch : Prop :=
  ∀ (q : QIx) (s : State) (p : Nat), Waits s q 0x16 p →
    (∀ c, prepare (s.takePacket q) q (packetAddr (s.queue q) (s.queue q).head) 0x16 p = .ok c → scanGranules (scanSpans p c) ≠ [] →
      ∃ t, exec (.scaleScan q) s = .next t
        ∧ Launched s t q { Cmd.read q (s.queue q).head p (s.ctx (ctxOf q)).step
            (.engine (Eng.start (scanGranules (scanSpans p c)).length (some c))) with dispatched := true } false)
    ∧ (∀ e, prepare (s.takePacket q) q (packetAddr (s.queue q) (s.queue q).head) 0x16 p = .error e →
      ∃ t, exec (.scaleScan q) s = .next t ∧ Answered s t q p [e])

/-- SPILL and RELOAD that pass their checks, with a far tier present and both ranges valid, are put in flight with one granule per
2 KiB; SPILL then opens its first extent, and RELOAD goes over the granules that need no read (R346-R349, R354). Without a far tier
they reply FAR_TIER_ABSENT. -/
def Obligations.SpillReloadDispatch : Prop :=
  ∀ (q : QIx) (s : State) (p : Nat), gLen p ≠ 0 →
    (Waits s q 0x28 p → firstFail (spillChecks p) = none → badByte s (gSrc p) (gLen p) = none →
      (farAbsent s = false → badByte s (gDst p) (gLen p) = none →
        ∃ u, exec (.spill q) s = .next (u.openExtent (q.val, (s.queue q).head))
          ∧ Launched s u q { Cmd.read q (s.queue q).head p (s.ctx (ctxOf q)).step (.engine (Eng.start (gLen p / 2048) none)) with
              dispatched := true } false)
      ∧ (farAbsent s = true → ∃ t, exec (.spill q) s = .next t ∧ Answered s t q p [⟨.farTierAbsent, 0⟩]))
    ∧ (Waits s q 0x29 p → firstFail (reloadChecks p) = none → badByte s (gDst p) (gLen p) = none →
      (farAbsent s = false → badByte s (gSrc p) (gLen p) = none →
        ∃ u, exec (.reload q) s = .next (u.reloadOn (gLen p / 2048 + 1) (q.val, (s.queue q).head))
          ∧ Launched s u q { Cmd.read q (s.queue q).head p (s.ctx (ctxOf q)).step (.engine (Eng.start (gLen p / 2048) none)) with
              dispatched := true } false)
      ∧ (farAbsent s = true → ∃ t, exec (.reload q) s = .next t ∧ Answered s t q p [⟨.farTierAbsent, 0⟩]))

/-! Packets: commands that use the ledger. -/

/-- Each command that uses the ledger: one that fails its checks replies with the condition and takes no ticket; one that passes
takes the lowest free work-counter record and the next ticket, every unit may draw from it, and it is published; with no record free
it holds its queue (R226-R228, R279, R287). -/
def Obligations.ComputeDispatch : Prop :=
  ∀ (row : (QIx → Instr) × Nat), row ∈ [(Instr.matmul, 0x10), (.matvec, 0x11), (.gatherMatmul, 0x12), (.segmentSum, 0x13),
      (.combine, 0x14), (.finish, 0x15)] →
    ∀ (q : QIx) (s : State) (p : Nat), Waits s q row.2 p →
      (∀ e, prepare (s.takePacket q) q (packetAddr (s.queue q) (s.queue q).head) row.2 p = .error e →
        ∃ t, exec (row.1 q) s = .next t ∧ Answered s t q p [e])
      ∧ (∀ c, prepare (s.takePacket q) q (packetAddr (s.queue q) (s.queue q).head) row.2 p = .ok c →
        statWriteFault s c p = none →
        (s.freeRec = none → ∃ t, exec (row.1 q) s = .next t
          ∧ Launched s t q (Cmd.read q (s.queue q).head p (s.ctx (ctxOf q)).step (.waitRecord c)) true)
        ∧ (∀ r, s.freeRec = some r → ∃ u : State, exec (row.1 q) s
            = .next ((u.allowDraws (q.val, (s.queue q).head)).publish (q.val, (s.queue q).head))
          ∧ u.cp.nextTicket = (s.nextTicket 400 s.cp.nextTicket + 1) % 65536
          ∧ Launched s u q { Cmd.read q (s.queue q).head p (s.ctx (ctxOf q)).step
              (.compute { c with recNo := some r, ticket := s.nextTicket 400 s.cp.nextTicket }) with
                ticket := some (s.nextTicket 400 s.cp.nextTicket) } false))

/-- A command that waits at dispatch for a work-counter record takes the lowest free one, and the next ticket, when one is free;
every unit may draw from it, and it is published; while none is free it waits. As ledger entries become free, the next stage tile's
run of a published command is written and LIMIT raised past it, units that hold its ordinal claim it, and the progress area follows;
a run that does not fit waits (R226-R228, R231, R291). That a row sent too early has no effect is the model's reading (log 3). -/
def Obligations.LedgerGrows : Prop :=
  (∀ (q : QIx) (s : State) (c : Cmd) (x : Comp), s.holder q = some c → c.body = .waitRecord x → actsFor s (ctxOf q) = true →
      (s.freeRec = none → exec (.workCounterRecordFree q) s = .next s)
      ∧ (∀ r, s.freeRec ≠ none → (s.dropCmd c.key).freeRec = some r →
        ∃ u : State, exec (.workCounterRecordFree q) s = .next ((u.allowDraws (q.val, c.pos)).publish (q.val, c.pos))
          ∧ u.cp.cmds = s.cp.cmds.filter (fun y => !(y.key == c.key))
              ++ [{ Cmd.read q c.pos c.pkt c.step (.compute { x with
                      recNo := some r, ticket := (s.dropCmd c.key).nextTicket 400 s.cp.nextTicket }) with
                  ticket := some ((s.dropCmd c.key).nextTicket 400 s.cp.nextTicket) }]
          ∧ (u.queue q).hold = none ∧ s.onlyIn [.qs, .cp] u))
  ∧ (∀ (q : QIx) (pos : Nat) (s : State) (c : Comp), s.cp.paused = false → s.lives (q.val, pos) = true →
      s.comp? (q.val, pos) = some c → c.published = true →
      (s.nextRunFits (q.val, pos) = true → ∃ u, exec (.ledgerRunWrite q pos) s
          = .next ((u.claimAllHeld (q.val, pos)).syncArea (q.val, pos))
        ∧ s.onlyIn [.cp] u ∧ u.comp? (q.val, pos) = some c.writeRun ∧ c.writeRun.limit = c.limit + 1)
      ∧ (s.nextRunFits (q.val, pos) = false → exec (.ledgerRunWrite q pos) s = .next s))

/-! Packets: frames and slots. -/

/-- FRAME_SEND, FRAME_RECV and FRAME_COMBINE that pass their checks are put in flight, expecting the frames their packets name; the
first then releases its frames, the others meet the frames held for them (R371, R374, R375). With neither outbound stream present
FRAME_SEND fails with DESCRIPTOR_INVALID (R357). MAX_EXCHANGE with a readable local record that is VALID and not agreed already sends
that record to the network interface in a MAX SCAN frame of its GROUP, and waits for the other PARTICIPANTS (R59, R376). -/
def Obligations.FrameDispatch : Prop :=
  (∀ (q : QIx) (s : State) (p : Nat),
      (Waits s q 0x20 p → firstFail (sendChecks s p) = none →
        ∃ u, exec (.frameSend q) s = .next (u.sendOn (fsFrames p + 1) (q.val, (s.queue q).head))
          ∧ Launched s u q { Cmd.read q (s.queue q).head p (s.ctx (ctxOf q)).step (.frame ⟨fsFrames p, 0, 0, 0, 0, 0, 0⟩) with
              dispatched := true } false)
      ∧ (Waits s q 0x20 p → noOutbound s = true →
        ∃ t, exec (.frameSend q) s = .next t ∧ Answered s t q p [badField 0 (packetAddr (s.queue q) (s.queue q).head) 0])
      ∧ (Waits s q 0x21 p → firstFail (recvChecks s p 8) = none →
        ∃ u, exec (.frameRecv q) s = .next (u.beginRecv (q.val, (s.queue q).head))
          ∧ Launched s u q { Cmd.read q (s.queue q).head p (s.ctx (ctxOf q)).step (.frame ⟨fsCount p, 0, 0, 0, 0, 0, 0⟩) with
              dispatched := true } false)
      ∧ (Waits s q 0x22 p → firstFail (recvChecks s p 16) = none →
        ∃ u, exec (.frameCombine q) s = .next (u.beginRecv (q.val, (s.queue q).head))
          ∧ Launched s u q { Cmd.read q (s.queue q).head p (s.ctx (ctxOf q)).step (.frame ⟨fsCount p, 0, 0, 0, 0, 0, 0⟩) with
              dispatched := true } false))
  ∧ (∀ (q : QIx) (s : State) (p : Nat), Waits s q 0x23 p → firstFail (maxChecks s p) = none → nearFault s (mxLocal p) 8 = none →
      bitOf (s.readNat (mxLocal p) 8) 63 = true → bitOf (s.readNat (mxLocal p) 8) 58 = false →
      ∃ (u : State) (f : Machine.Frm), exec (.maxExchange q) s
          = .next ((u.sendFrame { typ := 2, ctx := ctxOf q, layer := mxGroup p, step := (s.ctx (ctxOf q)).step, dst := 8, elems := 8 }
              (maxPayload (s.readNat (mxLocal p) 8)) (some (q.val, (s.queue q).head))).beginRecv (q.val, (s.queue q).head))
        ∧ f.expected = mxParts p - 1 ∧ f.accepted = 0
        ∧ Launched s u q { Cmd.read q (s.queue q).head p (s.ctx (ctxOf q)).step (.frame f) with dispatched := true } false)

/-- TUN_RESTORE that passes its checks waits at dispatch while a named slot is bound to another context's claim; otherwise, and
once the slots are free, it binds them and writes the images back (R302). That the bind row sent too early has no effect is the
model's reading (log 3). -/
def Obligations.TunRestoreDispatch : Prop :=
  (∀ (q : QIx) (s : State) (p : Nat), Waits s q 0x31 p →
    firstFail (tunChecks s (ctxOf q) p (fun x => !isYielded s (ctxOf q) x) false) = none →
    ((namedSlots s (ctxOf q) p).any (boundToOther s (ctxOf q)) = true →
      ∃ t, exec (.tunRestore q) s = .next t
        ∧ Launched s t q (Cmd.read q (s.queue q).head p (s.ctx (ctxOf q)).step
            (.tunRestore ⟨namedSlots s (ctxOf q) p, 0⟩ false)) true)
    ∧ ((namedSlots s (ctxOf q) p).any (boundToOther s (ctxOf q)) = false →
      ∃ u, exec (.tunRestore q) s = .next (u.restore (q.val, (s.queue q).head) p (namedSlots s (ctxOf q) p))
        ∧ Launched s u q (Cmd.read q (s.queue q).head p (s.ctx (ctxOf q)).step
            (.tunRestore ⟨namedSlots s (ctxOf q) p, 0⟩ false)) false))
  ∧ (∀ (q : QIx) (s : State) (c : Cmd) (x : TunCmd), s.holder q = some c → c.body = .tunRestore x false →
    actsFor s (ctxOf q) = true →
    (x.slots.any (boundToOther s (ctxOf q)) = true → exec (.tunRestoreBind q) s = .next s)
    ∧ (x.slots.any (boundToOther s (ctxOf q)) = false →
      exec (.tunRestoreBind q) s = .next ((s.onQ q (fun y => { y with hold := none })).restore c.key c.pkt x.slots)))

/-- TUN_SAVE that passes its checks yields every named slot for its context and is put in flight, its packet consumed; it then writes
its images once no drain of the claims it pauses is in progress (R301, R303). -/
def Obligations.TunSaveYields : Prop :=
  ∀ (q : QIx) (s : State) (p : Nat), Waits s q 0x30 p →
    firstFail (tunChecks s (ctxOf q) p (isYielded s (ctxOf q)) true) = none →
    outputFault s (tsAddr p) (0x100000 * (namedSlots s (ctxOf q) p).length
      + 0x4000 * ((rangeFrom 0 32).flatMap (toPause s (ctxOf q) (namedSlots s (ctxOf q) p))).length) = none →
    ∃ u, exec (.tunSave q) s = .next (u.finishSave (q.val, (s.queue q).head))
      ∧ (∀ x ∈ namedSlots s (ctxOf q) p, isYielded u (ctxOf q) x = true)
      ∧ (∃ c ∈ u.cp.cmds, c.key = (q.val, (s.queue q).head) ∧ c.pkt = p ∧ c.body = .tunSave ⟨namedSlots s (ctxOf q) p, 0⟩)
      ∧ (u.queue q).head = ((s.queue q).head + 1) % 2 ^ 32 ∧ s.queuesBut u q ∧ s.onlyIn [.qs, .cp, .arrays, .cores] u

/-! Replies. -/

/-- A command whose work is over, no copy of which runs and no frame of which is unacknowledged, is answered: its progress area is
held or freed by its status (R291), then the reply is written. One with copies in flight is not answered yet (R237, R373). That a
row sent too early has no effect is the model's reading (log 3). -/
def Obligations.RepliesWritten : Prop :=
  ∀ (q : QIx) (pos : Nat) (s : State) (c : Cmd), s.cmd? (q.val, pos) = some c → c.ended = true →
    (actsFor s (ctxOf q) = true → c.over s = true → ∃ t, exec (.replyWrite q pos) s = .next t
      ∧ Replied (s.settleArea c c.final).1 t c (s.settleArea c c.final).2)
    ∧ (∀ x, c.comp? = some x → (∃ e ∈ x.entries, e.copies ≠ 0) → exec (.replyWrite q pos) s = .next s)

/-! Service subcodes. -/

/-- SERVICE subcodes for SERVICE_CMD only, and reserved ones, fail with DESCRIPTOR_INVALID naming SUBCODE when a packet carries them,
and have no other effect (R401). -/
def Obligations.ServicePacketsRefused : Prop :=
  ∀ (q : QIx) (s : State) (p : Nat), Waits s q 0x3C p →
    (∀ row, row ∈ [(Instr.repairAdd (.packet q), 0x0002), (.paritySet (.packet q), 0x0010), (.wearReset (.packet q), 0x0020),
        (.farEvacuate (.packet q), 0x0021), (.quiesce (.packet q), 0x0040)] → svcSub p = row.2 →
      ∃ t, exec row.1 s = .next t ∧ Answered s t q p [badField 0 (packetAddr (s.queue q) (s.queue q).head) 8])
    ∧ (∀ ok, svcSub p = 0x0003 → ∃ t, exec (.fuseBurn (.packet q) ok) s = .next t
        ∧ Answered s t q p [badField 0 (packetAddr (s.queue q) (s.queue q).head) 8])
    ∧ (∀ l, svcSub p = 0x0011 → ∃ t, exec (.loopback (.packet q) l) s = .next t
        ∧ Answered s t q p [badField 0 (packetAddr (s.queue q) (s.queue q).head) 8])
    ∧ (svcKnown (svcSub p) = false → ∃ t, exec (.reservedSubcode (.packet q)) s = .next t
        ∧ Answered s t q p [badField 0 (packetAddr (s.queue q) (s.queue q).head) 8])

/-- The subcodes that a packet may carry: SPARE_READ writes the spare maps and both record stores at DST; FRAME_RETAG and
FRAME_DISCARD change the held frames of the packet's own context (R380, R401). -/
def Obligations.ServicePacketsRun : Prop :=
  ∀ (q : QIx) (s : State) (p : Nat), Waits s q 0x3C p →
    (svcSub p = 0x0001 → firstFail (outputChecks (bitsOf p 175 128) (spareBytes s).length 16) = none →
      outputFault s (bitsOf p 175 128) (spareBytes s).length = none →
      ∃ t, exec (.spareRead (.packet q)) s = .next t ∧ Answered (s.store (bitsOf p 175 128) (spareBytes s)) t q p [])
    ∧ (svcSub p = 0x0030 → bitsOf p 83 80 = ctxOf q →
      exec (.frameRetag (.packet q)) s = .next ((((s.takePacket q).onHeld (ctxOf q) (fun l => l.map (fun f =>
          if hLayer f.header = bitsOf p 111 96 ∧ hStep f.header = bitsOf p 175 128 then f.retag (bitsOf p 239 192) else f))).matchAll
            (ctxOf q)).replyNow q (s.queue q).head p []))
    ∧ (svcSub p = 0x0031 → bitsOf p 83 80 = ctxOf q →
      ∃ t, exec (.frameDiscard (.packet q)) s = .next t
        ∧ Answered (s.onHeld (ctxOf q) (fun l => l.filter (fun f =>
            !(hLayer f.header == bitsOf p 111 96 && (bitOf p 84 || hStep f.header == bitsOf p 175 128))))) t q p [])

/-- A SERVICE_CMD run that changes settings has its effect and writes its reply: PARITY_SET the parity of the next start (R314),
REPAIR_ADD a record into a repair log that has room (R398), WEAR_RESET an entry's counts and marks (R352), QUIESCE the block's
state (R444), FUSE_BURN only in service quiesce or skeleton mode (R399); in skeleton mode REPAIR_ADD clears ATTEMPTS (R440). -/
def Obligations.ServiceRunsSettings : Prop :=
  ∀ (s : State) (p : Nat),
    (SvcRuns s 0x0010 p → ∃ t, exec (.paritySet .register) s = .next t
      ∧ SvcReplied (s.onBlk (fun b => { b with paritySet := bitOf p 80 })) t p [])
    ∧ (SvcRuns s 0x0002 p → s.blk.repair.length < 64 → ∃ u t, exec (.repairAdd .register) s = .next t
      ∧ u = (s.onBlk (fun b => { b with repair := b.repair ++ [bitsOf p 111 80] })).report
      ∧ SvcReplied (if u.start.skeleton then u.onStart (fun x => { x with attempts := 0 }) else u) t p [])
    ∧ (SvcRuns s 0x0020 p → s.wearOf (bitsOf p 143 80) = none → ∃ t, exec (.wearReset .register) s = .next t
      ∧ SvcReplied s t p [badField 0 s.svc.area 10])
    ∧ (SvcRuns s 0x0020 p → (s.wearOf (bitsOf p 143 80)).isSome → ∃ t, exec (.wearReset .register) s = .next t
      ∧ SvcReplied ((s.onWear (bitsOf p 143 80) (fun w => { w with
          written := 0, lifeUsed := 0, warn := false, worn := false, ratedTib := 0 })).mirrorWear (bitsOf p 143 80)) t p [])
    ∧ (SvcRuns s 0x0040 p → ∃ t, exec (.quiesce .register) s = .next t ∧ t.blk.mode = .quiesced
      ∧ (∀ n < 16, (t.ctx n).mode = if (s.ctx n).mode = .active then .preempting else (s.ctx n).mode)
      ∧ SvcReplied s.quiesce t p [])
    ∧ (∀ ok, SvcRuns s 0x0003 p → s.blk.mode ≠ .quiesced → s.start.skeleton = false →
      ∃ t, exec (.fuseBurn .register ok) s = .next t ∧ SvcReplied s t p [badField 0 s.svc.area 8])
    ∧ (∀ ok, SvcRuns s 0x0003 p → s.blk.mode = .quiesced → s.start.skeleton = false →
      ∃ t, exec (.fuseBurn .register ok) s = .next t ∧ SvcReplied (s.burnAll s.blk.repair ok).1 t p (s.burnAll s.blk.repair ok).2)

/-- A SERVICE_CMD run that writes a report or works on held frames or extents has its effect and writes its reply; a reserved subcode
fails naming SUBCODE, and an image of another opcode with OPCODE_INVALID (R334, R356, R380, R400, R401). -/
def Obligations.ServiceRunsReports : Prop :=
  ∀ (s : State) (p : Nat),
    (SvcRuns s 0x0001 p → firstFail (outputChecks (bitsOf p 175 128) (spareBytes s).length 16) = none →
      outputFault s (bitsOf p 175 128) (spareBytes s).length = none →
      ∃ t, exec (.spareRead .register) s = .next t ∧ SvcReplied (s.store (bitsOf p 175 128) (spareBytes s)) t p [])
    ∧ (∀ l, SvcRuns s 0x0011 p → bitsOf p 84 80 < stackCount s.map.profile → s.blk.mode = .quiesced →
      firstFail (outputChecks (bitsOf p 239 192) (loopbackBytes p l).length 24) = none →
      outputFault s (bitsOf p 239 192) (loopbackBytes p l).length = none →
      ∃ t, exec (.loopback .register l) s = .next t ∧ SvcReplied (s.store (bitsOf p 239 192) (loopbackBytes p l)) t p [])
    ∧ (SvcRuns s 0x0021 p → farAbsent s = true → ∃ t, exec (.farEvacuate .register) s = .next t
      ∧ SvcReplied s t p [⟨.farTierAbsent, 0⟩])
    ∧ (SvcRuns s 0x0021 p → farAbsent s = false → (vget s.far.modules (bitsOf p 81 80)).isSome →
      ∃ (l : List Extent) (t : State), exec (.farEvacuate .register) s = .next t
      ∧ (∀ e, e ∈ l ↔ e ∈ s.far.map ∧ e.port = bitsOf p 81 80 ∧ e.lost = none)
      ∧ SvcReplied (s.evacuate (bitsOf p 81 80) l).1 t p (s.evacuate (bitsOf p 81 80) l).2)
    ∧ (SvcRuns s 0x0030 p → ∃ t, exec (.frameRetag .register) s = .next t
      ∧ SvcReplied ((s.onHeld (bitsOf p 83 80) (fun l => l.map (fun f =>
          if hLayer f.header = bitsOf p 111 96 ∧ hStep f.header = bitsOf p 175 128 then f.retag (bitsOf p 239 192) else f))).matchAll
            (bitsOf p 83 80)) t p [])
    ∧ (SvcRuns s 0x0031 p → ∃ t, exec (.frameDiscard .register) s = .next t
      ∧ SvcReplied (s.onHeld (bitsOf p 83 80) (fun l => l.filter (fun f =>
          !(hLayer f.header == bitsOf p 111 96 && (bitOf p 84 || hStep f.header == bitsOf p 175 128))))) t p [])
    ∧ (∀ sub, svcKnown sub = false → SvcRuns s sub p → ∃ t, exec (.reservedSubcode .register) s = .next t
      ∧ SvcReplied s t p [badField 0 s.svc.area 8])
    ∧ (s.svc.image = some p → s.svc.busy = true → blkRuns s = true → s.cp.paused = false → regionOf (s.svc.area + 64) ≠ .host →
      pOp p ≠ 0x3C → ∃ t, exec (.reservedSubcode .register) s = .next t ∧ SvcReplied s t p [⟨.opcodeInvalid, pOp p⟩])

/-! Packets that must wait. -/

/-- No packet is read while its context is not ACTIVE, while the block or its command processor cannot dispatch, or while the queue
is empty or held: the command then changes nothing (R270, R273, R295, R391; that it waits is the model's reading, log 3). -/
def Obligations.PacketsWait : Prop :=
  ∀ (c : Instr) (q : QIx) (s : State), packetOf c = some q → (canDispatch s q = false ∨ hasPacket s q = false) → exec c s = .next s

/-! Doorbells and queues. -/

/-- A doorbell (R271): value T is accepted when (T − OLDEST) mod 2^32 ≤ 2^L and (T − TAIL) mod 2^32 ≤ 2^L, and sets TAIL; any other write
is ignored and sets the queue-error bit. While the context is not enabled, accepted writes set TAIL and no packet is read. -/
def Obligations.DoorbellRule : Prop :=
  ∀ (q : QIx) (value : Word) (s : State), Served s →
    (((value.toNat % 2 ^ 32 : Int) - (s.queue q).oldest) % 2 ^ 32 ≤ 2 ^ (s.queue q).log →
      ((value.toNat % 2 ^ 32 : Int) - (s.queue q).tail) % 2 ^ 32 ≤ 2 ^ (s.queue q).log → (s.queue q).log ≠ 0 →
      exec (.qDoorbellWrite q value) s = .next (s.onQ q (fun x => { x with tail := value.toNat % 2 ^ 32 })))
    ∧ ((2 ^ (s.queue q).log < ((value.toNat % 2 ^ 32 : Int) - (s.queue q).oldest) % 2 ^ 32
        ∨ 2 ^ (s.queue q).log < ((value.toNat % 2 ^ 32 : Int) - (s.queue q).tail) % 2 ^ 32 ∨ (s.queue q).log = 0) →
      exec (.qDoorbellWrite q value) s = .next (s.onCtx (ctxOf q) (fun c => { c with qerr := true })))
    ∧ ((s.ctx (ctxOf q)).mode ≠ .active → ∀ c, packetOf c = some q → exec c s = .next s)

/-- Q_BASE (R476): in a DISABLED context a ring of 2^L entries, 4 ≤ L ≤ 12, at a 4 KiB aligned near-memory base above the block region
and below TOP is taken, and 0 takes the queue away; in any other state of the context, with L out of range, or with a base inside the
block region the write is ignored and sets CMD_ERR. -/
def Obligations.QueueBaseRule : Prop :=
  ∀ (q : QIx) (value : Word) (s : State), Served s →
    ((s.ctx (ctxOf q)).mode = .disabled → 4 ≤ bitsOf value.toNat 3 0 → bitsOf value.toNat 3 0 ≤ 12 →
      0x0D000000 ≤ bitsOf value.toNat 47 12 * 4096 → regionOf (bitsOf value.toNat 47 12 * 4096) = .near →
      badByte s (bitsOf value.toNat 47 12 * 4096) (576 * 2 ^ bitsOf value.toNat 3 0) = none →
      exec (.qBaseWrite q value) s = .next (s.onQ q (fun x => { x with
        log := bitsOf value.toNat 3 0, base := bitsOf value.toNat 47 12 * 4096 })))
    ∧ ((s.ctx (ctxOf q)).mode = .disabled → value = 0 →
      exec (.qBaseWrite q value) s = .next (s.onQ q (fun x => { x with log := 0, base := 0 })))
    ∧ (((s.ctx (ctxOf q)).mode ≠ .disabled ∨ (bitsOf value.toNat 3 0 < 4 ∧ bitsOf value.toNat 47 12 ≠ 0)
        ∨ 12 < bitsOf value.toNat 3 0
        ∨ (0 < bitsOf value.toNat 47 12 ∧ bitsOf value.toNat 47 12 * 4096 < 0x0D000000)) →
      exec (.qBaseWrite q value) s = .next (s.onCtx (ctxOf q) (fun c => { c with cmdErr := true })))

/-! Contexts. -/

/-- CTX_CTRL with a CMD (R295, R296, R308, R311, R312): the fields are taken, then ENABLE makes a DISABLED context whose window fits
ACTIVE with its positions 0, DISABLE begins the sequence of an ACTIVE or SUSPENDED context, PREEMPT that of an ACTIVE one, and RESUME
makes a SUSPENDED one ACTIVE; a write with a field out of range sets CMD_ERR and changes nothing else. The arrays take the
eligibility of contexts anew at such a write (R299; the instant is the model's reading, log 71). -/
def Obligations.ContextCommands : Prop :=
  ∀ (n : CIx) (value : Word) (s : State), Served s →
    (ccRefused value.toNat = false →
      (ccCmd value.toNat = 1 → (s.ctx n).mode = .disabled → ccBase value.toNat + ccCount value.toNat ≤ 32 → s.blk.mode ≠ .quiesced →
        ∃ t, exec (.enable n value) s = .next t ∧ t.ctx n = { (s.ctx n).withFields value.toNat with mode := .active, stage := 0 }
          ∧ (t.ctx n).wBase = ccBase value.toNat ∧ (t.ctx n).wCount = ccCount value.toNat ∧ (t.ctx n).share = ccShare value.toNat
          ∧ s.ctxsBut t n ∧ (∀ j < 4, t.queue (4 * n + j) = (s.queue (4 * n + j)).zeroed)
          ∧ (∀ q : Nat, q / 4 ≠ n.val → t.queue q = s.queue q) ∧ s.coresElected t ∧ s.onlyIn [.ctxs, .qs, .cores] t)
      ∧ (ccCmd value.toNat = 2 → (s.ctx n).mode = .active ∨ (s.ctx n).mode = .suspended →
        ∃ t, exec (.disable n value) s = .next t ∧ (t.ctx n).mode = .disabling ∧ (t.ctx n).stage = 1
          ∧ (t.ctx n).share = ccShare value.toNat ∧ s.ctxsBut t n ∧ s.coresElected t
          ∧ s.onlyIn [.ctxs, .cores] t)
      ∧ (ccCmd value.toNat = 3 → (s.ctx n).mode = .active →
        ∃ t, exec (.preempt n value) s = .next t ∧ (t.ctx n).mode = .preempting ∧ (t.ctx n).stage = 1
          ∧ (t.ctx n).share = ccShare value.toNat ∧ s.ctxsBut t n ∧ s.coresElected t
          ∧ s.onlyIn [.ctxs, .cores] t)
      ∧ (ccCmd value.toNat = 4 → (s.ctx n).mode = .suspended → s.blk.mode ≠ .quiesced →
        ∃ t, exec (.resume n value) s = .next t ∧ (t.ctx n).mode = .active ∧ (t.ctx n).share = ccShare value.toNat
          ∧ s.ctxsBut t n ∧ s.coresElected t ∧ s.onlyIn [.ctxs, .cores] t))
    ∧ (ccRefused value.toNat = true → ∀ row, row ∈ [(Instr.enable n value, 1), (.disable n value, 2), (.preempt n value, 3),
        (.resume n value, 4)] → ccCmd value.toNat = row.2 →
      exec row.1 s = .next (s.onCtx n (fun c => { c with cmdErr := true })))

/-- The stages of a disable or preemption follow one another as the work of each ends (R308, R309, R311): after stage 2 the
context's queues hold nothing, stages 3 and 4 wait for drains and outstanding transfers, a preemption leaves out stage 5, stage 5
waits for the zeroed window, stage 6 for the acknowledgement of the ENDs sent, and after it no command of the context is in flight
(R373). That stages 3 and 4 end in one row, and that a row sent too early has no effect, is the model's reading (log 62, log 3). -/
def Obligations.DisableStages : Prop :=
  ∀ (n : CIx) (s : State), blkRuns s = true → s.cp.paused = false →
    ((s.ctx n).stage = 1 → exec (.disableStageEnd n) s = .next (s.onCtx n (fun c => { c with stage := 2 })))
    ∧ ((s.ctx n).stage = 2 → ∃ t, exec (.disableStageEnd n) s = .next t ∧ (t.ctx n).stage = 3 ∧ (t.ctx n).mode = (s.ctx n).mode
        ∧ ∀ j < 4, (t.queue (4 * n + j)).hold = none)
    ∧ ((s.ctx n).stage = 3 → settledStages s n = false → exec (.disableStageEnd n) s = .next s)
    ∧ ((s.ctx n).stage = 3 → settledStages s n = true → ∃ t, exec (.disableStageEnd n) s = .next t
        ∧ (t.ctx n).stage = if (s.ctx n).mode = .preempting then 6 else 5)
    ∧ ((s.ctx n).stage = 5 → (s.ctx n).zeroed = true ∨ (s.ctx n).wCount = 0 →
        exec (.disableStageEnd n) s = .next (s.onCtx n (fun c => { c with stage := 6 })))
    ∧ ((s.ctx n).stage = 5 → (s.ctx n).zeroed = false → (s.ctx n).wCount ≠ 0 → exec (.disableStageEnd n) s = .next s)
    ∧ ((s.ctx n).stage = 6 → endsAcked s n = true → ∃ t, exec (.disableStageEnd n) s = .next t ∧ (t.ctx n).stage = 7
        ∧ ∀ c ∈ t.cp.cmds, ctxOf c.q ≠ n)
    ∧ ((s.ctx n).stage = 6 → endsAcked s n = false → exec (.disableStageEnd n) s = .next s)

/-- The end of a disable discards the context's held frames and leaves it DISABLED; a preemption keeps every held frame at each of its
stages and ends SUSPENDED, and RESUME keeps them for the receivers issued after it (R308, R311, R312, R369). -/
def Obligations.HeldFramesAtEnd : Prop :=
  ∀ (n : CIx) (s : State), blkRuns s = true → s.cp.paused = false →
    ((s.ctx n).mode = .disabling → (s.ctx n).stage = 7 →
      ∃ t, exec (.disableStageEnd n) s = .next t ∧ (t.ctx n).mode = .disabled ∧ t.heldOf n = [])
    ∧ ((s.ctx n).mode = .preempting →
      (∀ t, exec (.disableStageEnd n) s = .next t → t.xch.held = s.xch.held)
      ∧ ((s.ctx n).stage = 7 → ∃ t, exec (.disableStageEnd n) s = .next t ∧ (t.ctx n).mode = .suspended))
    ∧ (∀ value : Word, Served s → ccRefused value.toNat = false → ccCmd value.toNat = 4 → (s.ctx n).mode = .suspended →
      s.blk.mode ≠ .quiesced → ∃ t, exec (.resume n value) s = .next t ∧ (t.ctx n).mode = .active ∧ t.xch.held = s.xch.held)

/-- Stage 5 of a disable zeroes, on every core, every slot of the context's window that no other context's claim binds, and no
other slot (R178, R308). A far-tier write without its completion 20 µs into stage 4 is abandoned: no SPILL of the context has a
granule outstanding, and none of its granules counts as written for it (R308). Stage 4 runs as stage 3 of the model (log 62). -/
def Obligations.DisableWork : Prop :=
  (∀ (n : CIx) (s : State), (s.ctx n).stage = 5 → blkRuns s = true →
      ∃ t, exec (.tunZeroComplete n) s = .next t ∧ (t.ctx n).zeroed = true
        ∧ ∀ core < 8, ∀ slot row,
            ((s.ctx n).wBase ≤ slot → slot < (s.ctx n).wBase + (s.ctx n).wCount → boundToOther s n (core, slot) = false →
              t.tunRow core slot row = List.replicate 256 lwZero)
            ∧ (slot < (s.ctx n).wBase ∨ (s.ctx n).wBase + (s.ctx n).wCount ≤ slot ∨ boundToOther s n (core, slot) = true →
              t.tunRow core slot row = s.tunRow core slot row))
  ∧ (∀ (n : CIx) (s : State), (s.ctx n).stage = 3 → unitsRun s = true →
      ∃ t, exec (.farWriteAbandon n) s = .next t ∧ s.onlyIn [.cp] t
        ∧ (∀ c ∈ t.cp.cmds, ctxOf c.q = n → pOp c.pkt = 0x28 → ∀ e, c.eng? = some e → e.cmps = [])
        ∧ t.cp.cmds.map (fun c => (c.key, c.eng?.map (·.doneBits))) = s.cp.cmds.map (fun c => (c.key, c.eng?.map (·.doneBits))))

/-! Registers. -/

/-- KPR_LIMITS (R426), served in every state but S0 (in IDLE a write wakes the block first): a write with every field in its range
sets the four fields, which read back in their places; a write with any field outside its range changes none of them and sets
LIMIT_ERR in KPR_STATUS. The fields' values at reset are those of the table. -/
def Obligations.LimitsRule : Prop :=
  (∀ (value : Word) (s : State) (p t vs vp : Nat), s.start.stage ≠ 0 → s.pwr.state ≠ .idle → p = bitsOf value.toNat 9 0 →
    t = bitsOf value.toNat 16 10 → vs = bitsOf value.toNat 31 24 → vp = bitsOf value.toNat 39 32 →
    (250 ≤ p ∧ p ≤ 700 ∧ 70 ≤ t ∧ t ≤ 100 ∧ 120 ≤ vs ∧ vs ≤ 150 ∧ 150 ≤ vp ∧ vp ≤ 170 ∧ vs ≤ vp →
      ∃ u, exec (.kprLimitsWrite value) s = .next u
        ∧ u = s.onKpr (fun k => { k with pLimit := p, tThrottle := t, vSust := vs, vSprint := vp })
        ∧ regRead u 0x108 = p + 2 ^ 10 * t + 2 ^ 24 * vs + 2 ^ 32 * vp)
    ∧ (¬ (250 ≤ p ∧ p ≤ 700 ∧ 70 ≤ t ∧ t ≤ 100 ∧ 120 ≤ vs ∧ vs ≤ 150 ∧ 150 ≤ vp ∧ vp ≤ 170 ∧ vs ≤ vp) →
      ∃ u, exec (.kprLimitsWrite value) s = .next u ∧ u = s.onKpr (fun k => { k with limitErr := true })
        ∧ regRead u 0x108 = regRead s 0x108 ∧ bitOf (regRead u 0x100) 30 = true))
  ∧ (State.reset.kpr.pLimit = 700 ∧ State.reset.kpr.tThrottle = 100 ∧ State.reset.kpr.vSust = 0x96 ∧ State.reset.kpr.vSprint = 0xAA)

/-- The registers with rows of their own and the others of the window: SPRINT_CTRL.EN (R427), RAMP_LIMIT clamped to 40 to 200 (R130,
R479), MEM_RESV up to 1,000 (R324), the wear-ledger selection with its latch (R480), RATED_TIB once only (R351), FW_PATCH, SVC_IRQ and
XCH_ID (R359, R478), and offsets that R473 does not list, which ignore writes (R458). -/
def Obligations.RegisterSettings : Prop :=
  ∀ (value : Word) (s : State), Served s →
    exec (.sprintCtrlWrite value) s = .next (s.onKpr (fun k => { k with sprintEn := bitOf value.toNat 0 }))
    ∧ exec (.rampLimitWrite value) s = .next (s.onPwr (fun p => { p with ramp := min 200 (max 40 (bitsOf value.toNat 7 0)) }))
    ∧ (bitsOf value.toNat 9 0 ≤ 1000 → exec (.memResvWrite value) s = .next (s.onMap (fun x => { x with
        resvRate := bitsOf value.toNat 9 0, resvBurst := bitsOf value.toNat 15 10 })))
    ∧ (1000 < bitsOf value.toNat 9 0 → exec (.memResvWrite value) s = .next s)
    ∧ (∃ t, exec (.wearLedgerIdxWrite value) s = .next t ∧ t.far.wearIdx = bitsOf value.toNat 3 0
        ∧ t.far.wearLatch = wearWord (vget s.far.wear (bitsOf value.toNat 3 0)) ∧ t.far.wear = s.far.wear ∧ s.onlyIn [.far] t)
    ∧ (∃ t, exec .wearLedgerDataRead s = .next t ∧ t.port.regData = wearWord (vget s.far.wear s.far.wearIdx) % 2 ^ 64
        ∧ t.far.wearLatch = wearWord (vget s.far.wear s.far.wearIdx) ∧ s.onlyIn [.far, .port] t)
    ∧ ((vget s.far.wear s.far.wearIdx).state ≠ 0 → (vget s.far.wear s.far.wearIdx).ratedTib = 0 →
        ∃ t, exec (.ratedTibWrite value) s = .next t
          ∧ (vget t.far.wear s.far.wearIdx).ratedTib = bitsOf value.toNat 63 32 ∧ s.onlyIn [.svc, .log, .mem, .far, .mirror] t)
    ∧ ((vget s.far.wear s.far.wearIdx).state = 0 ∨ (vget s.far.wear s.far.wearIdx).ratedTib ≠ 0 →
        exec (.ratedTibWrite value) s = .next s)
    ∧ exec (.registerWrite 0x38 value) s = .next (s.onBlk (fun b => { b with fwPatch := bitsOf value.toNat 47 0 }))
    ∧ (∃ t, exec (.registerWrite 0x48 value) s = .next t ∧ t.svc.mask = bitsOf value.toNat 36 32 ∧ s.onlyIn [.svc] t
        ∧ ∀ i < 5, bitOf t.svc.irq i = (bitOf s.svc.irq i && !bitOf value.toNat i))
    ∧ exec (.registerWrite 0x208 value) s = .next (s.onXch (fun x => { x with
        boardId := bitsOf value.toNat 31 0, fdom := bitsOf value.toNat 63 32 }))
    ∧ (∀ off, 0x280 ≤ off → off < 0x400 → exec (.registerWrite off value) s = .next s)

/-! Power states. -/

/-- A write of TARGET (R428): IDLE and ARRAYS_OFF begin their transition, which ends sprint; DEEP does so only with every context
DISABLED, and is refused otherwise with TARGET as it was; ACTIVE begins the return. The other fields of the write take effect. -/
def Obligations.PowerTargets : Prop :=
  ∀ (value : Word) (s : State), Served s →
    (∀ row, row ∈ [(Instr.targetIdle value, 1, PState.idle), (.targetArraysOff value, 2, .arraysOff), (.targetDeep value, 3, .deep)] →
      bitsOf value.toNat 1 0 = row.2.1 → (row.2.2 = .deep → ∀ n < 16, (s.ctx n).mode = .disabled) → s.pwr.state ≠ row.2.2 →
      ∃ t, exec row.1 s = .next t ∧ t.pwr.target = row.2.2 ∧ t.pwr.going = some row.2.2 ∧ t.pwr.state = s.pwr.state
        ∧ t.pwr.autoIdle = bitOf value.toNat 2 ∧ t.pwr.idleDelay = bitsOf value.toNat 31 8 ∧ t.kpr.sprintOn = false
        ∧ s.onlyIn [.kpr, .kin, .pwr] t)
    ∧ (bitsOf value.toNat 1 0 = 3 → (∃ n < 16, (s.ctx n).mode ≠ .disabled) →
      exec (.targetDeep value) s = .next (s.onPwr (fun p => { p with
        autoIdle := bitOf value.toNat 2, idleDelay := bitsOf value.toNat 31 8, refused := true })))
    ∧ (bitsOf value.toNat 1 0 = 0 → exec (.targetActive value) s = .next (s.onPwr (fun p => { p with
        target := .active, autoIdle := bitOf value.toNat 2, idleDelay := bitsOf value.toNat 31 8
        refused := s.pwr.refused && !bitOf value.toNat 34
        going := if s.pwr.state = .active then none else some .active })))

/-- Transitions of the power state (R414, R418, R428, R449). AUTO_IDLE begins one when nothing is unread or in flight. In IDLE an inbound
frame, a doorbell or a register write wakes the block: its request will rise to its ceiling, code 120 under an alarm, and the write
waits until ACTIVE. The end of a transition makes the new state hold: IDLE at code 110, ARRAYS_OFF with every WREG cleared, DEEP with
the totals saved and the cache written back, ACTIVE with nothing else changed. From DEEP, TARGET ACTIVE starts the block again from
S1, with every context at its defaults. The list of writes that wait is the model's own (log 37); the place of the saved totals in
the keeper mirrors is the model's choice (log 83). -/
def Obligations.PowerTransitions : Prop :=
  ∀ (s : State),
    (Served s → s.pwr.autoIdle = true → s.pwr.state = .active → s.pwr.going = none → s.cp.cmds = [] →
      (∀ q < 64, (s.queue q).head = (s.queue q).tail) →
      ∃ t, exec .autoIdleExpiry s = .next t ∧ t.pwr = { s.pwr with going := some .idle } ∧ t.kpr.sprintOn = false
        ∧ s.onlyIn [.kpr, .kin, .pwr] t)
    ∧ (s.pwr.state = .idle → s.start.resetLow = false → (s.blk.mode = .ready ∨ s.blk.mode = .skeleton ∨ s.blk.mode = .quiesced) →
      ∃ w : State, w = (s.onPwr (fun p => { p with going := some .active, target := .active })).onKpr (fun k => { k with
            vTarget := max k.vReq (if s.kin.alarm then 120 else sustCode k) })
        ∧ exec (.idleWake .frame) s = .next w
        ∧ (∀ q v, exec (.idleWake (.doorbell q v)) s = .next (w.onPwr (fun p => { p with
            waking := s.pwr.waking ++ [(0x8000 + 0x800 * (q.val / 4) + 8 * (q.val % 4), v.toNat)] })))
        ∧ (∀ n v, n < 16 → exec (.idleWake (.registerWrite (0x400 + 8 * n) v)) s = .next (w.onPwr (fun p => { p with
            waking := s.pwr.waking ++ [(0x400 + 8 * n, v.toNat)] }))))
    ∧ (s.pwr.going = some .idle → ∃ t, exec .powerStateReached s = .next t ∧ t.pwr = { s.pwr with state := .idle, going := none }
        ∧ t.kpr = { s.kpr with vReq := 110, vTarget := 110 } ∧ s.onlyIn [.kpr, .kin, .pwr] t)
    ∧ (s.pwr.going = some .arraysOff → ∃ t, exec .powerStateReached s = .next t
        ∧ t.pwr = { s.pwr with state := .arraysOff, going := none }
        ∧ (∀ a < 32, (t.array a).wreg = [] ∧ (t.array a).inService = (s.array a).inService) ∧ s.onlyIn [.pwr, .arrays] t)
    ∧ (s.pwr.going = some .deep → s.start.stage = 7 → ∃ t, exec .powerStateReached s = .next t
        ∧ t.pwr = { s.pwr with state := .deep, going := none }
        ∧ t.mem.dirty = [] ∧ t.mem.parked = [] ∧ (∀ n < 16, vget t.mirror.totals n = (s.ctx n).totals)
        ∧ (s.sound → s.memOutside t 0x0C08A000 768) ∧ s.onlyIn [.pwr, .mem, .mirror] t)
    ∧ (s.pwr.going = some .active → s.pwr.waking = [] →
        exec .powerStateReached s = .next (s.onPwr (fun p => { p with state := .active, going := none })))
    ∧ (∀ value : Word, bitsOf value.toNat 1 0 = 0 → s.pwr.state = .deep → s.start.stage = 7 →
        (s.blk.mode = .ready ∨ s.blk.mode = .skeleton ∨ s.blk.mode = .quiesced) →
        ∃ t, exec (.targetActive value) s = .next t ∧ t.start.stage = 1 ∧ t.blk.mode = .starting ∧ t.pwr.state = .active
          ∧ (∀ n < 16, t.ctx n = Ctx.reset) ∧ s.memSame t)

/-! Resets and starts. -/

/-- RST_CTRL (R444, R445, R447, R448): ATTEMPTS_CLR zeroes ATTEMPTS; WARM loses the work in flight, disables every context with
its settings kept, keeps near memory and the cache, and runs S5 and S6; a context reset gives a DISABLED context its defaults and
empties its queues and held frames, and disables any other context first. Which registers a reset leaves where R448 does not list
them is the model's reading (log 9). -/
def Obligations.ResetsWritten : Prop :=
  ∀ (value : Word) (s : State), Served s →
    (bitsOf value.toNat 31 16 = 0 → bitsOf value.toNat 1 0 = 2 →
      exec (.attemptsClr value) s = .next (s.onStart (fun x => { x with attempts := 0 })))
    ∧ (bitsOf value.toNat 31 16 = 0 → bitsOf value.toNat 1 0 = 1 →
      ∃ t, exec (.warmReset value) s = .next t ∧ t.start = { s.start with stage := 5, retryDue := false, kind := .warm }
        ∧ t.blk = { s.blk with mode := .starting } ∧ t.cp.cmds = [] ∧ t.tun = [] ∧ (∀ n < 16, t.heldOf n = [])
        ∧ (∀ n < 16, t.ctx n = { s.ctx n with
            mode := .disabled, step := 0, stage := 0, zeroed := false, resetAfter := false, heldBefore := [] })
        ∧ (∀ q < 64, t.queue q = (s.queue q).zeroed)
        ∧ (∀ a < 32, (t.array a).inService = (s.array a).inService ∧ (t.array a).wreg = [] ∧ (t.array a).claim = none)
        ∧ s.memSame t
        ∧ s.onlyIn [.blk, .start, .svc, .ctxs, .qs, .cp, .arrays, .halves, .cores, .tun, .mem, .xch, .port] t)
    ∧ (∀ n < 16, bitsOf value.toNat 31 16 = 2 ^ n → bitsOf value.toNat 1 0 = 0 →
      ((s.ctx n).mode = .disabled → ∃ t, exec (.contextReset value) s = .next t
        ∧ t.ctx n = { Ctx.reset with qpend := (s.ctx n).qpend, qmask := (s.ctx n).qmask } ∧ t.heldOf n = []
        ∧ (∀ j < 4, t.queue (4 * n + j) = Queue.reset) ∧ s.ctxsBut t n)
      ∧ ((s.ctx n).mode = .active ∨ (s.ctx n).mode = .suspended → ∃ t, exec (.contextReset value) s = .next t
        ∧ (t.ctx n).mode = .disabling ∧ (t.ctx n).stage = 1 ∧ (t.ctx n).resetAfter = true ∧ s.ctxsBut t n ∧ s.onlyIn [.ctxs] t))

/-- Resets of the pins (R444, R446, R448, R450, R467): a power-on reset restores every power-on value and keeps the fuses and the
mirrors; RESET_N low writes the dirty and parked lines back, so that near memory reads as before, and its release latches the
straps and starts from S1, in skeleton mode once ATTEMPTS is 3; a rail loss loses the dirty and parked lines, keeps every byte
that was not in the cache, and starts from S1. What R448 does not list, the straps' share in the regulator's port, and the order of
a rail loss are the model's readings (log 9, log 48, log 85). -/
def Obligations.ResetsOfPins : Prop :=
  ∀ (straps : Word) (s : State),
    (∃ t, exec (.powerOnReset straps) s = .next t ∧ t.pending = s.pending ∧ t.blk.fuse = s.blk.fuse ∧ t.mirror = s.mirror
      ∧ t.blk.straps = strapBits straps.toNat ∧ t.start = State.reset.start ∧ t.log = State.reset.log ∧ t.kpr = State.reset.kpr
      ∧ t.kin = { State.reset.kin with vport := t.kin.vport } ∧ t.pwr = State.reset.pwr ∧ t.svc = State.reset.svc
      ∧ t.ctxs = State.reset.ctxs ∧ t.qs = State.reset.qs ∧ t.cp = State.reset.cp ∧ t.mem = State.reset.mem
      ∧ t.xch = State.reset.xch ∧ t.far.modules = s.far.modules)
    ∧ (∃ t, exec .resetNAssert s = .next t ∧ t.start.resetLow = true ∧ t.blk.mode = .starting ∧ t.mem.dirty = [] ∧ t.mem.parked = []
      ∧ (s.sound → s.memSame t) ∧ (∀ n < 16, t.ctx n = Ctx.reset) ∧ (∀ q < 64, t.queue q = Queue.reset) ∧ t.cp.cmds = []
      ∧ t.log = s.log ∧ t.mirror = s.mirror ∧ t.blk.fuse = s.blk.fuse ∧ t.blk.repair = s.blk.repair)
    ∧ (s.start.resetLow = true → s.start.stage = 7 → ∃ t, exec (.resetNRelease straps) s = .next t ∧ t.start.resetLow = false
      ∧ t.start.stage = 1 ∧ t.start.kind = .cold ∧ t.start.skeleton = decide (3 ≤ s.start.attempts)
      ∧ (s.start.attempts < 3 → t.start.startCount = min 65535 (s.start.startCount + 1)) ∧ t.blk.mode = .starting
      ∧ t.blk.straps = strapBits straps.toNat ∧ t.port.wir = .bypass ∧ s.onlyIn [.blk, .start, .kin, .map, .port] t)
    ∧ (s.pwr.state ≠ .deep → s.start.stage ≠ 0 → s.start.resetLow = false → ∃ t, exec .railLoss s = .next t ∧ t.start.stage = 1
      ∧ t.blk.mode = .starting ∧ t.mem.dirty = [] ∧ t.mem.parked = []
      ∧ (∀ x, cellGet s.mem.dirty x = none → t.mem.read x = s.mem.read x)
      ∧ (∀ n < 16, t.ctx n = Ctx.reset) ∧ t.log = s.log ∧ t.blk.fuse = s.blk.fuse ∧ t.blk.repair = s.blk.repair)

/-- The start stages that pass (R395, R432, R433, R437, R438, R448): S0 with two keeper copies or more leads to S1; S1 to S2 with the
spare maps of the good records; S2 to S3 when every stack trains and no channel is lost, with the map of the parity setting; S3
retires the arrays that fail a phase of R124 or are kept out, and S4 what failed its march test, each leading on with 16 arrays or
more; a shared-cache slice that fails S4 fails the start; S5 takes the cores that pass when no patch image is named; S6 makes the
block READY with ATTEMPTS 0 and a full budget, and raises the service interrupt. What a stage reports besides its records is the
model's reading (log 46). -/
def Obligations.StartStages : Prop :=
  ∀ (s : State), s.start.resetLow = false → s.start.skeleton = false →
    (∀ agree, s.start.stage = 0 → 2 ≤ agree → s.start.attempts < 3 → ∃ t, exec (.startStageEnd (.s0 agree)) s = .next t
      ∧ t.start.stage = 1 ∧ t.kin.copies = agree ∧ t.blk.mode = .starting
      ∧ (3 ≤ agree → s.onlyIn [.blk, .start, .kin] t) ∧ s.onlyIn [.free, .blk, .start, .svc, .log, .kin, .mem, .mirror] t)
    ∧ (s.start.stage = 1 → ∃ t, exec (.startStageEnd (.s1 true)) s = .next t ∧ t.start.stage = 2
      ∧ (∀ a < 32, vget t.blk.spare a = spareWord (repairsFor (goodRecords s) a 0) (repairsFor (goodRecords s) a 1)))
    ∧ (∀ i : S2Info, s.start.stage = 2 → (∀ x < stackCount (s.blk.straps % 4), (i.stackGib.getD x none).isSome) →
      i.lostChannels = [] → s.blk.mapList = [] →
      ∃ t, exec (.startStageEnd (.s2 i)) s = .next t ∧ t.start.stage = 3 ∧ t.map.parity = s.blk.paritySet
        ∧ t.map.slots = slotsOf (s.blk.straps % 4) i.stackGib ∧ t.map.top = t.map.slots * rowGranules t.map)
    ∧ (∀ reads badT, s.start.stage = 3 →
      ∃ t, exec (.startStageEnd (.s3 reads badT)) s = .next t
        ∧ (∀ a < 32, (t.array a).inService
            = !((badArrays reads).contains a || s.blk.keepArrays.contains a || s.blk.keepCores.contains (a / 4)))
        ∧ (∀ c < 8, (t.core c).inService = !s.blk.keepCores.contains c)
        ∧ (16 ≤ arraysIn t → t.start.stage = 4) ∧ (arraysIn t < 16 → t.start.retryDue = true ∧ t.start.code = 0x30))
    ∧ (∀ badC badS, s.start.stage = 4 →
      (∃ t, exec (.startStageEnd (.s4 badC badS [])) s = .next t ∧ t.tun = []
        ∧ (∀ a < 32, (t.array a).inService = ((s.array a).inService && !(badS.contains a || badC.contains (a / 4))))
        ∧ (16 ≤ arraysIn t → t.start.stage = 5) ∧ (arraysIn t < 16 → t.start.retryDue = true ∧ t.start.code = 0x41))
      ∧ (∀ x l, ∃ t, exec (.startStageEnd (.s4 badC badS (x :: l))) s = .next t ∧ t.start.code = 0x40 ∧ t.start.unit = x
        ∧ t.start.stageFail = 4 ∧ t.start.retryDue = true))
    ∧ (∀ pass img, s.start.stage = 5 → s.blk.fwPatch = 0 → 2 ≤ pass.countP id →
      ∃ t, exec (.startStageEnd (.s5 pass img)) s = .next t ∧ t.start.stage = 6 ∧ t.cp.running = 2
        ∧ t.cp.spare = decide (3 ≤ pass.countP id) ∧ t.cp.cmds = [] ∧ t.blk.patchVer = 0
        ∧ (3 ≤ pass.countP id → s.onlyIn [.blk, .start, .cp] t) ∧ s.onlyIn [.blk, .start, .svc, .log, .cp, .mem, .mirror] t)
    ∧ (s.start.stage = 6 → s.start.kind ≠ .warm → ∃ t, exec (.startStageEnd .s6) s = .next t ∧ t.start.stage = 7
      ∧ t.start.attempts = 0 ∧ t.blk.mode = .ready ∧ t.kin.budget = budgetFull ∧ bitOf t.svc.irq 1 = true)

/-- A stage that fails (R438, R441, R442): START_REC names stage and code, ATTEMPTS counts up to 3, the service interrupt is
raised, and the next attempt waits; 1 ms later it begins S1 with everything a cold reset clears. Stages S0 to S5 fail with 0x7F
when they exceed their bound. What START_REC holds for a stage that exceeds its bound, and that S0 may fail so, is the model's
reading (log 46). -/
def Obligations.StartFailures : Prop :=
  ∀ (s : State), s.start.resetLow = false →
    (s.start.stage ≤ 5 → ∃ t, exec .startStageTimeout s = .next t ∧ t.start = { s.start with
        stageFail := s.start.stage, attempts := min 3 (s.start.attempts + 1), code := 0x7F, unitKind := 0, unit := 0, stage := 7
        retryDue := true }
      ∧ bitOf t.svc.irq 4 = true ∧ s.onlyIn [.start, .svc] t)
    ∧ (s.start.stage = 1 → ∃ t, exec (.startStageEnd (.s1 false)) s = .next t ∧ t.start.code = 0x10 ∧ t.start.stageFail = 1
      ∧ t.start.retryDue = true ∧ t.start.attempts = min 3 (s.start.attempts + 1) ∧ s.onlyIn [.start, .svc] t)
    ∧ (s.start.retryDue = true → ∃ t, exec .startRetry s = .next t ∧ t.start.stage = 1 ∧ t.start.retryDue = false
      ∧ t.start.attempts = s.start.attempts ∧ t.start.skeleton = decide (3 ≤ s.start.attempts) ∧ t.blk.mode = .starting
      ∧ t.svc.irq = s.svc.irq ∧ (∀ n < 16, t.ctx n = Ctx.reset) ∧ t.mem.dirty = [])

/-! Engine commands and the far tier. -/

/-- A granule of COPY leaves its bytes at the destination, and one of FILL the repeated PATTERN, each marks the granule done and changes
no other byte; a granule whose destination cannot be written halts the command with that condition and changes no byte; one whose
write must wait for the cellar changes nothing (R283, R284, R290, R339, R406). -/
def Obligations.GranulesComplete : Prop :=
  ∀ (q : QIx) (pos g : Nat) (s : State) (c : Cmd) (e : Eng), s.cmd? (q.val, pos) = some c → c.eng? = some e → c.ended = false →
    granuleOpen s (q.val, pos) e g = true →
    (granuleWaits s (q.val, pos) c.pkt g = true → exec (.granuleComplete q pos g) s = .next s)
    ∧ (granuleWaits s (q.val, pos) c.pkt g = false → regionOf (gDst c.pkt + 2048 * g) ≠ .host →
      (pOp c.pkt = 0x18 → regionOf (gSrc c.pkt + 2048 * g) ≠ .host → accessFault s (gSrc c.pkt + 2048 * g) 2048 = none →
        outputFault s (gDst c.pkt + 2048 * g) 2048 = none →
        ∃ t d, exec (.granuleComplete q pos g) s = .next t
          ∧ t.readBytes (gDst c.pkt + 2048 * g) 2048 = s.readBytes (gSrc c.pkt + 2048 * g) 2048
          ∧ s.memOutside t (gDst c.pkt + 2048 * g) 2048 ∧ t.cmd? (q.val, pos) = some d
          ∧ d.eng? = some { e with doneBits := e.doneBits.set g true } ∧ s.onlyIn [.cp, .mem] t)
      ∧ (pOp c.pkt = 0x19 → outputFault s (gDst c.pkt + 2048 * g) 2048 = none →
        ∃ t d, exec (.granuleComplete q pos g) s = .next t
          ∧ (∀ i < 2048, t.mem.read (gDst c.pkt + 2048 * g + i) = BitVec.ofNat 8 (gPattern c.pkt / 256 ^ (i % 16)))
          ∧ s.memOutside t (gDst c.pkt + 2048 * g) 2048 ∧ t.cmd? (q.val, pos) = some d
          ∧ d.eng? = some { e with doneBits := e.doneBits.set g true } ∧ s.onlyIn [.cp, .mem] t)
      ∧ (∀ x, pOp c.pkt = 0x19 → outputFault s (gDst c.pkt + 2048 * g) 2048 = some x →
        ∃ t d, exec (.granuleComplete q pos g) s = .next t ∧ t.cmd? (q.val, pos) = some d ∧ d.conds = c.conds ++ [x]
          ∧ d.eng? = some { e with halted := true } ∧ s.onlyIn [.cp] t))

/-- Responses of the far tier (R348-R350, R355, R406, R463): a Cmp of a SPILL granule counts towards its 32 and as 64 bytes written
to the module; with all 32 the granule's bytes are on the module and it is done; a good MemData of a RELOAD granule counts, a
poisoned one logs the lost data and ends the command with the address of its 64 bytes, and of a LOST extent any ends it with the
serial number. The count of requests is the model's own (log 29, log 36). -/
def Obligations.FarResponses : Prop :=
  ∀ (q : QIx) (pos g : Nat) (s : State) (c : Cmd) (e : Eng), s.cmd? (q.val, pos) = some c → c.body = .engine e → c.ended = false →
    unitsRun s = true → (s.ctx (ctxOf q)).mode = .active → e.halted = false →
    (∀ x, pOp c.pkt = 0x28 → e.cur = some x → extentIdx (farGranule c.pkt g) = x.idx → e.isDone g = false →
      ((aget e.cmps g).getD 0 < 32 → exec (.cxlResponse q pos g .cmp) s
        = .next ((s.onEng (q.val, pos) (fun y => { y with cmps := aput y.cmps g ((aget e.cmps g).getD 0 + 1) })).addWear
            (serialAt s x.port) 1))
      ∧ (aget e.cmps g = some 32 → accessFault s (gSrc c.pkt + 2048 * g) 2048 = none →
        (∃ j < e.granules, extentIdx (farGranule c.pkt j) = x.idx ∧ j ≠ g ∧ e.isDone j = false) → x.whole = true →
        ∃ t d, exec (.farWriteComplete q pos g) s = .next t ∧ t.cmd? (q.val, pos) = some d
          ∧ d.eng? = some { e with cmps := adel e.cmps g, doneBits := e.doneBits.set g true }
          ∧ t.far = (s.farWrite x.port x.place ((farGranule c.pkt g - farBase) % 0x100000)
              (s.readBytes (gSrc c.pkt + 2048 * g) 2048)).far
          ∧ s.onlyIn [.cp, .far] t))
    ∧ (pOp c.pkt = 0x29 → e.nextGranule = some g →
      (farLost s (farGranule c.pkt g) 2048 = none →
        ((aget e.cmps g).getD 0 < 31 → exec (.cxlResponse q pos g (.memData false)) s
          = .next (s.onEng (q.val, pos) (fun y => { y with cmps := aput y.cmps g ((aget e.cmps g).getD 0 + 1) })))
        ∧ (badByte s (farGranule c.pkt g + 64 * (aget e.cmps g).getD 0) 1 = none →
          s.mem.badLine false (farGranule c.pkt g + 64 * (aget e.cmps g).getD 0) 1 = none →
          ∃ t d, exec (.cxlResponse q pos g (.memData true)) s = .next t ∧ t.cmd? (q.val, pos) = some d
            ∧ d.ended = e.awaiting.isEmpty
            ∧ d.conds = c.conds ++ [⟨.memoryUnrecoverable, farGranule c.pkt g + 64 * (aget e.cmps g).getD 0⟩]
            ∧ t.log.nextSeq = (s.log.nextSeq + 1) % 2 ^ 32))
      ∧ (∀ x b, farLost s (farGranule c.pkt g) 2048 = some x →
        ∃ t d, exec (.cxlResponse q pos g (.memData b)) s = .next t ∧ t.cmd? (q.val, pos) = some d
          ∧ d.ended = e.awaiting.isEmpty ∧ d.conds = c.conds ++ [x] ∧ s.onlyIn [.cp] t))

/-- Far-tier modules come and go (R344-R346, R350, R352, R355, R356): a lost link makes the module's extents LOST under its serial number
and no others, and empties its port; a module on a wired empty port is attached with its ledger entry PRESENT, and at most 8 TiB in
all are used; of the answers of the configuration sideband a health report is kept, at most 100, an identification gives the
capacities, the serial number held changes nothing of the map, and another serial number is another module: the extents of the one
held are LOST. -/
def Obligations.ModulesComeAndGo : Prop :=
  ∀ (p : PIx) (s : State),
    (vget s.far.modules p = none → exec (.linkDown p) s
      = .next (s.onFar (fun f => { f with linkUp := vmod f.linkUp p (fun _ => false) })))
    ∧ (∀ m, vget s.far.modules p = some m → ∃ t, exec (.linkDown p) s = .next t ∧ vget t.far.linkUp p = false
      ∧ vget t.far.modules p = none
      ∧ t.far.map = s.far.map.map (fun e => if e.port = p.val ∧ e.lost = none then { e with lost := some m.serial } else e)
      ∧ (∀ x, x / 2 ^ 43 ≠ p.val → cellGet t.far.cells x = cellGet s.far.cells x)
      ∧ s.onlyIn [.svc, .log, .cp, .mem, .far, .mirror] t)
    ∧ (∀ m, portWired s p = true → vget s.far.modules p = none → s.blk.mode ≠ .starting → s.blk.mode ≠ .failed →
      ∃ t u, exec (.moduleAttach p m) s = .next t
      ∧ vget t.far.modules p = some u ∧ u.serial = m.serial ∧ u.capGib = capUsed s p (m.volGib + m.persGib)
      ∧ vget t.far.linkUp p = true
      ∧ (∃ i < 16, (vget t.far.wear i).serial = m.serial ∧ (vget t.far.wear i).state = 1 ∧ (vget t.far.wear i).port = p.val)
      ∧ t.far.map = s.far.map ∧ s.onlyIn [.svc, .log, .mem, .far, .mirror] t)
    ∧ (∀ m, vget s.far.modules p = some m →
      (∀ l, ∃ t u, exec (.cfgResponse p (.health l)) s = .next t ∧ vget t.far.modules p = some u ∧ u.lifeUsed = min 100 l
        ∧ u.serial = m.serial ∧ t.far.map = s.far.map ∧ s.onlyIn [.svc, .log, .mem, .far, .mirror] t)
      ∧ (∀ vol pers, ∃ t u, exec (.cfgResponse p (.identify vol pers)) s = .next t ∧ vget t.far.modules p = some u
        ∧ u.volGib = vol ∧ u.persGib = pers ∧ u.capGib = capUsed s p (vol + pers) ∧ u.serial = m.serial
        ∧ t.far.map = s.far.map ∧ s.onlyIn [.svc, .log, .mem, .far, .mirror] t)
      ∧ (∀ v, v % 2 ^ 64 = m.serial → ∃ t u, exec (.cfgResponse p (.serial v)) s = .next t ∧ vget t.far.modules p = some u
        ∧ u.serial = m.serial ∧ t.far.map = s.far.map ∧ s.onlyIn [.svc, .log, .mem, .far, .mirror] t)
      ∧ (∀ v, v % 2 ^ 64 ≠ m.serial → ∃ t u, exec (.cfgResponse p (.serial v)) s = .next t ∧ vget t.far.modules p = some u
        ∧ u.serial = v % 2 ^ 64
        ∧ t.far.map = s.far.map.map (fun e => if e.port = p.val ∧ e.lost = none then { e with lost := some m.serial } else e)
        ∧ s.onlyIn [.svc, .log, .cp, .mem, .far, .mirror] t))

/-! Frames. -/

/-- Frames that arrive (R3, R364-R368, R462): a sound frame with a new FSEQ in its hop's window is accepted, and held for its context
unless a clause of R366 discards it, which is logged with the clause; a hop without an epoch asks for a SYNC, once in 2 µs; an END
takes its FSEQ only, and is logged when a clause discards it. A frame for which its context's share has no room was sent against
XR_STOP: only its own hop and no held frame is affected (the model's choice, log 63). -/
def Obligations.FramesArrive : Prop :=
  ∀ (raw : List Byte) (s : State), frameTaken s raw = true → hHop (hdrOf raw) ≤ 8 →
    (hType (hdrOf raw) ≠ 3 → (s.rxHop (hHop (hdrOf raw))).epoch.isSome →
      (hFseq (hdrOf raw) + 2 ^ 32 - (s.rxHop (hHop (hdrOf raw))).base) % 2 ^ 32 < 4096 →
      (s.rxHop (hHop (hdrOf raw))).accepted.contains (hFseq (hdrOf raw)) = false →
      (rejectClause s (hdrOf raw) = none → shareBytes s (hCtx (hdrOf raw)) + raw.length ≤ 0x100000 →
        ∃ u, u = s.onRx (hHop (hdrOf raw)) (·.accept (hFseq (hdrOf raw))) ∧ exec (.inboundFrame raw) s
          = .next ((u.holdFrame (hdrOf raw) (raw.drop 64)).ackIfDue (hHop (hdrOf raw))))
      ∧ (∀ x, rejectClause s (hdrOf raw) = some x →
        ∃ u, u = s.onRx (hHop (hdrOf raw)) (·.accept (hFseq (hdrOf raw))) ∧ exec (.inboundFrame raw) s
          = .next ((u.logRec { event := 0x19, action := 8, kind := 9, unit := hHop (hdrOf raw), d0 := x }).ackIfDue
              (hHop (hdrOf raw)))))
    ∧ (hType (hdrOf raw) ≠ 3 → rejectClause s (hdrOf raw) = none →
      0x100000 < shareBytes s (hCtx (hdrOf raw)) + raw.length →
      ∃ t, exec (.inboundFrame raw) s = .next t ∧ t.xch.held = s.xch.held
        ∧ (∀ h, h ≠ hHop (hdrOf raw) → t.rxHop h = s.rxHop h) ∧ s.onlyIn [.free, .xch] t)
    ∧ (hType (hdrOf raw) ≠ 3 → (s.rxHop (hHop (hdrOf raw))).epoch = none →
      (s.rxHop (hHop (hdrOf raw))).asked = false →
      (rejectClause s (hdrOf raw) = none → shareBytes s (hCtx (hdrOf raw)) + raw.length ≤ 0x100000) →
      ∃ t, exec (.inboundFrame raw) s = .next t ∧ (t.rxHop (hHop (hdrOf raw))).asked = true ∧ t.xch.held = s.xch.held
        ∧ t.xch.out.length = s.xch.out.length + 1 ∧ s.onlyIn [.xch] t)
    ∧ (hType (hdrOf raw) = 3 → hSub (hdrOf raw) = 3 → (s.rxHop (hHop (hdrOf raw))).epoch.isSome →
      (hFseq (hdrOf raw) + 2 ^ 32 - (s.rxHop (hHop (hdrOf raw))).base) % 2 ^ 32 < 4096 →
      (s.rxHop (hHop (hdrOf raw))).accepted.contains (hFseq (hdrOf raw)) = false →
      ∃ u, u = s.onRx (hHop (hdrOf raw)) (·.accept (hFseq (hdrOf raw)))
        ∧ (rejectClause s (hdrOf raw) = none → ∃ t, exec (.endFrame raw) s = .next t ∧ t.xch.held = s.xch.held
          ∧ s.onlyIn [.xch] t ∧ t = u.ackIfDue (hHop (hdrOf raw)))
        ∧ (∀ x, rejectClause s (hdrOf raw) = some x → exec (.endFrame raw) s
          = .next ((u.logRec { event := 0x19, action := 8, kind := 9, unit := hHop (hdrOf raw), d0 := x }).ackIfDue
              (hHop (hdrOf raw)))))

/-- ACK, SYNC and SYNC requests (R363-R366, R373): an ACK that no clause of R366 discards frees every frame up to its FSEQ, and
waiting FRAME_SENDs go on; a SYNC of a new epoch begins the window at BASE and is acknowledged with BASE − 1; a request is answered
with a SYNC from the oldest unacknowledged FSEQ. One that a clause discards is logged with the clause and does not change its hop;
such a SYNC is acknowledged all the same. -/
def Obligations.FrameControl : Prop :=
  ∀ (raw : List Byte) (s : State) (h w : Nat), frameTaken s raw = true → hType (hdrOf raw) = 3 → h = hHop (hdrOf raw) → h ≤ 8 →
    w = leNat ((raw.drop 64).take 8) →
    (rejectClause s (hdrOf raw) = none →
      (hSub (hdrOf raw) = 1 → w < 2 ^ 32 → (s.txHop h).syncOut = false → ∃ u, exec (.ack raw) s = .next u.sendAll
        ∧ (u.txHop h).buf = (s.txHop h).buf.filter (fun f => f.sync || decide (2 ^ 31 ≤ (w + 2 ^ 32 - f.fseq) % 2 ^ 32))
        ∧ u.xch.held = s.xch.held ∧ s.onlyIn [.cp, .xch] u)
      ∧ (hSub (hdrOf raw) = 1 → w = 0xFFFFFFFF * 2 ^ 32 → ∃ t, exec (.syncRequest raw) s = .next t
        ∧ (t.txHop h).syncOut = true ∧ (t.txHop h).synced = false ∧ t.xch.out.length = s.xch.out.length + 1 ∧ s.onlyIn [.xch] t
        ∧ (t.txHop h).buf.filter (fun f => !f.sync) = (s.txHop h).buf.filter (fun f => !f.sync))
      ∧ (hSub (hdrOf raw) = 2 → (s.rxHop h).epoch ≠ some (w % 2 ^ 32) → ∃ t, exec (.sync raw) s = .next t
        ∧ (t.rxHop h).epoch = some (w % 2 ^ 32) ∧ (t.rxHop h).base = w / 2 ^ 32 ∧ (t.rxHop h).accepted = []
        ∧ t.xch.out.length = s.xch.out.length + 1 ∧ s.onlyIn [.xch] t))
    ∧ (∀ x u, rejectClause s (hdrOf raw) = some x →
      u = s.logRec { event := 0x19, action := 8, kind := 9, unit := h, d0 := x } →
      (hSub (hdrOf raw) = 1 → exec (.ack raw) s = .next u ∧ exec (.syncRequest raw) s = .next u)
      ∧ (hSub (hdrOf raw) = 2 → exec (.sync raw) s = .next (u.sendAck h (w / 2 ^ 32 + 2 ^ 32 - 1) false)))

/-- The timers of the hops (R360, R364, R365, R377): what is unacknowledged after 2 µs is acknowledged; a frame unacknowledged for 10 µs is
sent again up to 4 times and then dropped, with a record and the interrupt; a receiver's TIMEOUT ends it with FRAME_TIMEOUT and its
counts; the direct lanes' state is kept. -/
def Obligations.HopTimers : Prop :=
  ∀ (h : HIx) (s : State), xchRuns s = true →
    (∃ t, exec (.ackSend h) s = .next t ∧ (t.rxHop h).unacked = 0 ∧ (t.rxHop h).asked = false ∧ (t.rxHop h).base = (s.rxHop h).base
      ∧ t.xch.out.length = s.xch.out.length + (if (s.rxHop h).unacked = 0 then 0 else 1) ∧ s.onlyIn [.xch] t)
    ∧ (∀ n f, (s.txHop h).syncOut = false → (s.txHop h).synced = true →
      (s.txHop h).buf.find? (fun f => !f.sync && f.fseq == n) = some f →
      (f.resends < 4 → ∃ t, exec (.frameResendTimeout h n) s = .next t ∧ t.xch.out.length = s.xch.out.length + 1
        ∧ (t.txHop h).buf = (s.txHop h).buf.map (fun x => if x = f then { x with resends := x.resends + 1 } else x)
        ∧ s.onlyIn [.xch] t)
      ∧ (4 ≤ f.resends → ∃ u : State, exec (.frameResendTimeout h n) s = .next u.sendAll ∧ bitOf u.svc.irq 3 = true
        ∧ (u.txHop h).buf = (s.txHop h).buf.filter (· != f) ∧ u.log.nextSeq = (s.log.nextSeq + 1) % 2 ^ 32))
    ∧ (∀ (q : QIx) pos c f, s.cmd? (q.val, pos) = some c → c.body = .frame f → c.ended = false → pOp c.pkt = 0x21 ∨ pOp c.pkt = 0x22 →
      frTimeout c.pkt ≠ 0 → (s.ctx (ctxOf q)).mode = .active →
      exec (.receiverTimeout q pos) s = .next (s.onCmd (q.val, pos) (fun c => { c with
        ended := true, conds := c.conds ++ [⟨.frameTimeout, f.accepted + putBits f.expected 32 32⟩] })))
    ∧ (∀ (i : Fin 8) up, ∃ t, exec (.peerLinkUp i up) s = .next t
      ∧ vget t.xch.peers i = ((vget s.xch.peers i).1, (vget s.xch.peers i).2.1, up)
      ∧ (∀ j, j ≠ i.val → vget t.xch.peers j = vget s.xch.peers j) ∧ s.onlyIn [.xch] t)

/-! The host port. -/

/-- The host port. Host accesses (R454, R455, R471): one within the port's framing is answered with its tag: OK with the bytes of
a read, or with the bytes STRB names written and no other; RANGE outside near memory or on a write to the block region;
UNAVAILABLE while the block takes no access. A request outside the framing breaks an obligation of the integrator: it is answered
with its tag, and nothing but the port's response is affected (R3; status and data are free values, log 43).
Answers to the block's own requests (R305, R457): the oldest request of the sender leaves the port; an OK ends a SIGNAL, and any
other code ends it with MEMORY_UNRECOVERABLE and the address; the image of a SERVICE_CMD run is taken, or its run ends with STATUS
0x40; with no request out nothing happens. The address may stand anywhere in its 2 KiB (the model's reading, log 43). -/
def Obligations.HostPort : Prop :=
  (∀ (addr beats tag : Nat) (data : List Byte) (strb : List Bool) (s : State),
      (1 ≤ beats → beats ≤ 32 → addr < 2 ^ 48 → tag < 1024 → addr % 2048 + 64 * beats ≤ 2048 →
        (hostAway s = false → hostRange s addr (64 * beats) false = true → readFault s addr (64 * beats) = none →
          exec (.hostAccessRequest addr false beats tag [] [] none) s = .next (s.hostRsp tag 0 (s.readBytes addr (64 * beats))))
        ∧ (hostAway s = false → hostRange s addr (64 * beats) true = true → data.length = 64 * beats → strb.length = 64 * beats →
          ∃ t, exec (.hostAccessRequest addr true beats tag data strb none) s = .next t ∧ t.port.hinTag = tag ∧ t.port.hinStatus = 0
            ∧ (∀ i < 64 * beats, t.mem.read (addr + i) = if strb.getD i false then data.getD i 0 else s.mem.read (addr + i))
            ∧ s.memOutside t addr (64 * beats) ∧ s.onlyIn [.mem, .port] t)
        ∧ (hostAway s = false → hostRange s addr (64 * beats) false = false →
          exec (.hostAccessRequest addr false beats tag [] [] none) s = .next (s.hostRsp tag 1 []))
        ∧ (hostAway s = true → exec (.hostAccessRequest addr false beats tag [] [] none) s = .next (s.hostRsp tag 2 [])))
      ∧ (∀ wr up, beats = 0 ∨ 32 < beats ∨ 2 ^ 48 ≤ addr ∨ 1024 ≤ tag ∨ 2048 < addr % 2048 + 64 * beats
            ∨ (wr = true ∧ (data.length ≠ 64 * beats ∨ strb.length ≠ 64 * beats)) →
        ∃ t, exec (.hostAccessRequest addr wr beats tag data strb up) s = .next t ∧ t.port.hinTag = tag
          ∧ t.port.hout = s.port.hout ∧ s.onlyIn [.free, .port] t))
  ∧ (∀ (s : State) (r : OutReq),
      (∀ (q : QIx) pos c a (st : Fin 4), s.port.hout.find? (OutReq.of (.command q pos)) = some r → r.key = some (q.val, pos) → r.write = true →
        s.cmd? (q.val, pos) = some c → c.body = .signal a →
        ∃ t d, exec (.hostOutboundResponse (.command q pos) st []) s = .next t ∧ t.port.hout = s.port.hout.erase r
          ∧ t.cmd? (q.val, pos) = some d ∧ d.ended = true
          ∧ d.conds = c.conds ++ (if st = 0 then [] else [⟨.memoryUnrecoverable, r.addr⟩]) ∧ s.onlyIn [.cp, .port] t)
      ∧ (∀ data, s.port.hout.find? (OutReq.of .service) = some r → r.key = none → r.write = false →
        (data.length = r.len → ∃ t, exec (.hostOutboundResponse .service 0 data) s = .next t ∧ t.svc.image = some (leNat data)
          ∧ t.port.hout = s.port.hout.erase r ∧ s.onlyIn [.svc, .port] t)
        ∧ (data.length ≠ r.len → ∃ t, exec (.hostOutboundResponse .service 0 data) s = .next t ∧ t.svc.image.isSome
          ∧ t.port.hout = s.port.hout.erase r ∧ s.onlyIn [.free, .svc, .port] t)
        ∧ (∃ t, exec (.hostOutboundResponse .service 1 data) s = .next t ∧ t.svc.busy = false ∧ t.svc.status = 0x40
          ∧ bitOf t.svc.irq 2 = true ∧ s.onlyIn [.free, .svc, .port] t))
      ∧ (∀ src st data, s.port.hout.find? (OutReq.of src) = none → exec (.hostOutboundResponse src st data) s = .next s))

/-! The error log and the long word. -/

/-- Records (R405): a record with ACTION 1, 4, 5, 6 or 7, and every REPLACE (0x20), FAR_LIFE (0x1A) or TOP_OVERWRITE (0x13) record, is in
the log, at the index of its sequence number, and the service interrupt is raised; any other record leaves SVC_IRQ alone. -/
def Obligations.RecordsRaise : Prop :=
  ∀ (s : State) (r : Rec),
    aget (s.logRec r).log.recs s.log.wr = some (recWord s.log.nextSeq s.kpr.sample r)
    ∧ (s.logRec r).log.wr = (s.log.wr + 1) % 1024 ∧ (s.logRec r).log.nextSeq = (s.log.nextSeq + 1) % 2 ^ 32
    ∧ (r.action = 1 ∨ r.action = 4 ∨ r.action = 5 ∨ r.action = 6 ∨ r.action = 7 ∨ r.event = 0x20 ∨ r.event = 0x1A ∨ r.event = 0x13 →
      bitOf (s.logRec r).svc.irq 0 = true)
    ∧ (¬ (r.action = 1 ∨ r.action = 4 ∨ r.action = 5 ∨ r.action = 6 ∨ r.action = 7 ∨ r.event = 0x20 ∨ r.event = 0x1A
        ∨ r.event = 0x13) → (s.logRec r).svc = s.svc)
    ∧ s.onlyIn [.svc, .log, .mem, .mirror] (s.logRec r)

/-- Long words (R45): one of class POS_INF, NEG_INF or NAN is written with bits [125:0] zero, and of one whose class is not FINITE only
bits [127:126] are read; a FINITE word reads back as it was written (R44, R47). -/
def Obligations.LongWordCodes : Prop :=
  (∀ (s : State) (a : Nat) (x : LW), x.cls ≠ .finite → bitsOf ((s.store a (lwBytes x)).readNat a 16) 125 0 = 0
    ∧ bitsOf ((s.store a (lwBytes x)).readNat a 16) 127 126 = x.cls.code)
  ∧ (∀ w v : Nat, bitsOf w 127 126 ≠ 0 → bitsOf v 127 126 = bitsOf w 127 126 → lwDecode v = lwDecode w)
  ∧ (∀ (s : State) (a : Nat) (v : BitVec 126), lwDecode ((s.store a (lwBytes ⟨.finite, v⟩)).readNat a 16) = ⟨.finite, v⟩)

/-! Stacks. -/

/-- Errors of the stacks (R318, R325-R331, R407): an access that meets up to four interface parity errors is retried and logged; a
fifth failure loses the channel, and parity maps it out: TOP falls to the base of its relocation range. An uncorrectable slot that
an access meets is rebuilt from its stripe and logged with its granule, or without parity its granule is bad from then on; the
slot of a granule's own place is the granule's. A finished rebuild has moved every slot that its stripe could form; while a stack of
the stripe is fenced it waits. Writing the write buffers of a stripe out changes no byte that is read. The patrol scrub goes on to
the next stripe. Timing windows are counted in samples, and a rebuild that waits is the model's reading (log 42, log 79). -/
def Obligations.StackErrors : Prop :=
  ∀ (s : State), blkRuns s = true →
    (∀ (x : SIx) (c : Fin 32) (n a : Nat), stackServes s x = true → (s.stack x).lost.contains c.val = false →
      (1 ≤ n → n ≤ 4 →
        ((s.stack x).retries.filter (fun r => r.1 == c.val && decide (s.kpr.sample < r.2 + 100))).length < 15 →
        ∃ t, exec (.phyParityError x c n a) s = .next t
          ∧ Logs s t { event := 0x10, action := 0, kind := 8, unit := x * 32 + c, d0 := a / 2048 * 2048 }
          ∧ t.stack x = { s.stack x with
              retries := (c.val, s.kpr.sample) :: (s.stack x).retries.filter (fun r => decide (s.kpr.sample < r.2 + 100)) }
          ∧ s.onlyIn [.log, .mem, .stks, .mirror] t)
      ∧ (5 ≤ n → ((s.stack x).lostAt.filter (fun t => decide (s.kpr.sample ≤ t + 1))).length < 31 →
        (s.map.parity = true → s.map.outs.length < 8 →
          ∃ t o, exec (.phyParityError x c n a) s = .next t ∧ (t.stack x).lost = (s.stack x).lost ++ [c.val]
            ∧ t.map.outs = s.map.outs ++ [o] ∧ o.stack = x.val ∧ o.chan = c.val ∧ o.moved = 0
            ∧ t.map.top = o.base ∧ o.base ≤ s.map.top ∧ t.blk.mapList = t.map.outs ∧ bitOf t.svc.irq 0 = true)
        ∧ (s.map.parity = false →
          ∃ t, exec (.phyParityError x c n a) s = .next t ∧ (t.stack x).lost = (s.stack x).lost ++ [c.val] ∧ t.map = s.map)))
    ∧ (∀ (x : SIx) (c : Fin 32) (a slot : Nat) (g : Option Nat), regionOf a = .near → badByte s a 1 = none →
      stackServes s x = true → (s.stack x).lost.contains c.val = false → touchedSlot s x c (a / 2048) = some slot →
      g = granuleOf s.map slot (chanMember s.map.profile x c).1 (chanMember s.map.profile x c).2 →
      (s.map.parity = false → ∀ ok y, g = some y → exec (.stackUncorrectable x c a ok) s
        = .next (s.onMem (fun m => { m with bad := nput m.bad y })))
      ∧ (s.map.parity = true →
        (∀ y ∈ members s.map (chanMember s.map.profile x c).1, y ≠ (x.val, c.val) → memberReadable s y slot = true) →
        ∃ t, exec (.stackUncorrectable x c a true) s = .next t
          ∧ Logs s t { event := 0x10, action := 0, kind := 8, unit := x * 32 + c, d0 := g.getD (slot * rowGranules s.map) * 2048 }
          ∧ s.onlyIn [.log, .mem, .mirror] t))
    ∧ (∀ g, touchedSlot s (place s.map g).stack (place s.map g).chan g = some (place s.map g).slot
        ∧ granuleOf s.map (place s.map g).slot (chanMember s.map.profile (place s.map g).stack (place s.map g).chan).1
            (chanMember s.map.profile (place s.map g).stack (place s.map g).chan).2 = some g)
    ∧ (s.map.rebuilds = true → ∀ o, s.map.outs.find? (fun o => !o.rebuilt) = some o →
      (rebuildWaits s o = false → ∃ t, exec .rebuildDone s = .next t
        ∧ t.map = { s.map with outs := s.map.outs.map (fun y => if y = o then rebuiltOut s o else y) }
        ∧ ((∀ y ∈ otherMembers s o, (s.stack y.1).fence ≠ .dead ∧ (s.stack y.1).lost.contains y.2 = false) →
          rebuiltOut s o = { o with moved := s.map.slots, gaps := [], rebuilt := true })
        ∧ t.blk = { s.blk with mapList := t.map.outs } ∧ s.onlyIn [.blk, .log, .mem, .map, .mirror] t)
      ∧ (rebuildWaits s o = true → exec .rebuildDone s = .next s))
    ∧ (∀ k, ∃ t, exec (.stripeGatherExpiry k) s = .next t ∧ s.onlyIn [.mem] t ∧ (s.sound → s.memSame t)
        ∧ (∀ a, stripeOf s.map (a / 2048) = k → s.mem.parked.contains (lineOf a) = false →
          (s.stack (effPlace s (a / 2048)).stack).fence.away = false → writeFault s a 1 = none → cellGet t.mem.dirty a = none))
    ∧ (rebuilding s = false → s.map.slots ≠ 0 → exec (.patrolScrub none) s
        = .next (s.onMap (fun m => { m with patrol := (m.patrol + 1) % (m.slots * groupCount m.profile) })))

/-- Fences and returns of a stack (R335, R337, R340-R342): a complete fence is logged with the level; 100 cool samples bring the
level down by one, and a fenced stack that leaves HOT begins its return with parity and clears its fence without; phase 1 clears
the marks, phase 2 writes the stack's parked lines back to it, FENCED clears with no line parked for it, and near memory reads as
before; a stack that does not respond in either phase is DEAD. What a DEAD stack's map-outs become is the model's reading
(log 42). -/
def Obligations.StackFences : Prop :=
  ∀ (x : SIx) (s : State),
    ((s.stack x).fence = .fencing ∨ (s.stack x).fence = .refencing → ∃ t, exec (.stackFenceComplete x) s = .next t
      ∧ t.stack x = { s.stack x with fence := .fenced } ∧ (∀ y, y ≠ x.val → t.stack y = s.stack y)
      ∧ Logs s t { event := 0x14, action := 5, kind := 7, unit := x, d0 := (s.stack x).level.code }
      ∧ s.onlyIn [.svc, .log, .mem, .stks, .mirror] t)
    ∧ ((s.stack x).cool < 100 → exec (.stackLevelFall x) s = .next s)
    ∧ (100 ≤ (s.stack x).cool → ∃ t, exec (.stackLevelFall x) s = .next t ∧ s.onlyIn [.stks, .map] t
      ∧ (∀ y, y ≠ x.val → t.stack y = s.stack y)
      ∧ ((s.stack x).level = .critical → t.stack x = { s.stack x with level := .hot, cool := 0 } ∧ t.map = s.map)
      ∧ ((s.stack x).level = .warm → t.stack x = { s.stack x with level := .normal, cool := 0 } ∧ t.map = s.map)
      ∧ ((s.stack x).level = .hot →
        (s.stack x).fence = .fenced ∨ (s.stack x).fence = .fencing ∨ (s.stack x).fence = .refencing →
        (s.map.parity = true → t.stack x = { s.stack x with level := .warm, cool := 0, fence := .return1 } ∧ t.map = s.map)
        ∧ (s.map.parity = false → t.stack x = { s.stack x with level := .warm, cool := 0, fence := .none }
          ∧ t.map = { s.map with fenced := s.map.fenced.erase x })))
    ∧ (blkRuns s = true → (s.stack x).fence = .return1 →
      (∃ t, exec (.stackReturnPhase1End x true) s = .next t ∧ t.stack x = { s.stack x with fence := .return2 }
        ∧ t.mem = { s.mem with marks := s.mem.marks.filter (fun y => y.1 != x.val) } ∧ s.onlyIn [.mem, .stks] t)
      ∧ (∃ t, exec (.stackReturnPhase1End x false) s = .next t ∧ (t.stack x).fence = .dead ∧ t.map.fenced.contains x.val = true
        ∧ (∀ o ∈ t.map.outs, o.stack ≠ x.val) ∧ bitOf t.svc.irq 0 = true))
    ∧ (blkRuns s = true → (s.stack x).fence = .return2 →
      (∃ t, exec (.stackReturnComplete ⟨x, true⟩) s = .next t
        ∧ t.stack x = { s.stack x with fence := .none } ∧ t.map = { s.map with fenced := s.map.fenced.erase x }
        ∧ (∀ l ∈ t.mem.parked, lineStack s l ≠ x.val) ∧ (s.sound → s.memSame t)
        ∧ (∀ a, s.mem.parked.contains (lineOf a) = true → lineStack s (lineOf a) = x.val → cellGet t.mem.dirty a = none)
        ∧ s.onlyIn [.mem, .stks, .map] t)
      ∧ (∃ t, exec (.stackReturnComplete ⟨x, false⟩) s = .next t ∧ (t.stack x).fence = .dead ∧ t.map.fenced.contains x.val = true
        ∧ bitOf t.svc.irq 0 = true))

/-! The keeper. -/

/-- The keeper (R395, R414-R425, R430, R471). A sample filters the readings, moves the charge budget by (P_LIMIT − P_s) × 10 µs within
[0, 300 J] (held in units of 10⁻¹¹ J), keeps every grade at or below the cap, and under an alarm takes code 120, cap 0 and no sprint at
once. A rising request moves by one code; sprint ends at its continuous limit; a throttle and an alarm clear after 100 cool
samples; three low readings of VDD_ARR end sprint and raise the alert; a sensor rejected three times has failed; a telemetry
record goes to its slot of the ring; the wear counters go to their mirror. When a sample runs and what it does below ACTIVE are
the model's readings (log 38, log 60), as are what the row of a record adds to it and the places in the keeper mirrors (log 90,
log 83). -/
def Obligations.KeeperRules : Prop :=
  ∀ (s : State),
    (∀ x : Sample, s.start.stage ≠ 0 → ∃ t, exec (.keeperSample x) s = .next t ∧ t.kpr.sample = (s.kpr.sample + 1) % 2 ^ 48
      ∧ t.kin.sensors = List.zipWith filterReading s.kin.sensors x.thermal ∧ t.kpr.tHot = hotSpot t.kin.sensors s.kpr.tHot
      ∧ t.kin.recent = (samplePower x :: s.kin.recent).take 10
      ∧ t.kin.budget = min 30000000000000 (s.kin.budget + s.kpr.pLimit * 1000000 - samplePower x)
      ∧ (∀ c < 8, (t.core c).grade ≤ t.kpr.gradeCap)
      ∧ (x.chipAlarm = true ∨ 105 ≤ t.kpr.tHot → t.kin.alarm = true ∧ t.kpr.throttle = 3 ∧ t.kpr.gradeCap = 0
        ∧ t.kpr.sprintOn = false ∧ (s.pwr.state = .active ∨ s.pwr.state = .arraysOff → t.kpr.vReq ≤ 120)))
    ∧ (s.kpr.vReq < s.kpr.vTarget → ∃ t, exec .voltageStep s = .next t ∧ t.kpr = { s.kpr with vReq := s.kpr.vReq + 1 }
      ∧ s.onlyIn [.kpr, .kin] t)
    ∧ (s.kpr.vTarget ≤ s.kpr.vReq → exec .voltageStep s = .next s)
    ∧ (150000 ≤ s.kin.cont → s.kpr.sprintOn = true → ∃ t, exec .sprintContinuousLimit s = .next t ∧ t.kpr.sprintOn = false
      ∧ t.kpr.reason = 4 ∧ t.kpr.vReq = min s.kpr.vReq (sustCode s.kpr) ∧ t.kin.cont = 0 ∧ s.onlyIn [.kpr, .kin] t)
    ∧ (∃ t, exec .throttleClear s = .next t ∧ t.kin.thermal = (s.kin.thermal && decide (s.kin.coolThrottle < 100))
      ∧ t.kin.alarm = (s.kin.alarm && decide (s.kin.coolAlarm < 100)) ∧ s.onlyIn [.kpr, .kin] t)
    ∧ (3 ≤ s.kin.lowV → s.kin.vFault = false → ∃ t, exec .voltageMonitorAlarm s = .next t ∧ t.kin.vFault = true
      ∧ t.kpr.sprintOn = false ∧ keeperAlert t = true ∧ t.log.nextSeq = (s.log.nextSeq + 1) % 2 ^ 32)
    ∧ (∀ (i : Fin 96) v n f, s.kin.sensors[i.val]? = some (v, n, f) → ∃ t, exec (.sensorFailed i) s = .next t
      ∧ t.kin.sensors[i.val]? = some (v, n, f || decide (3 ≤ n)) ∧ (∀ j, j ≠ i.val → t.kin.sensors[j]? = s.kin.sensors[j]?)
      ∧ s.onlyIn [.kin] t)
    ∧ (blkRuns s = true → s.kpr.sample % 100 = 0 → ∀ v k work filler, ∃ t, exec (.telemetryRecord v k work filler) s = .next t
      ∧ t.readNat (0x0C040000 + 64 * (s.kpr.sample / 100 % 4096)) 64
        = telemetryWord (s.onKin (·.atRecord v k work filler)) % 256 ^ 64
      ∧ s.memOutside t (0x0C040000 + 64 * (s.kpr.sample / 100 % 4096)) 64
      ∧ t.kin.rateN = 0 ∧ t.kin.workN = 0 ∧ t.kin.fillN = 0 ∧ s.onlyIn [.kin, .mem] t)
    ∧ (blkRuns s = true → s.kpr.sample % 1000 = 0 → 2 < s.start.stage → ∃ t, exec .wearMirror s = .next t
      ∧ t.mirror = { s.mirror with sprintCs := s.kin.sprintCs, poweredS := s.kin.poweredS, ageS := s.kin.ageS }
      ∧ t.readNat 0x0C088000 8 = s.kin.sprintCs % 2 ^ 64 ∧ t.readNat 0x0C088008 8 = s.kin.poweredS % 2 ^ 64
      ∧ t.readNat 0x0C088010 8 = s.kin.ageS % 2 ^ 64 ∧ s.memOutside t 0x0C088000 24 ∧ s.onlyIn [.mem, .mirror] t)

/-- Grades, calibration and scrubs (R129-R131, R177, R385, R429): the grade of a core moves by one per interval, up to 8 and the
grade cap while it works, down while it does not and its hold window has passed; a delay margin that cannot be met raises
VMIN_TRIM by one code, or at 10 retires the core with its arrays; the tun scrub goes on to the next slot row, and a forced one
when its slot is next; the stage and cache scrub logs what it replaces or fetches again. The scrub position and the record of a
calibration are the model's readings (log 35, log 40). -/
def Obligations.GradesAndScrubs : Prop :=
  ∀ (c : KIx) (s : State),
    (arraysPowered s = true → (s.core c).inService = true →
      ∃ t, exec (.gradeInterval c) s = .next t ∧ s.onlyIn [.cores] t ∧ (∀ k, k ≠ c.val → t.core k = s.core k)
        ∧ (coreWorks s c = true → (t.core c).grade = min (min 8 s.kpr.gradeCap) ((s.core c).grade + 1))
        ∧ (coreWorks s c = false → (s.core c).holding = true → t.core c = s.core c)
        ∧ (coreWorks s c = false → (s.core c).holding = false → (t.core c).grade = (s.core c).grade - 1))
    ∧ (coreWorks s c = false → exec (.holdWindowExpiry c) s = .next (s.onCore c (fun k => { k with holding := false, dir := 2 })))
    ∧ (blkRuns s = true → (s.core c).inService = true →
      exec (.delayMarginCalibration c true) s = .next s
      ∧ (s.kpr.vminTrim < 10 → ∃ t, exec (.delayMarginCalibration c false) s = .next t
        ∧ t.kpr = { s.kpr with vminTrim := s.kpr.vminTrim + 1 } ∧ s.onlyIn [.free, .svc, .log, .kpr, .mem, .mirror] t)
      ∧ (10 ≤ s.kpr.vminTrim → ∃ t, exec (.delayMarginCalibration c false) s = .next t ∧ (t.core c).inService = false
        ∧ (∀ j < 4, (t.array (4 * c + j)).inService = false) ∧ t.kpr = s.kpr))
    ∧ (unitsRun s = true → (s.core c).inService = true →
      exec (.tunScrub c false) s = .next (s.onCore c (fun k => { k with scrub := (k.scrub + 1) % 8192 }))
      ∧ (∀ slot : Fin 32, (s.core c).scrub / 256 = slot.val →
        exec (.tunScrubForced c slot false) s = .next (s.onCore c (fun k => { k with scrub := (k.scrub + 1) % 8192 })))
      ∧ (∀ slot : Fin 32, (s.core c).scrub / 256 ≠ slot.val → exec (.tunScrubForced c slot false) s = .next s)
      ∧ exec (.stageScrub none) s = .next s
      ∧ (∀ x, ∃ t, exec (.stageScrub (some (.cache (.clean x)))) s = .next t
        ∧ Logs s t { event := 0x07, action := 0, kind := 6, unit := (Config.sliceOf (x / 128 * 128)).toNat, d0 := x / 128 * 128, d1 := 0 }
        ∧ s.onlyIn [.log, .mem, .mirror] t))

/-! Units. -/

/-- A unit takes work (R228, R234, R239): a draw fetch-adds NEXT of the chosen command: it claims that stage tile when it is below
LIMIT, else holds the ordinal, and past the last stage tile draws no more from it; a held ordinal is claimed once LIMIT has passed
it; a mailbox claim, or one the command processor has for the unit, is taken when it fits; a speculative copy goes to the mailbox
of an idle array. Which context and command are chosen among equals is the model's reading (log 13, log 21). -/
def Obligations.UnitsTakeWork : Prop :=
  ∀ (u : UIx) (s : State), unitFree s u = true → readyPaused s u = none →
    (s.mailOf u = none → s.holdOf u = none → s.placeFor u = none →
      ∀ (v : State) (n : Nat) (cmd : Cmd) (c : Comp), v = s.elect (coreOfUnit u) →
        chooseCtx v (v.core (coreOfUnit u)).v (eligibles v u) = some n → topCmd v u n = some cmd → cmd.comp? = some c →
        s.cmd? cmd.key = some cmd →
        ∃ t d, exec (.draw u) s = .next t ∧ t.comp? cmd.key = some d ∧ d.next = (c.next + 1) % 2 ^ 32 ∧ d.limit = c.limit
          ∧ (c.stop = false → c.next < c.limit → c.next < c.runs.length → ⟨cmd.key, c.next, .draw⟩ ∈ t.seedsOn u)
          ∧ (c.stop = false → c.limit ≤ c.next → c.next < c.stageCount → t.holdOf u = some (cmd.key, c.next))
          ∧ (c.stop = false → c.limit ≤ c.next → c.stageCount ≤ c.next → d.exhausted = true ∧ cmd.key ∈ t.noDrawOf u)
          ∧ (c.stop = true → cmd.key ∈ t.noDrawOf u))
    ∧ (∀ k o c, s.mailOf u = none → s.placeFor u = none → s.holdOf u = some (k, o) → s.comp? k = some c → c.stop = false → o < c.limit → o < c.runs.length →
      (32 ≤ u.val ∨ slotsFree s u (ctxOf k.1) c.desc = true) →
      ∃ t, exec (.draw u) s = .next t ∧ ⟨k, o, .draw⟩ ∈ t.seedsOn u ∧ t.holdOf u = none)
    ∧ (∀ sd, s.mailOf u = some sd → mailFits s u sd = true →
      ∃ t, exec (.mailboxTake u) s = .next t ∧ sd ∈ t.seedsOn u ∧ t.mailOf u = none)
    ∧ (∀ sd, s.mailOf u = none → s.placeFor u = some sd →
      ∃ t, exec (.mailboxTake u) s = .next t ∧ sd ∈ t.seedsOn u ∧ t.cp.unplaced = s.cp.unplaced.erase sd)
    ∧ (∀ (a : AIx) k o, a.val = u.val → s.cp.paused = false → s.start.skeleton = false → s.mailOf u = none →
      specChoice s a = some (k, o) → ∀ c, s.comp? k = some c → ∃ t d, exec (.speculativeCopy a) s = .next t
        ∧ t.mailOf u = some ⟨k, o, .speculation⟩ ∧ t.comp? k = some d ∧ d.specOut = c.specOut + 1
        ∧ s.memAbove t ∧ s.onlyIn [.cp, .arrays, .mem] t)

/-- Data arrives (R132, R133, R136, R145, R192, R217, R225, R253): a prefetch read with bytes that the walk needs fills its stage area,
and one without any changes nothing; a vector whose bytes are there is delivered, and in STREAM mode its row is then gone; a store
row, the weights of the K-block in progress, and a row of an extra stream are taken by the unit that waits for them. A read that
cannot be made ends the command. -/
def Obligations.DataArrives : Prop :=
  ∀ (s : State) (cmd : Cmd) (c : Comp), s.lives cmd.key = true →
    (∀ (a : AIx) cl, (s.array a).claim = some cl → s.claimCmd cl.seed = some (cmd, c) → arrayRuns s a = true →
      (∀ area addr len h, neededHull (c.needs cmd.pkt (s.array a) cl area) addr len = some h →
        (accessFault s h.1 h.2 = none → ∃ t, exec (.prefetchReadReturn a area addr len ⟨none, none⟩) s = .next t
          ∧ t.array a = { s.array a with stage := c.fillStage cmd.pkt (s.array a) cl area addr (s.bytesAt addr len) }
          ∧ (∀ b, b ≠ a.val → t.array b = s.array b) ∧ s.memSame t ∧ s.onlyIn [.arrays, .mem] t)
        ∧ (∀ e, accessFault s h.1 h.2 = some e → s.cmd? cmd.key = some cmd →
          ∃ t d, exec (.prefetchReadReturn a area addr len ⟨none, none⟩) s = .next t ∧ t.cmd? cmd.key = some d ∧ d.cut = true
            ∧ e ∈ d.conds))
      ∧ (∀ area addr len up, neededHull (c.needs cmd.pkt (s.array a) cl area) addr len = none →
        exec (.prefetchReadReturn a area addr len up) s = .next s)
      ∧ (∀ v vec, (vecsLeft cl (s.array a).vecs.length).head? = some v → c.deliver (s.array a).stage cmd.pkt v = some vec →
        ∃ x, exec (.feederVectorRead a none) s = .next (s.onArray a (fun y => { y with vecs := y.vecs ++ [vec], stage := x }))
          ∧ (actBuffers cmd.pkt c.desc = 0 → x.acts = []) ∧ x.norm = (s.array a).stage.norm ∧ x.affine = (s.array a).stage.affine
          ∧ x.exps = (s.array a).stage.exps ∧ x.weights = (s.array a).stage.weights))
    ∧ (∀ (h : Fin 16) cl, (s.half h).claim = some cl → s.claimCmd cl.seed = some (cmd, c) → unitsRun s = true →
      (∀ m r, m ∈ c.thinRows (pOp cmd.pkt) (c.thinTile cl.seed.ord) →
        spansFault s (c.storeSpans cmd.pkt (c.thinTile cl.seed.ord).f m) = none →
        c.storeRow (memRd s) cmd.pkt (c.thinTile cl.seed.ord).f m = some r →
        exec (.thinFetchArrival h (.store m)) s = .next (s.onHalf h (fun x => { x with
          store := r :: x.store.filter (fun y => y.idx != m) })))
      ∧ (∀ l, spansFault s (c.weightSpans cmd.pkt (c.thinTile cl.seed.ord) cl.b) = none →
        allSome ((c.thinCols (c.thinTile cl.seed.ord)).map (c.weightCol (memRd s) cmd.pkt (c.thinTile cl.seed.ord).f cl.b)) = some l →
        exec (.thinFetchArrival h (.weights cl.b)) s = .next (s.onHalf h (fun x => { x with wBlock := some cl.b, weights := l }))))
    ∧ (∀ (u : UIx) (i : Fin 3) (row : Nat) (d : Drain), s.drainsOf u = [d] → s.claimCmd d.seed = some (cmd, c) → unitsRun s = true →
      row < d.rows → d.complete = false → (streamsUsed cmd.pkt).contains i.val = true →
      d.fed.contains (i.val, feedRow cmd.pkt i row) = false → spansFault s (c.feedSpans cmd.pkt i (c.drainTile d) row) = none →
      ∃ t, exec (.extraInputStreamArrival u i row) s = .next t
        ∧ t.drainsOf u = [{ d with fed := (i.val, feedRow cmd.pkt i row) :: d.fed }] ∧ s.onlyIn [.arrays, .halves, .cores] t)

/-- Steps (R112-R123, R128, R129, R158, R159, R169, R247): an array without work takes a filler step, which changes nothing that a
result reads, and at grade 0 none; a load step puts its weight row in place; a work step whose row no drain has still to read
writes the contributions of its vector into the columns of its pass tile in the slot row, or adds them, and keeps every other row
and, where it adds, every column of another pass tile; a lane step of the thin path adds its contributions to the accumulators of its
row. Of near memory only the progress areas change. A group of the ward check that differs retires the array. -/
def Obligations.StepsAccumulate : Prop :=
  ∀ (s : State),
    (∀ (a : AIx), arrayRuns s a = true → s.kpr.gradeCap ≠ 0 →
      ((s.array a).claim = none → (s.core (a / 4)).grade = 0 → exec (.arrayStep a none) s = .next s)
      ∧ ((s.array a).claim = none → (s.core (a / 4)).grade ≠ 0 →
        exec (.arrayStep a none) s = .next (s.onKin (fun i => { i with fillN := i.fillN + 1 })))
      ∧ ((s.array a).claim = none → (s.core (a / 4)).grade ≠ 0 → ∀ g col d, g < 16 → d ≠ 0 →
        ∃ t, exec (.arrayStep a (some (.groupDiff g col d))) s = .next t
          ∧ (t.array a).inService = false ∧ (t.array a).wardFails = (s.array a).wardFails + 1)
      ∧ (∀ cl cmd c, (s.array a).claim = some cl → s.claimCmd cl.seed = some (cmd, c) → s.lives cmd.key = true →
        (∀ o r x, cl.todo = .load o :: r → r ≠ [] → c.loadStep (s.array a) cmd.pkt o = some x →
          ∃ t n, exec (.arrayStep a none) s = .next t ∧ (t.array a).wreg = x.wreg ∧ (t.array a).active = x.active
            ∧ (t.array a).set0 = x.set0 ∧ (t.array a).set1 = x.set1
            ∧ (t.array a).claim = some { cl with todo := r, steps := n, started := true }
            ∧ (∀ b, b ≠ a.val → t.array b = s.array b) ∧ s.onlyIn [.arrays, .cores] t)
        ∧ (∀ v r vec e x, cl.todo = .vec v :: r → (s.array a).vecs.find? (fun y => y.op == v) = some vec →
          (c.run? cl.seed.ord).bind (fun r => r.entries[v.tile]?) = some e → drainPending s a v.slot (v.m - e.tile.m0) = false →
          x = (s.array a).latch vec none → wardFault (fmtD (cFmtA cmd.pkt)) x (stepBlocks x vec) none = none →
          ∃ t, exec (.arrayStep a none) s = .next t
            ∧ (∀ j < 256, v.n0 ≤ e.tile.n0 + j → e.tile.n0 + j < v.n1 → v.n1 ≤ v.n0 + 256 →
              (t.tunRow (a / 4) v.slot (v.m - e.tile.m0))[j]? = some (
                (fun l => if v.write then l else lwAdd ((s.tunRow (a / 4) v.slot (v.m - e.tile.m0)).getD j lwZero) l)
                  (columnUpdate (cFlush cmd.pkt) (lPairPass (fmtD (cFmtA cmd.pkt)) (fmtD (cFmtW cmd.pkt)) v.ai v.wj)
                    c.anchor x (stepBlocks x vec) (min (e.tile.n0 + j - v.n0) (widthOf x))).1))
            ∧ (v.write = false → ∀ j < 256, e.tile.n0 + j < v.n0 ∨ (v.n1 ≤ e.tile.n0 + j ∧ e.tile.n0 + j < dExt c.desc 5 1) →
              (t.tunRow (a / 4) v.slot (v.m - e.tile.m0))[j]? = some ((s.tunRow (a / 4) v.slot (v.m - e.tile.m0)).getD j lwZero))
            ∧ (∀ k slot row, (k, slot, row) ≠ (a.val / 4, v.slot, v.m - e.tile.m0) → t.tunRow k slot row = s.tunRow k slot row)
            ∧ s.memAbove t ∧ s.onlyIn [.kin, .cp, .arrays, .halves, .cores, .tun, .mem] t)))
    ∧ (∀ (h : Fin 16) cl cmd c row, (s.half h).claim = some cl → s.claimCmd cl.seed = some (cmd, c) → unitsRun s = true →
      (s.core (h / 2)).thinIn = true → s.lives cmd.key = true → (s.half h).wBlock = some cl.b →
      (s.half h).store.find? (fun r => r.idx == cl.m) = some row →
      ∀ (pf : Fmt) (x : List DElem × Scale) (i j : Nat), pf = pairFmt (fmtD (cFmtA cmd.pkt)) (fmtD (cFmtW cmd.pkt)) →
      (i, j) = (cPasses cmd.pkt).getD cl.pass (0, 0) →
      x = storeAt pf row cl.b (min 32 (c.kAt (c.thinTile cl.seed.ord).f - 32 * cl.b)) i →
      thinDiff pf x.1 (s.half h).weights j none = 0 →
      ∃ t, exec (.thinStep h none) s = .next t ∧ s.memAbove t ∧ s.onlyIn [.cp, .halves, .cores, .mem] t
        ∧ ∀ g, accAt (t.half h).acc cl.m g = match (s.half h).weights[g]? with
          | some w => lwAdd (accAt (s.half h).acc cl.m g) (laneContrib cmd.pkt c.anchor x.1 x.2 w i j).lw
          | none => accAt (s.half h).acc cl.m g)

/-- Drains (R168-R175, R198, R235): a granted row that can be read and written, and whose writes need not wait for the cellar, stores
its outputs, and of near memory only the progress areas change beside; the done action of a complete plain drain without staged
outputs on a CLAIMED tile sets it DONE with its checksum and unit, and the drain leaves the unit. -/
def Obligations.DrainsFinish : Prop :=
  ∀ (s : State), unitsRun s = true →
    (∀ (k : KIx) u d cmd c, (s.core k).inService = true → nextGrant s k = some (u, d) → s.claimCmd d.seed = some (cmd, c) →
      spansFault s (c.rowSpans cmd.pkt d.src (c.drainTile d) ((c.drainTile d).m0 + d.row)) = none →
      rowFault s (c.grantRow s u cmd d) = none → (∀ x ∈ s.cp.cmds, pOp x.pkt ≠ 0x30) →
      s.writeWaits (some (ctxOf d.seed.key.1)) ((c.grantRow s u cmd d).writes.map (fun w => (w.1, w.2.length))) = false →
      ∃ t, exec (.drainRowGrant k none) s = .next t
        ∧ ((c.grantRow s u cmd d).writes.foldl (fun s w => s.store w.1 w.2) s).memAbove t
        ∧ s.onlyIn [.cp, .arrays, .halves, .cores, .tun, .mem] t)
    ∧ (∀ (u : UIx) d cmd c e, (s.drainsOf u).find? (·.complete) = some d → d.sweep = .plain → s.cmd? d.seed.key = some cmd →
      cmd.comp? = some c → (c.run? d.seed.ord).bind (fun r => r.entries[d.tile]?) = some e → e.state = .claimed →
      (s.ctx (ctxOf d.seed.key.1)).mode = .active → d.staged = [] → c.phase ≠ 1 →
      ∃ t c' e', exec (.doneAction u false) s = .next t ∧ t.comp? d.seed.key = some c'
        ∧ (c'.run? d.seed.ord).bind (fun r => r.entries[d.tile]?) = some e' ∧ e'.state = .done ∧ e'.checksum = d.sum.toNat
        ∧ e'.unit = u.val ∧ d ∉ t.drainsOf u)

/-! Faults of units and of the command processor. -/

/-- Faults that change who serves (R124, R125, R386-R394, R485): a lockstep mismatch halts the pair, hands over to the spare and
is masked in every command read; the core that goes on resumes dispatch; a self-test that ends gives back the cores that pass, and
with none the block is FAILED; a unit with work and ready input that stalls is retired, an array alone or its core, and one without is
none; a diagnostic pass whose partials are all as expected gives the array back, and else its finding's records are written while
the log has room. That a row sent where nothing is under way has no effect is the model's reading (log 3); the records of two
columns or rows are its reading too (log 66). -/
def Obligations.FaultsContained : Prop :=
  ∀ (s : State),
    (∀ addr, s.cp.running = 2 → s.cp.paused = false → blkRuns s = true → ∃ t, exec (.cpLockstepMismatch addr) s = .next t
      ∧ t.cp.running = (if s.cp.spare then 1 else 0) ∧ t.cp.spare = false ∧ t.cp.testing = 2 ∧ t.cp.paused = true
      ∧ (s.cp.spare = true → bitOf t.svc.irq 0 = true)
      ∧ (∀ c ∈ s.cp.cmds, ∃ d ∈ t.cp.cmds, d.key = c.key ∧ d.body = c.body ∧ c.masked < d.masked ∧ d.firstLog.isSome))
    ∧ (s.cp.paused = true → 1 ≤ s.cp.running → blkRuns s = true →
      exec .switchoverResume s = .next (s.onCp (fun cp => { cp with paused := false })))
    ∧ (∀ p0 p1, s.cp.testing = 2 → ∃ t, exec (.cpSelftestEnd p0 p1) s = .next t
      ∧ t.cp = { s.cp with running := min 2 (s.cp.running + bit p0 + bit p1),
                           spare := decide (3 ≤ s.cp.running + bit p0 + bit p1), testing := 0,
                           ids := s.cp.ids.take s.cp.running ++ passedCores s.cp p0 p1 }
      ∧ (s.cp.running + bit p0 + bit p1 = 0 → t.blk.mode = .failed))
    ∧ (∀ (c : KIx) (unit : Fin 7), unitsRun s = true → (s.core c).inService = true →
      (unit.val < 4 → arrayReady s (4 * c + unit) = true →
        ∃ t, exec (.watchdogStall c unit) s = .next t ∧ (t.array (4 * c + unit)).inService = false)
      ∧ ((unit.val = 4 ∧ ∃ u ∈ coreUnits c, sequencerReady s u = true) ∨ (unit.val = 5 ∧ fusionReady s c = true)
          ∨ (unit.val = 6 ∧ (halfReady s (2 * c) = true ∨ halfReady s (2 * c + 1) = true)) →
        ∃ t, exec (.watchdogStall c unit) s = .next t
          ∧ (t.core c).inService = false ∧ ∀ j < 4, (t.array (4 * c + j)).inService = false)
      ∧ (stallSubject s c unit = [] → exec (.watchdogStall c unit) s = .next s))
    ∧ (∀ (a : AIx) (reads : List DiagRead), (s.array a).diag = true → arraysPowered s = true → 120 ≤ s.kpr.vReq →
      ((∀ x ∈ reads, x.value = diagExpect x) → ∃ t, exec (.diagnosticPassEnd a reads) s = .next t
        ∧ (t.array a).inService = true ∧ (t.array a).diag = false ∧ t.blk.repair = s.blk.repair)
      ∧ (∀ row l, repairOf s a (diagFinding reads) = (row, l) → l ≠ [] → s.blk.repair.length + l.length ≤ 64 →
        ∃ t, exec (.diagnosticPassEnd a reads) s = .next t
          ∧ t.blk.repair = s.blk.repair ++ l ∧ (t.array a).diag = false ∧ (t.array a).inService = (s.array a).inService))

/-! Test access. -/

/-- Test (R435, R468, R469): STATUS and FUSE_READ always answer, and WS_BYPASS is always taken; the restricted instruments and
wrapper instructions act only with TEST_EN 1 and RESET_N low; FUSE_PGM sets the bits given below 4,096 and clears none; when
TEST_EN falls the wrapper is in WS_BYPASS and a restricted instrument is abandoned. What an instrument shifts out is the model's
reading (log 54). -/
def Obligations.TestAccess : Prop :=
  ∀ (s : State),
    (∃ t, exec .fuseRead s = .next t ∧ t.port.testOut = s.blk.fuse ∧ t.port.instrument = some 1 ∧ s.onlyIn [.port] t)
    ∧ (∃ t, exec .status s = .next t ∧ bitsOf t.port.testOut 63 0 = blkStateWord s % 2 ^ 64 ∧ t.port.instrument = some 0
      ∧ s.onlyIn [.port] t)
    ∧ (∃ t, exec .wsBypass s = .next t ∧ t.port = { s.port with wir := .bypass } ∧ s.onlyIn [.port] t)
    ∧ (∀ row, row ∈ [(Instr.wsExtest, Wir.extest), (.wsIntest, .intest), (.wsSafe, .safe)] →
      (s.port.testEn = true → s.start.resetLow = true →
        ∃ t, exec row.1 s = .next t ∧ t.port = { s.port with wir := row.2 } ∧ s.onlyIn [.port] t)
      ∧ (s.port.testEn = false ∨ s.start.resetLow = false → exec row.1 s = .next s))
    ∧ (∀ (a : AIx) l m ok bits, s.port.testEn = true → s.start.resetLow = true →
      (∃ t, exec (.abist a l) s = .next t ∧ s.onlyIn [.port] t ∧ t.port = { s.port with
        instrument := some 2
        testOut := maskOf ((rangeFrom 0 5).map (fun ph => l.all (fun x => x.phase.val != ph || x.value == diagExpect x))) })
      ∧ (∃ t, exec (.mbist m ok) s = .next t ∧ t.port = { s.port with instrument := some 3, testOut := bit ok } ∧ s.onlyIn [.port] t)
      ∧ (∃ t, exec (.fusePgm bits) s = .next t ∧ s.onlyIn [.blk, .port] t
        ∧ ∀ i, bitOf t.blk.fuse i = (bitOf s.blk.fuse i || (decide (i < 4096) && bitOf bits i))))
    ∧ (∀ (a : AIx) l m ok bits, s.port.testEn = false ∨ s.start.resetLow = false →
      exec (.abist a l) s = .next s ∧ exec (.mbist m ok) s = .next s ∧ exec (.fusePgm bits) s = .next s)
    ∧ (∃ t, exec .testEnFall s = .next t ∧ t.port.testEn = false ∧ t.port.wir = .bypass
      ∧ (∀ i, t.port.instrument = some i → i < 2 ∧ s.port.instrument = some i) ∧ s.onlyIn [.port] t)

end
end

