-- ==== Sys2Proof/Laws/Memory.lean ====
section
/-! SUPPORT. Near memory: every operation keeps the canonical form, a byte read after a write is the byte written, and every
other byte is as before. -/
namespace Sys2Proof.Machine

theorem mem_rangeFrom {x : Nat} : ∀ {n lo : Nat}, x ∈ rangeFrom lo n ↔ lo ≤ x ∧ x < lo + n
  | 0, lo => by simp [rangeFrom]
  | n + 1, lo => by simp [rangeFrom, mem_rangeFrom (n := n)]; omega

@[simp] theorem length_rangeFrom : ∀ (n lo : Nat), (rangeFrom lo n).length = n
  | 0, _ => rfl
  | n + 1, lo => by simp [rangeFrom, length_rangeFrom n]

/-- Addresses rising, as a pairwise statement. -/
def Rising (c : List Host.Cell) : Prop := c.Pairwise (fun x y => x.1 < y.1)

theorem risingAbove_iff : ∀ (c : List Host.Cell) (lo : Nat), risingAbove lo c = true ↔ (∀ x ∈ c, lo < x.1) ∧ Rising c
  | [], _ => by simp [risingAbove, Rising]
  | (a, b) :: r, lo => by
    have ih := risingAbove_iff r a
    simp only [risingAbove, Bool.and_eq_true, decide_eq_true_eq, ih, Rising, List.pairwise_cons, List.mem_cons]
    constructor
    · rintro ⟨h, h1, h2⟩
      refine ⟨?_, fun y hy => h1 y hy, h2⟩
      rintro x (rfl | hx)
      · exact h
      · exact Nat.lt_trans h (h1 x hx)
    · rintro ⟨h1, h2, h3⟩
      exact ⟨h1 (a, b) (.inl rfl), fun x hx => h2 x hx, h3⟩

theorem rising_iff (c : List Host.Cell) : rising c = true ↔ Rising c := by
  cases c with
  | nil => simp [rising, Rising]
  | cons x r =>
    obtain ⟨a, b⟩ := x
    simp only [rising, risingAbove_iff, Rising, List.pairwise_cons]

theorem cellsWf_iff (c : List Host.Cell) : cellsWf c = true ↔ Rising c ∧ ∀ x ∈ c, x.2 ≠ 0 := by
  simp [cellsWf, rising_iff]

theorem zip_rangeFrom_rising : ∀ (bs : List Byte) (a : Nat), Rising ((rangeFrom a bs.length).zip bs)
  | [], _ => by simp [rangeFrom, Rising]
  | b :: bs, a => by
    have ih := zip_rangeFrom_rising bs (a + 1)
    simp only [List.length_cons, rangeFrom, List.zip_cons_cons, Rising, List.pairwise_cons]
    refine ⟨fun y hy => ?_, ih⟩
    have := mem_rangeFrom.mp (List.of_mem_zip hy).1
    show a < y.1
    omega

theorem mem_zip_rangeFrom {bs : List Byte} {a : Nat} {x : Host.Cell} (h : x ∈ (rangeFrom a bs.length).zip bs) :
    a ≤ x.1 ∧ x.1 < a + bs.length := mem_rangeFrom.mp (List.of_mem_zip h).1

/-- A run put between what lies below it and what lies above it keeps the addresses rising. -/
theorem rising_splice {c m : List Host.Cell} {a n : Nat} (hc : Rising c) (hm : Rising m) (hr : ∀ x ∈ m, a ≤ x.1 ∧ x.1 < a + n) :
    Rising (c.filter (fun x => decide (x.1 < a)) ++ m ++ c.filter (fun x => decide (a + n ≤ x.1))) := by
  refine List.pairwise_append.mpr ⟨List.pairwise_append.mpr ⟨hc.sublist (by simp), hm, ?_⟩, hc.sublist (by simp), ?_⟩
  · intro x hx y hy
    have h1 := (List.mem_filter.mp hx).2
    have h2 := hr y hy
    simp only [decide_eq_true_eq] at h1
    omega
  · intro x hx y hy
    have h2 := (List.mem_filter.mp hy).2
    simp only [decide_eq_true_eq] at h2
    rcases List.mem_append.mp hx with h | h
    · have h1 := (List.mem_filter.mp h).2
      simp only [decide_eq_true_eq] at h1
      omega
    · have := hr x h
      omega

theorem runWrite_rising {c : List Host.Cell} (a : Nat) (bs : List Byte) (h : Rising c) : Rising (runWrite c a bs) :=
  rising_splice h (zip_rangeFrom_rising bs a) (fun _ => mem_zip_rangeFrom)

theorem cellWrite_wf {c : List Host.Cell} (a : Nat) (bs : List Byte) (h : cellsWf c = true) : cellsWf (cellWrite c a bs) = true := by
  rw [cellsWf_iff] at h ⊢
  refine ⟨rising_splice h.1 ((zip_rangeFrom_rising bs a).sublist (by simp)) (fun x hx => ?_), fun x hx => ?_⟩
  · exact mem_zip_rangeFrom (List.mem_filter.mp hx).1
  · simp only [cellWrite, List.mem_append, List.mem_filter, decide_eq_true_eq] at hx
    rcases hx with (hx | hx) | hx
    · exact h.2 x hx.1
    · exact hx.2
    · exact h.2 x hx.1

theorem mem_adel {β : Type} : ∀ {c : List (Nat × β)} {i : Nat} {x : Nat × β}, x ∈ adel c i → x ∈ c
  | [], _, _, h => h
  | (k, w) :: r, i, x, h => by
    simp only [adel] at h
    split at h
    · exact .tail _ h
    · split at h
      · exact h
      · rcases List.mem_cons.mp h with rfl | h
        · exact .head _
        · exact .tail _ (mem_adel h)

theorem mem_aput {β : Type} : ∀ {c : List (Nat × β)} {i : Nat} {v : β} {x : Nat × β}, x ∈ aput c i v → x = (i, v) ∨ x ∈ c
  | [], _, _, _, h => by simpa [aput] using h
  | (k, w) :: r, i, v, x, h => by
    simp only [aput] at h
    split at h
    · rcases List.mem_cons.mp h with h | h
      · exact .inl h
      · exact .inr (.tail _ h)
    · split at h
      · rcases List.mem_cons.mp h with h | h
        · exact .inl h
        · exact .inr h
      · rcases List.mem_cons.mp h with h | h
        · exact .inr (by rw [h]; exact .head _)
        · rcases mem_aput h with h | h
          · exact .inl h
          · exact .inr (.tail _ h)

theorem adel_rising : ∀ {c : List Host.Cell} (i : Nat), Rising c → Rising (adel c i)
  | [], _, h => h
  | (k, w) :: r, i, h => by
    have h' := List.pairwise_cons.mp h
    simp only [adel]
    split
    · exact h'.2
    · split
      · exact h
      · exact List.pairwise_cons.mpr ⟨fun y hy => h'.1 y (mem_adel hy), adel_rising i h'.2⟩

theorem aput_rising : ∀ {c : List Host.Cell} (i : Nat) (v : Byte), Rising c → Rising (aput c i v)
  | [], _, _, _ => by simp [aput, Rising]
  | (k, w) :: r, i, v, h => by
    have h' := List.pairwise_cons.mp h
    simp only [aput]
    split
    · next e => exact List.pairwise_cons.mpr ⟨fun y hy => by have := h'.1 y hy; simp only at this ⊢; omega, h'.2⟩
    · split
      · next hlt =>
        refine List.pairwise_cons.mpr ⟨fun y hy => ?_, h⟩
        rcases List.mem_cons.mp hy with rfl | hy
        · exact hlt
        · exact Nat.lt_trans hlt (h'.1 y hy)
      · next hne hnl =>
        refine List.pairwise_cons.mpr ⟨fun y hy => ?_, aput_rising i v h'.2⟩
        rcases mem_aput hy with rfl | hy
        · show k < i; omega
        · exact h'.1 y hy

theorem cellPut_wf {c : List Host.Cell} (a : Nat) (b : Byte) (h : cellsWf c = true) : cellsWf (cellPut c a b) = true := by
  rw [cellsWf_iff] at h ⊢
  unfold cellPut
  split
  · exact ⟨adel_rising a h.1, fun x hx => h.2 x (mem_adel hx)⟩
  · next hb =>
    refine ⟨aput_rising a b h.1, fun x hx => ?_⟩
    rcases mem_aput hx with rfl | hx
    · exact hb
    · exact h.2 x hx

theorem MemSt.wf_iff (m : MemSt) : m.wf = true ↔ cellsWf m.near = true ∧ Rising m.dirty := by
  simp [MemSt.wf, rising_iff]

/-- A write keeps the canonical form. -/
theorem MemSt.write_wf {m : MemSt} (a : Nat) (bs : List Byte) (h : m.wf = true) : (m.write a bs).wf = true := by
  rw [MemSt.wf_iff] at h ⊢
  exact ⟨h.1, runWrite_rising a bs h.2⟩

/-- Writing shared-cache data to the stacks keeps the canonical form. -/
theorem MemSt.flush_wf {m : MemSt} (p : Nat → Bool) (h : m.wf = true) : (m.flush p).wf = true := by
  rw [MemSt.wf_iff] at h ⊢
  refine ⟨?_, h.2.sublist (by simp [MemSt.flush])⟩
  have key : ∀ (l c : List Host.Cell), cellsWf c = true → cellsWf (l.foldl (fun c x => cellPut c x.1 x.2) c) = true := by
    intro l
    induction l with
    | nil => exact fun _ h => h
    | cons x r ih => exact fun c hc => ih _ (cellPut_wf _ _ hc)
  exact key _ _ h.1

/-- Losing shared-cache data keeps the canonical form. -/
theorem MemSt.drop_wf {m : MemSt} (p : Nat → Bool) (h : m.wf = true) : (m.drop p).wf = true := by
  rw [MemSt.wf_iff] at h ⊢
  exact ⟨h.1, h.2.sublist (by simp [MemSt.drop])⟩

/-! Reading. -/

theorem aget_append_of_not_mem {β : Type} : ∀ (l r : List (Nat × β)) (i : Nat), (∀ x ∈ l, x.1 ≠ i) → aget (l ++ r) i = aget r i
  | [], _, _, _ => rfl
  | (k, v) :: l, r, i, h => by
    have h1 : k ≠ i := h (k, v) (.head _)
    simp only [List.cons_append, aget, h1, if_false]
    exact aget_append_of_not_mem l r i (fun x hx => h x (.tail _ hx))

theorem aget_append_of_some {β : Type} : ∀ (l r : List (Nat × β)) (i : Nat) (v : β), aget l i = some v → aget (l ++ r) i = some v
  | [], _, _, _, h => by simp [aget] at h
  | (k, w) :: l, r, i, v, h => by
    simp only [List.cons_append, aget] at h ⊢
    split at h
    · next e => simp [e, h]
    · next e => rw [if_neg e]; exact aget_append_of_some l r i v h

theorem aget_none_of_not_mem {β : Type} : ∀ (l : List (Nat × β)) (i : Nat), (∀ x ∈ l, x.1 ≠ i) → aget l i = none
  | [], _, _ => rfl
  | (k, v) :: l, i, h => by
    have h1 : k ≠ i := h (k, v) (.head _)
    simp only [aget, h1, if_false]
    exact aget_none_of_not_mem l i (fun x hx => h x (.tail _ hx))

theorem aget_filter_below : ∀ (c : List Host.Cell) (a i : Nat), i < a → aget (c.filter (fun x => decide (x.1 < a))) i = aget c i
  | [], _, _, _ => rfl
  | (k, v) :: r, a, i, h => by
    by_cases hk : k < a
    · simp [hk, aget, aget_filter_below r a i h]
    · have : k ≠ i := by omega
      simp [hk, aget, this, aget_filter_below r a i h]

theorem aget_filter_above : ∀ (c : List Host.Cell) (b i : Nat), b ≤ i → aget (c.filter (fun x => decide (b ≤ x.1))) i = aget c i
  | [], _, _, _ => rfl
  | (k, v) :: r, b, i, h => by
    by_cases hk : b ≤ k
    · simp [hk, aget, aget_filter_above r b i h]
    · have : k ≠ i := by omega
      simp [hk, aget, this, aget_filter_above r b i h]

theorem aget_zip_rangeFrom : ∀ (bs : List Byte) (a i : Nat), i < bs.length → aget ((rangeFrom a bs.length).zip bs) (a + i) = bs[i]?
  | [], _, _, h => by simp at h
  | b :: bs, a, 0, _ => by simp [rangeFrom, aget]
  | b :: bs, a, i + 1, h => by
    have : a ≠ a + (i + 1) := by omega
    simp only [List.length_cons, rangeFrom, List.zip_cons_cons, aget, this, if_false, List.getElem?_cons_succ]
    have e : a + (i + 1) = a + 1 + i := by omega
    rw [e]
    exact aget_zip_rangeFrom bs (a + 1) i (by simpa using h)

/-- A byte of a run reads as written. -/
theorem aget_runWrite_in (c : List Host.Cell) (a : Nat) (bs : List Byte) (i : Nat) (h : i < bs.length) :
    aget (runWrite c a bs) (a + i) = bs[i]? := by
  unfold runWrite
  obtain ⟨v, hv⟩ : ∃ v, bs[i]? = some v := ⟨_, List.getElem?_eq_getElem h⟩
  have h0 : ∀ x ∈ c.filter (fun x => decide (x.1 < a)), x.1 ≠ a + i := by
    intro x hx
    have := (List.mem_filter.mp hx).2
    simp only [decide_eq_true_eq] at this
    omega
  rw [List.append_assoc, aget_append_of_not_mem _ _ _ h0, hv]
  exact aget_append_of_some _ _ _ _ (by rw [aget_zip_rangeFrom bs a i h, hv])

/-- A byte outside a run reads as before. -/
theorem aget_runWrite_out (c : List Host.Cell) (a : Nat) (bs : List Byte) (i : Nat) (h : i < a ∨ a + bs.length ≤ i) :
    aget (runWrite c a bs) i = aget c i := by
  unfold runWrite
  have hz : ∀ x ∈ (rangeFrom a bs.length).zip bs, x.1 ≠ i := by
    intro x hx
    have := mem_zip_rangeFrom hx
    omega
  rcases h with h | h
  · have h2 : ∀ x ∈ c.filter (fun x => decide (a + bs.length ≤ x.1)), x.1 ≠ i := by
      intro x hx
      have := (List.mem_filter.mp hx).2
      simp only [decide_eq_true_eq] at this
      omega
    cases hg : aget c i with
    | none =>
      refine aget_none_of_not_mem _ _ ?_ |>.trans rfl
      intro x hx
      rcases List.mem_append.mp hx with hx | hx
      · rcases List.mem_append.mp hx with hx | hx
        · intro e
          have h3 := aget_filter_below c a i h
          rw [hg] at h3
          have : ∀ (l : List Host.Cell), aget l i = none → ∀ y ∈ l, y.1 ≠ i := by
            intro l
            induction l with
            | nil => simp
            | cons y r ih =>
              obtain ⟨k, v⟩ := y
              intro hl y hy
              simp only [aget] at hl
              split at hl
              · simp at hl
              · next hk =>
                rcases List.mem_cons.mp hy with rfl | hy
                · exact hk
                · exact ih hl y hy
          exact this _ h3 x hx e
        · exact hz x hx
      · exact h2 x hx
    | some v =>
      rw [List.append_assoc]
      exact aget_append_of_some _ _ _ _ (by rw [aget_filter_below c a i h, hg])
  · have h0 : ∀ x ∈ c.filter (fun x => decide (x.1 < a)), x.1 ≠ i := by
      intro x hx
      have := (List.mem_filter.mp hx).2
      simp only [decide_eq_true_eq] at this
      omega
    rw [List.append_assoc, aget_append_of_not_mem _ _ _ h0, aget_append_of_not_mem _ _ _ hz, aget_filter_above c _ i h]

/-- A byte read inside the run just written is the byte written. -/
theorem MemSt.read_write_in (m : MemSt) (a : Nat) (bs : List Byte) (i : Nat) (h : i < bs.length) :
    (m.write a bs).read (a + i) = bs[i] := by
  simp only [MemSt.read, MemSt.write, cellGet, aget_runWrite_in m.dirty a bs i h, List.getElem?_eq_getElem h, Option.getD_some]

/-- A byte read outside the run just written is what it was. -/
theorem MemSt.read_write_out (m : MemSt) (a : Nat) (bs : List Byte) (x : Nat) (h : x < a ∨ a + bs.length ≤ x) :
    (m.write a bs).read x = m.read x := by
  simp only [MemSt.read, MemSt.write, cellGet, aget_runWrite_out m.dirty a bs x h]

/-- A run read back after it was written. -/
theorem MemSt.readBytes_write (m : MemSt) (a : Nat) (bs : List Byte) : (m.write a bs).readBytes a bs.length = bs := by
  have gen : ∀ (n k : Nat), k + n = bs.length → (rangeFrom (a + k) n).map (m.write a bs).read = bs.drop k := by
    intro n
    induction n with
    | zero => intro k hk; simp [rangeFrom]; omega
    | succ n ih =>
      intro k hk
      have hlt : k < bs.length := by omega
      rw [rangeFrom, List.map_cons, MemSt.read_write_in m a bs k hlt, Nat.add_assoc, ih (k + 1) (by omega),
        List.drop_eq_getElem_cons hlt]
  have := gen bs.length 0 (by omega)
  simpa [MemSt.readBytes] using this

/-! Reading after shared-cache data has reached the stacks. -/

theorem aget_some_mem {β : Type} : ∀ {c : List (Nat × β)} {i : Nat} {v : β}, aget c i = some v → (i, v) ∈ c
  | [], _, _, h => by simp [aget] at h
  | (k, w) :: r, i, v, h => by
    simp only [aget] at h
    split at h
    · next e => cases h; rw [e]; exact .head _
    · exact .tail _ (aget_some_mem h)

theorem aget_none_iff {β : Type} (c : List (Nat × β)) (i : Nat) : aget c i = none ↔ ∀ x ∈ c, x.1 ≠ i := by
  refine ⟨fun h => ?_, aget_none_of_not_mem c i⟩
  induction c with
  | nil => simp
  | cons y r ih =>
    obtain ⟨k, w⟩ := y
    simp only [aget] at h
    split at h
    · cases h
    · next e =>
      intro x hx
      rcases List.mem_cons.mp hx with rfl | hx
      · exact e
      · exact ih h x hx

theorem rising_unique : ∀ {c : List Host.Cell} {x : Nat} {b b' : Byte}, Rising c → (x, b) ∈ c → (x, b') ∈ c → b' = b
  | y :: r, x, b, b', h, h1, h2 => by
    have h' := List.pairwise_cons.mp h
    rcases List.mem_cons.mp h1 with e1 | m1 <;> rcases List.mem_cons.mp h2 with e2 | m2
    · rw [← e1] at e2
      exact (Prod.mk.inj e2).2
    · exact absurd (h'.1 _ m2) (by rw [← e1]; exact Nat.lt_irrefl _)
    · exact absurd (h'.1 _ m1) (by rw [← e2]; exact Nat.lt_irrefl _)
    · exact rising_unique h'.2 m1 m2

theorem aget_aput_same {β : Type} : ∀ (c : List (Nat × β)) (i : Nat) (v : β), aget (aput c i v) i = some v
  | [], _, _ => by simp [aput, aget]
  | (k, w) :: r, i, v => by
    simp only [aput]
    split
    · simp [aget]
    · next e =>
      split
      · simp [aget]
      · simp only [aget, if_neg e]; exact aget_aput_same r i v

theorem aget_aput_ne {β : Type} : ∀ (c : List (Nat × β)) {i j : Nat} (v : β), j ≠ i → aget (aput c i v) j = aget c j
  | [], i, j, v, h => by simp [aput, aget, Ne.symm h]
  | (k, w) :: r, i, j, v, h => by
    simp only [aput]
    split
    · next e => subst e; simp [aget, Ne.symm h]
    · split
      · simp [aget, Ne.symm h]
      · simp only [aget, aget_aput_ne r v h]

theorem aget_adel_ne {β : Type} : ∀ (c : List (Nat × β)) {i j : Nat}, j ≠ i → aget (adel c i) j = aget c j
  | [], _, _, _ => rfl
  | (k, w) :: r, i, j, h => by
    simp only [adel]
    split
    · next e => subst e; simp [aget, Ne.symm h]
    · split
      · rfl
      · simp only [aget, aget_adel_ne r h]

theorem aget_adel_same : ∀ (c : List Host.Cell) (i : Nat), Rising c → aget (adel c i) i = none
  | [], _, _ => rfl
  | (k, w) :: r, i, h => by
    have h' := List.pairwise_cons.mp h
    simp only [adel]
    split
    · next e =>
      subst e
      exact aget_none_of_not_mem r k (fun x hx => Nat.ne_of_gt (h'.1 x hx))
    · next e =>
      split
      · next hlt =>
        refine aget_none_of_not_mem _ i (fun x hx => ?_)
        rcases List.mem_cons.mp hx with rfl | hx
        · exact e
        · exact Nat.ne_of_gt (Nat.lt_trans hlt (h'.1 x hx))
      · simp only [aget, if_neg e]
        exact aget_adel_same r i h'.2

/-- A byte put in its canonical place is the byte read there. -/
theorem cellPut_same {c : List Host.Cell} (a : Nat) (b : Byte) (h : Rising c) : (cellGet (cellPut c a b) a).getD 0 = b := by
  unfold cellPut cellGet
  split
  · next e => rw [aget_adel_same c a h, e]; rfl
  · rw [aget_aput_same]; rfl

theorem cellPut_ne (c : List Host.Cell) {a x : Nat} (b : Byte) (h : x ≠ a) : cellGet (cellPut c a b) x = cellGet c x := by
  unfold cellPut cellGet
  split
  · exact aget_adel_ne c h
  · exact aget_aput_ne c b h

/-- Bytes put one after another leave an address that none of them names. -/
theorem cellPuts_ne (l c : List Host.Cell) (x : Nat) (h : ∀ y ∈ l, y.1 ≠ x) :
    cellGet (l.foldl (fun c y => cellPut c y.1 y.2) c) x = cellGet c x := by
  induction l generalizing c with
  | nil => rfl
  | cons y r ih =>
    rw [List.foldl_cons, ih _ (fun z hz => h z (.tail _ hz)), cellPut_ne c y.2 (Ne.symm (h y (.head _)))]

theorem cellPuts_same (l c : List Host.Cell) (x : Nat) (b : Byte) (hc : cellsWf c = true) (hl : Rising l) (h : (x, b) ∈ l) :
    (cellGet (l.foldl (fun c y => cellPut c y.1 y.2) c) x).getD 0 = b := by
  induction l generalizing c with
  | nil => cases h
  | cons y r ih =>
    have h' := List.pairwise_cons.mp hl
    rw [List.foldl_cons]
    rcases List.mem_cons.mp h with rfl | h
    · rw [cellPuts_ne r _ x (fun z hz => Nat.ne_of_gt (h'.1 z hz))]
      exact cellPut_same x b ((cellsWf_iff c).mp hc).1
    · exact ih _ (cellPut_wf _ _ hc) h'.2 h

/-- Writing shared-cache data to the stacks changes no byte that is read. -/
theorem MemSt.read_flush {m : MemSt} (p : Nat → Bool) (h : m.wf = true) (x : Nat) : (m.flush p).read x = m.read x := by
  rw [MemSt.wf_iff] at h
  unfold MemSt.read MemSt.flush
  simp only
  cases hd : cellGet m.dirty x with
  | none =>
    have hn := (aget_none_iff m.dirty x).mp hd
    have h1 : cellGet (m.dirty.filter (fun y => !p y.1)) x = none :=
      aget_none_of_not_mem _ x (fun y hy => hn y (List.mem_filter.mp hy).1)
    rw [h1, cellPuts_ne _ _ x (fun y hy => hn y (List.mem_filter.mp hy).1)]
  | some b =>
    have hm := aget_some_mem hd
    by_cases hp : p x = true
    · have hn : cellGet (m.dirty.filter (fun y => !p y.1)) x = none :=
        aget_none_of_not_mem _ x (fun y hy e => by
          have := (List.mem_filter.mp hy).2
          rw [e, hp] at this
          cases this)
      rw [hn]
      exact cellPuts_same _ _ x b h.1 (h.2.sublist (by simp)) (List.mem_filter.mpr ⟨hm, hp⟩)
    · have hr : Rising (m.dirty.filter (fun y => !p y.1)) := h.2.sublist (by simp)
      have hx : (x, b) ∈ m.dirty.filter (fun y => !p y.1) := List.mem_filter.mpr ⟨hm, by simpa using hp⟩
      cases hg : cellGet (m.dirty.filter (fun y => !p y.1)) x with
      | none => exact absurd rfl ((aget_none_iff _ x).mp hg _ hx)
      | some b' =>
        have := aget_some_mem hg
        have e : b' = b := rising_unique hr hx this
        rw [e]; rfl

/-- A byte that the shared cache does not hold reads as before once some of its data has reached the stacks. -/
theorem MemSt.read_flush_clean {m : MemSt} (p : Nat → Bool) (x : Nat) (h : cellGet m.dirty x = none) :
    (m.flush p).read x = m.read x ∧ cellGet (m.flush p).dirty x = none := by
  have hn := (aget_none_iff m.dirty x).mp h
  have h1 : cellGet (m.dirty.filter (fun y => !p y.1)) x = none :=
    aget_none_of_not_mem _ x (fun y hy => hn y (List.mem_filter.mp hy).1)
  refine ⟨?_, h1⟩
  unfold MemSt.read MemSt.flush
  simp only
  rw [h, h1, cellPuts_ne _ _ x (fun y hy => hn y (List.mem_filter.mp hy).1)]

end Sys2Proof.Machine
end

