-- ==== Sys2Proof/Laws/Evolve.lean ====
section
/-! SUPPORT. How the state may evolve: which parts change, that memory keeps its canonical form, and that eFuse bits are never
cleared. One lemma per operation says this of it; each is proved from those of the operations it is made of. -/
namespace Sys2Proof.Machine

/-- From `s` to `t` only the parts in `l` change, memory stays canonical, and no eFuse bit is cleared. -/
structure Ev (l : List Field) (s t : State) : Prop where
  frame : s.onlyIn l t
  mem : s.mem.wf = true → t.mem.wf = true
  fuse : s.blk.fuse &&& t.blk.fuse = s.blk.fuse

/-- One list of parts lies in another. -/
def sub (a b : List Field) : Bool := a.all b.contains

theorem Ev.refl {l : List Field} (s : State) : Ev l s s :=
  ⟨fun f _ => by cases f <;> rfl, id, Nat.and_self _⟩

theorem State.same_trans {s t u : State} {f : Field} (h : s.same t f) (g : t.same u f) : s.same u f := by
  cases f <;> exact Eq.trans g h

theorem contains_of_sub {m l : List Field} (h : sub m l = true) {f : Field} (hf : l.contains f = false) : m.contains f = false := by
  cases hc : m.contains f with
  | false => rfl
  | true =>
    have := List.all_eq_true.mp h f (List.contains_iff_mem.mp hc)
    rw [this] at hf
    exact hf

/-- A further operation: the parts it changes lie in the list. -/
theorem Ev.then {m l : List Field} {s u t : State} (g : Ev m u t) (h : Ev l s u) (hm : sub m l = true) : Ev l s t where
  frame f hf := State.same_trans (h.frame f hf) (g.frame f (contains_of_sub hm hf))
  mem x := g.mem (h.mem x)
  fuse := by
    have h1 := h.fuse
    have h2 := g.fuse
    rw [← h1, Nat.and_assoc, h2]

theorem Ev.mono {m l : List Field} {s t : State} (g : Ev m s t) (hm : sub m l = true) : Ev l s t := g.then (Ev.refl s) hm

theorem Ev.foldl {α : Type} {l : List Field} {s : State} (f : State → α → State) (hf : ∀ u x, Ev l s u → Ev l s (f u x)) :
    ∀ (xs : List α) (u : State), Ev l s u → Ev l s (xs.foldl f u)
  | [], _, h => h
  | x :: xs, u, h => Ev.foldl f hf xs (f u x) (hf u x h)

/-- A state named on the way: what holds of it is shown once. -/
theorem Ev.keep {l : List Field} {s t : State} (x : State) (h : Ev l s x → Ev l s t) (hx : Ev l s x) : Ev l s t := h hx

/-- A state given field by field. -/
theorem Ev.of {l : List Field} {s t : State} (hm : s.mem.wf = true → t.mem.wf = true)
    (hb : s.blk.fuse &&& t.blk.fuse = s.blk.fuse) (h : ∀ f, l.contains f = false → s.same t f) : Ev l s t := ⟨h, hm, hb⟩

theorem Ev.upd_free (s : State) (x) : Ev [.free] s { s with free := x } :=
  ⟨fun f h => (by cases f <;> first | rfl | cases h), id, Nat.and_self _⟩
theorem Ev.upd_start (s : State) (x) : Ev [.start] s { s with start := x } :=
  ⟨fun f h => (by cases f <;> first | rfl | cases h), id, Nat.and_self _⟩
theorem Ev.upd_svc (s : State) (x) : Ev [.svc] s { s with svc := x } :=
  ⟨fun f h => (by cases f <;> first | rfl | cases h), id, Nat.and_self _⟩
theorem Ev.upd_log (s : State) (x) : Ev [.log] s { s with log := x } :=
  ⟨fun f h => (by cases f <;> first | rfl | cases h), id, Nat.and_self _⟩
theorem Ev.upd_kpr (s : State) (x) : Ev [.kpr] s { s with kpr := x } :=
  ⟨fun f h => (by cases f <;> first | rfl | cases h), id, Nat.and_self _⟩
theorem Ev.upd_kin (s : State) (x) : Ev [.kin] s { s with kin := x } :=
  ⟨fun f h => (by cases f <;> first | rfl | cases h), id, Nat.and_self _⟩
theorem Ev.upd_pwr (s : State) (x) : Ev [.pwr] s { s with pwr := x } :=
  ⟨fun f h => (by cases f <;> first | rfl | cases h), id, Nat.and_self _⟩
theorem Ev.upd_ctxs (s : State) (x) : Ev [.ctxs] s { s with ctxs := x } :=
  ⟨fun f h => (by cases f <;> first | rfl | cases h), id, Nat.and_self _⟩
theorem Ev.upd_qs (s : State) (x) : Ev [.qs] s { s with qs := x } :=
  ⟨fun f h => (by cases f <;> first | rfl | cases h), id, Nat.and_self _⟩
theorem Ev.upd_cp (s : State) (x) : Ev [.cp] s { s with cp := x } :=
  ⟨fun f h => (by cases f <;> first | rfl | cases h), id, Nat.and_self _⟩
theorem Ev.upd_arrays (s : State) (x) : Ev [.arrays] s { s with arrays := x } :=
  ⟨fun f h => (by cases f <;> first | rfl | cases h), id, Nat.and_self _⟩
theorem Ev.upd_halves (s : State) (x) : Ev [.halves] s { s with halves := x } :=
  ⟨fun f h => (by cases f <;> first | rfl | cases h), id, Nat.and_self _⟩
theorem Ev.upd_cores (s : State) (x) : Ev [.cores] s { s with cores := x } :=
  ⟨fun f h => (by cases f <;> first | rfl | cases h), id, Nat.and_self _⟩
theorem Ev.upd_tun (s : State) (x) : Ev [.tun] s { s with tun := x } :=
  ⟨fun f h => (by cases f <;> first | rfl | cases h), id, Nat.and_self _⟩
theorem Ev.upd_stks (s : State) (x) : Ev [.stks] s { s with stks := x } :=
  ⟨fun f h => (by cases f <;> first | rfl | cases h), id, Nat.and_self _⟩
theorem Ev.upd_map (s : State) (x) : Ev [.map] s { s with map := x } :=
  ⟨fun f h => (by cases f <;> first | rfl | cases h), id, Nat.and_self _⟩
theorem Ev.upd_far (s : State) (x) : Ev [.far] s { s with far := x } :=
  ⟨fun f h => (by cases f <;> first | rfl | cases h), id, Nat.and_self _⟩
theorem Ev.upd_mirror (s : State) (x) : Ev [.mirror] s { s with mirror := x } :=
  ⟨fun f h => (by cases f <;> first | rfl | cases h), id, Nat.and_self _⟩
theorem Ev.upd_xch (s : State) (x) : Ev [.xch] s { s with xch := x } :=
  ⟨fun f h => (by cases f <;> first | rfl | cases h), id, Nat.and_self _⟩
theorem Ev.upd_port (s : State) (x) : Ev [.port] s { s with port := x } :=
  ⟨fun f h => (by cases f <;> first | rfl | cases h), id, Nat.and_self _⟩

theorem Ev.upd_blk (s : State) (x : Blk) (h : s.blk.fuse &&& x.fuse = s.blk.fuse) : Ev [.blk] s { s with blk := x } :=
  ⟨fun f h => (by cases f <;> first | rfl | cases h), id, h⟩
theorem Ev.upd_mem (s : State) (x : MemSt) (h : s.mem.wf = true → x.wf = true) : Ev [.mem] s { s with mem := x } :=
  ⟨fun f h => (by cases f <;> first | rfl | cases h), h, Nat.and_self _⟩

/-! A record update of one part, by name. -/

/-- The part `free` set. -/
@[irreducible] def State.setFree (s : State) (x : Nat) : State := { s with free := x }
theorem upd_free (s : State) (x) : { s with free := x } = s.setFree x := by with_unfolding_all rfl
theorem State.setFree_ev (s : State) (x) : Ev [.free] s (s.setFree x) := by
  rw [← upd_free]; exact Ev.upd_free s x

/-- The part `start` set. -/
@[irreducible] def State.setStart (s : State) (x : StartSt) : State := { s with start := x }
theorem upd_start (s : State) (x) : { s with start := x } = s.setStart x := by with_unfolding_all rfl
theorem State.setStart_ev (s : State) (x) : Ev [.start] s (s.setStart x) := by
  rw [← upd_start]; exact Ev.upd_start s x

/-- The part `svc` set. -/
@[irreducible] def State.setSvc (s : State) (x : Svc) : State := { s with svc := x }
theorem upd_svc (s : State) (x) : { s with svc := x } = s.setSvc x := by with_unfolding_all rfl
theorem State.setSvc_ev (s : State) (x) : Ev [.svc] s (s.setSvc x) := by
  rw [← upd_svc]; exact Ev.upd_svc s x

/-- The part `log` set. -/
@[irreducible] def State.setLog (s : State) (x : ErrLog) : State := { s with log := x }
theorem upd_log (s : State) (x) : { s with log := x } = s.setLog x := by with_unfolding_all rfl
theorem State.setLog_ev (s : State) (x) : Ev [.log] s (s.setLog x) := by
  rw [← upd_log]; exact Ev.upd_log s x

/-- The part `kpr` set. -/
@[irreducible] def State.setKpr (s : State) (x : Kpr) : State := { s with kpr := x }
theorem upd_kpr (s : State) (x) : { s with kpr := x } = s.setKpr x := by with_unfolding_all rfl
theorem State.setKpr_ev (s : State) (x) : Ev [.kpr] s (s.setKpr x) := by
  rw [← upd_kpr]; exact Ev.upd_kpr s x

/-- The part `kin` set. -/
@[irreducible] def State.setKin (s : State) (x : KprIn) : State := { s with kin := x }
theorem upd_kin (s : State) (x) : { s with kin := x } = s.setKin x := by with_unfolding_all rfl
theorem State.setKin_ev (s : State) (x) : Ev [.kin] s (s.setKin x) := by
  rw [← upd_kin]; exact Ev.upd_kin s x

/-- The part `pwr` set. -/
@[irreducible] def State.setPwr (s : State) (x : Pwr) : State := { s with pwr := x }
theorem upd_pwr (s : State) (x) : { s with pwr := x } = s.setPwr x := by with_unfolding_all rfl
theorem State.setPwr_ev (s : State) (x) : Ev [.pwr] s (s.setPwr x) := by
  rw [← upd_pwr]; exact Ev.upd_pwr s x

/-- The part `ctxs` set. -/
@[irreducible] def State.setCtxs (s : State) (x : Vector Ctx 16) : State := { s with ctxs := x }
theorem upd_ctxs (s : State) (x) : { s with ctxs := x } = s.setCtxs x := by with_unfolding_all rfl
theorem State.setCtxs_ev (s : State) (x) : Ev [.ctxs] s (s.setCtxs x) := by
  rw [← upd_ctxs]; exact Ev.upd_ctxs s x

/-- The part `qs` set. -/
@[irreducible] def State.setQs (s : State) (x : Vector Queue 64) : State := { s with qs := x }
theorem upd_qs (s : State) (x) : { s with qs := x } = s.setQs x := by with_unfolding_all rfl
theorem State.setQs_ev (s : State) (x) : Ev [.qs] s (s.setQs x) := by
  rw [← upd_qs]; exact Ev.upd_qs s x

/-- The part `cp` set. -/
@[irreducible] def State.setCp (s : State) (x : Cp) : State := { s with cp := x }
theorem upd_cp (s : State) (x) : { s with cp := x } = s.setCp x := by with_unfolding_all rfl
theorem State.setCp_ev (s : State) (x) : Ev [.cp] s (s.setCp x) := by
  rw [← upd_cp]; exact Ev.upd_cp s x

/-- The part `arrays` set. -/
@[irreducible] def State.setArrays (s : State) (x : Vector ArraySt 32) : State := { s with arrays := x }
theorem upd_arrays (s : State) (x) : { s with arrays := x } = s.setArrays x := by with_unfolding_all rfl
theorem State.setArrays_ev (s : State) (x) : Ev [.arrays] s (s.setArrays x) := by
  rw [← upd_arrays]; exact Ev.upd_arrays s x

/-- The part `halves` set. -/
@[irreducible] def State.setHalves (s : State) (x : Vector ThinSt 16) : State := { s with halves := x }
theorem upd_halves (s : State) (x) : { s with halves := x } = s.setHalves x := by with_unfolding_all rfl
theorem State.setHalves_ev (s : State) (x) : Ev [.halves] s (s.setHalves x) := by
  rw [← upd_halves]; exact Ev.upd_halves s x

/-- The part `cores` set. -/
@[irreducible] def State.setCores (s : State) (x : Vector CoreSt 8) : State := { s with cores := x }
theorem upd_cores (s : State) (x) : { s with cores := x } = s.setCores x := by with_unfolding_all rfl
theorem State.setCores_ev (s : State) (x) : Ev [.cores] s (s.setCores x) := by
  rw [← upd_cores]; exact Ev.upd_cores s x

/-- The part `tun` set. -/
@[irreducible] def State.setTun (s : State) (x : List TunCell) : State := { s with tun := x }
theorem upd_tun (s : State) (x) : { s with tun := x } = s.setTun x := by with_unfolding_all rfl
theorem State.setTun_ev (s : State) (x) : Ev [.tun] s (s.setTun x) := by
  rw [← upd_tun]; exact Ev.upd_tun s x

/-- The part `stks` set. -/
@[irreducible] def State.setStks (s : State) (x : Vector StackSt 24) : State := { s with stks := x }
theorem upd_stks (s : State) (x) : { s with stks := x } = s.setStks x := by with_unfolding_all rfl
theorem State.setStks_ev (s : State) (x) : Ev [.stks] s (s.setStks x) := by
  rw [← upd_stks]; exact Ev.upd_stks s x

/-- The part `map` set. -/
@[irreducible] def State.setMap (s : State) (x : MapSt) : State := { s with map := x }
theorem upd_map (s : State) (x) : { s with map := x } = s.setMap x := by with_unfolding_all rfl
theorem State.setMap_ev (s : State) (x) : Ev [.map] s (s.setMap x) := by
  rw [← upd_map]; exact Ev.upd_map s x

/-- The part `far` set. -/
@[irreducible] def State.setFar (s : State) (x : FarSt) : State := { s with far := x }
theorem upd_far (s : State) (x) : { s with far := x } = s.setFar x := by with_unfolding_all rfl
theorem State.setFar_ev (s : State) (x) : Ev [.far] s (s.setFar x) := by
  rw [← upd_far]; exact Ev.upd_far s x

/-- The part `mirror` set. -/
@[irreducible] def State.setMirror (s : State) (x : Mirror) : State := { s with mirror := x }
theorem upd_mirror (s : State) (x) : { s with mirror := x } = s.setMirror x := by with_unfolding_all rfl
theorem State.setMirror_ev (s : State) (x) : Ev [.mirror] s (s.setMirror x) := by
  rw [← upd_mirror]; exact Ev.upd_mirror s x

/-- The part `xch` set. -/
@[irreducible] def State.setXch (s : State) (x : XchSt) : State := { s with xch := x }
theorem upd_xch (s : State) (x) : { s with xch := x } = s.setXch x := by with_unfolding_all rfl
theorem State.setXch_ev (s : State) (x) : Ev [.xch] s (s.setXch x) := by
  rw [← upd_xch]; exact Ev.upd_xch s x

/-- The part `port` set. -/
@[irreducible] def State.setPort (s : State) (x : Port) : State := { s with port := x }
theorem upd_port (s : State) (x) : { s with port := x } = s.setPort x := by with_unfolding_all rfl
theorem State.setPort_ev (s : State) (x) : Ev [.port] s (s.setPort x) := by
  rw [← upd_port]; exact Ev.upd_port s x

/-- The part `blk` set. -/
@[irreducible] def State.setBlk (s : State) (x : Blk) : State := { s with blk := x }
theorem upd_blk (s : State) (x) : { s with blk := x } = s.setBlk x := by with_unfolding_all rfl
theorem State.setBlk_ev (s : State) (x : Blk) (h : s.blk.fuse &&& x.fuse = s.blk.fuse) : Ev [.blk] s (s.setBlk x) := by
  rw [← upd_blk]; exact Ev.upd_blk s x h

/-- The part `mem` set. -/
@[irreducible] def State.setMem (s : State) (x : MemSt) : State := { s with mem := x }
theorem upd_mem (s : State) (x) : { s with mem := x } = s.setMem x := by with_unfolding_all rfl
theorem State.setMem_ev (s : State) (x : MemSt) (h : s.mem.wf = true → x.wf = true) : Ev [.mem] s (s.setMem x) := by
  rw [← upd_mem]; exact Ev.upd_mem s x h

theorem State.onCtx_ev (s : State) (n : Nat) (f) : Ev [.ctxs] s (s.onCtx n f) := Ev.upd_ctxs s _
theorem State.onQ_ev (s : State) (n : Nat) (f) : Ev [.qs] s (s.onQ n f) := Ev.upd_qs s _
theorem State.onArray_ev (s : State) (n : Nat) (f) : Ev [.arrays] s (s.onArray n f) := Ev.upd_arrays s _
theorem State.onHalf_ev (s : State) (n : Nat) (f) : Ev [.halves] s (s.onHalf n f) := Ev.upd_halves s _
theorem State.onCore_ev (s : State) (n : Nat) (f) : Ev [.cores] s (s.onCore n f) := Ev.upd_cores s _
theorem State.onStack_ev (s : State) (n : Nat) (f) : Ev [.stks] s (s.onStack n f) := Ev.upd_stks s _
theorem State.onCp_ev (s : State) (f) : Ev [.cp] s (s.onCp f) := Ev.upd_cp s _
theorem State.onXch_ev (s : State) (f) : Ev [.xch] s (s.onXch f) := Ev.upd_xch s _
theorem State.onFar_ev (s : State) (f) : Ev [.far] s (s.onFar f) := Ev.upd_far s _
theorem State.onKpr_ev (s : State) (f) : Ev [.kpr] s (s.onKpr f) := Ev.upd_kpr s _
theorem State.onKin_ev (s : State) (f) : Ev [.kin] s (s.onKin f) := Ev.upd_kin s _
theorem State.onPwr_ev (s : State) (f) : Ev [.pwr] s (s.onPwr f) := Ev.upd_pwr s _
theorem State.onStart_ev (s : State) (f) : Ev [.start] s (s.onStart f) := Ev.upd_start s _
theorem State.onSvc_ev (s : State) (f) : Ev [.svc] s (s.onSvc f) := Ev.upd_svc s _
theorem State.onLog_ev (s : State) (f) : Ev [.log] s (s.onLog f) := Ev.upd_log s _
theorem State.onTun_ev (s : State) (f) : Ev [.tun] s (s.onTun f) := Ev.upd_tun s _
theorem State.onMap_ev (s : State) (f) : Ev [.map] s (s.onMap f) := Ev.upd_map s _
theorem State.onMirror_ev (s : State) (f) : Ev [.mirror] s (s.onMirror f) := Ev.upd_mirror s _
theorem State.onPort_ev (s : State) (f) : Ev [.port] s (s.onPort f) := Ev.upd_port s _
theorem State.onMem_ev (s : State) (f : MemSt → MemSt) (h : s.mem.wf = true → (f s.mem).wf = true) : Ev [.mem] s (s.onMem f) :=
  Ev.upd_mem s _ h
theorem State.onBlk_ev (s : State) (f : Blk → Blk) (h : s.blk.fuse &&& (f s.blk).fuse = s.blk.fuse) : Ev [.blk] s (s.onBlk f) :=
  Ev.upd_blk s _ h


theorem sub_refl (l : List Field) : sub l l = true := List.all_eq_true.mpr (fun _ h => List.contains_iff_mem.mpr h)

theorem sub_trans {a b c : List Field} (h : sub a b = true) (g : sub b c = true) : sub a c = true :=
  List.all_eq_true.mpr (fun x hx => List.all_eq_true.mp g x (List.contains_iff_mem.mp (List.all_eq_true.mp h x hx)))

end Sys2Proof.Machine
end

