-- ==== Sys2Proof/Laws/EvolveCore.lean ====
section
/-! SUPPORT. How the shared operations over memory, the log, commands in flight and the exchange engine let the state evolve. -/
namespace Sys2Proof.Machine

set_option linter.all false

theorem State.writeBytes_ev (s : State) (a : Nat) (bs : List Byte) : Ev [.mem] s (s.writeBytes a bs) :=
  Ev.upd_mem s _ (MemSt.write_wf a bs)

theorem State.writeNat_ev (s : State) (a w n : Nat) : Ev [.mem] s (State.writeNat s a w n) := by
  unfold State.writeNat
  repeat' first
    | with_reducible apply Ev.refl
    | with_reducible assumption
    | (extract_lets +onlyGivenNames y; with_reducible refine Ev.keep y ?_ ?_; rotate_left; subst y; rotate_left; clear_value y; intro hy)
    | (extract_lets +onlyGivenNames x; revert x; intro _)
    | with_reducible apply Ev.then (State.writeBytes_ev ..)
    | (intros; show sub _ _ = true; decide)
    | split
    | with_reducible refine (?_ : Ev _ _ (ite _ _ _))
    | intro _

theorem MemSt.park_wf {m : MemSt} (l : List Nat) (h : m.wf = true) : (m.park l).wf = true := h
theorem MemSt.mark_wf {m : MemSt} (x y : Nat) (h : m.wf = true) : (m.mark x y).wf = true := by unfold MemSt.mark; split <;> exact h

theorem State.parkLine_ev (s : State) (l : Nat) : Ev [.mem] s (s.parkLine l) := by
  unfold State.parkLine
  extract_lets
  repeat' first
    | split
    | exact State.onMem_ev _ _ (MemSt.park_wf _)
    | exact State.onMem_ev _ _ (MemSt.mark_wf _ _)
    | exact Ev.refl _

theorem State.parkWrite_ev (s : State) (a len : Nat) : Ev [.mem] s (State.parkWrite s a len) := by
  unfold State.parkWrite
  repeat' first
    | with_reducible apply Ev.refl
    | with_reducible assumption
    | (extract_lets +onlyGivenNames y; with_reducible refine Ev.keep y ?_ ?_; rotate_left; subst y; rotate_left; clear_value y; intro hy)
    | (extract_lets +onlyGivenNames x; revert x; intro _)
    | (with_reducible apply Ev.foldl; intro _ _ _)
    | with_reducible apply Ev.then (State.parkLine_ev ..)
    | (intros; show sub _ _ = true; decide)
    | split
    | with_reducible refine (?_ : Ev _ _ (ite _ _ _))
    | intro _

theorem State.store_ev (s : State) (a : Nat) (bs : List Byte) : Ev [.mem] s (State.store s a bs) := by
  unfold State.store
  repeat' first
    | with_reducible apply Ev.refl
    | with_reducible assumption
    | (extract_lets +onlyGivenNames y; with_reducible refine Ev.keep y ?_ ?_; rotate_left; subst y; rotate_left; clear_value y; intro hy)
    | (extract_lets +onlyGivenNames x; revert x; intro _)
    | with_reducible apply Ev.then (State.parkWrite_ev ..)
    | with_reducible apply Ev.then (State.writeBytes_ev ..)
    | (intros; show sub _ _ = true; decide)
    | split
    | with_reducible refine (?_ : Ev _ _ (ite _ _ _))
    | intro _

theorem State.raiseSvc_ev (s : State) (i : Nat) : Ev [.svc] s (State.raiseSvc s i) := by
  unfold State.raiseSvc
  repeat' first
    | with_reducible apply Ev.refl
    | with_reducible assumption
    | (extract_lets +onlyGivenNames y; with_reducible refine Ev.keep y ?_ ?_; rotate_left; subst y; rotate_left; clear_value y; intro hy)
    | (extract_lets +onlyGivenNames x; revert x; intro _)
    | with_reducible apply Ev.then (State.onSvc_ev ..)
    | (intros; show sub _ _ = true; decide)
    | split
    | with_reducible refine (?_ : Ev _ _ (ite _ _ _))
    | intro _

theorem State.mirrorRec_ev (s : State) (i w : Nat) : Ev [.mem, .mirror] s (State.mirrorRec s i w) := by
  unfold State.mirrorRec
  repeat' first
    | with_reducible apply Ev.refl
    | with_reducible assumption
    | (extract_lets +onlyGivenNames y; with_reducible refine Ev.keep y ?_ ?_; rotate_left; subst y; rotate_left; clear_value y; intro hy)
    | (extract_lets +onlyGivenNames x; revert x; intro _)
    | with_reducible apply Ev.then (State.onMirror_ev ..)
    | with_reducible apply Ev.then (State.store_ev ..)
    | (intros; show sub _ _ = true; decide)
    | split
    | with_reducible refine (?_ : Ev _ _ (ite _ _ _))
    | intro _

theorem State.logRec_ev (s : State) (r : Rec) : Ev [.svc, .log, .mem, .mirror] s (State.logRec s r) := by
  unfold State.logRec
  repeat' first
    | with_reducible apply Ev.refl
    | with_reducible assumption
    | (extract_lets +onlyGivenNames y; with_reducible refine Ev.keep y ?_ ?_; rotate_left; subst y; rotate_left; clear_value y; intro hy)
    | (extract_lets +onlyGivenNames x; revert x; intro _)
    | with_reducible apply Ev.then (State.mirrorRec_ev ..)
    | with_reducible apply Ev.then (State.onLog_ev ..)
    | with_reducible apply Ev.then (State.raiseSvc_ev ..)
    | (intros; show sub _ _ = true; decide)
    | split
    | with_reducible refine (?_ : Ev _ _ (ite _ _ _))
    | intro _

theorem State.dropLine_ev (s : State) (a : Nat) : Ev [.mem] s (s.dropLine a) :=
  State.onMem_ev s _ (fun h => (MemSt.drop_wf (fun x => x / 128 == a / 128) h : (s.mem.drop (fun x => x / 128 == a / 128)).wf = true))

theorem State.meetLine_ev (s : State) (c : Cond) : Ev [.svc, .log, .mem, .mirror] s (State.meetLine s c) := by
  unfold State.meetLine
  repeat' first
    | with_reducible apply Ev.refl
    | with_reducible assumption
    | (extract_lets +onlyGivenNames y; with_reducible refine Ev.keep y ?_ ?_; rotate_left; subst y; rotate_left; clear_value y; intro hy)
    | (extract_lets +onlyGivenNames x; revert x; intro _)
    | with_reducible apply Ev.then (State.dropLine_ev ..)
    | with_reducible apply Ev.then (State.logRec_ev ..)
    | (intros; show sub _ _ = true; decide)
    | split
    | with_reducible refine (?_ : Ev _ _ (ite _ _ _))
    | intro _

theorem State.meetAll_ev (s : State) (l : List Cond) : Ev [.svc, .log, .mem, .mirror] s (State.meetAll s l) := by
  unfold State.meetAll
  repeat' first
    | with_reducible apply Ev.refl
    | with_reducible assumption
    | (extract_lets +onlyGivenNames y; with_reducible refine Ev.keep y ?_ ?_; rotate_left; subst y; rotate_left; clear_value y; intro hy)
    | (extract_lets +onlyGivenNames x; revert x; intro _)
    | (with_reducible apply Ev.foldl; intro _ _ _)
    | with_reducible apply Ev.then (State.meetLine_ev ..)
    | (intros; show sub _ _ = true; decide)
    | split
    | with_reducible refine (?_ : Ev _ _ (ite _ _ _))
    | intro _

theorem State.report_ev (s : State) : Ev [.blk, .svc, .log, .mem, .mirror] s (State.report s) := by
  unfold State.report
  repeat' first
    | with_reducible apply Ev.refl
    | with_reducible assumption
    | (extract_lets +onlyGivenNames y; with_reducible refine Ev.keep y ?_ ?_; rotate_left; subst y; rotate_left; clear_value y; intro hy)
    | (extract_lets +onlyGivenNames x; revert x; intro _)
    | (with_reducible apply Ev.foldl; intro _ _ _)
    | with_reducible apply Ev.then (State.logRec_ev ..)
    | with_reducible apply Ev.then (State.onBlk_ev _ _ ?_)
    | exact Nat.and_self _
    | (intros; show sub _ _ = true; decide)
    | split
    | with_reducible refine (?_ : Ev _ _ (ite _ _ _))
    | intro _

theorem State.onCmd_ev (s : State) (k : Key) (f : Cmd → Cmd) : Ev [.cp] s (State.onCmd s k f) := by
  unfold State.onCmd
  repeat' first
    | with_reducible apply Ev.refl
    | with_reducible assumption
    | (extract_lets +onlyGivenNames y; with_reducible refine Ev.keep y ?_ ?_; rotate_left; subst y; rotate_left; clear_value y; intro hy)
    | (extract_lets +onlyGivenNames x; revert x; intro _)
    | with_reducible apply Ev.then (State.onCp_ev ..)
    | (intros; show sub _ _ = true; decide)
    | split
    | with_reducible refine (?_ : Ev _ _ (ite _ _ _))
    | intro _

theorem State.dropCmd_ev (s : State) (k : Key) : Ev [.cp] s (State.dropCmd s k) := by
  unfold State.dropCmd
  repeat' first
    | with_reducible apply Ev.refl
    | with_reducible assumption
    | (extract_lets +onlyGivenNames y; with_reducible refine Ev.keep y ?_ ?_; rotate_left; subst y; rotate_left; clear_value y; intro hy)
    | (extract_lets +onlyGivenNames x; revert x; intro _)
    | with_reducible apply Ev.then (State.onCp_ev ..)
    | (intros; show sub _ _ = true; decide)
    | split
    | with_reducible refine (?_ : Ev _ _ (ite _ _ _))
    | intro _

theorem State.addCmd_ev (s : State) (c : Cmd) : Ev [.cp] s (State.addCmd s c) := by
  unfold State.addCmd
  repeat' first
    | with_reducible apply Ev.refl
    | with_reducible assumption
    | (extract_lets +onlyGivenNames y; with_reducible refine Ev.keep y ?_ ?_; rotate_left; subst y; rotate_left; clear_value y; intro hy)
    | (extract_lets +onlyGivenNames x; revert x; intro _)
    | with_reducible apply Ev.then (State.onCp_ev ..)
    | (intros; show sub _ _ = true; decide)
    | split
    | with_reducible refine (?_ : Ev _ _ (ite _ _ _))
    | intro _

theorem State.onComp_ev (s : State) (k : Key) (f : Comp → Comp) : Ev [.cp] s (State.onComp s k f) := by
  unfold State.onComp
  repeat' first
    | with_reducible apply Ev.refl
    | with_reducible assumption
    | (extract_lets +onlyGivenNames y; with_reducible refine Ev.keep y ?_ ?_; rotate_left; subst y; rotate_left; clear_value y; intro hy)
    | (extract_lets +onlyGivenNames x; revert x; intro _)
    | with_reducible apply Ev.then (State.onCmd_ev ..)
    | (intros; show sub _ _ = true; decide)
    | split
    | with_reducible refine (?_ : Ev _ _ (ite _ _ _))
    | intro _

theorem State.writeArea_ev (s : State) (c : Comp) (i ctx op st status : Nat) : Ev [.mem] s (State.writeArea s c i ctx op st status) := by
  unfold State.writeArea
  repeat' first
    | with_reducible apply Ev.refl
    | with_reducible assumption
    | (extract_lets +onlyGivenNames y; with_reducible refine Ev.keep y ?_ ?_; rotate_left; subst y; rotate_left; clear_value y; intro hy)
    | (extract_lets +onlyGivenNames x; revert x; intro _)
    | with_reducible apply Ev.then (State.store_ev ..)
    | (intros; show sub _ _ = true; decide)
    | split
    | with_reducible refine (?_ : Ev _ _ (ite _ _ _))
    | intro _

theorem State.syncArea_ev (s : State) (k : Key) : Ev [.mem] s (State.syncArea s k) := by
  unfold State.syncArea
  repeat' first
    | with_reducible apply Ev.refl
    | with_reducible assumption
    | (extract_lets +onlyGivenNames y; with_reducible refine Ev.keep y ?_ ?_; rotate_left; subst y; rotate_left; clear_value y; intro hy)
    | (extract_lets +onlyGivenNames x; revert x; intro _)
    | with_reducible apply Ev.then (State.writeArea_ev ..)
    | (intros; show sub _ _ = true; decide)
    | split
    | with_reducible refine (?_ : Ev _ _ (ite _ _ _))
    | intro _

theorem State.settleArea_ev (s : State) (c : Cmd) (fin : Cond) : Ev [.cp, .mem] s (State.settleArea s c fin).1 := by
  unfold State.settleArea
  repeat' first
    | with_reducible apply Ev.refl
    | with_reducible assumption
    | (extract_lets +onlyGivenNames y; with_reducible refine Ev.keep y ?_ ?_; rotate_left; subst y; rotate_left; clear_value y; intro hy)
    | (extract_lets +onlyGivenNames x; revert x; intro _)
    | with_reducible apply Ev.then (State.onCp_ev ..)
    | with_reducible apply Ev.then (State.writeArea_ev ..)
    | (intros; show sub _ _ = true; decide)
    | split
    | with_reducible refine (?_ : Ev _ _ (ite _ _ _))
    | intro _

theorem State.settleArea_of {s : State} {c : Cmd} {fin : Cond} {t : State} {x} (h : State.settleArea s c fin = (t, x)) : Ev [.cp, .mem] s t := by
  have g := State.settleArea_ev s c fin
  rw [h] at g
  exact g

theorem State.reply_ev (s : State) (c : Cmd) : Ev [.svc, .log, .ctxs, .qs, .cp, .mem, .mirror] s (State.reply s c) := by
  unfold State.reply
  repeat' first
    | with_reducible apply Ev.refl
    | with_reducible assumption
    | (extract_lets +onlyGivenNames y; with_reducible refine Ev.keep y ?_ ?_; rotate_left; subst y; rotate_left; clear_value y; intro hy)
    | (extract_lets +onlyGivenNames x; revert x; intro _)
    | with_reducible apply Ev.then (State.dropCmd_ev ..)
    | with_reducible apply Ev.then (State.meetAll_ev ..)
    | with_reducible apply Ev.then (State.onCtx_ev ..)
    | with_reducible apply Ev.then (State.onQ_ev ..)
    | (with_reducible apply Ev.then (State.settleArea_of (by assumption)))
    | with_reducible apply Ev.then (State.settleArea_ev ..)
    | with_reducible apply Ev.then (State.store_ev ..)
    | (intros; show sub _ _ = true; decide)
    | split
    | with_reducible refine (?_ : Ev _ _ (ite _ _ _))
    | intro _

theorem State.takePacket_ev (s : State) (q : Nat) : Ev [.qs] s (State.takePacket s q) := by
  unfold State.takePacket
  repeat' first
    | with_reducible apply Ev.refl
    | with_reducible assumption
    | (extract_lets +onlyGivenNames y; with_reducible refine Ev.keep y ?_ ?_; rotate_left; subst y; rotate_left; clear_value y; intro hy)
    | (extract_lets +onlyGivenNames x; revert x; intro _)
    | with_reducible apply Ev.then (State.onQ_ev ..)
    | (intros; show sub _ _ = true; decide)
    | split
    | with_reducible refine (?_ : Ev _ _ (ite _ _ _))
    | intro _

theorem State.riseToCeiling_ev (s : State) : Ev [.kpr] s (State.riseToCeiling s) := by
  unfold State.riseToCeiling
  repeat' first
    | with_reducible apply Ev.refl
    | with_reducible assumption
    | (extract_lets +onlyGivenNames y; with_reducible refine Ev.keep y ?_ ?_; rotate_left; subst y; rotate_left; clear_value y; intro hy)
    | (extract_lets +onlyGivenNames x; revert x; intro _)
    | with_reducible apply Ev.then (State.onKpr_ev ..)
    | (intros; show sub _ _ = true; decide)
    | split
    | with_reducible refine (?_ : Ev _ _ (ite _ _ _))
    | intro _

theorem State.wake_ev (s : State) : Ev [.kpr, .pwr] s (State.wake s) := by
  unfold State.wake
  repeat' first
    | with_reducible apply Ev.refl
    | with_reducible assumption
    | (extract_lets +onlyGivenNames y; with_reducible refine Ev.keep y ?_ ?_; rotate_left; subst y; rotate_left; clear_value y; intro hy)
    | (extract_lets +onlyGivenNames x; revert x; intro _)
    | with_reducible apply Ev.then (State.onPwr_ev ..)
    | with_reducible apply Ev.then (State.riseToCeiling_ev ..)
    | (intros; show sub _ _ = true; decide)
    | split
    | with_reducible refine (?_ : Ev _ _ (ite _ _ _))
    | intro _

theorem withPacket_ev (s : State) (q : Nat) (isOp : Nat → Bool) (f : State → Nat → Nat → Nat → State) {l : List Field}
    (hf : ∀ u p a pos, Ev l u (f u p a pos)) (hl : sub [.svc, .log, .ctxs, .qs, .cp, .mem, .mirror] l = true) : Ev l s (withPacket s q isOp f) := by
  unfold withPacket
  split
  · exact Ev.refl _
  · extract_lets
    split
    · exact Ev.refl _
    · split
      · exact Ev.mono (Ev.then (l := [.svc, .log, .ctxs, .qs, .cp, .mem, .mirror]) (State.reply_ev ..) ((State.takePacket_ev ..).mono (by decide)) (by decide)) hl
      · exact (hf ..).then ((State.takePacket_ev s q).mono (sub_trans (by decide) hl)) (sub_refl _)

theorem State.replyNow_ev (s : State) (q pos p : Nat) (conds : List Cond) : Ev [.svc, .log, .ctxs, .qs, .cp, .mem, .mirror] s (State.replyNow s q pos p conds) := by
  unfold State.replyNow
  repeat' first
    | with_reducible apply Ev.refl
    | with_reducible assumption
    | (extract_lets +onlyGivenNames y; with_reducible refine Ev.keep y ?_ ?_; rotate_left; subst y; rotate_left; clear_value y; intro hy)
    | (extract_lets +onlyGivenNames x; revert x; intro _)
    | with_reducible apply Ev.then (State.reply_ev ..)
    | (intros; show sub _ _ = true; decide)
    | split
    | with_reducible refine (?_ : Ev _ _ (ite _ _ _))
    | intro _

theorem State.emit_ev (s : State) (img : List Byte) : Ev [.xch] s (State.emit s img) := by
  unfold State.emit
  repeat' first
    | with_reducible apply Ev.refl
    | with_reducible assumption
    | (extract_lets +onlyGivenNames y; with_reducible refine Ev.keep y ?_ ?_; rotate_left; subst y; rotate_left; clear_value y; intro hy)
    | (extract_lets +onlyGivenNames x; revert x; intro _)
    | with_reducible apply Ev.then (State.onXch_ev ..)
    | (intros; show sub _ _ = true; decide)
    | split
    | with_reducible refine (?_ : Ev _ _ (ite _ _ _))
    | intro _

theorem State.onTx_ev (s : State) (h : Nat) (f : TxHop → TxHop) : Ev [.xch] s (State.onTx s h f) := by
  unfold State.onTx
  repeat' first
    | with_reducible apply Ev.refl
    | with_reducible assumption
    | (extract_lets +onlyGivenNames y; with_reducible refine Ev.keep y ?_ ?_; rotate_left; subst y; rotate_left; clear_value y; intro hy)
    | (extract_lets +onlyGivenNames x; revert x; intro _)
    | with_reducible apply Ev.then (State.onXch_ev ..)
    | (intros; show sub _ _ = true; decide)
    | split
    | with_reducible refine (?_ : Ev _ _ (ite _ _ _))
    | intro _

theorem State.onRx_ev (s : State) (h : Nat) (f : RxHop → RxHop) : Ev [.xch] s (State.onRx s h f) := by
  unfold State.onRx
  repeat' first
    | with_reducible apply Ev.refl
    | with_reducible assumption
    | (extract_lets +onlyGivenNames y; with_reducible refine Ev.keep y ?_ ?_; rotate_left; subst y; rotate_left; clear_value y; intro hy)
    | (extract_lets +onlyGivenNames x; revert x; intro _)
    | with_reducible apply Ev.then (State.onXch_ev ..)
    | (intros; show sub _ _ = true; decide)
    | split
    | with_reducible refine (?_ : Ev _ _ (ite _ _ _))
    | intro _

theorem State.sendSync_ev (s : State) (dst base : Nat) : Ev [.xch] s (State.sendSync s dst base) := by
  unfold State.sendSync
  repeat' first
    | with_reducible apply Ev.refl
    | with_reducible assumption
    | (extract_lets +onlyGivenNames y; with_reducible refine Ev.keep y ?_ ?_; rotate_left; subst y; rotate_left; clear_value y; intro hy)
    | (extract_lets +onlyGivenNames x; revert x; intro _)
    | with_reducible apply Ev.then (State.emit_ev ..)
    | with_reducible apply Ev.then (State.onTx_ev ..)
    | (intros; show sub _ _ = true; decide)
    | split
    | with_reducible refine (?_ : Ev _ _ (ite _ _ _))
    | intro _

theorem State.sendAck_ev (s : State) (dst upTo : Nat) (request : Bool) : Ev [.xch] s (State.sendAck s dst upTo request) := by
  unfold State.sendAck
  repeat' first
    | with_reducible apply Ev.refl
    | with_reducible assumption
    | (extract_lets +onlyGivenNames y; with_reducible refine Ev.keep y ?_ ?_; rotate_left; subst y; rotate_left; clear_value y; intro hy)
    | (extract_lets +onlyGivenNames x; revert x; intro _)
    | with_reducible apply Ev.then (State.emit_ev ..)
    | (intros; show sub _ _ = true; decide)
    | split
    | with_reducible refine (?_ : Ev _ _ (ite _ _ _))
    | intro _

theorem State.txFrame_ev (s : State) (h : Hdr) (payload : List Byte) (cmd : Option Key) (isEnd : Bool) : Ev [.cp, .xch] s (State.txFrame s h payload cmd isEnd) := by
  unfold State.txFrame
  repeat' first
    | with_reducible apply Ev.refl
    | with_reducible assumption
    | (extract_lets +onlyGivenNames y; with_reducible refine Ev.keep y ?_ ?_; rotate_left; subst y; rotate_left; clear_value y; intro hy)
    | (extract_lets +onlyGivenNames x; revert x; intro _)
    | with_reducible apply Ev.then (State.emit_ev ..)
    | with_reducible apply Ev.then (State.onCmd_ev ..)
    | with_reducible apply Ev.then (State.onTx_ev ..)
    | with_reducible apply Ev.then (State.sendSync_ev ..)
    | (intros; show sub _ _ = true; decide)
    | split
    | with_reducible refine (?_ : Ev _ _ (ite _ _ _))
    | dsimp +zetaDelta only
    | intro _

theorem State.onHeld_ev (s : State) (n : Nat) (f : List Held → List Held) : Ev [.xch] s (State.onHeld s n f) := by
  unfold State.onHeld
  repeat' first
    | with_reducible apply Ev.refl
    | with_reducible assumption
    | (extract_lets +onlyGivenNames y; with_reducible refine Ev.keep y ?_ ?_; rotate_left; subst y; rotate_left; clear_value y; intro hy)
    | (extract_lets +onlyGivenNames x; revert x; intro _)
    | with_reducible apply Ev.then (State.onXch_ev ..)
    | (intros; show sub _ _ = true; decide)
    | split
    | with_reducible refine (?_ : Ev _ _ (ite _ _ _))
    | intro _

theorem State.lwAddAt_ev (s : State) (a : Nat) (w : LW) : Ev [.mem] s (State.lwAddAt s a w) := by
  unfold State.lwAddAt
  repeat' first
    | with_reducible apply Ev.refl
    | with_reducible assumption
    | (extract_lets +onlyGivenNames y; with_reducible refine Ev.keep y ?_ ?_; rotate_left; subst y; rotate_left; clear_value y; intro hy)
    | (extract_lets +onlyGivenNames x; revert x; intro _)
    | with_reducible apply Ev.then (State.store_ev ..)
    | (intros; show sub _ _ = true; decide)
    | split
    | with_reducible refine (?_ : Ev _ _ (ite _ _ _))
    | intro _

theorem State.maxAt_ev (s : State) (a v : Nat) : Ev [.mem] s (State.maxAt s a v) := by
  unfold State.maxAt
  repeat' first
    | with_reducible apply Ev.refl
    | with_reducible assumption
    | (extract_lets +onlyGivenNames y; with_reducible refine Ev.keep y ?_ ?_; rotate_left; subst y; rotate_left; clear_value y; intro hy)
    | (extract_lets +onlyGivenNames x; revert x; intro _)
    | with_reducible apply Ev.then (State.store_ev ..)
    | (intros; show sub _ _ = true; decide)
    | split
    | with_reducible refine (?_ : Ev _ _ (ite _ _ _))
    | intro _

theorem State.txEnd_ev (s : State) (c : Cmd) (dst sent frozen : Nat) : Ev [.cp, .xch] s (State.txEnd s c dst sent frozen) := by
  unfold State.txEnd
  repeat' first
    | with_reducible apply Ev.refl
    | with_reducible assumption
    | (extract_lets +onlyGivenNames y; with_reducible refine Ev.keep y ?_ ?_; rotate_left; subst y; rotate_left; clear_value y; intro hy)
    | (extract_lets +onlyGivenNames x; revert x; intro _)
    | with_reducible apply Ev.then (State.txFrame_ev ..)
    | (intros; show sub _ _ = true; decide)
    | split
    | with_reducible refine (?_ : Ev _ _ (ite _ _ _))
    | intro _

theorem State.endFrm_ev (s : State) (k : Key) (conds : List Cond) : Ev [.svc, .log, .cp, .mem, .mirror, .xch] s (State.endFrm s k conds) := by
  unfold State.endFrm
  repeat' first
    | with_reducible apply Ev.refl
    | with_reducible assumption
    | (extract_lets +onlyGivenNames y; with_reducible refine Ev.keep y ?_ ?_; rotate_left; subst y; rotate_left; clear_value y; intro hy)
    | (extract_lets +onlyGivenNames x; revert x; intro _)
    | with_reducible apply Ev.then (State.meetAll_ev ..)
    | with_reducible apply Ev.then (State.onCmd_ev ..)
    | with_reducible apply Ev.then (State.txEnd_ev ..)
    | (intros; show sub _ _ = true; decide)
    | split
    | with_reducible refine (?_ : Ev _ _ (ite _ _ _))
    | intro _

theorem State.putLongs_ev (add : Bool) : ∀ (n : Nat) (s : State) (a : Nat) (bs : List Byte), Ev [.mem] s (s.putLongs add a bs n)
  | 0, s, _, _ => Ev.refl s
  | n + 1, s, a, bs => by
    unfold State.putLongs
    extract_lets
    refine Ev.then (State.putLongs_ev add n ..) ?_ (by decide)
    repeat' first
      | with_reducible apply Ev.then (State.lwAddAt_ev ..)
      | with_reducible apply Ev.then (State.store_ev ..)
      | with_reducible exact Ev.refl _
      | (show sub _ _ = true; decide)
      | split
      | dsimp +zetaDelta only

theorem State.putMaxima_ev : ∀ (bs : List Byte) (s : State) (a : Nat), Ev [.mem] s (s.putMaxima a bs)
  | [], s, _ => Ev.refl s
  | _ :: bs, s, a => (State.putMaxima_ev bs ..).then (State.maxAt_ev ..) (by decide)

/-- What `takeFrame` answers has evolved. -/
def Take.ev (l : List Field) (s : State) : Take → Prop
  | .consumed t => Ev l s t
  | .kept t => Ev l s t

theorem State.takeFrame_ev (s : State) (c : Cmd) (r : Frm) (f : Held) : (s.takeFrame c r f).ev [.svc, .log, .cp, .mem, .mirror, .xch] s := by
  unfold State.takeFrame
  extract_lets
  repeat' first
    | split
    | unfold Take.ev; dsimp only
    | exact Ev.refl _
    | (show sub _ _ = true; decide)
    | with_reducible apply Ev.then (State.endFrm_ev ..)
    | with_reducible apply Ev.then (State.onCmd_ev ..)
    | with_reducible apply Ev.then (State.onHeld_ev ..)
    | with_reducible apply Ev.then (State.putLongs_ev ..)
    | with_reducible apply Ev.then (State.putMaxima_ev ..)
    | with_reducible apply Ev.then (State.parkWrite_ev ..)
    | with_reducible apply Ev.then (State.dropLine_ev ..)
    | with_reducible apply Ev.then (State.logRec_ev ..)

theorem State.completeFrm_ev (s : State) (k : Key) : Ev [.svc, .log, .cp, .mem, .mirror, .xch] s (State.completeFrm s k) := by
  unfold State.completeFrm
  repeat' first
    | with_reducible apply Ev.refl
    | with_reducible assumption
    | (extract_lets +onlyGivenNames y; with_reducible refine Ev.keep y ?_ ?_; rotate_left; subst y; rotate_left; clear_value y; intro hy)
    | (extract_lets +onlyGivenNames x; revert x; intro _)
    | with_reducible apply Ev.then (State.endFrm_ev ..)
    | with_reducible apply Ev.then (State.store_ev ..)
    | (intros; show sub _ _ = true; decide)
    | split
    | with_reducible refine (?_ : Ev _ _ (ite _ _ _))
    | intro _

theorem State.matchFrames_ev : ∀ (fuel n : Nat) (s : State), Ev [.svc, .log, .cp, .mem, .mirror, .xch] s (s.matchFrames fuel n)
  | 0, _, s => Ev.refl s
  | fuel + 1, n, s => by
    unfold State.matchFrames
    split
    · exact Ev.refl s
    · next f c _ =>
      split
      · exact Ev.refl s
      · next r _ =>
        have h := State.takeFrame_ev s c r f
        split
        · next e =>
          rw [e] at h
          exact (State.matchFrames_ev fuel n _).then
            ((State.completeFrm_ev ..).then ((State.onHeld_ev ..).then h (by decide)) (by decide)) (by decide)
        · next e =>
          rw [e] at h
          exact (State.matchFrames_ev fuel n _).then h (by decide)

theorem State.matchAll_ev (s : State) (n : Nat) : Ev [.svc, .log, .cp, .mem, .mirror, .xch] s (State.matchAll s n) := by
  unfold State.matchAll
  repeat' first
    | with_reducible apply Ev.refl
    | with_reducible assumption
    | (extract_lets +onlyGivenNames y; with_reducible refine Ev.keep y ?_ ?_; rotate_left; subst y; rotate_left; clear_value y; intro hy)
    | (extract_lets +onlyGivenNames x; revert x; intro _)
    | with_reducible apply Ev.then (State.matchFrames_ev ..)
    | (intros; show sub _ _ = true; decide)
    | split
    | with_reducible refine (?_ : Ev _ _ (ite _ _ _))
    | intro _

theorem State.holdFrame_ev (s : State) (h : Nat) (payload : List Byte) : Ev [.svc, .log, .cp, .mem, .mirror, .xch] s (State.holdFrame s h payload) := by
  unfold State.holdFrame
  repeat' first
    | with_reducible apply Ev.refl
    | with_reducible assumption
    | (extract_lets +onlyGivenNames y; with_reducible refine Ev.keep y ?_ ?_; rotate_left; subst y; rotate_left; clear_value y; intro hy)
    | (extract_lets +onlyGivenNames x; revert x; intro _)
    | with_reducible apply Ev.then (State.matchAll_ev ..)
    | with_reducible apply Ev.then (State.onHeld_ev ..)
    | (intros; show sub _ _ = true; decide)
    | split
    | with_reducible refine (?_ : Ev _ _ (ite _ _ _))
    | intro _

theorem State.logReject_ev (s : State) (h c : Nat) : Ev [.svc, .log, .mem, .mirror] s (State.logReject s h c) := by
  unfold State.logReject
  repeat' first
    | with_reducible apply Ev.refl
    | with_reducible assumption
    | (extract_lets +onlyGivenNames y; with_reducible refine Ev.keep y ?_ ?_; rotate_left; subst y; rotate_left; clear_value y; intro hy)
    | (extract_lets +onlyGivenNames x; revert x; intro _)
    | with_reducible apply Ev.then (State.logRec_ev ..)
    | (intros; show sub _ _ = true; decide)
    | split
    | with_reducible refine (?_ : Ev _ _ (ite _ _ _))
    | intro _

theorem State.judgeFrame_ev (s : State) (h : Nat) (payload : List Byte) : Ev [.svc, .log, .cp, .mem, .mirror, .xch] s (State.judgeFrame s h payload) := by
  unfold State.judgeFrame
  repeat' first
    | with_reducible apply Ev.refl
    | with_reducible assumption
    | (extract_lets +onlyGivenNames y; with_reducible refine Ev.keep y ?_ ?_; rotate_left; subst y; rotate_left; clear_value y; intro hy)
    | (extract_lets +onlyGivenNames x; revert x; intro _)
    | with_reducible apply Ev.then (State.holdFrame_ev ..)
    | with_reducible apply Ev.then (State.logReject_ev ..)
    | (intros; show sub _ _ = true; decide)
    | split
    | with_reducible refine (?_ : Ev _ _ (ite _ _ _))
    | intro _

theorem State.sendFrame_ev (s : State) (h : Hdr) (payload : List Byte) (cmd : Option Key) : Ev [.svc, .log, .cp, .mem, .mirror, .xch] s (State.sendFrame s h payload cmd) := by
  unfold State.sendFrame
  repeat' first
    | with_reducible apply Ev.refl
    | with_reducible assumption
    | (extract_lets +onlyGivenNames y; with_reducible refine Ev.keep y ?_ ?_; rotate_left; subst y; rotate_left; clear_value y; intro hy)
    | (extract_lets +onlyGivenNames x; revert x; intro _)
    | with_reducible apply Ev.then (State.judgeFrame_ev ..)
    | with_reducible apply Ev.then (State.onCmd_ev ..)
    | with_reducible apply Ev.then (State.txFrame_ev ..)
    | (intros; show sub _ _ = true; decide)
    | split
    | with_reducible refine (?_ : Ev _ _ (ite _ _ _))
    | dsimp +zetaDelta only
    | intro _

end Sys2Proof.Machine
end

