-- ==== Sys2Proof/Laws/EvolveWork.lean ====
section
/-! SUPPORT. How the ledger, claims, feeders, arrays, thin halves, drains and dispatch let the state evolve. -/
namespace Sys2Proof.Machine

set_option linter.all false

theorem State.setMail_ev (s : State) (u : Nat) (m : Option Seed) : Ev [.arrays, .halves, .cores] s (State.setMail s u m) := by
  unfold State.setMail
  repeat' first
    | with_reducible apply Ev.refl
    | with_reducible assumption
    | (extract_lets +onlyGivenNames y; with_reducible refine Ev.keep y ?_ ?_; rotate_left; subst y; rotate_left; clear_value y; intro hy)
    | (extract_lets +onlyGivenNames x; revert x; intro _)
    | with_reducible apply Ev.then (State.onArray_ev ..)
    | with_reducible apply Ev.then (State.onCore_ev ..)
    | with_reducible apply Ev.then (State.onHalf_ev ..)
    | (intros; show sub _ _ = true; decide)
    | split
    | with_reducible refine (?_ : Ev _ _ (ite _ _ _))
    | intro _

theorem State.setHold_ev (s : State) (u : Nat) (m : Option (Key × Nat)) : Ev [.arrays, .halves, .cores] s (State.setHold s u m) := by
  unfold State.setHold
  repeat' first
    | with_reducible apply Ev.refl
    | with_reducible assumption
    | (extract_lets +onlyGivenNames y; with_reducible refine Ev.keep y ?_ ?_; rotate_left; subst y; rotate_left; clear_value y; intro hy)
    | (extract_lets +onlyGivenNames x; revert x; intro _)
    | with_reducible apply Ev.then (State.onArray_ev ..)
    | with_reducible apply Ev.then (State.onCore_ev ..)
    | with_reducible apply Ev.then (State.onHalf_ev ..)
    | (intros; show sub _ _ = true; decide)
    | split
    | with_reducible refine (?_ : Ev _ _ (ite _ _ _))
    | intro _

theorem State.onDrains_ev (s : State) (u : Nat) (f : List Drain → List Drain) : Ev [.arrays, .halves, .cores] s (State.onDrains s u f) := by
  unfold State.onDrains
  repeat' first
    | with_reducible apply Ev.refl
    | with_reducible assumption
    | (extract_lets +onlyGivenNames y; with_reducible refine Ev.keep y ?_ ?_; rotate_left; subst y; rotate_left; clear_value y; intro hy)
    | (extract_lets +onlyGivenNames x; revert x; intro _)
    | with_reducible apply Ev.then (State.onArray_ev ..)
    | with_reducible apply Ev.then (State.onCore_ev ..)
    | with_reducible apply Ev.then (State.onHalf_ev ..)
    | (intros; show sub _ _ = true; decide)
    | split
    | with_reducible refine (?_ : Ev _ _ (ite _ _ _))
    | intro _

theorem State.onNoDraw_ev (s : State) (u : Nat) (f : List Key → List Key) : Ev [.arrays, .halves, .cores] s (State.onNoDraw s u f) := by
  unfold State.onNoDraw
  repeat' first
    | with_reducible apply Ev.refl
    | with_reducible assumption
    | (extract_lets +onlyGivenNames y; with_reducible refine Ev.keep y ?_ ?_; rotate_left; subst y; rotate_left; clear_value y; intro hy)
    | (extract_lets +onlyGivenNames x; revert x; intro _)
    | with_reducible apply Ev.then (State.onArray_ev ..)
    | with_reducible apply Ev.then (State.onCore_ev ..)
    | with_reducible apply Ev.then (State.onHalf_ev ..)
    | (intros; show sub _ _ = true; decide)
    | split
    | with_reducible refine (?_ : Ev _ _ (ite _ _ _))
    | intro _

theorem State.holdLines_ev (s : State) (key : Key) (tile : Nat × Nat × Nat × Nat) (lines : List Nat) : Ev [.mem] s (State.holdLines s key tile lines) := by
  unfold State.holdLines
  repeat' first
    | with_reducible apply Ev.refl
    | with_reducible assumption
    | (extract_lets +onlyGivenNames y; with_reducible refine Ev.keep y ?_ ?_; rotate_left; subst y; rotate_left; clear_value y; intro hy)
    | (extract_lets +onlyGivenNames x; revert x; intro _)
    | with_reducible apply Ev.then (State.onMem_ev _ _ ?_)
    | exact MemSt.flush_wf _
    | exact MemSt.write_wf _ _
    | exact MemSt.drop_wf _
    | exact fun h => h
    | (intros; show sub _ _ = true; decide)
    | split
    | with_reducible refine (?_ : Ev _ _ (ite _ _ _))
    | intro _

theorem State.letGo_ev (s : State) : Ev [.mem] s (State.letGo s) := by
  unfold State.letGo
  repeat' first
    | with_reducible apply Ev.refl
    | with_reducible assumption
    | (extract_lets +onlyGivenNames y; with_reducible refine Ev.keep y ?_ ?_; rotate_left; subst y; rotate_left; clear_value y; intro hy)
    | (extract_lets +onlyGivenNames x; revert x; intro _)
    | with_reducible apply Ev.then (State.onMem_ev _ _ ?_)
    | exact MemSt.flush_wf _
    | exact MemSt.write_wf _ _
    | exact MemSt.drop_wf _
    | exact fun h => h
    | (intros; show sub _ _ = true; decide)
    | split
    | with_reducible refine (?_ : Ev _ _ (ite _ _ _))
    | intro _

theorem State.charge_ev (s : State) (u : Nat) (key : Key) (steps : Nat) : Ev [.cores] s (State.charge s u key steps) := by
  unfold State.charge
  repeat' first
    | with_reducible apply Ev.refl
    | with_reducible assumption
    | (extract_lets +onlyGivenNames y; with_reducible refine Ev.keep y ?_ ?_; rotate_left; subst y; rotate_left; clear_value y; intro hy)
    | (extract_lets +onlyGivenNames x; revert x; intro _)
    | with_reducible apply Ev.then (State.onCore_ev ..)
    | (intros; show sub _ _ = true; decide)
    | split
    | with_reducible refine (?_ : Ev _ _ (ite _ _ _))
    | intro _

theorem State.unbind_ev (s : State) (u : Nat) (sd : Seed) : Ev [.cores] s (State.unbind s u sd) := by
  unfold State.unbind
  repeat' first
    | with_reducible apply Ev.refl
    | with_reducible assumption
    | (extract_lets +onlyGivenNames y; with_reducible refine Ev.keep y ?_ ?_; rotate_left; subst y; rotate_left; clear_value y; intro hy)
    | (extract_lets +onlyGivenNames x; revert x; intro _)
    | with_reducible apply Ev.then (State.onCore_ev ..)
    | (intros; show sub _ _ = true; decide)
    | split
    | with_reducible refine (?_ : Ev _ _ (ite _ _ _))
    | intro _

theorem State.release_ev (s : State) (u : Nat) (sd : Seed) : Ev [.cores] s (State.release s u sd) := by
  unfold State.release
  repeat' first
    | with_reducible apply Ev.refl
    | with_reducible assumption
    | (extract_lets +onlyGivenNames y; with_reducible refine Ev.keep y ?_ ?_; rotate_left; subst y; rotate_left; clear_value y; intro hy)
    | (extract_lets +onlyGivenNames x; revert x; intro _)
    | with_reducible apply Ev.then (State.unbind_ev ..)
    | (intros; show sub _ _ = true; decide)
    | split
    | with_reducible refine (?_ : Ev _ _ (ite _ _ _))
    | intro _

theorem State.specEnds_ev (s : State) (sd : Seed) : Ev [.cp] s (State.specEnds s sd) := by
  unfold State.specEnds
  repeat' first
    | with_reducible apply Ev.refl
    | with_reducible assumption
    | (extract_lets +onlyGivenNames y; with_reducible refine Ev.keep y ?_ ?_; rotate_left; subst y; rotate_left; clear_value y; intro hy)
    | (extract_lets +onlyGivenNames x; revert x; intro _)
    | with_reducible apply Ev.then (State.onComp_ev ..)
    | (intros; show sub _ _ = true; decide)
    | split
    | with_reducible refine (?_ : Ev _ _ (ite _ _ _))
    | intro _

theorem State.dropWalk_ev (s : State) (u : Nat) (sd : Seed) : Ev [.arrays, .halves, .cores] s (State.dropWalk s u sd) := by
  unfold State.dropWalk
  repeat' first
    | with_reducible apply Ev.refl
    | with_reducible assumption
    | (extract_lets +onlyGivenNames y; with_reducible refine Ev.keep y ?_ ?_; rotate_left; subst y; rotate_left; clear_value y; intro hy)
    | (extract_lets +onlyGivenNames x; revert x; intro _)
    | with_reducible apply Ev.then (State.onArray_ev ..)
    | with_reducible apply Ev.then (State.onCore_ev ..)
    | with_reducible apply Ev.then (State.onHalf_ev ..)
    | (intros; show sub _ _ = true; decide)
    | split
    | with_reducible refine (?_ : Ev _ _ (ite _ _ _))
    | intro _

theorem State.wipe_ev (s : State) (u : Nat) (d : Drain) (kept : List Drain) : Ev [.tun] s (State.wipe s u d kept) := by
  unfold State.wipe
  repeat' first
    | with_reducible apply Ev.refl
    | with_reducible assumption
    | (extract_lets +onlyGivenNames y; with_reducible refine Ev.keep y ?_ ?_; rotate_left; subst y; rotate_left; clear_value y; intro hy)
    | (extract_lets +onlyGivenNames x; revert x; intro _)
    | with_reducible apply Ev.then (State.onTun_ev ..)
    | (intros; show sub _ _ = true; decide)
    | split
    | with_reducible refine (?_ : Ev _ _ (ite _ _ _))
    | intro _

theorem State.abandon_ev (s : State) (u : Nat) (sd : Seed) (stays : Drain → Bool) : Ev [.cp, .arrays, .halves, .cores, .tun] s (State.abandon s u sd stays) := by
  unfold State.abandon
  repeat' first
    | with_reducible apply Ev.refl
    | with_reducible assumption
    | (extract_lets +onlyGivenNames y; with_reducible refine Ev.keep y ?_ ?_; rotate_left; subst y; rotate_left; clear_value y; intro hy)
    | (extract_lets +onlyGivenNames x; revert x; intro _)
    | (with_reducible apply Ev.foldl; intro _ _ _)
    | with_reducible apply Ev.then (State.charge_ev ..)
    | with_reducible apply Ev.then (State.dropWalk_ev ..)
    | with_reducible apply Ev.then (State.onComp_ev ..)
    | with_reducible apply Ev.then (State.onDrains_ev ..)
    | with_reducible apply Ev.then (State.release_ev ..)
    | with_reducible apply Ev.then (State.specEnds_ev ..)
    | with_reducible apply Ev.then (State.wipe_ev ..)
    | (intros; show sub _ _ = true; decide)
    | split
    | with_reducible refine (?_ : Ev _ _ (ite _ _ _))
    | intro _

theorem State.maskFault_ev (s : State) (key : Key) (log : Nat) : Ev [.cp] s (State.maskFault s key log) := by
  unfold State.maskFault
  repeat' first
    | with_reducible apply Ev.refl
    | with_reducible assumption
    | (extract_lets +onlyGivenNames y; with_reducible refine Ev.keep y ?_ ?_; rotate_left; subst y; rotate_left; clear_value y; intro hy)
    | (extract_lets +onlyGivenNames x; revert x; intro _)
    | with_reducible apply Ev.then (State.onCmd_ev ..)
    | (intros; show sub _ _ = true; decide)
    | split
    | with_reducible refine (?_ : Ev _ _ (ite _ _ _))
    | intro _

theorem State.dropQueued_ev (s : State) (p : Seed → Bool) : Ev [.cp, .arrays, .halves, .cores] s (State.dropQueued s p) := by
  unfold State.dropQueued
  repeat' first
    | with_reducible apply Ev.refl
    | with_reducible assumption
    | (extract_lets +onlyGivenNames y; with_reducible refine Ev.keep y ?_ ?_; rotate_left; subst y; rotate_left; clear_value y; intro hy)
    | (extract_lets +onlyGivenNames x; revert x; intro _)
    | (with_reducible apply Ev.foldl; intro _ _ _)
    | with_reducible apply Ev.then (State.onCp_ev ..)
    | with_reducible apply Ev.then (State.setMail_ev ..)
    | with_reducible apply Ev.then (State.specEnds_ev ..)
    | (intros; show sub _ _ = true; decide)
    | split
    | with_reducible refine (?_ : Ev _ _ (ite _ _ _))
    | intro _

theorem State.stopCopies_ev (s : State) (key : Key) (ord : Nat) : Ev [.cp, .arrays, .halves, .cores, .tun] s (State.stopCopies s key ord) := by
  unfold State.stopCopies
  repeat' first
    | with_reducible apply Ev.refl
    | with_reducible assumption
    | (extract_lets +onlyGivenNames y; with_reducible refine Ev.keep y ?_ ?_; rotate_left; subst y; rotate_left; clear_value y; intro hy)
    | (extract_lets +onlyGivenNames x; revert x; intro _)
    | (with_reducible apply Ev.foldl; intro _ _ _)
    | with_reducible apply Ev.then (State.abandon_ev ..)
    | with_reducible apply Ev.then (State.dropQueued_ev ..)
    | (intros; show sub _ _ = true; decide)
    | split
    | with_reducible refine (?_ : Ev _ _ (ite _ _ _))
    | intro _

theorem State.cfMaxAt_ev (s : State) (a : Nat) (c : CF) : Ev [.mem] s (State.cfMaxAt s a c) := by
  unfold State.cfMaxAt
  repeat' first
    | with_reducible apply Ev.refl
    | with_reducible assumption
    | (extract_lets +onlyGivenNames y; with_reducible refine Ev.keep y ?_ ?_; rotate_left; subst y; rotate_left; clear_value y; intro hy)
    | (extract_lets +onlyGivenNames x; revert x; intro _)
    | with_reducible apply Ev.then (State.store_ev ..)
    | (intros; show sub _ _ = true; decide)
    | split
    | with_reducible refine (?_ : Ev _ _ (ite _ _ _))
    | intro _

theorem State.applyStaged_ev (s : State) (cmd : Cmd) (x : Staged) :
    Ev [.svc, .log, .cp, .mem, .mirror, .xch] s (s.applyStaged cmd x) := by
  unfold State.applyStaged
  repeat' first
    | with_reducible exact Ev.refl _
    | extract_lets
    | with_reducible apply Ev.then (State.lwAddAt_ev ..)
    | with_reducible apply Ev.then (State.cfMaxAt_ev ..)
    | with_reducible apply Ev.then (State.store_ev ..)
    | with_reducible apply Ev.then (State.sendFrame_ev ..)
    | (show sub _ _ = true; decide)
    | split

theorem State.applyAll_ev (s : State) (cmd : Cmd) (l : List Staged) : Ev [.svc, .log, .cp, .mem, .mirror, .xch] s (State.applyAll s cmd l) := by
  unfold State.applyAll
  repeat' first
    | with_reducible apply Ev.refl
    | with_reducible assumption
    | (extract_lets +onlyGivenNames y; with_reducible refine Ev.keep y ?_ ?_; rotate_left; subst y; rotate_left; clear_value y; intro hy)
    | (extract_lets +onlyGivenNames x; revert x; intro _)
    | (with_reducible apply Ev.foldl; intro _ _ _)
    | with_reducible apply Ev.then (State.applyStaged_ev ..)
    | (intros; show sub _ _ = true; decide)
    | split
    | with_reducible refine (?_ : Ev _ _ (ite _ _ _))
    | intro _

theorem State.setDenomValid_ev (s : State) (c : Comp) (p : Nat) : Ev [.mem] s (State.setDenomValid s c p) := by
  unfold State.setDenomValid
  repeat' first
    | with_reducible apply Ev.refl
    | with_reducible assumption
    | (extract_lets +onlyGivenNames y; with_reducible refine Ev.keep y ?_ ?_; rotate_left; subst y; rotate_left; clear_value y; intro hy)
    | (extract_lets +onlyGivenNames x; revert x; intro _)
    | (with_reducible apply Ev.foldl; intro _ _ _)
    | with_reducible apply Ev.then (State.store_ev ..)
    | (intros; show sub _ _ = true; decide)
    | split
    | with_reducible refine (?_ : Ev _ _ (ite _ _ _))
    | intro _

theorem State.writeRuns_ev : ∀ (n : Nat) (key : Key) (s : State), Ev [.cp] s (s.writeRuns n key)
  | 0, _, s => Ev.refl s
  | n + 1, key, s => by
    unfold State.writeRuns
    split
    · exact (State.writeRuns_ev n key _).then (State.onComp_ev ..) (by decide)
    · exact Ev.refl s

theorem State.writeAllRuns_ev (s : State) (key : Key) : Ev [.cp] s (State.writeAllRuns s key) := by
  unfold State.writeAllRuns
  repeat' first
    | with_reducible apply Ev.refl
    | with_reducible assumption
    | (extract_lets +onlyGivenNames y; with_reducible refine Ev.keep y ?_ ?_; rotate_left; subst y; rotate_left; clear_value y; intro hy)
    | (extract_lets +onlyGivenNames x; revert x; intro _)
    | with_reducible apply Ev.then (State.writeRuns_ev ..)
    | (intros; show sub _ _ = true; decide)
    | split
    | with_reducible refine (?_ : Ev _ _ (ite _ _ _))
    | intro _

theorem State.allowDraws_ev (s : State) (key : Key) : Ev [.arrays, .halves, .cores] s (State.allowDraws s key) := by
  unfold State.allowDraws
  repeat' first
    | with_reducible apply Ev.refl
    | with_reducible assumption
    | (extract_lets +onlyGivenNames y; with_reducible refine Ev.keep y ?_ ?_; rotate_left; subst y; rotate_left; clear_value y; intro hy)
    | (extract_lets +onlyGivenNames x; revert x; intro _)
    | (with_reducible apply Ev.foldl; intro _ _ _)
    | with_reducible apply Ev.then (State.onNoDraw_ev ..)
    | (intros; show sub _ _ = true; decide)
    | split
    | with_reducible refine (?_ : Ev _ _ (ite _ _ _))
    | intro _

theorem State.beginPhase2_ev (s : State) (key : Key) : Ev [.cp, .arrays, .halves, .cores] s (State.beginPhase2 s key) := by
  unfold State.beginPhase2
  repeat' first
    | with_reducible apply Ev.refl
    | with_reducible assumption
    | (extract_lets +onlyGivenNames y; with_reducible refine Ev.keep y ?_ ?_; rotate_left; subst y; rotate_left; clear_value y; intro hy)
    | (extract_lets +onlyGivenNames x; revert x; intro _)
    | with_reducible apply Ev.then (State.allowDraws_ev ..)
    | with_reducible apply Ev.then (State.onComp_ev ..)
    | with_reducible apply Ev.then (State.writeAllRuns_ev ..)
    | (intros; show sub _ _ = true; decide)
    | split
    | with_reducible refine (?_ : Ev _ _ (ite _ _ _))
    | intro _

theorem State.finishCmd_ev (s : State) (key : Key) (cmd : Cmd) (c : Comp) : Ev [.cp, .xch] s (State.finishCmd s key cmd c) := by
  unfold State.finishCmd
  repeat' first
    | with_reducible apply Ev.refl
    | with_reducible assumption
    | (extract_lets +onlyGivenNames y; with_reducible refine Ev.keep y ?_ ?_; rotate_left; subst y; rotate_left; clear_value y; intro hy)
    | (extract_lets +onlyGivenNames x; revert x; intro _)
    | with_reducible apply Ev.then (State.onCmd_ev ..)
    | with_reducible apply Ev.then (State.txEnd_ev ..)
    | (intros; show sub _ _ = true; decide)
    | split
    | with_reducible refine (?_ : Ev _ _ (ite _ _ _))
    | intro _

theorem State.settleOnce_ev (s : State) (key : Key) : Ev [.cp, .arrays, .halves, .cores, .mem, .xch] s (State.settleOnce s key) := by
  unfold State.settleOnce
  repeat' first
    | with_reducible apply Ev.refl
    | with_reducible assumption
    | (extract_lets +onlyGivenNames y; with_reducible refine Ev.keep y ?_ ?_; rotate_left; subst y; rotate_left; clear_value y; intro hy)
    | (extract_lets +onlyGivenNames x; revert x; intro _)
    | with_reducible apply Ev.then (State.beginPhase2_ev ..)
    | with_reducible apply Ev.then (State.finishCmd_ev ..)
    | with_reducible apply Ev.then (State.setDenomValid_ev ..)
    | (intros; show sub _ _ = true; decide)
    | split
    | with_reducible refine (?_ : Ev _ _ (ite _ _ _))
    | intro _

theorem State.settle_ev (s : State) (key : Key) : Ev [.cp, .arrays, .halves, .cores, .mem, .xch] s (State.settle s key) := by
  unfold State.settle
  repeat' first
    | with_reducible apply Ev.refl
    | with_reducible assumption
    | (extract_lets +onlyGivenNames y; with_reducible refine Ev.keep y ?_ ?_; rotate_left; subst y; rotate_left; clear_value y; intro hy)
    | (extract_lets +onlyGivenNames x; revert x; intro _)
    | with_reducible apply Ev.then (State.settleOnce_ev ..)
    | (intros; show sub _ _ = true; decide)
    | split
    | with_reducible refine (?_ : Ev _ _ (ite _ _ _))
    | intro _

theorem State.tidy_ev (s : State) (key : Key) : Ev [.cp, .arrays, .halves, .cores, .mem, .xch] s (State.tidy s key) := by
  unfold State.tidy
  repeat' first
    | with_reducible apply Ev.refl
    | with_reducible assumption
    | (extract_lets +onlyGivenNames y; with_reducible refine Ev.keep y ?_ ?_; rotate_left; subst y; rotate_left; clear_value y; intro hy)
    | (extract_lets +onlyGivenNames x; revert x; intro _)
    | with_reducible apply Ev.then (State.letGo_ev ..)
    | with_reducible apply Ev.then (State.onComp_ev ..)
    | with_reducible apply Ev.then (State.settle_ev ..)
    | with_reducible apply Ev.then (State.syncArea_ev ..)
    | (intros; show sub _ _ = true; decide)
    | split
    | with_reducible refine (?_ : Ev _ _ (ite _ _ _))
    | intro _

theorem State.clearWork_ev (s : State) (key : Key) : Ev [.cp, .arrays, .halves, .cores, .tun] s (State.clearWork s key) := by
  unfold State.clearWork
  repeat' first
    | with_reducible apply Ev.refl
    | with_reducible assumption
    | (extract_lets +onlyGivenNames y; with_reducible refine Ev.keep y ?_ ?_; rotate_left; subst y; rotate_left; clear_value y; intro hy)
    | (extract_lets +onlyGivenNames x; revert x; intro _)
    | (with_reducible apply Ev.foldl; intro _ _ _)
    | with_reducible apply Ev.then (State.abandon_ev ..)
    | with_reducible apply Ev.then (State.dropQueued_ev ..)
    | with_reducible apply Ev.then (State.setHold_ev ..)
    | (intros; show sub _ _ = true; decide)
    | split
    | with_reducible refine (?_ : Ev _ _ (ite _ _ _))
    | intro _

theorem State.cutCmd_ev (s : State) (key : Key) (cond : Cond) : Ev [.svc, .log, .cp, .arrays, .halves, .cores, .tun, .mem, .mirror, .xch] s (State.cutCmd s key cond) := by
  unfold State.cutCmd
  repeat' first
    | with_reducible apply Ev.refl
    | with_reducible assumption
    | (extract_lets +onlyGivenNames y; with_reducible refine Ev.keep y ?_ ?_; rotate_left; subst y; rotate_left; clear_value y; intro hy)
    | (extract_lets +onlyGivenNames x; revert x; intro _)
    | with_reducible apply Ev.then (State.clearWork_ev ..)
    | with_reducible apply Ev.then (State.meetLine_ev ..)
    | with_reducible apply Ev.then (State.onCmd_ev ..)
    | with_reducible apply Ev.then (State.onComp_ev ..)
    | with_reducible apply Ev.then (State.tidy_ev ..)
    | (intros; show sub _ _ = true; decide)
    | split
    | with_reducible refine (?_ : Ev _ _ (ite _ _ _))
    | intro _

theorem State.reissue_ev (s : State) (sd : Seed) : Ev [.cp] s (State.reissue s sd) := by
  unfold State.reissue
  repeat' first
    | with_reducible apply Ev.refl
    | with_reducible assumption
    | (extract_lets +onlyGivenNames y; with_reducible refine Ev.keep y ?_ ?_; rotate_left; subst y; rotate_left; clear_value y; intro hy)
    | (extract_lets +onlyGivenNames x; revert x; intro _)
    | with_reducible apply Ev.then (State.onCp_ev ..)
    | (intros; show sub _ _ = true; decide)
    | split
    | with_reducible refine (?_ : Ev _ _ (ite _ _ _))
    | intro _

theorem State.evict_ev (s : State) (u log : Nat) : Ev [.cp, .arrays, .halves, .cores, .tun, .mem, .xch] s (State.evict s u log) := by
  unfold State.evict
  repeat' first
    | with_reducible apply Ev.refl
    | with_reducible assumption
    | (extract_lets +onlyGivenNames y; with_reducible refine Ev.keep y ?_ ?_; rotate_left; subst y; rotate_left; clear_value y; intro hy)
    | (extract_lets +onlyGivenNames x; revert x; intro _)
    | (with_reducible apply Ev.foldl; intro _ _ _)
    | with_reducible apply Ev.then (State.abandon_ev ..)
    | with_reducible apply Ev.then (State.maskFault_ev ..)
    | with_reducible apply Ev.then (State.reissue_ev ..)
    | with_reducible apply Ev.then (State.setHold_ev ..)
    | with_reducible apply Ev.then (State.setMail_ev ..)
    | with_reducible apply Ev.then (State.specEnds_ev ..)
    | with_reducible apply Ev.then (State.tidy_ev ..)
    | (intros; show sub _ _ = true; decide)
    | split
    | with_reducible refine (?_ : Ev _ _ (ite _ _ _))
    | dsimp +zetaDelta only
    | intro _

theorem State.endArbitration_ev (s : State) (key : Key) (ord i log : Nat) : Ev [.cp] s (State.endArbitration s key ord i log) := by
  unfold State.endArbitration
  repeat' first
    | with_reducible apply Ev.refl
    | with_reducible assumption
    | (extract_lets +onlyGivenNames y; with_reducible refine Ev.keep y ?_ ?_; rotate_left; subst y; rotate_left; clear_value y; intro hy)
    | (extract_lets +onlyGivenNames x; revert x; intro _)
    | with_reducible apply Ev.then (State.onCmd_ev ..)
    | with_reducible apply Ev.then (State.onComp_ev ..)
    | (intros; show sub _ _ = true; decide)
    | split
    | with_reducible refine (?_ : Ev _ _ (ite _ _ _))
    | intro _

theorem State.endArbiters_ev (s : State) (log : Nat) : Ev [.cp, .arrays, .halves, .cores, .mem, .xch] s (State.endArbiters s log) := by
  unfold State.endArbiters
  repeat' first
    | with_reducible apply Ev.refl
    | with_reducible assumption
    | (extract_lets +onlyGivenNames y; with_reducible refine Ev.keep y ?_ ?_; rotate_left; subst y; rotate_left; clear_value y; intro hy)
    | (extract_lets +onlyGivenNames x; revert x; intro _)
    | (with_reducible apply Ev.foldl; intro _ _ _)
    | with_reducible apply Ev.then (State.endArbitration_ev ..)
    | with_reducible apply Ev.then (State.onCp_ev ..)
    | with_reducible apply Ev.then (State.tidy_ev ..)
    | (intros; show sub _ _ = true; decide)
    | split
    | with_reducible refine (?_ : Ev _ _ (ite _ _ _))
    | intro _

theorem State.retireArray_ev (s : State) (a log : Nat) : Ev [.blk, .svc, .log, .cp, .arrays, .halves, .cores, .tun, .mem, .mirror, .xch] s (State.retireArray s a log) := by
  unfold State.retireArray
  repeat' first
    | with_reducible apply Ev.refl
    | with_reducible assumption
    | (extract_lets +onlyGivenNames y; with_reducible refine Ev.keep y ?_ ?_; rotate_left; subst y; rotate_left; clear_value y; intro hy)
    | (extract_lets +onlyGivenNames x; revert x; intro _)
    | with_reducible apply Ev.then (State.endArbiters_ev ..)
    | with_reducible apply Ev.then (State.evict_ev ..)
    | with_reducible apply Ev.then (State.onArray_ev ..)
    | with_reducible apply Ev.then (State.report_ev ..)
    | (intros; show sub _ _ = true; decide)
    | split
    | with_reducible refine (?_ : Ev _ _ (ite _ _ _))
    | intro _

theorem State.retireThin_ev (s : State) (c log : Nat) : Ev [.blk, .svc, .log, .cp, .arrays, .halves, .cores, .tun, .mem, .mirror, .xch] s (State.retireThin s c log) := by
  unfold State.retireThin
  repeat' first
    | with_reducible apply Ev.refl
    | with_reducible assumption
    | (extract_lets +onlyGivenNames y; with_reducible refine Ev.keep y ?_ ?_; rotate_left; subst y; rotate_left; clear_value y; intro hy)
    | (extract_lets +onlyGivenNames x; revert x; intro _)
    | with_reducible apply Ev.then (State.endArbiters_ev ..)
    | with_reducible apply Ev.then (State.evict_ev ..)
    | with_reducible apply Ev.then (State.onCore_ev ..)
    | with_reducible apply Ev.then (State.report_ev ..)
    | (intros; show sub _ _ = true; decide)
    | split
    | with_reducible refine (?_ : Ev _ _ (ite _ _ _))
    | intro _

theorem State.retireCore_ev (s : State) (c log : Nat) : Ev [.blk, .svc, .log, .cp, .arrays, .halves, .cores, .tun, .mem, .mirror, .xch] s (State.retireCore s c log) := by
  unfold State.retireCore
  repeat' first
    | with_reducible apply Ev.refl
    | with_reducible assumption
    | (extract_lets +onlyGivenNames y; with_reducible refine Ev.keep y ?_ ?_; rotate_left; subst y; rotate_left; clear_value y; intro hy)
    | (extract_lets +onlyGivenNames x; revert x; intro _)
    | (with_reducible apply Ev.foldl; intro _ _ _)
    | with_reducible apply Ev.then (State.endArbiters_ev ..)
    | with_reducible apply Ev.then (State.evict_ev ..)
    | with_reducible apply Ev.then (State.onArray_ev ..)
    | with_reducible apply Ev.then (State.onCore_ev ..)
    | with_reducible apply Ev.then (State.report_ev ..)
    | (intros; show sub _ _ = true; decide)
    | split
    | with_reducible refine (?_ : Ev _ _ (ite _ _ _))
    | intro _

theorem State.loseDrain_ev (s : State) (u : Nat) (d : Drain) : Ev [.cp, .arrays, .halves, .cores, .tun] s (State.loseDrain s u d) := by
  unfold State.loseDrain
  repeat' first
    | with_reducible apply Ev.refl
    | with_reducible assumption
    | (extract_lets +onlyGivenNames y; with_reducible refine Ev.keep y ?_ ?_; rotate_left; subst y; rotate_left; clear_value y; intro hy)
    | (extract_lets +onlyGivenNames x; revert x; intro _)
    | with_reducible apply Ev.then (State.abandon_ev ..)
    | (intros; show sub _ _ = true; decide)
    | split
    | with_reducible refine (?_ : Ev _ _ (ite _ _ _))
    | intro _

theorem State.retireVoters_ev (s : State) (cmd : Cmd) (c : Comp) (ord i : Nat) (votes : List Vote) (sum : Nat) : Ev [.blk, .svc, .log, .cp, .arrays, .halves, .cores, .tun, .mem, .mirror, .xch] s (State.retireVoters s cmd c ord i votes sum) := by
  unfold State.retireVoters
  repeat' first
    | with_reducible apply Ev.refl
    | with_reducible assumption
    | (extract_lets +onlyGivenNames y; with_reducible refine Ev.keep y ?_ ?_; rotate_left; subst y; rotate_left; clear_value y; intro hy)
    | (extract_lets +onlyGivenNames x; revert x; intro _)
    | (with_reducible apply Ev.foldl; intro _ _ _)
    | with_reducible apply Ev.then (State.logRec_ev ..)
    | with_reducible apply Ev.then (State.retireArray_ev ..)
    | with_reducible apply Ev.then (State.retireCore_ev ..)
    | with_reducible apply Ev.then (State.retireThin_ev ..)
    | (intros; show sub _ _ = true; decide)
    | split
    | with_reducible refine (?_ : Ev _ _ (ite _ _ _))
    | intro _

theorem State.placeArbiter_ev (s : State) (sd : Seed) (i log : Nat) : Ev [.cp] s (State.placeArbiter s sd i log) := by
  unfold State.placeArbiter
  repeat' first
    | with_reducible apply Ev.refl
    | with_reducible assumption
    | (extract_lets +onlyGivenNames y; with_reducible refine Ev.keep y ?_ ?_; rotate_left; subst y; rotate_left; clear_value y; intro hy)
    | (extract_lets +onlyGivenNames x; revert x; intro _)
    | with_reducible apply Ev.then (State.endArbitration_ev ..)
    | with_reducible apply Ev.then (State.onCp_ev ..)
    | (intros; show sub _ _ = true; decide)
    | split
    | with_reducible refine (?_ : Ev _ _ (ite _ _ _))
    | intro _

theorem State.doneEntry_ev (s : State) (u : Nat) (d : Drain) : Ev [.blk, .svc, .log, .cp, .arrays, .halves, .cores, .tun, .mem, .mirror, .xch] s (State.doneEntry s u d) := by
  unfold State.doneEntry
  repeat' first
    | with_reducible apply Ev.refl
    | with_reducible assumption
    | (extract_lets +onlyGivenNames y; with_reducible refine Ev.keep y ?_ ?_; rotate_left; subst y; rotate_left; clear_value y; intro hy)
    | (extract_lets +onlyGivenNames x; revert x; intro _)
    | with_reducible apply Ev.then (State.applyAll_ev ..)
    | with_reducible apply Ev.then (State.endArbitration_ev ..)
    | with_reducible apply Ev.then (State.logRec_ev ..)
    | with_reducible apply Ev.then (State.maskFault_ev ..)
    | with_reducible apply Ev.then (State.onCmd_ev ..)
    | with_reducible apply Ev.then (State.onComp_ev ..)
    | with_reducible apply Ev.then (State.placeArbiter_ev ..)
    | with_reducible apply Ev.then (State.retireVoters_ev ..)
    | (intros; show sub _ _ = true; decide)
    | split
    | with_reducible refine (?_ : Ev _ _ (ite _ _ _))
    | intro _

theorem State.afterDone_ev (s : State) (sd : Seed) : Ev [.cp, .arrays, .halves, .cores, .tun, .mem, .xch] s (State.afterDone s sd) := by
  unfold State.afterDone
  repeat' first
    | with_reducible apply Ev.refl
    | with_reducible assumption
    | (extract_lets +onlyGivenNames y; with_reducible refine Ev.keep y ?_ ?_; rotate_left; subst y; rotate_left; clear_value y; intro hy)
    | (extract_lets +onlyGivenNames x; revert x; intro _)
    | with_reducible apply Ev.then (State.stopCopies_ev ..)
    | with_reducible apply Ev.then (State.tidy_ev ..)
    | (intros; show sub _ _ = true; decide)
    | split
    | with_reducible refine (?_ : Ev _ _ (ite _ _ _))
    | intro _

theorem State.zeroSlots_ev (s : State) (c : Nat) (l : List Nat) (keep : Nat → Nat → Bool) : Ev [.tun] s (State.zeroSlots s c l keep) := by
  unfold State.zeroSlots
  repeat' first
    | with_reducible apply Ev.refl
    | with_reducible assumption
    | (extract_lets +onlyGivenNames y; with_reducible refine Ev.keep y ?_ ?_; rotate_left; subst y; rotate_left; clear_value y; intro hy)
    | (extract_lets +onlyGivenNames x; revert x; intro _)
    | with_reducible apply Ev.then (State.onTun_ev ..)
    | (intros; show sub _ _ = true; decide)
    | split
    | with_reducible refine (?_ : Ev _ _ (ite _ _ _))
    | intro _

theorem State.bind_ev (s : State) (u : Nat) (sd : Seed) (l : List Nat) : Ev [.cores, .tun] s (State.bind s u sd l) := by
  unfold State.bind
  repeat' first
    | with_reducible apply Ev.refl
    | with_reducible assumption
    | (extract_lets +onlyGivenNames y; with_reducible refine Ev.keep y ?_ ?_; rotate_left; subst y; rotate_left; clear_value y; intro hy)
    | (extract_lets +onlyGivenNames x; revert x; intro _)
    | (with_reducible apply Ev.foldl; intro _ _ _)
    | with_reducible apply Ev.then (State.onCore_ev ..)
    | with_reducible apply Ev.then (State.zeroSlots_ev ..)
    | (intros; show sub _ _ = true; decide)
    | split
    | with_reducible refine (?_ : Ev _ _ (ite _ _ _))
    | intro _

theorem State.addDrain_ev (s : State) (u : Nat) (d : Drain) : Ev [.arrays, .halves, .cores] s (State.addDrain s u d) := by
  unfold State.addDrain
  repeat' first
    | with_reducible apply Ev.refl
    | with_reducible assumption
    | (extract_lets +onlyGivenNames y; with_reducible refine Ev.keep y ?_ ?_; rotate_left; subst y; rotate_left; clear_value y; intro hy)
    | (extract_lets +onlyGivenNames x; revert x; intro _)
    | with_reducible apply Ev.then (State.onDrains_ev ..)
    | (intros; show sub _ _ = true; decide)
    | split
    | with_reducible refine (?_ : Ev _ _ (ite _ _ _))
    | intro _

theorem State.startClaim_ev (s : State) (u : Nat) (sd : Seed) : Ev [.cp, .arrays, .halves, .cores, .tun] s (State.startClaim s u sd) := by
  unfold State.startClaim
  repeat' first
    | with_reducible apply Ev.refl
    | with_reducible assumption
    | (extract_lets +onlyGivenNames y; with_reducible refine Ev.keep y ?_ ?_; rotate_left; subst y; rotate_left; clear_value y; intro hy)
    | (extract_lets +onlyGivenNames x; revert x; intro _)
    | with_reducible apply Ev.then (State.addDrain_ev ..)
    | with_reducible apply Ev.then (State.bind_ev ..)
    | with_reducible apply Ev.then (State.onArray_ev ..)
    | with_reducible apply Ev.then (State.onComp_ev ..)
    | with_reducible apply Ev.then (State.onHalf_ev ..)
    | with_reducible apply Ev.then (State.setHold_ev ..)
    | with_reducible apply Ev.then (State.setMail_ev ..)
    | (intros; show sub _ _ = true; decide)
    | split
    | with_reducible refine (?_ : Ev _ _ (ite _ _ _))
    | intro _

theorem State.beginClaim_ev (s : State) (u : Nat) (sd : Seed) : Ev [.cp, .arrays, .halves, .cores, .tun, .mem] s (State.beginClaim s u sd) := by
  unfold State.beginClaim
  repeat' first
    | with_reducible apply Ev.refl
    | with_reducible assumption
    | (extract_lets +onlyGivenNames y; with_reducible refine Ev.keep y ?_ ?_; rotate_left; subst y; rotate_left; clear_value y; intro hy)
    | (extract_lets +onlyGivenNames x; revert x; intro _)
    | with_reducible apply Ev.then (State.startClaim_ev ..)
    | with_reducible apply Ev.then (State.syncArea_ev ..)
    | (intros; show sub _ _ = true; decide)
    | split
    | with_reducible refine (?_ : Ev _ _ (ite _ _ _))
    | intro _

theorem State.elect_ev (s : State) (c : Nat) : Ev [.cores] s (State.elect s c) := by
  unfold State.elect
  repeat' first
    | with_reducible apply Ev.refl
    | with_reducible assumption
    | (extract_lets +onlyGivenNames y; with_reducible refine Ev.keep y ?_ ?_; rotate_left; subst y; rotate_left; clear_value y; intro hy)
    | (extract_lets +onlyGivenNames x; revert x; intro _)
    | with_reducible apply Ev.then (State.onCore_ev ..)
    | (intros; show sub _ _ = true; decide)
    | split
    | with_reducible refine (?_ : Ev _ _ (ite _ _ _))
    | intro _

theorem State.electAll_ev (s : State) : Ev [.cores] s (State.electAll s) := by
  unfold State.electAll
  repeat' first
    | with_reducible apply Ev.refl
    | with_reducible assumption
    | (extract_lets +onlyGivenNames y; with_reducible refine Ev.keep y ?_ ?_; rotate_left; subst y; rotate_left; clear_value y; intro hy)
    | (extract_lets +onlyGivenNames x; revert x; intro _)
    | (with_reducible apply Ev.foldl; intro _ _ _)
    | with_reducible apply Ev.then (State.elect_ev ..)
    | (intros; show sub _ _ = true; decide)
    | split
    | with_reducible refine (?_ : Ev _ _ (ite _ _ _))
    | intro _

theorem State.claimHeld_ev (s : State) (u : Nat) : Ev [.cp, .arrays, .halves, .cores, .tun, .mem] s (s.claimHeld u) := by
  unfold State.claimHeld
  cases heldClaim s u with
  | none => exact Ev.refl _
  | some sd => exact State.beginClaim_ev ..

theorem State.drawFrom_ev (s : State) (u : Nat) (cmd : Cmd) (c : Comp) : Ev [.cp, .arrays, .halves, .cores, .tun, .mem] s (State.drawFrom s u cmd c) := by
  unfold State.drawFrom
  repeat' first
    | with_reducible apply Ev.refl
    | with_reducible assumption
    | (extract_lets +onlyGivenNames y; with_reducible refine Ev.keep y ?_ ?_; rotate_left; subst y; rotate_left; clear_value y; intro hy)
    | (extract_lets +onlyGivenNames x; revert x; intro _)
    | with_reducible apply Ev.then (State.onComp_ev ..)
    | with_reducible apply Ev.then (State.onNoDraw_ev ..)
    | with_reducible apply Ev.then (State.setHold_ev ..)
    | with_reducible apply Ev.then (State.startClaim_ev ..)
    | with_reducible apply Ev.then (State.syncArea_ev ..)
    | (intros; show sub _ _ = true; decide)
    | split
    | with_reducible refine (?_ : Ev _ _ (ite _ _ _))
    | intro _

theorem State.drawOn_ev (s : State) (u : Nat) : Ev [.cp, .arrays, .halves, .cores, .tun, .mem] s (State.drawOn s u) := by
  unfold State.drawOn
  repeat' first
    | with_reducible apply Ev.refl
    | with_reducible assumption
    | (extract_lets +onlyGivenNames y; with_reducible refine Ev.keep y ?_ ?_; rotate_left; subst y; rotate_left; clear_value y; intro hy)
    | (extract_lets +onlyGivenNames x; revert x; intro _)
    | with_reducible apply Ev.then (State.drawFrom_ev ..)
    | with_reducible apply Ev.then (State.elect_ev ..)
    | (intros; show sub _ _ = true; decide)
    | split
    | with_reducible refine (?_ : Ev _ _ (ite _ _ _))
    | intro _

theorem State.logLost_ev (s : State) (c : Cond) (ctx : Nat) (ticket : Option Nat) : Ev [.svc, .log, .mem, .mirror] s (State.logLost s c ctx ticket) := by
  unfold State.logLost
  repeat' first
    | with_reducible apply Ev.refl
    | with_reducible assumption
    | (extract_lets +onlyGivenNames y; with_reducible refine Ev.keep y ?_ ?_; rotate_left; subst y; rotate_left; clear_value y; intro hy)
    | (extract_lets +onlyGivenNames x; revert x; intro _)
    | with_reducible apply Ev.then (State.logRec_ev ..)
    | (intros; show sub _ _ = true; decide)
    | split
    | with_reducible refine (?_ : Ev _ _ (ite _ _ _))
    | intro _

theorem State.onWear_ev (s : State) (serial : Nat) (f : Wear → Wear) : Ev [.far] s (State.onWear s serial f) := by
  unfold State.onWear
  repeat' first
    | with_reducible apply Ev.refl
    | with_reducible assumption
    | (extract_lets +onlyGivenNames y; with_reducible refine Ev.keep y ?_ ?_; rotate_left; subst y; rotate_left; clear_value y; intro hy)
    | (extract_lets +onlyGivenNames x; revert x; intro _)
    | with_reducible apply Ev.then (State.onFar_ev ..)
    | (intros; show sub _ _ = true; decide)
    | split
    | with_reducible refine (?_ : Ev _ _ (ite _ _ _))
    | intro _

theorem State.mirrorBytes_ev (s : State) (off : Nat) (bs : List Byte) : Ev [.mem] s (State.mirrorBytes s off bs) := by
  unfold State.mirrorBytes
  repeat' first
    | with_reducible apply Ev.refl
    | with_reducible assumption
    | (extract_lets +onlyGivenNames y; with_reducible refine Ev.keep y ?_ ?_; rotate_left; subst y; rotate_left; clear_value y; intro hy)
    | (extract_lets +onlyGivenNames x; revert x; intro _)
    | with_reducible apply Ev.then (State.store_ev ..)
    | (intros; show sub _ _ = true; decide)
    | split
    | with_reducible refine (?_ : Ev _ _ (ite _ _ _))
    | intro _

theorem State.mirrorLedger_ev (s : State) : Ev [.mem, .mirror] s (State.mirrorLedger s) := by
  unfold State.mirrorLedger
  repeat' first
    | with_reducible apply Ev.refl
    | with_reducible assumption
    | (extract_lets +onlyGivenNames y; with_reducible refine Ev.keep y ?_ ?_; rotate_left; subst y; rotate_left; clear_value y; intro hy)
    | (extract_lets +onlyGivenNames x; revert x; intro _)
    | with_reducible apply Ev.then (State.mirrorBytes_ev ..)
    | with_reducible apply Ev.then (State.onMirror_ev ..)
    | (intros; show sub _ _ = true; decide)
    | split
    | with_reducible refine (?_ : Ev _ _ (ite _ _ _))
    | intro _

theorem State.mirrorWear_ev (s : State) (serial : Nat) : Ev [.mem, .far, .mirror] s (State.mirrorWear s serial) := by
  unfold State.mirrorWear
  repeat' first
    | with_reducible apply Ev.refl
    | with_reducible assumption
    | (extract_lets +onlyGivenNames y; with_reducible refine Ev.keep y ?_ ?_; rotate_left; subst y; rotate_left; clear_value y; intro hy)
    | (extract_lets +onlyGivenNames x; revert x; intro _)
    | with_reducible apply Ev.then (State.mirrorLedger_ev ..)
    | with_reducible apply Ev.then (State.onFar_ev ..)
    | (intros; show sub _ _ = true; decide)
    | split
    | with_reducible refine (?_ : Ev _ _ (ite _ _ _))
    | intro _

theorem State.wearCheck_ev (s : State) (serial : Nat) : Ev [.svc, .log, .mem, .far, .mirror] s (State.wearCheck s serial) := by
  unfold State.wearCheck
  repeat' first
    | with_reducible apply Ev.refl
    | with_reducible assumption
    | (extract_lets +onlyGivenNames y; with_reducible refine Ev.keep y ?_ ?_; rotate_left; subst y; rotate_left; clear_value y; intro hy)
    | (extract_lets +onlyGivenNames x; revert x; intro _)
    | with_reducible apply Ev.then (State.logRec_ev ..)
    | with_reducible apply Ev.then (State.mirrorWear_ev ..)
    | with_reducible apply Ev.then (State.onWear_ev ..)
    | (intros; show sub _ _ = true; decide)
    | split
    | with_reducible refine (?_ : Ev _ _ (ite _ _ _))
    | intro _

theorem State.addWear_ev (s : State) (serial n : Nat) : Ev [.svc, .log, .mem, .far, .mirror] s (State.addWear s serial n) := by
  unfold State.addWear
  repeat' first
    | with_reducible apply Ev.refl
    | with_reducible assumption
    | (extract_lets +onlyGivenNames y; with_reducible refine Ev.keep y ?_ ?_; rotate_left; subst y; rotate_left; clear_value y; intro hy)
    | (extract_lets +onlyGivenNames x; revert x; intro _)
    | with_reducible apply Ev.then (State.mirrorWear_ev ..)
    | with_reducible apply Ev.then (State.onWear_ev ..)
    | with_reducible apply Ev.then (State.wearCheck_ev ..)
    | (intros; show sub _ _ = true; decide)
    | split
    | with_reducible refine (?_ : Ev _ _ (ite _ _ _))
    | intro _

theorem State.placeExtent_ev (s : State) (i port place : Nat) : Ev [.mem, .far] s (State.placeExtent s i port place) := by
  unfold State.placeExtent
  repeat' first
    | with_reducible apply Ev.refl
    | with_reducible assumption
    | (extract_lets +onlyGivenNames y; with_reducible refine Ev.keep y ?_ ?_; rotate_left; subst y; rotate_left; clear_value y; intro hy)
    | (extract_lets +onlyGivenNames x; revert x; intro _)
    | with_reducible apply Ev.then (State.onFar_ev ..)
    | with_reducible apply Ev.then (State.store_ev ..)
    | (intros; show sub _ _ = true; decide)
    | split
    | with_reducible refine (?_ : Ev _ _ (ite _ _ _))
    | intro _

theorem State.farErase_ev (s : State) (port place : Nat) : Ev [.far] s (State.farErase s port place) := by
  unfold State.farErase
  repeat' first
    | with_reducible apply Ev.refl
    | with_reducible assumption
    | (extract_lets +onlyGivenNames y; with_reducible refine Ev.keep y ?_ ?_; rotate_left; subst y; rotate_left; clear_value y; intro hy)
    | (extract_lets +onlyGivenNames x; revert x; intro _)
    | with_reducible apply Ev.then (State.onFar_ev ..)
    | (intros; show sub _ _ = true; decide)
    | split
    | with_reducible refine (?_ : Ev _ _ (ite _ _ _))
    | intro _

theorem State.farCopy_ev (s : State) (p0 x0 p1 x1 : Nat) : Ev [.far] s (State.farCopy s p0 x0 p1 x1) := by
  unfold State.farCopy
  repeat' first
    | with_reducible apply Ev.refl
    | with_reducible assumption
    | (extract_lets +onlyGivenNames y; with_reducible refine Ev.keep y ?_ ?_; rotate_left; subst y; rotate_left; clear_value y; intro hy)
    | (extract_lets +onlyGivenNames x; revert x; intro _)
    | (with_reducible apply Ev.foldl; intro _ _ _)
    | with_reducible apply Ev.then (State.farErase_ev ..)
    | with_reducible apply Ev.then (State.onFar_ev ..)
    | (intros; show sub _ _ = true; decide)
    | split
    | with_reducible refine (?_ : Ev _ _ (ite _ _ _))
    | intro _

theorem State.freePlace_ev (s : State) (port place : Nat) : Ev [.far] s (State.freePlace s port place) := by
  unfold State.freePlace
  repeat' first
    | with_reducible apply Ev.refl
    | with_reducible assumption
    | (extract_lets +onlyGivenNames y; with_reducible refine Ev.keep y ?_ ?_; rotate_left; subst y; rotate_left; clear_value y; intro hy)
    | (extract_lets +onlyGivenNames x; revert x; intro _)
    | with_reducible apply Ev.then (State.farErase_ev ..)
    | with_reducible apply Ev.then (State.onFar_ev ..)
    | (intros; show sub _ _ = true; decide)
    | split
    | with_reducible refine (?_ : Ev _ _ (ite _ _ _))
    | intro _

theorem State.farWrite_ev (s : State) (port place off : Nat) (bs : List Byte) : Ev [.far] s (State.farWrite s port place off bs) := by
  unfold State.farWrite
  repeat' first
    | with_reducible apply Ev.refl
    | with_reducible assumption
    | (extract_lets +onlyGivenNames y; with_reducible refine Ev.keep y ?_ ?_; rotate_left; subst y; rotate_left; clear_value y; intro hy)
    | (extract_lets +onlyGivenNames x; revert x; intro _)
    | with_reducible apply Ev.then (State.onFar_ev ..)
    | (intros; show sub _ _ = true; decide)
    | split
    | with_reducible refine (?_ : Ev _ _ (ite _ _ _))
    | intro _

theorem State.addUpset_ev (s : State) (line : Nat) (add : Bool) : Ev [.mem] s (State.addUpset s line add) := by
  unfold State.addUpset
  repeat' first
    | with_reducible apply Ev.refl
    | with_reducible assumption
    | (extract_lets +onlyGivenNames y; with_reducible refine Ev.keep y ?_ ?_; rotate_left; subst y; rotate_left; clear_value y; intro hy)
    | (extract_lets +onlyGivenNames x; revert x; intro _)
    | with_reducible apply Ev.then (State.onMem_ev _ _ ?_)
    | exact MemSt.flush_wf _
    | exact MemSt.write_wf _ _
    | exact MemSt.drop_wf _
    | exact fun h => h
    | (intros; show sub _ _ = true; decide)
    | split
    | with_reducible refine (?_ : Ev _ _ (ite _ _ _))
    | intro _

theorem State.cacheUpset_ev (s : State) (a len : Nat) (u : Option CacheUpset) :
    Ev [.svc, .log, .mem, .mirror] s (s.cacheUpset a len u).1 := by
  unfold State.cacheUpset
  repeat' first
    | with_reducible apply Ev.refl
    | with_reducible apply Ev.then (State.logRec_ev ..)
    | with_reducible apply Ev.then (State.dropLine_ev ..)
    | with_reducible apply Ev.then (State.addUpset_ev ..)
    | (show sub _ _ = true; decide)
    | split
    | dsimp only

theorem State.cacheUpset_of {s : State} {a len : Nat} {u : Option CacheUpset} {t : State} {x} (h : s.cacheUpset a len u = (t, x)) :
    Ev [.svc, .log, .mem, .mirror] s t := by
  have g := State.cacheUpset_ev s a len u
  rw [h] at g
  exact g

theorem State.failRead_ev (s : State) (cmd : Cmd) (c : Cond) : Ev [.svc, .log, .cp, .arrays, .halves, .cores, .tun, .mem, .mirror, .xch] s (State.failRead s cmd c) := by
  unfold State.failRead
  repeat' first
    | with_reducible apply Ev.refl
    | with_reducible assumption
    | (extract_lets +onlyGivenNames y; with_reducible refine Ev.keep y ?_ ?_; rotate_left; subst y; rotate_left; clear_value y; intro hy)
    | (extract_lets +onlyGivenNames x; revert x; intro _)
    | with_reducible apply Ev.then (State.cutCmd_ev ..)
    | with_reducible apply Ev.then (State.logLost_ev ..)
    | (intros; show sub _ _ = true; decide)
    | split
    | with_reducible refine (?_ : Ev _ _ (ite _ _ _))
    | intro _

theorem State.stageError_ev (s : State) (a : Nat) (cmd : Cmd) (off : Nat) (part : StagePart) : Ev [.blk, .svc, .log, .cp, .arrays, .halves, .cores, .tun, .mem, .mirror, .xch] s (State.stageError s a cmd off part) := by
  unfold State.stageError
  repeat' first
    | with_reducible apply Ev.refl
    | with_reducible assumption
    | (extract_lets +onlyGivenNames y; with_reducible refine Ev.keep y ?_ ?_; rotate_left; subst y; rotate_left; clear_value y; intro hy)
    | (extract_lets +onlyGivenNames x; revert x; intro _)
    | with_reducible apply Ev.then (State.logRec_ev ..)
    | with_reducible apply Ev.then (State.maskFault_ev ..)
    | with_reducible apply Ev.then (State.onArray_ev ..)
    | with_reducible apply Ev.then (State.retireArray_ev ..)
    | (intros; show sub _ _ = true; decide)
    | split
    | with_reducible refine (?_ : Ev _ _ (ite _ _ _))
    | intro _

theorem execPrefetchReadReturn_ev (a : AIx) (area : StageArea) (addr len : Nat) (upset : ReadUpset) (s : State) {t : State} (h : execPrefetchReadReturn a area addr len upset s = .next t) : Ev [.blk, .svc, .log, .cp, .arrays, .halves, .cores, .tun, .mem, .mirror, .xch] s t := by
  unfold execPrefetchReadReturn at h
  simp only [Host.Outcome.next.injEq] at h
  subst h
  repeat' first
    | with_reducible apply Ev.refl
    | with_reducible assumption
    | (extract_lets +onlyGivenNames y; with_reducible refine Ev.keep y ?_ ?_; rotate_left; subst y; rotate_left; clear_value y; intro hy)
    | (extract_lets +onlyGivenNames x; revert x; intro _)
    | (with_reducible apply Ev.then (State.cacheUpset_of (by assumption)))
    | with_reducible apply Ev.then (State.cacheUpset_ev ..)
    | with_reducible apply Ev.then (State.cutCmd_ev ..)
    | with_reducible apply Ev.then (State.failRead_ev ..)
    | with_reducible apply Ev.then (State.holdLines_ev ..)
    | with_reducible apply Ev.then (State.onArray_ev ..)
    | with_reducible apply Ev.then (State.stageError_ev ..)
    | (intros; show sub _ _ = true; decide)
    | split
    | with_reducible refine (?_ : Ev _ _ (ite _ _ _))
    | intro _

theorem execFeederVectorRead_ev (a : AIx) (double : Option (StageArea × Nat)) (s : State) {t : State} (h : execFeederVectorRead a double s = .next t) : Ev [.blk, .svc, .log, .cp, .arrays, .halves, .cores, .tun, .mem, .mirror, .xch] s t := by
  unfold execFeederVectorRead at h
  simp only [Host.Outcome.next.injEq] at h
  subst h
  repeat' first
    | with_reducible apply Ev.refl
    | with_reducible assumption
    | (extract_lets +onlyGivenNames y; with_reducible refine Ev.keep y ?_ ?_; rotate_left; subst y; rotate_left; clear_value y; intro hy)
    | (extract_lets +onlyGivenNames x; revert x; intro _)
    | with_reducible apply Ev.then (State.onArray_ev ..)
    | with_reducible apply Ev.then (State.stageError_ev ..)
    | (intros; show sub _ _ = true; decide)
    | split
    | with_reducible refine (?_ : Ev _ _ (ite _ _ _))
    | intro _

theorem execStageScrub_ev (upset : Option ScrubUpset) (s : State) {t : State} (h : execStageScrub upset s = .next t) : Ev [.blk, .svc, .log, .cp, .arrays, .halves, .cores, .tun, .mem, .mirror, .xch] s t := by
  unfold execStageScrub at h
  simp only [Host.Outcome.next.injEq] at h
  subst h
  repeat' first
    | with_reducible apply Ev.refl
    | with_reducible assumption
    | (extract_lets +onlyGivenNames y; with_reducible refine Ev.keep y ?_ ?_; rotate_left; subst y; rotate_left; clear_value y; intro hy)
    | (extract_lets +onlyGivenNames x; revert x; intro _)
    | (with_reducible apply Ev.then (State.cacheUpset_of (by assumption)))
    | with_reducible apply Ev.then (State.cacheUpset_ev ..)
    | with_reducible apply Ev.then (State.dropLine_ev ..)
    | with_reducible apply Ev.then (State.logRec_ev ..)
    | with_reducible apply Ev.then (State.stageError_ev ..)
    | (intros; show sub _ _ = true; decide)
    | split
    | with_reducible refine (?_ : Ev _ _ (ite _ _ _))
    | intro _

theorem State.setTunRow_ev (s : State) (core slot row : Nat) (ws : List LW) : Ev [.tun] s (State.setTunRow s core slot row ws) := by
  unfold State.setTunRow
  repeat' first
    | with_reducible apply Ev.refl
    | with_reducible assumption
    | (extract_lets +onlyGivenNames y; with_reducible refine Ev.keep y ?_ ?_; rotate_left; subst y; rotate_left; clear_value y; intro hy)
    | (extract_lets +onlyGivenNames x; revert x; intro _)
    | with_reducible apply Ev.then (State.onTun_ev ..)
    | (intros; show sub _ _ = true; decide)
    | split
    | with_reducible refine (?_ : Ev _ _ (ite _ _ _))
    | intro _

theorem State.giveUp_ev (s : State) (u : Nat) (sd : Seed) (log : Nat) : Ev [.cp, .arrays, .halves, .cores, .tun, .mem, .xch] s (State.giveUp s u sd log) := by
  unfold State.giveUp
  repeat' first
    | with_reducible apply Ev.refl
    | with_reducible assumption
    | (extract_lets +onlyGivenNames y; with_reducible refine Ev.keep y ?_ ?_; rotate_left; subst y; rotate_left; clear_value y; intro hy)
    | (extract_lets +onlyGivenNames x; revert x; intro _)
    | with_reducible apply Ev.then (State.abandon_ev ..)
    | with_reducible apply Ev.then (State.maskFault_ev ..)
    | with_reducible apply Ev.then (State.reissue_ev ..)
    | with_reducible apply Ev.then (State.tidy_ev ..)
    | (intros; show sub _ _ = true; decide)
    | split
    | with_reducible refine (?_ : Ev _ _ (ite _ _ _))
    | intro _

theorem State.countSlot_ev (s : State) (core slot : Nat) : Ev [.cores] s (State.countSlot s core slot) := by
  unfold State.countSlot
  repeat' first
    | with_reducible apply Ev.refl
    | with_reducible assumption
    | (extract_lets +onlyGivenNames y; with_reducible refine Ev.keep y ?_ ?_; rotate_left; subst y; rotate_left; clear_value y; intro hy)
    | (extract_lets +onlyGivenNames x; revert x; intro _)
    | with_reducible apply Ev.then (State.onCore_ev ..)
    | (intros; show sub _ _ = true; decide)
    | split
    | with_reducible refine (?_ : Ev _ _ (ite _ _ _))
    | intro _

theorem State.slotEvent_ev (s : State) (core slot : Nat) (u : Nat) (sd : Seed) (r : Rec) : Ev [.blk, .svc, .log, .cp, .arrays, .halves, .cores, .tun, .mem, .mirror, .xch] s (State.slotEvent s core slot u sd r) := by
  unfold State.slotEvent
  repeat' first
    | with_reducible apply Ev.refl
    | with_reducible assumption
    | (extract_lets +onlyGivenNames y; with_reducible refine Ev.keep y ?_ ?_; rotate_left; subst y; rotate_left; clear_value y; intro hy)
    | (extract_lets +onlyGivenNames x; revert x; intro _)
    | with_reducible apply Ev.then (State.countSlot_ev ..)
    | with_reducible apply Ev.then (State.giveUp_ev ..)
    | with_reducible apply Ev.then (State.logRec_ev ..)
    | with_reducible apply Ev.then (State.retireCore_ev ..)
    | (intros; show sub _ _ = true; decide)
    | split
    | with_reducible refine (?_ : Ev _ _ (ite _ _ _))
    | intro _

theorem State.launchCmd_ev (s : State) (c : Cmd) (hold : Bool) : Ev [.qs, .cp] s (State.launchCmd s c hold) := by
  unfold State.launchCmd
  repeat' first
    | with_reducible apply Ev.refl
    | with_reducible assumption
    | (extract_lets +onlyGivenNames y; with_reducible refine Ev.keep y ?_ ?_; rotate_left; subst y; rotate_left; clear_value y; intro hy)
    | (extract_lets +onlyGivenNames x; revert x; intro _)
    | with_reducible apply Ev.then (State.addCmd_ev ..)
    | with_reducible apply Ev.then (State.onQ_ev ..)
    | (intros; show sub _ _ = true; decide)
    | split
    | with_reducible refine (?_ : Ev _ _ (ite _ _ _))
    | intro _

theorem execNop_ev (q : QIx) (s : State) {t : State} (h : execNop q s = .next t) : Ev [.svc, .log, .ctxs, .qs, .cp, .mem, .mirror] s t := by
  unfold execNop at h
  simp only [Host.Outcome.next.injEq] at h
  subst h
  repeat' first
    | with_reducible apply Ev.refl
    | with_reducible assumption
    | (extract_lets +onlyGivenNames y; with_reducible refine Ev.keep y ?_ ?_; rotate_left; subst y; rotate_left; clear_value y; intro hy)
    | (extract_lets +onlyGivenNames x; revert x; intro _)
    | with_reducible apply Ev.then (State.replyNow_ev ..)
    | with_reducible refine withPacket_ev _ _ _ _ (fun _ _ _ _ => ?_) (by decide)
    | (intros; show sub _ _ = true; decide)
    | split
    | with_reducible refine (?_ : Ev _ _ (ite _ _ _))
    | intro _

theorem execFence_ev (q : QIx) (s : State) {t : State} (h : execFence q s = .next t) : Ev [.svc, .log, .ctxs, .qs, .cp, .mem, .mirror] s t := by
  unfold execFence at h
  simp only [Host.Outcome.next.injEq] at h
  subst h
  repeat' first
    | with_reducible apply Ev.refl
    | with_reducible assumption
    | (extract_lets +onlyGivenNames y; with_reducible refine Ev.keep y ?_ ?_; rotate_left; subst y; rotate_left; clear_value y; intro hy)
    | (extract_lets +onlyGivenNames x; revert x; intro _)
    | with_reducible apply Ev.then (State.launchCmd_ev ..)
    | with_reducible apply Ev.then (State.replyNow_ev ..)
    | with_reducible refine withPacket_ev _ _ _ _ (fun _ _ _ _ => ?_) (by decide)
    | (intros; show sub _ _ = true; decide)
    | split
    | with_reducible refine (?_ : Ev _ _ (ite _ _ _))
    | intro _

theorem execFenceRelease_ev (q : QIx) (s : State) {t : State} (h : execFenceRelease q s = .next t) : Ev [.svc, .log, .ctxs, .qs, .cp, .mem, .mirror] s t := by
  unfold execFenceRelease at h
  simp only [Host.Outcome.next.injEq] at h
  subst h
  repeat' first
    | with_reducible apply Ev.refl
    | with_reducible assumption
    | (extract_lets +onlyGivenNames y; with_reducible refine Ev.keep y ?_ ?_; rotate_left; subst y; rotate_left; clear_value y; intro hy)
    | (extract_lets +onlyGivenNames x; revert x; intro _)
    | with_reducible apply Ev.then (State.reply_ev ..)
    | (intros; show sub _ _ = true; decide)
    | split
    | with_reducible refine (?_ : Ev _ _ (ite _ _ _))
    | intro _

theorem execSignal_ev (q : QIx) (s : State) {t : State} (h : execSignal q s = .next t) : Ev [.svc, .log, .ctxs, .qs, .cp, .mem, .mirror, .port] s t := by
  unfold execSignal at h
  simp only [Host.Outcome.next.injEq] at h
  subst h
  repeat' first
    | with_reducible apply Ev.refl
    | with_reducible assumption
    | (extract_lets +onlyGivenNames y; with_reducible refine Ev.keep y ?_ ?_; rotate_left; subst y; rotate_left; clear_value y; intro hy)
    | (extract_lets +onlyGivenNames x; revert x; intro _)
    | with_reducible apply Ev.then (State.launchCmd_ev ..)
    | with_reducible apply Ev.then (State.onPort_ev ..)
    | with_reducible apply Ev.then (State.replyNow_ev ..)
    | with_reducible apply Ev.then (State.store_ev ..)
    | with_reducible refine withPacket_ev _ _ _ _ (fun _ _ _ _ => ?_) (by decide)
    | (intros; show sub _ _ = true; decide)
    | split
    | with_reducible refine (?_ : Ev _ _ (ite _ _ _))
    | intro _

theorem execWait_ev (q : QIx) (s : State) {t : State} (h : execWait q s = .next t) : Ev [.svc, .log, .ctxs, .qs, .cp, .mem, .mirror] s t := by
  unfold execWait at h
  simp only [Host.Outcome.next.injEq] at h
  subst h
  repeat' first
    | with_reducible apply Ev.refl
    | with_reducible assumption
    | (extract_lets +onlyGivenNames y; with_reducible refine Ev.keep y ?_ ?_; rotate_left; subst y; rotate_left; clear_value y; intro hy)
    | (extract_lets +onlyGivenNames x; revert x; intro _)
    | with_reducible apply Ev.then (State.launchCmd_ev ..)
    | with_reducible apply Ev.then (State.replyNow_ev ..)
    | with_reducible refine withPacket_ev _ _ _ _ (fun _ _ _ _ => ?_) (by decide)
    | (intros; show sub _ _ = true; decide)
    | split
    | with_reducible refine (?_ : Ev _ _ (ite _ _ _))
    | intro _

theorem execWaitSatisfied_ev (q : QIx) (s : State) {t : State} (h : execWaitSatisfied q s = .next t) : Ev [.svc, .log, .ctxs, .qs, .cp, .mem, .mirror] s t := by
  unfold execWaitSatisfied at h
  simp only [Host.Outcome.next.injEq] at h
  subst h
  repeat' first
    | with_reducible apply Ev.refl
    | with_reducible assumption
    | (extract_lets +onlyGivenNames y; with_reducible refine Ev.keep y ?_ ?_; rotate_left; subst y; rotate_left; clear_value y; intro hy)
    | (extract_lets +onlyGivenNames x; revert x; intro _)
    | with_reducible apply Ev.then (State.reply_ev ..)
    | (intros; show sub _ _ = true; decide)
    | split
    | with_reducible refine (?_ : Ev _ _ (ite _ _ _))
    | intro _

theorem execStepSet_ev (q : QIx) (s : State) {t : State} (h : execStepSet q s = .next t) : Ev [.svc, .log, .ctxs, .qs, .cp, .mem, .mirror] s t := by
  unfold execStepSet at h
  simp only [Host.Outcome.next.injEq] at h
  subst h
  repeat' first
    | with_reducible apply Ev.refl
    | with_reducible assumption
    | (extract_lets +onlyGivenNames y; with_reducible refine Ev.keep y ?_ ?_; rotate_left; subst y; rotate_left; clear_value y; intro hy)
    | (extract_lets +onlyGivenNames x; revert x; intro _)
    | with_reducible apply Ev.then (State.onCtx_ev ..)
    | with_reducible apply Ev.then (State.replyNow_ev ..)
    | with_reducible refine withPacket_ev _ _ _ _ (fun _ _ _ _ => ?_) (by decide)
    | (intros; show sub _ _ = true; decide)
    | split
    | with_reducible refine (?_ : Ev _ _ (ite _ _ _))
    | intro _

theorem State.releaseArea_ev (s : State) (n t : Nat) : Ev [.cp] s (State.releaseArea s n t) := by
  unfold State.releaseArea
  repeat' first
    | with_reducible apply Ev.refl
    | with_reducible assumption
    | (extract_lets +onlyGivenNames y; with_reducible refine Ev.keep y ?_ ?_; rotate_left; subst y; rotate_left; clear_value y; intro hy)
    | (extract_lets +onlyGivenNames x; revert x; intro _)
    | with_reducible apply Ev.then (State.onCp_ev ..)
    | (intros; show sub _ _ = true; decide)
    | split
    | with_reducible refine (?_ : Ev _ _ (ite _ _ _))
    | intro _

theorem execQuery_ev (q : QIx) (s : State) {t : State} (h : execQuery q s = .next t) : Ev [.svc, .log, .ctxs, .qs, .cp, .mem, .mirror] s t := by
  unfold execQuery at h
  simp only [Host.Outcome.next.injEq] at h
  subst h
  repeat' first
    | with_reducible apply Ev.refl
    | with_reducible assumption
    | (extract_lets +onlyGivenNames y; with_reducible refine Ev.keep y ?_ ?_; rotate_left; subst y; rotate_left; clear_value y; intro hy)
    | (extract_lets +onlyGivenNames x; revert x; intro _)
    | with_reducible apply Ev.then (State.releaseArea_ev ..)
    | with_reducible apply Ev.then (State.replyNow_ev ..)
    | with_reducible apply Ev.then (State.store_ev ..)
    | with_reducible refine withPacket_ev _ _ _ _ (fun _ _ _ _ => ?_) (by decide)
    | (intros; show sub _ _ = true; decide)
    | split
    | with_reducible refine (?_ : Ev _ _ (ite _ _ _))
    | intro _

theorem execCountersClear_ev (q : QIx) (s : State) {t : State} (h : execCountersClear q s = .next t) : Ev [.svc, .log, .ctxs, .qs, .cp, .mem, .mirror] s t := by
  unfold execCountersClear at h
  simp only [Host.Outcome.next.injEq] at h
  subst h
  repeat' first
    | with_reducible apply Ev.refl
    | with_reducible assumption
    | (extract_lets +onlyGivenNames y; with_reducible refine Ev.keep y ?_ ?_; rotate_left; subst y; rotate_left; clear_value y; intro hy)
    | (extract_lets +onlyGivenNames x; revert x; intro _)
    | with_reducible apply Ev.then (State.onCtx_ev ..)
    | with_reducible apply Ev.then (State.replyNow_ev ..)
    | with_reducible refine withPacket_ev _ _ _ _ (fun _ _ _ _ => ?_) (by decide)
    | (intros; show sub _ _ = true; decide)
    | split
    | with_reducible refine (?_ : Ev _ _ (ite _ _ _))
    | intro _

theorem execUnknownOpcode_ev (q : QIx) (s : State) {t : State} (h : execUnknownOpcode q s = .next t) : Ev [.svc, .log, .ctxs, .qs, .cp, .mem, .mirror] s t := by
  unfold execUnknownOpcode at h
  simp only [Host.Outcome.next.injEq] at h
  subst h
  repeat' first
    | with_reducible apply Ev.refl
    | with_reducible assumption
    | (extract_lets +onlyGivenNames y; with_reducible refine Ev.keep y ?_ ?_; rotate_left; subst y; rotate_left; clear_value y; intro hy)
    | (extract_lets +onlyGivenNames x; revert x; intro _)
    | with_reducible apply Ev.then (State.replyNow_ev ..)
    | with_reducible refine withPacket_ev _ _ _ _ (fun _ _ _ _ => ?_) (by decide)
    | (intros; show sub _ _ = true; decide)
    | split
    | with_reducible refine (?_ : Ev _ _ (ite _ _ _))
    | intro _

theorem execSpeculativeCopy_ev (a : AIx) (s : State) {t : State} (h : execSpeculativeCopy a s = .next t) : Ev [.cp, .arrays, .halves, .cores, .mem] s t := by
  unfold execSpeculativeCopy at h
  simp only [Host.Outcome.next.injEq] at h
  subst h
  repeat' first
    | with_reducible apply Ev.refl
    | with_reducible assumption
    | (extract_lets +onlyGivenNames y; with_reducible refine Ev.keep y ?_ ?_; rotate_left; subst y; rotate_left; clear_value y; intro hy)
    | (extract_lets +onlyGivenNames x; revert x; intro _)
    | with_reducible apply Ev.then (State.onComp_ev ..)
    | with_reducible apply Ev.then (State.setMail_ev ..)
    | with_reducible apply Ev.then (State.syncArea_ev ..)
    | (intros; show sub _ _ = true; decide)
    | split
    | with_reducible refine (?_ : Ev _ _ (ite _ _ _))
    | intro _

theorem State.copyEnds_ev (s : State) (u : Nat) (sd : Seed) : Ev [.cp] s (State.copyEnds s u sd) := by
  unfold State.copyEnds
  repeat' first
    | with_reducible apply Ev.refl
    | with_reducible assumption
    | (extract_lets +onlyGivenNames y; with_reducible refine Ev.keep y ?_ ?_; rotate_left; subst y; rotate_left; clear_value y; intro hy)
    | (extract_lets +onlyGivenNames x; revert x; intro _)
    | with_reducible apply Ev.then (State.specEnds_ev ..)
    | (intros; show sub _ _ = true; decide)
    | split
    | with_reducible refine (?_ : Ev _ _ (ite _ _ _))
    | intro _

theorem State.addFails_ev (s : State) (key : Key) (a : Nat) : Ev [.svc, .log, .cp, .arrays, .halves, .cores, .tun, .mem, .mirror, .xch] s (State.addFails s key a) := by
  unfold State.addFails
  repeat' first
    | with_reducible apply Ev.refl
    | with_reducible assumption
    | (extract_lets +onlyGivenNames y; with_reducible refine Ev.keep y ?_ ?_; rotate_left; subst y; rotate_left; clear_value y; intro hy)
    | (extract_lets +onlyGivenNames x; revert x; intro _)
    | with_reducible apply Ev.then (State.cutCmd_ev ..)
    | with_reducible apply Ev.then (State.dropLine_ev ..)
    | with_reducible apply Ev.then (State.logRec_ev ..)
    | (intros; show sub _ _ = true; decide)
    | split
    | with_reducible refine (?_ : Ev _ _ (ite _ _ _))
    | intro _

theorem State.doneAction_ev (s : State) (u : Nat) (residue : Bool) (d : Drain) (ds : List Drain) :
    Ev [.blk, .svc, .log, .cp, .arrays, .halves, .cores, .tun, .mem, .mirror, .xch] s (s.doneAction u residue d ds) := by
  unfold State.doneAction
  extract_lets sd bad p
  clear_value bad
  split
  next due kept _ =>
  refine Ev.keep _ (fun h => ?_) (?_ : Ev _ _ (((((d :: ds).foldl (fun s x => s.doneEntry u x)
    (due.foldl (fun s x => s.wipe u x kept) (s.onDrains u (fun _ => kept)))).copyEnds u sd).release u sd).afterDone sd))
  · extract_lets
    split
    · exact Ev.then (State.electAll_ev ..) (Ev.then (State.addFails_ev ..) h (by decide)) (by decide)
    · exact Ev.then (State.electAll_ev ..) h (by decide)
  · refine Ev.then (State.afterDone_ev ..) (Ev.then (State.release_ev ..) (Ev.then (State.copyEnds_ev ..) ?_ (by decide)) (by decide)) (by decide)
    refine Ev.foldl _ (fun v x h => Ev.then (State.doneEntry_ev ..) h (by decide)) _ _ (Ev.foldl _ (fun v x h => ?_) _ _ ?_)
    · exact Ev.then (State.wipe_ev ..) h (by decide)
    · exact (State.onDrains_ev ..).mono (by decide)

theorem execDoneAction_ev (u : UIx) (residue : Bool) (s : State) {t : State} (h : execDoneAction u residue s = .next t) : Ev [.blk, .svc, .log, .cp, .arrays, .halves, .cores, .tun, .mem, .mirror, .xch] s t := by
  unfold execDoneAction at h
  simp only [Host.Outcome.next.injEq] at h
  subst h
  repeat' first
    | with_reducible apply Ev.refl
    | with_reducible assumption
    | (extract_lets +onlyGivenNames y; with_reducible refine Ev.keep y ?_ ?_; rotate_left; subst y; rotate_left; clear_value y; intro hy)
    | (extract_lets +onlyGivenNames x; revert x; intro _)
    | with_reducible apply Ev.then (State.cutCmd_ev ..)
    | with_reducible apply Ev.then (State.doneAction_ev ..)
    | with_reducible apply Ev.then (State.electAll_ev ..)
    | with_reducible apply Ev.then (State.onDrains_ev ..)
    | (intros; show sub _ _ = true; decide)
    | split
    | with_reducible refine (?_ : Ev _ _ (ite _ _ _))
    | intro _

theorem State.wardFail_ev (s : State) (a : Nat) (f : Nat × Int × Bool) : Ev [.blk, .svc, .log, .cp, .arrays, .halves, .cores, .tun, .mem, .mirror, .xch] s (State.wardFail s a f) := by
  unfold State.wardFail
  repeat' first
    | with_reducible apply Ev.refl
    | with_reducible assumption
    | (extract_lets +onlyGivenNames y; with_reducible refine Ev.keep y ?_ ?_; rotate_left; subst y; rotate_left; clear_value y; intro hy)
    | (extract_lets +onlyGivenNames x; revert x; intro _)
    | with_reducible apply Ev.then (State.logRec_ev ..)
    | with_reducible apply Ev.then (State.onArray_ev ..)
    | with_reducible apply Ev.then (State.retireArray_ev ..)
    | (intros; show sub _ _ = true; decide)
    | split
    | with_reducible refine (?_ : Ev _ _ (ite _ _ _))
    | intro _

theorem State.advance_ev (s : State) (a : Nat) : Ev [.arrays, .cores] s (State.advance s a) := by
  unfold State.advance
  repeat' first
    | with_reducible apply Ev.refl
    | with_reducible assumption
    | (extract_lets +onlyGivenNames y; with_reducible refine Ev.keep y ?_ ?_; rotate_left; subst y; rotate_left; clear_value y; intro hy)
    | (extract_lets +onlyGivenNames x; revert x; intro _)
    | with_reducible apply Ev.then (State.charge_ev ..)
    | with_reducible apply Ev.then (State.onArray_ev ..)
    | with_reducible apply Ev.then (State.release_ev ..)
    | (intros; show sub _ _ = true; decide)
    | split
    | with_reducible refine (?_ : Ev _ _ (ite _ _ _))
    | intro _

theorem State.vecStep_ev (s : State) (a : Nat) (cmd : Cmd) (c : Comp) (cl : Claim) (v : VecOp) (l : List (LW × Nat × Nat)) : Ev [.cp, .arrays, .halves, .cores, .tun, .mem] s (State.vecStep s a cmd c cl v l) := by
  unfold State.vecStep
  repeat' first
    | with_reducible apply Ev.refl
    | with_reducible assumption
    | (extract_lets +onlyGivenNames y; with_reducible refine Ev.keep y ?_ ?_; rotate_left; subst y; rotate_left; clear_value y; intro hy)
    | (extract_lets +onlyGivenNames x; revert x; intro _)
    | with_reducible apply Ev.then (State.addDrain_ev ..)
    | with_reducible apply Ev.then (State.advance_ev ..)
    | with_reducible apply Ev.then (State.onArray_ev ..)
    | with_reducible apply Ev.then (State.onComp_ev ..)
    | with_reducible apply Ev.then (State.setTunRow_ev ..)
    | with_reducible apply Ev.then (State.syncArea_ev ..)
    | (intros; show sub _ _ = true; decide)
    | split
    | with_reducible refine (?_ : Ev _ _ (ite _ _ _))
    | intro _

theorem State.fillerStep_ev (s : State) (a : Nat) (up : Option ArrayUpset) : Ev [.blk, .svc, .log, .kin, .cp, .arrays, .halves, .cores, .tun, .mem, .mirror, .xch] s (State.fillerStep s a up) := by
  unfold State.fillerStep
  repeat' first
    | with_reducible apply Ev.refl
    | with_reducible assumption
    | (extract_lets +onlyGivenNames y; with_reducible refine Ev.keep y ?_ ?_; rotate_left; subst y; rotate_left; clear_value y; intro hy)
    | (extract_lets +onlyGivenNames x; revert x; intro _)
    | with_reducible apply Ev.then (State.onKin_ev ..)
    | with_reducible apply Ev.then (State.wardFail_ev ..)
    | (intros; show sub _ _ = true; decide)
    | split
    | with_reducible refine (?_ : Ev _ _ (ite _ _ _))
    | intro _

theorem State.workStep_ev (s : State) (a : Nat) (cmd : Cmd) (c : Comp) (cl : Claim) (v : VecOp) (vec : Vec) (up : Option ArrayUpset) : Ev [.blk, .svc, .log, .kin, .cp, .arrays, .halves, .cores, .tun, .mem, .mirror, .xch] s (State.workStep s a cmd c cl v vec up) := by
  unfold State.workStep
  repeat' first
    | with_reducible apply Ev.refl
    | with_reducible assumption
    | (extract_lets +onlyGivenNames y; with_reducible refine Ev.keep y ?_ ?_; rotate_left; subst y; rotate_left; clear_value y; intro hy)
    | (extract_lets +onlyGivenNames x; revert x; intro _)
    | with_reducible apply Ev.then (State.fillerStep_ev ..)
    | with_reducible apply Ev.then (State.onArray_ev ..)
    | with_reducible apply Ev.then (State.onKin_ev ..)
    | with_reducible apply Ev.then (State.slotEvent_ev ..)
    | with_reducible apply Ev.then (State.vecStep_ev ..)
    | with_reducible apply Ev.then (State.wardFail_ev ..)
    | (intros; show sub _ _ = true; decide)
    | split
    | with_reducible refine (?_ : Ev _ _ (ite _ _ _))
    | intro _

theorem State.claimStep_ev (s : State) (a : Nat) (cmd : Cmd) (c : Comp) (cl : Claim) (up : Option ArrayUpset) : Ev [.blk, .svc, .log, .kin, .cp, .arrays, .halves, .cores, .tun, .mem, .mirror, .xch] s (State.claimStep s a cmd c cl up) := by
  unfold State.claimStep
  repeat' first
    | with_reducible apply Ev.refl
    | with_reducible assumption
    | (extract_lets +onlyGivenNames y; with_reducible refine Ev.keep y ?_ ?_; rotate_left; subst y; rotate_left; clear_value y; intro hy)
    | (extract_lets +onlyGivenNames x; revert x; intro _)
    | with_reducible apply Ev.then (State.addDrain_ev ..)
    | with_reducible apply Ev.then (State.advance_ev ..)
    | with_reducible apply Ev.then (State.fillerStep_ev ..)
    | with_reducible apply Ev.then (State.onArray_ev ..)
    | with_reducible apply Ev.then (State.wardFail_ev ..)
    | with_reducible apply Ev.then (State.workStep_ev ..)
    | (intros; show sub _ _ = true; decide)
    | split
    | with_reducible refine (?_ : Ev _ _ (ite _ _ _))
    | intro _

theorem execArrayStep_ev (a : AIx) (upset : Option ArrayUpset) (s : State) {t : State} (h : execArrayStep a upset s = .next t) : Ev [.blk, .svc, .log, .kin, .cp, .arrays, .halves, .cores, .tun, .mem, .mirror, .xch] s t := by
  unfold execArrayStep at h
  simp only [Host.Outcome.next.injEq] at h
  subst h
  repeat' first
    | with_reducible apply Ev.refl
    | with_reducible assumption
    | (extract_lets +onlyGivenNames y; with_reducible refine Ev.keep y ?_ ?_; rotate_left; subst y; rotate_left; clear_value y; intro hy)
    | (extract_lets +onlyGivenNames x; revert x; intro _)
    | with_reducible apply Ev.then (State.claimStep_ev ..)
    | with_reducible apply Ev.then (State.fillerStep_ev ..)
    | with_reducible apply Ev.then (State.onArray_ev ..)
    | with_reducible apply Ev.then (State.onCore_ev ..)
    | (intros; show sub _ _ = true; decide)
    | split
    | with_reducible refine (?_ : Ev _ _ (ite _ _ _))
    | intro _

theorem State.publish_ev (s : State) (key : Key) : Ev [.qs, .cp, .arrays, .halves, .cores, .mem, .xch] s (State.publish s key) := by
  unfold State.publish
  repeat' first
    | with_reducible apply Ev.refl
    | with_reducible assumption
    | (extract_lets +onlyGivenNames y; with_reducible refine Ev.keep y ?_ ?_; rotate_left; subst y; rotate_left; clear_value y; intro hy)
    | (extract_lets +onlyGivenNames x; revert x; intro _)
    | (with_reducible apply Ev.foldl; intro _ _ _)
    | with_reducible apply Ev.then (State.electAll_ev ..)
    | with_reducible apply Ev.then (State.onCmd_ev ..)
    | with_reducible apply Ev.then (State.onComp_ev ..)
    | with_reducible apply Ev.then (State.onQ_ev ..)
    | with_reducible apply Ev.then (State.settle_ev ..)
    | with_reducible apply Ev.then (State.store_ev ..)
    | with_reducible apply Ev.then (State.syncArea_ev ..)
    | with_reducible apply Ev.then (State.writeAllRuns_ev ..)
    | (intros; show sub _ _ = true; decide)
    | split
    | with_reducible refine (?_ : Ev _ _ (ite _ _ _))
    | intro _

theorem State.launch_ev (s : State) (q pos p step : Nat) (c : Comp) : Ev [.qs, .cp, .arrays, .halves, .cores, .mem, .xch] s (State.launch s q pos p step c) := by
  unfold State.launch
  repeat' first
    | with_reducible apply Ev.refl
    | with_reducible assumption
    | (extract_lets +onlyGivenNames y; with_reducible refine Ev.keep y ?_ ?_; rotate_left; subst y; rotate_left; clear_value y; intro hy)
    | (extract_lets +onlyGivenNames x; revert x; intro _)
    | with_reducible apply Ev.then (State.addCmd_ev ..)
    | with_reducible apply Ev.then (State.allowDraws_ev ..)
    | with_reducible apply Ev.then (State.launchCmd_ev ..)
    | with_reducible apply Ev.then (State.onCp_ev ..)
    | with_reducible apply Ev.then (State.publish_ev ..)
    | (intros; show sub _ _ = true; decide)
    | split
    | with_reducible refine (?_ : Ev _ _ (ite _ _ _))
    | intro _

theorem dispatchComp_ev (op q : Nat) (s : State) : Ev [.svc, .log, .ctxs, .qs, .cp, .arrays, .halves, .cores, .mem, .mirror, .xch] s (dispatchComp op q s) := by
  unfold dispatchComp
  repeat' first
    | with_reducible apply Ev.refl
    | with_reducible assumption
    | (extract_lets +onlyGivenNames y; with_reducible refine Ev.keep y ?_ ?_; rotate_left; subst y; rotate_left; clear_value y; intro hy)
    | (extract_lets +onlyGivenNames x; revert x; intro _)
    | with_reducible apply Ev.then (State.launch_ev ..)
    | with_reducible apply Ev.then (State.replyNow_ev ..)
    | with_reducible refine withPacket_ev _ _ _ _ (fun _ _ _ _ => ?_) (by decide)
    | (intros; show sub _ _ = true; decide)
    | split
    | with_reducible refine (?_ : Ev _ _ (ite _ _ _))
    | intro _

theorem execMatmul_ev (q : QIx) (s : State) {t : State} (h : execMatmul q s = .next t) : Ev [.svc, .log, .ctxs, .qs, .cp, .arrays, .halves, .cores, .mem, .mirror, .xch] s t := by
  unfold execMatmul at h
  simp only [Host.Outcome.next.injEq] at h
  subst h
  repeat' first
    | with_reducible apply Ev.refl
    | with_reducible assumption
    | (extract_lets +onlyGivenNames y; with_reducible refine Ev.keep y ?_ ?_; rotate_left; subst y; rotate_left; clear_value y; intro hy)
    | (extract_lets +onlyGivenNames x; revert x; intro _)
    | with_reducible apply Ev.then (dispatchComp_ev ..)
    | (intros; show sub _ _ = true; decide)
    | split
    | with_reducible refine (?_ : Ev _ _ (ite _ _ _))
    | intro _

theorem execMatvec_ev (q : QIx) (s : State) {t : State} (h : execMatvec q s = .next t) : Ev [.svc, .log, .ctxs, .qs, .cp, .arrays, .halves, .cores, .mem, .mirror, .xch] s t := by
  unfold execMatvec at h
  simp only [Host.Outcome.next.injEq] at h
  subst h
  repeat' first
    | with_reducible apply Ev.refl
    | with_reducible assumption
    | (extract_lets +onlyGivenNames y; with_reducible refine Ev.keep y ?_ ?_; rotate_left; subst y; rotate_left; clear_value y; intro hy)
    | (extract_lets +onlyGivenNames x; revert x; intro _)
    | with_reducible apply Ev.then (dispatchComp_ev ..)
    | (intros; show sub _ _ = true; decide)
    | split
    | with_reducible refine (?_ : Ev _ _ (ite _ _ _))
    | intro _

theorem execGatherMatmul_ev (q : QIx) (s : State) {t : State} (h : execGatherMatmul q s = .next t) : Ev [.svc, .log, .ctxs, .qs, .cp, .arrays, .halves, .cores, .mem, .mirror, .xch] s t := by
  unfold execGatherMatmul at h
  simp only [Host.Outcome.next.injEq] at h
  subst h
  repeat' first
    | with_reducible apply Ev.refl
    | with_reducible assumption
    | (extract_lets +onlyGivenNames y; with_reducible refine Ev.keep y ?_ ?_; rotate_left; subst y; rotate_left; clear_value y; intro hy)
    | (extract_lets +onlyGivenNames x; revert x; intro _)
    | with_reducible apply Ev.then (dispatchComp_ev ..)
    | (intros; show sub _ _ = true; decide)
    | split
    | with_reducible refine (?_ : Ev _ _ (ite _ _ _))
    | intro _

theorem execSegmentSum_ev (q : QIx) (s : State) {t : State} (h : execSegmentSum q s = .next t) : Ev [.svc, .log, .ctxs, .qs, .cp, .arrays, .halves, .cores, .mem, .mirror, .xch] s t := by
  unfold execSegmentSum at h
  simp only [Host.Outcome.next.injEq] at h
  subst h
  repeat' first
    | with_reducible apply Ev.refl
    | with_reducible assumption
    | (extract_lets +onlyGivenNames y; with_reducible refine Ev.keep y ?_ ?_; rotate_left; subst y; rotate_left; clear_value y; intro hy)
    | (extract_lets +onlyGivenNames x; revert x; intro _)
    | with_reducible apply Ev.then (dispatchComp_ev ..)
    | (intros; show sub _ _ = true; decide)
    | split
    | with_reducible refine (?_ : Ev _ _ (ite _ _ _))
    | intro _

theorem execCombine_ev (q : QIx) (s : State) {t : State} (h : execCombine q s = .next t) : Ev [.svc, .log, .ctxs, .qs, .cp, .arrays, .halves, .cores, .mem, .mirror, .xch] s t := by
  unfold execCombine at h
  simp only [Host.Outcome.next.injEq] at h
  subst h
  repeat' first
    | with_reducible apply Ev.refl
    | with_reducible assumption
    | (extract_lets +onlyGivenNames y; with_reducible refine Ev.keep y ?_ ?_; rotate_left; subst y; rotate_left; clear_value y; intro hy)
    | (extract_lets +onlyGivenNames x; revert x; intro _)
    | with_reducible apply Ev.then (dispatchComp_ev ..)
    | (intros; show sub _ _ = true; decide)
    | split
    | with_reducible refine (?_ : Ev _ _ (ite _ _ _))
    | intro _

theorem execFinish_ev (q : QIx) (s : State) {t : State} (h : execFinish q s = .next t) : Ev [.svc, .log, .ctxs, .qs, .cp, .arrays, .halves, .cores, .mem, .mirror, .xch] s t := by
  unfold execFinish at h
  simp only [Host.Outcome.next.injEq] at h
  subst h
  repeat' first
    | with_reducible apply Ev.refl
    | with_reducible assumption
    | (extract_lets +onlyGivenNames y; with_reducible refine Ev.keep y ?_ ?_; rotate_left; subst y; rotate_left; clear_value y; intro hy)
    | (extract_lets +onlyGivenNames x; revert x; intro _)
    | with_reducible apply Ev.then (dispatchComp_ev ..)
    | (intros; show sub _ _ = true; decide)
    | split
    | with_reducible refine (?_ : Ev _ _ (ite _ _ _))
    | intro _

theorem execWorkCounterRecordFree_ev (q : QIx) (s : State) {t : State} (h : execWorkCounterRecordFree q s = .next t) : Ev [.qs, .cp, .arrays, .halves, .cores, .mem, .xch] s t := by
  unfold execWorkCounterRecordFree at h
  simp only [Host.Outcome.next.injEq] at h
  subst h
  repeat' first
    | with_reducible apply Ev.refl
    | with_reducible assumption
    | (extract_lets +onlyGivenNames y; with_reducible refine Ev.keep y ?_ ?_; rotate_left; subst y; rotate_left; clear_value y; intro hy)
    | (extract_lets +onlyGivenNames x; revert x; intro _)
    | with_reducible apply Ev.then (State.dropCmd_ev ..)
    | with_reducible apply Ev.then (State.launch_ev ..)
    | with_reducible apply Ev.then (State.onQ_ev ..)
    | (intros; show sub _ _ = true; decide)
    | split
    | with_reducible refine (?_ : Ev _ _ (ite _ _ _))
    | intro _

theorem State.claimAllHeld_ev (s : State) (key : Key) : Ev [.cp, .arrays, .halves, .cores, .tun, .mem] s (State.claimAllHeld s key) := by
  unfold State.claimAllHeld
  repeat' first
    | with_reducible apply Ev.refl
    | with_reducible assumption
    | (extract_lets +onlyGivenNames y; with_reducible refine Ev.keep y ?_ ?_; rotate_left; subst y; rotate_left; clear_value y; intro hy)
    | (extract_lets +onlyGivenNames x; revert x; intro _)
    | (with_reducible apply Ev.foldl; intro _ _ _)
    | with_reducible apply Ev.then (State.claimHeld_ev ..)
    | (intros; show sub _ _ = true; decide)
    | split
    | with_reducible refine (?_ : Ev _ _ (ite _ _ _))
    | intro _

theorem execLedgerRunWrite_ev (q : QIx) (pos : Nat) (s : State) {t : State} (h : execLedgerRunWrite q pos s = .next t) : Ev [.qs, .cp, .arrays, .halves, .cores, .tun, .mem, .xch] s t := by
  unfold execLedgerRunWrite at h
  simp only [Host.Outcome.next.injEq] at h
  subst h
  repeat' first
    | with_reducible apply Ev.refl
    | with_reducible assumption
    | (extract_lets +onlyGivenNames y; with_reducible refine Ev.keep y ?_ ?_; rotate_left; subst y; rotate_left; clear_value y; intro hy)
    | (extract_lets +onlyGivenNames x; revert x; intro _)
    | with_reducible apply Ev.then (State.claimAllHeld_ev ..)
    | with_reducible apply Ev.then (State.onComp_ev ..)
    | with_reducible apply Ev.then (State.publish_ev ..)
    | with_reducible apply Ev.then (State.syncArea_ev ..)
    | (intros; show sub _ _ = true; decide)
    | split
    | with_reducible refine (?_ : Ev _ _ (ite _ _ _))
    | intro _

theorem State.pause_ev (s : State) (a : Nat) (sd : Seed) : Ev [.arrays, .cores] s (State.pause s a sd) := by
  unfold State.pause
  repeat' first
    | with_reducible apply Ev.refl
    | with_reducible assumption
    | (extract_lets +onlyGivenNames y; with_reducible refine Ev.keep y ?_ ?_; rotate_left; subst y; rotate_left; clear_value y; intro hy)
    | (extract_lets +onlyGivenNames x; revert x; intro _)
    | with_reducible apply Ev.then (State.charge_ev ..)
    | with_reducible apply Ev.then (State.onArray_ev ..)
    | with_reducible apply Ev.then (State.onCore_ev ..)
    | (intros; show sub _ _ = true; decide)
    | split
    | with_reducible refine (?_ : Ev _ _ (ite _ _ _))
    | intro _

theorem State.pauseAll_ev (s : State) (n : Nat) (named : List (Nat × Nat)) : Ev [.arrays, .cores] s (State.pauseAll s n named) := by
  unfold State.pauseAll
  repeat' first
    | with_reducible apply Ev.refl
    | with_reducible assumption
    | (extract_lets +onlyGivenNames y; with_reducible refine Ev.keep y ?_ ?_; rotate_left; subst y; rotate_left; clear_value y; intro hy)
    | (extract_lets +onlyGivenNames x; revert x; intro _)
    | (with_reducible apply Ev.foldl; intro _ _ _)
    | with_reducible apply Ev.then (State.pause_ev ..)
    | (intros; show sub _ _ = true; decide)
    | split
    | with_reducible refine (?_ : Ev _ _ (ite _ _ _))
    | intro _

theorem State.keepDrains_ev (s : State) (named : List (Nat × Nat)) (p : Paused) (i : Nat) : Ev [.arrays, .halves, .cores] s (State.keepDrains s named p i) := by
  unfold State.keepDrains
  repeat' first
    | with_reducible apply Ev.refl
    | with_reducible assumption
    | (extract_lets +onlyGivenNames y; with_reducible refine Ev.keep y ?_ ?_; rotate_left; subst y; rotate_left; clear_value y; intro hy)
    | (extract_lets +onlyGivenNames x; revert x; intro _)
    | with_reducible apply Ev.then (State.onCore_ev ..)
    | with_reducible apply Ev.then (State.onDrains_ev ..)
    | (intros; show sub _ _ = true; decide)
    | split
    | with_reducible refine (?_ : Ev _ _ (ite _ _ _))
    | intro _

theorem State.saveSlots_ev (s : State) (n a : Nat) (named : List (Nat × Nat)) : Ev [.arrays, .halves, .cores, .mem] s (State.saveSlots s n a named) := by
  unfold State.saveSlots
  repeat' first
    | with_reducible apply Ev.refl
    | with_reducible assumption
    | (extract_lets +onlyGivenNames y; with_reducible refine Ev.keep y ?_ ?_; rotate_left; subst y; rotate_left; clear_value y; intro hy)
    | (extract_lets +onlyGivenNames x; revert x; intro _)
    | (with_reducible apply Ev.foldl; intro _ _ _)
    | with_reducible apply Ev.then (State.keepDrains_ev ..)
    | with_reducible apply Ev.then (State.onCore_ev ..)
    | with_reducible apply Ev.then (State.store_ev ..)
    | (intros; show sub _ _ = true; decide)
    | split
    | with_reducible refine (?_ : Ev _ _ (ite _ _ _))
    | intro _

theorem State.finishSave_ev (s : State) (k : Key) : Ev [.cp, .arrays, .halves, .cores, .mem] s (State.finishSave s k) := by
  unfold State.finishSave
  repeat' first
    | with_reducible apply Ev.refl
    | with_reducible assumption
    | (extract_lets +onlyGivenNames y; with_reducible refine Ev.keep y ?_ ?_; rotate_left; subst y; rotate_left; clear_value y; intro hy)
    | (extract_lets +onlyGivenNames x; revert x; intro _)
    | with_reducible apply Ev.then (State.onCmd_ev ..)
    | with_reducible apply Ev.then (State.saveSlots_ev ..)
    | (intros; show sub _ _ = true; decide)
    | split
    | with_reducible refine (?_ : Ev _ _ (ite _ _ _))
    | intro _

theorem State.finishSaves_ev (s : State) : Ev [.cp, .arrays, .halves, .cores, .mem] s (State.finishSaves s) := by
  unfold State.finishSaves
  repeat' first
    | with_reducible apply Ev.refl
    | with_reducible assumption
    | (extract_lets +onlyGivenNames y; with_reducible refine Ev.keep y ?_ ?_; rotate_left; subst y; rotate_left; clear_value y; intro hy)
    | (extract_lets +onlyGivenNames x; revert x; intro _)
    | (with_reducible apply Ev.foldl; intro _ _ _)
    | with_reducible apply Ev.then (State.finishSave_ev ..)
    | (intros; show sub _ _ = true; decide)
    | split
    | with_reducible refine (?_ : Ev _ _ (ite _ _ _))
    | intro _

theorem State.resumePaused_ev (s : State) (p : Paused) : Ev [.arrays, .cores] s (State.resumePaused s p) := by
  unfold State.resumePaused
  repeat' first
    | with_reducible apply Ev.refl
    | with_reducible assumption
    | (extract_lets +onlyGivenNames y; with_reducible refine Ev.keep y ?_ ?_; rotate_left; subst y; rotate_left; clear_value y; intro hy)
    | (extract_lets +onlyGivenNames x; revert x; intro _)
    | with_reducible apply Ev.then (State.onArray_ev ..)
    | with_reducible apply Ev.then (State.onCore_ev ..)
    | (intros; show sub _ _ = true; decide)
    | split
    | with_reducible refine (?_ : Ev _ _ (ite _ _ _))
    | intro _

theorem State.resumeFree_ev (s : State) : Ev [.arrays, .cores] s (State.resumeFree s) := by
  unfold State.resumeFree
  repeat' first
    | with_reducible apply Ev.refl
    | with_reducible assumption
    | (extract_lets +onlyGivenNames y; with_reducible refine Ev.keep y ?_ ?_; rotate_left; subst y; rotate_left; clear_value y; intro hy)
    | (extract_lets +onlyGivenNames x; revert x; intro _)
    | (with_reducible apply Ev.foldl; intro _ _ _)
    | with_reducible apply Ev.then (State.resumePaused_ev ..)
    | (intros; show sub _ _ = true; decide)
    | split
    | with_reducible refine (?_ : Ev _ _ (ite _ _ _))
    | intro _

theorem State.restoreSlot_ev (s : State) (n : Nat) (x : Nat × Nat) (a : Nat) : Ev [.cores, .tun] s (State.restoreSlot s n x a) := by
  unfold State.restoreSlot
  repeat' first
    | with_reducible apply Ev.refl
    | with_reducible assumption
    | (extract_lets +onlyGivenNames y; with_reducible refine Ev.keep y ?_ ?_; rotate_left; subst y; rotate_left; clear_value y; intro hy)
    | (extract_lets +onlyGivenNames x; revert x; intro _)
    | (with_reducible apply Ev.foldl; intro _ _ _)
    | with_reducible apply Ev.then (State.onCore_ev ..)
    | with_reducible apply Ev.then (State.setTunRow_ev ..)
    | (intros; show sub _ _ = true; decide)
    | split
    | with_reducible refine (?_ : Ev _ _ (ite _ _ _))
    | intro _

theorem State.restoreStats_ev (s : State) (n addr : Nat) (named : List (Nat × Nat)) : Ev [.cores] s (State.restoreStats s n addr named) := by
  unfold State.restoreStats
  repeat' first
    | with_reducible apply Ev.refl
    | with_reducible assumption
    | (extract_lets +onlyGivenNames y; with_reducible refine Ev.keep y ?_ ?_; rotate_left; subst y; rotate_left; clear_value y; intro hy)
    | (extract_lets +onlyGivenNames x; revert x; intro _)
    | (with_reducible apply Ev.foldl; intro _ _ _)
    | with_reducible apply Ev.then (State.onCore_ev ..)
    | (intros; show sub _ _ = true; decide)
    | split
    | with_reducible refine (?_ : Ev _ _ (ite _ _ _))
    | intro _

theorem State.wakeCore_ev (s : State) (n c : Nat) (named : List (Nat × Nat)) : Ev [.arrays, .halves, .cores] s (State.wakeCore s n c named) := by
  unfold State.wakeCore
  repeat' first
    | with_reducible apply Ev.refl
    | with_reducible assumption
    | (extract_lets +onlyGivenNames y; with_reducible refine Ev.keep y ?_ ?_; rotate_left; subst y; rotate_left; clear_value y; intro hy)
    | (extract_lets +onlyGivenNames x; revert x; intro _)
    | (with_reducible apply Ev.foldl; intro _ _ _)
    | with_reducible apply Ev.then (State.onCore_ev ..)
    | with_reducible apply Ev.then (State.onDrains_ev ..)
    | (intros; show sub _ _ = true; decide)
    | split
    | with_reducible refine (?_ : Ev _ _ (ite _ _ _))
    | intro _

theorem State.restore_ev (s : State) (k : Key) (p : Nat) (named : List (Nat × Nat)) : Ev [.cp, .arrays, .halves, .cores, .tun] s (State.restore s k p named) := by
  unfold State.restore
  repeat' first
    | with_reducible apply Ev.refl
    | with_reducible assumption
    | (extract_lets +onlyGivenNames y; with_reducible refine Ev.keep y ?_ ?_; rotate_left; subst y; rotate_left; clear_value y; intro hy)
    | (extract_lets +onlyGivenNames x; revert x; intro _)
    | (with_reducible apply Ev.foldl; intro _ _ _)
    | with_reducible apply Ev.then (State.onCmd_ev ..)
    | with_reducible apply Ev.then (State.restoreSlot_ev ..)
    | with_reducible apply Ev.then (State.restoreStats_ev ..)
    | with_reducible apply Ev.then (State.resumeFree_ev ..)
    | with_reducible apply Ev.then (State.wakeCore_ev ..)
    | (intros; show sub _ _ = true; decide)
    | split
    | with_reducible refine (?_ : Ev _ _ (ite _ _ _))
    | intro _

theorem execTunSave_ev (q : QIx) (s : State) {t : State} (h : execTunSave q s = .next t) : Ev [.svc, .log, .ctxs, .qs, .cp, .arrays, .halves, .cores, .mem, .mirror] s t := by
  unfold execTunSave at h
  simp only [Host.Outcome.next.injEq] at h
  subst h
  repeat' first
    | with_reducible apply Ev.refl
    | with_reducible assumption
    | (extract_lets +onlyGivenNames y; with_reducible refine Ev.keep y ?_ ?_; rotate_left; subst y; rotate_left; clear_value y; intro hy)
    | (extract_lets +onlyGivenNames x; revert x; intro _)
    | (with_reducible apply Ev.foldl; intro _ _ _)
    | with_reducible apply Ev.then (State.finishSave_ev ..)
    | with_reducible apply Ev.then (State.launchCmd_ev ..)
    | with_reducible apply Ev.then (State.onCore_ev ..)
    | with_reducible apply Ev.then (State.pauseAll_ev ..)
    | with_reducible apply Ev.then (State.replyNow_ev ..)
    | with_reducible refine withPacket_ev _ _ _ _ (fun _ _ _ _ => ?_) (by decide)
    | (intros; show sub _ _ = true; decide)
    | split
    | with_reducible refine (?_ : Ev _ _ (ite _ _ _))
    | intro _

theorem execTunRestore_ev (q : QIx) (s : State) {t : State} (h : execTunRestore q s = .next t) : Ev [.svc, .log, .ctxs, .qs, .cp, .arrays, .halves, .cores, .tun, .mem, .mirror] s t := by
  unfold execTunRestore at h
  simp only [Host.Outcome.next.injEq] at h
  subst h
  repeat' first
    | with_reducible apply Ev.refl
    | with_reducible assumption
    | (extract_lets +onlyGivenNames y; with_reducible refine Ev.keep y ?_ ?_; rotate_left; subst y; rotate_left; clear_value y; intro hy)
    | (extract_lets +onlyGivenNames x; revert x; intro _)
    | with_reducible apply Ev.then (State.launchCmd_ev ..)
    | with_reducible apply Ev.then (State.replyNow_ev ..)
    | with_reducible apply Ev.then (State.restore_ev ..)
    | with_reducible refine withPacket_ev _ _ _ _ (fun _ _ _ _ => ?_) (by decide)
    | (intros; show sub _ _ = true; decide)
    | split
    | with_reducible refine (?_ : Ev _ _ (ite _ _ _))
    | intro _

theorem execTunRestoreBind_ev (q : QIx) (s : State) {t : State} (h : execTunRestoreBind q s = .next t) : Ev [.qs, .cp, .arrays, .halves, .cores, .tun] s t := by
  unfold execTunRestoreBind at h
  simp only [Host.Outcome.next.injEq] at h
  subst h
  repeat' first
    | with_reducible apply Ev.refl
    | with_reducible assumption
    | (extract_lets +onlyGivenNames y; with_reducible refine Ev.keep y ?_ ?_; rotate_left; subst y; rotate_left; clear_value y; intro hy)
    | (extract_lets +onlyGivenNames x; revert x; intro _)
    | with_reducible apply Ev.then (State.onQ_ev ..)
    | with_reducible apply Ev.then (State.restore_ev ..)
    | (intros; show sub _ _ = true; decide)
    | split
    | with_reducible refine (?_ : Ev _ _ (ite _ _ _))
    | intro _

theorem State.scrubError_ev (s : State) (c slot row : Nat) : Ev [.blk, .svc, .log, .cp, .arrays, .halves, .cores, .tun, .mem, .mirror, .xch] s (State.scrubError s c slot row) := by
  unfold State.scrubError
  repeat' first
    | with_reducible apply Ev.refl
    | with_reducible assumption
    | (extract_lets +onlyGivenNames y; with_reducible refine Ev.keep y ?_ ?_; rotate_left; subst y; rotate_left; clear_value y; intro hy)
    | (extract_lets +onlyGivenNames x; revert x; intro _)
    | with_reducible apply Ev.then (State.countSlot_ev ..)
    | with_reducible apply Ev.then (State.logRec_ev ..)
    | with_reducible apply Ev.then (State.retireCore_ev ..)
    | with_reducible apply Ev.then (State.setTunRow_ev ..)
    | with_reducible apply Ev.then (State.slotEvent_ev ..)
    | (intros; show sub _ _ = true; decide)
    | split
    | with_reducible refine (?_ : Ev _ _ (ite _ _ _))
    | intro _

theorem State.scrubRow_ev (s : State) (c : Nat) (double : Bool) : Ev [.blk, .svc, .log, .cp, .arrays, .halves, .cores, .tun, .mem, .mirror, .xch] s (State.scrubRow s c double) := by
  unfold State.scrubRow
  repeat' first
    | with_reducible apply Ev.refl
    | with_reducible assumption
    | (extract_lets +onlyGivenNames y; with_reducible refine Ev.keep y ?_ ?_; rotate_left; subst y; rotate_left; clear_value y; intro hy)
    | (extract_lets +onlyGivenNames x; revert x; intro _)
    | with_reducible apply Ev.then (State.onCore_ev ..)
    | with_reducible apply Ev.then (State.scrubError_ev ..)
    | (intros; show sub _ _ = true; decide)
    | split
    | with_reducible refine (?_ : Ev _ _ (ite _ _ _))
    | intro _

theorem execTunScrub_ev (c : KIx) (double : Bool) (s : State) {t : State} (h : execTunScrub c double s = .next t) : Ev [.blk, .svc, .log, .cp, .arrays, .halves, .cores, .tun, .mem, .mirror, .xch] s t := by
  unfold execTunScrub at h
  simp only [Host.Outcome.next.injEq] at h
  subst h
  repeat' first
    | with_reducible apply Ev.refl
    | with_reducible assumption
    | (extract_lets +onlyGivenNames y; with_reducible refine Ev.keep y ?_ ?_; rotate_left; subst y; rotate_left; clear_value y; intro hy)
    | (extract_lets +onlyGivenNames x; revert x; intro _)
    | with_reducible apply Ev.then (State.scrubRow_ev ..)
    | (intros; show sub _ _ = true; decide)
    | split
    | with_reducible refine (?_ : Ev _ _ (ite _ _ _))
    | intro _

theorem execTunScrubForced_ev (c : KIx) (slot : Fin 32) (double : Bool) (s : State) {t : State} (h : execTunScrubForced c slot double s = .next t) : Ev [.blk, .svc, .log, .cp, .arrays, .halves, .cores, .tun, .mem, .mirror, .xch] s t := by
  unfold execTunScrubForced at h
  simp only [Host.Outcome.next.injEq] at h
  subst h
  repeat' first
    | with_reducible apply Ev.refl
    | with_reducible assumption
    | (extract_lets +onlyGivenNames y; with_reducible refine Ev.keep y ?_ ?_; rotate_left; subst y; rotate_left; clear_value y; intro hy)
    | (extract_lets +onlyGivenNames x; revert x; intro _)
    | with_reducible apply Ev.then (State.scrubRow_ev ..)
    | (intros; show sub _ _ = true; decide)
    | split
    | with_reducible refine (?_ : Ev _ _ (ite _ _ _))
    | intro _

theorem State.addRepair_ev (s : State) (r : Nat) : Ev [.blk] s (State.addRepair s r).1 := by
  unfold State.addRepair
  repeat' first
    | with_reducible apply Ev.refl
    | with_reducible assumption
    | (extract_lets +onlyGivenNames y; with_reducible refine Ev.keep y ?_ ?_; rotate_left; subst y; rotate_left; clear_value y; intro hy)
    | (extract_lets +onlyGivenNames x; revert x; intro _)
    | with_reducible apply Ev.then (State.onBlk_ev _ _ ?_)
    | exact Nat.and_self _
    | (intros; show sub _ _ = true; decide)
    | split
    | with_reducible refine (?_ : Ev _ _ (ite _ _ _))
    | intro _

theorem State.addRepair_of {s : State} {r : Nat} {t : State} {x} (h : State.addRepair s r = (t, x)) : Ev [.blk] s t := by
  have g := State.addRepair_ev s r
  rw [h] at g
  exact g

theorem State.diagRecord_ev (s : State) (a row r : Nat) : Ev [.blk, .svc, .log, .mem, .mirror] s (State.diagRecord s a row r) := by
  unfold State.diagRecord
  repeat' first
    | with_reducible apply Ev.refl
    | with_reducible assumption
    | (extract_lets +onlyGivenNames y; with_reducible refine Ev.keep y ?_ ?_; rotate_left; subst y; rotate_left; clear_value y; intro hy)
    | (extract_lets +onlyGivenNames x; revert x; intro _)
    | (with_reducible apply Ev.then (State.addRepair_of (by assumption)))
    | with_reducible apply Ev.then (State.addRepair_ev ..)
    | with_reducible apply Ev.then (State.logRec_ev ..)
    | (intros; show sub _ _ = true; decide)
    | split
    | with_reducible refine (?_ : Ev _ _ (ite _ _ _))
    | intro _

theorem execDiagnosticPassEnd_ev (a : AIx) (reads : List DiagRead) (s : State) {t : State} (h : execDiagnosticPassEnd a reads s = .next t) : Ev [.blk, .svc, .log, .arrays, .mem, .mirror] s t := by
  unfold execDiagnosticPassEnd at h
  simp only [Host.Outcome.next.injEq] at h
  subst h
  repeat' first
    | with_reducible apply Ev.refl
    | with_reducible assumption
    | (extract_lets +onlyGivenNames y; with_reducible refine Ev.keep y ?_ ?_; rotate_left; subst y; rotate_left; clear_value y; intro hy)
    | (extract_lets +onlyGivenNames x; revert x; intro _)
    | (with_reducible apply Ev.foldl; intro _ _ _)
    | with_reducible apply Ev.then (State.diagRecord_ev ..)
    | with_reducible apply Ev.then (State.logRec_ev ..)
    | with_reducible apply Ev.then (State.onArray_ev ..)
    | with_reducible apply Ev.then (State.report_ev ..)
    | (intros; show sub _ _ = true; decide)
    | split
    | with_reducible refine (?_ : Ev _ _ (ite _ _ _))
    | intro _

theorem execThinFetchArrival_ev (half : Fin 16) (f : ThinFetch) (s : State) {t : State} (h : execThinFetchArrival half f s = .next t) : Ev [.svc, .log, .cp, .arrays, .halves, .cores, .tun, .mem, .mirror, .xch] s t := by
  unfold execThinFetchArrival at h
  simp only [Host.Outcome.next.injEq] at h
  subst h
  repeat' first
    | with_reducible apply Ev.refl
    | with_reducible assumption
    | (extract_lets +onlyGivenNames y; with_reducible refine Ev.keep y ?_ ?_; rotate_left; subst y; rotate_left; clear_value y; intro hy)
    | (extract_lets +onlyGivenNames x; revert x; intro _)
    | with_reducible apply Ev.then (State.failRead_ev ..)
    | with_reducible apply Ev.then (State.onHalf_ev ..)
    | with_reducible apply Ev.then (State.store_ev ..)
    | (intros; show sub _ _ = true; decide)
    | split
    | with_reducible refine (?_ : Ev _ _ (ite _ _ _))
    | intro _

theorem State.thinAccumulate_ev (s : State) (h : Nat) (cmd : Cmd) (c : Comp) (cl : TClaim) (cs : List Contrib) : Ev [.cp, .arrays, .halves, .cores, .mem] s (State.thinAccumulate s h cmd c cl cs) := by
  unfold State.thinAccumulate
  repeat' first
    | with_reducible apply Ev.refl
    | with_reducible assumption
    | (extract_lets +onlyGivenNames y; with_reducible refine Ev.keep y ?_ ?_; rotate_left; subst y; rotate_left; clear_value y; intro hy)
    | (extract_lets +onlyGivenNames x; revert x; intro _)
    | (with_reducible apply Ev.foldl; intro _ _ _)
    | with_reducible apply Ev.then (State.addDrain_ev ..)
    | with_reducible apply Ev.then (State.charge_ev ..)
    | with_reducible apply Ev.then (State.onComp_ev ..)
    | with_reducible apply Ev.then (State.onHalf_ev ..)
    | with_reducible apply Ev.then (State.syncArea_ev ..)
    | (intros; show sub _ _ = true; decide)
    | split
    | with_reducible refine (?_ : Ev _ _ (ite _ _ _))
    | intro _

theorem State.thinFail_ev (s : State) (h : Nat) (cmd : Cmd) (d : Int) (parity : Bool) : Ev [.blk, .svc, .log, .cp, .arrays, .halves, .cores, .tun, .mem, .mirror, .xch] s (State.thinFail s h cmd d parity) := by
  unfold State.thinFail
  repeat' first
    | with_reducible apply Ev.refl
    | with_reducible assumption
    | (extract_lets +onlyGivenNames y; with_reducible refine Ev.keep y ?_ ?_; rotate_left; subst y; rotate_left; clear_value y; intro hy)
    | (extract_lets +onlyGivenNames x; revert x; intro _)
    | with_reducible apply Ev.then (State.logRec_ev ..)
    | with_reducible apply Ev.then (State.retireThin_ev ..)
    | (intros; show sub _ _ = true; decide)
    | split
    | with_reducible refine (?_ : Ev _ _ (ite _ _ _))
    | intro _

theorem State.accEvent_ev (s : State) (h : Nat) (sd : Seed) (g : Nat) (r : Rec) : Ev [.blk, .svc, .log, .cp, .arrays, .halves, .cores, .tun, .mem, .mirror, .xch] s (State.accEvent s h sd g r) := by
  unfold State.accEvent
  repeat' first
    | with_reducible apply Ev.refl
    | with_reducible assumption
    | (extract_lets +onlyGivenNames y; with_reducible refine Ev.keep y ?_ ?_; rotate_left; subst y; rotate_left; clear_value y; intro hy)
    | (extract_lets +onlyGivenNames x; revert x; intro _)
    | with_reducible apply Ev.then (State.giveUp_ev ..)
    | with_reducible apply Ev.then (State.logRec_ev ..)
    | with_reducible apply Ev.then (State.onHalf_ev ..)
    | with_reducible apply Ev.then (State.retireThin_ev ..)
    | (intros; show sub _ _ = true; decide)
    | split
    | with_reducible refine (?_ : Ev _ _ (ite _ _ _))
    | intro _

theorem State.laneStep_ev (s : State) (h : Nat) (cmd : Cmd) (c : Comp) (cl : TClaim) (row : DRow) (up : Option ThinUpset) : Ev [.blk, .svc, .log, .cp, .arrays, .halves, .cores, .tun, .mem, .mirror, .xch] s (State.laneStep s h cmd c cl row up) := by
  unfold State.laneStep
  repeat' first
    | with_reducible apply Ev.refl
    | with_reducible assumption
    | (extract_lets +onlyGivenNames y; with_reducible refine Ev.keep y ?_ ?_; rotate_left; subst y; rotate_left; clear_value y; intro hy)
    | (extract_lets +onlyGivenNames x; revert x; intro _)
    | with_reducible apply Ev.then (State.accEvent_ev ..)
    | with_reducible apply Ev.then (State.thinAccumulate_ev ..)
    | with_reducible apply Ev.then (State.thinFail_ev ..)
    | (intros; show sub _ _ = true; decide)
    | split
    | with_reducible refine (?_ : Ev _ _ (ite _ _ _))
    | intro _

theorem State.thinWait_ev (s : State) (h : Nat) (cl : TClaim) : Ev [.halves] s (State.thinWait s h cl) := by
  unfold State.thinWait
  repeat' first
    | with_reducible apply Ev.refl
    | with_reducible assumption
    | (extract_lets +onlyGivenNames y; with_reducible refine Ev.keep y ?_ ?_; rotate_left; subst y; rotate_left; clear_value y; intro hy)
    | (extract_lets +onlyGivenNames x; revert x; intro _)
    | with_reducible apply Ev.then (State.onHalf_ev ..)
    | (intros; show sub _ _ = true; decide)
    | split
    | with_reducible refine (?_ : Ev _ _ (ite _ _ _))
    | intro _

theorem execThinStep_ev (half : Fin 16) (upset : Option ThinUpset) (s : State) {t : State} (h : execThinStep half upset s = .next t) : Ev [.blk, .svc, .log, .cp, .arrays, .halves, .cores, .tun, .mem, .mirror, .xch] s t := by
  unfold execThinStep at h
  simp only [Host.Outcome.next.injEq] at h
  subst h
  repeat' first
    | with_reducible apply Ev.refl
    | with_reducible assumption
    | (extract_lets +onlyGivenNames y; with_reducible refine Ev.keep y ?_ ?_; rotate_left; subst y; rotate_left; clear_value y; intro hy)
    | (extract_lets +onlyGivenNames x; revert x; intro _)
    | with_reducible apply Ev.then (State.laneStep_ev ..)
    | with_reducible apply Ev.then (State.store_ev ..)
    | with_reducible apply Ev.then (State.thinWait_ev ..)
    | (intros; show sub _ _ = true; decide)
    | split
    | with_reducible refine (?_ : Ev _ _ (ite _ _ _))
    | intro _

theorem execExtraInputStreamArrival_ev (u : UIx) (stream : Fin 3) (row : Nat) (s : State) {t : State} (h : execExtraInputStreamArrival u stream row s = .next t) : Ev [.svc, .log, .cp, .arrays, .halves, .cores, .tun, .mem, .mirror, .xch] s t := by
  unfold execExtraInputStreamArrival at h
  simp only [Host.Outcome.next.injEq] at h
  subst h
  repeat' first
    | with_reducible apply Ev.refl
    | with_reducible assumption
    | (extract_lets +onlyGivenNames y; with_reducible refine Ev.keep y ?_ ?_; rotate_left; subst y; rotate_left; clear_value y; intro hy)
    | (extract_lets +onlyGivenNames x; revert x; intro _)
    | with_reducible apply Ev.then (State.failRead_ev ..)
    | with_reducible apply Ev.then (State.loseDrain_ev ..)
    | with_reducible apply Ev.then (State.onDrains_ev ..)
    | (intros; show sub _ _ = true; decide)
    | split
    | with_reducible refine (?_ : Ev _ _ (ite _ _ _))
    | intro _

theorem State.turnBand_ev (s : State) (u p : Nat) (d : Drain) : Ev [.arrays, .halves, .cores] s (State.turnBand s u p d) := by
  unfold State.turnBand
  repeat' first
    | with_reducible apply Ev.refl
    | with_reducible assumption
    | (extract_lets +onlyGivenNames y; with_reducible refine Ev.keep y ?_ ?_; rotate_left; subst y; rotate_left; clear_value y; intro hy)
    | (extract_lets +onlyGivenNames x; revert x; intro _)
    | with_reducible apply Ev.then (State.onDrains_ev ..)
    | (intros; show sub _ _ = true; decide)
    | split
    | with_reducible refine (?_ : Ev _ _ (ite _ _ _))
    | intro _

theorem State.giveRow_ev (s : State) (u : Nat) (cmd : Cmd) (c : Comp) (d : Drain) : Ev [.svc, .log, .cp, .arrays, .halves, .cores, .tun, .mem, .mirror, .xch] s (State.giveRow s u cmd c d) := by
  unfold State.giveRow
  repeat' first
    | with_reducible apply Ev.refl
    | with_reducible assumption
    | (extract_lets +onlyGivenNames y; with_reducible refine Ev.keep y ?_ ?_; rotate_left; subst y; rotate_left; clear_value y; intro hy)
    | (extract_lets +onlyGivenNames x; revert x; intro _)
    | (with_reducible apply Ev.foldl; intro _ _ _)
    | with_reducible apply Ev.then (State.cutCmd_ev ..)
    | with_reducible apply Ev.then (State.failRead_ev ..)
    | with_reducible apply Ev.then (State.loseDrain_ev ..)
    | with_reducible apply Ev.then (State.onComp_ev ..)
    | with_reducible apply Ev.then (State.onDrains_ev ..)
    | with_reducible apply Ev.then (State.release_ev ..)
    | with_reducible apply Ev.then (State.store_ev ..)
    | with_reducible apply Ev.then (State.syncArea_ev ..)
    | with_reducible apply Ev.then (State.turnBand_ev ..)
    | with_reducible apply Ev.then (State.wipe_ev ..)
    | (intros; show sub _ _ = true; decide)
    | split
    | with_reducible refine (?_ : Ev _ _ (ite _ _ _))
    | intro _

theorem execDrainRowGrant_ev (c : KIx) (upset : Option DrainUpset) (s : State) {t : State} (h : execDrainRowGrant c upset s = .next t) : Ev [.blk, .svc, .log, .cp, .arrays, .halves, .cores, .tun, .mem, .mirror, .xch] s t := by
  unfold execDrainRowGrant at h
  simp only [Host.Outcome.next.injEq] at h
  subst h
  repeat' first
    | with_reducible apply Ev.refl
    | with_reducible assumption
    | (extract_lets +onlyGivenNames y; with_reducible refine Ev.keep y ?_ ?_; rotate_left; subst y; rotate_left; clear_value y; intro hy)
    | (extract_lets +onlyGivenNames x; revert x; intro _)
    | with_reducible apply Ev.then (State.accEvent_ev ..)
    | with_reducible apply Ev.then (State.elect_ev ..)
    | with_reducible apply Ev.then (State.finishSaves_ev ..)
    | with_reducible apply Ev.then (State.giveRow_ev ..)
    | with_reducible apply Ev.then (State.logRec_ev ..)
    | with_reducible apply Ev.then (State.retireCore_ev ..)
    | with_reducible apply Ev.then (State.slotEvent_ev ..)
    | (intros; show sub _ _ = true; decide)
    | split
    | with_reducible refine (?_ : Ev _ _ (ite _ _ _))
    | intro _

theorem execDraw_ev (u : UIx) (s : State) {t : State} (h : execDraw u s = .next t) : Ev [.cp, .arrays, .halves, .cores, .tun, .mem] s t := by
  unfold execDraw at h
  simp only [Host.Outcome.next.injEq] at h
  subst h
  repeat' first
    | with_reducible apply Ev.refl
    | with_reducible assumption
    | (extract_lets +onlyGivenNames y; with_reducible refine Ev.keep y ?_ ?_; rotate_left; subst y; rotate_left; clear_value y; intro hy)
    | (extract_lets +onlyGivenNames x; revert x; intro _)
    | with_reducible apply Ev.then (State.claimHeld_ev ..)
    | with_reducible apply Ev.then (State.drawOn_ev ..)
    | with_reducible apply Ev.then (State.resumePaused_ev ..)
    | (intros; show sub _ _ = true; decide)
    | split
    | with_reducible refine (?_ : Ev _ _ (ite _ _ _))
    | intro _

theorem execMailboxTake_ev (u : UIx) (s : State) {t : State} (h : execMailboxTake u s = .next t) : Ev [.cp, .arrays, .halves, .cores, .tun, .mem] s t := by
  unfold execMailboxTake at h
  simp only [Host.Outcome.next.injEq] at h
  subst h
  repeat' first
    | with_reducible apply Ev.refl
    | with_reducible assumption
    | (extract_lets +onlyGivenNames y; with_reducible refine Ev.keep y ?_ ?_; rotate_left; subst y; rotate_left; clear_value y; intro hy)
    | (extract_lets +onlyGivenNames x; revert x; intro _)
    | with_reducible apply Ev.then (State.beginClaim_ev ..)
    | with_reducible apply Ev.then (State.onCp_ev ..)
    | with_reducible apply Ev.then (State.resumePaused_ev ..)
    | (intros; show sub _ _ = true; decide)
    | split
    | with_reducible refine (?_ : Ev _ _ (ite _ _ _))
    | intro _

theorem execReplyWrite_ev (q : QIx) (pos : Nat) (s : State) {t : State} (h : execReplyWrite q pos s = .next t) : Ev [.svc, .log, .ctxs, .qs, .cp, .arrays, .halves, .cores, .mem, .mirror] s t := by
  unfold execReplyWrite at h
  simp only [Host.Outcome.next.injEq] at h
  subst h
  repeat' first
    | with_reducible apply Ev.refl
    | with_reducible assumption
    | (extract_lets +onlyGivenNames y; with_reducible refine Ev.keep y ?_ ?_; rotate_left; subst y; rotate_left; clear_value y; intro hy)
    | (extract_lets +onlyGivenNames x; revert x; intro _)
    | with_reducible apply Ev.then (State.finishSave_ev ..)
    | with_reducible apply Ev.then (State.reply_ev ..)
    | (intros; show sub _ _ = true; decide)
    | split
    | with_reducible refine (?_ : Ev _ _ (ite _ _ _))
    | intro _

theorem execWatchdogStall_ev (c : KIx) (unit : Fin 7) (s : State) {t : State} (h : execWatchdogStall c unit s = .next t) : Ev [.blk, .svc, .log, .cp, .arrays, .halves, .cores, .tun, .mem, .mirror, .xch] s t := by
  unfold execWatchdogStall at h
  simp only [Host.Outcome.next.injEq] at h
  subst h
  repeat' first
    | with_reducible apply Ev.refl
    | with_reducible assumption
    | (extract_lets +onlyGivenNames y; with_reducible refine Ev.keep y ?_ ?_; rotate_left; subst y; rotate_left; clear_value y; intro hy)
    | (extract_lets +onlyGivenNames x; revert x; intro _)
    | with_reducible apply Ev.then (State.logRec_ev ..)
    | with_reducible apply Ev.then (State.retireArray_ev ..)
    | with_reducible apply Ev.then (State.retireCore_ev ..)
    | (intros; show sub _ _ = true; decide)
    | split
    | with_reducible refine (?_ : Ev _ _ (ite _ _ _))
    | intro _

end Sys2Proof.Machine
end

