-- ==== Sys2Proof/Laws/EvolveCmd.lean ====
section
/-! SUPPORT. How engine commands, frames, stacks, keeper, modules and contexts let the state evolve. -/
namespace Sys2Proof.Machine

set_option linter.all false

theorem State.onEng_ev (s : State) (k : Key) (f : Eng → Eng) : Ev [.cp] s (State.onEng s k f) := by
  unfold State.onEng
  repeat' first
    | with_reducible apply Ev.refl
    | with_reducible assumption
    | (extract_lets +onlyGivenNames y; with_reducible refine Ev.keep y ?_ ?_; rotate_left; subst y; rotate_left; clear_value y; intro hy)
    | (extract_lets +onlyGivenNames x; revert x; intro _)
    | with_reducible apply Ev.then (State.onCmd_ev ..)
    | (intros; show sub _ _ = true; decide)
    | split
    | with_reducible refine (?_ : Ev _ _ (ite _ _ _))
    | intro _

theorem State.engSettle_ev (s : State) (k : Key) : Ev [.cp] s (State.engSettle s k) := by
  unfold State.engSettle
  repeat' first
    | with_reducible apply Ev.refl
    | with_reducible assumption
    | (extract_lets +onlyGivenNames y; with_reducible refine Ev.keep y ?_ ?_; rotate_left; subst y; rotate_left; clear_value y; intro hy)
    | (extract_lets +onlyGivenNames x; revert x; intro _)
    | with_reducible apply Ev.then (State.onCmd_ev ..)
    | (intros; show sub _ _ = true; decide)
    | split
    | with_reducible refine (?_ : Ev _ _ (ite _ _ _))
    | intro _

theorem State.engHalt_ev (s : State) (k : Key) (cond : Cond) : Ev [.cp] s (State.engHalt s k cond) := by
  unfold State.engHalt
  repeat' first
    | with_reducible apply Ev.refl
    | with_reducible assumption
    | (extract_lets +onlyGivenNames y; with_reducible refine Ev.keep y ?_ ?_; rotate_left; subst y; rotate_left; clear_value y; intro hy)
    | (extract_lets +onlyGivenNames x; revert x; intro _)
    | with_reducible apply Ev.then (State.engSettle_ev ..)
    | with_reducible apply Ev.then (State.onCmd_ev ..)
    | with_reducible apply Ev.then (State.onEng_ev ..)
    | (intros; show sub _ _ = true; decide)
    | split
    | with_reducible refine (?_ : Ev _ _ (ite _ _ _))
    | intro _

theorem State.engReadFails_ev (s : State) (k : Key) (cond : Cond) : Ev [.svc, .log, .cp, .mem, .mirror] s (State.engReadFails s k cond) := by
  unfold State.engReadFails
  repeat' first
    | with_reducible apply Ev.refl
    | with_reducible assumption
    | (extract_lets +onlyGivenNames y; with_reducible refine Ev.keep y ?_ ?_; rotate_left; subst y; rotate_left; clear_value y; intro hy)
    | (extract_lets +onlyGivenNames x; revert x; intro _)
    | with_reducible apply Ev.then (State.engHalt_ev ..)
    | with_reducible apply Ev.then (State.logLost_ev ..)
    | (intros; show sub _ _ = true; decide)
    | split
    | with_reducible refine (?_ : Ev _ _ (ite _ _ _))
    | intro _

theorem State.granuleDone_ev (s : State) (k : Key) (g : Nat) : Ev [.cp] s (State.granuleDone s k g) := by
  unfold State.granuleDone
  repeat' first
    | with_reducible apply Ev.refl
    | with_reducible assumption
    | (extract_lets +onlyGivenNames y; with_reducible refine Ev.keep y ?_ ?_; rotate_left; subst y; rotate_left; clear_value y; intro hy)
    | (extract_lets +onlyGivenNames x; revert x; intro _)
    | with_reducible apply Ev.then (State.engSettle_ev ..)
    | with_reducible apply Ev.then (State.onEng_ev ..)
    | (intros; show sub _ _ = true; decide)
    | split
    | with_reducible refine (?_ : Ev _ _ (ite _ _ _))
    | intro _

theorem State.startEng_ev (s : State) (q pos p : Nat) (e : Eng) : Ev [.qs, .cp] s (State.startEng s q pos p e) := by
  unfold State.startEng
  repeat' first
    | with_reducible apply Ev.refl
    | with_reducible assumption
    | (extract_lets +onlyGivenNames y; with_reducible refine Ev.keep y ?_ ?_; rotate_left; subst y; rotate_left; clear_value y; intro hy)
    | (extract_lets +onlyGivenNames x; revert x; intro _)
    | with_reducible apply Ev.then (State.launchCmd_ev ..)
    | (intros; show sub _ _ = true; decide)
    | split
    | with_reducible refine (?_ : Ev _ _ (ite _ _ _))
    | intro _

theorem State.writeScan_ev (s : State) (k : Key) (p : Nat) (c : Comp) : Ev [.cp, .mem] s (State.writeScan s k p c) := by
  unfold State.writeScan
  repeat' first
    | with_reducible apply Ev.refl
    | with_reducible assumption
    | (extract_lets +onlyGivenNames y; with_reducible refine Ev.keep y ?_ ?_; rotate_left; subst y; rotate_left; clear_value y; intro hy)
    | (extract_lets +onlyGivenNames x; revert x; intro _)
    | with_reducible apply Ev.then (State.engHalt_ev ..)
    | with_reducible apply Ev.then (State.store_ev ..)
    | (intros; show sub _ _ = true; decide)
    | split
    | with_reducible refine (?_ : Ev _ _ (ite _ _ _))
    | intro _

theorem execScaleScan_ev (q : QIx) (s : State) {t : State} (h : execScaleScan q s = .next t) : Ev [.svc, .log, .ctxs, .qs, .cp, .mem, .mirror] s t := by
  unfold execScaleScan at h
  simp only [Host.Outcome.next.injEq] at h
  subst h
  repeat' first
    | with_reducible apply Ev.refl
    | with_reducible assumption
    | (extract_lets +onlyGivenNames y; with_reducible refine Ev.keep y ?_ ?_; rotate_left; subst y; rotate_left; clear_value y; intro hy)
    | (extract_lets +onlyGivenNames x; revert x; intro _)
    | with_reducible apply Ev.then (State.engSettle_ev ..)
    | with_reducible apply Ev.then (State.replyNow_ev ..)
    | with_reducible apply Ev.then (State.startEng_ev ..)
    | with_reducible apply Ev.then (State.writeScan_ev ..)
    | with_reducible refine withPacket_ev _ _ _ _ (fun _ _ _ _ => ?_) (by decide)
    | (intros; show sub _ _ = true; decide)
    | split
    | with_reducible refine (?_ : Ev _ _ (ite _ _ _))
    | intro _

theorem State.scanGranule_ev (s : State) (k : Key) (p : Nat) (e : Eng) (c : Comp) (g : Nat) : Ev [.svc, .log, .cp, .mem, .mirror] s (State.scanGranule s k p e c g) := by
  unfold State.scanGranule
  repeat' first
    | with_reducible apply Ev.refl
    | with_reducible assumption
    | (extract_lets +onlyGivenNames y; with_reducible refine Ev.keep y ?_ ?_; rotate_left; subst y; rotate_left; clear_value y; intro hy)
    | (extract_lets +onlyGivenNames x; revert x; intro _)
    | with_reducible apply Ev.then (State.engReadFails_ev ..)
    | with_reducible apply Ev.then (State.engSettle_ev ..)
    | with_reducible apply Ev.then (State.granuleDone_ev ..)
    | with_reducible apply Ev.then (State.onEng_ev ..)
    | with_reducible apply Ev.then (State.writeScan_ev ..)
    | (intros; show sub _ _ = true; decide)
    | split
    | with_reducible refine (?_ : Ev _ _ (ite _ _ _))
    | intro _

theorem State.copyStart_ev (s : State) (q pos p pktA : Nat) (checks : List (Bool × Nat)) (ranges : List Nat) (far : Bool) : Ev [.svc, .log, .ctxs, .qs, .cp, .mem, .mirror] s (State.copyStart s q pos p pktA checks ranges far) := by
  unfold State.copyStart
  repeat' first
    | with_reducible apply Ev.refl
    | with_reducible assumption
    | (extract_lets +onlyGivenNames y; with_reducible refine Ev.keep y ?_ ?_; rotate_left; subst y; rotate_left; clear_value y; intro hy)
    | (extract_lets +onlyGivenNames x; revert x; intro _)
    | with_reducible apply Ev.then (State.replyNow_ev ..)
    | with_reducible apply Ev.then (State.startEng_ev ..)
    | (intros; show sub _ _ = true; decide)
    | split
    | with_reducible refine (?_ : Ev _ _ (ite _ _ _))
    | intro _

theorem execCopy_ev (q : QIx) (s : State) {t : State} (h : execCopy q s = .next t) : Ev [.svc, .log, .ctxs, .qs, .cp, .mem, .mirror] s t := by
  unfold execCopy at h
  simp only [Host.Outcome.next.injEq] at h
  subst h
  repeat' first
    | with_reducible apply Ev.refl
    | with_reducible assumption
    | (extract_lets +onlyGivenNames y; with_reducible refine Ev.keep y ?_ ?_; rotate_left; subst y; rotate_left; clear_value y; intro hy)
    | (extract_lets +onlyGivenNames x; revert x; intro _)
    | with_reducible apply Ev.then (State.copyStart_ev ..)
    | with_reducible refine withPacket_ev _ _ _ _ (fun _ _ _ _ => ?_) (by decide)
    | (intros; show sub _ _ = true; decide)
    | split
    | with_reducible refine (?_ : Ev _ _ (ite _ _ _))
    | intro _

theorem execFill_ev (q : QIx) (s : State) {t : State} (h : execFill q s = .next t) : Ev [.svc, .log, .ctxs, .qs, .cp, .mem, .mirror] s t := by
  unfold execFill at h
  simp only [Host.Outcome.next.injEq] at h
  subst h
  repeat' first
    | with_reducible apply Ev.refl
    | with_reducible assumption
    | (extract_lets +onlyGivenNames y; with_reducible refine Ev.keep y ?_ ?_; rotate_left; subst y; rotate_left; clear_value y; intro hy)
    | (extract_lets +onlyGivenNames x; revert x; intro _)
    | with_reducible apply Ev.then (State.copyStart_ev ..)
    | with_reducible refine withPacket_ev _ _ _ _ (fun _ _ _ _ => ?_) (by decide)
    | (intros; show sub _ _ = true; decide)
    | split
    | with_reducible refine (?_ : Ev _ _ (ite _ _ _))
    | intro _

theorem State.hostGranule_ev (s : State) (k : Key) (g a : Nat) (write : Bool) (data : List Byte) : Ev [.cp, .port] s (State.hostGranule s k g a write data) := by
  unfold State.hostGranule
  repeat' first
    | with_reducible apply Ev.refl
    | with_reducible assumption
    | (extract_lets +onlyGivenNames y; with_reducible refine Ev.keep y ?_ ?_; rotate_left; subst y; rotate_left; clear_value y; intro hy)
    | (extract_lets +onlyGivenNames x; revert x; intro _)
    | with_reducible apply Ev.then (State.onEng_ev ..)
    | with_reducible apply Ev.then (State.onPort_ev ..)
    | (intros; show sub _ _ = true; decide)
    | split
    | with_reducible refine (?_ : Ev _ _ (ite _ _ _))
    | intro _

theorem State.putGranule_ev (s : State) (k : Key) (g b : Nat) (data : List Byte) : Ev [.cp, .mem, .port] s (State.putGranule s k g b data) := by
  unfold State.putGranule
  repeat' first
    | with_reducible apply Ev.refl
    | with_reducible assumption
    | (extract_lets +onlyGivenNames y; with_reducible refine Ev.keep y ?_ ?_; rotate_left; subst y; rotate_left; clear_value y; intro hy)
    | (extract_lets +onlyGivenNames x; revert x; intro _)
    | with_reducible apply Ev.then (State.engHalt_ev ..)
    | with_reducible apply Ev.then (State.granuleDone_ev ..)
    | with_reducible apply Ev.then (State.hostGranule_ev ..)
    | with_reducible apply Ev.then (State.store_ev ..)
    | (intros; show sub _ _ = true; decide)
    | split
    | with_reducible refine (?_ : Ev _ _ (ite _ _ _))
    | intro _

theorem State.copyGranule_ev (s : State) (k : Key) (p g : Nat) : Ev [.svc, .log, .cp, .mem, .mirror, .port] s (State.copyGranule s k p g) := by
  unfold State.copyGranule
  repeat' first
    | with_reducible apply Ev.refl
    | with_reducible assumption
    | (extract_lets +onlyGivenNames y; with_reducible refine Ev.keep y ?_ ?_; rotate_left; subst y; rotate_left; clear_value y; intro hy)
    | (extract_lets +onlyGivenNames x; revert x; intro _)
    | with_reducible apply Ev.then (State.engReadFails_ev ..)
    | with_reducible apply Ev.then (State.hostGranule_ev ..)
    | with_reducible apply Ev.then (State.putGranule_ev ..)
    | (intros; show sub _ _ = true; decide)
    | split
    | with_reducible refine (?_ : Ev _ _ (ite _ _ _))
    | intro _

theorem execGranuleComplete_ev (q : QIx) (pos granule : Nat) (s : State) {t : State} (h : execGranuleComplete q pos granule s = .next t) : Ev [.svc, .log, .cp, .mem, .mirror, .port] s t := by
  unfold execGranuleComplete at h
  simp only [Host.Outcome.next.injEq] at h
  subst h
  repeat' first
    | with_reducible apply Ev.refl
    | with_reducible assumption
    | (extract_lets +onlyGivenNames y; with_reducible refine Ev.keep y ?_ ?_; rotate_left; subst y; rotate_left; clear_value y; intro hy)
    | (extract_lets +onlyGivenNames x; revert x; intro _)
    | with_reducible apply Ev.then (State.copyGranule_ev ..)
    | with_reducible apply Ev.then (State.putGranule_ev ..)
    | with_reducible apply Ev.then (State.scanGranule_ev ..)
    | (intros; show sub _ _ = true; decide)
    | split
    | with_reducible refine (?_ : Ev _ _ (ite _ _ _))
    | intro _

theorem State.engAnswer_ev (s : State) (k : Key) (r : OutReq) (ok : Bool) (data : List Byte) : Ev [.cp, .mem, .port] s (State.engAnswer s k r ok data) := by
  unfold State.engAnswer
  repeat' first
    | with_reducible apply Ev.refl
    | with_reducible assumption
    | (extract_lets +onlyGivenNames y; with_reducible refine Ev.keep y ?_ ?_; rotate_left; subst y; rotate_left; clear_value y; intro hy)
    | (extract_lets +onlyGivenNames x; revert x; intro _)
    | with_reducible apply Ev.then (State.engHalt_ev ..)
    | with_reducible apply Ev.then (State.granuleDone_ev ..)
    | with_reducible apply Ev.then (State.onEng_ev ..)
    | with_reducible apply Ev.then (State.putGranule_ev ..)
    | (intros; show sub _ _ = true; decide)
    | split
    | with_reducible refine (?_ : Ev _ _ (ite _ _ _))
    | intro _

theorem State.placeWhole_ev (s : State) (k : Key) (i : Nat) : Ev [.cp, .mem, .far] s (State.placeWhole s k i) := by
  unfold State.placeWhole
  repeat' first
    | with_reducible apply Ev.refl
    | with_reducible assumption
    | (extract_lets +onlyGivenNames y; with_reducible refine Ev.keep y ?_ ?_; rotate_left; subst y; rotate_left; clear_value y; intro hy)
    | (extract_lets +onlyGivenNames x; revert x; intro _)
    | with_reducible apply Ev.then (State.engHalt_ev ..)
    | with_reducible apply Ev.then (State.farCopy_ev ..)
    | with_reducible apply Ev.then (State.farErase_ev ..)
    | with_reducible apply Ev.then (State.onEng_ev ..)
    | with_reducible apply Ev.then (State.onFar_ev ..)
    | with_reducible apply Ev.then (State.placeExtent_ev ..)
    | (intros; show sub _ _ = true; decide)
    | split
    | with_reducible refine (?_ : Ev _ _ (ite _ _ _))
    | dsimp +zetaDelta only
    | intro _

theorem State.placePart_ev (s : State) (k : Key) (i : Nat) : Ev [.cp, .mem, .far] s (State.placePart s k i) := by
  unfold State.placePart
  repeat' first
    | with_reducible apply Ev.refl
    | with_reducible assumption
    | (extract_lets +onlyGivenNames y; with_reducible refine Ev.keep y ?_ ?_; rotate_left; subst y; rotate_left; clear_value y; intro hy)
    | (extract_lets +onlyGivenNames x; revert x; intro _)
    | with_reducible apply Ev.then (State.engHalt_ev ..)
    | with_reducible apply Ev.then (State.farErase_ev ..)
    | with_reducible apply Ev.then (State.onEng_ev ..)
    | with_reducible apply Ev.then (State.placeExtent_ev ..)
    | (intros; show sub _ _ = true; decide)
    | split
    | with_reducible refine (?_ : Ev _ _ (ite _ _ _))
    | intro _

theorem State.openExtent_ev (s : State) (k : Key) : Ev [.cp, .mem, .far] s (State.openExtent s k) := by
  unfold State.openExtent
  repeat' first
    | with_reducible apply Ev.refl
    | with_reducible assumption
    | (extract_lets +onlyGivenNames y; with_reducible refine Ev.keep y ?_ ?_; rotate_left; subst y; rotate_left; clear_value y; intro hy)
    | (extract_lets +onlyGivenNames x; revert x; intro _)
    | with_reducible apply Ev.then (State.engSettle_ev ..)
    | with_reducible apply Ev.then (State.placePart_ev ..)
    | with_reducible apply Ev.then (State.placeWhole_ev ..)
    | (intros; show sub _ _ = true; decide)
    | split
    | with_reducible refine (?_ : Ev _ _ (ite _ _ _))
    | intro _

theorem State.reloadGranule_ev (s : State) (k : Key) (p g : Nat) : Ev [.cp, .mem] s (State.reloadGranule s k p g) := by
  unfold State.reloadGranule
  repeat' first
    | with_reducible apply Ev.refl
    | with_reducible assumption
    | (extract_lets +onlyGivenNames y; with_reducible refine Ev.keep y ?_ ?_; rotate_left; subst y; rotate_left; clear_value y; intro hy)
    | (extract_lets +onlyGivenNames x; revert x; intro _)
    | with_reducible apply Ev.then (State.engHalt_ev ..)
    | with_reducible apply Ev.then (State.granuleDone_ev ..)
    | with_reducible apply Ev.then (State.store_ev ..)
    | (intros; show sub _ _ = true; decide)
    | split
    | with_reducible refine (?_ : Ev _ _ (ite _ _ _))
    | intro _

theorem State.reloadZero_ev (s : State) (k : Key) (p g : Nat) (lost : Option Cond) : Ev [.cp, .mem] s (State.reloadZero s k p g lost).1 := by
  unfold State.reloadZero
  repeat' first
    | with_reducible apply Ev.refl
    | with_reducible assumption
    | (extract_lets +onlyGivenNames y; with_reducible refine Ev.keep y ?_ ?_; rotate_left; subst y; rotate_left; clear_value y; intro hy)
    | (extract_lets +onlyGivenNames x; revert x; intro _)
    | with_reducible apply Ev.then (State.engHalt_ev ..)
    | with_reducible apply Ev.then (State.reloadGranule_ev ..)
    | (intros; show sub _ _ = true; decide)
    | split
    | with_reducible refine (?_ : Ev _ _ (ite _ _ _))
    | intro _

theorem State.reloadZero_of {s : State} {k : Key} {p g : Nat} {lost : Option Cond} {t : State} {x} (h : State.reloadZero s k p g lost = (t, x)) : Ev [.cp, .mem] s t := by
  have g := State.reloadZero_ev s k p g lost
  rw [h] at g
  exact g

theorem State.reloadNext_ev (s : State) (k : Key) : Ev [.cp, .mem] s (State.reloadNext s k).1 := by
  unfold State.reloadNext
  repeat' first
    | with_reducible apply Ev.refl
    | with_reducible assumption
    | (extract_lets +onlyGivenNames y; with_reducible refine Ev.keep y ?_ ?_; rotate_left; subst y; rotate_left; clear_value y; intro hy)
    | (extract_lets +onlyGivenNames x; revert x; intro _)
    | with_reducible apply Ev.then (State.engSettle_ev ..)
    | (with_reducible apply Ev.then (State.reloadZero_of (by assumption)))
    | with_reducible apply Ev.then (State.reloadZero_ev ..)
    | (intros; show sub _ _ = true; decide)
    | split
    | with_reducible refine (?_ : Ev _ _ (ite _ _ _))
    | intro _

theorem State.reloadNext_of {s : State} {k : Key} {t : State} {x} (h : State.reloadNext s k = (t, x)) : Ev [.cp, .mem] s t := by
  have g := State.reloadNext_ev s k
  rw [h] at g
  exact g

theorem State.reloadOn_ev : ∀ (n : Nat) (k : Key) (s : State), Ev [.cp, .mem] s (State.reloadOn n k s)
  | 0, _, s => Ev.refl s
  | n + 1, k, s => by
    unfold State.reloadOn
    repeat' first
      | with_reducible apply Ev.then (State.reloadOn_ev n ..)
      | with_reducible apply Ev.refl
      | with_reducible assumption
      | (extract_lets +onlyGivenNames y; with_reducible refine Ev.keep y ?_ ?_; rotate_left; subst y; rotate_left; clear_value y; intro hy)
      | (extract_lets +onlyGivenNames x; revert x; intro _)
      | (with_reducible apply Ev.then (State.reloadNext_of (by assumption)))
      | with_reducible apply Ev.then (State.reloadNext_ev ..)
      | with_reducible apply State.reloadNext_of (by assumption)
      | (intros; show sub _ _ = true; decide)
      | split
      | with_reducible refine (?_ : Ev _ _ (ite _ _ _))
      | intro _

theorem execSpill_ev (q : QIx) (s : State) {t : State} (h : execSpill q s = .next t) : Ev [.svc, .log, .ctxs, .qs, .cp, .mem, .far, .mirror] s t := by
  unfold execSpill at h
  simp only [Host.Outcome.next.injEq] at h
  subst h
  repeat' first
    | with_reducible apply Ev.refl
    | with_reducible assumption
    | (extract_lets +onlyGivenNames y; with_reducible refine Ev.keep y ?_ ?_; rotate_left; subst y; rotate_left; clear_value y; intro hy)
    | (extract_lets +onlyGivenNames x; revert x; intro _)
    | with_reducible apply Ev.then (State.copyStart_ev ..)
    | with_reducible apply Ev.then (State.openExtent_ev ..)
    | with_reducible refine withPacket_ev _ _ _ _ (fun _ _ _ _ => ?_) (by decide)
    | (intros; show sub _ _ = true; decide)
    | split
    | with_reducible refine (?_ : Ev _ _ (ite _ _ _))
    | intro _

theorem execReload_ev (q : QIx) (s : State) {t : State} (h : execReload q s = .next t) : Ev [.svc, .log, .ctxs, .qs, .cp, .mem, .mirror] s t := by
  unfold execReload at h
  simp only [Host.Outcome.next.injEq] at h
  subst h
  repeat' first
    | with_reducible apply Ev.refl
    | with_reducible assumption
    | (extract_lets +onlyGivenNames y; with_reducible refine Ev.keep y ?_ ?_; rotate_left; subst y; rotate_left; clear_value y; intro hy)
    | (extract_lets +onlyGivenNames x; revert x; intro _)
    | with_reducible apply Ev.then (State.copyStart_ev ..)
    | with_reducible apply Ev.then (State.reloadOn_ev ..)
    | with_reducible refine withPacket_ev _ _ _ _ (fun _ _ _ _ => ?_) (by decide)
    | (intros; show sub _ _ = true; decide)
    | split
    | with_reducible refine (?_ : Ev _ _ (ite _ _ _))
    | intro _

theorem State.spillCmp_ev (s : State) (k : Key) (c : Cmd) (e : Eng) (g : Nat) : Ev [.svc, .log, .cp, .mem, .far, .mirror] s (State.spillCmp s k c e g) := by
  unfold State.spillCmp
  repeat' first
    | with_reducible apply Ev.refl
    | with_reducible assumption
    | (extract_lets +onlyGivenNames y; with_reducible refine Ev.keep y ?_ ?_; rotate_left; subst y; rotate_left; clear_value y; intro hy)
    | (extract_lets +onlyGivenNames x; revert x; intro _)
    | with_reducible apply Ev.then (State.addWear_ev ..)
    | with_reducible apply Ev.then (State.onEng_ev ..)
    | (intros; show sub _ _ = true; decide)
    | split
    | with_reducible refine (?_ : Ev _ _ (ite _ _ _))
    | intro _

theorem State.reloadData_ev (s : State) (k : Key) (c : Cmd) (e : Eng) (g n : Nat) (poison : Bool) :
    Ev [.svc, .log, .cp, .mem, .mirror] s (s.reloadData k c e g n poison) := by
  unfold State.reloadData
  split
  · exact Ev.refl _
  · split
    · exact (State.engHalt_ev ..).then ((State.onEng_ev s k _).mono (by decide)) (by decide)
    · split
      · exact (State.engReadFails_ev ..).then ((State.onEng_ev s k _).mono (by decide)) (by decide)
      · split
        · exact (State.onEng_ev s k _).mono (by decide)
        · extract_lets u
          have hu : Ev [.svc, .log, .cp, .mem, .mirror] s u := (State.reloadGranule_ev ..).then (l := [.svc, .log, .cp, .mem, .mirror]) ((State.onEng_ev s k _).mono (by decide)) (by decide)
          split
          · exact (State.reloadOn_ev ..).then hu (by decide)
          · exact hu

theorem execCxlResponse_ev (q : QIx) (pos granule : Nat) (r : CxlResp) (s : State) {t : State} (h : execCxlResponse q pos granule r s = .next t) : Ev [.svc, .log, .cp, .arrays, .halves, .cores, .tun, .mem, .far, .mirror, .xch] s t := by
  unfold execCxlResponse at h
  simp only [Host.Outcome.next.injEq] at h
  subst h
  repeat' first
    | with_reducible apply Ev.refl
    | with_reducible assumption
    | (extract_lets +onlyGivenNames y; with_reducible refine Ev.keep y ?_ ?_; rotate_left; subst y; rotate_left; clear_value y; intro hy)
    | (extract_lets +onlyGivenNames x; revert x; intro _)
    | with_reducible apply Ev.then (State.cutCmd_ev ..)
    | with_reducible apply Ev.then (State.engReadFails_ev ..)
    | with_reducible apply Ev.then (State.logLost_ev ..)
    | with_reducible apply Ev.then (State.reloadData_ev ..)
    | with_reducible apply Ev.then (State.spillCmp_ev ..)
    | (intros; show sub _ _ = true; decide)
    | split
    | with_reducible refine (?_ : Ev _ _ (ite _ _ _))
    | intro _

theorem State.spillDone_ev (s : State) (k : Key) (c : Cmd) (e : Eng) (x : SpillExt) (g : Nat) : Ev [.svc, .log, .cp, .mem, .far, .mirror] s (State.spillDone s k c e x g) := by
  unfold State.spillDone
  repeat' first
    | with_reducible apply Ev.refl
    | with_reducible assumption
    | (extract_lets +onlyGivenNames y; with_reducible refine Ev.keep y ?_ ?_; rotate_left; subst y; rotate_left; clear_value y; intro hy)
    | (extract_lets +onlyGivenNames x; revert x; intro _)
    | with_reducible apply Ev.then (State.engHalt_ev ..)
    | with_reducible apply Ev.then (State.engReadFails_ev ..)
    | with_reducible apply Ev.then (State.farWrite_ev ..)
    | with_reducible apply Ev.then (State.freePlace_ev ..)
    | with_reducible apply Ev.then (State.granuleDone_ev ..)
    | with_reducible apply Ev.then (State.onEng_ev ..)
    | with_reducible apply Ev.then (State.openExtent_ev ..)
    | (intros; show sub _ _ = true; decide)
    | split
    | with_reducible refine (?_ : Ev _ _ (ite _ _ _))
    | intro _

theorem execFarWriteComplete_ev (q : QIx) (pos granule : Nat) (s : State) {t : State} (h : execFarWriteComplete q pos granule s = .next t) : Ev [.svc, .log, .cp, .mem, .far, .mirror] s t := by
  unfold execFarWriteComplete at h
  simp only [Host.Outcome.next.injEq] at h
  subst h
  repeat' first
    | with_reducible apply Ev.refl
    | with_reducible assumption
    | (extract_lets +onlyGivenNames y; with_reducible refine Ev.keep y ?_ ?_; rotate_left; subst y; rotate_left; clear_value y; intro hy)
    | (extract_lets +onlyGivenNames x; revert x; intro _)
    | with_reducible apply Ev.then (State.spillDone_ev ..)
    | (intros; show sub _ _ = true; decide)
    | split
    | with_reducible refine (?_ : Ev _ _ (ite _ _ _))
    | intro _

theorem State.startFrm_ev (s : State) (q pos p : Nat) (f : Frm) : Ev [.qs, .cp] s (State.startFrm s q pos p f) := by
  unfold State.startFrm
  repeat' first
    | with_reducible apply Ev.refl
    | with_reducible assumption
    | (extract_lets +onlyGivenNames y; with_reducible refine Ev.keep y ?_ ?_; rotate_left; subst y; rotate_left; clear_value y; intro hy)
    | (extract_lets +onlyGivenNames x; revert x; intro _)
    | with_reducible apply Ev.then (State.launchCmd_ev ..)
    | (intros; show sub _ _ = true; decide)
    | split
    | with_reducible refine (?_ : Ev _ _ (ite _ _ _))
    | intro _

theorem State.endSend_ev (s : State) (k : Key) (conds : List Cond) : Ev [.cp, .xch] s (State.endSend s k conds) := by
  unfold State.endSend
  repeat' first
    | with_reducible apply Ev.refl
    | with_reducible assumption
    | (extract_lets +onlyGivenNames y; with_reducible refine Ev.keep y ?_ ?_; rotate_left; subst y; rotate_left; clear_value y; intro hy)
    | (extract_lets +onlyGivenNames x; revert x; intro _)
    | with_reducible apply Ev.then (State.onCmd_ev ..)
    | with_reducible apply Ev.then (State.txEnd_ev ..)
    | (intros; show sub _ _ = true; decide)
    | split
    | with_reducible refine (?_ : Ev _ _ (ite _ _ _))
    | intro _

theorem State.sendOne_ev (s : State) (k : Key) : Ev [.svc, .log, .cp, .mem, .mirror, .xch] s (State.sendOne s k).1 := by
  unfold State.sendOne
  repeat' first
    | with_reducible apply Ev.refl
    | with_reducible assumption
    | (extract_lets +onlyGivenNames y; with_reducible refine Ev.keep y ?_ ?_; rotate_left; subst y; rotate_left; clear_value y; intro hy)
    | (extract_lets +onlyGivenNames x; revert x; intro _)
    | with_reducible apply Ev.then (State.endSend_ev ..)
    | with_reducible apply Ev.then (State.logLost_ev ..)
    | with_reducible apply Ev.then (State.onCmd_ev ..)
    | with_reducible apply Ev.then (State.sendFrame_ev ..)
    | (intros; show sub _ _ = true; decide)
    | split
    | with_reducible refine (?_ : Ev _ _ (ite _ _ _))
    | intro _

theorem State.sendOne_of {s : State} {k : Key} {t : State} {x} (h : State.sendOne s k = (t, x)) : Ev [.svc, .log, .cp, .mem, .mirror, .xch] s t := by
  have g := State.sendOne_ev s k
  rw [h] at g
  exact g

theorem State.sendOn_ev : ∀ (n : Nat) (k : Key) (s : State), Ev [.svc, .log, .cp, .mem, .mirror, .xch] s (State.sendOn n k s)
  | 0, _, s => Ev.refl s
  | n + 1, k, s => by
    unfold State.sendOn
    repeat' first
      | with_reducible apply Ev.then (State.sendOn_ev n ..)
      | with_reducible apply Ev.refl
      | with_reducible assumption
      | (extract_lets +onlyGivenNames y; with_reducible refine Ev.keep y ?_ ?_; rotate_left; subst y; rotate_left; clear_value y; intro hy)
      | (extract_lets +onlyGivenNames x; revert x; intro _)
      | (with_reducible apply Ev.then (State.sendOne_of (by assumption)))
      | with_reducible apply Ev.then (State.sendOne_ev ..)
      | with_reducible apply State.sendOne_of (by assumption)
      | (intros; show sub _ _ = true; decide)
      | split
      | with_reducible refine (?_ : Ev _ _ (ite _ _ _))
      | intro _

theorem State.sendAll_ev (s : State) : Ev [.svc, .log, .cp, .mem, .mirror, .xch] s (State.sendAll s) := by
  unfold State.sendAll
  repeat' first
    | with_reducible apply Ev.refl
    | with_reducible assumption
    | (extract_lets +onlyGivenNames y; with_reducible refine Ev.keep y ?_ ?_; rotate_left; subst y; rotate_left; clear_value y; intro hy)
    | (extract_lets +onlyGivenNames x; revert x; intro _)
    | (with_reducible apply Ev.foldl; intro _ _ _)
    | with_reducible apply Ev.then (State.sendOn_ev ..)
    | (intros; show sub _ _ = true; decide)
    | split
    | with_reducible refine (?_ : Ev _ _ (ite _ _ _))
    | intro _

theorem execFrameSend_ev (q : QIx) (s : State) {t : State} (h : execFrameSend q s = .next t) : Ev [.svc, .log, .ctxs, .qs, .cp, .mem, .mirror, .xch] s t := by
  unfold execFrameSend at h
  simp only [Host.Outcome.next.injEq] at h
  subst h
  repeat' first
    | with_reducible apply Ev.refl
    | with_reducible assumption
    | (extract_lets +onlyGivenNames y; with_reducible refine Ev.keep y ?_ ?_; rotate_left; subst y; rotate_left; clear_value y; intro hy)
    | (extract_lets +onlyGivenNames x; revert x; intro _)
    | with_reducible apply Ev.then (State.replyNow_ev ..)
    | with_reducible apply Ev.then (State.sendOn_ev ..)
    | with_reducible apply Ev.then (State.startFrm_ev ..)
    | with_reducible refine withPacket_ev _ _ _ _ (fun _ _ _ _ => ?_) (by decide)
    | (intros; show sub _ _ = true; decide)
    | split
    | with_reducible refine (?_ : Ev _ _ (ite _ _ _))
    | intro _

theorem State.beginRecv_ev (s : State) (k : Key) : Ev [.svc, .log, .cp, .mem, .mirror, .xch] s (State.beginRecv s k) := by
  unfold State.beginRecv
  repeat' first
    | with_reducible apply Ev.refl
    | with_reducible assumption
    | (extract_lets +onlyGivenNames y; with_reducible refine Ev.keep y ?_ ?_; rotate_left; subst y; rotate_left; clear_value y; intro hy)
    | (extract_lets +onlyGivenNames x; revert x; intro _)
    | with_reducible apply Ev.then (State.completeFrm_ev ..)
    | with_reducible apply Ev.then (State.endFrm_ev ..)
    | with_reducible apply Ev.then (State.matchAll_ev ..)
    | (intros; show sub _ _ = true; decide)
    | split
    | with_reducible refine (?_ : Ev _ _ (ite _ _ _))
    | dsimp +zetaDelta only
    | intro _

theorem execFrameRecv_ev (q : QIx) (s : State) {t : State} (h : execFrameRecv q s = .next t) : Ev [.svc, .log, .ctxs, .qs, .cp, .mem, .mirror, .xch] s t := by
  unfold execFrameRecv at h
  simp only [Host.Outcome.next.injEq] at h
  subst h
  repeat' first
    | with_reducible apply Ev.refl
    | with_reducible assumption
    | (extract_lets +onlyGivenNames y; with_reducible refine Ev.keep y ?_ ?_; rotate_left; subst y; rotate_left; clear_value y; intro hy)
    | (extract_lets +onlyGivenNames x; revert x; intro _)
    | with_reducible apply Ev.then (State.beginRecv_ev ..)
    | with_reducible apply Ev.then (State.replyNow_ev ..)
    | with_reducible apply Ev.then (State.startFrm_ev ..)
    | with_reducible refine withPacket_ev _ _ _ _ (fun _ _ _ _ => ?_) (by decide)
    | (intros; show sub _ _ = true; decide)
    | split
    | with_reducible refine (?_ : Ev _ _ (ite _ _ _))
    | intro _

theorem execFrameCombine_ev (q : QIx) (s : State) {t : State} (h : execFrameCombine q s = .next t) : Ev [.svc, .log, .ctxs, .qs, .cp, .mem, .mirror, .xch] s t := by
  unfold execFrameCombine at h
  simp only [Host.Outcome.next.injEq] at h
  subst h
  repeat' first
    | with_reducible apply Ev.refl
    | with_reducible assumption
    | (extract_lets +onlyGivenNames y; with_reducible refine Ev.keep y ?_ ?_; rotate_left; subst y; rotate_left; clear_value y; intro hy)
    | (extract_lets +onlyGivenNames x; revert x; intro _)
    | with_reducible apply Ev.then (State.beginRecv_ev ..)
    | with_reducible apply Ev.then (State.replyNow_ev ..)
    | with_reducible apply Ev.then (State.startFrm_ev ..)
    | with_reducible refine withPacket_ev _ _ _ _ (fun _ _ _ _ => ?_) (by decide)
    | (intros; show sub _ _ = true; decide)
    | split
    | with_reducible refine (?_ : Ev _ _ (ite _ _ _))
    | intro _

theorem execMaxExchange_ev (q : QIx) (s : State) {t : State} (h : execMaxExchange q s = .next t) : Ev [.svc, .log, .ctxs, .qs, .cp, .mem, .mirror, .xch] s t := by
  unfold execMaxExchange at h
  simp only [Host.Outcome.next.injEq] at h
  subst h
  repeat' first
    | with_reducible apply Ev.refl
    | with_reducible assumption
    | (extract_lets +onlyGivenNames y; with_reducible refine Ev.keep y ?_ ?_; rotate_left; subst y; rotate_left; clear_value y; intro hy)
    | (extract_lets +onlyGivenNames x; revert x; intro _)
    | with_reducible apply Ev.then (State.beginRecv_ev ..)
    | with_reducible apply Ev.then (State.replyNow_ev ..)
    | with_reducible apply Ev.then (State.sendFrame_ev ..)
    | with_reducible apply Ev.then (State.startFrm_ev ..)
    | with_reducible refine withPacket_ev _ _ _ _ (fun _ _ _ _ => ?_) (by decide)
    | (intros; show sub _ _ = true; decide)
    | split
    | with_reducible refine (?_ : Ev _ _ (ite _ _ _))
    | intro _

theorem execReceiverTimeout_ev (q : QIx) (pos : Nat) (s : State) {t : State} (h : execReceiverTimeout q pos s = .next t) : Ev [.svc, .log, .cp, .mem, .mirror, .xch] s t := by
  unfold execReceiverTimeout at h
  simp only [Host.Outcome.next.injEq] at h
  subst h
  repeat' first
    | with_reducible apply Ev.refl
    | with_reducible assumption
    | (extract_lets +onlyGivenNames y; with_reducible refine Ev.keep y ?_ ?_; rotate_left; subst y; rotate_left; clear_value y; intro hy)
    | (extract_lets +onlyGivenNames x; revert x; intro _)
    | with_reducible apply Ev.then (State.endFrm_ev ..)
    | (intros; show sub _ _ = true; decide)
    | split
    | with_reducible refine (?_ : Ev _ _ (ite _ _ _))
    | intro _

theorem State.ackHop_ev (s : State) (h : Nat) : Ev [.xch] s (State.ackHop s h) := by
  unfold State.ackHop
  repeat' first
    | with_reducible apply Ev.refl
    | with_reducible assumption
    | (extract_lets +onlyGivenNames y; with_reducible refine Ev.keep y ?_ ?_; rotate_left; subst y; rotate_left; clear_value y; intro hy)
    | (extract_lets +onlyGivenNames x; revert x; intro _)
    | with_reducible apply Ev.then (State.onRx_ev ..)
    | with_reducible apply Ev.then (State.sendAck_ev ..)
    | (intros; show sub _ _ = true; decide)
    | split
    | with_reducible refine (?_ : Ev _ _ (ite _ _ _))
    | intro _

theorem State.ackIfDue_ev (s : State) (h : Nat) : Ev [.xch] s (State.ackIfDue s h) := by
  unfold State.ackIfDue
  repeat' first
    | with_reducible apply Ev.refl
    | with_reducible assumption
    | (extract_lets +onlyGivenNames y; with_reducible refine Ev.keep y ?_ ?_; rotate_left; subst y; rotate_left; clear_value y; intro hy)
    | (extract_lets +onlyGivenNames x; revert x; intro _)
    | with_reducible apply Ev.then (State.ackHop_ev ..)
    | (intros; show sub _ _ = true; decide)
    | split
    | with_reducible refine (?_ : Ev _ _ (ite _ _ _))
    | intro _

theorem State.atHop_ev (s : State) (h n : Nat) (f : State → State) {l : List Field} (hf : ∀ u, Ev l u (f u))
    (hl : sub [.xch] l = true) : Ev l s (s.atHop h n f) := by
  unfold State.atHop
  repeat' first
    | with_reducible apply Ev.refl
    | (extract_lets +onlyGivenNames x; revert x; intro _)
    | (with_reducible apply Ev.then (State.ackIfDue_ev ..); rotate_left; exact sub_trans (by decide) hl)
    | (with_reducible apply Ev.then (State.onRx_ev ..); rotate_left; exact sub_trans (by decide) hl)
    | (with_reducible apply Ev.then (State.sendAck_ev ..); rotate_left; exact sub_trans (by decide) hl)
    | (with_reducible apply Ev.then (hf _); rotate_left; exact sub_refl _)
    | split

theorem State.atStream_ev (s : State) (f : State → State) {l : List Field} (hf : Ev l s (f s)) (hl : sub [.kpr, .pwr] l = true) :
    Ev l s (s.atStream f) := by
  unfold State.atStream
  split
  · exact (State.wake_ev s).mono hl
  · exact hf

theorem State.noHop_ev (s : State) (h : Nat) : Ev [.svc, .log, .mem, .mirror] s (State.noHop s h) := by
  unfold State.noHop
  repeat' first
    | with_reducible apply Ev.refl
    | with_reducible assumption
    | (extract_lets +onlyGivenNames y; with_reducible refine Ev.keep y ?_ ?_; rotate_left; subst y; rotate_left; clear_value y; intro hy)
    | (extract_lets +onlyGivenNames x; revert x; intro _)
    | with_reducible apply Ev.then (State.logReject_ev ..)
    | (intros; show sub _ _ = true; decide)
    | split
    | with_reducible refine (?_ : Ev _ _ (ite _ _ _))
    | intro _

theorem State.frameUnroomed_ev (s : State) (h : Nat) : Ev [.free, .xch] s (s.frameUnroomed h) := by
  unfold State.frameUnroomed
  extract_lets t
  have ht : Ev [.free, .xch] s t := (Ev.upd_free s _).mono (by decide)
  clear_value t
  split
  · exact (State.atHop_ev t _ _ _ (fun u => Ev.refl (l := [.xch]) u) (by decide)).then ht (by decide)
  · exact ht

theorem execInboundFrame_ev (raw : List Byte) (s : State) {t : State} (h : execInboundFrame raw s = .next t) :
    Ev [.free, .svc, .log, .kpr, .pwr, .cp, .mem, .mirror, .xch] s t := by
  unfold execInboundFrame at h
  extract_lets x at h
  cases h
  refine State.atStream_ev _ _ ?_ (by decide)
  repeat' first
    | exact Ev.refl _
    | exact (State.noHop_ev ..).mono (by decide)
    | exact (State.frameUnroomed_ev ..).mono (by decide)
    | exact State.atHop_ev _ _ _ _ (fun _ => (State.judgeFrame_ev ..).mono (by decide)) (by decide)
    | split

theorem withCtrl_ev (s : State) (raw : List Byte) (sc : Nat) (f : State → Nat → Nat → State) {l : List Field}
    (hf : ∀ u h n, Ev l u (f u h n)) (hl : sub [.svc, .log, .kpr, .pwr, .mem, .mirror, .xch] l = true) : Ev l s (withCtrl s raw sc f) := by
  unfold withCtrl
  extract_lets x w
  refine State.atStream_ev _ _ ?_ (sub_trans (by decide) hl)
  repeat' first
    | exact Ev.refl _
    | exact (State.noHop_ev ..).mono (sub_trans (by decide) hl)
    | exact ((State.sendAck_ev ..).then (l := [.svc, .log, .kpr, .pwr, .mem, .mirror, .xch]) ((State.logReject_ev ..).mono (by decide)) (by decide)).mono hl
    | exact (State.logReject_ev ..).mono (sub_trans (by decide) hl)
    | exact hf ..
    | extract_lets
    | split

theorem State.resendHop_ev (s : State) (h : Nat) : Ev [.xch] s (State.resendHop s h) := by
  unfold State.resendHop
  repeat' first
    | with_reducible apply Ev.refl
    | with_reducible assumption
    | (extract_lets +onlyGivenNames y; with_reducible refine Ev.keep y ?_ ?_; rotate_left; subst y; rotate_left; clear_value y; intro hy)
    | (extract_lets +onlyGivenNames x; revert x; intro _)
    | (with_reducible apply Ev.foldl; intro _ _ _)
    | with_reducible apply Ev.then (State.emit_ev ..)
    | with_reducible apply Ev.then (State.onTx_ev ..)
    | (intros; show sub _ _ = true; decide)
    | split
    | with_reducible refine (?_ : Ev _ _ (ite _ _ _))
    | intro _

theorem State.ackUpTo_ev (s : State) (h n : Nat) : Ev [.cp, .xch] s (State.ackUpTo s h n) := by
  unfold State.ackUpTo
  repeat' first
    | with_reducible apply Ev.refl
    | with_reducible assumption
    | (extract_lets +onlyGivenNames y; with_reducible refine Ev.keep y ?_ ?_; rotate_left; subst y; rotate_left; clear_value y; intro hy)
    | (extract_lets +onlyGivenNames x; revert x; intro _)
    | (with_reducible apply Ev.foldl; intro _ _ _)
    | with_reducible apply Ev.then (State.onCmd_ev ..)
    | with_reducible apply Ev.then (State.onTx_ev ..)
    | (intros; show sub _ _ = true; decide)
    | split
    | with_reducible refine (?_ : Ev _ _ (ite _ _ _))
    | intro _

theorem State.syncAcked_ev (s : State) (h : Nat) : Ev [.xch] s (State.syncAcked s h) := by
  unfold State.syncAcked
  repeat' first
    | with_reducible apply Ev.refl
    | with_reducible assumption
    | (extract_lets +onlyGivenNames y; with_reducible refine Ev.keep y ?_ ?_; rotate_left; subst y; rotate_left; clear_value y; intro hy)
    | (extract_lets +onlyGivenNames x; revert x; intro _)
    | with_reducible apply Ev.then (State.onTx_ev ..)
    | with_reducible apply Ev.then (State.resendHop_ev ..)
    | (intros; show sub _ _ = true; decide)
    | split
    | with_reducible refine (?_ : Ev _ _ (ite _ _ _))
    | intro _

theorem execAck_ev (raw : List Byte) (s : State) {t : State} (h : execAck raw s = .next t) : Ev [.svc, .log, .kpr, .pwr, .cp, .mem, .mirror, .xch] s t := by
  unfold execAck at h
  simp only [Host.Outcome.next.injEq] at h
  subst h
  repeat' first
    | with_reducible apply Ev.refl
    | with_reducible assumption
    | (extract_lets +onlyGivenNames y; with_reducible refine Ev.keep y ?_ ?_; rotate_left; subst y; rotate_left; clear_value y; intro hy)
    | (extract_lets +onlyGivenNames x; revert x; intro _)
    | with_reducible apply Ev.then (State.ackUpTo_ev ..)
    | with_reducible apply Ev.then (State.sendAll_ev ..)
    | with_reducible apply Ev.then (State.syncAcked_ev ..)
    | with_reducible refine withCtrl_ev _ _ _ _ (fun _ _ _ => ?_) (by decide)
    | (intros; show sub _ _ = true; decide)
    | split
    | with_reducible refine (?_ : Ev _ _ (ite _ _ _))
    | intro _

theorem execSyncRequest_ev (raw : List Byte) (s : State) {t : State} (h : execSyncRequest raw s = .next t) : Ev [.svc, .log, .kpr, .pwr, .mem, .mirror, .xch] s t := by
  unfold execSyncRequest at h
  simp only [Host.Outcome.next.injEq] at h
  subst h
  repeat' first
    | with_reducible apply Ev.refl
    | with_reducible assumption
    | (extract_lets +onlyGivenNames y; with_reducible refine Ev.keep y ?_ ?_; rotate_left; subst y; rotate_left; clear_value y; intro hy)
    | (extract_lets +onlyGivenNames x; revert x; intro _)
    | with_reducible apply Ev.then (State.onTx_ev ..)
    | with_reducible apply Ev.then (State.sendSync_ev ..)
    | with_reducible refine withCtrl_ev _ _ _ _ (fun _ _ _ => ?_) (by decide)
    | (intros; show sub _ _ = true; decide)
    | split
    | with_reducible refine (?_ : Ev _ _ (ite _ _ _))
    | intro _

theorem execSync_ev (raw : List Byte) (s : State) {t : State} (h : execSync raw s = .next t) : Ev [.svc, .log, .kpr, .pwr, .mem, .mirror, .xch] s t := by
  unfold execSync at h
  simp only [Host.Outcome.next.injEq] at h
  subst h
  repeat' first
    | with_reducible apply Ev.refl
    | with_reducible assumption
    | (extract_lets +onlyGivenNames y; with_reducible refine Ev.keep y ?_ ?_; rotate_left; subst y; rotate_left; clear_value y; intro hy)
    | (extract_lets +onlyGivenNames x; revert x; intro _)
    | with_reducible apply Ev.then (State.onRx_ev ..)
    | with_reducible apply Ev.then (State.sendAck_ev ..)
    | with_reducible refine withCtrl_ev _ _ _ _ (fun _ _ _ => ?_) (by decide)
    | (intros; show sub _ _ = true; decide)
    | split
    | with_reducible refine (?_ : Ev _ _ (ite _ _ _))
    | intro _

theorem execEndFrame_ev (raw : List Byte) (s : State) {t : State} (h : execEndFrame raw s = .next t) :
    Ev [.svc, .log, .kpr, .pwr, .mem, .mirror, .xch] s t := by
  unfold execEndFrame at h
  extract_lets x at h
  cases h
  refine State.atStream_ev _ _ ?_ (by decide)
  repeat' first
    | exact Ev.refl _
    | exact (State.noHop_ev ..).mono (by decide)
    | exact State.atHop_ev _ _ _ _ (fun _ => (State.noHop_ev ..).mono (by decide)) (by decide)
    | split

theorem execAckSend_ev (h : HIx) (s : State) {t : State} (h : execAckSend h s = .next t) : Ev [.xch] s t := by
  unfold execAckSend at h
  simp only [Host.Outcome.next.injEq] at h
  subst h
  repeat' first
    | with_reducible apply Ev.refl
    | with_reducible assumption
    | (extract_lets +onlyGivenNames y; with_reducible refine Ev.keep y ?_ ?_; rotate_left; subst y; rotate_left; clear_value y; intro hy)
    | (extract_lets +onlyGivenNames x; revert x; intro _)
    | with_reducible apply Ev.then (State.ackHop_ev ..)
    | with_reducible apply Ev.then (State.onRx_ev ..)
    | (intros; show sub _ _ = true; decide)
    | split
    | with_reducible refine (?_ : Ev _ _ (ite _ _ _))
    | intro _

theorem State.logDrop_ev (s : State) (h fseq : Nat) : Ev [.svc, .log, .mem, .mirror] s (State.logDrop s h fseq) := by
  unfold State.logDrop
  repeat' first
    | with_reducible apply Ev.refl
    | with_reducible assumption
    | (extract_lets +onlyGivenNames y; with_reducible refine Ev.keep y ?_ ?_; rotate_left; subst y; rotate_left; clear_value y; intro hy)
    | (extract_lets +onlyGivenNames x; revert x; intro _)
    | with_reducible apply Ev.then (State.logRec_ev ..)
    | with_reducible apply Ev.then (State.raiseSvc_ev ..)
    | (intros; show sub _ _ = true; decide)
    | split
    | with_reducible refine (?_ : Ev _ _ (ite _ _ _))
    | intro _

theorem State.dropFrame_ev (s : State) (h : Nat) (f : Sent) : Ev [.svc, .log, .cp, .mem, .mirror, .xch] s (State.dropFrame s h f) := by
  unfold State.dropFrame
  repeat' first
    | with_reducible apply Ev.refl
    | with_reducible assumption
    | (extract_lets +onlyGivenNames y; with_reducible refine Ev.keep y ?_ ?_; rotate_left; subst y; rotate_left; clear_value y; intro hy)
    | (extract_lets +onlyGivenNames x; revert x; intro _)
    | with_reducible apply Ev.then (State.logDrop_ev ..)
    | with_reducible apply Ev.then (State.onCmd_ev ..)
    | with_reducible apply Ev.then (State.onTx_ev ..)
    | (intros; show sub _ _ = true; decide)
    | split
    | with_reducible refine (?_ : Ev _ _ (ite _ _ _))
    | intro _

theorem execFrameResendTimeout_ev (h : HIx) (fseq : Nat) (s : State) {t : State} (h : execFrameResendTimeout h fseq s = .next t) : Ev [.svc, .log, .cp, .mem, .mirror, .xch] s t := by
  unfold execFrameResendTimeout at h
  simp only [Host.Outcome.next.injEq] at h
  subst h
  repeat' first
    | with_reducible apply Ev.refl
    | with_reducible assumption
    | (extract_lets +onlyGivenNames y; with_reducible refine Ev.keep y ?_ ?_; rotate_left; subst y; rotate_left; clear_value y; intro hy)
    | (extract_lets +onlyGivenNames x; revert x; intro _)
    | (with_reducible apply Ev.foldl; intro _ _ _)
    | with_reducible apply Ev.then (State.dropFrame_ev ..)
    | with_reducible apply Ev.then (State.emit_ev ..)
    | with_reducible apply Ev.then (State.onTx_ev ..)
    | with_reducible apply Ev.then (State.sendAll_ev ..)
    | (intros; show sub _ _ = true; decide)
    | split
    | with_reducible refine (?_ : Ev _ _ (ite _ _ _))
    | intro _

theorem execPeerLinkUp_ev (i : Fin 8) (up : Bool) (s : State) {t : State} (h : execPeerLinkUp i up s = .next t) : Ev [.xch] s t := by
  unfold execPeerLinkUp at h
  simp only [Host.Outcome.next.injEq] at h
  subst h
  repeat' first
    | with_reducible apply Ev.refl
    | with_reducible assumption
    | (extract_lets +onlyGivenNames y; with_reducible refine Ev.keep y ?_ ?_; rotate_left; subst y; rotate_left; clear_value y; intro hy)
    | (extract_lets +onlyGivenNames x; revert x; intro _)
    | with_reducible apply Ev.then (State.onXch_ev ..)
    | (intros; show sub _ _ = true; decide)
    | split
    | with_reducible refine (?_ : Ev _ _ (ite _ _ _))
    | intro _

theorem State.cmdErr_ev (s : State) (n : Nat) : Ev [.ctxs] s (State.cmdErr s n) := by
  unfold State.cmdErr
  repeat' first
    | with_reducible apply Ev.refl
    | with_reducible assumption
    | (extract_lets +onlyGivenNames y; with_reducible refine Ev.keep y ?_ ?_; rotate_left; subst y; rotate_left; clear_value y; intro hy)
    | (extract_lets +onlyGivenNames x; revert x; intro _)
    | with_reducible apply Ev.then (State.onCtx_ev ..)
    | (intros; show sub _ _ = true; decide)
    | split
    | with_reducible refine (?_ : Ev _ _ (ite _ _ _))
    | intro _

theorem State.onQueues_ev (s : State) (n : Nat) (f : Queue → Queue) : Ev [.qs] s (State.onQueues s n f) := by
  unfold State.onQueues
  repeat' first
    | with_reducible apply Ev.refl
    | with_reducible assumption
    | (extract_lets +onlyGivenNames y; with_reducible refine Ev.keep y ?_ ?_; rotate_left; subst y; rotate_left; clear_value y; intro hy)
    | (extract_lets +onlyGivenNames x; revert x; intro _)
    | (with_reducible apply Ev.foldl; intro _ _ _)
    | with_reducible apply Ev.then (State.onQ_ev ..)
    | (intros; show sub _ _ = true; decide)
    | split
    | with_reducible refine (?_ : Ev _ _ (ite _ _ _))
    | intro _

theorem State.beginSeq_ev (s : State) (n : Nat) (mode : CtxMode) : Ev [.ctxs] s (State.beginSeq s n mode) := by
  unfold State.beginSeq
  repeat' first
    | with_reducible apply Ev.refl
    | with_reducible assumption
    | (extract_lets +onlyGivenNames y; with_reducible refine Ev.keep y ?_ ?_; rotate_left; subst y; rotate_left; clear_value y; intro hy)
    | (extract_lets +onlyGivenNames x; revert x; intro _)
    | with_reducible apply Ev.then (State.onCtx_ev ..)
    | (intros; show sub _ _ = true; decide)
    | split
    | with_reducible refine (?_ : Ev _ _ (ite _ _ _))
    | intro _

theorem State.disableCtx_ev (s : State) (n : Nat) : Ev [.ctxs] s (State.disableCtx s n) := by
  unfold State.disableCtx
  repeat' first
    | with_reducible apply Ev.refl
    | with_reducible assumption
    | (extract_lets +onlyGivenNames y; with_reducible refine Ev.keep y ?_ ?_; rotate_left; subst y; rotate_left; clear_value y; intro hy)
    | (extract_lets +onlyGivenNames x; revert x; intro _)
    | with_reducible apply Ev.then (State.beginSeq_ev ..)
    | with_reducible apply Ev.then (State.cmdErr_ev ..)
    | with_reducible apply Ev.then (State.onCtx_ev ..)
    | (intros; show sub _ _ = true; decide)
    | split
    | with_reducible refine (?_ : Ev _ _ (ite _ _ _))
    | intro _

theorem State.ctxCommand_ev (s : State) (n cmd : Nat) : Ev [.ctxs, .qs] s (State.ctxCommand s n cmd) := by
  unfold State.ctxCommand
  repeat' first
    | with_reducible apply Ev.refl
    | with_reducible assumption
    | (extract_lets +onlyGivenNames y; with_reducible refine Ev.keep y ?_ ?_; rotate_left; subst y; rotate_left; clear_value y; intro hy)
    | (extract_lets +onlyGivenNames x; revert x; intro _)
    | with_reducible apply Ev.then (State.beginSeq_ev ..)
    | with_reducible apply Ev.then (State.cmdErr_ev ..)
    | with_reducible apply Ev.then (State.disableCtx_ev ..)
    | with_reducible apply Ev.then (State.onCtx_ev ..)
    | with_reducible apply Ev.then (State.onQueues_ev ..)
    | (intros; show sub _ _ = true; decide)
    | split
    | with_reducible refine (?_ : Ev _ _ (ite _ _ _))
    | intro _

theorem State.writeCtxCtrl_ev (s : State) (n v : Nat) : Ev [.ctxs, .qs, .cores] s (State.writeCtxCtrl s n v) := by
  unfold State.writeCtxCtrl
  repeat' first
    | with_reducible apply Ev.refl
    | with_reducible assumption
    | (extract_lets +onlyGivenNames y; with_reducible refine Ev.keep y ?_ ?_; rotate_left; subst y; rotate_left; clear_value y; intro hy)
    | (extract_lets +onlyGivenNames x; revert x; intro _)
    | with_reducible apply Ev.then (State.cmdErr_ev ..)
    | with_reducible apply Ev.then (State.ctxCommand_ev ..)
    | with_reducible apply Ev.then (State.electAll_ev ..)
    | with_reducible apply Ev.then (State.onCtx_ev ..)
    | (intros; show sub _ _ = true; decide)
    | split
    | with_reducible refine (?_ : Ev _ _ (ite _ _ _))
    | intro _

theorem State.stopContext_ev (s : State) (n : Nat) : Ev [.qs, .cp, .arrays, .halves, .cores, .tun, .mem, .xch] s (State.stopContext s n) := by
  unfold State.stopContext
  repeat' first
    | with_reducible apply Ev.refl
    | with_reducible assumption
    | (extract_lets +onlyGivenNames y; with_reducible refine Ev.keep y ?_ ?_; rotate_left; subst y; rotate_left; clear_value y; intro hy)
    | (extract_lets +onlyGivenNames x; revert x; intro _)
    | (with_reducible apply Ev.foldl; intro _ _ _)
    | with_reducible apply Ev.then (State.clearWork_ev ..)
    | with_reducible apply Ev.then (State.onComp_ev ..)
    | with_reducible apply Ev.then (State.onCore_ev ..)
    | with_reducible apply Ev.then (State.onQueues_ev ..)
    | with_reducible apply Ev.then (State.tidy_ev ..)
    | (intros; show sub _ _ = true; decide)
    | split
    | with_reducible refine (?_ : Ev _ _ (ite _ _ _))
    | intro _

theorem State.discardSends_ev (s : State) (n : Nat) : Ev [.cp, .xch] s (State.discardSends s n) := by
  unfold State.discardSends
  repeat' first
    | with_reducible apply Ev.refl
    | with_reducible assumption
    | (extract_lets +onlyGivenNames y; with_reducible refine Ev.keep y ?_ ?_; rotate_left; subst y; rotate_left; clear_value y; intro hy)
    | (extract_lets +onlyGivenNames x; revert x; intro _)
    | (with_reducible apply Ev.foldl; intro _ _ _)
    | with_reducible apply Ev.then (State.onXch_ev ..)
    | with_reducible apply Ev.then (State.txEnd_ev ..)
    | (intros; show sub _ _ = true; decide)
    | split
    | with_reducible refine (?_ : Ev _ _ (ite _ _ _))
    | intro _

theorem State.unbindCtx_ev (s : State) (n : Nat) : Ev [.cores] s (State.unbindCtx s n) := by
  unfold State.unbindCtx
  repeat' first
    | with_reducible apply Ev.refl
    | with_reducible assumption
    | (extract_lets +onlyGivenNames y; with_reducible refine Ev.keep y ?_ ?_; rotate_left; subst y; rotate_left; clear_value y; intro hy)
    | (extract_lets +onlyGivenNames x; revert x; intro _)
    | (with_reducible apply Ev.foldl; intro _ _ _)
    | with_reducible apply Ev.then (State.onCore_ev ..)
    | (intros; show sub _ _ = true; decide)
    | split
    | with_reducible refine (?_ : Ev _ _ (ite _ _ _))
    | intro _

theorem State.zeroWindow_ev (s : State) (n : Nat) : Ev [.cores, .tun] s (State.zeroWindow s n) := by
  unfold State.zeroWindow
  repeat' first
    | with_reducible apply Ev.refl
    | with_reducible assumption
    | (extract_lets +onlyGivenNames y; with_reducible refine Ev.keep y ?_ ?_; rotate_left; subst y; rotate_left; clear_value y; intro hy)
    | (extract_lets +onlyGivenNames x; revert x; intro _)
    | (with_reducible apply Ev.foldl; intro _ _ _)
    | with_reducible apply Ev.then (State.onCore_ev ..)
    | with_reducible apply Ev.then (State.zeroSlots_ev ..)
    | (intros; show sub _ _ = true; decide)
    | split
    | with_reducible refine (?_ : Ev _ _ (ite _ _ _))
    | intro _

theorem State.freeAreas_ev (s : State) (n : Nat) (l : List Nat) : Ev [.cp] s (State.freeAreas s n l) := by
  unfold State.freeAreas
  repeat' first
    | with_reducible apply Ev.refl
    | with_reducible assumption
    | (extract_lets +onlyGivenNames y; with_reducible refine Ev.keep y ?_ ?_; rotate_left; subst y; rotate_left; clear_value y; intro hy)
    | (extract_lets +onlyGivenNames x; revert x; intro _)
    | with_reducible apply Ev.then (State.onCp_ev ..)
    | (intros; show sub _ _ = true; decide)
    | split
    | with_reducible refine (?_ : Ev _ _ (ite _ _ _))
    | intro _

theorem State.replyAll_ev (s : State) (n : Nat) : Ev [.svc, .log, .ctxs, .qs, .cp, .mem, .mirror] s (State.replyAll s n) := by
  unfold State.replyAll
  repeat' first
    | with_reducible apply Ev.refl
    | with_reducible assumption
    | (extract_lets +onlyGivenNames y; with_reducible refine Ev.keep y ?_ ?_; rotate_left; subst y; rotate_left; clear_value y; intro hy)
    | (extract_lets +onlyGivenNames x; revert x; intro _)
    | (with_reducible apply Ev.foldl; intro _ _ _)
    | with_reducible apply Ev.then (State.reply_ev ..)
    | (intros; show sub _ _ = true; decide)
    | split
    | with_reducible refine (?_ : Ev _ _ (ite _ _ _))
    | intro _

theorem State.drainQueue_ev : ∀ (n : Nat) (k : Nat) (st : Status) (s : State), Ev [.svc, .log, .ctxs, .qs, .cp, .mem, .mirror] s (State.drainQueue n k st s)
  | 0, _, _, s => Ev.refl s
  | n + 1, k, st, s => by
    unfold State.drainQueue
    repeat' first
      | with_reducible apply Ev.then (State.drainQueue_ev n ..)
      | with_reducible apply Ev.refl
      | with_reducible assumption
      | (extract_lets +onlyGivenNames y; with_reducible refine Ev.keep y ?_ ?_; rotate_left; subst y; rotate_left; clear_value y; intro hy)
      | (extract_lets +onlyGivenNames x; revert x; intro _)
      | with_reducible apply Ev.then (State.replyNow_ev ..)
      | with_reducible apply Ev.then (State.takePacket_ev ..)
      | (intros; show sub _ _ = true; decide)
      | split
      | with_reducible refine (?_ : Ev _ _ (ite _ _ _))
      | intro _

theorem State.drainQueues_ev (s : State) (n : Nat) : Ev [.svc, .log, .ctxs, .qs, .cp, .mem, .mirror] s (State.drainQueues s n) := by
  unfold State.drainQueues
  repeat' first
    | with_reducible apply Ev.refl
    | with_reducible assumption
    | (extract_lets +onlyGivenNames y; with_reducible refine Ev.keep y ?_ ?_; rotate_left; subst y; rotate_left; clear_value y; intro hy)
    | (extract_lets +onlyGivenNames x; revert x; intro _)
    | (with_reducible apply Ev.foldl; intro _ _ _)
    | with_reducible apply Ev.then (State.drainQueue_ev ..)
    | (intros; show sub _ _ = true; decide)
    | split
    | with_reducible refine (?_ : Ev _ _ (ite _ _ _))
    | intro _

theorem State.clearCtx_ev (s : State) (n : Nat) : Ev [.cp, .cores, .xch] s (State.clearCtx s n) := by
  unfold State.clearCtx
  repeat' first
    | with_reducible apply Ev.refl
    | with_reducible assumption
    | (extract_lets +onlyGivenNames y; with_reducible refine Ev.keep y ?_ ?_; rotate_left; subst y; rotate_left; clear_value y; intro hy)
    | (extract_lets +onlyGivenNames x; revert x; intro _)
    | (with_reducible apply Ev.foldl; intro _ _ _)
    | with_reducible apply Ev.then (State.freeAreas_ev ..)
    | with_reducible apply Ev.then (State.onCore_ev ..)
    | with_reducible apply Ev.then (State.onHeld_ev ..)
    | (intros; show sub _ _ = true; decide)
    | split
    | with_reducible refine (?_ : Ev _ _ (ite _ _ _))
    | intro _

theorem State.resetCtx_ev (s : State) (n : Nat) : Ev [.ctxs, .qs, .cp, .cores, .tun, .xch] s (State.resetCtx s n) := by
  unfold State.resetCtx
  repeat' first
    | with_reducible apply Ev.refl
    | with_reducible assumption
    | (extract_lets +onlyGivenNames y; with_reducible refine Ev.keep y ?_ ?_; rotate_left; subst y; rotate_left; clear_value y; intro hy)
    | (extract_lets +onlyGivenNames x; revert x; intro _)
    | (with_reducible apply Ev.foldl; intro _ _ _)
    | with_reducible apply Ev.then (State.clearCtx_ev ..)
    | with_reducible apply Ev.then (State.onCtx_ev ..)
    | with_reducible apply Ev.then (State.onQ_ev ..)
    | with_reducible apply Ev.then (State.reset_ev ..)
    | with_reducible apply Ev.then (State.zeroWindow_ev ..)
    | (intros; show sub _ _ = true; decide)
    | split
    | with_reducible refine (?_ : Ev _ _ (ite _ _ _))
    | intro _

theorem State.endSeq_ev (s : State) (n : Nat) : Ev [.ctxs, .qs, .cp, .cores, .tun, .xch] s (State.endSeq s n) := by
  unfold State.endSeq
  repeat' first
    | with_reducible apply Ev.refl
    | with_reducible assumption
    | (extract_lets +onlyGivenNames y; with_reducible refine Ev.keep y ?_ ?_; rotate_left; subst y; rotate_left; clear_value y; intro hy)
    | (extract_lets +onlyGivenNames x; revert x; intro _)
    | (with_reducible apply Ev.foldl; intro _ _ _)
    | with_reducible apply Ev.then (State.onCore_ev ..)
    | with_reducible apply Ev.then (State.onCtx_ev ..)
    | with_reducible apply Ev.then (State.onHeld_ev ..)
    | with_reducible apply Ev.then (State.resetCtx_ev ..)
    | (intros; show sub _ _ = true; decide)
    | split
    | with_reducible refine (?_ : Ev _ _ (ite _ _ _))
    | intro _

theorem State.toStage_ev (s : State) (n k : Nat) : Ev [.ctxs] s (State.toStage s n k) := by
  unfold State.toStage
  repeat' first
    | with_reducible apply Ev.refl
    | with_reducible assumption
    | (extract_lets +onlyGivenNames y; with_reducible refine Ev.keep y ?_ ?_; rotate_left; subst y; rotate_left; clear_value y; intro hy)
    | (extract_lets +onlyGivenNames x; revert x; intro _)
    | with_reducible apply Ev.then (State.onCtx_ev ..)
    | (intros; show sub _ _ = true; decide)
    | split
    | with_reducible refine (?_ : Ev _ _ (ite _ _ _))
    | intro _

theorem execDisableStageEnd_ev (n : CIx) (s : State) {t : State} (h : execDisableStageEnd n s = .next t) : Ev [.svc, .log, .ctxs, .qs, .cp, .arrays, .halves, .cores, .tun, .mem, .mirror, .xch] s t := by
  unfold execDisableStageEnd at h
  simp only [Host.Outcome.next.injEq] at h
  subst h
  repeat' first
    | with_reducible apply Ev.refl
    | with_reducible assumption
    | (extract_lets +onlyGivenNames y; with_reducible refine Ev.keep y ?_ ?_; rotate_left; subst y; rotate_left; clear_value y; intro hy)
    | (extract_lets +onlyGivenNames x; revert x; intro _)
    | with_reducible apply Ev.then (State.discardSends_ev ..)
    | with_reducible apply Ev.then (State.drainQueues_ev ..)
    | with_reducible apply Ev.then (State.endSeq_ev ..)
    | with_reducible apply Ev.then (State.freeAreas_ev ..)
    | with_reducible apply Ev.then (State.replyAll_ev ..)
    | with_reducible apply Ev.then (State.stopContext_ev ..)
    | with_reducible apply Ev.then (State.toStage_ev ..)
    | with_reducible apply Ev.then (State.unbindCtx_ev ..)
    | (intros; show sub _ _ = true; decide)
    | split
    | with_reducible refine (?_ : Ev _ _ (ite _ _ _))
    | intro _

theorem execFarWriteAbandon_ev (n : CIx) (s : State) {t : State} (h : execFarWriteAbandon n s = .next t) : Ev [.cp] s t := by
  unfold execFarWriteAbandon at h
  simp only [Host.Outcome.next.injEq] at h
  subst h
  repeat' first
    | with_reducible apply Ev.refl
    | with_reducible assumption
    | (extract_lets +onlyGivenNames y; with_reducible refine Ev.keep y ?_ ?_; rotate_left; subst y; rotate_left; clear_value y; intro hy)
    | (extract_lets +onlyGivenNames x; revert x; intro _)
    | (with_reducible apply Ev.foldl; intro _ _ _)
    | with_reducible apply Ev.then (State.engSettle_ev ..)
    | with_reducible apply Ev.then (State.onEng_ev ..)
    | (intros; show sub _ _ = true; decide)
    | split
    | with_reducible refine (?_ : Ev _ _ (ite _ _ _))
    | intro _

theorem execTunZeroComplete_ev (n : CIx) (s : State) {t : State} (h : execTunZeroComplete n s = .next t) : Ev [.ctxs, .cores, .tun] s t := by
  unfold execTunZeroComplete at h
  simp only [Host.Outcome.next.injEq] at h
  subst h
  repeat' first
    | with_reducible apply Ev.refl
    | with_reducible assumption
    | (extract_lets +onlyGivenNames y; with_reducible refine Ev.keep y ?_ ?_; rotate_left; subst y; rotate_left; clear_value y; intro hy)
    | (extract_lets +onlyGivenNames x; revert x; intro _)
    | with_reducible apply Ev.then (State.onCtx_ev ..)
    | with_reducible apply Ev.then (State.zeroWindow_ev ..)
    | (intros; show sub _ _ = true; decide)
    | split
    | with_reducible refine (?_ : Ev _ _ (ite _ _ _))
    | intro _

theorem State.contextReset_ev (s : State) (n : Nat) : Ev [.ctxs, .qs, .cp, .cores, .tun, .xch] s (State.contextReset s n) := by
  unfold State.contextReset
  repeat' first
    | with_reducible apply Ev.refl
    | with_reducible assumption
    | (extract_lets +onlyGivenNames y; with_reducible refine Ev.keep y ?_ ?_; rotate_left; subst y; rotate_left; clear_value y; intro hy)
    | (extract_lets +onlyGivenNames x; revert x; intro _)
    | with_reducible apply Ev.then (State.disableCtx_ev ..)
    | with_reducible apply Ev.then (State.onCtx_ev ..)
    | with_reducible apply Ev.then (State.resetCtx_ev ..)
    | (intros; show sub _ _ = true; decide)
    | split
    | with_reducible refine (?_ : Ev _ _ (ite _ _ _))
    | intro _

theorem State.contextResets_ev (s : State) (mask : Nat) : Ev [.ctxs, .qs, .cp, .cores, .tun, .xch] s (State.contextResets s mask) := by
  unfold State.contextResets
  repeat' first
    | with_reducible apply Ev.refl
    | with_reducible assumption
    | (extract_lets +onlyGivenNames y; with_reducible refine Ev.keep y ?_ ?_; rotate_left; subst y; rotate_left; clear_value y; intro hy)
    | (extract_lets +onlyGivenNames x; revert x; intro _)
    | (with_reducible apply Ev.foldl; intro _ _ _)
    | with_reducible apply Ev.then (State.contextReset_ev ..)
    | (intros; show sub _ _ = true; decide)
    | split
    | with_reducible refine (?_ : Ev _ _ (ite _ _ _))
    | intro _

theorem State.quiesce_ev (s : State) : Ev [.blk, .ctxs] s (State.quiesce s) := by
  unfold State.quiesce
  repeat' first
    | with_reducible apply Ev.refl
    | with_reducible assumption
    | (extract_lets +onlyGivenNames y; with_reducible refine Ev.keep y ?_ ?_; rotate_left; subst y; rotate_left; clear_value y; intro hy)
    | (extract_lets +onlyGivenNames x; revert x; intro _)
    | (with_reducible apply Ev.foldl; intro _ _ _)
    | with_reducible apply Ev.then (State.beginSeq_ev ..)
    | with_reducible apply Ev.then (State.onBlk_ev _ _ ?_)
    | exact Nat.and_self _
    | (intros; show sub _ _ = true; decide)
    | split
    | with_reducible refine (?_ : Ev _ _ (ite _ _ _))
    | intro _

theorem State.takeEntry_ev (s : State) (p : Nat) (m : Module) : Ev [.svc, .log, .mem, .far, .mirror] s (State.takeEntry s p m) := by
  unfold State.takeEntry
  repeat' first
    | with_reducible apply Ev.refl
    | with_reducible assumption
    | (extract_lets +onlyGivenNames y; with_reducible refine Ev.keep y ?_ ?_; rotate_left; subst y; rotate_left; clear_value y; intro hy)
    | (extract_lets +onlyGivenNames x; revert x; intro _)
    | with_reducible apply Ev.then (State.mirrorWear_ev ..)
    | with_reducible apply Ev.then (State.onFar_ev ..)
    | with_reducible apply Ev.then (State.wearCheck_ev ..)
    | (intros; show sub _ _ = true; decide)
    | split
    | with_reducible refine (?_ : Ev _ _ (ite _ _ _))
    | intro _

theorem State.writeLost_ev (s : State) (e : Extent) : Ev [.mem] s (State.writeLost s e) := by
  unfold State.writeLost
  repeat' first
    | with_reducible apply Ev.refl
    | with_reducible assumption
    | (extract_lets +onlyGivenNames y; with_reducible refine Ev.keep y ?_ ?_; rotate_left; subst y; rotate_left; clear_value y; intro hy)
    | (extract_lets +onlyGivenNames x; revert x; intro _)
    | with_reducible apply Ev.then (State.store_ev ..)
    | (intros; show sub _ _ = true; decide)
    | split
    | with_reducible refine (?_ : Ev _ _ (ite _ _ _))
    | intro _

theorem State.abandonFar_ev (s : State) (p serial : Nat) (c : Cmd) : Ev [.cp] s (State.abandonFar s p serial c) := by
  unfold State.abandonFar
  repeat' first
    | with_reducible apply Ev.refl
    | with_reducible assumption
    | (extract_lets +onlyGivenNames y; with_reducible refine Ev.keep y ?_ ?_; rotate_left; subst y; rotate_left; clear_value y; intro hy)
    | (extract_lets +onlyGivenNames x; revert x; intro _)
    | with_reducible apply Ev.then (State.engHalt_ev ..)
    | with_reducible apply Ev.then (State.onEng_ev ..)
    | (intros; show sub _ _ = true; decide)
    | split
    | with_reducible refine (?_ : Ev _ _ (ite _ _ _))
    | intro _

theorem State.detach_ev (s : State) (p : Nat) (m : Module) : Ev [.svc, .log, .cp, .mem, .far, .mirror] s (State.detach s p m) := by
  unfold State.detach
  repeat' first
    | with_reducible apply Ev.refl
    | with_reducible assumption
    | (extract_lets +onlyGivenNames y; with_reducible refine Ev.keep y ?_ ?_; rotate_left; subst y; rotate_left; clear_value y; intro hy)
    | (extract_lets +onlyGivenNames x; revert x; intro _)
    | (with_reducible apply Ev.foldl; intro _ _ _)
    | with_reducible apply Ev.then (State.abandonFar_ev ..)
    | with_reducible apply Ev.then (State.logRec_ev ..)
    | with_reducible apply Ev.then (State.mirrorWear_ev ..)
    | with_reducible apply Ev.then (State.onFar_ev ..)
    | with_reducible apply Ev.then (State.onWear_ev ..)
    | with_reducible apply Ev.then (State.writeLost_ev ..)
    | (intros; show sub _ _ = true; decide)
    | split
    | with_reducible refine (?_ : Ev _ _ (ite _ _ _))
    | intro _

theorem execLinkDown_ev (p : PIx) (s : State) {t : State} (h : execLinkDown p s = .next t) : Ev [.svc, .log, .cp, .mem, .far, .mirror] s t := by
  unfold execLinkDown at h
  simp only [Host.Outcome.next.injEq] at h
  subst h
  repeat' first
    | with_reducible apply Ev.refl
    | with_reducible assumption
    | (extract_lets +onlyGivenNames y; with_reducible refine Ev.keep y ?_ ?_; rotate_left; subst y; rotate_left; clear_value y; intro hy)
    | (extract_lets +onlyGivenNames x; revert x; intro _)
    | with_reducible apply Ev.then (State.detach_ev ..)
    | with_reducible apply Ev.then (State.onFar_ev ..)
    | (intros; show sub _ _ = true; decide)
    | split
    | with_reducible refine (?_ : Ev _ _ (ite _ _ _))
    | intro _

theorem State.attach_ev (s : State) (p : Nat) (m : ModuleInfo) : Ev [.svc, .log, .mem, .far, .mirror] s (State.attach s p m) := by
  unfold State.attach
  repeat' first
    | with_reducible apply Ev.refl
    | with_reducible assumption
    | (extract_lets +onlyGivenNames y; with_reducible refine Ev.keep y ?_ ?_; rotate_left; subst y; rotate_left; clear_value y; intro hy)
    | (extract_lets +onlyGivenNames x; revert x; intro _)
    | with_reducible apply Ev.then (State.onFar_ev ..)
    | with_reducible apply Ev.then (State.takeEntry_ev ..)
    | (intros; show sub _ _ = true; decide)
    | split
    | with_reducible refine (?_ : Ev _ _ (ite _ _ _))
    | intro _

theorem execModuleAttach_ev (p : PIx) (m : ModuleInfo) (s : State) {t : State} (h : execModuleAttach p m s = .next t) : Ev [.svc, .log, .mem, .far, .mirror] s t := by
  unfold execModuleAttach at h
  simp only [Host.Outcome.next.injEq] at h
  subst h
  repeat' first
    | with_reducible apply Ev.refl
    | with_reducible assumption
    | (extract_lets +onlyGivenNames y; with_reducible refine Ev.keep y ?_ ?_; rotate_left; subst y; rotate_left; clear_value y; intro hy)
    | (extract_lets +onlyGivenNames x; revert x; intro _)
    | with_reducible apply Ev.then (State.attach_ev ..)
    | (intros; show sub _ _ = true; decide)
    | split
    | with_reducible refine (?_ : Ev _ _ (ite _ _ _))
    | intro _

theorem execCfgResponse_ev (p : PIx) (r : CfgResp) (s : State) {t : State} (h : execCfgResponse p r s = .next t) : Ev [.svc, .log, .cp, .mem, .far, .mirror] s t := by
  unfold execCfgResponse at h
  simp only [Host.Outcome.next.injEq] at h
  subst h
  repeat' first
    | with_reducible apply Ev.refl
    | with_reducible assumption
    | (extract_lets +onlyGivenNames y; with_reducible refine Ev.keep y ?_ ?_; rotate_left; subst y; rotate_left; clear_value y; intro hy)
    | (extract_lets +onlyGivenNames x; revert x; intro _)
    | with_reducible apply Ev.then (State.attach_ev ..)
    | with_reducible apply Ev.then (State.detach_ev ..)
    | with_reducible apply Ev.then (State.onFar_ev ..)
    | with_reducible apply Ev.then (State.takeEntry_ev ..)
    | (intros; show sub _ _ = true; decide)
    | split
    | with_reducible refine (?_ : Ev _ _ (ite _ _ _))
    | intro _

theorem State.mapOut_ev (s : State) (x c : Nat) : Ev [.blk, .svc, .log, .mem, .map, .mirror] s (State.mapOut s x c) := by
  unfold State.mapOut
  repeat' first
    | with_reducible apply Ev.refl
    | with_reducible assumption
    | (extract_lets +onlyGivenNames y; with_reducible refine Ev.keep y ?_ ?_; rotate_left; subst y; rotate_left; clear_value y; intro hy)
    | (extract_lets +onlyGivenNames x; revert x; intro _)
    | with_reducible apply Ev.then (State.logRec_ev ..)
    | with_reducible apply Ev.then (State.onBlk_ev _ _ ?_)
    | with_reducible apply Ev.then (State.onMap_ev ..)
    | exact Nat.and_self _
    | (intros; show sub _ _ = true; decide)
    | split
    | with_reducible refine (?_ : Ev _ _ (ite _ _ _))
    | intro _

theorem State.stackDead_ev (s : State) (x : Nat) : Ev [.blk, .svc, .log, .mem, .stks, .map, .mirror] s (State.stackDead s x) := by
  unfold State.stackDead
  repeat' first
    | with_reducible apply Ev.refl
    | with_reducible assumption
    | (extract_lets +onlyGivenNames y; with_reducible refine Ev.keep y ?_ ?_; rotate_left; subst y; rotate_left; clear_value y; intro hy)
    | (extract_lets +onlyGivenNames x; revert x; intro _)
    | with_reducible apply Ev.then (State.logRec_ev ..)
    | with_reducible apply Ev.then (State.onBlk_ev _ _ ?_)
    | with_reducible apply Ev.then (State.onMap_ev ..)
    | with_reducible apply Ev.then (State.onMem_ev _ _ ?_)
    | with_reducible apply Ev.then (State.onStack_ev ..)
    | with_reducible apply Ev.then (State.report_ev ..)
    | exact MemSt.flush_wf _
    | exact MemSt.write_wf _ _
    | exact MemSt.drop_wf _
    | exact fun h => h
    | exact Nat.and_self _
    | (intros; show sub _ _ = true; decide)
    | split
    | with_reducible refine (?_ : Ev _ _ (ite _ _ _))
    | intro _

theorem State.loseChannel_ev (s : State) (x c cause : Nat) : Ev [.blk, .svc, .log, .mem, .stks, .map, .mirror] s (State.loseChannel s x c cause) := by
  unfold State.loseChannel
  repeat' first
    | with_reducible apply Ev.refl
    | with_reducible assumption
    | (extract_lets +onlyGivenNames y; with_reducible refine Ev.keep y ?_ ?_; rotate_left; subst y; rotate_left; clear_value y; intro hy)
    | (extract_lets +onlyGivenNames x; revert x; intro _)
    | with_reducible apply Ev.then (State.logRec_ev ..)
    | with_reducible apply Ev.then (State.mapOut_ev ..)
    | with_reducible apply Ev.then (State.onStack_ev ..)
    | with_reducible apply Ev.then (State.report_ev ..)
    | with_reducible apply Ev.then (State.stackDead_ev ..)
    | (intros; show sub _ _ = true; decide)
    | split
    | with_reducible refine (?_ : Ev _ _ (ite _ _ _))
    | intro _

theorem execPhyParityError_ev (stack : SIx) (chan : Fin 32) (fails addr : Nat) (s : State) {t : State} (h : execPhyParityError stack chan fails addr s = .next t) : Ev [.blk, .svc, .log, .mem, .stks, .map, .mirror] s t := by
  unfold execPhyParityError at h
  simp only [Host.Outcome.next.injEq] at h
  subst h
  repeat' first
    | with_reducible apply Ev.refl
    | with_reducible assumption
    | (extract_lets +onlyGivenNames y; with_reducible refine Ev.keep y ?_ ?_; rotate_left; subst y; rotate_left; clear_value y; intro hy)
    | (extract_lets +onlyGivenNames x; revert x; intro _)
    | with_reducible apply Ev.then (State.logRec_ev ..)
    | with_reducible apply Ev.then (State.loseChannel_ev ..)
    | with_reducible apply Ev.then (State.onStack_ev ..)
    | (intros; show sub _ _ = true; decide)
    | split
    | with_reducible refine (?_ : Ev _ _ (ite _ _ _))
    | intro _

theorem State.slotUncorrectable_ev (s : State) (x c slot : Nat) (verifyOk : Bool) : Ev [.blk, .svc, .log, .mem, .stks, .map, .mirror] s (State.slotUncorrectable s x c slot verifyOk) := by
  unfold State.slotUncorrectable
  repeat' first
    | with_reducible apply Ev.refl
    | with_reducible assumption
    | (extract_lets +onlyGivenNames y; with_reducible refine Ev.keep y ?_ ?_; rotate_left; subst y; rotate_left; clear_value y; intro hy)
    | (extract_lets +onlyGivenNames x; revert x; intro _)
    | with_reducible apply Ev.then (State.logRec_ev ..)
    | with_reducible apply Ev.then (State.loseChannel_ev ..)
    | with_reducible apply Ev.then (State.onMem_ev _ _ ?_)
    | with_reducible apply Ev.then (State.onStack_ev ..)
    | exact MemSt.flush_wf _
    | exact MemSt.write_wf _ _
    | exact MemSt.drop_wf _
    | exact fun h => h
    | (intros; show sub _ _ = true; decide)
    | split
    | with_reducible refine (?_ : Ev _ _ (ite _ _ _))
    | dsimp +zetaDelta only
    | intro _

theorem execStackUncorrectable_ev (stack : SIx) (chan : Fin 32) (addr : Nat) (verifyOk : Bool) (s : State) {t : State} (h : execStackUncorrectable stack chan addr verifyOk s = .next t) : Ev [.blk, .svc, .log, .mem, .stks, .map, .mirror] s t := by
  unfold execStackUncorrectable at h
  simp only [Host.Outcome.next.injEq] at h
  subst h
  repeat' first
    | with_reducible apply Ev.refl
    | with_reducible assumption
    | (extract_lets +onlyGivenNames y; with_reducible refine Ev.keep y ?_ ?_; rotate_left; subst y; rotate_left; clear_value y; intro hy)
    | (extract_lets +onlyGivenNames x; revert x; intro _)
    | with_reducible apply Ev.then (State.slotUncorrectable_ev ..)
    | (intros; show sub _ _ = true; decide)
    | split
    | with_reducible refine (?_ : Ev _ _ (ite _ _ _))
    | intro _

theorem execPatrolScrub_ev (bad : Option (SIx × Fin 32 × Bool)) (s : State) {t : State} (h : execPatrolScrub bad s = .next t) : Ev [.blk, .svc, .log, .mem, .stks, .map, .mirror] s t := by
  unfold execPatrolScrub at h
  simp only [Host.Outcome.next.injEq] at h
  subst h
  repeat' first
    | with_reducible apply Ev.refl
    | with_reducible assumption
    | (extract_lets +onlyGivenNames y; with_reducible refine Ev.keep y ?_ ?_; rotate_left; subst y; rotate_left; clear_value y; intro hy)
    | (extract_lets +onlyGivenNames x; revert x; intro _)
    | with_reducible apply Ev.then (State.onMap_ev ..)
    | with_reducible apply Ev.then (State.slotUncorrectable_ev ..)
    | (intros; show sub _ _ = true; decide)
    | split
    | with_reducible refine (?_ : Ev _ _ (ite _ _ _))
    | intro _

theorem execRebuildDone_ev (s : State) {t : State} (h : execRebuildDone s = .next t) : Ev [.blk, .svc, .log, .mem, .map, .mirror] s t := by
  unfold execRebuildDone at h
  simp only [Host.Outcome.next.injEq] at h
  subst h
  repeat' first
    | with_reducible apply Ev.refl
    | with_reducible assumption
    | (extract_lets +onlyGivenNames y; with_reducible refine Ev.keep y ?_ ?_; rotate_left; subst y; rotate_left; clear_value y; intro hy)
    | (extract_lets +onlyGivenNames x; revert x; intro _)
    | with_reducible apply Ev.then (State.logRec_ev ..)
    | with_reducible apply Ev.then (State.onBlk_ev _ _ ?_)
    | with_reducible apply Ev.then (State.onMap_ev ..)
    | exact Nat.and_self _
    | (intros; show sub _ _ = true; decide)
    | split
    | with_reducible refine (?_ : Ev _ _ (ite _ _ _))
    | intro _

theorem execStripeGatherExpiry_ev (stripe : Nat) (s : State) {t : State} (h : execStripeGatherExpiry stripe s = .next t) : Ev [.mem] s t := by
  unfold execStripeGatherExpiry at h
  simp only [Host.Outcome.next.injEq] at h
  subst h
  repeat' first
    | with_reducible apply Ev.refl
    | with_reducible assumption
    | (extract_lets +onlyGivenNames y; with_reducible refine Ev.keep y ?_ ?_; rotate_left; subst y; rotate_left; clear_value y; intro hy)
    | (extract_lets +onlyGivenNames x; revert x; intro _)
    | with_reducible apply Ev.then (State.onMem_ev _ _ ?_)
    | exact MemSt.flush_wf _
    | exact MemSt.write_wf _ _
    | exact MemSt.drop_wf _
    | exact fun h => h
    | (intros; show sub _ _ = true; decide)
    | split
    | with_reducible refine (?_ : Ev _ _ (ite _ _ _))
    | intro _

theorem State.beginFence_ev (s : State) (x : Nat) (critical : Bool) : Ev [.mem, .stks, .map] s (State.beginFence s x critical) := by
  unfold State.beginFence
  repeat' first
    | with_reducible apply Ev.refl
    | with_reducible assumption
    | (extract_lets +onlyGivenNames y; with_reducible refine Ev.keep y ?_ ?_; rotate_left; subst y; rotate_left; clear_value y; intro hy)
    | (extract_lets +onlyGivenNames x; revert x; intro _)
    | (with_reducible apply Ev.foldl; intro _ _ _)
    | with_reducible apply Ev.then (State.onMap_ev ..)
    | with_reducible apply Ev.then (State.onMem_ev _ _ ?_)
    | with_reducible apply Ev.then (State.onStack_ev ..)
    | exact MemSt.flush_wf _
    | exact MemSt.write_wf _ _
    | exact MemSt.drop_wf _
    | exact fun h => h
    | (intros; show sub _ _ = true; decide)
    | split
    | with_reducible refine (?_ : Ev _ _ (ite _ _ _))
    | intro _

theorem State.clearFence_ev (s : State) (x : Nat) : Ev [.stks, .map] s (State.clearFence s x) := by
  unfold State.clearFence
  repeat' first
    | with_reducible apply Ev.refl
    | with_reducible assumption
    | (extract_lets +onlyGivenNames y; with_reducible refine Ev.keep y ?_ ?_; rotate_left; subst y; rotate_left; clear_value y; intro hy)
    | (extract_lets +onlyGivenNames x; revert x; intro _)
    | with_reducible apply Ev.then (State.onMap_ev ..)
    | with_reducible apply Ev.then (State.onStack_ev ..)
    | (intros; show sub _ _ = true; decide)
    | split
    | with_reducible refine (?_ : Ev _ _ (ite _ _ _))
    | intro _

theorem State.raiseLevel_ev (s : State) (x : Nat) (l : SLevel) : Ev [.mem, .stks, .map] s (State.raiseLevel s x l) := by
  unfold State.raiseLevel
  repeat' first
    | with_reducible apply Ev.refl
    | with_reducible assumption
    | (extract_lets +onlyGivenNames y; with_reducible refine Ev.keep y ?_ ?_; rotate_left; subst y; rotate_left; clear_value y; intro hy)
    | (extract_lets +onlyGivenNames x; revert x; intro _)
    | with_reducible apply Ev.then (State.beginFence_ev ..)
    | with_reducible apply Ev.then (State.onStack_ev ..)
    | (intros; show sub _ _ = true; decide)
    | split
    | with_reducible refine (?_ : Ev _ _ (ite _ _ _))
    | intro _

theorem execStackFenceComplete_ev (stack : SIx) (s : State) {t : State} (h : execStackFenceComplete stack s = .next t) : Ev [.svc, .log, .mem, .stks, .mirror] s t := by
  unfold execStackFenceComplete at h
  simp only [Host.Outcome.next.injEq] at h
  subst h
  repeat' first
    | with_reducible apply Ev.refl
    | with_reducible assumption
    | (extract_lets +onlyGivenNames y; with_reducible refine Ev.keep y ?_ ?_; rotate_left; subst y; rotate_left; clear_value y; intro hy)
    | (extract_lets +onlyGivenNames x; revert x; intro _)
    | with_reducible apply Ev.then (State.logRec_ev ..)
    | with_reducible apply Ev.then (State.onStack_ev ..)
    | (intros; show sub _ _ = true; decide)
    | split
    | with_reducible refine (?_ : Ev _ _ (ite _ _ _))
    | intro _

theorem execStackLevelFall_ev (stack : SIx) (s : State) {t : State} (h : execStackLevelFall stack s = .next t) : Ev [.stks, .map] s t := by
  unfold execStackLevelFall at h
  simp only [Host.Outcome.next.injEq] at h
  subst h
  repeat' first
    | with_reducible apply Ev.refl
    | with_reducible assumption
    | (extract_lets +onlyGivenNames y; with_reducible refine Ev.keep y ?_ ?_; rotate_left; subst y; rotate_left; clear_value y; intro hy)
    | (extract_lets +onlyGivenNames x; revert x; intro _)
    | with_reducible apply Ev.then (State.clearFence_ev ..)
    | with_reducible apply Ev.then (State.onStack_ev ..)
    | (intros; show sub _ _ = true; decide)
    | split
    | with_reducible refine (?_ : Ev _ _ (ite _ _ _))
    | intro _

theorem execStackReturnPhase1End_ev (stack : SIx) (responds : Bool) (s : State) {t : State} (h : execStackReturnPhase1End stack responds s = .next t) : Ev [.blk, .svc, .log, .mem, .stks, .map, .mirror] s t := by
  unfold execStackReturnPhase1End at h
  simp only [Host.Outcome.next.injEq] at h
  subst h
  repeat' first
    | with_reducible apply Ev.refl
    | with_reducible assumption
    | (extract_lets +onlyGivenNames y; with_reducible refine Ev.keep y ?_ ?_; rotate_left; subst y; rotate_left; clear_value y; intro hy)
    | (extract_lets +onlyGivenNames x; revert x; intro _)
    | with_reducible apply Ev.then (State.onMem_ev _ _ ?_)
    | with_reducible apply Ev.then (State.onStack_ev ..)
    | with_reducible apply Ev.then (State.stackDead_ev ..)
    | exact MemSt.flush_wf _
    | exact MemSt.write_wf _ _
    | exact MemSt.drop_wf _
    | exact fun h => h
    | (intros; show sub _ _ = true; decide)
    | split
    | with_reducible refine (?_ : Ev _ _ (ite _ _ _))
    | intro _

theorem MemSt.unpark_wf {m : MemSt} (f : Nat → Bool) (h : m.wf = true) : (m.unpark f).wf = true :=
  (MemSt.flush_wf (fun a => m.parked.contains (lineOf a) && f (lineOf a)) h :
    (m.flush (fun a => m.parked.contains (lineOf a) && f (lineOf a))).wf = true)

theorem execStackReturnComplete_ev (stack : StackAnswer) (s : State) {t : State}
    (h : execStackReturnComplete stack s = .next t) : Ev [.blk, .svc, .log, .mem, .stks, .map, .mirror] s t := by
  unfold execStackReturnComplete at h
  cases h
  repeat' first
    | exact Ev.refl _
    | exact State.stackDead_ev ..
    | exact (State.clearFence_ev ..).then ((State.onMem_ev s _ (MemSt.unpark_wf _)).mono (l := [.blk, .svc, .log, .mem, .stks, .map, .mirror]) (by decide)) (by decide)
    | split

theorem State.hostRsp_ev (s : State) (tag status : Nat) (data : List Byte) : Ev [.port] s (State.hostRsp s tag status data) := by
  unfold State.hostRsp
  repeat' first
    | with_reducible apply Ev.refl
    | with_reducible assumption
    | (extract_lets +onlyGivenNames y; with_reducible refine Ev.keep y ?_ ?_; rotate_left; subst y; rotate_left; clear_value y; intro hy)
    | (extract_lets +onlyGivenNames x; revert x; intro _)
    | with_reducible apply Ev.then (State.onPort_ev ..)
    | (intros; show sub _ _ = true; decide)
    | split
    | with_reducible refine (?_ : Ev _ _ (ite _ _ _))
    | intro _

theorem State.freeBytes_ev (s : State) (n : Nat) : Ev [.free] s (State.freeBytes s n).1 := by
  unfold State.freeBytes
  simp only [upd_free]
  repeat' first
    | with_reducible apply Ev.refl
    | with_reducible assumption
    | (extract_lets +onlyGivenNames y; with_reducible refine Ev.keep y ?_ ?_; rotate_left; subst y; rotate_left; clear_value y; intro hy)
    | (extract_lets +onlyGivenNames x; revert x; intro _)
    | with_reducible apply Ev.then (State.setFree_ev ..)
    | (intros; show sub _ _ = true; decide)
    | split
    | with_reducible refine (?_ : Ev _ _ (ite _ _ _))
    | intro _

theorem State.freeBytes_of {s : State} {n : Nat} {t : State} {x} (h : State.freeBytes s n = (t, x)) : Ev [.free] s t := by
  have g := State.freeBytes_ev s n
  rw [h] at g
  exact g

theorem State.hostWrite_ev (s : State) (a : Nat) (data : List Byte) (strb : List Bool) : Ev [.mem] s (State.hostWrite s a data strb) := by
  unfold State.hostWrite
  repeat' first
    | with_reducible apply Ev.refl
    | with_reducible assumption
    | (extract_lets +onlyGivenNames y; with_reducible refine Ev.keep y ?_ ?_; rotate_left; subst y; rotate_left; clear_value y; intro hy)
    | (extract_lets +onlyGivenNames x; revert x; intro _)
    | (with_reducible apply Ev.foldl; intro _ _ _)
    | with_reducible apply Ev.then (State.parkWrite_ev ..)
    | with_reducible apply Ev.then (State.store_ev ..)
    | with_reducible apply Ev.then (State.writeBytes_ev ..)
    | (intros; show sub _ _ = true; decide)
    | split
    | with_reducible refine (?_ : Ev _ _ (ite _ _ _))
    | intro _

theorem State.hostUnspecified_ev (s : State) (tag n : Nat) : Ev [.free, .port] s (State.hostUnspecified s tag n) := by
  unfold State.hostUnspecified
  repeat' first
    | with_reducible apply Ev.refl
    | with_reducible assumption
    | (extract_lets +onlyGivenNames y; with_reducible refine Ev.keep y ?_ ?_; rotate_left; subst y; rotate_left; clear_value y; intro hy)
    | (extract_lets +onlyGivenNames x; revert x; intro _)
    | (with_reducible apply Ev.then (State.freeBytes_of (by assumption)))
    | with_reducible apply Ev.then (State.freeBytes_ev ..)
    | with_reducible apply Ev.then (State.hostRsp_ev ..)
    | (intros; show sub _ _ = true; decide)
    | split
    | with_reducible refine (?_ : Ev _ _ (ite _ _ _))
    | intro _

theorem execHostAccessRequest_ev (addr : Nat) (write : Bool) (beats tag : Nat) (data : List Byte) (strb : List Bool)
    (upset : Option CacheUpset) (s : State) {t : State} (h : execHostAccessRequest addr write beats tag data strb upset s = .next t) :
    Ev [.free, .svc, .log, .mem, .mirror, .port] s t := by
  unfold execHostAccessRequest at h
  extract_lets at h
  split at h
  · cases h
    exact (State.hostUnspecified_ev ..).mono (by decide)
  · cases h
    repeat' first
      | with_reducible apply Ev.refl
      | (with_reducible apply Ev.then (State.cacheUpset_of (by assumption)))
      | with_reducible apply Ev.then (State.cacheUpset_ev ..)
      | with_reducible apply Ev.then (State.hostRsp_ev ..)
      | with_reducible apply Ev.then (State.hostWrite_ev ..)
      | with_reducible apply Ev.then (State.freeBytes_ev ..)
      | (intros; show sub _ _ = true; decide)
      | split
      | extract_lets

theorem State.freeWord_ev (s : State) : Ev [.free] s (State.freeWord s).1 := by
  unfold State.freeWord
  simp only [upd_free]
  repeat' first
    | with_reducible apply Ev.refl
    | with_reducible assumption
    | (extract_lets +onlyGivenNames y; with_reducible refine Ev.keep y ?_ ?_; rotate_left; subst y; rotate_left; clear_value y; intro hy)
    | (extract_lets +onlyGivenNames x; revert x; intro _)
    | with_reducible apply Ev.then (State.setFree_ev ..)
    | (intros; show sub _ _ = true; decide)
    | split
    | with_reducible refine (?_ : Ev _ _ (ite _ _ _))
    | intro _

theorem State.freeWord_of {s : State} {t : State} {x} (h : State.freeWord s = (t, x)) : Ev [.free] s t := by
  have g := State.freeWord_ev s
  rw [h] at g
  exact g

theorem State.logInternal_ev (s : State) (action kind unit : Nat) : Ev [.free, .svc, .log, .mem, .mirror] s (State.logInternal s action kind unit) := by
  unfold State.logInternal
  repeat' first
    | with_reducible apply Ev.refl
    | with_reducible assumption
    | (extract_lets +onlyGivenNames y; with_reducible refine Ev.keep y ?_ ?_; rotate_left; subst y; rotate_left; clear_value y; intro hy)
    | (extract_lets +onlyGivenNames x; revert x; intro _)
    | (with_reducible apply Ev.then (State.freeWord_of (by assumption)))
    | with_reducible apply Ev.then (State.freeWord_ev ..)
    | with_reducible apply Ev.then (State.logRec_ev ..)
    | (intros; show sub _ _ = true; decide)
    | split
    | with_reducible refine (?_ : Ev _ _ (ite _ _ _))
    | intro _

theorem State.driveRequest_ev (s : State) : Ev [.kin] s (State.driveRequest s) := by
  unfold State.driveRequest
  repeat' first
    | with_reducible apply Ev.refl
    | with_reducible assumption
    | (extract_lets +onlyGivenNames y; with_reducible refine Ev.keep y ?_ ?_; rotate_left; subst y; rotate_left; clear_value y; intro hy)
    | (extract_lets +onlyGivenNames x; revert x; intro _)
    | with_reducible apply Ev.then (State.onKin_ev ..)
    | (intros; show sub _ _ = true; decide)
    | split
    | with_reducible refine (?_ : Ev _ _ (ite _ _ _))
    | intro _

theorem State.endSprint_ev (s : State) (reason : Nat) : Ev [.kpr, .kin] s (State.endSprint s reason) := by
  unfold State.endSprint
  repeat' first
    | with_reducible apply Ev.refl
    | with_reducible assumption
    | (extract_lets +onlyGivenNames y; with_reducible refine Ev.keep y ?_ ?_; rotate_left; subst y; rotate_left; clear_value y; intro hy)
    | (extract_lets +onlyGivenNames x; revert x; intro _)
    | with_reducible apply Ev.then (State.onKin_ev ..)
    | with_reducible apply Ev.then (State.onKpr_ev ..)
    | (intros; show sub _ _ = true; decide)
    | split
    | with_reducible refine (?_ : Ev _ _ (ite _ _ _))
    | intro _

theorem State.sprintDecision_ev (s : State) : Ev [.kpr, .kin] s (State.sprintDecision s) := by
  unfold State.sprintDecision
  repeat' first
    | with_reducible apply Ev.refl
    | with_reducible assumption
    | (extract_lets +onlyGivenNames y; with_reducible refine Ev.keep y ?_ ?_; rotate_left; subst y; rotate_left; clear_value y; intro hy)
    | (extract_lets +onlyGivenNames x; revert x; intro _)
    | with_reducible apply Ev.then (State.endSprint_ev ..)
    | with_reducible apply Ev.then (State.onKpr_ev ..)
    | (intros; show sub _ _ = true; decide)
    | split
    | with_reducible refine (?_ : Ev _ _ (ite _ _ _))
    | intro _

theorem State.underCap_ev (s : State) : Ev [.cores] s (State.underCap s) := by
  unfold State.underCap
  simp only [upd_cores]
  repeat' first
    | with_reducible apply Ev.refl
    | with_reducible assumption
    | (extract_lets +onlyGivenNames y; with_reducible refine Ev.keep y ?_ ?_; rotate_left; subst y; rotate_left; clear_value y; intro hy)
    | (extract_lets +onlyGivenNames x; revert x; intro _)
    | with_reducible apply Ev.then (State.setCores_ev ..)
    | (intros; show sub _ _ = true; decide)
    | split
    | with_reducible refine (?_ : Ev _ _ (ite _ _ _))
    | intro _

theorem State.capFall_ev (s : State) (floor : Nat) : Ev [.kpr, .kin] s (State.capFall s floor) := by
  unfold State.capFall
  repeat' first
    | with_reducible apply Ev.refl
    | with_reducible assumption
    | (extract_lets +onlyGivenNames y; with_reducible refine Ev.keep y ?_ ?_; rotate_left; subst y; rotate_left; clear_value y; intro hy)
    | (extract_lets +onlyGivenNames x; revert x; intro _)
    | with_reducible apply Ev.then (State.onKin_ev ..)
    | with_reducible apply Ev.then (State.onKpr_ev ..)
    | (intros; show sub _ _ = true; decide)
    | split
    | with_reducible refine (?_ : Ev _ _ (ite _ _ _))
    | intro _

theorem State.capRise_ev (s : State) (rate : Nat) : Ev [.kpr, .kin] s (State.capRise s rate) := by
  unfold State.capRise
  repeat' first
    | with_reducible apply Ev.refl
    | with_reducible assumption
    | (extract_lets +onlyGivenNames y; with_reducible refine Ev.keep y ?_ ?_; rotate_left; subst y; rotate_left; clear_value y; intro hy)
    | (extract_lets +onlyGivenNames x; revert x; intro _)
    | with_reducible apply Ev.then (State.onKin_ev ..)
    | with_reducible apply Ev.then (State.onKpr_ev ..)
    | (intros; show sub _ _ = true; decide)
    | split
    | with_reducible refine (?_ : Ev _ _ (ite _ _ _))
    | intro _

theorem State.decide__ev (s : State) (x : Sample) (ps : Nat) : Ev [.kpr, .kin, .pwr, .cores] s (State.decide_ s x ps) := by
  unfold State.decide_
  repeat' first
    | with_reducible apply Ev.refl
    | with_reducible assumption
    | (extract_lets +onlyGivenNames y; with_reducible refine Ev.keep y ?_ ?_; rotate_left; subst y; rotate_left; clear_value y; intro hy)
    | (extract_lets +onlyGivenNames x; revert x; intro _)
    | with_reducible apply Ev.then (State.capFall_ev ..)
    | with_reducible apply Ev.then (State.capRise_ev ..)
    | with_reducible apply Ev.then (State.onKin_ev ..)
    | with_reducible apply Ev.then (State.onKpr_ev ..)
    | with_reducible apply Ev.then (State.onPwr_ev ..)
    | with_reducible apply Ev.then (State.sprintDecision_ev ..)
    | with_reducible apply Ev.then (State.underCap_ev ..)
    | (intros; show sub _ _ = true; decide)
    | split
    | with_reducible refine (?_ : Ev _ _ (ite _ _ _))
    | intro _

theorem State.stackSample_ev (s : State) (x : Nat) (t : Int) : Ev [.mem, .stks, .map] s (State.stackSample s x t) := by
  unfold State.stackSample
  repeat' first
    | with_reducible apply Ev.refl
    | with_reducible assumption
    | (extract_lets +onlyGivenNames y; with_reducible refine Ev.keep y ?_ ?_; rotate_left; subst y; rotate_left; clear_value y; intro hy)
    | (extract_lets +onlyGivenNames x; revert x; intro _)
    | with_reducible apply Ev.then (State.onStack_ev ..)
    | with_reducible apply Ev.then (State.raiseLevel_ev ..)
    | (intros; show sub _ _ = true; decide)
    | split
    | with_reducible refine (?_ : Ev _ _ (ite _ _ _))
    | intro _

theorem State.restrict_ev (s : State) (x : CopyView) : Ev [.svc, .log, .kpr, .kin, .mem, .far, .mirror] s (State.restrict s x) := by
  unfold State.restrict
  repeat' first
    | with_reducible apply Ev.refl
    | with_reducible assumption
    | (extract_lets +onlyGivenNames y; with_reducible refine Ev.keep y ?_ ?_; rotate_left; subst y; rotate_left; clear_value y; intro hy)
    | (extract_lets +onlyGivenNames x; revert x; intro _)
    | (with_reducible apply Ev.foldl; intro _ _ _)
    | with_reducible apply Ev.then (State.onFar_ev ..)
    | with_reducible apply Ev.then (State.onKin_ev ..)
    | with_reducible apply Ev.then (State.onKpr_ev ..)
    | with_reducible apply Ev.then (State.wearCheck_ev ..)
    | (intros; show sub _ _ = true; decide)
    | split
    | with_reducible refine (?_ : Ev _ _ (ite _ _ _))
    | intro _

theorem State.outvote_ev (s : State) (copy kind : Nat) : Ev [.blk, .svc, .log, .kin, .mem, .mirror] s (State.outvote s copy kind) := by
  unfold State.outvote
  repeat' first
    | with_reducible apply Ev.refl
    | with_reducible assumption
    | (extract_lets +onlyGivenNames y; with_reducible refine Ev.keep y ?_ ?_; rotate_left; subst y; rotate_left; clear_value y; intro hy)
    | (extract_lets +onlyGivenNames x; revert x; intro _)
    | with_reducible apply Ev.then (State.logRec_ev ..)
    | with_reducible apply Ev.then (State.onKin_ev ..)
    | with_reducible apply Ev.then (State.report_ev ..)
    | (intros; show sub _ _ = true; decide)
    | split
    | with_reducible refine (?_ : Ev _ _ (ite _ _ _))
    | intro _

theorem execKeeperSample_ev (x : Sample) (s : State) {t : State} (h : execKeeperSample x s = .next t) : Ev [.blk, .svc, .log, .kpr, .kin, .pwr, .cores, .mem, .stks, .map, .far, .mirror] s t := by
  unfold execKeeperSample at h
  simp only [Host.Outcome.next.injEq] at h
  subst h
  repeat' first
    | with_reducible apply Ev.refl
    | with_reducible assumption
    | (extract_lets +onlyGivenNames y; with_reducible refine Ev.keep y ?_ ?_; rotate_left; subst y; rotate_left; clear_value y; intro hy)
    | (extract_lets +onlyGivenNames x; revert x; intro _)
    | (with_reducible apply Ev.foldl; intro _ _ _)
    | with_reducible apply Ev.then (State.decide__ev ..)
    | with_reducible apply Ev.then (State.driveRequest_ev ..)
    | with_reducible apply Ev.then (State.onKin_ev ..)
    | with_reducible apply Ev.then (State.onKpr_ev ..)
    | with_reducible apply Ev.then (State.outvote_ev ..)
    | with_reducible apply Ev.then (State.restrict_ev ..)
    | with_reducible apply Ev.then (State.stackSample_ev ..)
    | with_reducible apply Ev.then (State.underCap_ev ..)
    | (intros; show sub _ _ = true; decide)
    | split
    | with_reducible refine (?_ : Ev _ _ (ite _ _ _))
    | intro _

theorem execVoltageStep_ev (s : State) {t : State} (h : execVoltageStep s = .next t) : Ev [.kpr, .kin] s t := by
  unfold execVoltageStep at h
  simp only [Host.Outcome.next.injEq] at h
  subst h
  repeat' first
    | with_reducible apply Ev.refl
    | with_reducible assumption
    | (extract_lets +onlyGivenNames y; with_reducible refine Ev.keep y ?_ ?_; rotate_left; subst y; rotate_left; clear_value y; intro hy)
    | (extract_lets +onlyGivenNames x; revert x; intro _)
    | with_reducible apply Ev.then (State.driveRequest_ev ..)
    | with_reducible apply Ev.then (State.onKpr_ev ..)
    | (intros; show sub _ _ = true; decide)
    | split
    | with_reducible refine (?_ : Ev _ _ (ite _ _ _))
    | intro _

theorem execSprintContinuousLimit_ev (s : State) {t : State} (h : execSprintContinuousLimit s = .next t) : Ev [.kpr, .kin] s t := by
  unfold execSprintContinuousLimit at h
  simp only [Host.Outcome.next.injEq] at h
  subst h
  repeat' first
    | with_reducible apply Ev.refl
    | with_reducible assumption
    | (extract_lets +onlyGivenNames y; with_reducible refine Ev.keep y ?_ ?_; rotate_left; subst y; rotate_left; clear_value y; intro hy)
    | (extract_lets +onlyGivenNames x; revert x; intro _)
    | with_reducible apply Ev.then (State.driveRequest_ev ..)
    | with_reducible apply Ev.then (State.endSprint_ev ..)
    | (intros; show sub _ _ = true; decide)
    | split
    | with_reducible refine (?_ : Ev _ _ (ite _ _ _))
    | intro _

theorem execThrottleClear_ev (s : State) {t : State} (h : execThrottleClear s = .next t) : Ev [.kpr, .kin] s t := by
  unfold execThrottleClear at h
  simp only [Host.Outcome.next.injEq] at h
  subst h
  repeat' first
    | with_reducible apply Ev.refl
    | with_reducible assumption
    | (extract_lets +onlyGivenNames y; with_reducible refine Ev.keep y ?_ ?_; rotate_left; subst y; rotate_left; clear_value y; intro hy)
    | (extract_lets +onlyGivenNames x; revert x; intro _)
    | with_reducible apply Ev.then (State.onKin_ev ..)
    | with_reducible apply Ev.then (State.onKpr_ev ..)
    | (intros; show sub _ _ = true; decide)
    | split
    | with_reducible refine (?_ : Ev _ _ (ite _ _ _))
    | intro _

theorem execVoltageMonitorAlarm_ev (s : State) {t : State} (h : execVoltageMonitorAlarm s = .next t) : Ev [.free, .svc, .log, .kpr, .kin, .mem, .mirror] s t := by
  unfold execVoltageMonitorAlarm at h
  simp only [Host.Outcome.next.injEq] at h
  subst h
  repeat' first
    | with_reducible apply Ev.refl
    | with_reducible assumption
    | (extract_lets +onlyGivenNames y; with_reducible refine Ev.keep y ?_ ?_; rotate_left; subst y; rotate_left; clear_value y; intro hy)
    | (extract_lets +onlyGivenNames x; revert x; intro _)
    | with_reducible apply Ev.then (State.driveRequest_ev ..)
    | with_reducible apply Ev.then (State.endSprint_ev ..)
    | with_reducible apply Ev.then (State.logInternal_ev ..)
    | with_reducible apply Ev.then (State.onKin_ev ..)
    | (intros; show sub _ _ = true; decide)
    | split
    | with_reducible refine (?_ : Ev _ _ (ite _ _ _))
    | intro _

theorem execSensorFailed_ev (sensor : Fin 96) (s : State) {t : State} (h : execSensorFailed sensor s = .next t) : Ev [.kin] s t := by
  unfold execSensorFailed at h
  simp only [Host.Outcome.next.injEq] at h
  subst h
  repeat' first
    | with_reducible apply Ev.refl
    | with_reducible assumption
    | (extract_lets +onlyGivenNames y; with_reducible refine Ev.keep y ?_ ?_; rotate_left; subst y; rotate_left; clear_value y; intro hy)
    | (extract_lets +onlyGivenNames x; revert x; intro _)
    | with_reducible apply Ev.then (State.onKin_ev ..)
    | (intros; show sub _ _ = true; decide)
    | split
    | with_reducible refine (?_ : Ev _ _ (ite _ _ _))
    | intro _

theorem execTelemetryRecord_ev (vMeas : Option Nat) (tStack : Option Int) (workSteps fillerSteps : Nat) (s : State) {t : State} (h : execTelemetryRecord vMeas tStack workSteps fillerSteps s = .next t) : Ev [.kin, .mem] s t := by
  unfold execTelemetryRecord at h
  simp only [Host.Outcome.next.injEq] at h
  subst h
  repeat' first
    | with_reducible apply Ev.refl
    | with_reducible assumption
    | (extract_lets +onlyGivenNames y; with_reducible refine Ev.keep y ?_ ?_; rotate_left; subst y; rotate_left; clear_value y; intro hy)
    | (extract_lets +onlyGivenNames x; revert x; intro _)
    | with_reducible apply Ev.then (State.onKin_ev ..)
    | with_reducible apply Ev.then (State.store_ev ..)
    | (intros; show sub _ _ = true; decide)
    | split
    | with_reducible refine (?_ : Ev _ _ (ite _ _ _))
    | intro _

theorem execWearMirror_ev (s : State) {t : State} (h : execWearMirror s = .next t) : Ev [.mem, .mirror] s t := by
  unfold execWearMirror at h
  simp only [Host.Outcome.next.injEq] at h
  subst h
  repeat' first
    | with_reducible apply Ev.refl
    | with_reducible assumption
    | (extract_lets +onlyGivenNames y; with_reducible refine Ev.keep y ?_ ?_; rotate_left; subst y; rotate_left; clear_value y; intro hy)
    | (extract_lets +onlyGivenNames x; revert x; intro _)
    | with_reducible apply Ev.then (State.mirrorBytes_ev ..)
    | with_reducible apply Ev.then (State.onMirror_ev ..)
    | (intros; show sub _ _ = true; decide)
    | split
    | with_reducible refine (?_ : Ev _ _ (ite _ _ _))
    | intro _

theorem execDelayMarginCalibration_ev (c : KIx) (margin : Bool) (s : State) {t : State} (h : execDelayMarginCalibration c margin s = .next t) : Ev [.free, .blk, .svc, .log, .kpr, .cp, .arrays, .halves, .cores, .tun, .mem, .mirror, .xch] s t := by
  unfold execDelayMarginCalibration at h
  simp only [Host.Outcome.next.injEq] at h
  subst h
  repeat' first
    | with_reducible apply Ev.refl
    | with_reducible assumption
    | (extract_lets +onlyGivenNames y; with_reducible refine Ev.keep y ?_ ?_; rotate_left; subst y; rotate_left; clear_value y; intro hy)
    | (extract_lets +onlyGivenNames x; revert x; intro _)
    | with_reducible apply Ev.then (State.logInternal_ev ..)
    | with_reducible apply Ev.then (State.onKpr_ev ..)
    | with_reducible apply Ev.then (State.retireCore_ev ..)
    | (intros; show sub _ _ = true; decide)
    | split
    | with_reducible refine (?_ : Ev _ _ (ite _ _ _))
    | intro _

theorem execGradeInterval_ev (c : KIx) (s : State) {t : State} (h : execGradeInterval c s = .next t) : Ev [.cores] s t := by
  unfold execGradeInterval at h
  simp only [Host.Outcome.next.injEq] at h
  subst h
  repeat' first
    | with_reducible apply Ev.refl
    | with_reducible assumption
    | (extract_lets +onlyGivenNames y; with_reducible refine Ev.keep y ?_ ?_; rotate_left; subst y; rotate_left; clear_value y; intro hy)
    | (extract_lets +onlyGivenNames x; revert x; intro _)
    | with_reducible apply Ev.then (State.onCore_ev ..)
    | (intros; show sub _ _ = true; decide)
    | split
    | with_reducible refine (?_ : Ev _ _ (ite _ _ _))
    | intro _

theorem execHoldWindowExpiry_ev (c : KIx) (s : State) {t : State} (h : execHoldWindowExpiry c s = .next t) : Ev [.cores] s t := by
  unfold execHoldWindowExpiry at h
  simp only [Host.Outcome.next.injEq] at h
  subst h
  repeat' first
    | with_reducible apply Ev.refl
    | with_reducible assumption
    | (extract_lets +onlyGivenNames y; with_reducible refine Ev.keep y ?_ ?_; rotate_left; subst y; rotate_left; clear_value y; intro hy)
    | (extract_lets +onlyGivenNames x; revert x; intro _)
    | with_reducible apply Ev.then (State.onCore_ev ..)
    | (intros; show sub _ _ = true; decide)
    | split
    | with_reducible refine (?_ : Ev _ _ (ite _ _ _))
    | intro _

end Sys2Proof.Machine
end

