-- ==== Sys2Proof/Laws/EvolveSys.lean ====
section
/-! SUPPORT. How starts, services, the register window and test access let the state evolve. -/
namespace Sys2Proof.Machine

set_option linter.all false

theorem State.loseWork_ev (s : State) : Ev [.svc, .ctxs, .qs, .cp, .arrays, .halves, .cores, .tun, .mem, .xch, .port] s (State.loseWork s) := by
  unfold State.loseWork
  exact Ev.of id (Nat.and_self _) (fun f h => by cases f <;> first | exact absurd h (by decide) | rfl)

theorem State.coldClear_ev (s : State) : Ev [.blk, .start, .svc, .kpr, .kin, .pwr, .ctxs, .qs, .cp, .arrays, .halves, .cores, .tun, .mem, .stks, .map, .far, .xch, .port] s (State.coldClear s) := by
  unfold State.coldClear
  exact Ev.of id (Nat.and_self _) (fun f h => by cases f <;> first | exact absurd h (by decide) | rfl)

theorem State.writeBack_ev (s : State) : Ev [.mem] s s.writeBack :=
  State.onMem_ev s _ (fun h => MemSt.flush_wf (fun _ => true) h)

theorem State.latchStraps_ev (s : State) (v : Nat) : Ev [.blk, .kin, .map, .port] s (State.latchStraps s v) := by
  unfold State.latchStraps
  repeat' first
    | with_reducible apply Ev.refl
    | with_reducible assumption
    | (extract_lets +onlyGivenNames y; with_reducible refine Ev.keep y ?_ ?_; rotate_left; subst y; rotate_left; clear_value y; intro hy)
    | (extract_lets +onlyGivenNames x; revert x; intro _)
    | with_reducible apply Ev.then (State.driveRequest_ev ..)
    | with_reducible apply Ev.then (State.onBlk_ev _ _ ?_)
    | with_reducible apply Ev.then (State.onMap_ev ..)
    | with_reducible apply Ev.then (State.onPort_ev ..)
    | exact Nat.and_self _
    | (intros; show sub _ _ = true; decide)
    | split
    | with_reducible refine (?_ : Ev _ _ (ite _ _ _))
    | intro _

theorem State.beginS1_ev (s : State) (kind : StartKind) : Ev [.blk, .start] s (State.beginS1 s kind) := by
  unfold State.beginS1
  repeat' first
    | with_reducible apply Ev.refl
    | with_reducible assumption
    | (extract_lets +onlyGivenNames y; with_reducible refine Ev.keep y ?_ ?_; rotate_left; subst y; rotate_left; clear_value y; intro hy)
    | (extract_lets +onlyGivenNames x; revert x; intro _)
    | with_reducible apply Ev.then (State.onBlk_ev _ _ ?_)
    | with_reducible apply Ev.then (State.onStart_ev ..)
    | exact Nat.and_self _
    | (intros; show sub _ _ = true; decide)
    | split
    | with_reducible refine (?_ : Ev _ _ (ite _ _ _))
    | intro _

theorem State.failStage_ev (s : State) (code kind unit : Nat) : Ev [.start, .svc] s (State.failStage s code kind unit) := by
  unfold State.failStage
  repeat' first
    | with_reducible apply Ev.refl
    | with_reducible assumption
    | (extract_lets +onlyGivenNames y; with_reducible refine Ev.keep y ?_ ?_; rotate_left; subst y; rotate_left; clear_value y; intro hy)
    | (extract_lets +onlyGivenNames x; revert x; intro _)
    | with_reducible apply Ev.then (State.onStart_ev ..)
    | with_reducible apply Ev.then (State.raiseSvc_ev ..)
    | (intros; show sub _ _ = true; decide)
    | split
    | with_reducible refine (?_ : Ev _ _ (ite _ _ _))
    | intro _

theorem State.fail_ev (s : State) : Ev [.blk, .start] s (State.fail s) := by
  unfold State.fail
  repeat' first
    | with_reducible apply Ev.refl
    | with_reducible assumption
    | (extract_lets +onlyGivenNames y; with_reducible refine Ev.keep y ?_ ?_; rotate_left; subst y; rotate_left; clear_value y; intro hy)
    | (extract_lets +onlyGivenNames x; revert x; intro _)
    | with_reducible apply Ev.then (State.onBlk_ev _ _ ?_)
    | with_reducible apply Ev.then (State.onStart_ev ..)
    | exact Nat.and_self _
    | (intros; show sub _ _ = true; decide)
    | split
    | with_reducible refine (?_ : Ev _ _ (ite _ _ _))
    | intro _

theorem State.nextStage_ev (s : State) : Ev [.start] s (State.nextStage s) := by
  unfold State.nextStage
  repeat' first
    | with_reducible apply Ev.refl
    | with_reducible assumption
    | (extract_lets +onlyGivenNames y; with_reducible refine Ev.keep y ?_ ?_; rotate_left; subst y; rotate_left; clear_value y; intro hy)
    | (extract_lets +onlyGivenNames x; revert x; intro _)
    | with_reducible apply Ev.then (State.onStart_ev ..)
    | (intros; show sub _ _ = true; decide)
    | split
    | with_reducible refine (?_ : Ev _ _ (ite _ _ _))
    | intro _

theorem State.stageS1_ev (s : State) : Ev [.blk, .svc, .log, .mem, .mirror] s (State.stageS1 s) := by
  unfold State.stageS1
  repeat' first
    | with_reducible apply Ev.refl
    | with_reducible assumption
    | (extract_lets +onlyGivenNames y; with_reducible refine Ev.keep y ?_ ?_; rotate_left; subst y; rotate_left; clear_value y; intro hy)
    | (extract_lets +onlyGivenNames x; revert x; intro _)
    | (with_reducible apply Ev.foldl; intro _ _ _)
    | with_reducible apply Ev.then (State.logRec_ev ..)
    | with_reducible apply Ev.then (State.onBlk_ev _ _ ?_)
    | exact Nat.and_self _
    | (intros; show sub _ _ = true; decide)
    | split
    | with_reducible refine (?_ : Ev _ _ (ite _ _ _))
    | intro _

theorem State.restoreLog_ev (s : State) (ok : Bool) : Ev [.log] s (State.restoreLog s ok) := by
  unfold State.restoreLog
  repeat' first
    | with_reducible apply Ev.refl
    | with_reducible assumption
    | (extract_lets +onlyGivenNames y; with_reducible refine Ev.keep y ?_ ?_; rotate_left; subst y; rotate_left; clear_value y; intro hy)
    | (extract_lets +onlyGivenNames x; revert x; intro _)
    | (with_reducible apply Ev.foldl; intro _ _ _)
    | with_reducible apply Ev.then (State.onLog_ev ..)
    | (intros; show sub _ _ = true; decide)
    | split
    | with_reducible refine (?_ : Ev _ _ (ite _ _ _))
    | intro _

theorem State.mirrorLog_ev (s : State) : Ev [.mem, .mirror] s (State.mirrorLog s) := by
  unfold State.mirrorLog
  repeat' first
    | with_reducible apply Ev.refl
    | with_reducible assumption
    | (extract_lets +onlyGivenNames y; with_reducible refine Ev.keep y ?_ ?_; rotate_left; subst y; rotate_left; clear_value y; intro hy)
    | (extract_lets +onlyGivenNames x; revert x; intro _)
    | (with_reducible apply Ev.foldl; intro _ _ _)
    | with_reducible apply Ev.then (State.onMirror_ev ..)
    | with_reducible apply Ev.then (State.store_ev ..)
    | (intros; show sub _ _ = true; decide)
    | split
    | with_reducible refine (?_ : Ev _ _ (ite _ _ _))
    | intro _

theorem State.ledgerBack_ev (s : State) : Ev [.mem] s (State.ledgerBack s) := by
  unfold State.ledgerBack
  repeat' first
    | with_reducible apply Ev.refl
    | with_reducible assumption
    | (extract_lets +onlyGivenNames y; with_reducible refine Ev.keep y ?_ ?_; rotate_left; subst y; rotate_left; clear_value y; intro hy)
    | (extract_lets +onlyGivenNames x; revert x; intro _)
    | with_reducible apply Ev.then (State.store_ev ..)
    | (intros; show sub _ _ = true; decide)
    | split
    | with_reducible refine (?_ : Ev _ _ (ite _ _ _))
    | intro _

theorem State.restoreWear_ev (s : State) (ok : Bool) : Ev [.kin] s (State.restoreWear s ok) := by
  unfold State.restoreWear
  repeat' first
    | with_reducible apply Ev.refl
    | with_reducible assumption
    | (extract_lets +onlyGivenNames y; with_reducible refine Ev.keep y ?_ ?_; rotate_left; subst y; rotate_left; clear_value y; intro hy)
    | (extract_lets +onlyGivenNames x; revert x; intro _)
    | with_reducible apply Ev.then (State.onKin_ev ..)
    | (intros; show sub _ _ = true; decide)
    | split
    | with_reducible refine (?_ : Ev _ _ (ite _ _ _))
    | intro _

theorem State.restoreEntry_ev (s : State) (m : Module) : Ev [.far] s (State.restoreEntry s m) := by
  unfold State.restoreEntry
  repeat' first
    | with_reducible apply Ev.refl
    | with_reducible assumption
    | (extract_lets +onlyGivenNames y; with_reducible refine Ev.keep y ?_ ?_; rotate_left; subst y; rotate_left; clear_value y; intro hy)
    | (extract_lets +onlyGivenNames x; revert x; intro _)
    | with_reducible apply Ev.then (State.onWear_ev ..)
    | (intros; show sub _ _ = true; decide)
    | split
    | with_reducible refine (?_ : Ev _ _ (ite _ _ _))
    | intro _

theorem State.farStart_ev (s : State) (i : S2Info) : Ev [.start, .svc, .log, .mem, .far, .mirror] s (State.farStart s i) := by
  unfold State.farStart
  repeat' first
    | with_reducible apply Ev.refl
    | with_reducible assumption
    | (extract_lets +onlyGivenNames y; with_reducible refine Ev.keep y ?_ ?_; rotate_left; subst y; rotate_left; clear_value y; intro hy)
    | (extract_lets +onlyGivenNames x; revert x; intro _)
    | (with_reducible apply Ev.foldl; intro _ _ _)
    | with_reducible apply Ev.then (State.mirrorLedger_ev ..)
    | with_reducible apply Ev.then (State.onFar_ev ..)
    | with_reducible apply Ev.then (State.onStart_ev ..)
    | with_reducible apply Ev.then (State.restoreEntry_ev ..)
    | with_reducible apply Ev.then (State.takeEntry_ev ..)
    | with_reducible apply Ev.then (State.wearCheck_ev ..)
    | with_reducible apply Ev.then (State.writeLost_ev ..)
    | (intros; show sub _ _ = true; decide)
    | split
    | with_reducible refine (?_ : Ev _ _ (ite _ _ _))
    | intro _

theorem State.fenceHot_ev (s : State) : Ev [.mem, .stks, .map] s (State.fenceHot s) := by
  unfold State.fenceHot
  repeat' first
    | with_reducible apply Ev.refl
    | with_reducible assumption
    | (extract_lets +onlyGivenNames y; with_reducible refine Ev.keep y ?_ ?_; rotate_left; subst y; rotate_left; clear_value y; intro hy)
    | (extract_lets +onlyGivenNames x; revert x; intro _)
    | (with_reducible apply Ev.foldl; intro _ _ _)
    | with_reducible apply Ev.then (State.raiseLevel_ev ..)
    | (intros; show sub _ _ = true; decide)
    | split
    | with_reducible refine (?_ : Ev _ _ (ite _ _ _))
    | intro _

theorem State.logTrainLost_ev (s : State) (c : Nat × Nat) : Ev [.free, .svc, .log, .mem, .mirror] s (State.logTrainLost s c) := by
  unfold State.logTrainLost
  repeat' first
    | with_reducible apply Ev.refl
    | with_reducible assumption
    | (extract_lets +onlyGivenNames y; with_reducible refine Ev.keep y ?_ ?_; rotate_left; subst y; rotate_left; clear_value y; intro hy)
    | (extract_lets +onlyGivenNames x; revert x; intro _)
    | (with_reducible apply Ev.then (State.freeWord_of (by assumption)))
    | with_reducible apply Ev.then (State.freeWord_ev ..)
    | with_reducible apply Ev.then (State.logRec_ev ..)
    | (intros; show sub _ _ = true; decide)
    | split
    | with_reducible refine (?_ : Ev _ _ (ite _ _ _))
    | intro _

theorem State.trainStacks_ev (s : State) (m : MapSt) (dead : List Nat) (gone : List (Nat × Nat)) : Ev [.stks, .map] s (State.trainStacks s m dead gone) := by
  unfold State.trainStacks
  exact Ev.of id (Nat.and_self _) (fun f h => by cases f <;> first | exact absurd h (by decide) | rfl)

theorem State.skeletonMap_ev (s : State) (slots : Nat) : Ev [.stks, .map] s (State.skeletonMap s slots) := by
  unfold State.skeletonMap
  exact Ev.of id (Nat.and_self _) (fun f h => by cases f <;> first | exact absurd h (by decide) | rfl)

theorem State.stageS2_ev (s : State) (i : S2Info) : Ev [.free, .blk, .start, .svc, .log, .kin, .mem, .stks, .map, .far, .mirror] s (State.stageS2 s i) := by
  unfold State.stageS2
  repeat' first
    | with_reducible apply Ev.refl
    | with_reducible assumption
    | (extract_lets +onlyGivenNames y; with_reducible refine Ev.keep y ?_ ?_; rotate_left; subst y; rotate_left; clear_value y; intro hy)
    | (extract_lets +onlyGivenNames x; revert x; intro _)
    | (with_reducible apply Ev.foldl; intro _ _ _)
    | with_reducible apply Ev.then (State.failStage_ev ..)
    | with_reducible apply Ev.then (State.farStart_ev ..)
    | with_reducible apply Ev.then (State.fenceHot_ev ..)
    | with_reducible apply Ev.then (State.ledgerBack_ev ..)
    | with_reducible apply Ev.then (State.logRec_ev ..)
    | with_reducible apply Ev.then (State.logTrainLost_ev ..)
    | with_reducible apply Ev.then (State.mirrorLog_ev ..)
    | with_reducible apply Ev.then (State.nextStage_ev ..)
    | with_reducible apply Ev.then (State.onBlk_ev _ _ ?_)
    | with_reducible apply Ev.then (State.onStart_ev ..)
    | with_reducible apply Ev.then (State.restoreLog_ev ..)
    | with_reducible apply Ev.then (State.restoreWear_ev ..)
    | with_reducible apply Ev.then (State.trainStacks_ev ..)
    | exact Nat.and_self _
    | (intros; show sub _ _ = true; decide)
    | split
    | with_reducible refine (?_ : Ev _ _ (ite _ _ _))
    | intro _

theorem State.stageS2Skeleton_ev (s : State) (i : S2Info) : Ev [.blk, .start, .log, .kin, .mem, .stks, .map, .mirror] s (State.stageS2Skeleton s i) := by
  unfold State.stageS2Skeleton
  repeat' first
    | with_reducible apply Ev.refl
    | with_reducible assumption
    | (extract_lets +onlyGivenNames y; with_reducible refine Ev.keep y ?_ ?_; rotate_left; subst y; rotate_left; clear_value y; intro hy)
    | (extract_lets +onlyGivenNames x; revert x; intro _)
    | with_reducible apply Ev.then (State.fail_ev ..)
    | with_reducible apply Ev.then (State.mirrorLog_ev ..)
    | with_reducible apply Ev.then (State.nextStage_ev ..)
    | with_reducible apply Ev.then (State.onStart_ev ..)
    | with_reducible apply Ev.then (State.restoreLog_ev ..)
    | with_reducible apply Ev.then (State.restoreWear_ev ..)
    | with_reducible apply Ev.then (State.skeletonMap_ev ..)
    | (intros; show sub _ _ = true; decide)
    | split
    | with_reducible refine (?_ : Ev _ _ (ite _ _ _))
    | intro _

theorem State.logUnits_ev (s : State) (kind : Nat) (l : List Nat) : Ev [.free, .svc, .log, .mem, .mirror] s (State.logUnits s kind l) := by
  unfold State.logUnits
  repeat' first
    | with_reducible apply Ev.refl
    | with_reducible assumption
    | (extract_lets +onlyGivenNames y; with_reducible refine Ev.keep y ?_ ?_; rotate_left; subst y; rotate_left; clear_value y; intro hy)
    | (extract_lets +onlyGivenNames x; revert x; intro _)
    | (with_reducible apply Ev.foldl; intro _ _ _)
    | with_reducible apply Ev.then (State.logInternal_ev ..)
    | (intros; show sub _ _ = true; decide)
    | split
    | with_reducible refine (?_ : Ev _ _ (ite _ _ _))
    | intro _

theorem State.unitsTested_ev (s : State) (badA badT : List Nat) : Ev [.arrays, .cores] s (State.unitsTested s badA badT) := by
  unfold State.unitsTested
  exact Ev.of id (Nat.and_self _) (fun f h => by cases f <;> first | exact absurd h (by decide) | rfl)

theorem State.stageS3_ev (s : State) (reads : List (Nat × List DiagRead)) (badT : List Nat) : Ev [.free, .blk, .start, .svc, .log, .arrays, .cores, .mem, .mirror] s (State.stageS3 s reads badT) := by
  unfold State.stageS3
  repeat' first
    | with_reducible apply Ev.refl
    | with_reducible assumption
    | (extract_lets +onlyGivenNames y; with_reducible refine Ev.keep y ?_ ?_; rotate_left; subst y; rotate_left; clear_value y; intro hy)
    | (extract_lets +onlyGivenNames x; revert x; intro _)
    | with_reducible apply Ev.then (State.fail_ev ..)
    | with_reducible apply Ev.then (State.failStage_ev ..)
    | with_reducible apply Ev.then (State.logUnits_ev ..)
    | with_reducible apply Ev.then (State.nextStage_ev ..)
    | with_reducible apply Ev.then (State.unitsTested_ev ..)
    | (intros; show sub _ _ = true; decide)
    | split
    | with_reducible refine (?_ : Ev _ _ (ite _ _ _))
    | intro _

theorem State.marchZero_ev (s : State) : Ev [.arrays, .halves, .tun] s (State.marchZero s) := by
  unfold State.marchZero
  exact Ev.of id (Nat.and_self _) (fun f h => by cases f <;> first | exact absurd h (by decide) | rfl)

theorem State.unitsMarched_ev (s : State) (badC badS : List Nat) : Ev [.arrays, .cores] s (State.unitsMarched s badC badS) := by
  unfold State.unitsMarched
  exact Ev.of id (Nat.and_self _) (fun f h => by cases f <;> first | exact absurd h (by decide) | rfl)

theorem State.oneArray_ev (s : State) (a : Nat) : Ev [.arrays, .cores] s (State.oneArray s a) := by
  unfold State.oneArray
  exact Ev.of id (Nat.and_self _) (fun f h => by cases f <;> first | exact absurd h (by decide) | rfl)

theorem State.stageS4_ev (s : State) (badC badS badL : List Nat) : Ev [.free, .blk, .start, .svc, .log, .arrays, .halves, .cores, .tun, .mem, .mirror] s (State.stageS4 s badC badS badL) := by
  unfold State.stageS4
  repeat' first
    | with_reducible apply Ev.refl
    | with_reducible assumption
    | (extract_lets +onlyGivenNames y; with_reducible refine Ev.keep y ?_ ?_; rotate_left; subst y; rotate_left; clear_value y; intro hy)
    | (extract_lets +onlyGivenNames x; revert x; intro _)
    | with_reducible apply Ev.then (State.fail_ev ..)
    | with_reducible apply Ev.then (State.failStage_ev ..)
    | with_reducible apply Ev.then (State.logUnits_ev ..)
    | with_reducible apply Ev.then (State.marchZero_ev ..)
    | with_reducible apply Ev.then (State.nextStage_ev ..)
    | with_reducible apply Ev.then (State.onMem_ev _ _ ?_)
    | with_reducible apply Ev.then (State.oneArray_ev ..)
    | with_reducible apply Ev.then (State.unitsMarched_ev ..)
    | exact MemSt.flush_wf _
    | exact MemSt.write_wf _ _
    | exact MemSt.drop_wf _
    | exact fun h => h
    | (intros; show sub _ _ = true; decide)
    | split
    | with_reducible refine (?_ : Ev _ _ (ite _ _ _))
    | intro _

theorem State.stageS5_ev (s : State) (pass : List Bool) (img : Option (List Byte)) : Ev [.blk, .start, .svc, .log, .cp, .mem, .mirror] s (State.stageS5 s pass img) := by
  unfold State.stageS5
  repeat' first
    | with_reducible apply Ev.refl
    | with_reducible assumption
    | (extract_lets +onlyGivenNames y; with_reducible refine Ev.keep y ?_ ?_; rotate_left; subst y; rotate_left; clear_value y; intro hy)
    | (extract_lets +onlyGivenNames x; revert x; intro _)
    | with_reducible apply Ev.then (State.fail_ev ..)
    | with_reducible apply Ev.then (State.failStage_ev ..)
    | with_reducible apply Ev.then (State.logRec_ev ..)
    | with_reducible apply Ev.then (State.nextStage_ev ..)
    | with_reducible apply Ev.then (State.onBlk_ev _ _ ?_)
    | with_reducible apply Ev.then (State.onCp_ev ..)
    | with_reducible apply Ev.then (State.reset_ev ..)
    | exact Nat.and_self _
    | (intros; show sub _ _ = true; decide)
    | split
    | with_reducible refine (?_ : Ev _ _ (ite _ _ _))
    | intro _

theorem State.restoreTotals_ev (s : State) : Ev [.ctxs] s (State.restoreTotals s) := by
  unfold State.restoreTotals
  simp only [upd_ctxs]
  repeat' first
    | with_reducible apply Ev.refl
    | with_reducible assumption
    | (extract_lets +onlyGivenNames y; with_reducible refine Ev.keep y ?_ ?_; rotate_left; subst y; rotate_left; clear_value y; intro hy)
    | (extract_lets +onlyGivenNames x; revert x; intro _)
    | with_reducible apply Ev.then (State.setCtxs_ev ..)
    | (intros; show sub _ _ = true; decide)
    | split
    | with_reducible refine (?_ : Ev _ _ (ite _ _ _))
    | intro _

theorem State.stageS6_ev (s : State) : Ev [.blk, .start, .svc, .log, .kpr, .kin, .pwr, .ctxs, .qs, .cp, .arrays, .halves, .cores, .tun, .mem, .stks, .map, .far, .mirror, .xch, .port] s (State.stageS6 s) := by
  unfold State.stageS6
  repeat' first
    | with_reducible apply Ev.refl
    | with_reducible assumption
    | (extract_lets +onlyGivenNames y; with_reducible refine Ev.keep y ?_ ?_; rotate_left; subst y; rotate_left; clear_value y; intro hy)
    | (extract_lets +onlyGivenNames x; revert x; intro _)
    | with_reducible apply Ev.then (State.logRec_ev ..)
    | with_reducible apply Ev.then (State.onBlk_ev _ _ ?_)
    | with_reducible apply Ev.then (State.onKin_ev ..)
    | with_reducible apply Ev.then (State.onMap_ev ..)
    | with_reducible apply Ev.then (State.onPwr_ev ..)
    | with_reducible apply Ev.then (State.onStart_ev ..)
    | with_reducible apply Ev.then (State.onXch_ev ..)
    | with_reducible apply Ev.then (State.raiseSvc_ev ..)
    | with_reducible apply Ev.then (State.report_ev ..)
    | with_reducible apply Ev.then (State.restoreTotals_ev ..)
    | with_reducible apply Ev.then (State.target_ev ..)
    | exact Nat.and_self _
    | (intros; show sub _ _ = true; decide)
    | split
    | with_reducible refine (?_ : Ev _ _ (ite _ _ _))
    | dsimp +zetaDelta only
    | intro _

theorem execStartStageEnd_ev (e : StageEnd) (s : State) {t : State} (h : execStartStageEnd e s = .next t) : Ev [.free, .blk, .start, .svc, .log, .kpr, .kin, .pwr, .ctxs, .qs, .cp, .arrays, .halves, .cores, .tun, .mem, .stks, .map, .far, .mirror, .xch, .port] s t := by
  unfold execStartStageEnd at h
  simp only [Host.Outcome.next.injEq] at h
  subst h
  repeat' first
    | with_reducible apply Ev.refl
    | with_reducible assumption
    | (extract_lets +onlyGivenNames y; with_reducible refine Ev.keep y ?_ ?_; rotate_left; subst y; rotate_left; clear_value y; intro hy)
    | (extract_lets +onlyGivenNames x; revert x; intro _)
    | with_reducible apply Ev.then (State.beginS1_ev ..)
    | with_reducible apply Ev.then (State.failStage_ev ..)
    | with_reducible apply Ev.then (State.logUnits_ev ..)
    | with_reducible apply Ev.then (State.nextStage_ev ..)
    | with_reducible apply Ev.then (State.onKin_ev ..)
    | with_reducible apply Ev.then (State.stageS1_ev ..)
    | with_reducible apply Ev.then (State.stageS2_ev ..)
    | with_reducible apply Ev.then (State.stageS2Skeleton_ev ..)
    | with_reducible apply Ev.then (State.stageS3_ev ..)
    | with_reducible apply Ev.then (State.stageS4_ev ..)
    | with_reducible apply Ev.then (State.stageS5_ev ..)
    | with_reducible apply Ev.then (State.stageS6_ev ..)
    | (intros; show sub _ _ = true; decide)
    | split
    | with_reducible refine (?_ : Ev _ _ (ite _ _ _))
    | intro _

theorem execStartStageTimeout_ev (s : State) {t : State} (h : execStartStageTimeout s = .next t) : Ev [.start, .svc] s t := by
  unfold execStartStageTimeout at h
  simp only [Host.Outcome.next.injEq] at h
  subst h
  repeat' first
    | with_reducible apply Ev.refl
    | with_reducible assumption
    | (extract_lets +onlyGivenNames y; with_reducible refine Ev.keep y ?_ ?_; rotate_left; subst y; rotate_left; clear_value y; intro hy)
    | (extract_lets +onlyGivenNames x; revert x; intro _)
    | with_reducible apply Ev.then (State.failStage_ev ..)
    | (intros; show sub _ _ = true; decide)
    | split
    | with_reducible refine (?_ : Ev _ _ (ite _ _ _))
    | intro _

theorem execStartRetry_ev (s : State) {t : State} (h : execStartRetry s = .next t) : Ev [.blk, .start, .svc, .kpr, .kin, .pwr, .ctxs, .qs, .cp, .arrays, .halves, .cores, .tun, .mem, .stks, .map, .far, .xch, .port] s t := by
  unfold execStartRetry at h
  simp only [Host.Outcome.next.injEq] at h
  subst h
  repeat' first
    | with_reducible apply Ev.refl
    | with_reducible assumption
    | (extract_lets +onlyGivenNames y; with_reducible refine Ev.keep y ?_ ?_; rotate_left; subst y; rotate_left; clear_value y; intro hy)
    | (extract_lets +onlyGivenNames x; revert x; intro _)
    | with_reducible apply Ev.then (State.beginS1_ev ..)
    | with_reducible apply Ev.then (State.coldClear_ev ..)
    | with_reducible apply Ev.then (State.onSvc_ev ..)
    | with_reducible apply Ev.then (State.writeBack_ev ..)
    | (intros; show sub _ _ = true; decide)
    | split
    | with_reducible refine (?_ : Ev _ _ (ite _ _ _))
    | intro _

theorem execPowerOnReset_ev (straps : Word) (s : State) {t : State} (h : execPowerOnReset straps s = .next t) :
    Ev [.blk, .start, .svc, .log, .kpr, .kin, .pwr, .ctxs, .qs, .cp, .arrays, .halves, .cores, .tun, .mem, .stks, .map, .far, .xch, .port] s t := by
  cases h
  exact Ev.of (fun _ => rfl) (Nat.and_self _) (fun f h => by cases f <;> first | exact absurd h (by decide) | rfl)

theorem execResetNAssert_ev (s : State) {t : State} (h : execResetNAssert s = .next t) : Ev [.blk, .start, .svc, .kpr, .kin, .pwr, .ctxs, .qs, .cp, .arrays, .halves, .cores, .tun, .mem, .stks, .map, .far, .xch, .port] s t := by
  unfold execResetNAssert at h
  simp only [Host.Outcome.next.injEq] at h
  subst h
  repeat' first
    | with_reducible apply Ev.refl
    | with_reducible assumption
    | (extract_lets +onlyGivenNames y; with_reducible refine Ev.keep y ?_ ?_; rotate_left; subst y; rotate_left; clear_value y; intro hy)
    | (extract_lets +onlyGivenNames x; revert x; intro _)
    | with_reducible apply Ev.then (State.coldClear_ev ..)
    | with_reducible apply Ev.then (State.onStart_ev ..)
    | with_reducible apply Ev.then (State.writeBack_ev ..)
    | (intros; show sub _ _ = true; decide)
    | split
    | with_reducible refine (?_ : Ev _ _ (ite _ _ _))
    | intro _

theorem execResetNRelease_ev (straps : Word) (s : State) {t : State} (h : execResetNRelease straps s = .next t) : Ev [.blk, .start, .kin, .map, .port] s t := by
  unfold execResetNRelease at h
  simp only [Host.Outcome.next.injEq] at h
  subst h
  repeat' first
    | with_reducible apply Ev.refl
    | with_reducible assumption
    | (extract_lets +onlyGivenNames y; with_reducible refine Ev.keep y ?_ ?_; rotate_left; subst y; rotate_left; clear_value y; intro hy)
    | (extract_lets +onlyGivenNames x; revert x; intro _)
    | with_reducible apply Ev.then (State.beginS1_ev ..)
    | with_reducible apply Ev.then (State.latchStraps_ev ..)
    | with_reducible apply Ev.then (State.onPort_ev ..)
    | with_reducible apply Ev.then (State.onStart_ev ..)
    | (intros; show sub _ _ = true; decide)
    | split
    | with_reducible refine (?_ : Ev _ _ (ite _ _ _))
    | intro _

theorem State.loseCache_ev (s : State) : Ev [.free, .mem] s s.loseCache := by
  unfold State.loseCache
  have h0 : Ev [.free, .mem] s (s.onMem (fun m => m.flush (fun a => !m.resident (lineOf a)))) :=
    (State.onMem_ev s _ (fun h => MemSt.flush_wf (fun a => !s.mem.resident (lineOf a)) h)).mono (by decide)
  refine Ev.then (State.onMem_ev _ _ (fun h => MemSt.drop_wf (fun _ => true) h)) (Ev.foldl _ (fun u l h => ?_) _ _ h0) (by decide)
  split
  · exact h
  · refine Ev.then (State.onMem_ev _ _ (fun h => ?_)) (Ev.then (Ev.upd_free _ _) h (by decide)) (by decide)
    split
    · exact MemSt.flush_wf _ h
    · exact h

theorem execRailLoss_ev (s : State) {t : State} (h : execRailLoss s = .next t) : Ev [.free, .blk, .start, .svc, .kpr, .kin, .pwr, .ctxs, .qs, .cp, .arrays, .halves, .cores, .tun, .mem, .stks, .map, .far, .xch, .port] s t := by
  unfold execRailLoss at h
  simp only [Host.Outcome.next.injEq] at h
  subst h
  repeat' first
    | with_reducible apply Ev.refl
    | with_reducible assumption
    | (extract_lets +onlyGivenNames y; with_reducible refine Ev.keep y ?_ ?_; rotate_left; subst y; rotate_left; clear_value y; intro hy)
    | (extract_lets +onlyGivenNames x; revert x; intro _)
    | with_reducible apply Ev.then (State.beginS1_ev ..)
    | with_reducible apply Ev.then (State.coldClear_ev ..)
    | with_reducible apply Ev.then (State.loseCache_ev ..)
    | (intros; show sub _ _ = true; decide)
    | split
    | with_reducible refine (?_ : Ev _ _ (ite _ _ _))
    | intro _

theorem State.warmReset_ev (s : State) : Ev [.blk, .start, .svc, .ctxs, .qs, .cp, .arrays, .halves, .cores, .tun, .mem, .xch, .port] s (State.warmReset s) := by
  unfold State.warmReset
  repeat' first
    | with_reducible apply Ev.refl
    | with_reducible assumption
    | (extract_lets +onlyGivenNames y; with_reducible refine Ev.keep y ?_ ?_; rotate_left; subst y; rotate_left; clear_value y; intro hy)
    | (extract_lets +onlyGivenNames x; revert x; intro _)
    | with_reducible apply Ev.then (State.loseWork_ev ..)
    | with_reducible apply Ev.then (State.onBlk_ev _ _ ?_)
    | with_reducible apply Ev.then (State.onStart_ev ..)
    | exact Nat.and_self _
    | (intros; show sub _ _ = true; decide)
    | split
    | with_reducible refine (?_ : Ev _ _ (ite _ _ _))
    | intro _

theorem State.maskAll_ev (s : State) (log : Nat) : Ev [.cp] s (State.maskAll s log) := by
  unfold State.maskAll
  repeat' first
    | with_reducible apply Ev.refl
    | with_reducible assumption
    | (extract_lets +onlyGivenNames y; with_reducible refine Ev.keep y ?_ ?_; rotate_left; subst y; rotate_left; clear_value y; intro hy)
    | (extract_lets +onlyGivenNames x; revert x; intro _)
    | (with_reducible apply Ev.foldl; intro _ _ _)
    | with_reducible apply Ev.then (State.maskFault_ev ..)
    | (intros; show sub _ _ = true; decide)
    | split
    | with_reducible refine (?_ : Ev _ _ (ite _ _ _))
    | intro _

theorem execCpLockstepMismatch_ev (addr : Nat) (s : State) {t : State} (h : execCpLockstepMismatch addr s = .next t) : Ev [.blk, .svc, .log, .cp, .mem, .mirror] s t := by
  unfold execCpLockstepMismatch at h
  simp only [Host.Outcome.next.injEq] at h
  subst h
  repeat' first
    | with_reducible apply Ev.refl
    | with_reducible assumption
    | (extract_lets +onlyGivenNames y; with_reducible refine Ev.keep y ?_ ?_; rotate_left; subst y; rotate_left; clear_value y; intro hy)
    | (extract_lets +onlyGivenNames x; revert x; intro _)
    | with_reducible apply Ev.then (State.logRec_ev ..)
    | with_reducible apply Ev.then (State.maskAll_ev ..)
    | with_reducible apply Ev.then (State.onCp_ev ..)
    | with_reducible apply Ev.then (State.report_ev ..)
    | (intros; show sub _ _ = true; decide)
    | split
    | with_reducible refine (?_ : Ev _ _ (ite _ _ _))
    | intro _

theorem execSwitchoverResume_ev (s : State) {t : State} (h : execSwitchoverResume s = .next t) : Ev [.cp] s t := by
  unfold execSwitchoverResume at h
  simp only [Host.Outcome.next.injEq] at h
  subst h
  repeat' first
    | with_reducible apply Ev.refl
    | with_reducible assumption
    | (extract_lets +onlyGivenNames y; with_reducible refine Ev.keep y ?_ ?_; rotate_left; subst y; rotate_left; clear_value y; intro hy)
    | (extract_lets +onlyGivenNames x; revert x; intro _)
    | with_reducible apply Ev.then (State.onCp_ev ..)
    | (intros; show sub _ _ = true; decide)
    | split
    | with_reducible refine (?_ : Ev _ _ (ite _ _ _))
    | intro _

theorem execCpSelftestEnd_ev (pass0 pass1 : Bool) (s : State) {t : State} (h : execCpSelftestEnd pass0 pass1 s = .next t) : Ev [.blk, .start, .svc, .log, .cp, .mem, .mirror] s t := by
  unfold execCpSelftestEnd at h
  simp only [Host.Outcome.next.injEq] at h
  subst h
  repeat' first
    | with_reducible apply Ev.refl
    | with_reducible assumption
    | (extract_lets +onlyGivenNames y; with_reducible refine Ev.keep y ?_ ?_; rotate_left; subst y; rotate_left; clear_value y; intro hy)
    | (extract_lets +onlyGivenNames x; revert x; intro _)
    | (with_reducible apply Ev.foldl; intro _ _ _)
    | with_reducible apply Ev.then (State.fail_ev ..)
    | with_reducible apply Ev.then (State.logRec_ev ..)
    | with_reducible apply Ev.then (State.onCp_ev ..)
    | with_reducible apply Ev.then (State.report_ev ..)
    | (intros; show sub _ _ = true; decide)
    | split
    | with_reducible refine (?_ : Ev _ _ (ite _ _ _))
    | intro _

theorem State.svcDone_ev (s : State) (status : Nat) : Ev [.svc] s (State.svcDone s status) := by
  unfold State.svcDone
  repeat' first
    | with_reducible apply Ev.refl
    | with_reducible assumption
    | (extract_lets +onlyGivenNames y; with_reducible refine Ev.keep y ?_ ?_; rotate_left; subst y; rotate_left; clear_value y; intro hy)
    | (extract_lets +onlyGivenNames x; revert x; intro _)
    | with_reducible apply Ev.then (State.onSvc_ev ..)
    | with_reducible apply Ev.then (State.raiseSvc_ev ..)
    | (intros; show sub _ _ = true; decide)
    | split
    | with_reducible refine (?_ : Ev _ _ (ite _ _ _))
    | intro _

theorem State.svcReply_ev (s : State) (p : Nat) (conds : List Cond) : Ev [.svc, .mem, .port] s (State.svcReply s p conds) := by
  unfold State.svcReply
  repeat' first
    | with_reducible apply Ev.refl
    | with_reducible assumption
    | (extract_lets +onlyGivenNames y; with_reducible refine Ev.keep y ?_ ?_; rotate_left; subst y; rotate_left; clear_value y; intro hy)
    | (extract_lets +onlyGivenNames x; revert x; intro _)
    | with_reducible apply Ev.then (State.onPort_ev ..)
    | with_reducible apply Ev.then (State.onSvc_ev ..)
    | with_reducible apply Ev.then (State.store_ev ..)
    | with_reducible apply Ev.then (State.svcDone_ev ..)
    | (intros; show sub _ _ = true; decide)
    | split
    | with_reducible refine (?_ : Ev _ _ (ite _ _ _))
    | intro _

theorem withService_ev (s : State) (src : SvcSrc) (sc : Nat → Bool) (f : State → SvcArgs → State × List Cond) {l : List Field}
    (hf : ∀ u a, Ev l u (f u a).1) (hl : sub [.svc, .log, .ctxs, .qs, .cp, .mem, .mirror, .port] l = true) : Ev l s (withService s src sc f) := by
  unfold withService
  split
  · split
    · exact Ev.refl _
    · refine withPacket_ev _ _ _ _ (fun u p a pos => ?_) (sub_trans (by decide) hl)
      extract_lets args r
      split
      · exact (State.replyNow_ev ..).mono (sub_trans (by decide) hl)
      · exact (State.replyNow_ev ..).then (hf ..) (sub_trans (by decide) hl)
  · split
    · exact Ev.refl _
    · extract_lets r
      split
      · exact Ev.refl _
      · exact (State.svcReply_ev ..).then (hf ..) (sub_trans (by decide) hl)

theorem State.svcWrite_ev (s : State) (a : SvcArgs) (addr off : Nat) (bytes : List Byte) : Ev [.mem] s (State.svcWrite s a addr off bytes).1 := by
  unfold State.svcWrite
  repeat' first
    | with_reducible apply Ev.refl
    | with_reducible assumption
    | (extract_lets +onlyGivenNames y; with_reducible refine Ev.keep y ?_ ?_; rotate_left; subst y; rotate_left; clear_value y; intro hy)
    | (extract_lets +onlyGivenNames x; revert x; intro _)
    | with_reducible apply Ev.then (State.store_ev ..)
    | (intros; show sub _ _ = true; decide)
    | split
    | with_reducible refine (?_ : Ev _ _ (ite _ _ _))
    | intro _

theorem State.svcWrite_of {s : State} {a : SvcArgs} {addr off : Nat} {bytes : List Byte} {t : State} {x} (h : State.svcWrite s a addr off bytes = (t, x)) : Ev [.mem] s t := by
  have g := State.svcWrite_ev s a addr off bytes
  rw [h] at g
  exact g

theorem execSpareRead_ev (src : SvcSrc) (s : State) {t : State} (h : execSpareRead src s = .next t) : Ev [.svc, .log, .ctxs, .qs, .cp, .mem, .mirror, .port] s t := by
  unfold execSpareRead at h
  simp only [Host.Outcome.next.injEq] at h
  subst h
  repeat' first
    | with_reducible apply Ev.refl
    | with_reducible assumption
    | (extract_lets +onlyGivenNames y; with_reducible refine Ev.keep y ?_ ?_; rotate_left; subst y; rotate_left; clear_value y; intro hy)
    | (extract_lets +onlyGivenNames x; revert x; intro _)
    | (with_reducible apply Ev.then (State.svcWrite_of (by assumption)))
    | with_reducible apply Ev.then (State.svcWrite_ev ..)
    | with_reducible refine withService_ev _ _ _ _ (fun _ _ => ?_) (by decide)
    | (intros; show sub _ _ = true; decide)
    | split
    | with_reducible refine (?_ : Ev _ _ (ite _ _ _))
    | intro _

theorem State.skeletonRepaired_ev (s : State) : Ev [.start] s (State.skeletonRepaired s) := by
  unfold State.skeletonRepaired
  repeat' first
    | with_reducible apply Ev.refl
    | with_reducible assumption
    | (extract_lets +onlyGivenNames y; with_reducible refine Ev.keep y ?_ ?_; rotate_left; subst y; rotate_left; clear_value y; intro hy)
    | (extract_lets +onlyGivenNames x; revert x; intro _)
    | with_reducible apply Ev.then (State.onStart_ev ..)
    | (intros; show sub _ _ = true; decide)
    | split
    | with_reducible refine (?_ : Ev _ _ (ite _ _ _))
    | intro _

theorem execRepairAdd_ev (src : SvcSrc) (s : State) {t : State} (h : execRepairAdd src s = .next t) : Ev [.blk, .start, .svc, .log, .ctxs, .qs, .cp, .mem, .mirror, .port] s t := by
  unfold execRepairAdd at h
  simp only [Host.Outcome.next.injEq] at h
  subst h
  repeat' first
    | with_reducible apply Ev.refl
    | with_reducible assumption
    | (extract_lets +onlyGivenNames y; with_reducible refine Ev.keep y ?_ ?_; rotate_left; subst y; rotate_left; clear_value y; intro hy)
    | (extract_lets +onlyGivenNames x; revert x; intro _)
    | with_reducible apply Ev.then (State.logRec_ev ..)
    | with_reducible apply Ev.then (State.onBlk_ev _ _ ?_)
    | with_reducible apply Ev.then (State.report_ev ..)
    | with_reducible apply Ev.then (State.skeletonRepaired_ev ..)
    | with_reducible refine withService_ev _ _ _ _ (fun _ _ => ?_) (by decide)
    | exact Nat.and_self _
    | (intros; show sub _ _ = true; decide)
    | split
    | with_reducible refine (?_ : Ev _ _ (ite _ _ _))
    | intro _

theorem fuse_or (a b : Nat) : a &&& (a ||| b) = a := by
  apply Nat.eq_of_testBit_eq
  intro i
  simp only [Nat.testBit_and, Nat.testBit_or]
  cases a.testBit i <;> simp

theorem State.burnOne_of {s : State} {r : Nat} {ok : Bool} {t : State} (h : s.burnOne r ok = some t) :
    Ev [.free, .blk, .svc, .log, .mem, .mirror] s t := by
  unfold State.burnOne at h
  split at h
  · cases h
  · cases h
    refine Ev.then (State.logRec_ev ..) (Ev.then (State.onBlk_ev _ _ ?_) ?_ (m := [.blk]) (by decide)) (by decide)
    · exact fuse_or _ _
    · split
      · exact Ev.refl _
      · exact (State.freeWord_ev s).mono (by decide)

theorem State.burnAll_ev : ∀ (l : List Nat) (oks : List Bool) (s : State), Ev [.free, .blk, .svc, .log, .mem, .mirror] s (s.burnAll l oks).1
  | [], _, s => (State.report_ev s).mono (by decide)
  | r :: rs, oks, s => by
    unfold State.burnAll
    split
    · next h => exact (State.burnAll_ev rs _ _).then (State.burnOne_of h) (by decide)
    · exact (State.report_ev _).then ((State.logRec_ev ..).mono (m := [.svc, .log, .mem, .mirror]) (by decide)) (by decide)

theorem execFuseBurn_ev (src : SvcSrc) (burnOk : List Bool) (s : State) {t : State} (h : execFuseBurn src burnOk s = .next t) : Ev [.free, .blk, .start, .svc, .log, .ctxs, .qs, .cp, .mem, .mirror, .port] s t := by
  unfold execFuseBurn at h
  simp only [Host.Outcome.next.injEq] at h
  subst h
  repeat' first
    | with_reducible apply Ev.refl
    | with_reducible assumption
    | (extract_lets +onlyGivenNames y; with_reducible refine Ev.keep y ?_ ?_; rotate_left; subst y; rotate_left; clear_value y; intro hy)
    | (extract_lets +onlyGivenNames x; revert x; intro _)
    | (with_reducible apply Ev.then (State.burnAll_of (by assumption)))
    | with_reducible apply Ev.then (State.burnAll_ev ..)
    | with_reducible apply Ev.then (State.skeletonRepaired_ev ..)
    | with_reducible refine withService_ev _ _ _ _ (fun _ _ => ?_) (by decide)
    | (intros; show sub _ _ = true; decide)
    | split
    | with_reducible refine (?_ : Ev _ _ (ite _ _ _))
    | intro _

theorem execParitySet_ev (src : SvcSrc) (s : State) {t : State} (h : execParitySet src s = .next t) : Ev [.blk, .svc, .log, .ctxs, .qs, .cp, .mem, .mirror, .port] s t := by
  unfold execParitySet at h
  simp only [Host.Outcome.next.injEq] at h
  subst h
  repeat' first
    | with_reducible apply Ev.refl
    | with_reducible assumption
    | (extract_lets +onlyGivenNames y; with_reducible refine Ev.keep y ?_ ?_; rotate_left; subst y; rotate_left; clear_value y; intro hy)
    | (extract_lets +onlyGivenNames x; revert x; intro _)
    | with_reducible apply Ev.then (State.onBlk_ev _ _ ?_)
    | with_reducible refine withService_ev _ _ _ _ (fun _ _ => ?_) (by decide)
    | exact Nat.and_self _
    | (intros; show sub _ _ = true; decide)
    | split
    | with_reducible refine (?_ : Ev _ _ (ite _ _ _))
    | intro _

theorem execLoopback_ev (src : SvcSrc) (errors : List Nat) (s : State) {t : State} (h : execLoopback src errors s = .next t) : Ev [.svc, .log, .ctxs, .qs, .cp, .mem, .mirror, .port] s t := by
  unfold execLoopback at h
  simp only [Host.Outcome.next.injEq] at h
  subst h
  repeat' first
    | with_reducible apply Ev.refl
    | with_reducible assumption
    | (extract_lets +onlyGivenNames y; with_reducible refine Ev.keep y ?_ ?_; rotate_left; subst y; rotate_left; clear_value y; intro hy)
    | (extract_lets +onlyGivenNames x; revert x; intro _)
    | (with_reducible apply Ev.then (State.svcWrite_of (by assumption)))
    | with_reducible apply Ev.then (State.svcWrite_ev ..)
    | with_reducible refine withService_ev _ _ _ _ (fun _ _ => ?_) (by decide)
    | (intros; show sub _ _ = true; decide)
    | split
    | with_reducible refine (?_ : Ev _ _ (ite _ _ _))
    | intro _

theorem execWearReset_ev (src : SvcSrc) (s : State) {t : State} (h : execWearReset src s = .next t) : Ev [.svc, .log, .ctxs, .qs, .cp, .mem, .far, .mirror, .port] s t := by
  unfold execWearReset at h
  simp only [Host.Outcome.next.injEq] at h
  subst h
  repeat' first
    | with_reducible apply Ev.refl
    | with_reducible assumption
    | (extract_lets +onlyGivenNames y; with_reducible refine Ev.keep y ?_ ?_; rotate_left; subst y; rotate_left; clear_value y; intro hy)
    | (extract_lets +onlyGivenNames x; revert x; intro _)
    | with_reducible apply Ev.then (State.mirrorWear_ev ..)
    | with_reducible apply Ev.then (State.onWear_ev ..)
    | with_reducible refine withService_ev _ _ _ _ (fun _ _ => ?_) (by decide)
    | (intros; show sub _ _ = true; decide)
    | split
    | with_reducible refine (?_ : Ev _ _ (ite _ _ _))
    | intro _

theorem State.followExtent_ev (s : State) (e : Extent) (port place : Nat) : Ev [.cp] s (State.followExtent s e port place) := by
  unfold State.followExtent
  repeat' first
    | with_reducible apply Ev.refl
    | with_reducible assumption
    | (extract_lets +onlyGivenNames y; with_reducible refine Ev.keep y ?_ ?_; rotate_left; subst y; rotate_left; clear_value y; intro hy)
    | (extract_lets +onlyGivenNames x; revert x; intro _)
    | with_reducible apply Ev.then (State.onCp_ev ..)
    | with_reducible apply Ev.then (State.onEng_ev ..)
    | (intros; show sub _ _ = true; decide)
    | split
    | with_reducible refine (?_ : Ev _ _ (ite _ _ _))
    | intro _

theorem State.evacuateOne_ev (s : State) (port : Nat) (e : Extent) : Ev [.svc, .log, .cp, .mem, .far, .mirror] s (State.evacuateOne s port e).1 := by
  unfold State.evacuateOne
  repeat' first
    | with_reducible apply Ev.refl
    | with_reducible assumption
    | (extract_lets +onlyGivenNames y; with_reducible refine Ev.keep y ?_ ?_; rotate_left; subst y; rotate_left; clear_value y; intro hy)
    | (extract_lets +onlyGivenNames x; revert x; intro _)
    | with_reducible apply Ev.then (State.addWear_ev ..)
    | with_reducible apply Ev.then (State.farCopy_ev ..)
    | with_reducible apply Ev.then (State.followExtent_ev ..)
    | with_reducible apply Ev.then (State.freePlace_ev ..)
    | with_reducible apply Ev.then (State.placeExtent_ev ..)
    | (intros; show sub _ _ = true; decide)
    | split
    | with_reducible refine (?_ : Ev _ _ (ite _ _ _))
    | intro _

theorem State.evacuateOne_of {s : State} {port : Nat} {e : Extent} {t : State} {x} (h : State.evacuateOne s port e = (t, x)) : Ev [.svc, .log, .cp, .mem, .far, .mirror] s t := by
  have g := State.evacuateOne_ev s port e
  rw [h] at g
  exact g

theorem State.evacuate_ev (port : Nat) : ∀ (l : List Extent) (s : State),
    Ev [.svc, .log, .cp, .mem, .far, .mirror] s (s.evacuate port l).1
  | [], s => Ev.refl s
  | e :: r, s => by
    unfold State.evacuate
    split
    · next h => exact (State.evacuate_ev port r _).then (State.evacuateOne_of h) (by decide)
    · exact State.evacuateOne_ev ..

theorem execFarEvacuate_ev (src : SvcSrc) (s : State) {t : State} (h : execFarEvacuate src s = .next t) : Ev [.svc, .log, .ctxs, .qs, .cp, .mem, .far, .mirror, .port] s t := by
  unfold execFarEvacuate at h
  simp only [Host.Outcome.next.injEq] at h
  subst h
  repeat' first
    | with_reducible apply Ev.refl
    | with_reducible assumption
    | (extract_lets +onlyGivenNames y; with_reducible refine Ev.keep y ?_ ?_; rotate_left; subst y; rotate_left; clear_value y; intro hy)
    | (extract_lets +onlyGivenNames x; revert x; intro _)
    | (with_reducible apply Ev.then (State.evacuate_of (by assumption)))
    | with_reducible apply Ev.then (State.evacuate_ev ..)
    | with_reducible refine withService_ev _ _ _ _ (fun _ _ => ?_) (by decide)
    | (intros; show sub _ _ = true; decide)
    | split
    | with_reducible refine (?_ : Ev _ _ (ite _ _ _))
    | intro _

theorem execFrameRetag_ev (src : SvcSrc) (s : State) {t : State} (h : execFrameRetag src s = .next t) : Ev [.svc, .log, .ctxs, .qs, .cp, .mem, .mirror, .xch, .port] s t := by
  unfold execFrameRetag at h
  simp only [Host.Outcome.next.injEq] at h
  subst h
  repeat' first
    | with_reducible apply Ev.refl
    | with_reducible assumption
    | (extract_lets +onlyGivenNames y; with_reducible refine Ev.keep y ?_ ?_; rotate_left; subst y; rotate_left; clear_value y; intro hy)
    | (extract_lets +onlyGivenNames x; revert x; intro _)
    | with_reducible apply Ev.then (State.matchAll_ev ..)
    | with_reducible apply Ev.then (State.onHeld_ev ..)
    | with_reducible refine withService_ev _ _ _ _ (fun _ _ => ?_) (by decide)
    | (intros; show sub _ _ = true; decide)
    | split
    | with_reducible refine (?_ : Ev _ _ (ite _ _ _))
    | intro _

theorem execFrameDiscard_ev (src : SvcSrc) (s : State) {t : State} (h : execFrameDiscard src s = .next t) : Ev [.svc, .log, .ctxs, .qs, .cp, .mem, .mirror, .xch, .port] s t := by
  unfold execFrameDiscard at h
  simp only [Host.Outcome.next.injEq] at h
  subst h
  repeat' first
    | with_reducible apply Ev.refl
    | with_reducible assumption
    | (extract_lets +onlyGivenNames y; with_reducible refine Ev.keep y ?_ ?_; rotate_left; subst y; rotate_left; clear_value y; intro hy)
    | (extract_lets +onlyGivenNames x; revert x; intro _)
    | with_reducible apply Ev.then (State.onHeld_ev ..)
    | with_reducible refine withService_ev _ _ _ _ (fun _ _ => ?_) (by decide)
    | (intros; show sub _ _ = true; decide)
    | split
    | with_reducible refine (?_ : Ev _ _ (ite _ _ _))
    | intro _

theorem execQuiesce_ev (src : SvcSrc) (s : State) {t : State} (h : execQuiesce src s = .next t) : Ev [.blk, .svc, .log, .ctxs, .qs, .cp, .mem, .mirror, .port] s t := by
  unfold execQuiesce at h
  simp only [Host.Outcome.next.injEq] at h
  subst h
  repeat' first
    | with_reducible apply Ev.refl
    | with_reducible assumption
    | (extract_lets +onlyGivenNames y; with_reducible refine Ev.keep y ?_ ?_; rotate_left; subst y; rotate_left; clear_value y; intro hy)
    | (extract_lets +onlyGivenNames x; revert x; intro _)
    | with_reducible apply Ev.then (State.quiesce_ev ..)
    | with_reducible refine withService_ev _ _ _ _ (fun _ _ => ?_) (by decide)
    | (intros; show sub _ _ = true; decide)
    | split
    | with_reducible refine (?_ : Ev _ _ (ite _ _ _))
    | intro _

theorem execReservedSubcode_ev (src : SvcSrc) (s : State) {t : State} (h : execReservedSubcode src s = .next t) : Ev [.svc, .log, .ctxs, .qs, .cp, .mem, .mirror, .port] s t := by
  unfold execReservedSubcode at h
  simp only [Host.Outcome.next.injEq] at h
  subst h
  repeat' first
    | with_reducible apply Ev.refl
    | with_reducible assumption
    | (extract_lets +onlyGivenNames y; with_reducible refine Ev.keep y ?_ ?_; rotate_left; subst y; rotate_left; clear_value y; intro hy)
    | (extract_lets +onlyGivenNames x; revert x; intro _)
    | with_reducible apply Ev.then (State.svcReply_ev ..)
    | with_reducible refine withService_ev _ _ _ _ (fun _ _ => ?_) (by decide)
    | (intros; show sub _ _ = true; decide)
    | split
    | with_reducible refine (?_ : Ev _ _ (ite _ _ _))
    | intro _

theorem State.popHout_ev (s : State) (r : OutReq) : Ev [.port] s (State.popHout s r) := by
  unfold State.popHout
  repeat' first
    | with_reducible apply Ev.refl
    | with_reducible assumption
    | (extract_lets +onlyGivenNames y; with_reducible refine Ev.keep y ?_ ?_; rotate_left; subst y; rotate_left; clear_value y; intro hy)
    | (extract_lets +onlyGivenNames x; revert x; intro _)
    | with_reducible apply Ev.then (State.onPort_ev ..)
    | (intros; show sub _ _ = true; decide)
    | split
    | with_reducible refine (?_ : Ev _ _ (ite _ _ _))
    | intro _

theorem State.signalAnswer_ev (s : State) (k : Key) (r : OutReq) (ok : Bool) : Ev [.cp] s (State.signalAnswer s k r ok) := by
  unfold State.signalAnswer
  repeat' first
    | with_reducible apply Ev.refl
    | with_reducible assumption
    | (extract_lets +onlyGivenNames y; with_reducible refine Ev.keep y ?_ ?_; rotate_left; subst y; rotate_left; clear_value y; intro hy)
    | (extract_lets +onlyGivenNames x; revert x; intro _)
    | with_reducible apply Ev.then (State.onCmd_ev ..)
    | (intros; show sub _ _ = true; decide)
    | split
    | with_reducible refine (?_ : Ev _ _ (ite _ _ _))
    | intro _

theorem State.serviceAnswer_ev (s : State) (r : OutReq) (ok : Bool) (data : List Byte) : Ev [.svc] s (State.serviceAnswer s r ok data) := by
  unfold State.serviceAnswer
  repeat' first
    | with_reducible apply Ev.refl
    | with_reducible assumption
    | (extract_lets +onlyGivenNames y; with_reducible refine Ev.keep y ?_ ?_; rotate_left; subst y; rotate_left; clear_value y; intro hy)
    | (extract_lets +onlyGivenNames x; revert x; intro _)
    | with_reducible apply Ev.then (State.onSvc_ev ..)
    | with_reducible apply Ev.then (State.svcDone_ev ..)
    | (intros; show sub _ _ = true; decide)
    | split
    | with_reducible refine (?_ : Ev _ _ (ite _ _ _))
    | intro _

theorem execHostOutboundResponse_ev (src : OutSrc) (status : Fin 4) (data : List Byte) (s : State) {t : State}
    (h : execHostOutboundResponse src status data s = .next t) : Ev [.free, .svc, .cp, .mem, .port] s t := by
  unfold execHostOutboundResponse at h
  cases h
  split
  · exact Ev.refl _
  · next r _ =>
    extract_lets ok u v d
    have hv : Ev [.free, .svc, .cp, .mem, .port] s v := (State.freeBytes_ev ..).then ((State.popHout_ev s r).mono (l := [.free, .svc, .cp, .mem, .port]) (by decide)) (by decide)
    clear_value v d
    repeat' first
      | split
      | exact hv
      | exact (State.serviceAnswer_ev ..).then hv (by decide)
      | exact (State.signalAnswer_ev ..).then hv (by decide)
      | exact (State.engAnswer_ev ..).then hv (by decide)

theorem State.goTo_ev (s : State) (t : PState) : Ev [.kpr, .kin, .pwr] s (State.goTo s t) := by
  unfold State.goTo
  repeat' first
    | with_reducible apply Ev.refl
    | with_reducible assumption
    | (extract_lets +onlyGivenNames y; with_reducible refine Ev.keep y ?_ ?_; rotate_left; subst y; rotate_left; clear_value y; intro hy)
    | (extract_lets +onlyGivenNames x; revert x; intro _)
    | with_reducible apply Ev.then (State.driveRequest_ev ..)
    | with_reducible apply Ev.then (State.endSprint_ev ..)
    | with_reducible apply Ev.then (State.onPwr_ev ..)
    | (intros; show sub _ _ = true; decide)
    | split
    | with_reducible refine (?_ : Ev _ _ (ite _ _ _))
    | intro _

theorem State.exitDeep_ev (s : State) : Ev [.blk, .start, .svc, .kpr, .kin, .pwr, .ctxs, .qs, .cp, .arrays, .halves, .cores, .tun, .mem, .stks, .map, .far, .xch, .port] s (State.exitDeep s) := by
  unfold State.exitDeep
  repeat' first
    | with_reducible apply Ev.refl
    | with_reducible assumption
    | (extract_lets +onlyGivenNames y; with_reducible refine Ev.keep y ?_ ?_; rotate_left; subst y; rotate_left; clear_value y; intro hy)
    | (extract_lets +onlyGivenNames x; revert x; intro _)
    | with_reducible apply Ev.then (State.beginS1_ev ..)
    | with_reducible apply Ev.then (State.coldClear_ev ..)
    | (intros; show sub _ _ = true; decide)
    | split
    | with_reducible refine (?_ : Ev _ _ (ite _ _ _))
    | intro _

theorem State.setTarget_ev (s : State) (t : PState) : Ev [.blk, .start, .svc, .kpr, .kin, .pwr, .ctxs, .qs, .cp, .arrays, .halves, .cores, .tun, .mem, .stks, .map, .far, .xch, .port] s (State.setTarget s t) := by
  unfold State.setTarget
  repeat' first
    | with_reducible apply Ev.refl
    | with_reducible assumption
    | (extract_lets +onlyGivenNames y; with_reducible refine Ev.keep y ?_ ?_; rotate_left; subst y; rotate_left; clear_value y; intro hy)
    | (extract_lets +onlyGivenNames x; revert x; intro _)
    | with_reducible apply Ev.then (State.exitDeep_ev ..)
    | with_reducible apply Ev.then (State.goTo_ev ..)
    | with_reducible apply Ev.then (State.onPwr_ev ..)
    | with_reducible apply Ev.then (State.riseToCeiling_ev ..)
    | (intros; show sub _ _ = true; decide)
    | split
    | with_reducible refine (?_ : Ev _ _ (ite _ _ _))
    | intro _

theorem State.writePwr_ev (s : State) (v : Nat) : Ev [.blk, .start, .svc, .kpr, .kin, .pwr, .ctxs, .qs, .cp, .arrays, .halves, .cores, .tun, .mem, .stks, .map, .far, .xch, .port] s (State.writePwr s v) := by
  unfold State.writePwr
  repeat' first
    | with_reducible apply Ev.refl
    | with_reducible assumption
    | (extract_lets +onlyGivenNames y; with_reducible refine Ev.keep y ?_ ?_; rotate_left; subst y; rotate_left; clear_value y; intro hy)
    | (extract_lets +onlyGivenNames x; revert x; intro _)
    | with_reducible apply Ev.then (State.onPwr_ev ..)
    | with_reducible apply Ev.then (State.setTarget_ev ..)
    | (intros; show sub _ _ = true; decide)
    | split
    | with_reducible refine (?_ : Ev _ _ (ite _ _ _))
    | intro _

theorem State.writeRst_ev (s : State) (v : Nat) : Ev [.blk, .start, .svc, .ctxs, .qs, .cp, .arrays, .halves, .cores, .tun, .mem, .xch, .port] s (State.writeRst s v) := by
  unfold State.writeRst
  repeat' first
    | with_reducible apply Ev.refl
    | with_reducible assumption
    | (extract_lets +onlyGivenNames y; with_reducible refine Ev.keep y ?_ ?_; rotate_left; subst y; rotate_left; clear_value y; intro hy)
    | (extract_lets +onlyGivenNames x; revert x; intro _)
    | with_reducible apply Ev.then (State.contextResets_ev ..)
    | with_reducible apply Ev.then (State.onStart_ev ..)
    | with_reducible apply Ev.then (State.warmReset_ev ..)
    | (intros; show sub _ _ = true; decide)
    | split
    | with_reducible refine (?_ : Ev _ _ (ite _ _ _))
    | intro _

theorem State.svcGo_ev (s : State) : Ev [.svc, .port] s (State.svcGo s) := by
  unfold State.svcGo
  repeat' first
    | with_reducible apply Ev.refl
    | with_reducible assumption
    | (extract_lets +onlyGivenNames y; with_reducible refine Ev.keep y ?_ ?_; rotate_left; subst y; rotate_left; clear_value y; intro hy)
    | (extract_lets +onlyGivenNames x; revert x; intro _)
    | with_reducible apply Ev.then (State.onPort_ev ..)
    | with_reducible apply Ev.then (State.onSvc_ev ..)
    | with_reducible apply Ev.then (State.svcDone_ev ..)
    | (intros; show sub _ _ = true; decide)
    | split
    | with_reducible refine (?_ : Ev _ _ (ite _ _ _))
    | intro _

theorem State.writeSvc_ev (s : State) (v : Nat) : Ev [.svc, .port] s (State.writeSvc s v) := by
  unfold State.writeSvc
  repeat' first
    | with_reducible apply Ev.refl
    | with_reducible assumption
    | (extract_lets +onlyGivenNames y; with_reducible refine Ev.keep y ?_ ?_; rotate_left; subst y; rotate_left; clear_value y; intro hy)
    | (extract_lets +onlyGivenNames x; revert x; intro _)
    | with_reducible apply Ev.then (State.onSvc_ev ..)
    | with_reducible apply Ev.then (State.svcGo_ev ..)
    | (intros; show sub _ _ = true; decide)
    | split
    | with_reducible refine (?_ : Ev _ _ (ite _ _ _))
    | intro _

theorem State.writeLimits_ev (s : State) (v : Nat) : Ev [.kpr] s (State.writeLimits s v) := by
  unfold State.writeLimits
  repeat' first
    | with_reducible apply Ev.refl
    | with_reducible assumption
    | (extract_lets +onlyGivenNames y; with_reducible refine Ev.keep y ?_ ?_; rotate_left; subst y; rotate_left; clear_value y; intro hy)
    | (extract_lets +onlyGivenNames x; revert x; intro _)
    | with_reducible apply Ev.then (State.onKpr_ev ..)
    | (intros; show sub _ _ = true; decide)
    | split
    | with_reducible refine (?_ : Ev _ _ (ite _ _ _))
    | intro _

theorem State.latchWear_ev (s : State) : Ev [.far] s (State.latchWear s) := by
  unfold State.latchWear
  repeat' first
    | with_reducible apply Ev.refl
    | with_reducible assumption
    | (extract_lets +onlyGivenNames y; with_reducible refine Ev.keep y ?_ ?_; rotate_left; subst y; rotate_left; clear_value y; intro hy)
    | (extract_lets +onlyGivenNames x; revert x; intro _)
    | with_reducible apply Ev.then (State.onFar_ev ..)
    | (intros; show sub _ _ = true; decide)
    | split
    | with_reducible refine (?_ : Ev _ _ (ite _ _ _))
    | intro _

theorem State.writeRated_ev (s : State) (v : Nat) : Ev [.svc, .log, .mem, .far, .mirror] s (State.writeRated s v) := by
  unfold State.writeRated
  repeat' first
    | with_reducible apply Ev.refl
    | with_reducible assumption
    | (extract_lets +onlyGivenNames y; with_reducible refine Ev.keep y ?_ ?_; rotate_left; subst y; rotate_left; clear_value y; intro hy)
    | (extract_lets +onlyGivenNames x; revert x; intro _)
    | with_reducible apply Ev.then (State.mirrorWear_ev ..)
    | with_reducible apply Ev.then (State.onWear_ev ..)
    | with_reducible apply Ev.then (State.wearCheck_ev ..)
    | (intros; show sub _ _ = true; decide)
    | split
    | with_reducible refine (?_ : Ev _ _ (ite _ _ _))
    | intro _

theorem State.writeQBase_ev (s : State) (q v : Nat) : Ev [.ctxs, .qs] s (State.writeQBase s q v) := by
  unfold State.writeQBase
  repeat' first
    | with_reducible apply Ev.refl
    | with_reducible assumption
    | (extract_lets +onlyGivenNames y; with_reducible refine Ev.keep y ?_ ?_; rotate_left; subst y; rotate_left; clear_value y; intro hy)
    | (extract_lets +onlyGivenNames x; revert x; intro _)
    | with_reducible apply Ev.then (State.cmdErr_ev ..)
    | with_reducible apply Ev.then (State.onQ_ev ..)
    | (intros; show sub _ _ = true; decide)
    | split
    | with_reducible refine (?_ : Ev _ _ (ite _ _ _))
    | intro _

theorem State.writeDoorbell_ev (s : State) (q v : Nat) : Ev [.ctxs, .qs] s (State.writeDoorbell s q v) := by
  unfold State.writeDoorbell
  repeat' first
    | with_reducible apply Ev.refl
    | with_reducible assumption
    | (extract_lets +onlyGivenNames y; with_reducible refine Ev.keep y ?_ ?_; rotate_left; subst y; rotate_left; clear_value y; intro hy)
    | (extract_lets +onlyGivenNames x; revert x; intro _)
    | with_reducible apply Ev.then (State.onCtx_ev ..)
    | with_reducible apply Ev.then (State.onQ_ev ..)
    | (intros; show sub _ _ = true; decide)
    | split
    | with_reducible refine (?_ : Ev _ _ (ite _ _ _))
    | intro _

theorem State.writePeer_ev (s : State) (i v : Nat) : Ev [.xch] s (State.writePeer s i v) := by
  unfold State.writePeer
  repeat' first
    | with_reducible apply Ev.refl
    | with_reducible assumption
    | (extract_lets +onlyGivenNames y; with_reducible refine Ev.keep y ?_ ?_; rotate_left; subst y; rotate_left; clear_value y; intro hy)
    | (extract_lets +onlyGivenNames x; revert x; intro _)
    | with_reducible apply Ev.then (State.onXch_ev ..)
    | (intros; show sub _ _ = true; decide)
    | split
    | with_reducible refine (?_ : Ev _ _ (ite _ _ _))
    | intro _

theorem State.writePage_ev (s : State) (n r v : Nat) : Ev [.ctxs, .qs] s (State.writePage s n r v) := by
  unfold State.writePage
  repeat' first
    | with_reducible apply Ev.refl
    | with_reducible assumption
    | (extract_lets +onlyGivenNames y; with_reducible refine Ev.keep y ?_ ?_; rotate_left; subst y; rotate_left; clear_value y; intro hy)
    | (extract_lets +onlyGivenNames x; revert x; intro _)
    | with_reducible apply Ev.then (State.cmdErr_ev ..)
    | with_reducible apply Ev.then (State.onCtx_ev ..)
    | with_reducible apply Ev.then (State.writeDoorbell_ev ..)
    | (intros; show sub _ _ = true; decide)
    | split
    | with_reducible refine (?_ : Ev _ _ (ite _ _ _))
    | intro _

theorem State.writeReg_ev (s : State) (off v : Nat) : Ev [.blk, .start, .svc, .log, .kpr, .kin, .pwr, .ctxs, .qs, .cp, .arrays, .halves, .cores, .tun, .mem, .stks, .map, .far, .mirror, .xch, .port] s (State.writeReg s off v) := by
  unfold State.writeReg
  repeat' first
    | with_reducible apply Ev.refl
    | with_reducible assumption
    | (extract_lets +onlyGivenNames y; with_reducible refine Ev.keep y ?_ ?_; rotate_left; subst y; rotate_left; clear_value y; intro hy)
    | (extract_lets +onlyGivenNames x; revert x; intro _)
    | with_reducible apply Ev.then (State.latchWear_ev ..)
    | with_reducible apply Ev.then (State.onBlk_ev _ _ ?_)
    | with_reducible apply Ev.then (State.onFar_ev ..)
    | with_reducible apply Ev.then (State.onKpr_ev ..)
    | with_reducible apply Ev.then (State.onLog_ev ..)
    | with_reducible apply Ev.then (State.onMap_ev ..)
    | with_reducible apply Ev.then (State.onPwr_ev ..)
    | with_reducible apply Ev.then (State.onSvc_ev ..)
    | with_reducible apply Ev.then (State.onXch_ev ..)
    | with_reducible apply Ev.then (State.writeCtxCtrl_ev ..)
    | with_reducible apply Ev.then (State.writeLimits_ev ..)
    | with_reducible apply Ev.then (State.writePage_ev ..)
    | with_reducible apply Ev.then (State.writePeer_ev ..)
    | with_reducible apply Ev.then (State.writePwr_ev ..)
    | with_reducible apply Ev.then (State.writeQBase_ev ..)
    | with_reducible apply Ev.then (State.writeRated_ev ..)
    | with_reducible apply Ev.then (State.writeRst_ev ..)
    | with_reducible apply Ev.then (State.writeSvc_ev ..)
    | exact Nat.and_self _
    | (intros; show sub _ _ = true; decide)
    | split
    | with_reducible refine (?_ : Ev _ _ (ite _ _ _))
    | intro _

theorem State.keeperWrite_ev (s : State) (off v : Nat) : Ev [.blk, .start, .svc, .log, .kpr, .kin, .pwr, .ctxs, .qs, .cp, .arrays, .halves, .cores, .tun, .mem, .stks, .map, .far, .mirror, .xch, .port] s (State.keeperWrite s off v) := by
  unfold State.keeperWrite
  repeat' first
    | with_reducible apply Ev.refl
    | with_reducible assumption
    | (extract_lets +onlyGivenNames y; with_reducible refine Ev.keep y ?_ ?_; rotate_left; subst y; rotate_left; clear_value y; intro hy)
    | (extract_lets +onlyGivenNames x; revert x; intro _)
    | with_reducible apply Ev.then (State.writeReg_ev ..)
    | (intros; show sub _ _ = true; decide)
    | split
    | with_reducible refine (?_ : Ev _ _ (ite _ _ _))
    | intro _

theorem State.idleWrite_ev (s : State) (off v : Nat) : Ev [.blk, .start, .svc, .log, .kpr, .kin, .pwr, .ctxs, .qs, .cp, .arrays, .halves, .cores, .tun, .mem, .stks, .map, .far, .mirror, .xch, .port] s (State.idleWrite s off v) := by
  unfold State.idleWrite
  repeat' first
    | with_reducible apply Ev.refl
    | with_reducible assumption
    | (extract_lets +onlyGivenNames y; with_reducible refine Ev.keep y ?_ ?_; rotate_left; subst y; rotate_left; clear_value y; intro hy)
    | (extract_lets +onlyGivenNames x; revert x; intro _)
    | with_reducible apply Ev.then (State.onPwr_ev ..)
    | with_reducible apply Ev.then (State.wake_ev ..)
    | with_reducible apply Ev.then (State.writeReg_ev ..)
    | (intros; show sub _ _ = true; decide)
    | split
    | with_reducible refine (?_ : Ev _ _ (ite _ _ _))
    | intro _

theorem State.regWrite_ev (s : State) (off v : Nat) : Ev [.blk, .start, .svc, .log, .kpr, .kin, .pwr, .ctxs, .qs, .cp, .arrays, .halves, .cores, .tun, .mem, .stks, .map, .far, .mirror, .xch, .port] s (State.regWrite s off v) := by
  unfold State.regWrite
  repeat' first
    | with_reducible apply Ev.refl
    | with_reducible assumption
    | (extract_lets +onlyGivenNames y; with_reducible refine Ev.keep y ?_ ?_; rotate_left; subst y; rotate_left; clear_value y; intro hy)
    | (extract_lets +onlyGivenNames x; revert x; intro _)
    | with_reducible apply Ev.then (State.idleWrite_ev ..)
    | with_reducible apply Ev.then (State.keeperWrite_ev ..)
    | with_reducible apply Ev.then (State.writeReg_ev ..)
    | (intros; show sub _ _ = true; decide)
    | split
    | with_reducible refine (?_ : Ev _ _ (ite _ _ _))
    | intro _

theorem execQDoorbellWrite_ev (q : QIx) (value : Word) (s : State) {t : State} (h : execQDoorbellWrite q value s = .next t) : Ev [.blk, .start, .svc, .log, .kpr, .kin, .pwr, .ctxs, .qs, .cp, .arrays, .halves, .cores, .tun, .mem, .stks, .map, .far, .mirror, .xch, .port] s t := by
  unfold execQDoorbellWrite at h
  simp only [Host.Outcome.next.injEq] at h
  subst h
  repeat' first
    | with_reducible apply Ev.refl
    | with_reducible assumption
    | (extract_lets +onlyGivenNames y; with_reducible refine Ev.keep y ?_ ?_; rotate_left; subst y; rotate_left; clear_value y; intro hy)
    | (extract_lets +onlyGivenNames x; revert x; intro _)
    | with_reducible apply Ev.then (State.regWrite_ev ..)
    | (intros; show sub _ _ = true; decide)
    | split
    | with_reducible refine (?_ : Ev _ _ (ite _ _ _))
    | intro _

theorem execQBaseWrite_ev (q : QIx) (value : Word) (s : State) {t : State} (h : execQBaseWrite q value s = .next t) : Ev [.blk, .start, .svc, .log, .kpr, .kin, .pwr, .ctxs, .qs, .cp, .arrays, .halves, .cores, .tun, .mem, .stks, .map, .far, .mirror, .xch, .port] s t := by
  unfold execQBaseWrite at h
  simp only [Host.Outcome.next.injEq] at h
  subst h
  repeat' first
    | with_reducible apply Ev.refl
    | with_reducible assumption
    | (extract_lets +onlyGivenNames y; with_reducible refine Ev.keep y ?_ ?_; rotate_left; subst y; rotate_left; clear_value y; intro hy)
    | (extract_lets +onlyGivenNames x; revert x; intro _)
    | with_reducible apply Ev.then (State.regWrite_ev ..)
    | (intros; show sub _ _ = true; decide)
    | split
    | with_reducible refine (?_ : Ev _ _ (ite _ _ _))
    | intro _

theorem State.ctxCtrl_ev (s : State) (n cmd : Nat) (value : Word) : Ev [.blk, .start, .svc, .log, .kpr, .kin, .pwr, .ctxs, .qs, .cp, .arrays, .halves, .cores, .tun, .mem, .stks, .map, .far, .mirror, .xch, .port] s (State.ctxCtrl s n cmd value) := by
  unfold State.ctxCtrl
  repeat' first
    | with_reducible apply Ev.refl
    | with_reducible assumption
    | (extract_lets +onlyGivenNames y; with_reducible refine Ev.keep y ?_ ?_; rotate_left; subst y; rotate_left; clear_value y; intro hy)
    | (extract_lets +onlyGivenNames x; revert x; intro _)
    | with_reducible apply Ev.then (State.regWrite_ev ..)
    | (intros; show sub _ _ = true; decide)
    | split
    | with_reducible refine (?_ : Ev _ _ (ite _ _ _))
    | intro _

theorem execEnable_ev (n : CIx) (value : Word) (s : State) {t : State} (h : execEnable n value s = .next t) : Ev [.blk, .start, .svc, .log, .kpr, .kin, .pwr, .ctxs, .qs, .cp, .arrays, .halves, .cores, .tun, .mem, .stks, .map, .far, .mirror, .xch, .port] s t := by
  unfold execEnable at h
  simp only [Host.Outcome.next.injEq] at h
  subst h
  repeat' first
    | with_reducible apply Ev.refl
    | with_reducible assumption
    | (extract_lets +onlyGivenNames y; with_reducible refine Ev.keep y ?_ ?_; rotate_left; subst y; rotate_left; clear_value y; intro hy)
    | (extract_lets +onlyGivenNames x; revert x; intro _)
    | with_reducible apply Ev.then (State.ctxCtrl_ev ..)
    | (intros; show sub _ _ = true; decide)
    | split
    | with_reducible refine (?_ : Ev _ _ (ite _ _ _))
    | intro _

theorem execDisable_ev (n : CIx) (value : Word) (s : State) {t : State} (h : execDisable n value s = .next t) : Ev [.blk, .start, .svc, .log, .kpr, .kin, .pwr, .ctxs, .qs, .cp, .arrays, .halves, .cores, .tun, .mem, .stks, .map, .far, .mirror, .xch, .port] s t := by
  unfold execDisable at h
  simp only [Host.Outcome.next.injEq] at h
  subst h
  repeat' first
    | with_reducible apply Ev.refl
    | with_reducible assumption
    | (extract_lets +onlyGivenNames y; with_reducible refine Ev.keep y ?_ ?_; rotate_left; subst y; rotate_left; clear_value y; intro hy)
    | (extract_lets +onlyGivenNames x; revert x; intro _)
    | with_reducible apply Ev.then (State.ctxCtrl_ev ..)
    | (intros; show sub _ _ = true; decide)
    | split
    | with_reducible refine (?_ : Ev _ _ (ite _ _ _))
    | intro _

theorem execPreempt_ev (n : CIx) (value : Word) (s : State) {t : State} (h : execPreempt n value s = .next t) : Ev [.blk, .start, .svc, .log, .kpr, .kin, .pwr, .ctxs, .qs, .cp, .arrays, .halves, .cores, .tun, .mem, .stks, .map, .far, .mirror, .xch, .port] s t := by
  unfold execPreempt at h
  simp only [Host.Outcome.next.injEq] at h
  subst h
  repeat' first
    | with_reducible apply Ev.refl
    | with_reducible assumption
    | (extract_lets +onlyGivenNames y; with_reducible refine Ev.keep y ?_ ?_; rotate_left; subst y; rotate_left; clear_value y; intro hy)
    | (extract_lets +onlyGivenNames x; revert x; intro _)
    | with_reducible apply Ev.then (State.ctxCtrl_ev ..)
    | (intros; show sub _ _ = true; decide)
    | split
    | with_reducible refine (?_ : Ev _ _ (ite _ _ _))
    | intro _

theorem execResume_ev (n : CIx) (value : Word) (s : State) {t : State} (h : execResume n value s = .next t) : Ev [.blk, .start, .svc, .log, .kpr, .kin, .pwr, .ctxs, .qs, .cp, .arrays, .halves, .cores, .tun, .mem, .stks, .map, .far, .mirror, .xch, .port] s t := by
  unfold execResume at h
  simp only [Host.Outcome.next.injEq] at h
  subst h
  repeat' first
    | with_reducible apply Ev.refl
    | with_reducible assumption
    | (extract_lets +onlyGivenNames y; with_reducible refine Ev.keep y ?_ ?_; rotate_left; subst y; rotate_left; clear_value y; intro hy)
    | (extract_lets +onlyGivenNames x; revert x; intro _)
    | with_reducible apply Ev.then (State.ctxCtrl_ev ..)
    | (intros; show sub _ _ = true; decide)
    | split
    | with_reducible refine (?_ : Ev _ _ (ite _ _ _))
    | intro _

theorem execWarmReset_ev (value : Word) (s : State) {t : State} (h : execWarmReset value s = .next t) : Ev [.blk, .start, .svc, .log, .kpr, .kin, .pwr, .ctxs, .qs, .cp, .arrays, .halves, .cores, .tun, .mem, .stks, .map, .far, .mirror, .xch, .port] s t := by
  unfold execWarmReset at h
  simp only [Host.Outcome.next.injEq] at h
  subst h
  repeat' first
    | with_reducible apply Ev.refl
    | with_reducible assumption
    | (extract_lets +onlyGivenNames y; with_reducible refine Ev.keep y ?_ ?_; rotate_left; subst y; rotate_left; clear_value y; intro hy)
    | (extract_lets +onlyGivenNames x; revert x; intro _)
    | with_reducible apply Ev.then (State.regWrite_ev ..)
    | (intros; show sub _ _ = true; decide)
    | split
    | with_reducible refine (?_ : Ev _ _ (ite _ _ _))
    | intro _

theorem execAttemptsClr_ev (value : Word) (s : State) {t : State} (h : execAttemptsClr value s = .next t) : Ev [.blk, .start, .svc, .log, .kpr, .kin, .pwr, .ctxs, .qs, .cp, .arrays, .halves, .cores, .tun, .mem, .stks, .map, .far, .mirror, .xch, .port] s t := by
  unfold execAttemptsClr at h
  simp only [Host.Outcome.next.injEq] at h
  subst h
  repeat' first
    | with_reducible apply Ev.refl
    | with_reducible assumption
    | (extract_lets +onlyGivenNames y; with_reducible refine Ev.keep y ?_ ?_; rotate_left; subst y; rotate_left; clear_value y; intro hy)
    | (extract_lets +onlyGivenNames x; revert x; intro _)
    | with_reducible apply Ev.then (State.regWrite_ev ..)
    | (intros; show sub _ _ = true; decide)
    | split
    | with_reducible refine (?_ : Ev _ _ (ite _ _ _))
    | intro _

theorem execContextReset_ev (value : Word) (s : State) {t : State} (h : execContextReset value s = .next t) : Ev [.blk, .start, .svc, .log, .kpr, .kin, .pwr, .ctxs, .qs, .cp, .arrays, .halves, .cores, .tun, .mem, .stks, .map, .far, .mirror, .xch, .port] s t := by
  unfold execContextReset at h
  simp only [Host.Outcome.next.injEq] at h
  subst h
  repeat' first
    | with_reducible apply Ev.refl
    | with_reducible assumption
    | (extract_lets +onlyGivenNames y; with_reducible refine Ev.keep y ?_ ?_; rotate_left; subst y; rotate_left; clear_value y; intro hy)
    | (extract_lets +onlyGivenNames x; revert x; intro _)
    | with_reducible apply Ev.then (State.regWrite_ev ..)
    | (intros; show sub _ _ = true; decide)
    | split
    | with_reducible refine (?_ : Ev _ _ (ite _ _ _))
    | intro _

theorem State.target_ev (s : State) (t : Nat) (value : Word) : Ev [.blk, .start, .svc, .log, .kpr, .kin, .pwr, .ctxs, .qs, .cp, .arrays, .halves, .cores, .tun, .mem, .stks, .map, .far, .mirror, .xch, .port] s (State.target s t value) := by
  unfold State.target
  repeat' first
    | with_reducible apply Ev.refl
    | with_reducible assumption
    | (extract_lets +onlyGivenNames y; with_reducible refine Ev.keep y ?_ ?_; rotate_left; subst y; rotate_left; clear_value y; intro hy)
    | (extract_lets +onlyGivenNames x; revert x; intro _)
    | with_reducible apply Ev.then (State.regWrite_ev ..)
    | (intros; show sub _ _ = true; decide)
    | split
    | with_reducible refine (?_ : Ev _ _ (ite _ _ _))
    | intro _

theorem execTargetActive_ev (value : Word) (s : State) {t : State} (h : execTargetActive value s = .next t) : Ev [.blk, .start, .svc, .log, .kpr, .kin, .pwr, .ctxs, .qs, .cp, .arrays, .halves, .cores, .tun, .mem, .stks, .map, .far, .mirror, .xch, .port] s t := by
  unfold execTargetActive at h
  simp only [Host.Outcome.next.injEq] at h
  subst h
  repeat' first
    | with_reducible apply Ev.refl
    | with_reducible assumption
    | (extract_lets +onlyGivenNames y; with_reducible refine Ev.keep y ?_ ?_; rotate_left; subst y; rotate_left; clear_value y; intro hy)
    | (extract_lets +onlyGivenNames x; revert x; intro _)
    | with_reducible apply Ev.then (State.target_ev ..)
    | (intros; show sub _ _ = true; decide)
    | split
    | with_reducible refine (?_ : Ev _ _ (ite _ _ _))
    | intro _

theorem execTargetIdle_ev (value : Word) (s : State) {t : State} (h : execTargetIdle value s = .next t) : Ev [.blk, .start, .svc, .log, .kpr, .kin, .pwr, .ctxs, .qs, .cp, .arrays, .halves, .cores, .tun, .mem, .stks, .map, .far, .mirror, .xch, .port] s t := by
  unfold execTargetIdle at h
  simp only [Host.Outcome.next.injEq] at h
  subst h
  repeat' first
    | with_reducible apply Ev.refl
    | with_reducible assumption
    | (extract_lets +onlyGivenNames y; with_reducible refine Ev.keep y ?_ ?_; rotate_left; subst y; rotate_left; clear_value y; intro hy)
    | (extract_lets +onlyGivenNames x; revert x; intro _)
    | with_reducible apply Ev.then (State.target_ev ..)
    | (intros; show sub _ _ = true; decide)
    | split
    | with_reducible refine (?_ : Ev _ _ (ite _ _ _))
    | intro _

theorem execTargetArraysOff_ev (value : Word) (s : State) {t : State} (h : execTargetArraysOff value s = .next t) : Ev [.blk, .start, .svc, .log, .kpr, .kin, .pwr, .ctxs, .qs, .cp, .arrays, .halves, .cores, .tun, .mem, .stks, .map, .far, .mirror, .xch, .port] s t := by
  unfold execTargetArraysOff at h
  simp only [Host.Outcome.next.injEq] at h
  subst h
  repeat' first
    | with_reducible apply Ev.refl
    | with_reducible assumption
    | (extract_lets +onlyGivenNames y; with_reducible refine Ev.keep y ?_ ?_; rotate_left; subst y; rotate_left; clear_value y; intro hy)
    | (extract_lets +onlyGivenNames x; revert x; intro _)
    | with_reducible apply Ev.then (State.target_ev ..)
    | (intros; show sub _ _ = true; decide)
    | split
    | with_reducible refine (?_ : Ev _ _ (ite _ _ _))
    | intro _

theorem execTargetDeep_ev (value : Word) (s : State) {t : State} (h : execTargetDeep value s = .next t) : Ev [.blk, .start, .svc, .log, .kpr, .kin, .pwr, .ctxs, .qs, .cp, .arrays, .halves, .cores, .tun, .mem, .stks, .map, .far, .mirror, .xch, .port] s t := by
  unfold execTargetDeep at h
  simp only [Host.Outcome.next.injEq] at h
  subst h
  repeat' first
    | with_reducible apply Ev.refl
    | with_reducible assumption
    | (extract_lets +onlyGivenNames y; with_reducible refine Ev.keep y ?_ ?_; rotate_left; subst y; rotate_left; clear_value y; intro hy)
    | (extract_lets +onlyGivenNames x; revert x; intro _)
    | with_reducible apply Ev.then (State.target_ev ..)
    | (intros; show sub _ _ = true; decide)
    | split
    | with_reducible refine (?_ : Ev _ _ (ite _ _ _))
    | intro _

theorem execKprLimitsWrite_ev (value : Word) (s : State) {t : State} (h : execKprLimitsWrite value s = .next t) : Ev [.blk, .start, .svc, .log, .kpr, .kin, .pwr, .ctxs, .qs, .cp, .arrays, .halves, .cores, .tun, .mem, .stks, .map, .far, .mirror, .xch, .port] s t := by
  unfold execKprLimitsWrite at h
  simp only [Host.Outcome.next.injEq] at h
  subst h
  repeat' first
    | with_reducible apply Ev.refl
    | with_reducible assumption
    | (extract_lets +onlyGivenNames y; with_reducible refine Ev.keep y ?_ ?_; rotate_left; subst y; rotate_left; clear_value y; intro hy)
    | (extract_lets +onlyGivenNames x; revert x; intro _)
    | with_reducible apply Ev.then (State.regWrite_ev ..)
    | (intros; show sub _ _ = true; decide)
    | split
    | with_reducible refine (?_ : Ev _ _ (ite _ _ _))
    | intro _

theorem execSprintCtrlWrite_ev (value : Word) (s : State) {t : State} (h : execSprintCtrlWrite value s = .next t) : Ev [.blk, .start, .svc, .log, .kpr, .kin, .pwr, .ctxs, .qs, .cp, .arrays, .halves, .cores, .tun, .mem, .stks, .map, .far, .mirror, .xch, .port] s t := by
  unfold execSprintCtrlWrite at h
  simp only [Host.Outcome.next.injEq] at h
  subst h
  repeat' first
    | with_reducible apply Ev.refl
    | with_reducible assumption
    | (extract_lets +onlyGivenNames y; with_reducible refine Ev.keep y ?_ ?_; rotate_left; subst y; rotate_left; clear_value y; intro hy)
    | (extract_lets +onlyGivenNames x; revert x; intro _)
    | with_reducible apply Ev.then (State.regWrite_ev ..)
    | (intros; show sub _ _ = true; decide)
    | split
    | with_reducible refine (?_ : Ev _ _ (ite _ _ _))
    | intro _

theorem execRampLimitWrite_ev (value : Word) (s : State) {t : State} (h : execRampLimitWrite value s = .next t) : Ev [.blk, .start, .svc, .log, .kpr, .kin, .pwr, .ctxs, .qs, .cp, .arrays, .halves, .cores, .tun, .mem, .stks, .map, .far, .mirror, .xch, .port] s t := by
  unfold execRampLimitWrite at h
  simp only [Host.Outcome.next.injEq] at h
  subst h
  repeat' first
    | with_reducible apply Ev.refl
    | with_reducible assumption
    | (extract_lets +onlyGivenNames y; with_reducible refine Ev.keep y ?_ ?_; rotate_left; subst y; rotate_left; clear_value y; intro hy)
    | (extract_lets +onlyGivenNames x; revert x; intro _)
    | with_reducible apply Ev.then (State.regWrite_ev ..)
    | (intros; show sub _ _ = true; decide)
    | split
    | with_reducible refine (?_ : Ev _ _ (ite _ _ _))
    | intro _

theorem execMemResvWrite_ev (value : Word) (s : State) {t : State} (h : execMemResvWrite value s = .next t) : Ev [.blk, .start, .svc, .log, .kpr, .kin, .pwr, .ctxs, .qs, .cp, .arrays, .halves, .cores, .tun, .mem, .stks, .map, .far, .mirror, .xch, .port] s t := by
  unfold execMemResvWrite at h
  simp only [Host.Outcome.next.injEq] at h
  subst h
  repeat' first
    | with_reducible apply Ev.refl
    | with_reducible assumption
    | (extract_lets +onlyGivenNames y; with_reducible refine Ev.keep y ?_ ?_; rotate_left; subst y; rotate_left; clear_value y; intro hy)
    | (extract_lets +onlyGivenNames x; revert x; intro _)
    | with_reducible apply Ev.then (State.regWrite_ev ..)
    | (intros; show sub _ _ = true; decide)
    | split
    | with_reducible refine (?_ : Ev _ _ (ite _ _ _))
    | intro _

theorem execWearLedgerIdxWrite_ev (value : Word) (s : State) {t : State} (h : execWearLedgerIdxWrite value s = .next t) : Ev [.blk, .start, .svc, .log, .kpr, .kin, .pwr, .ctxs, .qs, .cp, .arrays, .halves, .cores, .tun, .mem, .stks, .map, .far, .mirror, .xch, .port] s t := by
  unfold execWearLedgerIdxWrite at h
  simp only [Host.Outcome.next.injEq] at h
  subst h
  repeat' first
    | with_reducible apply Ev.refl
    | with_reducible assumption
    | (extract_lets +onlyGivenNames y; with_reducible refine Ev.keep y ?_ ?_; rotate_left; subst y; rotate_left; clear_value y; intro hy)
    | (extract_lets +onlyGivenNames x; revert x; intro _)
    | with_reducible apply Ev.then (State.regWrite_ev ..)
    | (intros; show sub _ _ = true; decide)
    | split
    | with_reducible refine (?_ : Ev _ _ (ite _ _ _))
    | intro _

theorem execRatedTibWrite_ev (value : Word) (s : State) {t : State} (h : execRatedTibWrite value s = .next t) : Ev [.blk, .start, .svc, .log, .kpr, .kin, .pwr, .ctxs, .qs, .cp, .arrays, .halves, .cores, .tun, .mem, .stks, .map, .far, .mirror, .xch, .port] s t := by
  unfold execRatedTibWrite at h
  simp only [Host.Outcome.next.injEq] at h
  subst h
  repeat' first
    | with_reducible apply Ev.refl
    | with_reducible assumption
    | (extract_lets +onlyGivenNames y; with_reducible refine Ev.keep y ?_ ?_; rotate_left; subst y; rotate_left; clear_value y; intro hy)
    | (extract_lets +onlyGivenNames x; revert x; intro _)
    | with_reducible apply Ev.then (State.regWrite_ev ..)
    | (intros; show sub _ _ = true; decide)
    | split
    | with_reducible refine (?_ : Ev _ _ (ite _ _ _))
    | intro _

theorem execWearLedgerDataRead_ev (s : State) {t : State} (h : execWearLedgerDataRead s = .next t) : Ev [.far, .port] s t := by
  unfold execWearLedgerDataRead at h
  simp only [Host.Outcome.next.injEq] at h
  subst h
  repeat' first
    | with_reducible apply Ev.refl
    | with_reducible assumption
    | (extract_lets +onlyGivenNames y; with_reducible refine Ev.keep y ?_ ?_; rotate_left; subst y; rotate_left; clear_value y; intro hy)
    | (extract_lets +onlyGivenNames x; revert x; intro _)
    | with_reducible apply Ev.then (State.latchWear_ev ..)
    | with_reducible apply Ev.then (State.onPort_ev ..)
    | (intros; show sub _ _ = true; decide)
    | split
    | with_reducible refine (?_ : Ev _ _ (ite _ _ _))
    | intro _

theorem execRegisterWrite_ev (offset : Nat) (value : Word) (s : State) {t : State} (h : execRegisterWrite offset value s = .next t) : Ev [.blk, .start, .svc, .log, .kpr, .kin, .pwr, .ctxs, .qs, .cp, .arrays, .halves, .cores, .tun, .mem, .stks, .map, .far, .mirror, .xch, .port] s t := by
  unfold execRegisterWrite at h
  simp only [Host.Outcome.next.injEq] at h
  subst h
  repeat' first
    | with_reducible apply Ev.refl
    | with_reducible assumption
    | (extract_lets +onlyGivenNames y; with_reducible refine Ev.keep y ?_ ?_; rotate_left; subst y; rotate_left; clear_value y; intro hy)
    | (extract_lets +onlyGivenNames x; revert x; intro _)
    | with_reducible apply Ev.then (State.regWrite_ev ..)
    | (intros; show sub _ _ = true; decide)
    | split
    | with_reducible refine (?_ : Ev _ _ (ite _ _ _))
    | intro _

theorem execAutoIdleExpiry_ev (s : State) {t : State} (h : execAutoIdleExpiry s = .next t) : Ev [.kpr, .kin, .pwr] s t := by
  unfold execAutoIdleExpiry at h
  simp only [Host.Outcome.next.injEq] at h
  subst h
  repeat' first
    | with_reducible apply Ev.refl
    | with_reducible assumption
    | (extract_lets +onlyGivenNames y; with_reducible refine Ev.keep y ?_ ?_; rotate_left; subst y; rotate_left; clear_value y; intro hy)
    | (extract_lets +onlyGivenNames x; revert x; intro _)
    | with_reducible apply Ev.then (State.goTo_ev ..)
    | (intros; show sub _ _ = true; decide)
    | split
    | with_reducible refine (?_ : Ev _ _ (ite _ _ _))
    | intro _

theorem execIdleWake_ev (src : WakeSrc) (s : State) {t : State} (h : execIdleWake src s = .next t) : Ev [.blk, .start, .svc, .log, .kpr, .kin, .pwr, .ctxs, .qs, .cp, .arrays, .halves, .cores, .tun, .mem, .stks, .map, .far, .mirror, .xch, .port] s t := by
  unfold execIdleWake at h
  simp only [Host.Outcome.next.injEq] at h
  subst h
  repeat' first
    | with_reducible apply Ev.refl
    | with_reducible assumption
    | (extract_lets +onlyGivenNames y; with_reducible refine Ev.keep y ?_ ?_; rotate_left; subst y; rotate_left; clear_value y; intro hy)
    | (extract_lets +onlyGivenNames x; revert x; intro _)
    | with_reducible apply Ev.then (State.regWrite_ev ..)
    | with_reducible apply Ev.then (State.wake_ev ..)
    | (intros; show sub _ _ = true; decide)
    | split
    | with_reducible refine (?_ : Ev _ _ (ite _ _ _))
    | intro _

theorem State.gateArrays_ev (s : State) : Ev [.arrays] s (State.gateArrays s) := by
  unfold State.gateArrays
  repeat' first
    | with_reducible apply Ev.refl
    | with_reducible assumption
    | (extract_lets +onlyGivenNames y; with_reducible refine Ev.keep y ?_ ?_; rotate_left; subst y; rotate_left; clear_value y; intro hy)
    | (extract_lets +onlyGivenNames x; revert x; intro _)
    | (with_reducible apply Ev.foldl; intro _ _ _)
    | with_reducible apply Ev.then (State.onArray_ev ..)
    | (intros; show sub _ _ = true; decide)
    | split
    | with_reducible refine (?_ : Ev _ _ (ite _ _ _))
    | intro _

theorem State.saveTotals_ev (s : State) : Ev [.mem, .mirror] s (State.saveTotals s) := by
  unfold State.saveTotals
  repeat' first
    | with_reducible apply Ev.refl
    | with_reducible assumption
    | (extract_lets +onlyGivenNames y; with_reducible refine Ev.keep y ?_ ?_; rotate_left; subst y; rotate_left; clear_value y; intro hy)
    | (extract_lets +onlyGivenNames x; revert x; intro _)
    | with_reducible apply Ev.then (State.mirrorBytes_ev ..)
    | with_reducible apply Ev.then (State.onMirror_ev ..)
    | (intros; show sub _ _ = true; decide)
    | split
    | with_reducible refine (?_ : Ev _ _ (ite _ _ _))
    | intro _

theorem execPowerStateReached_ev (s : State) {t : State} (h : execPowerStateReached s = .next t) : Ev [.blk, .start, .svc, .log, .kpr, .kin, .pwr, .ctxs, .qs, .cp, .arrays, .halves, .cores, .tun, .mem, .stks, .map, .far, .mirror, .xch, .port] s t := by
  unfold execPowerStateReached at h
  simp only [Host.Outcome.next.injEq] at h
  subst h
  repeat' first
    | with_reducible apply Ev.refl
    | with_reducible assumption
    | (extract_lets +onlyGivenNames y; with_reducible refine Ev.keep y ?_ ?_; rotate_left; subst y; rotate_left; clear_value y; intro hy)
    | (extract_lets +onlyGivenNames x; revert x; intro _)
    | (with_reducible apply Ev.foldl; intro _ _ _)
    | with_reducible apply Ev.then (State.driveRequest_ev ..)
    | with_reducible apply Ev.then (State.gateArrays_ev ..)
    | with_reducible apply Ev.then (State.onKpr_ev ..)
    | with_reducible apply Ev.then (State.onPwr_ev ..)
    | with_reducible apply Ev.then (State.regWrite_ev ..)
    | with_reducible apply Ev.then (State.saveTotals_ev ..)
    | with_reducible apply Ev.then (State.writeBack_ev ..)
    | (intros; show sub _ _ = true; decide)
    | split
    | with_reducible refine (?_ : Ev _ _ (ite _ _ _))
    | intro _

theorem State.instrument_ev (s : State) (i out : Nat) : Ev [.port] s (State.instrument s i out) := by
  unfold State.instrument
  repeat' first
    | with_reducible apply Ev.refl
    | with_reducible assumption
    | (extract_lets +onlyGivenNames y; with_reducible refine Ev.keep y ?_ ?_; rotate_left; subst y; rotate_left; clear_value y; intro hy)
    | (extract_lets +onlyGivenNames x; revert x; intro _)
    | with_reducible apply Ev.then (State.onPort_ev ..)
    | (intros; show sub _ _ = true; decide)
    | split
    | with_reducible refine (?_ : Ev _ _ (ite _ _ _))
    | intro _

theorem State.wrapper_ev (s : State) (w : Wir) : Ev [.port] s (State.wrapper s w) := by
  unfold State.wrapper
  repeat' first
    | with_reducible apply Ev.refl
    | with_reducible assumption
    | (extract_lets +onlyGivenNames y; with_reducible refine Ev.keep y ?_ ?_; rotate_left; subst y; rotate_left; clear_value y; intro hy)
    | (extract_lets +onlyGivenNames x; revert x; intro _)
    | with_reducible apply Ev.then (State.onPort_ev ..)
    | (intros; show sub _ _ = true; decide)
    | split
    | with_reducible refine (?_ : Ev _ _ (ite _ _ _))
    | intro _

theorem execAbist_ev (_a : AIx) (reads : List DiagRead) (s : State) {t : State} (h : execAbist _a reads s = .next t) : Ev [.port] s t := by
  unfold execAbist at h
  simp only [Host.Outcome.next.injEq] at h
  subst h
  repeat' first
    | with_reducible apply Ev.refl
    | with_reducible assumption
    | (extract_lets +onlyGivenNames y; with_reducible refine Ev.keep y ?_ ?_; rotate_left; subst y; rotate_left; clear_value y; intro hy)
    | (extract_lets +onlyGivenNames x; revert x; intro _)
    | with_reducible apply Ev.then (State.instrument_ev ..)
    | (intros; show sub _ _ = true; decide)
    | split
    | with_reducible refine (?_ : Ev _ _ (ite _ _ _))
    | intro _

theorem execMbist_ev (_mem : Nat) (pass : Bool) (s : State) {t : State} (h : execMbist _mem pass s = .next t) : Ev [.port] s t := by
  unfold execMbist at h
  simp only [Host.Outcome.next.injEq] at h
  subst h
  repeat' first
    | with_reducible apply Ev.refl
    | with_reducible assumption
    | (extract_lets +onlyGivenNames y; with_reducible refine Ev.keep y ?_ ?_; rotate_left; subst y; rotate_left; clear_value y; intro hy)
    | (extract_lets +onlyGivenNames x; revert x; intro _)
    | with_reducible apply Ev.then (State.instrument_ev ..)
    | (intros; show sub _ _ = true; decide)
    | split
    | with_reducible refine (?_ : Ev _ _ (ite _ _ _))
    | intro _

theorem execFusePgm_ev (bits : Nat) (s : State) {t : State} (h : execFusePgm bits s = .next t) : Ev [.blk, .port] s t := by
  unfold execFusePgm at h
  simp only [Host.Outcome.next.injEq] at h
  subst h
  repeat' first
    | with_reducible apply Ev.refl
    | with_reducible assumption
    | (extract_lets +onlyGivenNames y; with_reducible refine Ev.keep y ?_ ?_; rotate_left; subst y; rotate_left; clear_value y; intro hy)
    | (extract_lets +onlyGivenNames x; revert x; intro _)
    | with_reducible apply Ev.then (State.instrument_ev ..)
    | with_reducible apply Ev.then (State.onBlk_ev _ _ ?_)
    | exact fuse_or _ _
    | exact Nat.and_self _
    | (intros; show sub _ _ = true; decide)
    | split
    | with_reducible refine (?_ : Ev _ _ (ite _ _ _))
    | intro _

theorem execFuseRead_ev (s : State) {t : State} (h : execFuseRead s = .next t) : Ev [.port] s t := by
  unfold execFuseRead at h
  simp only [Host.Outcome.next.injEq] at h
  subst h
  repeat' first
    | with_reducible apply Ev.refl
    | with_reducible assumption
    | (extract_lets +onlyGivenNames y; with_reducible refine Ev.keep y ?_ ?_; rotate_left; subst y; rotate_left; clear_value y; intro hy)
    | (extract_lets +onlyGivenNames x; revert x; intro _)
    | with_reducible apply Ev.then (State.instrument_ev ..)
    | (intros; show sub _ _ = true; decide)
    | split
    | with_reducible refine (?_ : Ev _ _ (ite _ _ _))
    | intro _

theorem execStatus_ev (s : State) {t : State} (h : execStatus s = .next t) : Ev [.port] s t := by
  unfold execStatus at h
  simp only [Host.Outcome.next.injEq] at h
  subst h
  repeat' first
    | with_reducible apply Ev.refl
    | with_reducible assumption
    | (extract_lets +onlyGivenNames y; with_reducible refine Ev.keep y ?_ ?_; rotate_left; subst y; rotate_left; clear_value y; intro hy)
    | (extract_lets +onlyGivenNames x; revert x; intro _)
    | with_reducible apply Ev.then (State.instrument_ev ..)
    | (intros; show sub _ _ = true; decide)
    | split
    | with_reducible refine (?_ : Ev _ _ (ite _ _ _))
    | intro _

theorem execWsBypass_ev (s : State) {t : State} (h : execWsBypass s = .next t) : Ev [.port] s t := by
  unfold execWsBypass at h
  simp only [Host.Outcome.next.injEq] at h
  subst h
  repeat' first
    | with_reducible apply Ev.refl
    | with_reducible assumption
    | (extract_lets +onlyGivenNames y; with_reducible refine Ev.keep y ?_ ?_; rotate_left; subst y; rotate_left; clear_value y; intro hy)
    | (extract_lets +onlyGivenNames x; revert x; intro _)
    | with_reducible apply Ev.then (State.wrapper_ev ..)
    | (intros; show sub _ _ = true; decide)
    | split
    | with_reducible refine (?_ : Ev _ _ (ite _ _ _))
    | intro _

theorem execWsExtest_ev (s : State) {t : State} (h : execWsExtest s = .next t) : Ev [.port] s t := by
  unfold execWsExtest at h
  simp only [Host.Outcome.next.injEq] at h
  subst h
  repeat' first
    | with_reducible apply Ev.refl
    | with_reducible assumption
    | (extract_lets +onlyGivenNames y; with_reducible refine Ev.keep y ?_ ?_; rotate_left; subst y; rotate_left; clear_value y; intro hy)
    | (extract_lets +onlyGivenNames x; revert x; intro _)
    | with_reducible apply Ev.then (State.wrapper_ev ..)
    | (intros; show sub _ _ = true; decide)
    | split
    | with_reducible refine (?_ : Ev _ _ (ite _ _ _))
    | intro _

theorem execWsIntest_ev (s : State) {t : State} (h : execWsIntest s = .next t) : Ev [.port] s t := by
  unfold execWsIntest at h
  simp only [Host.Outcome.next.injEq] at h
  subst h
  repeat' first
    | with_reducible apply Ev.refl
    | with_reducible assumption
    | (extract_lets +onlyGivenNames y; with_reducible refine Ev.keep y ?_ ?_; rotate_left; subst y; rotate_left; clear_value y; intro hy)
    | (extract_lets +onlyGivenNames x; revert x; intro _)
    | with_reducible apply Ev.then (State.wrapper_ev ..)
    | (intros; show sub _ _ = true; decide)
    | split
    | with_reducible refine (?_ : Ev _ _ (ite _ _ _))
    | intro _

theorem execWsSafe_ev (s : State) {t : State} (h : execWsSafe s = .next t) : Ev [.port] s t := by
  unfold execWsSafe at h
  simp only [Host.Outcome.next.injEq] at h
  subst h
  repeat' first
    | with_reducible apply Ev.refl
    | with_reducible assumption
    | (extract_lets +onlyGivenNames y; with_reducible refine Ev.keep y ?_ ?_; rotate_left; subst y; rotate_left; clear_value y; intro hy)
    | (extract_lets +onlyGivenNames x; revert x; intro _)
    | with_reducible apply Ev.then (State.wrapper_ev ..)
    | (intros; show sub _ _ = true; decide)
    | split
    | with_reducible refine (?_ : Ev _ _ (ite _ _ _))
    | intro _

theorem execTestEnFall_ev (s : State) {t : State} (h : execTestEnFall s = .next t) : Ev [.port] s t := by
  unfold execTestEnFall at h
  simp only [Host.Outcome.next.injEq] at h
  subst h
  repeat' first
    | with_reducible apply Ev.refl
    | with_reducible assumption
    | (extract_lets +onlyGivenNames y; with_reducible refine Ev.keep y ?_ ?_; rotate_left; subst y; rotate_left; clear_value y; intro hy)
    | (extract_lets +onlyGivenNames x; revert x; intro _)
    | with_reducible apply Ev.then (State.instrument_ev ..)
    | with_reducible apply Ev.then (State.onPort_ev ..)
    | (intros; show sub _ _ = true; decide)
    | split
    | with_reducible refine (?_ : Ev _ _ (ite _ _ _))
    | intro _

end Sys2Proof.Machine
end

