-- ==== Sys2Proof/Laws/Faults.lean ====
section
/-! SUPPORT. What can be read and written depends on the stacks, the memory map and the contents of memory alone. -/
namespace Sys2Proof.Machine

/-- Two states with the same stacks, memory map and memory, and the same size of the far-tier aperture. -/
structure SameMem (s t : State) : Prop where
  stks : t.stks = s.stks
  map : t.map = s.map
  mem : t.mem = s.mem
  far : t.far = s.far

theorem SameMem.takePacket (s : State) (q : Nat) : SameMem s (s.takePacket q) := ⟨rfl, rfl, rfl, rfl⟩

theorem SameMem.stack {s t : State} (h : SameMem s t) (x : Nat) : t.stack x = s.stack x := congrArg (vget · x) h.stks

theorem SameMem.movedOut {s t : State} (h : SameMem s t) (c : Nat × Nat) (r : Nat) : t.movedOut c r = s.movedOut c r := by
  unfold State.movedOut
  rw [h.map]

theorem SameMem.relocGranule {s t : State} (h : SameMem s t) (o : MapOut) (r : Nat) :
    relocGranule t.map o r = relocGranule s.map o r := by
  rw [h.map]

theorem SameMem.granuleFaultN {s t : State} (h : SameMem s t) : ∀ n g, granuleFaultN n t g = granuleFaultN n s g
  | 0, g => rfl
  | n + 1, g => by
    have ih := fun x => h.granuleFaultN n x
    have hl : ∀ x y, laterFenced t x y = laterFenced s x y := fun x y => by
      unfold laterFenced
      rw [h.map]
    unfold Machine.granuleFaultN
    simp only [h.map, h.mem, h.stack, h.movedOut, ih, hl]

theorem SameMem.memSound {s t : State} (h : SameMem s t) : memSound t = memSound s := by
  unfold Machine.memSound
  rw [h.mem, h.stks]

theorem SameMem.badByte {s t : State} (h : SameMem s t) (a n : Nat) : badByte t a n = badByte s a n := by
  unfold Machine.badByte validEnd
  rw [h.map, h.far]

theorem SameMem.readFault {s t : State} (h : SameMem s t) (a n : Nat) : readFault t a n = readFault s a n := by
  have hg : granuleFault t = granuleFault s := funext fun g => h.granuleFaultN 10 g
  unfold Machine.readFault heldInCache
  rw [h.memSound, h.mem, hg]

theorem SameMem.writeFault {s t : State} (h : SameMem s t) (a n : Nat) : writeFault t a n = writeFault s a n := by
  unfold Machine.writeFault
  simp only [h.memSound, h.map, h.stack]

theorem SameMem.outputFault {s t : State} (h : SameMem s t) (a n : Nat) : outputFault t a n = outputFault s a n := by
  unfold Machine.outputFault
  rw [h.badByte, h.writeFault]

theorem SameMem.nearFault {s t : State} (h : SameMem s t) (a n : Nat) : nearFault t a n = nearFault s a n := by
  unfold Machine.nearFault
  rw [h.badByte, h.readFault]

/-- An output that lies in near memory and can be written. -/
theorem outputFault_none {s : State} {a n : Nat} (hr : regionOf a = .near) (hb : badByte s a n = none)
    (hw : writeFault s a n = none) : outputFault s a n = none := by
  unfold outputFault
  rw [hb, if_neg (by simpa using hr)]
  exact hw

/-- No check fails. -/
theorem firstFail_none (l : List (Bool × Nat)) : firstFail l = none ↔ ∀ x ∈ l, x.1 = false := by
  induction l with
  | nil => simp [firstFail]
  | cons a r ih =>
    obtain ⟨b, o⟩ := a
    cases hf : firstFail r <;> cases b <;> simp_all [firstFail]

end Sys2Proof.Machine
end

