-- ==== Sys2Proof/Laws/State.lean ====
section
/-! SUPPORT. One lemma per field per named update of State, so that no proof unfolds a record update. -/
namespace Sys2Proof.Machine

@[simp] theorem State.onCp_pending (s : State) (f : Cp → Cp) : (s.onCp f).pending = s.pending := rfl
@[simp] theorem State.onCp_free (s : State) (f : Cp → Cp) : (s.onCp f).free = s.free := rfl
@[simp] theorem State.onCp_blk (s : State) (f : Cp → Cp) : (s.onCp f).blk = s.blk := rfl
@[simp] theorem State.onCp_start (s : State) (f : Cp → Cp) : (s.onCp f).start = s.start := rfl
@[simp] theorem State.onCp_svc (s : State) (f : Cp → Cp) : (s.onCp f).svc = s.svc := rfl
@[simp] theorem State.onCp_log (s : State) (f : Cp → Cp) : (s.onCp f).log = s.log := rfl
@[simp] theorem State.onCp_kpr (s : State) (f : Cp → Cp) : (s.onCp f).kpr = s.kpr := rfl
@[simp] theorem State.onCp_kin (s : State) (f : Cp → Cp) : (s.onCp f).kin = s.kin := rfl
@[simp] theorem State.onCp_pwr (s : State) (f : Cp → Cp) : (s.onCp f).pwr = s.pwr := rfl
@[simp] theorem State.onCp_ctxs (s : State) (f : Cp → Cp) : (s.onCp f).ctxs = s.ctxs := rfl
@[simp] theorem State.onCp_qs (s : State) (f : Cp → Cp) : (s.onCp f).qs = s.qs := rfl
@[simp] theorem State.onCp_cp (s : State) (f : Cp → Cp) : (s.onCp f).cp = f s.cp := rfl
@[simp] theorem State.onCp_arrays (s : State) (f : Cp → Cp) : (s.onCp f).arrays = s.arrays := rfl
@[simp] theorem State.onCp_halves (s : State) (f : Cp → Cp) : (s.onCp f).halves = s.halves := rfl
@[simp] theorem State.onCp_cores (s : State) (f : Cp → Cp) : (s.onCp f).cores = s.cores := rfl
@[simp] theorem State.onCp_tun (s : State) (f : Cp → Cp) : (s.onCp f).tun = s.tun := rfl
@[simp] theorem State.onCp_mem (s : State) (f : Cp → Cp) : (s.onCp f).mem = s.mem := rfl
@[simp] theorem State.onCp_stks (s : State) (f : Cp → Cp) : (s.onCp f).stks = s.stks := rfl
@[simp] theorem State.onCp_map (s : State) (f : Cp → Cp) : (s.onCp f).map = s.map := rfl
@[simp] theorem State.onCp_far (s : State) (f : Cp → Cp) : (s.onCp f).far = s.far := rfl
@[simp] theorem State.onCp_mirror (s : State) (f : Cp → Cp) : (s.onCp f).mirror = s.mirror := rfl
@[simp] theorem State.onCp_xch (s : State) (f : Cp → Cp) : (s.onCp f).xch = s.xch := rfl
@[simp] theorem State.onCp_port (s : State) (f : Cp → Cp) : (s.onCp f).port = s.port := rfl
@[simp] theorem State.onCp_ctx (s : State) (f : Cp → Cp) (i : Nat) : (s.onCp f).ctx i = s.ctx i := rfl
@[simp] theorem State.onCp_queue (s : State) (f : Cp → Cp) (i : Nat) : (s.onCp f).queue i = s.queue i := rfl
@[simp] theorem State.onCp_array (s : State) (f : Cp → Cp) (i : Nat) : (s.onCp f).array i = s.array i := rfl
@[simp] theorem State.onCp_half (s : State) (f : Cp → Cp) (i : Nat) : (s.onCp f).half i = s.half i := rfl
@[simp] theorem State.onCp_core (s : State) (f : Cp → Cp) (i : Nat) : (s.onCp f).core i = s.core i := rfl
@[simp] theorem State.onCp_stack (s : State) (f : Cp → Cp) (i : Nat) : (s.onCp f).stack i = s.stack i := rfl

@[simp] theorem State.onMem_pending (s : State) (f : MemSt → MemSt) : (s.onMem f).pending = s.pending := rfl
@[simp] theorem State.onMem_free (s : State) (f : MemSt → MemSt) : (s.onMem f).free = s.free := rfl
@[simp] theorem State.onMem_blk (s : State) (f : MemSt → MemSt) : (s.onMem f).blk = s.blk := rfl
@[simp] theorem State.onMem_start (s : State) (f : MemSt → MemSt) : (s.onMem f).start = s.start := rfl
@[simp] theorem State.onMem_svc (s : State) (f : MemSt → MemSt) : (s.onMem f).svc = s.svc := rfl
@[simp] theorem State.onMem_log (s : State) (f : MemSt → MemSt) : (s.onMem f).log = s.log := rfl
@[simp] theorem State.onMem_kpr (s : State) (f : MemSt → MemSt) : (s.onMem f).kpr = s.kpr := rfl
@[simp] theorem State.onMem_kin (s : State) (f : MemSt → MemSt) : (s.onMem f).kin = s.kin := rfl
@[simp] theorem State.onMem_pwr (s : State) (f : MemSt → MemSt) : (s.onMem f).pwr = s.pwr := rfl
@[simp] theorem State.onMem_ctxs (s : State) (f : MemSt → MemSt) : (s.onMem f).ctxs = s.ctxs := rfl
@[simp] theorem State.onMem_qs (s : State) (f : MemSt → MemSt) : (s.onMem f).qs = s.qs := rfl
@[simp] theorem State.onMem_cp (s : State) (f : MemSt → MemSt) : (s.onMem f).cp = s.cp := rfl
@[simp] theorem State.onMem_arrays (s : State) (f : MemSt → MemSt) : (s.onMem f).arrays = s.arrays := rfl
@[simp] theorem State.onMem_halves (s : State) (f : MemSt → MemSt) : (s.onMem f).halves = s.halves := rfl
@[simp] theorem State.onMem_cores (s : State) (f : MemSt → MemSt) : (s.onMem f).cores = s.cores := rfl
@[simp] theorem State.onMem_tun (s : State) (f : MemSt → MemSt) : (s.onMem f).tun = s.tun := rfl
@[simp] theorem State.onMem_mem (s : State) (f : MemSt → MemSt) : (s.onMem f).mem = f s.mem := rfl
@[simp] theorem State.onMem_stks (s : State) (f : MemSt → MemSt) : (s.onMem f).stks = s.stks := rfl
@[simp] theorem State.onMem_map (s : State) (f : MemSt → MemSt) : (s.onMem f).map = s.map := rfl
@[simp] theorem State.onMem_far (s : State) (f : MemSt → MemSt) : (s.onMem f).far = s.far := rfl
@[simp] theorem State.onMem_mirror (s : State) (f : MemSt → MemSt) : (s.onMem f).mirror = s.mirror := rfl
@[simp] theorem State.onMem_xch (s : State) (f : MemSt → MemSt) : (s.onMem f).xch = s.xch := rfl
@[simp] theorem State.onMem_port (s : State) (f : MemSt → MemSt) : (s.onMem f).port = s.port := rfl
@[simp] theorem State.onMem_ctx (s : State) (f : MemSt → MemSt) (i : Nat) : (s.onMem f).ctx i = s.ctx i := rfl
@[simp] theorem State.onMem_queue (s : State) (f : MemSt → MemSt) (i : Nat) : (s.onMem f).queue i = s.queue i := rfl
@[simp] theorem State.onMem_array (s : State) (f : MemSt → MemSt) (i : Nat) : (s.onMem f).array i = s.array i := rfl
@[simp] theorem State.onMem_half (s : State) (f : MemSt → MemSt) (i : Nat) : (s.onMem f).half i = s.half i := rfl
@[simp] theorem State.onMem_core (s : State) (f : MemSt → MemSt) (i : Nat) : (s.onMem f).core i = s.core i := rfl
@[simp] theorem State.onMem_stack (s : State) (f : MemSt → MemSt) (i : Nat) : (s.onMem f).stack i = s.stack i := rfl

@[simp] theorem State.onXch_pending (s : State) (f : XchSt → XchSt) : (s.onXch f).pending = s.pending := rfl
@[simp] theorem State.onXch_free (s : State) (f : XchSt → XchSt) : (s.onXch f).free = s.free := rfl
@[simp] theorem State.onXch_blk (s : State) (f : XchSt → XchSt) : (s.onXch f).blk = s.blk := rfl
@[simp] theorem State.onXch_start (s : State) (f : XchSt → XchSt) : (s.onXch f).start = s.start := rfl
@[simp] theorem State.onXch_svc (s : State) (f : XchSt → XchSt) : (s.onXch f).svc = s.svc := rfl
@[simp] theorem State.onXch_log (s : State) (f : XchSt → XchSt) : (s.onXch f).log = s.log := rfl
@[simp] theorem State.onXch_kpr (s : State) (f : XchSt → XchSt) : (s.onXch f).kpr = s.kpr := rfl
@[simp] theorem State.onXch_kin (s : State) (f : XchSt → XchSt) : (s.onXch f).kin = s.kin := rfl
@[simp] theorem State.onXch_pwr (s : State) (f : XchSt → XchSt) : (s.onXch f).pwr = s.pwr := rfl
@[simp] theorem State.onXch_ctxs (s : State) (f : XchSt → XchSt) : (s.onXch f).ctxs = s.ctxs := rfl
@[simp] theorem State.onXch_qs (s : State) (f : XchSt → XchSt) : (s.onXch f).qs = s.qs := rfl
@[simp] theorem State.onXch_cp (s : State) (f : XchSt → XchSt) : (s.onXch f).cp = s.cp := rfl
@[simp] theorem State.onXch_arrays (s : State) (f : XchSt → XchSt) : (s.onXch f).arrays = s.arrays := rfl
@[simp] theorem State.onXch_halves (s : State) (f : XchSt → XchSt) : (s.onXch f).halves = s.halves := rfl
@[simp] theorem State.onXch_cores (s : State) (f : XchSt → XchSt) : (s.onXch f).cores = s.cores := rfl
@[simp] theorem State.onXch_tun (s : State) (f : XchSt → XchSt) : (s.onXch f).tun = s.tun := rfl
@[simp] theorem State.onXch_mem (s : State) (f : XchSt → XchSt) : (s.onXch f).mem = s.mem := rfl
@[simp] theorem State.onXch_stks (s : State) (f : XchSt → XchSt) : (s.onXch f).stks = s.stks := rfl
@[simp] theorem State.onXch_map (s : State) (f : XchSt → XchSt) : (s.onXch f).map = s.map := rfl
@[simp] theorem State.onXch_far (s : State) (f : XchSt → XchSt) : (s.onXch f).far = s.far := rfl
@[simp] theorem State.onXch_mirror (s : State) (f : XchSt → XchSt) : (s.onXch f).mirror = s.mirror := rfl
@[simp] theorem State.onXch_xch (s : State) (f : XchSt → XchSt) : (s.onXch f).xch = f s.xch := rfl
@[simp] theorem State.onXch_port (s : State) (f : XchSt → XchSt) : (s.onXch f).port = s.port := rfl
@[simp] theorem State.onXch_ctx (s : State) (f : XchSt → XchSt) (i : Nat) : (s.onXch f).ctx i = s.ctx i := rfl
@[simp] theorem State.onXch_queue (s : State) (f : XchSt → XchSt) (i : Nat) : (s.onXch f).queue i = s.queue i := rfl
@[simp] theorem State.onXch_array (s : State) (f : XchSt → XchSt) (i : Nat) : (s.onXch f).array i = s.array i := rfl
@[simp] theorem State.onXch_half (s : State) (f : XchSt → XchSt) (i : Nat) : (s.onXch f).half i = s.half i := rfl
@[simp] theorem State.onXch_core (s : State) (f : XchSt → XchSt) (i : Nat) : (s.onXch f).core i = s.core i := rfl
@[simp] theorem State.onXch_stack (s : State) (f : XchSt → XchSt) (i : Nat) : (s.onXch f).stack i = s.stack i := rfl

@[simp] theorem State.onFar_pending (s : State) (f : FarSt → FarSt) : (s.onFar f).pending = s.pending := rfl
@[simp] theorem State.onFar_free (s : State) (f : FarSt → FarSt) : (s.onFar f).free = s.free := rfl
@[simp] theorem State.onFar_blk (s : State) (f : FarSt → FarSt) : (s.onFar f).blk = s.blk := rfl
@[simp] theorem State.onFar_start (s : State) (f : FarSt → FarSt) : (s.onFar f).start = s.start := rfl
@[simp] theorem State.onFar_svc (s : State) (f : FarSt → FarSt) : (s.onFar f).svc = s.svc := rfl
@[simp] theorem State.onFar_log (s : State) (f : FarSt → FarSt) : (s.onFar f).log = s.log := rfl
@[simp] theorem State.onFar_kpr (s : State) (f : FarSt → FarSt) : (s.onFar f).kpr = s.kpr := rfl
@[simp] theorem State.onFar_kin (s : State) (f : FarSt → FarSt) : (s.onFar f).kin = s.kin := rfl
@[simp] theorem State.onFar_pwr (s : State) (f : FarSt → FarSt) : (s.onFar f).pwr = s.pwr := rfl
@[simp] theorem State.onFar_ctxs (s : State) (f : FarSt → FarSt) : (s.onFar f).ctxs = s.ctxs := rfl
@[simp] theorem State.onFar_qs (s : State) (f : FarSt → FarSt) : (s.onFar f).qs = s.qs := rfl
@[simp] theorem State.onFar_cp (s : State) (f : FarSt → FarSt) : (s.onFar f).cp = s.cp := rfl
@[simp] theorem State.onFar_arrays (s : State) (f : FarSt → FarSt) : (s.onFar f).arrays = s.arrays := rfl
@[simp] theorem State.onFar_halves (s : State) (f : FarSt → FarSt) : (s.onFar f).halves = s.halves := rfl
@[simp] theorem State.onFar_cores (s : State) (f : FarSt → FarSt) : (s.onFar f).cores = s.cores := rfl
@[simp] theorem State.onFar_tun (s : State) (f : FarSt → FarSt) : (s.onFar f).tun = s.tun := rfl
@[simp] theorem State.onFar_mem (s : State) (f : FarSt → FarSt) : (s.onFar f).mem = s.mem := rfl
@[simp] theorem State.onFar_stks (s : State) (f : FarSt → FarSt) : (s.onFar f).stks = s.stks := rfl
@[simp] theorem State.onFar_map (s : State) (f : FarSt → FarSt) : (s.onFar f).map = s.map := rfl
@[simp] theorem State.onFar_far (s : State) (f : FarSt → FarSt) : (s.onFar f).far = f s.far := rfl
@[simp] theorem State.onFar_mirror (s : State) (f : FarSt → FarSt) : (s.onFar f).mirror = s.mirror := rfl
@[simp] theorem State.onFar_xch (s : State) (f : FarSt → FarSt) : (s.onFar f).xch = s.xch := rfl
@[simp] theorem State.onFar_port (s : State) (f : FarSt → FarSt) : (s.onFar f).port = s.port := rfl
@[simp] theorem State.onFar_ctx (s : State) (f : FarSt → FarSt) (i : Nat) : (s.onFar f).ctx i = s.ctx i := rfl
@[simp] theorem State.onFar_queue (s : State) (f : FarSt → FarSt) (i : Nat) : (s.onFar f).queue i = s.queue i := rfl
@[simp] theorem State.onFar_array (s : State) (f : FarSt → FarSt) (i : Nat) : (s.onFar f).array i = s.array i := rfl
@[simp] theorem State.onFar_half (s : State) (f : FarSt → FarSt) (i : Nat) : (s.onFar f).half i = s.half i := rfl
@[simp] theorem State.onFar_core (s : State) (f : FarSt → FarSt) (i : Nat) : (s.onFar f).core i = s.core i := rfl
@[simp] theorem State.onFar_stack (s : State) (f : FarSt → FarSt) (i : Nat) : (s.onFar f).stack i = s.stack i := rfl

@[simp] theorem State.onKpr_pending (s : State) (f : Kpr → Kpr) : (s.onKpr f).pending = s.pending := rfl
@[simp] theorem State.onKpr_free (s : State) (f : Kpr → Kpr) : (s.onKpr f).free = s.free := rfl
@[simp] theorem State.onKpr_blk (s : State) (f : Kpr → Kpr) : (s.onKpr f).blk = s.blk := rfl
@[simp] theorem State.onKpr_start (s : State) (f : Kpr → Kpr) : (s.onKpr f).start = s.start := rfl
@[simp] theorem State.onKpr_svc (s : State) (f : Kpr → Kpr) : (s.onKpr f).svc = s.svc := rfl
@[simp] theorem State.onKpr_log (s : State) (f : Kpr → Kpr) : (s.onKpr f).log = s.log := rfl
@[simp] theorem State.onKpr_kpr (s : State) (f : Kpr → Kpr) : (s.onKpr f).kpr = f s.kpr := rfl
@[simp] theorem State.onKpr_kin (s : State) (f : Kpr → Kpr) : (s.onKpr f).kin = s.kin := rfl
@[simp] theorem State.onKpr_pwr (s : State) (f : Kpr → Kpr) : (s.onKpr f).pwr = s.pwr := rfl
@[simp] theorem State.onKpr_ctxs (s : State) (f : Kpr → Kpr) : (s.onKpr f).ctxs = s.ctxs := rfl
@[simp] theorem State.onKpr_qs (s : State) (f : Kpr → Kpr) : (s.onKpr f).qs = s.qs := rfl
@[simp] theorem State.onKpr_cp (s : State) (f : Kpr → Kpr) : (s.onKpr f).cp = s.cp := rfl
@[simp] theorem State.onKpr_arrays (s : State) (f : Kpr → Kpr) : (s.onKpr f).arrays = s.arrays := rfl
@[simp] theorem State.onKpr_halves (s : State) (f : Kpr → Kpr) : (s.onKpr f).halves = s.halves := rfl
@[simp] theorem State.onKpr_cores (s : State) (f : Kpr → Kpr) : (s.onKpr f).cores = s.cores := rfl
@[simp] theorem State.onKpr_tun (s : State) (f : Kpr → Kpr) : (s.onKpr f).tun = s.tun := rfl
@[simp] theorem State.onKpr_mem (s : State) (f : Kpr → Kpr) : (s.onKpr f).mem = s.mem := rfl
@[simp] theorem State.onKpr_stks (s : State) (f : Kpr → Kpr) : (s.onKpr f).stks = s.stks := rfl
@[simp] theorem State.onKpr_map (s : State) (f : Kpr → Kpr) : (s.onKpr f).map = s.map := rfl
@[simp] theorem State.onKpr_far (s : State) (f : Kpr → Kpr) : (s.onKpr f).far = s.far := rfl
@[simp] theorem State.onKpr_mirror (s : State) (f : Kpr → Kpr) : (s.onKpr f).mirror = s.mirror := rfl
@[simp] theorem State.onKpr_xch (s : State) (f : Kpr → Kpr) : (s.onKpr f).xch = s.xch := rfl
@[simp] theorem State.onKpr_port (s : State) (f : Kpr → Kpr) : (s.onKpr f).port = s.port := rfl
@[simp] theorem State.onKpr_ctx (s : State) (f : Kpr → Kpr) (i : Nat) : (s.onKpr f).ctx i = s.ctx i := rfl
@[simp] theorem State.onKpr_queue (s : State) (f : Kpr → Kpr) (i : Nat) : (s.onKpr f).queue i = s.queue i := rfl
@[simp] theorem State.onKpr_array (s : State) (f : Kpr → Kpr) (i : Nat) : (s.onKpr f).array i = s.array i := rfl
@[simp] theorem State.onKpr_half (s : State) (f : Kpr → Kpr) (i : Nat) : (s.onKpr f).half i = s.half i := rfl
@[simp] theorem State.onKpr_core (s : State) (f : Kpr → Kpr) (i : Nat) : (s.onKpr f).core i = s.core i := rfl
@[simp] theorem State.onKpr_stack (s : State) (f : Kpr → Kpr) (i : Nat) : (s.onKpr f).stack i = s.stack i := rfl

@[simp] theorem State.onKin_pending (s : State) (f : KprIn → KprIn) : (s.onKin f).pending = s.pending := rfl
@[simp] theorem State.onKin_free (s : State) (f : KprIn → KprIn) : (s.onKin f).free = s.free := rfl
@[simp] theorem State.onKin_blk (s : State) (f : KprIn → KprIn) : (s.onKin f).blk = s.blk := rfl
@[simp] theorem State.onKin_start (s : State) (f : KprIn → KprIn) : (s.onKin f).start = s.start := rfl
@[simp] theorem State.onKin_svc (s : State) (f : KprIn → KprIn) : (s.onKin f).svc = s.svc := rfl
@[simp] theorem State.onKin_log (s : State) (f : KprIn → KprIn) : (s.onKin f).log = s.log := rfl
@[simp] theorem State.onKin_kpr (s : State) (f : KprIn → KprIn) : (s.onKin f).kpr = s.kpr := rfl
@[simp] theorem State.onKin_kin (s : State) (f : KprIn → KprIn) : (s.onKin f).kin = f s.kin := rfl
@[simp] theorem State.onKin_pwr (s : State) (f : KprIn → KprIn) : (s.onKin f).pwr = s.pwr := rfl
@[simp] theorem State.onKin_ctxs (s : State) (f : KprIn → KprIn) : (s.onKin f).ctxs = s.ctxs := rfl
@[simp] theorem State.onKin_qs (s : State) (f : KprIn → KprIn) : (s.onKin f).qs = s.qs := rfl
@[simp] theorem State.onKin_cp (s : State) (f : KprIn → KprIn) : (s.onKin f).cp = s.cp := rfl
@[simp] theorem State.onKin_arrays (s : State) (f : KprIn → KprIn) : (s.onKin f).arrays = s.arrays := rfl
@[simp] theorem State.onKin_halves (s : State) (f : KprIn → KprIn) : (s.onKin f).halves = s.halves := rfl
@[simp] theorem State.onKin_cores (s : State) (f : KprIn → KprIn) : (s.onKin f).cores = s.cores := rfl
@[simp] theorem State.onKin_tun (s : State) (f : KprIn → KprIn) : (s.onKin f).tun = s.tun := rfl
@[simp] theorem State.onKin_mem (s : State) (f : KprIn → KprIn) : (s.onKin f).mem = s.mem := rfl
@[simp] theorem State.onKin_stks (s : State) (f : KprIn → KprIn) : (s.onKin f).stks = s.stks := rfl
@[simp] theorem State.onKin_map (s : State) (f : KprIn → KprIn) : (s.onKin f).map = s.map := rfl
@[simp] theorem State.onKin_far (s : State) (f : KprIn → KprIn) : (s.onKin f).far = s.far := rfl
@[simp] theorem State.onKin_mirror (s : State) (f : KprIn → KprIn) : (s.onKin f).mirror = s.mirror := rfl
@[simp] theorem State.onKin_xch (s : State) (f : KprIn → KprIn) : (s.onKin f).xch = s.xch := rfl
@[simp] theorem State.onKin_port (s : State) (f : KprIn → KprIn) : (s.onKin f).port = s.port := rfl
@[simp] theorem State.onKin_ctx (s : State) (f : KprIn → KprIn) (i : Nat) : (s.onKin f).ctx i = s.ctx i := rfl
@[simp] theorem State.onKin_queue (s : State) (f : KprIn → KprIn) (i : Nat) : (s.onKin f).queue i = s.queue i := rfl
@[simp] theorem State.onKin_array (s : State) (f : KprIn → KprIn) (i : Nat) : (s.onKin f).array i = s.array i := rfl
@[simp] theorem State.onKin_half (s : State) (f : KprIn → KprIn) (i : Nat) : (s.onKin f).half i = s.half i := rfl
@[simp] theorem State.onKin_core (s : State) (f : KprIn → KprIn) (i : Nat) : (s.onKin f).core i = s.core i := rfl
@[simp] theorem State.onKin_stack (s : State) (f : KprIn → KprIn) (i : Nat) : (s.onKin f).stack i = s.stack i := rfl

@[simp] theorem State.onPwr_pending (s : State) (f : Pwr → Pwr) : (s.onPwr f).pending = s.pending := rfl
@[simp] theorem State.onPwr_free (s : State) (f : Pwr → Pwr) : (s.onPwr f).free = s.free := rfl
@[simp] theorem State.onPwr_blk (s : State) (f : Pwr → Pwr) : (s.onPwr f).blk = s.blk := rfl
@[simp] theorem State.onPwr_start (s : State) (f : Pwr → Pwr) : (s.onPwr f).start = s.start := rfl
@[simp] theorem State.onPwr_svc (s : State) (f : Pwr → Pwr) : (s.onPwr f).svc = s.svc := rfl
@[simp] theorem State.onPwr_log (s : State) (f : Pwr → Pwr) : (s.onPwr f).log = s.log := rfl
@[simp] theorem State.onPwr_kpr (s : State) (f : Pwr → Pwr) : (s.onPwr f).kpr = s.kpr := rfl
@[simp] theorem State.onPwr_kin (s : State) (f : Pwr → Pwr) : (s.onPwr f).kin = s.kin := rfl
@[simp] theorem State.onPwr_pwr (s : State) (f : Pwr → Pwr) : (s.onPwr f).pwr = f s.pwr := rfl
@[simp] theorem State.onPwr_ctxs (s : State) (f : Pwr → Pwr) : (s.onPwr f).ctxs = s.ctxs := rfl
@[simp] theorem State.onPwr_qs (s : State) (f : Pwr → Pwr) : (s.onPwr f).qs = s.qs := rfl
@[simp] theorem State.onPwr_cp (s : State) (f : Pwr → Pwr) : (s.onPwr f).cp = s.cp := rfl
@[simp] theorem State.onPwr_arrays (s : State) (f : Pwr → Pwr) : (s.onPwr f).arrays = s.arrays := rfl
@[simp] theorem State.onPwr_halves (s : State) (f : Pwr → Pwr) : (s.onPwr f).halves = s.halves := rfl
@[simp] theorem State.onPwr_cores (s : State) (f : Pwr → Pwr) : (s.onPwr f).cores = s.cores := rfl
@[simp] theorem State.onPwr_tun (s : State) (f : Pwr → Pwr) : (s.onPwr f).tun = s.tun := rfl
@[simp] theorem State.onPwr_mem (s : State) (f : Pwr → Pwr) : (s.onPwr f).mem = s.mem := rfl
@[simp] theorem State.onPwr_stks (s : State) (f : Pwr → Pwr) : (s.onPwr f).stks = s.stks := rfl
@[simp] theorem State.onPwr_map (s : State) (f : Pwr → Pwr) : (s.onPwr f).map = s.map := rfl
@[simp] theorem State.onPwr_far (s : State) (f : Pwr → Pwr) : (s.onPwr f).far = s.far := rfl
@[simp] theorem State.onPwr_mirror (s : State) (f : Pwr → Pwr) : (s.onPwr f).mirror = s.mirror := rfl
@[simp] theorem State.onPwr_xch (s : State) (f : Pwr → Pwr) : (s.onPwr f).xch = s.xch := rfl
@[simp] theorem State.onPwr_port (s : State) (f : Pwr → Pwr) : (s.onPwr f).port = s.port := rfl
@[simp] theorem State.onPwr_ctx (s : State) (f : Pwr → Pwr) (i : Nat) : (s.onPwr f).ctx i = s.ctx i := rfl
@[simp] theorem State.onPwr_queue (s : State) (f : Pwr → Pwr) (i : Nat) : (s.onPwr f).queue i = s.queue i := rfl
@[simp] theorem State.onPwr_array (s : State) (f : Pwr → Pwr) (i : Nat) : (s.onPwr f).array i = s.array i := rfl
@[simp] theorem State.onPwr_half (s : State) (f : Pwr → Pwr) (i : Nat) : (s.onPwr f).half i = s.half i := rfl
@[simp] theorem State.onPwr_core (s : State) (f : Pwr → Pwr) (i : Nat) : (s.onPwr f).core i = s.core i := rfl
@[simp] theorem State.onPwr_stack (s : State) (f : Pwr → Pwr) (i : Nat) : (s.onPwr f).stack i = s.stack i := rfl

@[simp] theorem State.onStart_pending (s : State) (f : StartSt → StartSt) : (s.onStart f).pending = s.pending := rfl
@[simp] theorem State.onStart_free (s : State) (f : StartSt → StartSt) : (s.onStart f).free = s.free := rfl
@[simp] theorem State.onStart_blk (s : State) (f : StartSt → StartSt) : (s.onStart f).blk = s.blk := rfl
@[simp] theorem State.onStart_start (s : State) (f : StartSt → StartSt) : (s.onStart f).start = f s.start := rfl
@[simp] theorem State.onStart_svc (s : State) (f : StartSt → StartSt) : (s.onStart f).svc = s.svc := rfl
@[simp] theorem State.onStart_log (s : State) (f : StartSt → StartSt) : (s.onStart f).log = s.log := rfl
@[simp] theorem State.onStart_kpr (s : State) (f : StartSt → StartSt) : (s.onStart f).kpr = s.kpr := rfl
@[simp] theorem State.onStart_kin (s : State) (f : StartSt → StartSt) : (s.onStart f).kin = s.kin := rfl
@[simp] theorem State.onStart_pwr (s : State) (f : StartSt → StartSt) : (s.onStart f).pwr = s.pwr := rfl
@[simp] theorem State.onStart_ctxs (s : State) (f : StartSt → StartSt) : (s.onStart f).ctxs = s.ctxs := rfl
@[simp] theorem State.onStart_qs (s : State) (f : StartSt → StartSt) : (s.onStart f).qs = s.qs := rfl
@[simp] theorem State.onStart_cp (s : State) (f : StartSt → StartSt) : (s.onStart f).cp = s.cp := rfl
@[simp] theorem State.onStart_arrays (s : State) (f : StartSt → StartSt) : (s.onStart f).arrays = s.arrays := rfl
@[simp] theorem State.onStart_halves (s : State) (f : StartSt → StartSt) : (s.onStart f).halves = s.halves := rfl
@[simp] theorem State.onStart_cores (s : State) (f : StartSt → StartSt) : (s.onStart f).cores = s.cores := rfl
@[simp] theorem State.onStart_tun (s : State) (f : StartSt → StartSt) : (s.onStart f).tun = s.tun := rfl
@[simp] theorem State.onStart_mem (s : State) (f : StartSt → StartSt) : (s.onStart f).mem = s.mem := rfl
@[simp] theorem State.onStart_stks (s : State) (f : StartSt → StartSt) : (s.onStart f).stks = s.stks := rfl
@[simp] theorem State.onStart_map (s : State) (f : StartSt → StartSt) : (s.onStart f).map = s.map := rfl
@[simp] theorem State.onStart_far (s : State) (f : StartSt → StartSt) : (s.onStart f).far = s.far := rfl
@[simp] theorem State.onStart_mirror (s : State) (f : StartSt → StartSt) : (s.onStart f).mirror = s.mirror := rfl
@[simp] theorem State.onStart_xch (s : State) (f : StartSt → StartSt) : (s.onStart f).xch = s.xch := rfl
@[simp] theorem State.onStart_port (s : State) (f : StartSt → StartSt) : (s.onStart f).port = s.port := rfl
@[simp] theorem State.onStart_ctx (s : State) (f : StartSt → StartSt) (i : Nat) : (s.onStart f).ctx i = s.ctx i := rfl
@[simp] theorem State.onStart_queue (s : State) (f : StartSt → StartSt) (i : Nat) : (s.onStart f).queue i = s.queue i := rfl
@[simp] theorem State.onStart_array (s : State) (f : StartSt → StartSt) (i : Nat) : (s.onStart f).array i = s.array i := rfl
@[simp] theorem State.onStart_half (s : State) (f : StartSt → StartSt) (i : Nat) : (s.onStart f).half i = s.half i := rfl
@[simp] theorem State.onStart_core (s : State) (f : StartSt → StartSt) (i : Nat) : (s.onStart f).core i = s.core i := rfl
@[simp] theorem State.onStart_stack (s : State) (f : StartSt → StartSt) (i : Nat) : (s.onStart f).stack i = s.stack i := rfl

@[simp] theorem State.onBlk_pending (s : State) (f : Blk → Blk) : (s.onBlk f).pending = s.pending := rfl
@[simp] theorem State.onBlk_free (s : State) (f : Blk → Blk) : (s.onBlk f).free = s.free := rfl
@[simp] theorem State.onBlk_blk (s : State) (f : Blk → Blk) : (s.onBlk f).blk = f s.blk := rfl
@[simp] theorem State.onBlk_start (s : State) (f : Blk → Blk) : (s.onBlk f).start = s.start := rfl
@[simp] theorem State.onBlk_svc (s : State) (f : Blk → Blk) : (s.onBlk f).svc = s.svc := rfl
@[simp] theorem State.onBlk_log (s : State) (f : Blk → Blk) : (s.onBlk f).log = s.log := rfl
@[simp] theorem State.onBlk_kpr (s : State) (f : Blk → Blk) : (s.onBlk f).kpr = s.kpr := rfl
@[simp] theorem State.onBlk_kin (s : State) (f : Blk → Blk) : (s.onBlk f).kin = s.kin := rfl
@[simp] theorem State.onBlk_pwr (s : State) (f : Blk → Blk) : (s.onBlk f).pwr = s.pwr := rfl
@[simp] theorem State.onBlk_ctxs (s : State) (f : Blk → Blk) : (s.onBlk f).ctxs = s.ctxs := rfl
@[simp] theorem State.onBlk_qs (s : State) (f : Blk → Blk) : (s.onBlk f).qs = s.qs := rfl
@[simp] theorem State.onBlk_cp (s : State) (f : Blk → Blk) : (s.onBlk f).cp = s.cp := rfl
@[simp] theorem State.onBlk_arrays (s : State) (f : Blk → Blk) : (s.onBlk f).arrays = s.arrays := rfl
@[simp] theorem State.onBlk_halves (s : State) (f : Blk → Blk) : (s.onBlk f).halves = s.halves := rfl
@[simp] theorem State.onBlk_cores (s : State) (f : Blk → Blk) : (s.onBlk f).cores = s.cores := rfl
@[simp] theorem State.onBlk_tun (s : State) (f : Blk → Blk) : (s.onBlk f).tun = s.tun := rfl
@[simp] theorem State.onBlk_mem (s : State) (f : Blk → Blk) : (s.onBlk f).mem = s.mem := rfl
@[simp] theorem State.onBlk_stks (s : State) (f : Blk → Blk) : (s.onBlk f).stks = s.stks := rfl
@[simp] theorem State.onBlk_map (s : State) (f : Blk → Blk) : (s.onBlk f).map = s.map := rfl
@[simp] theorem State.onBlk_far (s : State) (f : Blk → Blk) : (s.onBlk f).far = s.far := rfl
@[simp] theorem State.onBlk_mirror (s : State) (f : Blk → Blk) : (s.onBlk f).mirror = s.mirror := rfl
@[simp] theorem State.onBlk_xch (s : State) (f : Blk → Blk) : (s.onBlk f).xch = s.xch := rfl
@[simp] theorem State.onBlk_port (s : State) (f : Blk → Blk) : (s.onBlk f).port = s.port := rfl
@[simp] theorem State.onBlk_ctx (s : State) (f : Blk → Blk) (i : Nat) : (s.onBlk f).ctx i = s.ctx i := rfl
@[simp] theorem State.onBlk_queue (s : State) (f : Blk → Blk) (i : Nat) : (s.onBlk f).queue i = s.queue i := rfl
@[simp] theorem State.onBlk_array (s : State) (f : Blk → Blk) (i : Nat) : (s.onBlk f).array i = s.array i := rfl
@[simp] theorem State.onBlk_half (s : State) (f : Blk → Blk) (i : Nat) : (s.onBlk f).half i = s.half i := rfl
@[simp] theorem State.onBlk_core (s : State) (f : Blk → Blk) (i : Nat) : (s.onBlk f).core i = s.core i := rfl
@[simp] theorem State.onBlk_stack (s : State) (f : Blk → Blk) (i : Nat) : (s.onBlk f).stack i = s.stack i := rfl

@[simp] theorem State.onSvc_pending (s : State) (f : Svc → Svc) : (s.onSvc f).pending = s.pending := rfl
@[simp] theorem State.onSvc_free (s : State) (f : Svc → Svc) : (s.onSvc f).free = s.free := rfl
@[simp] theorem State.onSvc_blk (s : State) (f : Svc → Svc) : (s.onSvc f).blk = s.blk := rfl
@[simp] theorem State.onSvc_start (s : State) (f : Svc → Svc) : (s.onSvc f).start = s.start := rfl
@[simp] theorem State.onSvc_svc (s : State) (f : Svc → Svc) : (s.onSvc f).svc = f s.svc := rfl
@[simp] theorem State.onSvc_log (s : State) (f : Svc → Svc) : (s.onSvc f).log = s.log := rfl
@[simp] theorem State.onSvc_kpr (s : State) (f : Svc → Svc) : (s.onSvc f).kpr = s.kpr := rfl
@[simp] theorem State.onSvc_kin (s : State) (f : Svc → Svc) : (s.onSvc f).kin = s.kin := rfl
@[simp] theorem State.onSvc_pwr (s : State) (f : Svc → Svc) : (s.onSvc f).pwr = s.pwr := rfl
@[simp] theorem State.onSvc_ctxs (s : State) (f : Svc → Svc) : (s.onSvc f).ctxs = s.ctxs := rfl
@[simp] theorem State.onSvc_qs (s : State) (f : Svc → Svc) : (s.onSvc f).qs = s.qs := rfl
@[simp] theorem State.onSvc_cp (s : State) (f : Svc → Svc) : (s.onSvc f).cp = s.cp := rfl
@[simp] theorem State.onSvc_arrays (s : State) (f : Svc → Svc) : (s.onSvc f).arrays = s.arrays := rfl
@[simp] theorem State.onSvc_halves (s : State) (f : Svc → Svc) : (s.onSvc f).halves = s.halves := rfl
@[simp] theorem State.onSvc_cores (s : State) (f : Svc → Svc) : (s.onSvc f).cores = s.cores := rfl
@[simp] theorem State.onSvc_tun (s : State) (f : Svc → Svc) : (s.onSvc f).tun = s.tun := rfl
@[simp] theorem State.onSvc_mem (s : State) (f : Svc → Svc) : (s.onSvc f).mem = s.mem := rfl
@[simp] theorem State.onSvc_stks (s : State) (f : Svc → Svc) : (s.onSvc f).stks = s.stks := rfl
@[simp] theorem State.onSvc_map (s : State) (f : Svc → Svc) : (s.onSvc f).map = s.map := rfl
@[simp] theorem State.onSvc_far (s : State) (f : Svc → Svc) : (s.onSvc f).far = s.far := rfl
@[simp] theorem State.onSvc_mirror (s : State) (f : Svc → Svc) : (s.onSvc f).mirror = s.mirror := rfl
@[simp] theorem State.onSvc_xch (s : State) (f : Svc → Svc) : (s.onSvc f).xch = s.xch := rfl
@[simp] theorem State.onSvc_port (s : State) (f : Svc → Svc) : (s.onSvc f).port = s.port := rfl
@[simp] theorem State.onSvc_ctx (s : State) (f : Svc → Svc) (i : Nat) : (s.onSvc f).ctx i = s.ctx i := rfl
@[simp] theorem State.onSvc_queue (s : State) (f : Svc → Svc) (i : Nat) : (s.onSvc f).queue i = s.queue i := rfl
@[simp] theorem State.onSvc_array (s : State) (f : Svc → Svc) (i : Nat) : (s.onSvc f).array i = s.array i := rfl
@[simp] theorem State.onSvc_half (s : State) (f : Svc → Svc) (i : Nat) : (s.onSvc f).half i = s.half i := rfl
@[simp] theorem State.onSvc_core (s : State) (f : Svc → Svc) (i : Nat) : (s.onSvc f).core i = s.core i := rfl
@[simp] theorem State.onSvc_stack (s : State) (f : Svc → Svc) (i : Nat) : (s.onSvc f).stack i = s.stack i := rfl

@[simp] theorem State.onLog_pending (s : State) (f : ErrLog → ErrLog) : (s.onLog f).pending = s.pending := rfl
@[simp] theorem State.onLog_free (s : State) (f : ErrLog → ErrLog) : (s.onLog f).free = s.free := rfl
@[simp] theorem State.onLog_blk (s : State) (f : ErrLog → ErrLog) : (s.onLog f).blk = s.blk := rfl
@[simp] theorem State.onLog_start (s : State) (f : ErrLog → ErrLog) : (s.onLog f).start = s.start := rfl
@[simp] theorem State.onLog_svc (s : State) (f : ErrLog → ErrLog) : (s.onLog f).svc = s.svc := rfl
@[simp] theorem State.onLog_log (s : State) (f : ErrLog → ErrLog) : (s.onLog f).log = f s.log := rfl
@[simp] theorem State.onLog_kpr (s : State) (f : ErrLog → ErrLog) : (s.onLog f).kpr = s.kpr := rfl
@[simp] theorem State.onLog_kin (s : State) (f : ErrLog → ErrLog) : (s.onLog f).kin = s.kin := rfl
@[simp] theorem State.onLog_pwr (s : State) (f : ErrLog → ErrLog) : (s.onLog f).pwr = s.pwr := rfl
@[simp] theorem State.onLog_ctxs (s : State) (f : ErrLog → ErrLog) : (s.onLog f).ctxs = s.ctxs := rfl
@[simp] theorem State.onLog_qs (s : State) (f : ErrLog → ErrLog) : (s.onLog f).qs = s.qs := rfl
@[simp] theorem State.onLog_cp (s : State) (f : ErrLog → ErrLog) : (s.onLog f).cp = s.cp := rfl
@[simp] theorem State.onLog_arrays (s : State) (f : ErrLog → ErrLog) : (s.onLog f).arrays = s.arrays := rfl
@[simp] theorem State.onLog_halves (s : State) (f : ErrLog → ErrLog) : (s.onLog f).halves = s.halves := rfl
@[simp] theorem State.onLog_cores (s : State) (f : ErrLog → ErrLog) : (s.onLog f).cores = s.cores := rfl
@[simp] theorem State.onLog_tun (s : State) (f : ErrLog → ErrLog) : (s.onLog f).tun = s.tun := rfl
@[simp] theorem State.onLog_mem (s : State) (f : ErrLog → ErrLog) : (s.onLog f).mem = s.mem := rfl
@[simp] theorem State.onLog_stks (s : State) (f : ErrLog → ErrLog) : (s.onLog f).stks = s.stks := rfl
@[simp] theorem State.onLog_map (s : State) (f : ErrLog → ErrLog) : (s.onLog f).map = s.map := rfl
@[simp] theorem State.onLog_far (s : State) (f : ErrLog → ErrLog) : (s.onLog f).far = s.far := rfl
@[simp] theorem State.onLog_mirror (s : State) (f : ErrLog → ErrLog) : (s.onLog f).mirror = s.mirror := rfl
@[simp] theorem State.onLog_xch (s : State) (f : ErrLog → ErrLog) : (s.onLog f).xch = s.xch := rfl
@[simp] theorem State.onLog_port (s : State) (f : ErrLog → ErrLog) : (s.onLog f).port = s.port := rfl
@[simp] theorem State.onLog_ctx (s : State) (f : ErrLog → ErrLog) (i : Nat) : (s.onLog f).ctx i = s.ctx i := rfl
@[simp] theorem State.onLog_queue (s : State) (f : ErrLog → ErrLog) (i : Nat) : (s.onLog f).queue i = s.queue i := rfl
@[simp] theorem State.onLog_array (s : State) (f : ErrLog → ErrLog) (i : Nat) : (s.onLog f).array i = s.array i := rfl
@[simp] theorem State.onLog_half (s : State) (f : ErrLog → ErrLog) (i : Nat) : (s.onLog f).half i = s.half i := rfl
@[simp] theorem State.onLog_core (s : State) (f : ErrLog → ErrLog) (i : Nat) : (s.onLog f).core i = s.core i := rfl
@[simp] theorem State.onLog_stack (s : State) (f : ErrLog → ErrLog) (i : Nat) : (s.onLog f).stack i = s.stack i := rfl

@[simp] theorem State.onTun_pending (s : State) (f : List TunCell → List TunCell) : (s.onTun f).pending = s.pending := rfl
@[simp] theorem State.onTun_free (s : State) (f : List TunCell → List TunCell) : (s.onTun f).free = s.free := rfl
@[simp] theorem State.onTun_blk (s : State) (f : List TunCell → List TunCell) : (s.onTun f).blk = s.blk := rfl
@[simp] theorem State.onTun_start (s : State) (f : List TunCell → List TunCell) : (s.onTun f).start = s.start := rfl
@[simp] theorem State.onTun_svc (s : State) (f : List TunCell → List TunCell) : (s.onTun f).svc = s.svc := rfl
@[simp] theorem State.onTun_log (s : State) (f : List TunCell → List TunCell) : (s.onTun f).log = s.log := rfl
@[simp] theorem State.onTun_kpr (s : State) (f : List TunCell → List TunCell) : (s.onTun f).kpr = s.kpr := rfl
@[simp] theorem State.onTun_kin (s : State) (f : List TunCell → List TunCell) : (s.onTun f).kin = s.kin := rfl
@[simp] theorem State.onTun_pwr (s : State) (f : List TunCell → List TunCell) : (s.onTun f).pwr = s.pwr := rfl
@[simp] theorem State.onTun_ctxs (s : State) (f : List TunCell → List TunCell) : (s.onTun f).ctxs = s.ctxs := rfl
@[simp] theorem State.onTun_qs (s : State) (f : List TunCell → List TunCell) : (s.onTun f).qs = s.qs := rfl
@[simp] theorem State.onTun_cp (s : State) (f : List TunCell → List TunCell) : (s.onTun f).cp = s.cp := rfl
@[simp] theorem State.onTun_arrays (s : State) (f : List TunCell → List TunCell) : (s.onTun f).arrays = s.arrays := rfl
@[simp] theorem State.onTun_halves (s : State) (f : List TunCell → List TunCell) : (s.onTun f).halves = s.halves := rfl
@[simp] theorem State.onTun_cores (s : State) (f : List TunCell → List TunCell) : (s.onTun f).cores = s.cores := rfl
@[simp] theorem State.onTun_tun (s : State) (f : List TunCell → List TunCell) : (s.onTun f).tun = f s.tun := rfl
@[simp] theorem State.onTun_mem (s : State) (f : List TunCell → List TunCell) : (s.onTun f).mem = s.mem := rfl
@[simp] theorem State.onTun_stks (s : State) (f : List TunCell → List TunCell) : (s.onTun f).stks = s.stks := rfl
@[simp] theorem State.onTun_map (s : State) (f : List TunCell → List TunCell) : (s.onTun f).map = s.map := rfl
@[simp] theorem State.onTun_far (s : State) (f : List TunCell → List TunCell) : (s.onTun f).far = s.far := rfl
@[simp] theorem State.onTun_mirror (s : State) (f : List TunCell → List TunCell) : (s.onTun f).mirror = s.mirror := rfl
@[simp] theorem State.onTun_xch (s : State) (f : List TunCell → List TunCell) : (s.onTun f).xch = s.xch := rfl
@[simp] theorem State.onTun_port (s : State) (f : List TunCell → List TunCell) : (s.onTun f).port = s.port := rfl
@[simp] theorem State.onTun_ctx (s : State) (f : List TunCell → List TunCell) (i : Nat) : (s.onTun f).ctx i = s.ctx i := rfl
@[simp] theorem State.onTun_queue (s : State) (f : List TunCell → List TunCell) (i : Nat) : (s.onTun f).queue i = s.queue i := rfl
@[simp] theorem State.onTun_array (s : State) (f : List TunCell → List TunCell) (i : Nat) : (s.onTun f).array i = s.array i := rfl
@[simp] theorem State.onTun_half (s : State) (f : List TunCell → List TunCell) (i : Nat) : (s.onTun f).half i = s.half i := rfl
@[simp] theorem State.onTun_core (s : State) (f : List TunCell → List TunCell) (i : Nat) : (s.onTun f).core i = s.core i := rfl
@[simp] theorem State.onTun_stack (s : State) (f : List TunCell → List TunCell) (i : Nat) : (s.onTun f).stack i = s.stack i := rfl

@[simp] theorem State.onMap_pending (s : State) (f : MapSt → MapSt) : (s.onMap f).pending = s.pending := rfl
@[simp] theorem State.onMap_free (s : State) (f : MapSt → MapSt) : (s.onMap f).free = s.free := rfl
@[simp] theorem State.onMap_blk (s : State) (f : MapSt → MapSt) : (s.onMap f).blk = s.blk := rfl
@[simp] theorem State.onMap_start (s : State) (f : MapSt → MapSt) : (s.onMap f).start = s.start := rfl
@[simp] theorem State.onMap_svc (s : State) (f : MapSt → MapSt) : (s.onMap f).svc = s.svc := rfl
@[simp] theorem State.onMap_log (s : State) (f : MapSt → MapSt) : (s.onMap f).log = s.log := rfl
@[simp] theorem State.onMap_kpr (s : State) (f : MapSt → MapSt) : (s.onMap f).kpr = s.kpr := rfl
@[simp] theorem State.onMap_kin (s : State) (f : MapSt → MapSt) : (s.onMap f).kin = s.kin := rfl
@[simp] theorem State.onMap_pwr (s : State) (f : MapSt → MapSt) : (s.onMap f).pwr = s.pwr := rfl
@[simp] theorem State.onMap_ctxs (s : State) (f : MapSt → MapSt) : (s.onMap f).ctxs = s.ctxs := rfl
@[simp] theorem State.onMap_qs (s : State) (f : MapSt → MapSt) : (s.onMap f).qs = s.qs := rfl
@[simp] theorem State.onMap_cp (s : State) (f : MapSt → MapSt) : (s.onMap f).cp = s.cp := rfl
@[simp] theorem State.onMap_arrays (s : State) (f : MapSt → MapSt) : (s.onMap f).arrays = s.arrays := rfl
@[simp] theorem State.onMap_halves (s : State) (f : MapSt → MapSt) : (s.onMap f).halves = s.halves := rfl
@[simp] theorem State.onMap_cores (s : State) (f : MapSt → MapSt) : (s.onMap f).cores = s.cores := rfl
@[simp] theorem State.onMap_tun (s : State) (f : MapSt → MapSt) : (s.onMap f).tun = s.tun := rfl
@[simp] theorem State.onMap_mem (s : State) (f : MapSt → MapSt) : (s.onMap f).mem = s.mem := rfl
@[simp] theorem State.onMap_stks (s : State) (f : MapSt → MapSt) : (s.onMap f).stks = s.stks := rfl
@[simp] theorem State.onMap_map (s : State) (f : MapSt → MapSt) : (s.onMap f).map = f s.map := rfl
@[simp] theorem State.onMap_far (s : State) (f : MapSt → MapSt) : (s.onMap f).far = s.far := rfl
@[simp] theorem State.onMap_mirror (s : State) (f : MapSt → MapSt) : (s.onMap f).mirror = s.mirror := rfl
@[simp] theorem State.onMap_xch (s : State) (f : MapSt → MapSt) : (s.onMap f).xch = s.xch := rfl
@[simp] theorem State.onMap_port (s : State) (f : MapSt → MapSt) : (s.onMap f).port = s.port := rfl
@[simp] theorem State.onMap_ctx (s : State) (f : MapSt → MapSt) (i : Nat) : (s.onMap f).ctx i = s.ctx i := rfl
@[simp] theorem State.onMap_queue (s : State) (f : MapSt → MapSt) (i : Nat) : (s.onMap f).queue i = s.queue i := rfl
@[simp] theorem State.onMap_array (s : State) (f : MapSt → MapSt) (i : Nat) : (s.onMap f).array i = s.array i := rfl
@[simp] theorem State.onMap_half (s : State) (f : MapSt → MapSt) (i : Nat) : (s.onMap f).half i = s.half i := rfl
@[simp] theorem State.onMap_core (s : State) (f : MapSt → MapSt) (i : Nat) : (s.onMap f).core i = s.core i := rfl
@[simp] theorem State.onMap_stack (s : State) (f : MapSt → MapSt) (i : Nat) : (s.onMap f).stack i = s.stack i := rfl

@[simp] theorem State.onMirror_pending (s : State) (f : Mirror → Mirror) : (s.onMirror f).pending = s.pending := rfl
@[simp] theorem State.onMirror_free (s : State) (f : Mirror → Mirror) : (s.onMirror f).free = s.free := rfl
@[simp] theorem State.onMirror_blk (s : State) (f : Mirror → Mirror) : (s.onMirror f).blk = s.blk := rfl
@[simp] theorem State.onMirror_start (s : State) (f : Mirror → Mirror) : (s.onMirror f).start = s.start := rfl
@[simp] theorem State.onMirror_svc (s : State) (f : Mirror → Mirror) : (s.onMirror f).svc = s.svc := rfl
@[simp] theorem State.onMirror_log (s : State) (f : Mirror → Mirror) : (s.onMirror f).log = s.log := rfl
@[simp] theorem State.onMirror_kpr (s : State) (f : Mirror → Mirror) : (s.onMirror f).kpr = s.kpr := rfl
@[simp] theorem State.onMirror_kin (s : State) (f : Mirror → Mirror) : (s.onMirror f).kin = s.kin := rfl
@[simp] theorem State.onMirror_pwr (s : State) (f : Mirror → Mirror) : (s.onMirror f).pwr = s.pwr := rfl
@[simp] theorem State.onMirror_ctxs (s : State) (f : Mirror → Mirror) : (s.onMirror f).ctxs = s.ctxs := rfl
@[simp] theorem State.onMirror_qs (s : State) (f : Mirror → Mirror) : (s.onMirror f).qs = s.qs := rfl
@[simp] theorem State.onMirror_cp (s : State) (f : Mirror → Mirror) : (s.onMirror f).cp = s.cp := rfl
@[simp] theorem State.onMirror_arrays (s : State) (f : Mirror → Mirror) : (s.onMirror f).arrays = s.arrays := rfl
@[simp] theorem State.onMirror_halves (s : State) (f : Mirror → Mirror) : (s.onMirror f).halves = s.halves := rfl
@[simp] theorem State.onMirror_cores (s : State) (f : Mirror → Mirror) : (s.onMirror f).cores = s.cores := rfl
@[simp] theorem State.onMirror_tun (s : State) (f : Mirror → Mirror) : (s.onMirror f).tun = s.tun := rfl
@[simp] theorem State.onMirror_mem (s : State) (f : Mirror → Mirror) : (s.onMirror f).mem = s.mem := rfl
@[simp] theorem State.onMirror_stks (s : State) (f : Mirror → Mirror) : (s.onMirror f).stks = s.stks := rfl
@[simp] theorem State.onMirror_map (s : State) (f : Mirror → Mirror) : (s.onMirror f).map = s.map := rfl
@[simp] theorem State.onMirror_far (s : State) (f : Mirror → Mirror) : (s.onMirror f).far = s.far := rfl
@[simp] theorem State.onMirror_mirror (s : State) (f : Mirror → Mirror) : (s.onMirror f).mirror = f s.mirror := rfl
@[simp] theorem State.onMirror_xch (s : State) (f : Mirror → Mirror) : (s.onMirror f).xch = s.xch := rfl
@[simp] theorem State.onMirror_port (s : State) (f : Mirror → Mirror) : (s.onMirror f).port = s.port := rfl
@[simp] theorem State.onMirror_ctx (s : State) (f : Mirror → Mirror) (i : Nat) : (s.onMirror f).ctx i = s.ctx i := rfl
@[simp] theorem State.onMirror_queue (s : State) (f : Mirror → Mirror) (i : Nat) : (s.onMirror f).queue i = s.queue i := rfl
@[simp] theorem State.onMirror_array (s : State) (f : Mirror → Mirror) (i : Nat) : (s.onMirror f).array i = s.array i := rfl
@[simp] theorem State.onMirror_half (s : State) (f : Mirror → Mirror) (i : Nat) : (s.onMirror f).half i = s.half i := rfl
@[simp] theorem State.onMirror_core (s : State) (f : Mirror → Mirror) (i : Nat) : (s.onMirror f).core i = s.core i := rfl
@[simp] theorem State.onMirror_stack (s : State) (f : Mirror → Mirror) (i : Nat) : (s.onMirror f).stack i = s.stack i := rfl

@[simp] theorem State.onPort_pending (s : State) (f : Port → Port) : (s.onPort f).pending = s.pending := rfl
@[simp] theorem State.onPort_free (s : State) (f : Port → Port) : (s.onPort f).free = s.free := rfl
@[simp] theorem State.onPort_blk (s : State) (f : Port → Port) : (s.onPort f).blk = s.blk := rfl
@[simp] theorem State.onPort_start (s : State) (f : Port → Port) : (s.onPort f).start = s.start := rfl
@[simp] theorem State.onPort_svc (s : State) (f : Port → Port) : (s.onPort f).svc = s.svc := rfl
@[simp] theorem State.onPort_log (s : State) (f : Port → Port) : (s.onPort f).log = s.log := rfl
@[simp] theorem State.onPort_kpr (s : State) (f : Port → Port) : (s.onPort f).kpr = s.kpr := rfl
@[simp] theorem State.onPort_kin (s : State) (f : Port → Port) : (s.onPort f).kin = s.kin := rfl
@[simp] theorem State.onPort_pwr (s : State) (f : Port → Port) : (s.onPort f).pwr = s.pwr := rfl
@[simp] theorem State.onPort_ctxs (s : State) (f : Port → Port) : (s.onPort f).ctxs = s.ctxs := rfl
@[simp] theorem State.onPort_qs (s : State) (f : Port → Port) : (s.onPort f).qs = s.qs := rfl
@[simp] theorem State.onPort_cp (s : State) (f : Port → Port) : (s.onPort f).cp = s.cp := rfl
@[simp] theorem State.onPort_arrays (s : State) (f : Port → Port) : (s.onPort f).arrays = s.arrays := rfl
@[simp] theorem State.onPort_halves (s : State) (f : Port → Port) : (s.onPort f).halves = s.halves := rfl
@[simp] theorem State.onPort_cores (s : State) (f : Port → Port) : (s.onPort f).cores = s.cores := rfl
@[simp] theorem State.onPort_tun (s : State) (f : Port → Port) : (s.onPort f).tun = s.tun := rfl
@[simp] theorem State.onPort_mem (s : State) (f : Port → Port) : (s.onPort f).mem = s.mem := rfl
@[simp] theorem State.onPort_stks (s : State) (f : Port → Port) : (s.onPort f).stks = s.stks := rfl
@[simp] theorem State.onPort_map (s : State) (f : Port → Port) : (s.onPort f).map = s.map := rfl
@[simp] theorem State.onPort_far (s : State) (f : Port → Port) : (s.onPort f).far = s.far := rfl
@[simp] theorem State.onPort_mirror (s : State) (f : Port → Port) : (s.onPort f).mirror = s.mirror := rfl
@[simp] theorem State.onPort_xch (s : State) (f : Port → Port) : (s.onPort f).xch = s.xch := rfl
@[simp] theorem State.onPort_port (s : State) (f : Port → Port) : (s.onPort f).port = f s.port := rfl
@[simp] theorem State.onPort_ctx (s : State) (f : Port → Port) (i : Nat) : (s.onPort f).ctx i = s.ctx i := rfl
@[simp] theorem State.onPort_queue (s : State) (f : Port → Port) (i : Nat) : (s.onPort f).queue i = s.queue i := rfl
@[simp] theorem State.onPort_array (s : State) (f : Port → Port) (i : Nat) : (s.onPort f).array i = s.array i := rfl
@[simp] theorem State.onPort_half (s : State) (f : Port → Port) (i : Nat) : (s.onPort f).half i = s.half i := rfl
@[simp] theorem State.onPort_core (s : State) (f : Port → Port) (i : Nat) : (s.onPort f).core i = s.core i := rfl
@[simp] theorem State.onPort_stack (s : State) (f : Port → Port) (i : Nat) : (s.onPort f).stack i = s.stack i := rfl

@[simp] theorem State.onCtx_pending (s : State) (n : Nat) (f : Ctx → Ctx) : (s.onCtx n f).pending = s.pending := rfl
@[simp] theorem State.onCtx_free (s : State) (n : Nat) (f : Ctx → Ctx) : (s.onCtx n f).free = s.free := rfl
@[simp] theorem State.onCtx_blk (s : State) (n : Nat) (f : Ctx → Ctx) : (s.onCtx n f).blk = s.blk := rfl
@[simp] theorem State.onCtx_start (s : State) (n : Nat) (f : Ctx → Ctx) : (s.onCtx n f).start = s.start := rfl
@[simp] theorem State.onCtx_svc (s : State) (n : Nat) (f : Ctx → Ctx) : (s.onCtx n f).svc = s.svc := rfl
@[simp] theorem State.onCtx_log (s : State) (n : Nat) (f : Ctx → Ctx) : (s.onCtx n f).log = s.log := rfl
@[simp] theorem State.onCtx_kpr (s : State) (n : Nat) (f : Ctx → Ctx) : (s.onCtx n f).kpr = s.kpr := rfl
@[simp] theorem State.onCtx_kin (s : State) (n : Nat) (f : Ctx → Ctx) : (s.onCtx n f).kin = s.kin := rfl
@[simp] theorem State.onCtx_pwr (s : State) (n : Nat) (f : Ctx → Ctx) : (s.onCtx n f).pwr = s.pwr := rfl
@[simp] theorem State.onCtx_ctxs (s : State) (n : Nat) (f : Ctx → Ctx) : (s.onCtx n f).ctxs = vmod s.ctxs n f := rfl
@[simp] theorem State.onCtx_qs (s : State) (n : Nat) (f : Ctx → Ctx) : (s.onCtx n f).qs = s.qs := rfl
@[simp] theorem State.onCtx_cp (s : State) (n : Nat) (f : Ctx → Ctx) : (s.onCtx n f).cp = s.cp := rfl
@[simp] theorem State.onCtx_arrays (s : State) (n : Nat) (f : Ctx → Ctx) : (s.onCtx n f).arrays = s.arrays := rfl
@[simp] theorem State.onCtx_halves (s : State) (n : Nat) (f : Ctx → Ctx) : (s.onCtx n f).halves = s.halves := rfl
@[simp] theorem State.onCtx_cores (s : State) (n : Nat) (f : Ctx → Ctx) : (s.onCtx n f).cores = s.cores := rfl
@[simp] theorem State.onCtx_tun (s : State) (n : Nat) (f : Ctx → Ctx) : (s.onCtx n f).tun = s.tun := rfl
@[simp] theorem State.onCtx_mem (s : State) (n : Nat) (f : Ctx → Ctx) : (s.onCtx n f).mem = s.mem := rfl
@[simp] theorem State.onCtx_stks (s : State) (n : Nat) (f : Ctx → Ctx) : (s.onCtx n f).stks = s.stks := rfl
@[simp] theorem State.onCtx_map (s : State) (n : Nat) (f : Ctx → Ctx) : (s.onCtx n f).map = s.map := rfl
@[simp] theorem State.onCtx_far (s : State) (n : Nat) (f : Ctx → Ctx) : (s.onCtx n f).far = s.far := rfl
@[simp] theorem State.onCtx_mirror (s : State) (n : Nat) (f : Ctx → Ctx) : (s.onCtx n f).mirror = s.mirror := rfl
@[simp] theorem State.onCtx_xch (s : State) (n : Nat) (f : Ctx → Ctx) : (s.onCtx n f).xch = s.xch := rfl
@[simp] theorem State.onCtx_port (s : State) (n : Nat) (f : Ctx → Ctx) : (s.onCtx n f).port = s.port := rfl
@[simp] theorem State.onCtx_queue (s : State) (n : Nat) (f : Ctx → Ctx) (i : Nat) : (s.onCtx n f).queue i = s.queue i := rfl
@[simp] theorem State.onCtx_array (s : State) (n : Nat) (f : Ctx → Ctx) (i : Nat) : (s.onCtx n f).array i = s.array i := rfl
@[simp] theorem State.onCtx_half (s : State) (n : Nat) (f : Ctx → Ctx) (i : Nat) : (s.onCtx n f).half i = s.half i := rfl
@[simp] theorem State.onCtx_core (s : State) (n : Nat) (f : Ctx → Ctx) (i : Nat) : (s.onCtx n f).core i = s.core i := rfl
@[simp] theorem State.onCtx_stack (s : State) (n : Nat) (f : Ctx → Ctx) (i : Nat) : (s.onCtx n f).stack i = s.stack i := rfl

@[simp] theorem State.onQ_pending (s : State) (n : Nat) (f : Queue → Queue) : (s.onQ n f).pending = s.pending := rfl
@[simp] theorem State.onQ_free (s : State) (n : Nat) (f : Queue → Queue) : (s.onQ n f).free = s.free := rfl
@[simp] theorem State.onQ_blk (s : State) (n : Nat) (f : Queue → Queue) : (s.onQ n f).blk = s.blk := rfl
@[simp] theorem State.onQ_start (s : State) (n : Nat) (f : Queue → Queue) : (s.onQ n f).start = s.start := rfl
@[simp] theorem State.onQ_svc (s : State) (n : Nat) (f : Queue → Queue) : (s.onQ n f).svc = s.svc := rfl
@[simp] theorem State.onQ_log (s : State) (n : Nat) (f : Queue → Queue) : (s.onQ n f).log = s.log := rfl
@[simp] theorem State.onQ_kpr (s : State) (n : Nat) (f : Queue → Queue) : (s.onQ n f).kpr = s.kpr := rfl
@[simp] theorem State.onQ_kin (s : State) (n : Nat) (f : Queue → Queue) : (s.onQ n f).kin = s.kin := rfl
@[simp] theorem State.onQ_pwr (s : State) (n : Nat) (f : Queue → Queue) : (s.onQ n f).pwr = s.pwr := rfl
@[simp] theorem State.onQ_ctxs (s : State) (n : Nat) (f : Queue → Queue) : (s.onQ n f).ctxs = s.ctxs := rfl
@[simp] theorem State.onQ_qs (s : State) (n : Nat) (f : Queue → Queue) : (s.onQ n f).qs = vmod s.qs n f := rfl
@[simp] theorem State.onQ_cp (s : State) (n : Nat) (f : Queue → Queue) : (s.onQ n f).cp = s.cp := rfl
@[simp] theorem State.onQ_arrays (s : State) (n : Nat) (f : Queue → Queue) : (s.onQ n f).arrays = s.arrays := rfl
@[simp] theorem State.onQ_halves (s : State) (n : Nat) (f : Queue → Queue) : (s.onQ n f).halves = s.halves := rfl
@[simp] theorem State.onQ_cores (s : State) (n : Nat) (f : Queue → Queue) : (s.onQ n f).cores = s.cores := rfl
@[simp] theorem State.onQ_tun (s : State) (n : Nat) (f : Queue → Queue) : (s.onQ n f).tun = s.tun := rfl
@[simp] theorem State.onQ_mem (s : State) (n : Nat) (f : Queue → Queue) : (s.onQ n f).mem = s.mem := rfl
@[simp] theorem State.onQ_stks (s : State) (n : Nat) (f : Queue → Queue) : (s.onQ n f).stks = s.stks := rfl
@[simp] theorem State.onQ_map (s : State) (n : Nat) (f : Queue → Queue) : (s.onQ n f).map = s.map := rfl
@[simp] theorem State.onQ_far (s : State) (n : Nat) (f : Queue → Queue) : (s.onQ n f).far = s.far := rfl
@[simp] theorem State.onQ_mirror (s : State) (n : Nat) (f : Queue → Queue) : (s.onQ n f).mirror = s.mirror := rfl
@[simp] theorem State.onQ_xch (s : State) (n : Nat) (f : Queue → Queue) : (s.onQ n f).xch = s.xch := rfl
@[simp] theorem State.onQ_port (s : State) (n : Nat) (f : Queue → Queue) : (s.onQ n f).port = s.port := rfl
@[simp] theorem State.onQ_ctx (s : State) (n : Nat) (f : Queue → Queue) (i : Nat) : (s.onQ n f).ctx i = s.ctx i := rfl
@[simp] theorem State.onQ_array (s : State) (n : Nat) (f : Queue → Queue) (i : Nat) : (s.onQ n f).array i = s.array i := rfl
@[simp] theorem State.onQ_half (s : State) (n : Nat) (f : Queue → Queue) (i : Nat) : (s.onQ n f).half i = s.half i := rfl
@[simp] theorem State.onQ_core (s : State) (n : Nat) (f : Queue → Queue) (i : Nat) : (s.onQ n f).core i = s.core i := rfl
@[simp] theorem State.onQ_stack (s : State) (n : Nat) (f : Queue → Queue) (i : Nat) : (s.onQ n f).stack i = s.stack i := rfl

@[simp] theorem State.onArray_pending (s : State) (n : Nat) (f : ArraySt → ArraySt) : (s.onArray n f).pending = s.pending := rfl
@[simp] theorem State.onArray_free (s : State) (n : Nat) (f : ArraySt → ArraySt) : (s.onArray n f).free = s.free := rfl
@[simp] theorem State.onArray_blk (s : State) (n : Nat) (f : ArraySt → ArraySt) : (s.onArray n f).blk = s.blk := rfl
@[simp] theorem State.onArray_start (s : State) (n : Nat) (f : ArraySt → ArraySt) : (s.onArray n f).start = s.start := rfl
@[simp] theorem State.onArray_svc (s : State) (n : Nat) (f : ArraySt → ArraySt) : (s.onArray n f).svc = s.svc := rfl
@[simp] theorem State.onArray_log (s : State) (n : Nat) (f : ArraySt → ArraySt) : (s.onArray n f).log = s.log := rfl
@[simp] theorem State.onArray_kpr (s : State) (n : Nat) (f : ArraySt → ArraySt) : (s.onArray n f).kpr = s.kpr := rfl
@[simp] theorem State.onArray_kin (s : State) (n : Nat) (f : ArraySt → ArraySt) : (s.onArray n f).kin = s.kin := rfl
@[simp] theorem State.onArray_pwr (s : State) (n : Nat) (f : ArraySt → ArraySt) : (s.onArray n f).pwr = s.pwr := rfl
@[simp] theorem State.onArray_ctxs (s : State) (n : Nat) (f : ArraySt → ArraySt) : (s.onArray n f).ctxs = s.ctxs := rfl
@[simp] theorem State.onArray_qs (s : State) (n : Nat) (f : ArraySt → ArraySt) : (s.onArray n f).qs = s.qs := rfl
@[simp] theorem State.onArray_cp (s : State) (n : Nat) (f : ArraySt → ArraySt) : (s.onArray n f).cp = s.cp := rfl
@[simp] theorem State.onArray_arrays (s : State) (n : Nat) (f : ArraySt → ArraySt) : (s.onArray n f).arrays = vmod s.arrays n f := rfl
@[simp] theorem State.onArray_halves (s : State) (n : Nat) (f : ArraySt → ArraySt) : (s.onArray n f).halves = s.halves := rfl
@[simp] theorem State.onArray_cores (s : State) (n : Nat) (f : ArraySt → ArraySt) : (s.onArray n f).cores = s.cores := rfl
@[simp] theorem State.onArray_tun (s : State) (n : Nat) (f : ArraySt → ArraySt) : (s.onArray n f).tun = s.tun := rfl
@[simp] theorem State.onArray_mem (s : State) (n : Nat) (f : ArraySt → ArraySt) : (s.onArray n f).mem = s.mem := rfl
@[simp] theorem State.onArray_stks (s : State) (n : Nat) (f : ArraySt → ArraySt) : (s.onArray n f).stks = s.stks := rfl
@[simp] theorem State.onArray_map (s : State) (n : Nat) (f : ArraySt → ArraySt) : (s.onArray n f).map = s.map := rfl
@[simp] theorem State.onArray_far (s : State) (n : Nat) (f : ArraySt → ArraySt) : (s.onArray n f).far = s.far := rfl
@[simp] theorem State.onArray_mirror (s : State) (n : Nat) (f : ArraySt → ArraySt) : (s.onArray n f).mirror = s.mirror := rfl
@[simp] theorem State.onArray_xch (s : State) (n : Nat) (f : ArraySt → ArraySt) : (s.onArray n f).xch = s.xch := rfl
@[simp] theorem State.onArray_port (s : State) (n : Nat) (f : ArraySt → ArraySt) : (s.onArray n f).port = s.port := rfl
@[simp] theorem State.onArray_ctx (s : State) (n : Nat) (f : ArraySt → ArraySt) (i : Nat) : (s.onArray n f).ctx i = s.ctx i := rfl
@[simp] theorem State.onArray_queue (s : State) (n : Nat) (f : ArraySt → ArraySt) (i : Nat) : (s.onArray n f).queue i = s.queue i := rfl
@[simp] theorem State.onArray_half (s : State) (n : Nat) (f : ArraySt → ArraySt) (i : Nat) : (s.onArray n f).half i = s.half i := rfl
@[simp] theorem State.onArray_core (s : State) (n : Nat) (f : ArraySt → ArraySt) (i : Nat) : (s.onArray n f).core i = s.core i := rfl
@[simp] theorem State.onArray_stack (s : State) (n : Nat) (f : ArraySt → ArraySt) (i : Nat) : (s.onArray n f).stack i = s.stack i := rfl

@[simp] theorem State.onHalf_pending (s : State) (n : Nat) (f : ThinSt → ThinSt) : (s.onHalf n f).pending = s.pending := rfl
@[simp] theorem State.onHalf_free (s : State) (n : Nat) (f : ThinSt → ThinSt) : (s.onHalf n f).free = s.free := rfl
@[simp] theorem State.onHalf_blk (s : State) (n : Nat) (f : ThinSt → ThinSt) : (s.onHalf n f).blk = s.blk := rfl
@[simp] theorem State.onHalf_start (s : State) (n : Nat) (f : ThinSt → ThinSt) : (s.onHalf n f).start = s.start := rfl
@[simp] theorem State.onHalf_svc (s : State) (n : Nat) (f : ThinSt → ThinSt) : (s.onHalf n f).svc = s.svc := rfl
@[simp] theorem State.onHalf_log (s : State) (n : Nat) (f : ThinSt → ThinSt) : (s.onHalf n f).log = s.log := rfl
@[simp] theorem State.onHalf_kpr (s : State) (n : Nat) (f : ThinSt → ThinSt) : (s.onHalf n f).kpr = s.kpr := rfl
@[simp] theorem State.onHalf_kin (s : State) (n : Nat) (f : ThinSt → ThinSt) : (s.onHalf n f).kin = s.kin := rfl
@[simp] theorem State.onHalf_pwr (s : State) (n : Nat) (f : ThinSt → ThinSt) : (s.onHalf n f).pwr = s.pwr := rfl
@[simp] theorem State.onHalf_ctxs (s : State) (n : Nat) (f : ThinSt → ThinSt) : (s.onHalf n f).ctxs = s.ctxs := rfl
@[simp] theorem State.onHalf_qs (s : State) (n : Nat) (f : ThinSt → ThinSt) : (s.onHalf n f).qs = s.qs := rfl
@[simp] theorem State.onHalf_cp (s : State) (n : Nat) (f : ThinSt → ThinSt) : (s.onHalf n f).cp = s.cp := rfl
@[simp] theorem State.onHalf_arrays (s : State) (n : Nat) (f : ThinSt → ThinSt) : (s.onHalf n f).arrays = s.arrays := rfl
@[simp] theorem State.onHalf_halves (s : State) (n : Nat) (f : ThinSt → ThinSt) : (s.onHalf n f).halves = vmod s.halves n f := rfl
@[simp] theorem State.onHalf_cores (s : State) (n : Nat) (f : ThinSt → ThinSt) : (s.onHalf n f).cores = s.cores := rfl
@[simp] theorem State.onHalf_tun (s : State) (n : Nat) (f : ThinSt → ThinSt) : (s.onHalf n f).tun = s.tun := rfl
@[simp] theorem State.onHalf_mem (s : State) (n : Nat) (f : ThinSt → ThinSt) : (s.onHalf n f).mem = s.mem := rfl
@[simp] theorem State.onHalf_stks (s : State) (n : Nat) (f : ThinSt → ThinSt) : (s.onHalf n f).stks = s.stks := rfl
@[simp] theorem State.onHalf_map (s : State) (n : Nat) (f : ThinSt → ThinSt) : (s.onHalf n f).map = s.map := rfl
@[simp] theorem State.onHalf_far (s : State) (n : Nat) (f : ThinSt → ThinSt) : (s.onHalf n f).far = s.far := rfl
@[simp] theorem State.onHalf_mirror (s : State) (n : Nat) (f : ThinSt → ThinSt) : (s.onHalf n f).mirror = s.mirror := rfl
@[simp] theorem State.onHalf_xch (s : State) (n : Nat) (f : ThinSt → ThinSt) : (s.onHalf n f).xch = s.xch := rfl
@[simp] theorem State.onHalf_port (s : State) (n : Nat) (f : ThinSt → ThinSt) : (s.onHalf n f).port = s.port := rfl
@[simp] theorem State.onHalf_ctx (s : State) (n : Nat) (f : ThinSt → ThinSt) (i : Nat) : (s.onHalf n f).ctx i = s.ctx i := rfl
@[simp] theorem State.onHalf_queue (s : State) (n : Nat) (f : ThinSt → ThinSt) (i : Nat) : (s.onHalf n f).queue i = s.queue i := rfl
@[simp] theorem State.onHalf_array (s : State) (n : Nat) (f : ThinSt → ThinSt) (i : Nat) : (s.onHalf n f).array i = s.array i := rfl
@[simp] theorem State.onHalf_core (s : State) (n : Nat) (f : ThinSt → ThinSt) (i : Nat) : (s.onHalf n f).core i = s.core i := rfl
@[simp] theorem State.onHalf_stack (s : State) (n : Nat) (f : ThinSt → ThinSt) (i : Nat) : (s.onHalf n f).stack i = s.stack i := rfl

@[simp] theorem State.onCore_pending (s : State) (n : Nat) (f : CoreSt → CoreSt) : (s.onCore n f).pending = s.pending := rfl
@[simp] theorem State.onCore_free (s : State) (n : Nat) (f : CoreSt → CoreSt) : (s.onCore n f).free = s.free := rfl
@[simp] theorem State.onCore_blk (s : State) (n : Nat) (f : CoreSt → CoreSt) : (s.onCore n f).blk = s.blk := rfl
@[simp] theorem State.onCore_start (s : State) (n : Nat) (f : CoreSt → CoreSt) : (s.onCore n f).start = s.start := rfl
@[simp] theorem State.onCore_svc (s : State) (n : Nat) (f : CoreSt → CoreSt) : (s.onCore n f).svc = s.svc := rfl
@[simp] theorem State.onCore_log (s : State) (n : Nat) (f : CoreSt → CoreSt) : (s.onCore n f).log = s.log := rfl
@[simp] theorem State.onCore_kpr (s : State) (n : Nat) (f : CoreSt → CoreSt) : (s.onCore n f).kpr = s.kpr := rfl
@[simp] theorem State.onCore_kin (s : State) (n : Nat) (f : CoreSt → CoreSt) : (s.onCore n f).kin = s.kin := rfl
@[simp] theorem State.onCore_pwr (s : State) (n : Nat) (f : CoreSt → CoreSt) : (s.onCore n f).pwr = s.pwr := rfl
@[simp] theorem State.onCore_ctxs (s : State) (n : Nat) (f : CoreSt → CoreSt) : (s.onCore n f).ctxs = s.ctxs := rfl
@[simp] theorem State.onCore_qs (s : State) (n : Nat) (f : CoreSt → CoreSt) : (s.onCore n f).qs = s.qs := rfl
@[simp] theorem State.onCore_cp (s : State) (n : Nat) (f : CoreSt → CoreSt) : (s.onCore n f).cp = s.cp := rfl
@[simp] theorem State.onCore_arrays (s : State) (n : Nat) (f : CoreSt → CoreSt) : (s.onCore n f).arrays = s.arrays := rfl
@[simp] theorem State.onCore_halves (s : State) (n : Nat) (f : CoreSt → CoreSt) : (s.onCore n f).halves = s.halves := rfl
@[simp] theorem State.onCore_cores (s : State) (n : Nat) (f : CoreSt → CoreSt) : (s.onCore n f).cores = vmod s.cores n f := rfl
@[simp] theorem State.onCore_tun (s : State) (n : Nat) (f : CoreSt → CoreSt) : (s.onCore n f).tun = s.tun := rfl
@[simp] theorem State.onCore_mem (s : State) (n : Nat) (f : CoreSt → CoreSt) : (s.onCore n f).mem = s.mem := rfl
@[simp] theorem State.onCore_stks (s : State) (n : Nat) (f : CoreSt → CoreSt) : (s.onCore n f).stks = s.stks := rfl
@[simp] theorem State.onCore_map (s : State) (n : Nat) (f : CoreSt → CoreSt) : (s.onCore n f).map = s.map := rfl
@[simp] theorem State.onCore_far (s : State) (n : Nat) (f : CoreSt → CoreSt) : (s.onCore n f).far = s.far := rfl
@[simp] theorem State.onCore_mirror (s : State) (n : Nat) (f : CoreSt → CoreSt) : (s.onCore n f).mirror = s.mirror := rfl
@[simp] theorem State.onCore_xch (s : State) (n : Nat) (f : CoreSt → CoreSt) : (s.onCore n f).xch = s.xch := rfl
@[simp] theorem State.onCore_port (s : State) (n : Nat) (f : CoreSt → CoreSt) : (s.onCore n f).port = s.port := rfl
@[simp] theorem State.onCore_ctx (s : State) (n : Nat) (f : CoreSt → CoreSt) (i : Nat) : (s.onCore n f).ctx i = s.ctx i := rfl
@[simp] theorem State.onCore_queue (s : State) (n : Nat) (f : CoreSt → CoreSt) (i : Nat) : (s.onCore n f).queue i = s.queue i := rfl
@[simp] theorem State.onCore_array (s : State) (n : Nat) (f : CoreSt → CoreSt) (i : Nat) : (s.onCore n f).array i = s.array i := rfl
@[simp] theorem State.onCore_half (s : State) (n : Nat) (f : CoreSt → CoreSt) (i : Nat) : (s.onCore n f).half i = s.half i := rfl
@[simp] theorem State.onCore_stack (s : State) (n : Nat) (f : CoreSt → CoreSt) (i : Nat) : (s.onCore n f).stack i = s.stack i := rfl

@[simp] theorem State.onStack_pending (s : State) (n : Nat) (f : StackSt → StackSt) : (s.onStack n f).pending = s.pending := rfl
@[simp] theorem State.onStack_free (s : State) (n : Nat) (f : StackSt → StackSt) : (s.onStack n f).free = s.free := rfl
@[simp] theorem State.onStack_blk (s : State) (n : Nat) (f : StackSt → StackSt) : (s.onStack n f).blk = s.blk := rfl
@[simp] theorem State.onStack_start (s : State) (n : Nat) (f : StackSt → StackSt) : (s.onStack n f).start = s.start := rfl
@[simp] theorem State.onStack_svc (s : State) (n : Nat) (f : StackSt → StackSt) : (s.onStack n f).svc = s.svc := rfl
@[simp] theorem State.onStack_log (s : State) (n : Nat) (f : StackSt → StackSt) : (s.onStack n f).log = s.log := rfl
@[simp] theorem State.onStack_kpr (s : State) (n : Nat) (f : StackSt → StackSt) : (s.onStack n f).kpr = s.kpr := rfl
@[simp] theorem State.onStack_kin (s : State) (n : Nat) (f : StackSt → StackSt) : (s.onStack n f).kin = s.kin := rfl
@[simp] theorem State.onStack_pwr (s : State) (n : Nat) (f : StackSt → StackSt) : (s.onStack n f).pwr = s.pwr := rfl
@[simp] theorem State.onStack_ctxs (s : State) (n : Nat) (f : StackSt → StackSt) : (s.onStack n f).ctxs = s.ctxs := rfl
@[simp] theorem State.onStack_qs (s : State) (n : Nat) (f : StackSt → StackSt) : (s.onStack n f).qs = s.qs := rfl
@[simp] theorem State.onStack_cp (s : State) (n : Nat) (f : StackSt → StackSt) : (s.onStack n f).cp = s.cp := rfl
@[simp] theorem State.onStack_arrays (s : State) (n : Nat) (f : StackSt → StackSt) : (s.onStack n f).arrays = s.arrays := rfl
@[simp] theorem State.onStack_halves (s : State) (n : Nat) (f : StackSt → StackSt) : (s.onStack n f).halves = s.halves := rfl
@[simp] theorem State.onStack_cores (s : State) (n : Nat) (f : StackSt → StackSt) : (s.onStack n f).cores = s.cores := rfl
@[simp] theorem State.onStack_tun (s : State) (n : Nat) (f : StackSt → StackSt) : (s.onStack n f).tun = s.tun := rfl
@[simp] theorem State.onStack_mem (s : State) (n : Nat) (f : StackSt → StackSt) : (s.onStack n f).mem = s.mem := rfl
@[simp] theorem State.onStack_stks (s : State) (n : Nat) (f : StackSt → StackSt) : (s.onStack n f).stks = vmod s.stks n f := rfl
@[simp] theorem State.onStack_map (s : State) (n : Nat) (f : StackSt → StackSt) : (s.onStack n f).map = s.map := rfl
@[simp] theorem State.onStack_far (s : State) (n : Nat) (f : StackSt → StackSt) : (s.onStack n f).far = s.far := rfl
@[simp] theorem State.onStack_mirror (s : State) (n : Nat) (f : StackSt → StackSt) : (s.onStack n f).mirror = s.mirror := rfl
@[simp] theorem State.onStack_xch (s : State) (n : Nat) (f : StackSt → StackSt) : (s.onStack n f).xch = s.xch := rfl
@[simp] theorem State.onStack_port (s : State) (n : Nat) (f : StackSt → StackSt) : (s.onStack n f).port = s.port := rfl
@[simp] theorem State.onStack_ctx (s : State) (n : Nat) (f : StackSt → StackSt) (i : Nat) : (s.onStack n f).ctx i = s.ctx i := rfl
@[simp] theorem State.onStack_queue (s : State) (n : Nat) (f : StackSt → StackSt) (i : Nat) : (s.onStack n f).queue i = s.queue i := rfl
@[simp] theorem State.onStack_array (s : State) (n : Nat) (f : StackSt → StackSt) (i : Nat) : (s.onStack n f).array i = s.array i := rfl
@[simp] theorem State.onStack_half (s : State) (n : Nat) (f : StackSt → StackSt) (i : Nat) : (s.onStack n f).half i = s.half i := rfl
@[simp] theorem State.onStack_core (s : State) (n : Nat) (f : StackSt → StackSt) (i : Nat) : (s.onStack n f).core i = s.core i := rfl

/-! Elements of a bank of units. -/

/-- A changed element. -/
theorem vget_vmod_same {α : Type} [Inhabited α] {n : Nat} (v : Vector α n) (i : Nat) (f : α → α) (h : i < n) :
    vget (vmod v i f) i = f (vget v i) := by
  simp [vget, vmod, h]

/-- The elements beside a changed one. -/
theorem vget_vmod_other {α : Type} [Inhabited α] {n : Nat} (v : Vector α n) (i j : Nat) (f : α → α) (h : j ≠ i) :
    vget (vmod v i f) j = vget v j := by
  unfold vget vmod
  split
  · rw [Vector.getElem?_set_ne]; omega
  · rfl

/-- An element after all are changed. -/
theorem vget_vall {α : Type} [Inhabited α] {n : Nat} (v : Vector α n) (i : Nat) (f : α → α) (h : i < n) :
    vget (vall v f) i = f (vget v i) := by
  simp [vget, vall, h]

/-- A bank of equal elements. -/
theorem vget_replicate {α : Type} [Inhabited α] {n : Nat} (x : α) (i : Nat) (h : i < n) : vget (Vector.replicate n x) i = x := by
  simp [vget, h]

/-- A bank given by a function. -/
theorem vget_ofFn {α : Type} [Inhabited α] {n : Nat} (f : Fin n → α) (i : Nat) (h : i < n) : vget (Vector.ofFn f) i = f ⟨i, h⟩ := by
  simp [vget, h]

@[simp] theorem State.onCtx_ctx_same (s : State) (n : Nat) (f : Ctx → Ctx) (h : n < 16) : (s.onCtx n f).ctx n = f (s.ctx n) :=
  vget_vmod_same s.ctxs n f h
@[simp] theorem State.onCtx_ctx_other (s : State) (n i : Nat) (f : Ctx → Ctx) (h : i ≠ n) : (s.onCtx n f).ctx i = s.ctx i :=
  vget_vmod_other s.ctxs n i f h
@[simp] theorem State.onQ_queue_same (s : State) (n : Nat) (f : Queue → Queue) (h : n < 64) : (s.onQ n f).queue n = f (s.queue n) :=
  vget_vmod_same s.qs n f h
@[simp] theorem State.onQ_queue_other (s : State) (n i : Nat) (f : Queue → Queue) (h : i ≠ n) : (s.onQ n f).queue i = s.queue i :=
  vget_vmod_other s.qs n i f h
@[simp] theorem State.onArray_array_same (s : State) (n : Nat) (f : ArraySt → ArraySt) (h : n < 32) : (s.onArray n f).array n = f (s.array n) :=
  vget_vmod_same s.arrays n f h
@[simp] theorem State.onArray_array_other (s : State) (n i : Nat) (f : ArraySt → ArraySt) (h : i ≠ n) : (s.onArray n f).array i = s.array i :=
  vget_vmod_other s.arrays n i f h
@[simp] theorem State.onHalf_half_same (s : State) (n : Nat) (f : ThinSt → ThinSt) (h : n < 16) : (s.onHalf n f).half n = f (s.half n) :=
  vget_vmod_same s.halves n f h
@[simp] theorem State.onHalf_half_other (s : State) (n i : Nat) (f : ThinSt → ThinSt) (h : i ≠ n) : (s.onHalf n f).half i = s.half i :=
  vget_vmod_other s.halves n i f h
@[simp] theorem State.onCore_core_same (s : State) (n : Nat) (f : CoreSt → CoreSt) (h : n < 8) : (s.onCore n f).core n = f (s.core n) :=
  vget_vmod_same s.cores n f h
@[simp] theorem State.onCore_core_other (s : State) (n i : Nat) (f : CoreSt → CoreSt) (h : i ≠ n) : (s.onCore n f).core i = s.core i :=
  vget_vmod_other s.cores n i f h
@[simp] theorem State.onStack_stack_same (s : State) (n : Nat) (f : StackSt → StackSt) (h : n < 24) : (s.onStack n f).stack n = f (s.stack n) :=
  vget_vmod_same s.stks n f h
@[simp] theorem State.onStack_stack_other (s : State) (n i : Nat) (f : StackSt → StackSt) (h : i ≠ n) : (s.onStack n f).stack i = s.stack i :=
  vget_vmod_other s.stks n i f h

end Sys2Proof.Machine
end

