-- ==== Sys2Proof/Laws/Reply.lean ====
section
/-! SUPPORT. What a packet's consumption, its reply and its launch do, in the terms of `Answered` and `Launched`. -/
namespace Sys2Proof.Machine

/-! Entries of a bank. -/

@[simp] theorem State.onQ_queue (s : State) (q : QIx) (f : Queue → Queue) : (s.onQ q f).queue q = f (s.queue q) :=
  vget_vmod_same _ _ _ q.isLt
theorem State.onQ_queuesBut (s : State) (q : Nat) (f : Queue → Queue) : s.queuesBut (s.onQ q f) q :=
  fun _ h => vget_vmod_other _ _ _ _ h
@[simp] theorem State.onCtx_ctx (s : State) (n : CIx) (f : Ctx → Ctx) : (s.onCtx n f).ctx n = f (s.ctx n) :=
  vget_vmod_same _ _ _ n.isLt
theorem State.onCtx_ctxsBut (s : State) (n : Nat) (f : Ctx → Ctx) : s.ctxsBut (s.onCtx n f) n :=
  fun _ h => vget_vmod_other _ _ _ _ h

/-! Bytes of a number. -/

theorem length_natLe : ∀ (w n : Nat), (natLe w n).length = n
  | _, 0 => rfl
  | w, n + 1 => by simp [natLe, length_natLe (w / 256) n]

theorem leNat_natLe : ∀ (n w : Nat), leNat (natLe w n) = w % 256 ^ n
  | 0, w => by simp [natLe, leNat, Nat.mod_one]
  | n + 1, w => by
    show (BitVec.ofNat 8 w).toNat + 256 * leNat (natLe (w / 256) n) = w % 256 ^ (n + 1)
    rw [leNat_natLe n, Nat.pow_succ', Nat.mod_mul]
    rfl

theorem MemSt.readNat_write (m : MemSt) (a w n : Nat) : (m.write a (natLe w n)).readNat a n = w % 256 ^ n := by
  unfold MemSt.readNat
  have h := MemSt.readBytes_write m a (natLe w n)
  rw [length_natLe] at h
  rw [h, leNat_natLe]

theorem MemSt.mark_read (m : MemSt) (x y a : Nat) : (m.mark x y).read a = m.read a := by
  unfold MemSt.mark
  split <;> rfl

theorem State.parkLine_read (s : State) (l x : Nat) : (s.parkLine l).mem.read x = s.mem.read x := by
  unfold State.parkLine
  extract_lets
  repeat' first
    | rfl
    | exact MemSt.mark_read ..
    | split

theorem State.parkWrite_read (s : State) (a len x : Nat) : (s.parkWrite a len).mem.read x = s.mem.read x := by
  unfold State.parkWrite
  split
  · rfl
  · next h =>
    clear h
    generalize linesOf a len = l
    induction l generalizing s with
    | nil => rfl
    | cons y r ih => exact (ih (s.parkLine y)).trans (s.parkLine_read y x)
/-- A store leaves the bytes it writes, and every other byte as it was. -/
theorem State.store_readNat (s : State) (a w n : Nat) : (s.store a (natLe w n)).readNat a n = w % 256 ^ n :=
  MemSt.readNat_write ..
theorem State.store_outside (s : State) (a : Nat) (bs : List Byte) : s.memOutside (s.store a bs) a bs.length := by
  intro x hx
  exact (MemSt.read_write_out _ _ _ _ hx).trans (s.parkWrite_read ..)

/-! The reply. -/

theorem Queue.advance_ring : ∀ (n : Nat) (q : Queue), (Queue.advance n q).head = q.head ∧ (Queue.advance n q).log = q.log
    ∧ (Queue.advance n q).base = q.base ∧ (Queue.advance n q).tail = q.tail
  | 0, _ => ⟨rfl, rfl, rfl, rfl⟩
  | n + 1, q => by
    unfold Queue.advance
    split
    · exact Queue.advance_ring n _
    · exact ⟨rfl, rfl, rfl, rfl⟩
theorem Queue.markReplied_ring (q : Queue) (pos : Nat) : (q.markReplied pos).head = q.head ∧ (q.markReplied pos).log = q.log
    ∧ (q.markReplied pos).base = q.base ∧ (q.markReplied pos).tail = q.tail := by
  unfold Queue.markReplied
  have h := Queue.advance_ring (q.replied.length + 1) { q with replied := pos :: q.replied, hold := if q.hold = some pos then none else q.hold }
  exact h

theorem replyWord_step (c : Cmd) (fin : Cond) (r : Option Nat) (n : Nat) : replyWord { c with step := n } fin r = replyWord c fin r := rfl

theorem Cmd.final_step (c : Cmd) (n : Nat) : ({ c with step := n } : Cmd).final = c.final := rfl

theorem ctxOf_lt (q : QIx) : ctxOf q < 16 := by
  have := q.isLt
  unfold ctxOf
  omega

/-- What `replyNow` does, operation by operation. -/
theorem State.replyNow_eq (s : State) (q pos p : Nat) (conds : List Cond) :
    s.replyNow q pos p conds =
      let c : Cmd := { Cmd.read q pos p (s.ctx (ctxOf q)).step (.fence []) with conds := conds }
      ((((s.meetAll conds).store (replyAddr (s.queue q) pos) (natLe (replyWord c c.final none) 64)).dropCmd (q, pos)).onCtx (ctxOf q) (fun x => { x with
        totals := addTotals x.totals Counts.zero
        qpend := if pIrq p then x.qpend ||| 2 ^ prioOf q else x.qpend })).onQ q (·.markReplied pos) := rfl

/-- What `reply` does after the store: the command leaves, its context and its queue are brought up to date. -/
theorem State.replyTail (u : State) (q : QIx) (k : Key) (F : Ctx → Ctx) (G : Queue → Queue) :
    let t := ((u.dropCmd k).onCtx (ctxOf q) F).onQ q G
    t.mem = u.mem ∧ t.queue q = G (u.queue q) ∧ u.queuesBut t q ∧ t.ctx (ctxOf q) = F (u.ctx (ctxOf q)) ∧ u.ctxsBut t (ctxOf q)
      ∧ t.cp = { u.cp with cmds := u.cp.cmds.filter (fun c => !(c.key == k)) } ∧ u.onlyIn [.ctxs, .qs, .cp] t := by
  intro t
  have hf : u.onlyIn [.ctxs, .qs, .cp] t :=
    (Ev.then (l := [.ctxs, .qs, .cp]) (State.onQ_ev ..) (Ev.then (State.onCtx_ev ..) (Ev.then (State.dropCmd_ev ..)
      (Ev.refl u) (by decide)) (by decide)) (by decide)).frame
  refine ⟨hf .mem (by decide), State.onQ_queue .., fun x h => State.onQ_queuesBut _ _ _ x h, ?_, ?_, rfl, hf⟩
  · exact State.onCtx_ctx (u.dropCmd k) ⟨ctxOf q, ctxOf_lt q⟩ F
  · exact fun x h => State.onCtx_ctxsBut (u.dropCmd k) _ F x h

theorem State.replyNow_answered (s : State) (q : QIx) (p : Nat) (conds : List Cond) :
    Answered s ((s.takePacket q).replyNow q (s.queue q).head p conds) q p conds := by
  have hq : (s.takePacket q).queue q = { s.queue q with head := ((s.queue q).head + 1) % 2 ^ 32 } := State.onQ_queue ..
  have hn := ctxOf_lt q
  rw [State.replyNow_eq]
  extract_lets c0 c
  have hc : c = { answerOf s q p conds with step := ((s.takePacket q).ctx (ctxOf q)).step } := by rfl
  have hw : replyWord c c.final none = replyWord (answerOf s q p conds) (answerOf s q p conds).final none := by
    rw [hc, replyWord_step, Cmd.final_step]
  clear_value c
  clear c0
  have ha : replyAddr ((s.takePacket q).queue q) (s.queue q).head = replyAddr (s.queue q) (s.queue q).head := by rw [hq]; rfl
  rw [hw, ha]
  generalize hv : replyWord (answerOf s q p conds) (answerOf s q p conds).final none = w
  clear hw hc c
  have hm := (State.meetAll_ev (s.takePacket q) conds).frame
  have hmq : ((s.takePacket q).meetAll conds).qs = (s.takePacket q).qs := hm .qs (by decide)
  have hmc : ((s.takePacket q).meetAll conds).cp = s.cp := hm .cp (by decide)
  have hmx : ((s.takePacket q).meetAll conds).ctxs = s.ctxs := hm .ctxs (by decide)
  clear hm
  generalize h0 : (s.takePacket q).meetAll conds = b at *
  have hr := b.store_readNat (replyAddr (s.queue q) (s.queue q).head) w 64
  have ho := b.store_outside (replyAddr (s.queue q) (s.queue q).head) (natLe w 64)
  rw [length_natLe] at ho
  have hs := (State.store_ev b (replyAddr (s.queue q) (s.queue q).head) (natLe w 64)).frame
  have hcp : (b.store (replyAddr (s.queue q) (s.queue q).head) (natLe w 64)).cp = s.cp := (hs .cp (by decide)).trans hmc
  have hqs : (b.store (replyAddr (s.queue q) (s.queue q).head) (natLe w 64)).qs = (s.takePacket q).qs :=
    (hs .qs (by decide)).trans hmq
  have hctx : (b.store (replyAddr (s.queue q) (s.queue q).head) (natLe w 64)).ctxs = s.ctxs := (hs .ctxs (by decide)).trans hmx
  generalize b.store (replyAddr (s.queue q) (s.queue q).head) (natLe w 64) = u at *
  have hqu : ∀ x, u.queue x = (s.takePacket q).queue x := fun x => congrArg (vget · x) hqs
  have hcu : ∀ x, u.ctx x = s.ctx x := fun x => congrArg (vget · x) hctx
  obtain ⟨tm, tq, tqs, tc, tcs, tcp, tf⟩ := State.replyTail u q (q.val, (s.queue q).head) (fun x => { x with
    totals := addTotals x.totals Counts.zero
    qpend := if pIrq p then x.qpend ||| 2 ^ prioOf q else x.qpend }) (·.markReplied (s.queue q).head)
  generalize ((u.dropCmd _).onCtx _ _).onQ _ _ = t at *
  have hring := Queue.markReplied_ring (u.queue q) (s.queue q).head
  rw [hqu, hq] at hring tq
  constructor
  · unfold State.readNat at hr ⊢
    rw [tm, hv]
    exact hr
  · intro x hx
    rw [h0, tm]
    exact ho x hx
  · rw [tq]
    exact hring.1
  · rw [tq]
    exact hring.2
  · exact fun x hx => (tqs x hx).trans ((hqu x).trans (State.onQ_queuesBut s q _ x hx))
  · rw [tc, hcu]
  · exact fun x hx => (tcs x hx).trans (hcu x)
  · rw [tcp, hcp]
  · rw [h0]
    exact fun f hf => State.same_trans (hs f (contains_of_sub (by decide) hf)) (tf f (contains_of_sub (by decide) hf))

/-! What every packet row does first. -/

/-- A packet that waits is consumed and handed on. -/
theorem withPacket_run {s : State} {q op p : Nat} (f : State → Nat → Nat → Nat → State) (h : Waits s q op p) :
    withPacket s q (· == op) f = f (s.takePacket q) p (packetAddr (s.queue q) (s.queue q).head) (s.queue q).head := by
  unfold withPacket
  simp only [h.dispatches, h.present, h.image, h.opcode, h.readable]
  simp

/-- A command put in flight by its packet. -/
theorem State.launchCmd_launched (s : State) (q : QIx) (c : Cmd) (held : Bool) (hq : c.q = q.val) (hp : c.pos = (s.queue q).head) :
    Launched s ((s.takePacket q).launchCmd c held) q c held := by
  have hn : (s.takePacket q).queue q = { s.queue q with head := ((s.queue q).head + 1) % 2 ^ 32 } := State.onQ_queue ..
  have hf : s.onlyIn [.qs, .cp] ((s.takePacket q).launchCmd c held) :=
    (Ev.then (l := [.qs, .cp]) (State.launchCmd_ev ..) ((State.takePacket_ev s q).mono (by decide)) (by decide)).frame
  unfold State.launchCmd at hf ⊢
  cases held with
  | false =>
    refine ⟨rfl, ⟨hq, hp⟩, hn, fun x hx => State.onQ_queuesBut s q _ x hx, hf⟩
  | true =>
    refine ⟨rfl, ⟨hq, hp⟩, ?_, fun x hx => ?_, hf⟩
    · simp only [if_true, hq]
      refine (State.onQ_queue ..).trans ?_
      show { (s.takePacket q).queue q with hold := some c.pos } = _
      rw [hn, hp]
    · simp only [if_true, hq]
      exact (State.onQ_queuesBut _ _ _ x hx).trans (State.onQ_queuesBut s q _ x hx)

/-- A store in near memory comes to the same before a packet is consumed and after. -/
theorem State.parkLine_takePacket (s : State) (q l : Nat) : (s.takePacket q).parkLine l = (s.parkLine l).takePacket q := by
  have hs : ∀ x, (s.takePacket q).stack x = s.stack x := fun _ => rfl
  have hm : (s.takePacket q).mem = s.mem := rfl
  have hp : (s.takePacket q).map = s.map := rfl
  have he : ∀ g, effPlace (s.takePacket q) g = effPlace s g := fun _ => rfl
  unfold State.parkLine
  simp only [hs, hm, hp, he]
  repeat' first
    | rfl
    | split

theorem State.parkWrite_takePacket (s : State) (q a len : Nat) : (s.takePacket q).parkWrite a len = (s.parkWrite a len).takePacket q := by
  unfold State.parkWrite
  show (if memSound s || !s.map.parity then s.takePacket q else _) = _
  split
  · rfl
  · next h =>
    clear h
    generalize linesOf a len = l
    induction l generalizing s with
    | nil => rfl
    | cons y r ih => exact (congrArg (List.foldl State.parkLine · r) (s.parkLine_takePacket q y)).trans (ih (s.parkLine y))

theorem State.store_takePacket (s : State) (q a : Nat) (bs : List Byte) : (s.takePacket q).store a bs = (s.store a bs).takePacket q :=
  congrArg (fun u : State => u.writeBytes a bs) (s.parkWrite_takePacket q a bs.length)

/-- A store of a packet's own, then its reply. -/
theorem State.store_answered (s : State) (q : QIx) (a : Nat) (bs : List Byte) (p : Nat) (conds : List Cond) :
    Answered (s.store a bs) (((s.takePacket q).store a bs).replyNow q (s.queue q).head p conds) q p conds := by
  rw [State.store_takePacket]
  have hq : (s.store a bs).queue q = s.queue q := congrArg (vget · q.val) ((State.store_ev s a bs).frame .qs (by decide))
  rw [← hq]
  exact State.replyNow_answered ..

/-! A reply to a command in flight. -/

/-- The reply of a command, once its progress area is settled. -/
theorem reply_gen (s : State) (c : Cmd) (hq : c.q < 64) : Replied (s.settleArea c c.final).1 (s.reply c) c (s.settleArea c c.final).2 := by
  have hs := (State.settleArea_ev s c c.final).frame
  unfold State.reply
  simp only
  generalize s.settleArea c c.final = r at hs
  obtain ⟨v, i⟩ := r
  have hq0 : s.queue c.q = v.queue c.q := (congrArg (vget · c.q) (hs .qs (by decide))).symm
  rw [hq0]
  simp only
  clear hs hq0 s
  generalize hv : replyWord c c.final i = w
  have hm := (State.meetAll_ev v c.conds).frame
  have hmq : (v.meetAll c.conds).qs = v.qs := hm .qs (by decide)
  have hmc : (v.meetAll c.conds).cp = v.cp := hm .cp (by decide)
  have hmx : (v.meetAll c.conds).ctxs = v.ctxs := hm .ctxs (by decide)
  clear hm
  generalize h0 : v.meetAll c.conds = b at *
  have hr := b.store_readNat (replyAddr (v.queue c.q) c.pos) w 64
  have ho := b.store_outside (replyAddr (v.queue c.q) c.pos) (natLe w 64)
  rw [length_natLe] at ho
  have hf := (State.store_ev b (replyAddr (v.queue c.q) c.pos) (natLe w 64)).frame
  generalize b.store (replyAddr (v.queue c.q) c.pos) (natLe w 64) = u at *
  have hqu : ∀ x, u.queue x = v.queue x := fun x => congrArg (vget · x) ((hf .qs (by decide)).trans hmq)
  have hcu : ∀ x, u.ctx x = v.ctx x := fun x => congrArg (vget · x) ((hf .ctxs (by decide)).trans hmx)
  have hcp : u.cp = v.cp := (hf .cp (by decide)).trans hmc
  obtain ⟨tm, tq, tqs, tc, tcs, tcp, tf⟩ := State.replyTail u ⟨c.q, hq⟩ c.key (fun x => { x with
    totals := addTotals x.totals c.counts
    qpend := if pIrq c.pkt then x.qpend ||| 2 ^ prioOf c.q else x.qpend }) (·.markReplied c.pos)
  generalize ((u.dropCmd _).onCtx _ _).onQ _ _ = t at *
  constructor
  · unfold State.readNat at hr ⊢
    rw [tm, hv]
    exact hr
  · intro x hx
    rw [h0, tm]
    exact ho x hx
  · rw [tq]
    show (u.queue c.q).markReplied c.pos = _
    rw [hqu]
  · exact fun x hx => (tqs x hx).trans (hqu x)
  · exact tc.trans (by rw [hcu])
  · exact fun x hx => (tcs x hx).trans (hcu x)
  · rw [tcp, hcp]
  · rw [h0]
    exact fun f h => State.same_trans (hf f (contains_of_sub (by decide) h)) (tf f (contains_of_sub (by decide) h))

/-- The reply of a command that holds no progress area. -/
theorem State.reply_replied (s : State) (c : Cmd) (hq : c.q < 64) (hb : c.comp? = none) : Replied s (s.reply c) c none := by
  have h := reply_gen s c hq
  have he : s.settleArea c c.final = (s, none) := by
    unfold State.settleArea
    rw [hb]
  rw [he] at h
  exact h

end Sys2Proof.Machine
end

