-- ==== Sys2Proof/Laws/Window.lean ====
section
/-! SUPPORT. The register window: a served write reaches its register, and what the writes of contexts and queues leave. -/
namespace Sys2Proof.Machine

theorem regWrite_served {s : State} (h : Served s) (off v : Nat) : s.regWrite off v = s.writeReg off v := by
  unfold Served windowOpen at h
  simp only [Bool.and_eq_true, Bool.not_eq_true', bne_iff_ne, ne_eq] at h
  obtain ⟨⟨⟨h1, h2⟩, h3⟩, h4⟩ := h
  unfold unitsRun at h4
  unfold State.regWrite
  simp only [h1, h2, h3]
  simp only [Bool.or_eq_true, beq_iff_eq] at h4
  rcases h4 with h4 | h4 <;> simp [h4]

theorem writeReg_page (s : State) (n r v : Nat) (hr : r < 0x800) : s.writeReg (0x8000 + 0x800 * n + r) v = s.writePage n r v := by
  unfold State.writeReg
  rw [if_pos (by omega)]
  have h1 : (0x8000 + 0x800 * n + r - 0x8000) / 0x800 = n := by omega
  have h2 : (0x8000 + 0x800 * n + r - 0x8000) % 0x800 = r := by omega
  rw [h1, h2]
theorem writeReg_doorbell (s : State) (q : QIx) (v : Nat) : s.writeReg (0x8000 + 0x800 * (q / 4) + 8 * (q % 4)) v = s.writeDoorbell q v := by
  rw [writeReg_page _ _ _ _ (by omega)]
  unfold State.writePage
  rw [if_pos (by omega)]
  congr 1
  omega
theorem writeReg_qBase (s : State) (q : QIx) (v : Nat) : s.writeReg (0x800 + 8 * q) v = s.writeQBase q v := by
  have := q.isLt
  unfold State.writeReg
  rw [if_neg (by omega), if_pos (by omega)]
  congr 1
  omega
theorem writeReg_ctxCtrl (s : State) (n : CIx) (v : Nat) : s.writeReg (0x400 + 8 * n) v = s.writeCtxCtrl n v := by
  have := n.isLt
  unfold State.writeReg
  rw [if_neg (by omega), if_neg (by omega), if_pos (by omega)]
  congr 1
  omega
theorem foldl_onQ_queue (f : Queue → Queue) : ∀ (l : List Nat) (s : State), l.Nodup → (∀ x ∈ l, x < 64) → ∀ x,
    (l.foldl (fun s q => s.onQ q f) s).queue x = if x ∈ l then f (s.queue x) else s.queue x
  | [], s, _, _, x => by simp
  | a :: l, s, hn, hl, x => by
    rw [List.foldl_cons, foldl_onQ_queue f l _ (List.nodup_cons.1 hn).2 (fun y hy => hl y (List.mem_cons_of_mem _ hy))]
    have ha : a < 64 := hl a List.mem_cons_self
    by_cases h1 : x = a
    · subst h1
      simp [(List.nodup_cons.1 hn).1]
      exact State.onQ_queue s ⟨x, ha⟩ f
    · have : (s.onQ a f).queue x = s.queue x := State.onQ_queuesBut s a f x h1
      simp [h1, this]
theorem mem_range (lo n x : Nat) : x ∈ rangeFrom lo n ↔ lo ≤ x ∧ x < lo + n := by
  induction n generalizing lo with
  | zero => simp [rangeFrom]
  | succ n ih => simp only [rangeFrom, List.mem_cons, ih]; omega
theorem range_nodup (lo n : Nat) : (rangeFrom lo n).Nodup := by
  induction n generalizing lo with
  | zero => simp [rangeFrom]
  | succ n ih =>
    rw [rangeFrom, List.nodup_cons]
    refine ⟨fun h => ?_, ih _⟩
    have := (mem_range _ _ _).1 h
    omega
theorem onQueues_queue (s : State) (n : CIx) (f : Queue → Queue) (x : Nat) : (s.onQueues n f).queue x = if x / 4 = n then f (s.queue x) else s.queue x := by
  have := n.isLt
  unfold State.onQueues queuesOf
  rw [foldl_onQ_queue f _ s (range_nodup ..) (fun y hy => by have := (mem_range ..).1 hy; omega)]
  have : x ∈ rangeFrom (4 * n) 4 ↔ x / 4 = n := by
    rw [mem_range]
    omega
  simp only [this]
theorem withFields_share (c : Ctx) (v : Nat) : (c.withFields v).share = ccShare v := by
  unfold Ctx.withFields
  simp only
  split
  · rfl
  · split <;> rfl
theorem withFields_mode (c : Ctx) (v : Nat) : (c.withFields v).mode = c.mode := by
  unfold Ctx.withFields
  simp only
  split
  · rfl
  · split <;> rfl

theorem canDispatch_active {s : State} {q : Nat} (h : (s.ctx (ctxOf q)).mode ≠ .active) : canDispatch s q = false := by
  unfold canDispatch
  simp [h]

/-! Eligibility taken anew changes nothing else of a core (R299). -/

theorem elect_elected (s : State) (c : Nat) : s.coresElected (s.elect c) := by
  intro k
  by_cases hk : k = c
  · subst hk
    by_cases h8 : k < 8
    · exact ⟨_, _, vget_vmod_same _ _ _ h8⟩
    · refine ⟨(s.core k).v, (s.core k).elig, ?_⟩
      show vget (vmod s.cores k _) k = _
      unfold vmod
      simp [h8]; rfl
  · exact ⟨(s.core k).v, (s.core k).elig, vget_vmod_other _ _ _ _ hk⟩
theorem elected_trans {a b c : State} (h : a.coresElected b) (g : b.coresElected c) : a.coresElected c := by
  intro k
  obtain ⟨v, e, h⟩ := h k
  obtain ⟨v', e', g⟩ := g k
  exact ⟨v', e', by rw [g, h]⟩
theorem elected_of_eq {a b : State} (h : b.cores = a.cores) : a.coresElected b := fun k => ⟨_, _, congrArg (vget · k) h⟩
theorem electAll_elected (s : State) : s.coresElected s.electAll := by
  have : ∀ (l : List Nat) (s : State), s.coresElected (l.foldl State.elect s) := by
    intro l
    induction l with
    | nil => exact fun s => elected_of_eq rfl
    | cons c l ih => exact fun s => elected_trans (elect_elected s c) (ih _)
  exact this _ s
theorem electAll_rest (s : State) : s.electAll.ctxs = s.ctxs ∧ s.electAll.qs = s.qs :=
  ⟨(State.electAll_ev s).frame .ctxs (by decide), (State.electAll_ev s).frame .qs (by decide)⟩

end Sys2Proof.Machine
end

