-- ==== Sys2Proof/Laws/Log.lean ====
section
/-! SUPPORT. What a record of the error log and a report of conditions change, and what a store leaves. -/
namespace Sys2Proof.Machine

/-- Equal states are equal outcomes. -/
theorem next_congr {x y : State} (h : x = y) : (Host.Outcome.next x : Host.Outcome State Fault Refusal) = .next y :=
  congrArg _ h

theorem raise_bit (s : State) (i : Nat) : bitOf (s.raiseSvc i).svc.irq i = true := by
  show bitOf (s.svc.irq ||| 2 ^ i) i = true
  unfold bitOf
  have : ((s.svc.irq ||| 2 ^ i) >>> i) % 2 = 1 := by
    have h := Nat.testBit_or s.svc.irq (2^i) i
    rw [Nat.testBit_two_pow_self, Bool.or_true] at h
    rw [Nat.testBit, Nat.one_and_eq_mod_two] at h
    simpa using h
  simp [this]

theorem logRec_log (s : State) (r : Rec) : (s.logRec r).log = s.log.push (recWord s.log.nextSeq s.kpr.sample r) := by
  unfold State.logRec State.mirrorRec
  dsimp only
  split <;> split <;> first | rfl | skip
  all_goals exact (State.store_ev _ _ _).frame .log (by decide)

theorem logRec_svc (s : State) (r : Rec) : (s.logRec r).svc = if recRaises r then { s.svc with irq := s.svc.irq ||| 2 ^ 0 } else s.svc := by
  have hm : ∀ (u : State) i w, (u.mirrorRec i w).svc = u.svc := fun u i w => (State.mirrorRec_ev u i w).frame .svc (by decide)
  unfold State.logRec
  dsimp only
  split
  · unfold State.raiseSvc State.onSvc
    dsimp only
    rw [hm]; rfl
  · rw [hm]; rfl

/-- A record that raises no interrupt leaves SVC_IRQ alone. -/
theorem logRec_quiet (s : State) (r : Rec) (h : recRaises r = false) : Ev [.log, .mem, .mirror] s (s.logRec r) := by
  have e := State.logRec_ev s r
  refine ⟨fun f hf => ?_, e.mem, e.fuse⟩
  by_cases hs : f = .svc
  · subst hs
    show (s.logRec r).svc = s.svc
    rw [logRec_svc, h]; rfl
  · refine e.frame f ?_
    revert hf hs
    cases f <;> decide

/-- A record's mirror is the one run of near memory it writes (R471). -/
theorem logRec_outside (s : State) (r : Rec) : s.memOutside (s.logRec r) (logMirror + 32 * s.log.wr) 32 := by
  intro x hx
  have key : (State.mirrorRec (s.onLog (fun _ => s.log.push (recWord s.log.nextSeq s.kpr.sample r))) s.log.wr
      (recWord s.log.nextSeq s.kpr.sample r)).mem.read x = s.mem.read x := by
    unfold State.mirrorRec
    split
    · rfl
    · exact State.store_outside _ _ _ x (by rw [length_natLe]; exact hx)
  unfold State.logRec
  dsimp only
  split
  · exact key
  · exact key

theorem logs_ok (s : State) (r : Rec) : Logs s (s.logRec r) r := by
  refine ⟨logRec_log s r, logRec_outside s r, fun h => ?_⟩
  rw [logRec_svc, h]
  exact raise_bit s 0

theorem recRaises_iff (r : Rec) : recRaises r = true ↔ (r.action = 1 ∨ r.action = 4 ∨ r.action = 5 ∨ r.action = 6 ∨ r.action = 7 ∨ r.event = 0x20 ∨ r.event = 0x1A ∨ r.event = 0x13) := by
  simp [recRaises, or_assoc]

theorem logRec_seq (s : State) (r : Rec) : (s.logRec r).log.nextSeq = (s.log.nextSeq + 1) % 2 ^ 32 := by
  have hm : ∀ (u : State) i w, (u.mirrorRec i w).log = u.log := fun u i w => (State.mirrorRec_ev u i w).frame .log (by decide)
  unfold State.logRec
  simp only
  split
  · show (State.mirrorRec _ _ _).log.nextSeq = _
    rw [hm]; rfl
  · rw [hm]; rfl

theorem logs_blk (l : List Nat) (u : State) : (l.foldl (fun s c => s.logRec { event := 0x20, action := 9, d0 := c }) u).blk = u.blk :=
  (Ev.foldl (l := [.svc, .log, .mem, .mirror]) _ (fun _ _ h => Ev.then (State.logRec_ev ..) h (by decide)) l u (Ev.refl u)).frame .blk (by decide)
theorem report_mode (u : State) : u.report.blk.mode = u.blk.mode := by
  unfold State.report
  split
  · rfl
  · simp only
    generalize condsNow u = l
    generalize l.filter _ = l'
    have := logs_blk l' u
    generalize List.foldl _ u l' = v at *
    show v.blk.mode = _
    rw [this]

/-- A report of conditions takes the interrupt back for nothing. -/
theorem report_irq (s : State) (h : bitOf s.svc.irq 0 = true) : bitOf s.report.svc.irq 0 = true := by
  have hor : ∀ (u : State) r, bitOf u.svc.irq 0 = true → bitOf (u.logRec r).svc.irq 0 = true := by
    intro u r hu
    rw [logRec_svc]
    split
    · exact raise_bit u 0
    · exact hu
  have hf : ∀ (l : List Nat) (u : State), bitOf u.svc.irq 0 = true → bitOf (l.foldl (fun s c => s.logRec { event := 0x20, action := 9, d0 := c }) u).svc.irq 0 = true := by
    intro l
    induction l with
    | nil => exact fun u h => h
    | cons c l ih => exact fun u h => ih _ (hor u _ h)
  unfold State.report
  split
  · exact h
  · simp only
    generalize condsNow s = l
    generalize l.filter _ = l'
    have := hf l' s h
    generalize List.foldl _ s l' = v at *
    exact this

theorem store_cp (s : State) (a : Nat) (b : List Byte) : (s.store a b).cp = s.cp := (State.store_ev s a b).frame .cp (by decide)
theorem store_read (s : State) (a : Nat) (b : List Byte) : (s.store a b).readBytes a b.length = b := MemSt.readBytes_write ..
theorem store_byte (s : State) (a : Nat) (b : List Byte) (i : Nat) (h : i < b.length) : (s.store a b).mem.read (a + i) = b[i] := MemSt.read_write_in _ a b i h

theorem readBytes_len (s : State) (a n : Nat) : (s.readBytes a n).length = n := by
  show ((rangeFrom a n).map _).length = n
  simp
theorem natLe_get : ∀ (n w i : Nat) (h : i < (natLe w n).length), (natLe w n)[i] = BitVec.ofNat 8 (w / 256 ^ i)
  | 0, w, i, h => by simp [natLe] at h
  | n + 1, w, i, h => by
    cases i with
    | zero => simp [natLe]
    | succ i =>
      simp only [natLe, List.getElem_cons_succ]
      rw [natLe_get n]
      rw [Nat.pow_succ', Nat.div_div_eq_div_mul]

/-- Equal numbers of arrays serve in equal banks. -/
theorem arraysIn_congr {s t : State} (h : t.arrays = s.arrays) : arraysIn t = arraysIn s := by unfold arraysIn; rw [h]

end Sys2Proof.Machine
end

