-- ==== Sys2Proof/Laws/Area.lean ====
section
/-! SUPPORT. Progress areas: they lie in the lowest 128 MiB of near memory (R291, R471). -/
namespace Sys2Proof.Machine

theorem State.memAbove_refl (s : State) : s.memAbove s := fun _ _ => rfl

theorem State.memAbove_trans {s t u : State} (h : s.memAbove t) (g : t.memAbove u) : s.memAbove u := fun x hx => (g x hx).trans (h x hx)

/-- The same memory reads the same. -/
theorem State.memAbove_of_mem {s t : State} (h : t.mem = s.mem) : s.memAbove t := fun x _ => by rw [h]

theorem length_flatMap_const {α β : Type} (f : α → List β) (n : Nat) (h : ∀ x, (f x).length = n) :
    ∀ l : List α, (l.flatMap f).length = l.length * n
  | [] => by simp
  | x :: l => by rw [List.flatMap_cons, List.length_append, h, length_flatMap_const f n h l, List.length_cons, Nat.succ_mul, Nat.add_comm]

/-- A live table holds at most 1,023 entries of 16 bytes. -/
theorem Comp.liveBytes_length (c : Comp) : c.liveBytes.length ≤ 16368 := by
  unfold Comp.liveBytes
  rw [length_flatMap_const _ 16 (fun x => length_natLe _ _)]
  have : c.liveTiles.length ≤ 1023 := by unfold Comp.liveTiles; rw [List.length_take]; exact Nat.min_le_left ..
  omega

/-- What a progress area takes lies below 128 MiB. -/
theorem State.writeArea_above (s : State) (c : Comp) (i ctx op st status : Nat) : s.memAbove (s.writeArea c i ctx op st status) := by
  intro x hx
  have h1 := c.liveBytes_length
  have h2 : (c.bitmap.take 262144).length ≤ 262144 := by rw [List.length_take]; exact Nat.min_le_left ..
  have h3 : i % 256 < 256 := Nat.mod_lt _ (by decide)
  unfold State.writeArea
  simp only
  generalize i % 256 = r at *
  rw [State.store_outside _ _ _ x (by omega), State.store_outside _ _ _ x (by omega),
    State.store_outside _ _ _ x (by rw [length_natLe]; omega)]

/-- A progress area brought up to date: nothing above changes. -/
theorem State.syncArea_above (s : State) (k : Key) : s.memAbove (s.syncArea k) := by
  unfold State.syncArea
  split
  · exact s.memAbove_refl
  · split
    · exact s.memAbove_refl
    · split
      · exact s.memAbove_refl
      · exact State.writeArea_above _ _ _ _ _ _ _

end Sys2Proof.Machine
end

