-- ==== Sys2Proof/Laws/Find.lean ====
section
/-! SUPPORT. The commands in flight: what a change of one leaves findable. -/
namespace Sys2Proof.Machine

theorem onCmd_find (s : State) (k : Key) (f : Cmd → Cmd) (hf : ∀ c, (f c).key = c.key) : (s.onCmd k f).cmd? k = (s.cmd? k).map f := by
  unfold State.onCmd State.cmd? State.onCp
  simp only
  generalize s.cp.cmds = l
  induction l with
  | nil => rfl
  | cons c r ih =>
    rw [List.map_cons, List.find?_cons, List.find?_cons]
    by_cases h : c.key = k
    · have h1 : (c.key == k) = true := by simp [h]
      have h2 : ((if (c.key == k) = true then f c else c).key == k) = true := by rw [if_pos h1, hf]; exact h1
      rw [h2, h1]
      simp
    · have h1 : (c.key == k) = false := by simp [h]
      have h2 : ((if (c.key == k) = true then f c else c).key == k) = false := by rw [h1]; simp [h1]
      rw [h2, h1]
      exact ih
theorem onEng_key (c : Cmd) (f : Eng → Eng) : (c.onEng f).key = c.key := by
  unfold Cmd.onEng; split <;> rfl
theorem onEng_find {s : State} {k : Key} {c : Cmd} {e : Eng} (f : Eng → Eng) (h : s.cmd? k = some c) (he : c.eng? = some e) :
    (s.onEng k f).cmd? k = some { c with body := .engine (f e) } := by
  unfold State.onEng
  rw [onCmd_find _ _ _ (fun c => onEng_key c f), h]
  unfold Cmd.eng? at he
  split at he
  · next hb => cases he; simp [Cmd.onEng, hb]
  · cases he
theorem settle_find {s : State} {k : Key} {c : Cmd} {e : Eng} (h : s.cmd? k = some c) (he : c.eng? = some e) :
    ∃ d, (s.engSettle k).cmd? k = some d ∧ d.eng? = some e ∧ d.conds = c.conds ∧ d.ended = (c.ended || ((e.halted || e.allDone) && e.quiet)) := by
  unfold State.engSettle
  rw [onCmd_find, h]
  · refine ⟨_, rfl, ?_⟩
    simp only [he]
    by_cases hh : ((e.halted || e.allDone) && e.quiet) = true
    · rw [if_pos hh, hh]
      exact ⟨he, rfl, by simp⟩
    · rw [if_neg hh]
      simp only [Bool.not_eq_true] at hh
      rw [hh]
      exact ⟨he, rfl, by simp⟩
  · intro c
    split
    · split <;> rfl
    · rfl
theorem halt_find {s : State} {k : Key} {c : Cmd} {e : Eng} (x : Cond) (h : s.cmd? k = some c) (he : c.eng? = some e) :
    ∃ d, (s.engHalt k x).cmd? k = some d ∧ d.eng? = some { e with halted := true } ∧ d.conds = c.conds ++ [x] ∧ d.ended = (c.ended || e.quiet) := by
  unfold State.engHalt
  have h1 : (s.onCmd k (fun c => { c with conds := c.conds ++ [x], cut := true })).cmd? k = some { c with conds := c.conds ++ [x], cut := true } := by
    rw [onCmd_find _ _ _ (by intro c; rfl), h]; rfl
  have h2 := onEng_find (fun e => { e with halted := true }) h1 (e := e) he
  obtain ⟨d, h3, h4, h5, h6⟩ := settle_find (e := { e with halted := true }) h2 rfl
  refine ⟨d, h3, h4, h5, h6.trans ?_⟩
  show (c.ended || ((true || _) && e.quiet)) = _
  simp
theorem done_find {s : State} {k : Key} {c : Cmd} {e : Eng} (g : Nat) (h : s.cmd? k = some c) (he : c.eng? = some e) :
    ∃ d, (s.granuleDone k g).cmd? k = some d ∧ d.eng? = some { e with doneBits := e.doneBits.set g true } ∧ d.conds = c.conds := by
  unfold State.granuleDone
  have h2 := onEng_find (fun e => { e with doneBits := e.doneBits.set g true }) h he
  obtain ⟨d, h3, h4, h5, _⟩ := settle_find (e := { e with doneBits := e.doneBits.set g true }) h2 rfl
  exact ⟨d, h3, h4, h5⟩
theorem cmd_of_cp {s t : State} (h : t.cp = s.cp) (k : Key) : t.cmd? k = s.cmd? k := by
  unfold State.cmd?; rw [h]

theorem accessFault_same {s t : State} (h : SameMem s t) (hb : t.blk = s.blk) (hs : t.start = s.start) (a n : Nat) : accessFault t a n = accessFault s a n := by
  have h1 : farAbsent t = farAbsent s := by unfold farAbsent; rw [h.far, hb, hs]
  have h2 : ∀ i, t.extent? i = s.extent? i := by intro i; unfold State.extent?; rw [h.far]
  have h3 : farLost t a n = farLost s a n := by unfold farLost; simp only [h2]
  unfold accessFault
  rw [h.badByte, h.readFault, h1, h3]

theorem accessFault_onEng (s : State) (k : Key) (f : Eng → Eng) (a n : Nat) : accessFault (s.onEng k f) a n = accessFault s a n := by
  have h : SameMem s (s.onEng k f) := ⟨rfl, rfl, rfl, rfl⟩
  have hb : (s.onEng k f).blk = s.blk := rfl
  have hs : (s.onEng k f).start = s.start := rfl
  exact accessFault_same h hb hs a n

end Sys2Proof.Machine
end

