-- ==== Sys2Proof/Laws/Units.lean ====
section
/-! SUPPORT. The standing of the units: what operations on their work leave of it, and what retiring an array or a core does. -/
namespace Sys2Proof.Machine

/-- What operations on work keep of a unit's standing: whether it is in service, retired, in a diagnostic pass. -/
structure Stand (s t : State) : Prop where
  ins : ∀ a < 32, (t.array a).inService = (s.array a).inService
  ret : ∀ a < 32, (t.array a).retired = (s.array a).retired
  diag : ∀ a < 32, (t.array a).diag = (s.array a).diag
  ward : ∀ a < 32, (t.array a).wardFails = (s.array a).wardFails
  core : ∀ c < 8, (t.core c).inService = (s.core c).inService
  thin : ∀ c < 8, (t.core c).thinIn = (s.core c).thinIn

theorem Stand.refl (s : State) : Stand s s := ⟨fun _ _ => rfl, fun _ _ => rfl, fun _ _ => rfl, fun _ _ => rfl, fun _ _ => rfl, fun _ _ => rfl⟩
theorem Stand.trans {a b c : State} (g : Stand b c) (h : Stand a b) : Stand a c :=
  ⟨fun i hi => (g.1 i hi).trans (h.1 i hi), fun i hi => (g.2 i hi).trans (h.2 i hi), fun i hi => (g.3 i hi).trans (h.3 i hi),
    fun i hi => (g.4 i hi).trans (h.4 i hi), fun i hi => (g.5 i hi).trans (h.5 i hi), fun i hi => (g.6 i hi).trans (h.6 i hi)⟩

theorem Stand.of {s t : State} (ha : t.arrays = s.arrays) (hc : t.cores = s.cores) : Stand s t := by
  have a : ∀ i, t.array i = s.array i := fun i => by unfold State.array; rw [ha]
  have c : ∀ i, t.core i = s.core i := fun i => by unfold State.core; rw [hc]
  exact ⟨fun i _ => by rw [a], fun i _ => by rw [a], fun i _ => by rw [a], fun i _ => by rw [a], fun i _ => by rw [c], fun i _ => by rw [c]⟩

theorem Stand.foldl {α : Type} (f : State → α → State) (hf : ∀ u x, Stand u (f u x)) : ∀ (l : List α) (s : State), Stand s (l.foldl f s)
  | [], s => Stand.refl s
  | x :: l, s => (Stand.foldl f hf l (f s x)).trans (hf s x)

theorem Stand.onArray (s : State) (n : Nat) (f : ArraySt → ArraySt) (h : ∀ x, (f x).inService = x.inService ∧ (f x).retired = x.retired
    ∧ (f x).diag = x.diag ∧ (f x).wardFails = x.wardFails) : Stand s (s.onArray n f) := by
  have e : ∀ a < 32, (s.onArray n f).array a = f (s.array a) ∨ (s.onArray n f).array a = s.array a := by
    intro a ha
    by_cases hn : a = n
    · subst hn; exact .inl (State.onArray_array_same s a f ha)
    · exact .inr (State.onArray_array_other s n a f hn)
  refine ⟨?_, ?_, ?_, ?_, fun _ _ => rfl, fun _ _ => rfl⟩
  all_goals
    intro a ha
    rcases e a ha with e | e
    · rw [e]; simp only [h]
    · rw [e]

theorem Stand.onCore (s : State) (n : Nat) (f : CoreSt → CoreSt) (h : ∀ x, (f x).inService = x.inService ∧ (f x).thinIn = x.thinIn) :
    Stand s (s.onCore n f) := by
  have e : ∀ a < 8, (s.onCore n f).core a = f (s.core a) ∨ (s.onCore n f).core a = s.core a := by
    intro a ha
    by_cases hn : a = n
    · subst hn; exact .inl (State.onCore_core_same s a f ha)
    · exact .inr (State.onCore_core_other s n a f hn)
  refine ⟨fun _ _ => rfl, fun _ _ => rfl, fun _ _ => rfl, fun _ _ => rfl, ?_, ?_⟩
  all_goals
    intro a ha
    rcases e a ha with e | e
    · rw [e]; simp only [h]
    · rw [e]

theorem Stand.ite {s a b : State} {p : Prop} [Decidable p] (ha : Stand s a) (hb : Stand s b) : Stand s (if p then a else b) := by
  split
  · exact ha
  · exact hb

theorem stand_setMail (s : State) (u m) : Stand s (s.setMail u m) := by
  unfold State.setMail
  split
  · refine Stand.onArray _ _ _ ?_; intro _; exact ⟨rfl, rfl, rfl, rfl⟩
  · split
    · exact Stand.of rfl rfl
    · refine Stand.onCore _ _ _ ?_; intro _; exact ⟨rfl, rfl⟩
theorem stand_setHold (s : State) (u m) : Stand s (s.setHold u m) := by
  unfold State.setHold
  split
  · refine Stand.onArray _ _ _ ?_; intro _; exact ⟨rfl, rfl, rfl, rfl⟩
  · split
    · exact Stand.of rfl rfl
    · refine Stand.onCore _ _ _ ?_; intro _; exact ⟨rfl, rfl⟩
theorem stand_onDrains (s : State) (u m) : Stand s (s.onDrains u m) := by
  unfold State.onDrains
  split
  · refine Stand.onArray _ _ _ ?_; intro _; exact ⟨rfl, rfl, rfl, rfl⟩
  · split
    · exact Stand.of rfl rfl
    · refine Stand.onCore _ _ _ ?_; intro _; exact ⟨rfl, rfl⟩
theorem stand_dropWalk (s : State) (u sd) : Stand s (s.dropWalk u sd) := by
  unfold State.dropWalk
  split
  · refine Stand.trans (Stand.onCore _ _ _ ?_) (Stand.onArray _ _ _ ?_)
    · intro _; exact ⟨rfl, rfl⟩
    · intro x
      split
      · split <;> exact ⟨rfl, rfl, rfl, rfl⟩
      · exact ⟨rfl, rfl, rfl, rfl⟩
  · split
    · exact Stand.of rfl rfl
    · exact Stand.refl s
theorem stand_specEnds (s : State) (sd) : Stand s (s.specEnds sd) := by
  unfold State.specEnds
  exact Stand.ite (Stand.of rfl rfl) (Stand.refl s)
theorem stand_charge (s : State) (u k n) : Stand s (s.charge u k n) := Stand.onCore _ _ _ (fun _ => ⟨rfl, rfl⟩)
theorem stand_release (s : State) (u sd) : Stand s (s.release u sd) :=
  Stand.ite (Stand.refl s) (Stand.onCore _ _ _ (fun _ => ⟨rfl, rfl⟩))
theorem Stand.ofEv {s t : State} {l : List Field} (h : Ev l s t) (ha : l.contains .arrays = false) (hc : l.contains .cores = false) :
    Stand s t := Stand.of (h.frame .arrays ha) (h.frame .cores hc)
theorem stand_abandon (s : State) (u sd st) : Stand s (s.abandon u sd st) := by
  unfold State.abandon
  extract_lets saved gone steps s1 s2
  have h2 : Stand s s2 := (stand_dropWalk _ _ _).trans (Stand.ofEv (State.onComp_ev ..) (by decide) (by decide))
  refine (stand_release _ _ _).trans ((stand_charge _ _ _ _).trans ?_)
  have h3 : ∀ (kept lost : List Drain), Stand s ((lost.foldl (fun s d => s.wipe u d kept) s2).onDrains u (fun _ => kept)) := fun kept lost =>
    (stand_onDrains _ _ _).trans ((Stand.foldl _ (fun w d => Stand.ofEv (State.wipe_ev ..) (by decide) (by decide)) _ _).trans h2)
  exact Stand.ite ((stand_specEnds _ _).trans (h3 _ _)) (h3 _ _)
theorem stand_reissue (s : State) (sd) : Stand s (s.reissue sd) := by
  unfold State.reissue
  split
  · exact Stand.refl s
  · extract_lets done o
    exact Stand.ite (Stand.refl s) (Stand.of rfl rfl)
theorem stand_maskFault (s : State) (k log) : Stand s (s.maskFault k log) := Stand.of rfl rfl
theorem stand_onNoDraw (s : State) (u f) : Stand s (s.onNoDraw u f) := by
  unfold State.onNoDraw
  split
  · refine Stand.onArray _ _ _ ?_; intro _; exact ⟨rfl, rfl, rfl, rfl⟩
  · split
    · exact Stand.of rfl rfl
    · refine Stand.onCore _ _ _ ?_; intro _; exact ⟨rfl, rfl⟩
theorem stand_beginPhase2 (s : State) (key : Key) : Stand s (s.beginPhase2 key) :=
  (Stand.ofEv (State.writeAllRuns_ev ..) (by decide) (by decide)).trans ((Stand.foldl _ (fun w u => stand_onNoDraw w u _) _ _).trans
    (Stand.ofEv (State.onComp_ev ..) (by decide) (by decide)))
theorem stand_finishCmd (s : State) (key cmd c) : Stand s (s.finishCmd key cmd c) :=
  Stand.ofEv (State.finishCmd_ev ..) (by decide) (by decide)
theorem stand_setDenomValid (s : State) (c p) : Stand s (s.setDenomValid c p) :=
  Stand.ofEv (State.setDenomValid_ev ..) (by decide) (by decide)
theorem stand_settleOnce (s : State) (key : Key) : Stand s (s.settleOnce key) := by
  unfold State.settleOnce
  repeat' first
    | with_reducible exact Stand.refl s
    | with_reducible exact stand_finishCmd ..
    | with_reducible exact (stand_finishCmd ..).trans (stand_setDenomValid ..)
    | with_reducible exact (stand_beginPhase2 ..).trans (stand_setDenomValid ..)
    | split
theorem stand_tidy (s : State) (key : Key) : Stand s (s.tidy key) :=
  (Stand.ofEv (State.letGo_ev ..) (by decide) (by decide)).trans ((stand_settleOnce ..).trans ((stand_settleOnce ..).trans
    ((Stand.ofEv (State.syncArea_ev ..) (by decide) (by decide)).trans (Stand.ofEv (State.onComp_ev ..) (by decide) (by decide)))))
theorem stand_endArbiters (s : State) (log : Nat) : Stand s (s.endArbiters log) := by
  refine Stand.foldl _ (fun w sd => ?_) _ _
  split
  · exact Stand.ite (Stand.refl w) ((stand_tidy ..).trans ((Stand.ofEv (State.endArbitration_ev ..) (by decide) (by decide)).trans
      (Stand.of rfl rfl)))
  · exact Stand.refl w
theorem stand_evict (s : State) (u log) : Stand s (s.evict u log) := by
  unfold State.evict
  extract_lets s1 s2
  have h1 : Stand s s1 := Stand.foldl _ (fun w x =>
    (stand_tidy _ _).trans ((stand_reissue _ _).trans ((stand_maskFault _ _ _).trans (stand_abandon w u x _)))) _ _
  have h2 : Stand s s2 := by
    show Stand s (match s1.mailOf u with | some sd => ((s1.setMail u none).specEnds sd).reissue sd | none => s1)
    split
    · exact (stand_reissue _ _).trans ((stand_specEnds _ _).trans ((stand_setMail _ _ _).trans h1))
    · exact h1
  split
  · exact (stand_reissue _ _).trans ((stand_setHold _ _ _).trans h2)
  · exact h2
theorem stand_report (s : State) : Stand s s.report :=
  Stand.of ((State.report_ev s).frame .arrays (by decide)) ((State.report_ev s).frame .cores (by decide))

/-- Retiring an array: it is out of service, and every other array and core stands as before. -/
theorem retireArray_stand (s : State) (a log : Nat) (h : a < 32) : ((s.retireArray a log).array a).inService = false
    ∧ ((s.retireArray a log).array a).wardFails = (s.array a).wardFails := by
  unfold State.retireArray
  have e := stand_evict s a log
  generalize s.evict a log = w at *
  have r := (stand_report _).trans (stand_endArbiters (w.onArray a (fun x => { x with inService := false, retired := true })) log)
  generalize hv : w.onArray a (fun x => { x with inService := false, retired := true }) = v at *
  have hva : v.array a = { w.array a with inService := false, retired := true } := by
    rw [← hv]; exact State.onArray_array_same w a _ h
  exact ⟨(r.1 a h).trans (by rw [hva]), (r.4 a h).trans (by rw [hva]; exact e.4 a h)⟩

theorem retireFold_stand (log : Nat) : ∀ (l : List Nat) (s : State), (∀ a ∈ l, a < 32) →
    (∀ b < 32, (s.array b).inService = false → ((l.foldl (fun s a => (s.evict a log).onArray a (fun x => { x with inService := false, retired := true, diag := false })) s).array b).inService = false)
    ∧ ∀ b ∈ l, ((l.foldl (fun s a => (s.evict a log).onArray a (fun x => { x with inService := false, retired := true, diag := false })) s).array b).inService = false := by
  intro l
  induction l with
  | nil => intro s _; exact ⟨fun b _ h => h, fun b hb => by cases hb⟩
  | cons a l ih =>
    intro s hl
    have ha : a < 32 := hl a (by simp)
    obtain ⟨i1, i2⟩ := ih ((s.evict a log).onArray a (fun x => { x with inService := false, retired := true, diag := false })) (fun b hb => hl b (by simp [hb]))
    have e := stand_evict s a log
    refine ⟨fun b hb h => i1 b hb ?_, fun b hb => ?_⟩
    · by_cases hn : b = a
      · subst hn; rw [State.onArray_array_same _ _ _ hb]
      · rw [State.onArray_array_other _ _ _ _ hn, e.1 b hb]; exact h
    · by_cases hn : b ∈ l
      · exact i2 b hn
      · have : b = a := by simpa [hn] using hb
        subst this
        exact i1 b ha (by rw [State.onArray_array_same _ _ _ ha])

theorem retireCore_stand (s : State) (c log : Nat) (h : c < 8) : ((s.retireCore c log).core c).inService = false
    ∧ ∀ j < 4, ((s.retireCore c log).array (4 * c + j)).inService = false := by
  unfold State.retireCore
  extract_lets s1 s2
  have hl : ∀ a ∈ rangeFrom (4 * c) 4, a < 32 := by
    intro a ha
    rw [mem_rangeFrom] at ha
    omega
  have h1 : ∀ j < 4, (s1.array (4 * c + j)).inService = false := fun j hj =>
    (retireFold_stand log _ s hl).2 _ (by rw [mem_rangeFrom]; omega)
  have e2 : Stand s1 s2 := (stand_evict _ _ _).trans ((stand_evict _ _ _).trans (stand_evict _ _ _))
  have r := (stand_report _).trans (stand_endArbiters (s2.onCore c (fun x => { x with inService := false, retired := true, thinIn := false })) log)
  refine ⟨(r.5 c h).trans ?_, fun j hj => (r.1 _ (by omega)).trans ((e2.1 _ (by omega)).trans (h1 j hj))⟩
  rw [State.onCore_core_same _ _ _ h]

end Sys2Proof.Machine
end

