-- ==== Sys2Proof/Laws/Claims.lean ====
section
/-! SUPPORT. Mailboxes, held ordinals, drains and claims of a unit: what their operations leave. -/ 
namespace Sys2Proof.Machine

/-- A unit is an array, a thin half or a fusion unit. -/
theorem unit_kinds {u : Nat} (h : u < 56) : u < 32 ∨ (¬ u < 32 ∧ u < 48 ∧ u - 32 < 16) ∨ (¬ u < 32 ∧ ¬ u < 48 ∧ u - 48 < 8) := by omega

theorem setMail_mailOf (s : State) {u : Nat} (m) (h : u < 56) : (s.setMail u m).mailOf u = m := by
  unfold State.setMail State.mailOf
  rcases unit_kinds h with h | ⟨h1, h2, h3⟩ | ⟨h1, h2, h3⟩ <;> simp [*]
theorem setMail_holdOf (s : State) {u : Nat} (m) (h : u < 56) : (s.setMail u m).holdOf u = s.holdOf u := by
  unfold State.setMail State.holdOf
  rcases unit_kinds h with h | ⟨h1, h2, h3⟩ | ⟨h1, h2, h3⟩ <;> simp [*]
theorem setHold_holdOf (s : State) {u : Nat} (m) (h : u < 56) : (s.setHold u m).holdOf u = m := by
  unfold State.setHold State.holdOf
  rcases unit_kinds h with h | ⟨h1, h2, h3⟩ | ⟨h1, h2, h3⟩ <;> simp [*]
theorem setHold_mailOf (s : State) {u : Nat} (m) (h : u < 56) : (s.setHold u m).mailOf u = s.mailOf u := by
  unfold State.setHold State.mailOf
  rcases unit_kinds h with h | ⟨h1, h2, h3⟩ | ⟨h1, h2, h3⟩ <;> simp [*]
theorem onDrains_drainsOf (s : State) {u : Nat} (f) (h : u < 56) : (s.onDrains u f).drainsOf u = f (s.drainsOf u) := by
  unfold State.onDrains State.drainsOf
  rcases unit_kinds h with h | ⟨h1, h2, h3⟩ | ⟨h1, h2, h3⟩ <;> simp [*]
theorem onDrains_mailOf (s : State) {u : Nat} (f) (h : u < 56) : (s.onDrains u f).mailOf u = s.mailOf u := by
  unfold State.onDrains State.mailOf
  rcases unit_kinds h with h | ⟨h1, h2, h3⟩ | ⟨h1, h2, h3⟩ <;> simp [*]
theorem onDrains_holdOf (s : State) {u : Nat} (f) (h : u < 56) : (s.onDrains u f).holdOf u = s.holdOf u := by
  unfold State.onDrains State.holdOf
  rcases unit_kinds h with h | ⟨h1, h2, h3⟩ | ⟨h1, h2, h3⟩ <;> simp [*]
theorem onNoDraw_noDrawOf (s : State) {u : Nat} (f) (h : u < 56) : (s.onNoDraw u f).noDrawOf u = f (s.noDrawOf u) := by
  unfold State.onNoDraw State.noDrawOf
  rcases unit_kinds h with h | ⟨h1, h2, h3⟩ | ⟨h1, h2, h3⟩ <;> simp [*]

theorem setMail_cp (s : State) (u m) : (s.setMail u m).cp = s.cp := by
  unfold State.setMail; split
  · rfl
  · split <;> rfl
theorem setHold_cp (s : State) (u m) : (s.setHold u m).cp = s.cp := by
  unfold State.setHold; split
  · rfl
  · split <;> rfl
theorem onDrains_cp (s : State) (u m) : (s.onDrains u m).cp = s.cp := by
  unfold State.onDrains; split
  · rfl
  · split <;> rfl
theorem onNoDraw_cp (s : State) (u m) : (s.onNoDraw u m).cp = s.cp := by
  unfold State.onNoDraw; split
  · rfl
  · split <;> rfl
theorem bind_cp (s : State) (u sd l) : (s.bind u sd l).cp = s.cp := (State.bind_ev s u sd l).frame .cp (by decide)

theorem Cmd.onComp_key (c : Cmd) (f : Comp → Comp) : (c.onComp f).key = c.key := by unfold Cmd.onComp; split <;> rfl
theorem Cmd.onComp_comp (c : Cmd) (f : Comp → Comp) : (c.onComp f).comp? = c.comp?.map f := by
  cases hb : c.body <;> simp [Cmd.onComp, Cmd.comp?, hb]
theorem onComp_find (s : State) (k : Key) (f : Comp → Comp) : (s.onComp k f).cmd? k = (s.cmd? k).map (·.onComp f) :=
  onCmd_find s k _ (fun c => c.onComp_key f)
/-- The compute part of a command after a change of it. -/
theorem onComp_comp (s : State) (k : Key) (f : Comp → Comp) : (s.onComp k f).comp? k = (s.comp? k).map f := by
  unfold State.comp?
  rw [onComp_find]
  cases s.cmd? k with
  | none => rfl
  | some c => exact c.onComp_comp f
theorem comp_of_cp {s t : State} (h : t.cp = s.cp) (k : Key) : t.comp? k = s.comp? k := by
  unfold State.comp?; rw [cmd_of_cp h]

theorem seedsOn_walk {s : State} {u n : Nat} {sd : Seed} (h : s.walkOf u = some (sd, n)) : sd ∈ s.seedsOn u := by
  unfold State.seedsOn
  rw [List.mem_eraseDups, h]; simp
theorem seedsOn_drain {s : State} {u : Nat} {d : Drain} (h : d ∈ s.drainsOf u) : d.seed ∈ s.seedsOn u := by
  unfold State.seedsOn
  rw [List.mem_eraseDups]
  simp only [List.mem_append, List.mem_map]
  exact .inl (.inr ⟨d, h, rfl⟩)

theorem addDrain_seed (s : State) {u : Nat} (d : Drain) (hu : u < 56) : d.seed ∈ (s.addDrain u d).seedsOn u := by
  refine seedsOn_drain ?_
  unfold State.addDrain
  rw [onDrains_drainsOf _ _ hu]
  simp

/-- States with the same units: what the units hold is the same. -/
theorem units_same {s t : State} (ha : t.arrays = s.arrays) (hh : t.halves = s.halves) (hc : t.cores = s.cores) (u : Nat) :
    t.seedsOn u = s.seedsOn u ∧ t.mailOf u = s.mailOf u ∧ t.holdOf u = s.holdOf u ∧ t.drainsOf u = s.drainsOf u
      ∧ t.walkOf u = s.walkOf u := by
  simp only [State.seedsOn, State.mailOf, State.holdOf, State.drainsOf, State.walkOf, State.array, State.half, State.core, ha, hh, hc,
    and_self]

/-- A claim started on a unit: the unit works on its seed, its mailbox is empty and it holds that ordinal no more, and the command
has its run's entries moved. -/
theorem startClaim_taken (s : State) {u : Nat} (sd : Seed) {cmd : Cmd} {c : Comp} {r : Run} (hu : u < 56) (h1 : s.cmd? sd.key = some cmd)
    (h2 : cmd.comp? = some c) (h3 : c.run? sd.ord = some r) :
    sd ∈ (s.startClaim u sd).seedsOn u ∧ (s.startClaim u sd).mailOf u = none
    ∧ (s.holdOf u = some (sd.key, sd.ord) → (s.startClaim u sd).holdOf u = none)
    ∧ (s.startClaim u sd).cp = (s.onComp sd.key (fun c => c.onRun sd.ord (fun r =>
          { r with entries := r.entries.map (fun e => e.begin_ u sd.origin) }))).cp := by
  unfold State.startClaim
  rw [h1]
  simp only
  rw [h2]
  simp only
  rw [h3]
  simp only
  generalize hs1 : s.onComp sd.key _ = s1
  have hh1 : s1.holdOf u = s.holdOf u := by subst hs1; rfl
  generalize hs2 : s1.setMail u none = s2
  have hm2 : s2.mailOf u = none := by subst hs2; exact setMail_mailOf _ _ hu
  have hh2 : s2.holdOf u = s.holdOf u := by subst hs2; rw [setMail_holdOf _ _ hu]; exact hh1
  have hc2 : s2.cp = s1.cp := by subst hs2; exact setMail_cp ..
  generalize hs3 : (if s2.holdOf u = some (sd.key, sd.ord) then s2.setHold u none else s2) = s3
  have hm3 : s3.mailOf u = none := by
    subst hs3; split
    · rw [setHold_mailOf _ _ hu]; exact hm2
    · exact hm2
  have hc3 : s3.cp = s1.cp := by
    subst hs3; split
    · rw [setHold_cp]; exact hc2
    · exact hc2
  have hh3 : s.holdOf u = some (sd.key, sd.ord) → s3.holdOf u = none := by
    intro h; subst hs3; rw [if_pos (by rw [hh2]; exact h)]; exact setHold_holdOf _ _ hu
  clear hs1 hs2 hs3 hm2 hh2 hc2
  rcases unit_kinds hu with hu1 | ⟨hu1, hu2, hu3⟩ | ⟨hu1, hu2, hu3⟩
  · rw [if_pos hu1]
    have H : ∀ (w : State) (cl : Claim), w.arrays = s3.arrays → w.cp = s3.cp → cl.seed = sd →
        sd ∈ (w.onArray u (fun a => a.fresh cl)).seedsOn u ∧ (w.onArray u (fun a => a.fresh cl)).mailOf u = none
        ∧ (s.holdOf u = some (sd.key, sd.ord) → (w.onArray u (fun a => a.fresh cl)).holdOf u = none)
        ∧ (w.onArray u (fun a => a.fresh cl)).cp = s1.cp := by
      intro w cl ha hc hs
      have hw : w.array u = s3.array u := by unfold State.array; rw [ha]
      refine ⟨seedsOn_walk (n := cl.steps) (by simp [State.walkOf, hu1, ArraySt.fresh, hs]), ?_, fun h => ?_, hc.trans hc3⟩
      · have := hm3
        simpa [State.mailOf, hu1, ArraySt.fresh, hw] using this
      · have := hh3 h
        simpa [State.holdOf, hu1, ArraySt.fresh, hw] using this
    exact H _ _ ((State.bind_ev ..).frame .arrays (by decide)) (bind_cp ..) rfl
  · rw [if_neg hu1, if_pos hu2]
    split
    · refine ⟨?_, ?_, fun h => ?_, ?_⟩
      · exact addDrain_seed _ _ hu
      · unfold State.addDrain
        rw [onDrains_mailOf _ _ hu]
        have := hm3
        simpa [State.mailOf, hu1, hu2, hu3] using this
      · unfold State.addDrain
        rw [onDrains_holdOf _ _ hu]
        have := hh3 h
        simpa [State.holdOf, hu1, hu2, hu3] using this
      · exact (onDrains_cp ..).trans hc3
    · refine ⟨?_, ?_, fun h => ?_, hc3⟩
      · exact seedsOn_walk (n := 0) (by simp [State.walkOf, hu1, hu2, hu3])
      · have := hm3
        simpa [State.mailOf, hu1, hu2, hu3] using this
      · have := hh3 h
        simpa [State.holdOf, hu1, hu2, hu3] using this
  · rw [if_neg hu1, if_neg hu2]
    refine ⟨?_, ?_, fun h => ?_, ?_⟩
    · exact addDrain_seed _ _ hu
    · unfold State.addDrain
      rw [onDrains_mailOf _ _ hu]; exact hm3
    · unfold State.addDrain
      rw [onDrains_holdOf _ _ hu]; exact hh3 h
    · exact (onDrains_cp ..).trans hc3


/-- A claim that begins on a unit: the unit works on its seed, its mailbox is empty and it holds that ordinal no more, and the command
has its run's entries moved. -/
theorem beginClaim_taken (s : State) {u : Nat} (sd : Seed) {cmd : Cmd} {c : Comp} {r : Run} (hu : u < 56) (h1 : s.cmd? sd.key = some cmd)
    (h2 : cmd.comp? = some c) (h3 : c.run? sd.ord = some r) :
    sd ∈ (s.beginClaim u sd).seedsOn u ∧ (s.beginClaim u sd).mailOf u = none
    ∧ (s.holdOf u = some (sd.key, sd.ord) → (s.beginClaim u sd).holdOf u = none)
    ∧ (s.beginClaim u sd).cp = (s.onComp sd.key (fun c => c.onRun sd.ord (fun r =>
          { r with entries := r.entries.map (fun e => e.begin_ u sd.origin) }))).cp := by
  have h := startClaim_taken s sd hu h1 h2 h3
  have e := (State.syncArea_ev (s.startClaim u sd) sd.key).frame
  have g := units_same (e .arrays (by decide)) (e .halves (by decide)) (e .cores (by decide)) u
  unfold State.beginClaim
  rw [g.1, g.2.1, g.2.2.1, e .cp (by decide)]
  exact h

/-- The work of a claim that began: its command's compute part. -/
theorem beginClaim_comp (s : State) {u : Nat} (sd : Seed) {cmd : Cmd} {c : Comp} {r : Run} (hu : u < 56) (h1 : s.cmd? sd.key = some cmd)
    (h2 : cmd.comp? = some c) (h3 : c.run? sd.ord = some r) :
    (s.beginClaim u sd).comp? sd.key = some (c.onRun sd.ord (fun r => { r with entries := r.entries.map (fun e => e.begin_ u sd.origin) })) := by
  rw [comp_of_cp (beginClaim_taken s sd hu h1 h2 h3).2.2.2, onComp_comp]
  unfold State.comp?
  rw [h1]
  show Option.map _ (Cmd.comp? cmd) = _
  rw [h2]; rfl

/-- A mailbox claim that fits has its run. -/
theorem mailFits_run {s : State} {u : Nat} {sd : Seed} (h : mailFits s u sd = true) :
    ∃ cmd c r, s.cmd? sd.key = some cmd ∧ cmd.comp? = some c ∧ c.run? sd.ord = some r := by
  unfold mailFits at h
  rw [Bool.and_eq_true] at h
  have h := h.2
  cases hc : s.comp? sd.key with
  | none => rw [hc] at h; cases h
  | some c =>
    rw [hc] at h
    simp only [Bool.and_eq_true] at h
    have h := h.2
    cases hr : c.run? sd.ord with
    | none => rw [hr] at h; cases h
    | some r =>
      unfold State.comp? at hc
      cases hk : s.cmd? sd.key with
      | none => rw [hk] at hc; cases hc
      | some cmd => rw [hk] at hc; exact ⟨cmd, c, r, rfl, hc, hr⟩

end Sys2Proof.Machine
end

