-- ==== Sys2Proof/Laws/Slots.lean ====
section
/-! SUPPORT. Slot rows of the tun and accumulators of the thin path: what a write and a lane step leave. -/
namespace Sys2Proof.Machine

theorem rowCells_mem (core slot row : Nat) (ws : List LW) (x : TunCell) (h : x ∈ rowCells core slot row ws) : x.core = core ∧ x.slot = slot ∧ x.row = row := by
  unfold rowCells at h
  obtain ⟨y, _, rfl⟩ := List.mem_map.1 h
  exact ⟨rfl, rfl, rfl⟩

theorem find_rowCells (core slot row : Nat) : ∀ (ws : List LW) (n j : Nat), ((((ws.zipIdx n).filter (fun x => x.1 != lwZero)).map
    (fun x => (⟨core, slot, row, x.2, x.1⟩ : TunCell))).find? (fun x => x.col == j)).map (·.word)
      = if n ≤ j then (ws[j - n]?).bind (fun w => if w = lwZero then none else some w) else none
  | [], n, j => by simp
  | w :: ws, n, j => by
    rw [List.zipIdx_cons, List.filter_cons]
    have ih := find_rowCells core slot row ws (n + 1) j
    by_cases hw : w = lwZero
    · rw [if_neg (by simp [hw])]
      rw [ih]
      by_cases h1 : n + 1 ≤ j
      · rw [if_pos h1, if_pos (by omega)]
        have : j - n = (j - (n + 1)) + 1 := by omega
        rw [this, List.getElem?_cons_succ]
      · rw [if_neg h1]
        by_cases h2 : n ≤ j
        · have : j - n = 0 := by omega
          rw [if_pos h2, this]; simp [hw]
        · rw [if_neg h2]
    · rw [if_pos (by simp [hw]), List.map_cons, List.find?_cons]
      by_cases h2 : n = j
      · subst h2; simp [hw]
      · have e : (n == j) = false := by simp [h2]
        simp only [e]
        rw [ih]
        by_cases h1 : n + 1 ≤ j
        · rw [if_pos h1, if_pos (by omega)]
          have : j - n = (j - (n + 1)) + 1 := by omega
          rw [this, List.getElem?_cons_succ]
        · rw [if_neg h1, if_neg (by omega)]

theorem getElem?_rangeFrom : ∀ (n lo j : Nat), j < n → (rangeFrom lo n)[j]? = some (lo + j)
  | 0, _, _, h => by omega
  | n + 1, lo, 0, _ => rfl
  | n + 1, lo, j + 1, h => by
    show (rangeFrom (lo + 1) n)[j]? = _
    rw [getElem?_rangeFrom n (lo + 1) j (by omega)]
    congr 1; omega

theorem TunCell.key_of (x : TunCell) : x.key = ((x.core * 32 + x.slot) * 256 + x.row) * 256 + x.col := rfl

/-- The cells of the row written are those written. -/
theorem tunCells_put (l : List TunCell) (core slot row : Nat) (ws : List LW) :
    tunCells (tunPut l core slot row ws) core slot row = rowCells core slot row ws := by
  have hn : ∀ q : TunCell → Bool, ((l.filter (fun x => !(x.core == core && x.slot == slot && x.row == row))).filter q).filter
      (fun x => x.core == core && x.slot == slot && x.row == row) = [] := by
    intro q
    rw [List.filter_eq_nil_iff]
    intro x hx
    have := (List.mem_filter.1 (List.mem_filter.1 hx).1).2
    simp only [Bool.not_eq_true'] at this
    rw [this]
    decide
  unfold tunCells tunPut
  simp only
  rw [List.filter_append, List.filter_append, hn, hn, List.nil_append, List.append_nil, List.filter_eq_self]
  intro x hx
  obtain ⟨h1, h2, h3⟩ := rowCells_mem _ _ _ _ _ hx
  simp [h1, h2, h3]

/-- A slot row reads back as it was written. -/
theorem tunRow_set (s : State) (core slot row : Nat) (ws : List LW) (h : ws.length = 256) : (s.setTunRow core slot row ws).tunRow core slot row = ws := by
  show (rangeFrom 0 256).map (tunAt (tunCells (tunPut s.tun core slot row ws) core slot row)) = ws
  rw [tunCells_put]
  apply List.ext_getElem?
  intro j
  rw [List.getElem?_map]
  by_cases hj : j < 256
  · have hr : (rangeFrom 0 256)[j]? = some j := by
      rw [getElem?_rangeFrom 256 0 j hj]; simp
    rw [hr]
    have h4 := find_rowCells core slot row ws 0 j
    rw [if_pos (Nat.zero_le _), Nat.sub_zero] at h4
    show some ((((rowCells core slot row ws).find? _).map _).getD lwZero) = _
    unfold rowCells
    rw [h4]
    have h5 : ws[j]? = some ws[j] := List.getElem?_eq_getElem (by omega)
    rw [h5]
    show some ((if ws[j] = lwZero then none else some ws[j] : Option LW).getD lwZero) = some ws[j]
    split
    · next h => rw [h]; rfl
    · rfl
  · rw [List.getElem?_eq_none (by rw [length_rangeFrom]; omega), List.getElem?_eq_none (by omega)]
    rfl

/-- A column found in a list parted by key: cells of one row and column lie on one side. -/
theorem find_parted (lo : Nat) (p : TunCell → Bool) (k : Nat) (hp : ∀ x, p x = true → x.key = k) : ∀ l : List TunCell,
    ((l.filter (fun x => decide (x.key < lo))).find? p).or ((l.filter (fun x => decide (lo ≤ x.key))).find? p) = l.find? p
  | [] => rfl
  | x :: l => by
    have ih := find_parted lo p k hp l
    rw [List.filter_cons, List.filter_cons, List.find?_cons]
    have none_of : ∀ q : TunCell → Bool, (∀ y, y.key = k → q y = false) → (l.filter q).find? p = none := by
      intro q hq
      rw [List.find?_eq_none]
      intro y hy hpy
      have := (List.mem_filter.1 hy).2
      rw [hq y (hp y hpy)] at this
      cases this
    by_cases h1 : x.key < lo
    · rw [if_pos (by simpa using h1), if_neg (by simpa using h1), List.find?_cons]
      cases hx : p x with
      | true => rfl
      | false => exact ih
    · rw [if_neg (by simpa using h1), if_pos (by simpa using h1), List.find?_cons]
      cases hx : p x with
      | true =>
        have := hp x hx
        rw [none_of _ (fun y hy => by rw [hy, ← this]; simpa using h1)]
        rfl
      | false => exact ih

/-- A slot row that is not the one written reads as before. -/
theorem tunRow_set_other (s : State) (core slot row : Nat) (ws : List LW) (k x r : Nat) (h : (k, x, r) ≠ (core, slot, row)) :
    (s.setTunRow core slot row ws).tunRow k x r = s.tunRow k x r := by
  show (rangeFrom 0 256).map (tunAt (tunCells (tunPut s.tun core slot row ws) k x r)) = (rangeFrom 0 256).map (tunAt (tunCells s.tun k x r))
  apply List.map_congr_left
  intro j _
  have hne : ∀ y : TunCell, (y.core == k && y.slot == x && y.row == r) = true → (y.core == core && y.slot == slot && y.row == row) = false := by
    intro y hy
    simp only [Bool.and_eq_true, beq_iff_eq] at hy
    obtain ⟨⟨rfl, rfl⟩, rfl⟩ := hy
    cases hc : (y.core == core && y.slot == slot && y.row == row) with
    | false => rfl
    | true =>
      simp only [Bool.and_eq_true, beq_iff_eq] at hc
      exact absurd (by rw [hc.1.1, hc.1.2, hc.2]) h
  unfold tunAt
  congr 2
  have hf : ∀ l : List TunCell, (l.filter (fun y => y.core == k && y.slot == x && y.row == r)).find? (fun y => y.col == j)
      = l.find? (fun y => (y.core == k && y.slot == x && y.row == r) && y.col == j) := by
    intro l
    rw [List.find?_filter]
    congr 1
    funext y
    rw [Bool.decide_and, Bool.decide_eq_true, Bool.decide_eq_true]
  unfold tunCells tunPut
  simp only
  rw [hf, hf, List.find?_append, List.find?_append]
  have h0 : (rowCells core slot row ws).find? (fun y => (y.core == k && y.slot == x && y.row == r) && y.col == j) = none := by
    rw [List.find?_eq_none]
    intro y hy hc
    simp only [Bool.and_eq_true] at hc
    obtain ⟨h1, h2, h3⟩ := rowCells_mem _ _ _ _ _ hy
    have := hne y (by simpa using hc.1)
    simp [h1, h2, h3] at this
  rw [h0, Option.or_none]
  rw [find_parted _ _ (((k * 32 + x) * 256 + r) * 256 + j)]
  · rw [List.find?_filter]
    congr 1
    funext y
    cases hc : (y.core == k && y.slot == x && y.row == r) with
    | false => simp
    | true => rw [hne y hc]; simp; rfl
  · intro y hy
    simp only [Bool.and_eq_true, beq_iff_eq] at hy
    obtain ⟨⟨⟨rfl, rfl⟩, rfl⟩, rfl⟩ := hy
    rfl

/-! Accumulators of the thin path. -/

theorem accAt_add_one (l : List AccCell) (m i : Nat) (x : LW) (g : Nat) :
    accAt (if lwAdd (accAt l m i) x = lwZero then l.filter (fun y => !(y.m == m && y.g == i))
      else l.filter (fun y => !(y.m == m && y.g == i)) ++ [⟨m, i, lwAdd (accAt l m i) x⟩]) m g
      = if g = i then lwAdd (accAt l m i) x else accAt l m g := by
  have hr : (l.filter (fun y => !(y.m == m && y.g == i))).find? (fun y => y.m == m && y.g == g) = if g = i then none else l.find? (fun y => y.m == m && y.g == g) := by
    split
    · next h =>
      subst h
      rw [List.find?_eq_none]
      intro y hy
      have := (List.mem_filter.1 hy).2
      simp only [Bool.not_eq_true'] at this
      rw [this]; decide
    · next h =>
      induction l with
      | nil => rfl
      | cons a l ih =>
        rw [List.filter_cons]
        by_cases h1 : (a.m == m && a.g == i) = true
        · rw [if_neg (by rw [h1]; decide), ih, List.find?_cons]
          have : (a.m == m && a.g == g) = false := by
            simp only [Bool.and_eq_true, beq_iff_eq] at h1
            rw [h1.2]
            have : (i == g) = false := by simp [Ne.symm h]
            rw [this]; simp
          rw [this]
        · rw [if_pos (by simp only [Bool.not_eq_true] at h1; rw [h1]; rfl), List.find?_cons, List.find?_cons, ih]
  have h0 : accAt (l.filter (fun y => !(y.m == m && y.g == i))) m g = if g = i then lwZero else accAt l m g := by
    unfold accAt
    rw [hr]
    split <;> rfl
  generalize lwAdd (accAt l m i) x = w
  split
  · next hw =>
    rw [h0, hw]
  · by_cases h : g = i
    · subst h
      rw [if_pos rfl]
      unfold accAt
      rw [List.find?_append, hr, if_pos rfl]
      simp
    · rw [if_neg h]
      unfold accAt
      rw [List.find?_append, hr, if_neg h]
      have : ([⟨m, i, w⟩] : List AccCell).find? (fun y => y.m == m && y.g == g) = none := by
        simp [Ne.symm h]
      rw [this, Option.or_none]

theorem accAdd_from (m : Nat) : ∀ (ws : List LW) (n : Nat) (l : List AccCell) (g : Nat),
    accAt ((ws.zipIdx n).foldl (fun l x =>
      let w := lwAdd (accAt l m x.2) x.1
      let rest := l.filter (fun y => !(y.m == m && y.g == x.2))
      if w = lwZero then rest else rest ++ [⟨m, x.2, w⟩]) l) m g
      = if n ≤ g then (match ws[g - n]? with | some w => lwAdd (accAt l m g) w | none => accAt l m g) else accAt l m g
  | [], n, l, g => by simp
  | w :: ws, n, l, g => by
    rw [List.zipIdx_cons, List.foldl_cons]
    have ih := accAdd_from m ws (n + 1) (if lwAdd (accAt l m n) w = lwZero then l.filter (fun y => !(y.m == m && y.g == n))
      else l.filter (fun y => !(y.m == m && y.g == n)) ++ [⟨m, n, lwAdd (accAt l m n) w⟩]) g
    rw [accAt_add_one] at ih
    refine ih.trans ?_
    by_cases h1 : n + 1 ≤ g
    · have e : g - n = (g - (n + 1)) + 1 := by omega
      have hne : ¬ g = n := by omega
      simp only [if_neg hne]
      rw [if_pos h1, if_pos (by omega), e, List.getElem?_cons_succ]
    · rw [if_neg h1]
      by_cases h2 : g = n
      · subst h2; simp
      · rw [if_neg h2, if_neg (by omega)]

/-- The accumulators of a row after a lane step. -/
theorem accAt_add (l : List AccCell) (m : Nat) (ws : List LW) (g : Nat) :
    accAt (accAdd l m ws) m g = match ws[g]? with | some w => lwAdd (accAt l m g) w | none => accAt l m g := by
  have := accAdd_from m ws 0 l g
  rw [if_pos (Nat.zero_le _), Nat.sub_zero] at this
  exact this

end Sys2Proof.Machine
end

