-- ==== Sys2Proof/Laws/Packets.lean ====
section
/-! SUPPORT. Packets, the replies of commands, and SERVICE: what dispatch leaves behind. -/
namespace Sys2Proof.Machine

theorem holder_cmd (s : State) (q : QIx) (c : Cmd) (h : s.holder q = some c) : c.q = q.val := by
  unfold State.holder State.cmd? at h
  cases hh : (s.queue q).hold with
  | none => simp [hh] at h
  | some p =>
    simp only [hh, Option.bind_some] at h
    have := List.find?_some h
    simp [Cmd.key] at this
    exact this.1
theorem copyStart_launch {s : State} {q : QIx} {p a : Nat} {checks : List (Bool × Nat)} {ranges : List Nat} {far : Bool}
    (hc : firstFail checks = none) (hn : gLen p ≠ 0)
    (hr : (ranges.filter (fun a => !(far && farAbsent s && regionOf a == .far))).flatMap (fun a => rangeBad s a (gLen p)) = [])
    (hf : (far && farAbsent s) = false) :
    Launched s ((s.takePacket q).copyStart q (s.queue q).head p a checks ranges far) q
      { Cmd.read q (s.queue q).head p (s.ctx (ctxOf q)).step (.engine (Eng.start (gLen p / 2048) none)) with dispatched := true } false := by
  have hr' : (ranges.filter (fun a => !(far && farAbsent (s.takePacket q) && regionOf a == .far))).flatMap
      (fun a => rangeBad (s.takePacket q) a (gLen p)) = [] := hr
  have hf' : (far && farAbsent (s.takePacket q)) = false := hf
  unfold State.copyStart
  simp only [hc, hr', if_neg hn]
  simp only [hf']
  exact State.launchCmd_launched s q _ false rfl rfl
theorem rangeBad_nil {s : State} {a n : Nat} (h : badByte s a n = none) : rangeBad s a n = [] := by
  simp [rangeBad, h]
theorem cmd?_answered {s t : State} {q : QIx} {p : Nat} {l : List Cond} (h : Answered s t q p l) :
    t.cmd? (q.val, (s.queue q).head) = none := by
  unfold State.cmd?
  rw [h.flight]
  rw [List.find?_eq_none]
  intro x hx
  have := (List.mem_filter.1 hx).2
  simpa using this
theorem openExtent_none {s : State} {k : Key} (h : s.cmd? k = none) : s.openExtent k = s := by
  simp [State.openExtent, h]
theorem reloadOn_none {s : State} {k : Key} (h : s.cmd? k = none) (n : Nat) : s.reloadOn n k = s := by
  cases n <;> simp [State.reloadOn, State.reloadNext, h]
theorem spill_far {p : Nat} (h : firstFail (spillChecks p) = none) : regionOf (gSrc p) = .near ∧ regionOf (gDst p) = .far := by
  rw [firstFail_none] at h
  simp [spillChecks] at h
  grind
theorem reload_far {p : Nat} (h : firstFail (reloadChecks p) = none) : regionOf (gSrc p) = .far ∧ regionOf (gDst p) = .near := by
  rw [firstFail_none] at h
  simp [reloadChecks] at h
  grind
theorem nextTicket_congr {s t : State} (h : t.cp = s.cp) : ∀ n x, t.nextTicket n x = s.nextTicket n x
  | 0, _ => rfl
  | n + 1, x => by
    unfold State.nextTicket State.ticketUsed
    rw [h, nextTicket_congr h n]
theorem cmd?_onCmd (s : State) (k : Key) (f : Cmd → Cmd) (c : Cmd) (hf : ∀ c, (f c).key = c.key) (h : s.cmd? k = some c) :
    (s.onCmd k f).cmd? k = some (f c) := by
  unfold State.cmd? at h ⊢
  show (s.cp.cmds.map _).find? _ = _
  generalize s.cp.cmds = l at h
  induction l with
  | nil => simp at h
  | cons a r ih =>
    rw [List.map_cons]
    by_cases ha : a.key = k
    · simp [ha, hf] at h ⊢
      rw [← h]
    · have hb : (a.key == k) = false := by simpa using ha
      rw [List.find?_cons] at h ⊢
      simp only [hb, Bool.false_eq_true, if_false] at h ⊢
      exact ih h
theorem onComp_key (c : Cmd) (f : Comp → Comp) : (c.onComp f).key = c.key := by
  unfold Cmd.onComp
  split <;> rfl
/-- yielded marks kept -/
def YK (s t : State) : Prop := ∀ c, (t.core c).yielded = (s.core c).yielded
theorem YK.refl (s : State) : YK s s := fun _ => rfl
theorem YK.trans {a b c : State} (h : YK a b) (g : YK b c) : YK a c := fun x => (g x).trans (h x)
theorem YK.cores {s t : State} (h : t.cores = s.cores) : YK s t := fun x => congrArg (fun v => (vget v x).yielded) h
theorem core_onCore_ge (s : State) (c x : Nat) (f : CoreSt → CoreSt) (hf : ∀ k, (f k).yielded = k.yielded) :
    ((s.onCore c f).core x).yielded = (s.core x).yielded := by
  show (vget (vmod s.cores c f) x).yielded = _
  by_cases h : x = c
  · subst h
    by_cases hx : x < 8
    · rw [vget_vmod_same _ _ _ hx, hf]; rfl
    · unfold vmod
      simp [hx]; rfl
  · rw [vget_vmod_other _ _ _ _ h]; rfl
theorem YK.onCore (s : State) (c : Nat) (f : CoreSt → CoreSt) (hf : ∀ k, (f k).yielded = k.yielded) : YK s (s.onCore c f) :=
  fun x => core_onCore_ge s c x f hf
theorem YK.fold {α : Type} (f : State → α → State) (hf : ∀ s a, YK s (f s a)) : ∀ (l : List α) (s : State), YK s (l.foldl f s)
  | [], s => YK.refl s
  | a :: l, s => (hf s a).trans (YK.fold f hf l (f s a))
theorem YK.ev {s t : State} {l : List Field} (h : Ev l s t) (hl : l.contains .cores = false) : YK s t := YK.cores (h.frame .cores hl)
theorem YK.pause (s : State) (a : Nat) (sd : Seed) : YK s (s.pause a sd) := by
  unfold State.pause
  extract_lets slots walks cl s1 s2
  refine YK.trans (b := s1) ?_ (YK.trans (b := s2) ?_ (YK.onCore _ _ _ fun _ => rfl))
  · unfold s1 State.charge
    exact YK.onCore _ _ _ fun _ => rfl
  · unfold s2
    split
    · exact YK.cores rfl
    · exact YK.refl _
theorem namedSlots_lt (s : State) (n p : Nat) (x : Nat × Nat) (h : x ∈ namedSlots s n p) : x.1 < 8 := by
  unfold namedSlots at h
  simp only [List.mem_flatMap, List.mem_filter, List.mem_map] at h
  obtain ⟨c, ⟨hc, _⟩, y, _, rfl⟩ := h
  simp [rangeFrom] at hc
  show c < 8
  omega
theorem yields (n : Nat) : ∀ (l : List (Nat × Nat)) (s : State), (∀ x ∈ l, x.1 < 8) → ∀ x,
    (x ∈ l ∨ isYielded s n x = true) → isYielded (l.foldl (fun s x => s.onCore x.1 (fun c => { c with yielded := c.yielded ++ [(n, x.2)] })) s) n x = true
  | [], s, _, x, h => by simpa using h
  | a :: l, s, hl, x, h => by
    refine yields n l _ (fun y hy => hl y (List.mem_cons_of_mem _ hy)) x ?_
    by_cases hx : x = a
    · subst hx
      right
      unfold isYielded State.core State.onCore
      simp only
      rw [vget_vmod_same _ _ _ (hl x List.mem_cons_self)]
      simp
    · rcases h with h | h
      · left
        simpa [hx] using h
      · right
        unfold isYielded at h ⊢
        show (vget (vmod s.cores a.1 _) x.1).yielded.contains (n, x.2) = true
        by_cases hc : x.1 = a.1
        · rw [hc, vget_vmod_same _ _ _ (hl a List.mem_cons_self), ← hc]
          simp [State.core] at h ⊢
          exact .inl h
        · rw [vget_vmod_other _ _ _ _ hc]
          exact h
theorem yieldAll_ev (n : Nat) : ∀ (l : List (Nat × Nat)) (s : State), Ev [.cores] s
    (l.foldl (fun s x => s.onCore x.1 (fun c => { c with yielded := c.yielded ++ [(n, x.2)] })) s)
  | [], s => Ev.refl s
  | a :: l, s => Ev.then (yieldAll_ev n l _) (State.onCore_ev ..) (by decide)
theorem finishSave_ended (s : State) (k : Key) (c : Cmd) (h : s.cmd? k = some c) (he : c.ended = true) : s.finishSave k = s := by
  unfold State.finishSave
  simp only [h]
  split
  · simp [he]
  · rfl
theorem withService_packet_bad {s : State} {q : QIx} {p : Nat} (sub : Nat → Bool) (f) (h : Waits s q 0x3C p)
    (h1 : sub (svcSub p) = true) (h2 : svcKnown (svcSub p) = true) (h3 : svcPacketable (svcSub p) = false) :
    withService s (.packet q) sub f = (s.takePacket q).replyNow q (s.queue q).head p [badField 0 (packetAddr (s.queue q) (s.queue q).head) 8] := by
  unfold withService
  simp only [h.image, h1]
  rw [withPacket_run _ h]
  simp [h2, h3, SvcArgs.bad]
theorem withService_packet {s : State} {q : QIx} {p : Nat} (sub : Nat → Bool) (f : State → SvcArgs → State × List Cond) (h : Waits s q 0x3C p)
    (h1 : sub (svcSub p) = true) (h2 : (svcKnown (svcSub p) && !svcPacketable (svcSub p)) = false) :
    withService s (.packet q) sub f = (f (s.takePacket q) ⟨p, packetAddr (s.queue q) (s.queue q).head, some (ctxOf q)⟩).1.replyNow q (s.queue q).head p
      (f (s.takePacket q) ⟨p, packetAddr (s.queue q) (s.queue q).head, some (ctxOf q)⟩).2 := by
  unfold withService
  simp only [h.image, h1]
  rw [withPacket_run _ h]
  simp [h2]
theorem withService_run {s : State} {sub p : Nat} (h : SvcRuns s sub p) (g : Nat → Bool) (hg : g sub = true) (f : State → SvcArgs → State × List Cond) :
    withService s .register g f = (f s ⟨p, s.svc.area, none⟩).1.svcReply p (f s ⟨p, s.svc.area, none⟩).2 := by
  unfold withService
  simp only [h.image, h.busy, h.runs, h.cpu, h.opcode, h.sub, hg]
  simp
theorem svcDone_svc (v : State) (n : Nat) : (v.svcDone n).svc = { v.svc with busy := false, image := none, status := n, irq := v.svc.irq ||| 2 ^ 2 } := rfl
theorem svcReply_replied (u : State) (p : Nat) (l : List Cond) (ha : regionOf (u.svc.area + 64) ≠ .host) : SvcReplied u (u.svcReply p l) p l := by
  have h0 : u.svcReply p l = (u.store (u.svc.area + 64) (natLe (replyWord (svcAnswer p l) (svcAnswer p l).final none) 64)).svcDone (svcAnswer p l).final.status.code := by
    unfold State.svcReply
    simp only [if_neg ha]
    rfl
  rw [h0]
  generalize hc : (svcAnswer p l).final.status.code = c
  generalize hw : replyWord (svcAnswer p l) (svcAnswer p l).final none = w
  have hr := u.store_readNat (u.svc.area + 64) w 64
  have ho := u.store_outside (u.svc.area + 64) (natLe w 64)
  rw [length_natLe] at ho
  have hf := (State.store_ev u (u.svc.area + 64) (natLe w 64)).frame
  have hs : (u.store (u.svc.area + 64) (natLe w 64)).svc = u.svc := hf .svc (by decide)
  generalize u.store (u.svc.area + 64) (natLe w 64) = v at *
  constructor
  · rw [hw]; exact hr
  · exact ho
  · rw [svcDone_svc, hs, hc]
  · intro f h
    exact State.same_trans (hf f (contains_of_sub (by decide) h)) ((State.svcDone_ev v c).frame f (contains_of_sub (by decide) h))
def AK (s t : State) : Prop := t.svc.area = s.svc.area
theorem AK.refl (s : State) : AK s s := rfl
theorem AK.trans {a b c : State} (h : AK b c) (g : AK a b) : AK a c := Eq.trans h g
theorem AK.ev {s t : State} {l : List Field} (e : Ev l s t) (hs : l.contains .svc = false) : AK s t :=
  congrArg Svc.area (e.frame .svc hs)
theorem AK.raise (s : State) (n : Nat) : AK s (s.raiseSvc n) := rfl
theorem AK.foldl {α : Type} (f : State → α → State) (hf : ∀ s a, AK s (f s a)) : ∀ (l : List α) (s : State), AK s (l.foldl f s)
  | [], s => AK.refl s
  | a :: l, s => (AK.foldl f hf l (f s a)).trans (hf s a)
theorem AK.logRec (s : State) (r : Rec) : AK s (s.logRec r) := by
  unfold State.logRec
  extract_lets w i s1 s2
  have h1 : AK s s1 := rfl
  have h2 : AK s1 s2 := AK.ev (l := [.mem, .mirror]) (State.mirrorRec_ev ..) (by decide)
  split
  · exact (AK.raise ..).trans (h2.trans h1)
  · exact h2.trans h1
theorem AK.report (s : State) : AK s s.report := by
  unfold State.report
  split
  · exact AK.refl s
  · extract_lets now fresh s1
    have h1 : AK s s1 := AK.foldl _ (fun s c => AK.logRec s _) fresh s
    have h2 : ∀ (u : State) f, AK u (u.onBlk f) := fun _ _ => rfl
    exact (h2 s1 _).trans h1
theorem AK.burnAll : ∀ (l : List Nat) (ok : List Bool) (s : State), AK s (s.burnAll l ok).1
  | [], _, s => AK.report s
  | r :: rs, oks, s => by
    unfold State.burnAll
    split
    · next s' h =>
      refine (AK.burnAll rs _ s').trans ?_
      unfold State.burnOne at h
      split at h
      · cases h
      · simp only [Option.some.injEq] at h
        rw [← h]
        refine (AK.logRec ..).trans ?_
        split <;> exact AK.refl s
    · exact (AK.report _).trans (AK.logRec ..)
theorem AK.addWear (s : State) (x n : Nat) : AK s (s.addWear x n) := by
  unfold State.addWear
  split
  · exact AK.refl s
  · extract_lets s1 s2
    have h1 : AK s s1 := AK.ev (State.onWear_ev ..) (by decide)
    have h2 : AK s1 s2 := by
      unfold s2
      split
      · exact AK.refl _
      · exact AK.ev (State.mirrorWear_ev ..) (by decide)
    refine AK.trans ?_ (h2.trans h1)
    unfold State.wearCheck
    split
    · exact AK.refl _
    · extract_lets warn worn s3
      split
      · exact AK.refl _
      · exact (AK.logRec ..).trans ((AK.ev (State.mirrorWear_ev ..) (by decide)).trans (AK.ev (State.onWear_ev ..) (by decide)))
theorem AK.evacuate (port : Nat) : ∀ (l : List Extent) (s : State), AK s (s.evacuate port l).1
  | [], s => rfl
  | e :: r, s => by
    have h1 : AK s (s.evacuateOne port e).1 := by
      unfold State.evacuateOne
      split
      · exact AK.refl s
      · exact (AK.addWear ..).trans (AK.trans (AK.ev (State.freePlace_ev ..) (by decide)) ((AK.ev (State.placeExtent_ev ..) (by decide)).trans (AK.ev (State.farCopy_ev ..) (by decide))))
    unfold State.evacuate
    split
    · next s' h => exact (AK.evacuate port r s').trans (by rw [show s' = (s.evacuateOne port e).1 by rw [h]]; exact h1)
    · exact h1
theorem beginSeq_mode (s : State) (n : Nat) (m : CtxMode) (x : Nat) (hn : n < 16) :
    ((s.beginSeq n m).ctx x).mode = if x = n then m else (s.ctx x).mode := by
  unfold State.beginSeq
  show (vget (vmod s.ctxs n _) x).mode = _
  split
  · next h => subst h; rw [vget_vmod_same _ _ _ hn]
  · next h => rw [vget_vmod_other _ _ _ _ h]; rfl
theorem beginSeqs_mode : ∀ (l : List Nat) (s : State), (∀ x ∈ l, x < 16) → ∀ x,
    ((l.foldl (fun s n => s.beginSeq n .preempting) s).ctx x).mode = if x ∈ l then .preempting else (s.ctx x).mode
  | [], s, _, x => by simp
  | a :: l, s, h, x => by
    have := beginSeqs_mode l (s.beginSeq a .preempting) (fun y hy => h y (List.mem_cons_of_mem _ hy)) x
    rw [List.foldl_cons, this, beginSeq_mode _ _ _ _ (h a List.mem_cons_self)]
    by_cases h1 : x ∈ l <;> by_cases h2 : x = a <;> simp [h1, h2]
theorem withPacket_wait {s : State} {q : Nat} (g : Nat → Bool) (f : State → Nat → Nat → Nat → State) (h : canDispatch s q = false ∨ hasPacket s q = false) : withPacket s q g f = s := by
  unfold withPacket
  rcases h with h | h <;> simp [h]
theorem openExtent_wait (s : State) (k : Key) : s.cmd? k = none → s.openExtent k = s := fun h => by simp [State.openExtent, h]
theorem withService_wait {s : State} {q : QIx} (g : Nat → Bool) (f : State → SvcArgs → State × List Cond) (h : canDispatch s q = false ∨ hasPacket s q = false) : withService s (.packet q) g f = s := by
  unfold withService
  simp only
  split
  · rfl
  · exact withPacket_wait _ _ h

end Sys2Proof.Machine
end

