-- ==== Sys2Proof/Laws/Settings.lean ====
section
/-! SUPPORT. The register window, CTX_CTRL and the power states. -/
namespace Sys2Proof.Machine

theorem onQueues_ev (s : State) (n : Nat) (f : Queue → Queue) : Ev [.qs] s (s.onQueues n f) := State.onQueues_ev ..
theorem regRead_served {s : State} (h : Served s) (off : Nat) : regRead s off = readReg s off := by
  unfold Served at h
  unfold regRead
  rw [h]; simp
theorem served_of {s t : State} (h : Served s) (h1 : t.start = s.start) (h2 : t.blk = s.blk) (h3 : t.pwr = s.pwr) : Served t := by
  unfold Served windowOpen unitsRun at *
  rw [h1, h2, h3]; exact h
theorem served_ev {s t : State} {l : List Field} (h : Served s) (e : Ev l s t) (hl : sub l [.free, .svc, .log, .kpr, .kin, .ctxs, .qs, .cp, .arrays, .halves, .cores, .tun, .mem, .stks, .map, .far, .mirror, .xch, .port] = true) : Served t := by
  have e := e.mono hl
  exact served_of h (e.frame .start (by decide)) (e.frame .blk (by decide)) (e.frame .pwr (by decide))
theorem vall_vget {α β : Type} [Inhabited α] [Inhabited β] {n : Nat} (v : Vector α n) (f : α → β) (i : Nat) (h : i < n) : vget (vall v f) i = f (vget v i) := by
  simp [vget, vall, h]
/-- what onWear of warn/worn etc keeps -/
theorem onWear_get (s : State) (serial : Nat) (f : Wear → Wear) (i : Nat) (h : i < 16) : vget (s.onWear serial f).far.wear i =
    if (vget s.far.wear i).state != 0 && (vget s.far.wear i).serial == serial then f (vget s.far.wear i) else vget s.far.wear i := by
  unfold State.onWear State.onFar
  exact vall_vget _ _ _ h
theorem mirrorLedger_far (s : State) : s.mirrorLedger.far = s.far := (State.mirrorLedger_ev s).frame .far (by decide)
theorem mirrorWear_wear (s : State) (serial : Nat) : (s.mirrorWear serial).far.wear = s.far.wear := by
  have h : s.mirrorLedger.far.wear = s.far.wear := by rw [mirrorLedger_far]
  unfold State.mirrorWear
  simp only
  split
  · exact h
  · split
    · exact h
    · split <;> exact h
theorem logRec_far (s : State) (r : Rec) : (s.logRec r).far = s.far := (State.logRec_ev s r).frame .far (by decide)
theorem wearCheck_rated (s : State) (serial i : Nat) (h : i < 16) : (vget (s.wearCheck serial).far.wear i).ratedTib = (vget s.far.wear i).ratedTib := by
  unfold State.wearCheck
  split
  · rfl
  · simp only
    split
    · rfl
    · rw [logRec_far, mirrorWear_wear, onWear_get _ _ _ _ h]
      split <;> rfl
theorem served_open {s : State} (h : Served s) : ¬ (s.blk.mode = .starting ∨ s.blk.mode = .failed) ∧ (s.pwr.state = .active ∨ s.pwr.state = .arraysOff) ∧ s.start.resetLow = false := by
  unfold Served windowOpen unitsRun at h
  simp at h
  simp [h]
theorem endSprint_off (s : State) (r : Nat) : (s.endSprint r).kpr.sprintOn = false := by
  unfold State.endSprint
  split
  · simp_all
  · rfl
theorem endSprint_ev (s : State) (r : Nat) : Ev [.kpr, .kin] s (s.endSprint r) := State.endSprint_ev ..
theorem endSprint_pwr (s : State) (r : Nat) : (s.endSprint r).pwr = s.pwr := (State.endSprint_ev s r).frame .pwr (by decide)
theorem allDisabled_iff (s : State) : allDisabled s = true ↔ ∀ n < 16, (s.ctx n).mode = .disabled := by
  unfold allDisabled State.ctx vget
  rw [List.all_eq_true]
  constructor
  · intro h n hn
    have := h (s.ctxs[n]) (by simp)
    simp [hn] at this ⊢
    exact this
  · intro h x hx
    rw [Vector.mem_toList_iff, Vector.mem_iff_getElem] at hx
    obtain ⟨i, hi, rfl⟩ := hx
    have := h i hi
    simp [hi] at this
    simp [this]
theorem setTarget_run (u : State) (t : PState) (hm : ¬ (u.blk.mode = .starting ∨ u.blk.mode = .failed)) (hd : ¬ u.pwr.state = .deep)
    (ha : t = .deep → allDisabled u = true) : u.setTarget t =
      if t = .active then ((u.onPwr (fun p => { p with target := t })).goTo t).riseToCeiling
      else (u.onPwr (fun p => { p with target := t })).goTo t := by
  unfold State.setTarget
  rw [if_neg (by intro hh; exact hh.2 (ha hh.1))]
  exact (if_neg hm).trans (if_neg hd)
theorem goTo_away (u : State) (t : PState) (ht : t ≠ .active) (hs : u.pwr.state ≠ t) : u.goTo t = (u.endSprint 6).driveRequest.onPwr (fun p => { p with going := some t }) := by
  have hp : (u.endSprint 6).driveRequest.pwr = u.pwr := ((State.driveRequest_ev _).frame .pwr (by decide)).trans (endSprint_pwr u 6)
  unfold State.goTo
  rw [if_neg ht]
  unfold State.onPwr
  rw [hp]
  simp only [if_neg (Ne.symm hs)]
theorem keeperSet_dbell (q : QIx) : keeperSet (0x8000 + 0x800 * (q.val / 4) + 8 * (q.val % 4)) = false := by
  unfold keeperSet
  simp
  omega
theorem foldl_cleared {σ : Type} (P : σ → Nat → Prop) (f : σ → Nat → σ) (hs : ∀ s a, P (f s a) a) (hk : ∀ s a b, P s b → P (f s a) b) :
    ∀ (l : List Nat) (s : σ) (b : Nat), (b ∈ l ∨ P s b) → P (l.foldl f s) b
  | [], s, b, h => by simpa using h
  | x :: l, s, b, h => by
    rw [List.foldl_cons]
    apply foldl_cleared P f hs hk l
    rcases h with h | h
    · rcases List.mem_cons.1 h with rfl | h
      · exact .inr (hs ..)
      · exact .inl h
    · exact .inr (hk _ _ _ h)
theorem onArray_wreg (s : State) (a b : Nat) (f : ArraySt → ArraySt) (hf : ∀ x, (f x).wreg = x.wreg) : ((s.onArray a f).array b).wreg = (s.array b).wreg := by
  unfold State.onArray State.array
  by_cases h : a < 32
  · by_cases hb : b = a
    · subst hb; simp [vget, vmod, h, hf]
    · simp only; rw [vget_vmod_other _ _ _ _ hb]
  · simp [vmod, h]
theorem onArray_wreg0 (s : State) (a b : Nat) (f : ArraySt → ArraySt) (hf : ∀ x, (f x).wreg = []) (h : b = a ∨ (s.array b).wreg = []) : ((s.onArray a f).array b).wreg = [] := by
  unfold State.onArray State.array at *
  by_cases hb : b = a
  · subst hb
    by_cases h : b < 32
    · simp only; rw [vget_vmod_same _ _ _ h]; exact hf _
    · simp [vget, vmod, h]; rfl
  · simp only; rw [vget_vmod_other _ _ _ _ hb]
    rcases h with h | h
    · exact absurd h hb
    · exact h
theorem gate_wreg (s : State) (a : Nat) (ha : a < 32) : (s.gateArrays.array a).wreg = [] := by
  unfold State.gateArrays
  refine foldl_cleared (fun (s : State) (b : Nat) => (s.array b).wreg = []) _ ?_ ?_ _ _ a (.inl (by simp [mem_range, ha]))
  all_goals
    intro s a
    try intro b hb
    simp only
    split
    · apply onArray_wreg0 <;> simp_all
    · split
      · apply onArray_wreg0 <;> simp_all
      · refine (onArray_wreg _ _ _ _ (by intro x; rfl)).trans ?_
        apply onArray_wreg0 <;> simp_all
theorem idle_write {s : State} (hs : s.pwr.state = .idle) (hr : s.start.resetLow = false) (hm : s.blk.mode = .ready ∨ s.blk.mode = .skeleton ∨ s.blk.mode = .quiesced)
    (off v : Nat) : s.regWrite off v = s.idleWrite off v := by
  unfold State.regWrite
  rw [if_neg, if_pos hs]
  rcases hm with hm | hm | hm <;> simp [hs, hr, hm]

end Sys2Proof.Machine
end

