-- ==== Sys2Proof/Laws/Resets.lean ====
section
/-! SUPPORT. Resets and start stages. -/
namespace Sys2Proof.Machine

theorem vrep_vget {α : Type} [Inhabited α] {n : Nat} (x : α) (i : Nat) (h : i < n) : vget (Vector.replicate n x) i = x := by
  simp [vget, h]
theorem writeReg_rst (s : State) (v : Nat) : s.writeReg 0x30 v = s.writeRst v := rfl
theorem bits_of_low (v : Nat) : bitOf v 0 = (bitsOf v 1 0 % 2 == 1) ∧ bitOf v 1 = (bitsOf v 1 0 / 2 == 1) := by
  unfold bitOf bitsOf
  simp only [Nat.shiftRight_eq_div_pow]
  constructor
  · congr 1; omega
  · congr 1; omega
theorem filter_pow (n : Nat) (h : n < 16) : (rangeFrom 0 16).filter (bitOf (2 ^ n)) = [n] := by
  have : ∀ n : Fin 16, (rangeFrom 0 16).filter (bitOf (2 ^ n.val)) = [n.val] := by decide
  exact this ⟨n, h⟩
theorem resetCtx_pre (s : State) (n : Nat) : Ev [.cp, .xch, .cores, .tun] s ((s.zeroWindow n).clearCtx n) :=
  Ev.then (l := [.cp, .xch, .cores, .tun]) (State.clearCtx_ev _ _) ((State.zeroWindow_ev s n).mono (by decide)) (by decide)
theorem resetCtx_qs (s : State) (n : Nat) : Ev [.qs] s ((queuesOf n).foldl (fun s q => s.onQ q (fun _ => Queue.reset)) s) :=
  Ev.foldl _ (fun _ _ h => Ev.then (State.onQ_ev ..) h (by decide)) _ _ (Ev.refl _)
theorem resetCtx_ctx (s : State) (n : CIx) : (s.resetCtx n).ctx n = { Ctx.reset with qpend := (s.ctx n).qpend, qmask := (s.ctx n).qmask } := by
  unfold State.resetCtx
  simp only
  rw [State.onCtx_ctx]
  have : ((queuesOf n).foldl (fun s q => s.onQ q (fun _ => Queue.reset)) ((s.zeroWindow n).clearCtx n)).ctx n = s.ctx n :=
    congrArg (vget · n.val) (((resetCtx_qs _ n).frame .ctxs (by decide)).trans ((resetCtx_pre s n).frame .ctxs (by decide)))
  rw [this]
theorem resetCtx_ctxsBut (s : State) (n : Nat) : s.ctxsBut (s.resetCtx n) n := by
  intro x hx
  unfold State.resetCtx
  simp only
  rw [State.onCtx_ctxsBut _ _ _ x hx]
  exact congrArg (vget · x) (((resetCtx_qs _ n).frame .ctxs (by decide)).trans ((resetCtx_pre s n).frame .ctxs (by decide)))
theorem resetCtx_eq (s : State) (n : Nat) : ∃ u, Ev [.cp, .xch, .cores, .tun] s u ∧ u = (s.zeroWindow n).clearCtx n ∧ s.resetCtx n =
    ((queuesOf n).foldl (fun s q => s.onQ q (fun _ => Queue.reset)) u).onCtx n (fun c => { Ctx.reset with qpend := c.qpend, qmask := c.qmask }) :=
  ⟨_, resetCtx_pre s n, rfl, rfl⟩
theorem onQs_ctx_queue (u : State) (n : CIx) (F : Ctx → Ctx) (j : Nat) (hj : j < 4) :
    (((queuesOf n).foldl (fun s q => s.onQ q (fun _ => Queue.reset)) u).onCtx n F).queue (4 * n + j) = Queue.reset := by
  have := n.isLt
  have := foldl_onQ_queue (fun _ => Queue.reset) (queuesOf n) u (range_nodup ..) (fun y hy => by have := (mem_range ..).1 hy; omega) (4 * n + j)
  rw [if_pos (by unfold queuesOf; rw [mem_range]; omega)] at this
  exact this
theorem resetCtx_queue (s : State) (n : CIx) (j : Nat) (hj : j < 4) : (s.resetCtx n).queue (4 * n + j) = Queue.reset := by
  obtain ⟨u, _, _, h⟩ := resetCtx_eq s n
  rw [h]
  exact onQs_ctx_queue u n _ j hj
theorem onHeld_held (s : State) (n : CIx) (f : List Held → List Held) : (s.onHeld n f).heldOf n = f (s.heldOf n) :=
  vget_vmod_same _ _ _ n.isLt
theorem foldl_xch (f : State → Nat → State) (hf : ∀ s x, (f s x).xch = s.xch) : ∀ (l : List Nat) (s : State), (l.foldl f s).xch = s.xch
  | [], _ => rfl
  | x :: l, s => by rw [List.foldl_cons, foldl_xch f hf l, hf]
theorem clearCtx_held (s : State) (n : CIx) : (s.clearCtx n).heldOf n = [] := by
  unfold State.clearCtx
  simp only
  unfold State.heldOf
  rw [foldl_xch (fun s c => s.onCore c (fun k => { k with yielded := k.yielded.filter (fun y => y.1 != n.val) })) (fun _ _ => rfl)]
  exact onHeld_held _ n _
theorem resetCtx_held (s : State) (n : CIx) : (s.resetCtx n).heldOf n = [] := by
  obtain ⟨u, _, hu, h⟩ := resetCtx_eq s n
  have h1 : u.heldOf n = [] := by rw [hu]; exact clearCtx_held _ n
  rw [h]
  exact (congrArg (fun x : XchSt => vget x.held n.val) ((resetCtx_qs u n).frame .xch (by decide))).trans h1
theorem beginS1_mem (s : State) (k : StartKind) : (s.beginS1 k).mem = s.mem := rfl
theorem coldClear_mem (s : State) : s.coldClear.mem = { s.mem with held := [], upsets := [], slicesOut := [] } := rfl
theorem loseCache_clean (s : State) (x : Nat) (h : cellGet s.mem.dirty x = none) :
    s.loseCache.mem.dirty = [] ∧ s.loseCache.mem.parked = [] ∧ s.loseCache.mem.read x = s.mem.read x := by
  unfold State.loseCache
  extract_lets s0 s1
  have f0 := MemSt.read_flush_clean (m := s.mem) (fun a => !s.mem.resident (lineOf a)) x h
  have hm0 : s0.mem = s.mem.flush (fun a => !s.mem.resident (lineOf a)) := rfl
  rw [← hm0] at f0
  have key : ∀ (l : List Nat) (s : State), cellGet s.mem.dirty x = none →
      cellGet ((l.foldl (fun s l => if s.mem.parked.contains l then s
        else { s with free := s.free + 1 }.onMem (fun m => if Config.freeBool s.free then m.flush (fun a => lineOf a == l) else m)) s).mem.dirty) x = none
      ∧ (l.foldl (fun s l => if s.mem.parked.contains l then s
        else { s with free := s.free + 1 }.onMem (fun m => if Config.freeBool s.free then m.flush (fun a => lineOf a == l) else m)) s).mem.read x = s.mem.read x := by
    intro l
    induction l with
    | nil => exact fun s h => ⟨h, rfl⟩
    | cons y r ih =>
      intro s h
      rw [List.foldl_cons]
      by_cases hp : s.mem.parked.contains y = true
      · rw [if_pos hp]; exact ih s h
      · rw [if_neg hp]
        by_cases hf : Config.freeBool s.free = true
        · have := MemSt.read_flush_clean (m := s.mem) (fun a => lineOf a == y) x h
          have hm : (State.onMem { s with free := s.free + 1 } (fun m => if Config.freeBool s.free then m.flush (fun a => lineOf a == y) else m)).mem
              = s.mem.flush (fun a => lineOf a == y) := by
            show (if Config.freeBool s.free then _ else _ : MemSt) = _
            rw [if_pos hf]
          have := ih (State.onMem { s with free := s.free + 1 } (fun m => if Config.freeBool s.free then m.flush (fun a => lineOf a == y) else m)) (by rw [hm]; exact this.2)
          refine ⟨this.1, this.2.trans ?_⟩
          rw [hm]
          exact (MemSt.read_flush_clean (m := s.mem) (fun a => lineOf a == y) x h).1
        · have hm : (State.onMem { s with free := s.free + 1 } (fun m => if Config.freeBool s.free then m.flush (fun a => lineOf a == y) else m)).mem = s.mem := by
            show (if Config.freeBool s.free then _ else _ : MemSt) = _
            rw [if_neg hf]
          have := ih (State.onMem { s with free := s.free + 1 } (fun m => if Config.freeBool s.free then m.flush (fun a => lineOf a == y) else m)) (by rw [hm]; exact h)
          exact ⟨this.1, this.2.trans (by rw [hm])⟩
  have k := key (dirtyLines s0.mem) s0 f0.2
  rw [show List.foldl _ s0 (dirtyLines s0.mem) = s1 from rfl] at k
  refine ⟨?_, rfl, ?_⟩
  · show List.filter _ _ = []
    simp
  · simp only
    rw [← f0.1, ← k.2]
    generalize s1 = u at *
    have e : List.filter (fun x : Host.Cell => !(fun _ : Nat => true) x.1) u.mem.dirty = [] := by simp
    show (cellGet (List.filter (fun x => !(fun _ => true) x.1) u.mem.dirty) x).getD ((cellGet u.mem.near x).getD 0)
      = (cellGet u.mem.dirty x).getD ((cellGet u.mem.near x).getD 0)
    rw [e, k.1]
    rfl
theorem vofFn_vget {α : Type} [Inhabited α] {n : Nat} (f : Fin n → α) (i : Nat) (h : i < n) : vget (Vector.ofFn f) i = f ⟨i, h⟩ := by
  simp [vget, h]
theorem raiseLevel_map (s : State) (x : Nat) (l : SLevel) : ∃ f, (s.raiseLevel x l).map = { s.map with fenced := f } := by
  have bf : ∀ g (c : Bool), ∃ f, ((s.onStack x g).beginFence x c).map = { s.map with fenced := f } := fun g c => ⟨_, rfl⟩
  unfold State.raiseLevel
  simp only
  split
  all_goals
    repeat' split
    all_goals first
      | with_reducible exact bf _ _
      | exact ⟨s.map.fenced, rfl⟩
theorem fenceHot_map (s : State) : ∃ f, s.fenceHot.map = { s.map with fenced := f } := by
  unfold State.fenceHot
  generalize rangeFrom 0 _ = l
  induction l generalizing s with
  | nil => exact ⟨s.map.fenced, rfl⟩
  | cons x r ih =>
    rw [List.foldl_cons]
    obtain ⟨f, hf⟩ := ih (if (s.stack x).level.code < 2 then s else s.raiseLevel x (s.stack x).level)
    refine ⟨f, hf.trans ?_⟩
    by_cases hh : (s.stack x).level.code < 2
    · rw [if_pos hh]
    · rw [if_neg hh]
      obtain ⟨g, hg⟩ := raiseLevel_map s x (s.stack x).level
      rw [hg]
theorem formMap_plain (s : State) (slots : Nat) : formMap s slots [] [] [] =
    { s.map with parity := s.blk.paritySet, fenced := [], slots := slots, outs := [], rebuilds := false, patrol := 0, top := slots * rowGranules { s.map with parity := s.blk.paritySet, fenced := [], slots := slots, outs := [], rebuilds := false, patrol := 0 } } := by
  unfold formMap
  simp only [List.flatMap_nil, List.map_nil, List.append_nil, List.foldl_nil]
  split <;> rfl
theorem trainStacks_map (s : State) (m : MapSt) (d : List Nat) (g : List (Nat × Nat)) : (s.trainStacks m d g).map = m := by
  unfold State.trainStacks; rfl
theorem s6_tail (u4 : State) (hb : u4.kin.budget = budgetFull) (hs : u4.start.stage = 7) (ha : u4.start.attempts = 0) (hm : u4.blk.mode = .ready) :
    ∀ v, v = (if (u4.report.raiseSvc 1).pwr.target = (u4.report.raiseSvc 1).pwr.state then u4.report.raiseSvc 1 else (u4.report.raiseSvc 1).onPwr (fun p => { p with going := some p.target })) →
    v.start.stage = 7 ∧ v.start.attempts = 0 ∧ v.blk.mode = .ready ∧ v.kin.budget = budgetFull ∧ bitOf v.svc.irq 1 = true := by
  have hr := raise_bit u4.report 1
  have e5 := State.report_ev u4
  have hm5 := report_mode u4
  have h1 : u4.report.start = u4.start := e5.frame .start (by decide)
  have h2 : u4.report.kin = u4.kin := e5.frame .kin (by decide)
  generalize u4.report = u5 at *
  intro v hv
  rw [← h1] at hs ha
  rw [← h2] at hb
  rw [← hm5] at hm
  subst hv
  split <;> exact ⟨hs, ha, hm, hb, hr⟩
theorem s6_lemma (s : State) (hk : s.start.skeleton = false) (hw : s.start.kind ≠ .warm) : s.stageS6.start.stage = 7 ∧ s.stageS6.start.attempts = 0 ∧ s.stageS6.blk.mode = .ready ∧ s.stageS6.kin.budget = budgetFull ∧ bitOf s.stageS6.svc.irq 1 = true := by
  unfold State.stageS6
  simp only
  have hfull : (!s.start.skeleton && s.start.kind != .warm) = true := by simp [hk, hw]
  rw [hfull]
  generalize hu1 : (s.onKin (fun i => { i with budget := budgetFull })).onXch (fun x => { x with tx := vall x.tx (fun t => { t with epoch := s.kpr.sample % 2 ^ 32 }) }) = u1
  have : ((s.onKin (fun i => { i with budget := budgetFull })).onXch (fun x => { x with tx := vall x.tx (fun t => { t with epoch := (s.onKin (fun i => { i with budget := budgetFull })).kpr.sample % 2 ^ 32 }) })) = u1 := hu1
  rw [this]
  have hb1 : u1.kin.budget = budgetFull ∧ u1.start = s.start := by rw [← hu1]; exact ⟨rfl, rfl⟩
  generalize hu2 : (if u1.start.kind = .deep then u1.restoreTotals else u1) = u2
  have e2 : Ev [.ctxs] u1 u2 := by
    rw [← hu2]; split
    · exact State.restoreTotals_ev ..
    · exact Ev.refl _
  have hb2 : u2.kin.budget = budgetFull ∧ u2.start = s.start := by
    rw [e2.frame .kin (by decide), e2.frame .start (by decide)]; exact hb1
  simp only [↓reduceIte]
  generalize hu3 : (((u2.onStart (fun x => { x with stage := 7, attempts := 0 })).onBlk (fun b => { b with mode := if (u2.onStart (fun x => { x with stage := 7, attempts := 0 })).start.skeleton = true then .skeleton else .ready })).onMap (fun x => { x with rebuilds := true })) = u3
  have h3 : u3.kin.budget = budgetFull ∧ u3.start = { s.start with stage := 7, attempts := 0 } ∧ u3.blk.mode = .ready := by
    rw [← hu3]
    refine ⟨hb2.1, ?_, ?_⟩
    · show ({ u2.start with stage := 7, attempts := 0 } : StartSt) = _
      rw [hb2.2]
    · show (if u2.start.skeleton = true then BlkMode.skeleton else .ready) = _
      rw [hb2.2, hk]; rfl
  split
  · exact s6_tail u3 h3.1 (by rw [h3.2.1]) (by rw [h3.2.1]) h3.2.2 _ rfl
  · have e4 := fun r => State.logRec_ev u3 r
    refine s6_tail _ ?_ ?_ ?_ ?_ _ rfl
    · rw [(e4 _).frame .kin (by decide)]; exact h3.1
    · rw [(e4 _).frame .start (by decide), h3.2.1]
    · rw [(e4 _).frame .start (by decide), h3.2.1]
    · rw [(e4 _).frame .blk (by decide)]; exact h3.2.2

end Sys2Proof.Machine
end

