-- ==== Sys2Proof/Laws/Hops.lean ====
section
/-! SUPPORT. Engine commands, the far tier and the hops. -/
namespace Sys2Proof.Machine

theorem pat_get (p i : Nat) (h : i < 2048) : ∃ h' : i < (patternBytes p).length, (patternBytes p)[i] = BitVec.ofNat 8 (gPattern p / 256 ^ (i % 16)) := by
  have gen : ∀ (n : Nat) (l : List Byte), l.length = 16 → ∀ i, i < 16 * n → (List.replicate n l).flatten[i]? = l[i % 16]? := by
    intro n l hl
    induction n with
    | zero => intro i hi; omega
    | succ n ih =>
      intro i hi
      rw [List.replicate_succ, List.flatten_cons]
      by_cases hh : i < 16
      · rw [List.getElem?_append_left (by omega), Nat.mod_eq_of_lt hh]
      · rw [List.getElem?_append_right (by omega), hl, ih _ (by omega)]
        congr 1; omega
  have hl : (natLe (gPattern p) 16).length = 16 := length_natLe ..
  have h1 := gen 128 (natLe (gPattern p) 16) hl i (by omega)
  have h2 : i % 16 < (natLe (gPattern p) 16).length := by rw [hl]; omega
  rw [List.getElem?_eq_getElem h2, natLe_get] at h1
  unfold patternBytes
  obtain ⟨h3, h4⟩ := List.getElem?_eq_some_iff.1 h1
  exact ⟨h3, h4⟩
theorem pat_len (p : Nat) : (patternBytes p).length = 2048 := by
  unfold patternBytes
  simp [length_natLe]
theorem poison_find {s : State} {k : Key} {c : Cmd} {e : Eng} {a : Nat} (hc : s.cmd? k = some c) (he : c.eng? = some e)
    (hbad : badByte s a 1 = none) (hup : s.mem.badLine false a 1 = none) :
    ∃ d, ((s.onEng k (fun e => { e with cmps := [] })).engReadFails k ⟨.memoryUnrecoverable, a⟩).cmd? k = some d
      ∧ d.ended = (c.ended || e.awaiting.isEmpty) ∧ d.conds = c.conds ++ [⟨.memoryUnrecoverable, a⟩]
      ∧ ((s.onEng k (fun e => { e with cmps := [] })).engReadFails k ⟨.memoryUnrecoverable, a⟩).log.nextSeq = (s.log.nextSeq + 1) % 2 ^ 32 := by
  have h1 := onEng_find (fun e => { e with cmps := [] }) hc he
  have hb : badByte (s.onEng k (fun e => { e with cmps := [] })) a 1 = none :=
    (SameMem.badByte ⟨rfl, rfl, rfl, rfl⟩ a 1).trans hbad
  have hu : (s.onEng k (fun e => { e with cmps := [] })).mem.badLine false a 1 = none := hup
  have hlog : (s.onEng k (fun e => { e with cmps := [] })).log = s.log := rfl
  generalize s.onEng k (fun e => { e with cmps := [] }) = u at *
  unfold State.engReadFails
  have hl : u.logLost ⟨.memoryUnrecoverable, a⟩ (ctxOf k.1) none = u.logRec { event := 0x16, action := 6, ctx := some (ctxOf k.1), ticket := none, d0 := a } := by
    unfold State.logLost
    rw [if_pos ⟨rfl, by rw [hb]; rfl, by rw [hu]; rfl⟩]
  rw [hl]
  have h2 := (cmd_of_cp ((State.logRec_ev u { event := 0x16, action := 6, ctx := some (ctxOf k.1), ticket := none, d0 := a }).frame .cp (by decide)) k).trans h1
  obtain ⟨d, h3, h4, h5, h6⟩ := halt_find ⟨.memoryUnrecoverable, a⟩ h2 rfl
  refine ⟨d, h3, h6.trans ?_, h5, ?_⟩
  · simp [Eng.quiet]
  · refine (congrArg ErrLog.nextSeq ((State.engHalt_ev ..).frame .log (by decide))).trans ?_
    rw [logRec_seq, hlog]
/-- the mirror keeps the far tier but for the on-module records -/
theorem mirrorWear_keep (s : State) (serial : Nat) : (s.mirrorWear serial).far.linkUp = s.far.linkUp ∧ (s.mirrorWear serial).far.map = s.far.map
    ∧ (s.mirrorWear serial).far.cells = s.far.cells
    ∧ ∀ p, (vget (s.mirrorWear serial).far.modules p).map (fun m => (m.serial, m.capGib, m.lifeUsed)) = (vget s.far.modules p).map (fun m => (m.serial, m.capGib, m.lifeUsed)) := by
  have hl := mirrorLedger_far s
  unfold State.mirrorWear
  simp only
  rw [← hl]
  generalize s.mirrorLedger = s
  split
  · exact ⟨rfl, rfl, rfl, fun _ => rfl⟩
  · next w _ =>
    split
    · exact ⟨rfl, rfl, rfl, fun _ => rfl⟩
    · next m hm =>
      split
      · exact ⟨rfl, rfl, rfl, fun _ => rfl⟩
      · refine ⟨rfl, rfl, rfl, fun p => ?_⟩
        unfold moduleOf at hm
        split at hm
        · rw [Option.bind_eq_some_iff] at hm
          obtain ⟨m', h1, h2⟩ := hm
          split at h2
          · cases h2
            show Option.map _ (vget (vmod s.far.modules w.port _) p) = _
            by_cases hp : p = w.port
            · subst hp
              by_cases hlt : w.port < 4
              · rw [vget_vmod_same _ _ _ hlt]
                have h1 : vget s.far.modules w.port = some m := h1
                rw [h1]; rfl
              · simp [vmod, hlt]
            · rw [vget_vmod_other _ _ _ _ hp]
          · cases h2
        · cases hm
theorem onWear_keep (s : State) (serial : Nat) (f : Wear → Wear) : (s.onWear serial f).far.linkUp = s.far.linkUp ∧ (s.onWear serial f).far.map = s.far.map
    ∧ (s.onWear serial f).far.cells = s.far.cells ∧ (s.onWear serial f).far.modules = s.far.modules := ⟨rfl, rfl, rfl, rfl⟩
theorem wearCheck_keep (s : State) (serial : Nat) : (s.wearCheck serial).far.linkUp = s.far.linkUp ∧ (s.wearCheck serial).far.map = s.far.map
    ∧ (s.wearCheck serial).far.cells = s.far.cells
    ∧ (∀ p, (vget (s.wearCheck serial).far.modules p).map (fun m => (m.serial, m.capGib, m.lifeUsed)) = (vget s.far.modules p).map (fun m => (m.serial, m.capGib, m.lifeUsed)))
    ∧ ∀ i < 16, (vget (s.wearCheck serial).far.wear i).serial = (vget s.far.wear i).serial ∧ (vget (s.wearCheck serial).far.wear i).state = (vget s.far.wear i).state
      ∧ (vget (s.wearCheck serial).far.wear i).port = (vget s.far.wear i).port := by
  unfold State.wearCheck
  split
  · exact ⟨rfl, rfl, rfl, fun _ => rfl, fun _ _ => ⟨rfl, rfl, rfl⟩⟩
  · next w _ =>
    simp only
    split
    · exact ⟨rfl, rfl, rfl, fun _ => rfl, fun _ _ => ⟨rfl, rfl, rfl⟩⟩
    · rw [logRec_far]
      obtain ⟨h1, h2, h3, h4⟩ := mirrorWear_keep (s.onWear serial (fun y => { y with warn := w.warn || w.lifeAtMost 10, worn := w.worn || w.lifeAtMost 1 })) serial
      refine ⟨h1, h2, h3, h4, fun i hi => ?_⟩
      rw [mirrorWear_wear, onWear_get _ _ _ _ hi]
      split <;> exact ⟨rfl, rfl, rfl⟩
theorem entrySlot_lt (w : Vector Wear 16) (serial : Nat) : entrySlot w serial < 16 := by
  have hlen : w.toList.length = 16 := by simp
  unfold entrySlot
  simp only
  split
  · next i h => exact hlen ▸ (List.findIdx?_eq_some_iff_getElem.1 h).1
  · split
    · next i h => exact hlen ▸ (List.findIdx?_eq_some_iff_getElem.1 h).1
    · have key : ∀ (l : List (Wear × Nat)) (b : Option (Wear × Nat)), (∀ x ∈ l, x.2 < 16) → (∀ x, b = some x → x.2 < 16) →
          ∀ x, l.foldl (fun (b : Option (Wear × Nat)) x => match b with
        | none => some x
        | some y => if x.1.absentAt < y.1.absentAt then some x else some y) b = some x → x.2 < 16 := by
        intro l
        induction l with
        | nil => intro b _ hb x hx; exact hb x hx
        | cons y r ih =>
          intro b hl hb x hx
          rw [List.foldl_cons] at hx
          refine ih _ (fun z hz => hl z (.tail _ hz)) ?_ x hx
          intro z hz
          split at hz
          · cases hz; exact hl _ (.head _)
          · split at hz
            · cases hz; exact hl _ (.head _)
            · cases hz; exact hb _ rfl
      split
      · next x h =>
        refine key _ none (fun z hz => ?_) (fun z hz => by cases hz) x h
        have := (List.mem_filter.1 hz).1
        have := List.snd_lt_of_mem_zipIdx this
        omega
      · omega
theorem takeEntry_keep (s : State) (p : Nat) (m : Module) : (s.takeEntry p m).far.linkUp = s.far.linkUp ∧ (s.takeEntry p m).far.map = s.far.map
    ∧ (∀ p', (vget (s.takeEntry p m).far.modules p').map (fun m => (m.serial, m.capGib, m.lifeUsed)) = (vget s.far.modules p').map (fun m => (m.serial, m.capGib, m.lifeUsed)))
    ∧ ∃ i < 16, (vget (s.takeEntry p m).far.wear i).serial = m.serial ∧ (vget (s.takeEntry p m).far.wear i).state = 1
      ∧ (vget (s.takeEntry p m).far.wear i).port = p := by
  unfold State.takeEntry
  simp only
  generalize hu : (s.onFar (fun f => { f with wear := vmod f.wear (entrySlot s.far.wear m.serial) (fun w =>
    let base : Wear := if w.state != 0 && w.serial == m.serial then w
      else { Wear.empty with serial := m.serial, written := if m.rated then m.recWritten else 0,
                             ratedTib := if m.rated then m.recRatedTib else 0 }
    { base with state := 1, rated := m.rated, port := p, lifeUsed := min 100 m.lifeUsed, capGib := m.capGib }) })) = u
  have hlt := entrySlot_lt s.far.wear m.serial
  have h0 : u.far.linkUp = s.far.linkUp ∧ u.far.map = s.far.map ∧ u.far.modules = s.far.modules := by rw [← hu]; exact ⟨rfl, rfl, rfl⟩
  have hw : (vget u.far.wear (entrySlot s.far.wear m.serial)).serial = m.serial ∧ (vget u.far.wear (entrySlot s.far.wear m.serial)).state = 1
      ∧ (vget u.far.wear (entrySlot s.far.wear m.serial)).port = p := by
    rw [← hu]
    show (vget (vmod s.far.wear _ _) _).serial = _ ∧ (vget (vmod s.far.wear _ _) _).state = _ ∧ (vget (vmod s.far.wear _ _) _).port = _
    rw [vget_vmod_same _ _ _ hlt]
    simp only
    split
    · next h => simp at h; exact ⟨h.2, trivial, trivial⟩
    · exact ⟨rfl, trivial, trivial⟩
  generalize entrySlot s.far.wear m.serial = i at *
  obtain ⟨a1, a2, _, a4, a5⟩ := wearCheck_keep (u.mirrorWear m.serial) m.serial
  obtain ⟨b1, b2, _, b4⟩ := mirrorWear_keep u m.serial
  refine ⟨a1.trans (b1.trans h0.1), a2.trans (b2.trans h0.2.1), fun p' => (a4 p').trans ((b4 p').trans (by rw [h0.2.2])), i, hlt, ?_⟩
  rw [(a5 i hlt).1, (a5 i hlt).2.1, (a5 i hlt).2.2, mirrorWear_wear]
  exact hw
theorem map_some {α β : Type} {f : α → β} {o : Option α} {m : α} (h : o.map f = some (f m)) : ∃ u, o = some u ∧ f u = f m := by
  cases o with
  | none => cases h
  | some u => exact ⟨u, rfl, Option.some.inj h⟩
theorem onRx_same (s : State) (h : Nat) (f : RxHop → RxHop) (hh : h < 9) : (s.onRx h f).rxHop h = f (s.rxHop h) := vget_vmod_same s.xch.rx h f hh
theorem onTx_same (s : State) (h : Nat) (f : TxHop → TxHop) (hh : h < 9) : (s.onTx h f).txHop h = f (s.txHop h) := vget_vmod_same s.xch.tx h f hh
theorem emit_out (s : State) (img) : (s.emit img).xch.out.length = s.xch.out.length + 1 := by
  show (s.xch.out ++ [_]).length = _
  simp
theorem emit_rx (s : State) (img) (h) : (s.emit img).rxHop h = s.rxHop h := rfl
theorem emit_tx (s : State) (img) (h) : (s.emit img).txHop h = s.txHop h := rfl
theorem logDrop_seq (s : State) (h n : Nat) : (s.logDrop h n).log.nextSeq = (s.log.nextSeq + 1) % 2 ^ 32 := by
  unfold State.logDrop
  have := (State.raiseSvc_ev (s.logRec { event := 0x18, action := 8, kind := 9, unit := h, d0 := n }) 3).frame .log (by decide)
  have h2 : ((s.logRec { event := 0x18, action := 8, kind := 9, unit := h, d0 := n }).raiseSvc 3).log = (s.logRec { event := 0x18, action := 8, kind := 9, unit := h, d0 := n }).log := this
  rw [h2, logRec_seq]

end Sys2Proof.Machine
end

