-- ==== Sys2Proof/Laws/Stacks.lean ====
section
/-! SUPPORT. Stacks, the error log and fences. -/
namespace Sys2Proof.Machine

theorem nx {x y : State} (h : x = y) : (Host.Outcome.next x : Host.Outcome State Fault Refusal) = .next y := congrArg _ h
theorem lwBytes_read (s : State) (a : Nat) (x : LW) : (s.store a (lwBytes x)).readNat a 16 = lwCode x % 256 ^ 16 := State.store_readNat ..
theorem filter_ne_not {α β : Type} [DecidableEq β] (f : α → β) (b : β) (l : List α) : ∀ o ∈ l.filter (fun o => f o != b), f o ≠ b := by
  intro o ho
  have := (List.mem_filter.mp ho).2
  simpa using this
theorem chanMember_chmap (profile : Nat) : ∀ k < groupCount profile, ∀ m < groupWidth profile,
    chanMember profile (chmap profile k m).1 (chmap profile k m).2 = (k, m) := by
  by_cases h : profile = 3
  · subst h
    decide +kernel
  · intro k _ m _
    unfold chmap chanMember
    rw [if_neg h, if_neg h]
theorem groupCount_pos (p : Nat) : 0 < groupCount p := by unfold groupCount; split <;> decide
theorem groupWidth_two (p : Nat) : 2 ≤ groupWidth p := by unfold groupWidth; split <;> decide
theorem group_back (x a G : Nat) (hx : x < G) : ((x + a) % G + G * (a / G + 1) - a) % G = x := by
  have hG : 0 < G := by omega
  have h1 := Nat.div_add_mod a G
  have h2 := Nat.mod_lt a hG
  generalize a / G = d at *
  generalize a % G = e at *
  subst h1
  have h3 : (x + (G * d + e)) % G = if x + e < G then x + e else x + e - G := by
    rw [show x + (G * d + e) = (x + e) + G * d by omega, Nat.add_mul_mod_self_left]
    split
    · exact Nat.mod_eq_of_lt ‹_›
    · rw [Nat.mod_eq_sub_mod (by omega), Nat.mod_eq_of_lt (by omega)]
  rw [h3, Nat.mul_add, Nat.mul_one]
  split
  · rw [show x + e + (G * d + G) - (G * d + e) = x + G * 1 by omega, Nat.add_mul_mod_self_left, Nat.mod_eq_of_lt hx]
  · rw [show x + e - G + (G * d + G) - (G * d + e) = x by omega, Nat.mod_eq_of_lt hx]
theorem place_group (p : MapSt) (g : Nat) : (place p g).group < groupCount p.profile := Nat.mod_lt _ (groupCount_pos _)
theorem dataWidth_pos (p : MapSt) : 0 < dataWidth p := by
  have := groupWidth_two p.profile
  unfold dataWidth; split <;> omega
theorem place_member (p : MapSt) (g : Nat) : (place p g).member < groupWidth p.profile := by
  have h := dataWidth_pos p
  have h2 := Nat.mod_lt (g % rowGranules p) h
  show (if _ then _ else _) < _
  unfold dataWidth at *
  have hw := groupWidth_two p.profile
  cases hp : p.parity with
  | true =>
    simp only [hp, if_true] at h h2 ⊢
    generalize hy : g % rowGranules p % (groupWidth p.profile - 1) = y at *
    have a1 : y + 1 < groupWidth p.profile := by omega
    have a2 : y < groupWidth p.profile := by omega
    split
    · exact a1
    · exact a2
  | false =>
    simp only [hp, Bool.false_and, Bool.false_eq_true, if_false] at h h2 ⊢
    exact h2
theorem granuleOf_member (p : MapSt) (r k j : Nat) :
    granuleOf p r k (if p.parity && decide (j ≥ (r + k) % groupWidth p.profile) then j + 1 else j)
      = some (r * rowGranules p + ((k + groupCount p.profile * (7 * r / groupCount p.profile + 1) - 7 * r) % groupCount p.profile)
        * dataWidth p + j) := by
  unfold granuleOf
  simp only
  generalize (r + k) % groupWidth p.profile = q
  cases hp : p.parity with
  | false => simp only [Bool.false_and, Bool.false_eq_true, if_false]
  | true =>
    simp only [Bool.true_and]
    by_cases hq : q ≤ j
    · rw [if_pos (show decide (j ≥ q) = true by simpa using hq)]
      rw [if_neg (by simp; omega), if_pos (by simp; omega), Nat.add_sub_cancel]
    · rw [if_neg (show ¬ decide (j ≥ q) = true by simpa using hq)]
      rw [if_neg (by simp; omega), if_neg (by simp; omega)]
theorem granuleOf_place (p : MapSt) (g : Nat) : granuleOf p (place p g).slot (place p g).group (place p g).member = some g := by
  have hv := dataWidth_pos p
  have hG := groupCount_pos p.profile
  have hx : g % rowGranules p < groupCount p.profile * dataWidth p := Nat.mod_lt _ (Nat.mul_pos hG hv)
  have hk : g % rowGranules p / dataWidth p < groupCount p.profile := by
    rw [Nat.div_lt_iff_lt_mul hv]; exact hx
  refine (granuleOf_member p (g / rowGranules p) _ (g % rowGranules p % dataWidth p)).trans ?_
  rw [show (place p g).group = (g % rowGranules p / dataWidth p + 7 * (g / rowGranules p)) % groupCount p.profile from rfl]
  rw [group_back _ _ _ hk, Nat.add_assoc, Nat.mul_comm (g % rowGranules p / dataWidth p), Nat.div_add_mod, Nat.mul_comm, Nat.div_add_mod]
theorem chanMember_place (p : MapSt) (g : Nat) :
    chanMember p.profile (place p g).stack (place p g).chan = ((place p g).group, (place p g).member) :=
  chanMember_chmap _ _ (place_group p g) _ (place_member p g)
theorem lost_ok (s : State) (x c n : Nat) (hx : x < 24) (hl : (s.stack x).lost.contains c = false)
    (ht : ((s.stack x).lostAt.filter (fun t => decide (s.kpr.sample ≤ t + 1))).length < 31) :
    ∃ u r, Ev [.stks] s u ∧ (u.stack x).lost = (s.stack x).lost ++ [c]
      ∧ s.loseChannel x c n = (let v := u.logRec r; (if s.map.parity && decide (s.map.outs.length < 8) then v.mapOut x c else v).report)
      ∧ (r.action = if s.map.parity && decide (s.map.outs.length < 8) then 4 else 9) := by
  unfold State.loseChannel
  rw [if_neg (by rw [hl]; decide)]
  extract_lets now s1 can v
  have h1 : s1.stack x = _ := State.onStack_stack_same s x _ hx
  have e : Ev [.stks] s s1 := Ev.upd_stks s _
  refine ⟨s1, { event := 0x11, action := if can then 4 else 9, kind := 8, unit := x * 32 + c, d0 := n }, e, ?_, ?_, ?_⟩
  rotate_left
  · rw [if_neg]
    · rfl
    · rw [h1]
      show ¬ (_ :: _ : List Nat).length = 32
      rw [List.length_cons]
      exact fun h => absurd ht (by rw [show (31 : Nat) = 30 + 1 from rfl]; exact Nat.not_lt.2 (Nat.le_of_eq (Nat.succ.inj h).symm))
  · rfl
  · rw [h1]
theorem mapOut_facts (v : State) (x c : Nat) : ∃ o, (v.mapOut x c).map.outs = v.map.outs ++ [o] ∧ o.stack = x ∧ o.chan = c ∧ o.moved = 0
    ∧ (v.mapOut x c).map.top = o.base ∧ o.base ≤ v.map.top ∧ (v.mapOut x c).blk.mapList = (v.mapOut x c).map.outs
    ∧ bitOf (v.mapOut x c).svc.irq 0 = true := by
  unfold State.mapOut
  extract_lets skip e o idle old s1 s2 s3
  have hm3 : s3.map = s1.map := (State.logRec_ev _ _).frame .map (by decide)
  have hb3 : s3.blk = s2.blk := (State.logRec_ev _ _).frame .blk (by decide)
  have hi3 : bitOf s3.svc.irq 0 = true := (logs_ok s2 _).2.2 (by rfl)
  have hor : ∀ r, bitOf (s3.logRec r).svc.irq 0 = true := by
    intro r
    rw [logRec_svc]
    split
    · exact raise_bit s3 0
    · exact hi3
  have h3 : s3.map.outs = v.map.outs ++ [o] ∧ s3.map.top = o.base ∧ s3.blk.mapList = s3.map.outs := by
    rw [hm3, hb3]; exact ⟨rfl, rfl, rfl⟩
  refine ⟨o, ?_, rfl, rfl, rfl, ?_, Nat.sub_le .., ?_, ?_⟩
  · split
    · exact (congrArg MapSt.outs ((State.logRec_ev s3 _).frame .map (by decide))).trans h3.1
    · exact h3.1
  · split
    · exact (congrArg MapSt.top ((State.logRec_ev s3 _).frame .map (by decide))).trans h3.2.1
    · exact h3.2.1
  · split
    · exact (congrArg Blk.mapList ((State.logRec_ev s3 _).frame .blk (by decide))).trans (h3.2.2.trans
        (congrArg MapSt.outs ((State.logRec_ev s3 _).frame .map (by decide))).symm)
    · exact h3.2.2
  · split
    · exact hor _
    · exact hi3
theorem report_mapList (u : State) : u.report.blk.mapList = u.blk.mapList := by
  unfold State.report
  split
  · rfl
  · simp only
    generalize condsNow u = l
    generalize l.filter _ = l'
    have := logs_blk l' u
    generalize List.foldl _ u l' = v at *
    show v.blk.mapList = _
    rw [this]
theorem filter_two {α : Type} (p q : α → Bool) (l : List α) : (l.filter p).filter q = l.filter (fun x => q x && p x) := by
  rw [List.filter_filter]

end Sys2Proof.Machine
end

