-- ==== Sys2Proof/Laws/Keeper.lean ====
section
/-! SUPPORT. The keeper. -/
namespace Sys2Proof.Machine

/-- What outvoting a copy keeps. -/
theorem outvote_keep (s : State) (c k : Nat) : (s.outvote c k).kpr = s.kpr ∧ (s.outvote c k).kin.sensors = s.kin.sensors
    ∧ (s.outvote c k).kin.recent = s.kin.recent ∧ (s.outvote c k).kin.budget = s.kin.budget ∧ (s.outvote c k).pwr = s.pwr
    ∧ (s.outvote c k).cores = s.cores := by
  have hl : ∀ (u : State) r, (u.logRec r).kpr = u.kpr ∧ (u.logRec r).kin = u.kin ∧ (u.logRec r).pwr = u.pwr ∧ (u.logRec r).cores = u.cores :=
    fun u r => ⟨(State.logRec_ev u r).frame .kpr (by decide), (State.logRec_ev u r).frame .kin (by decide), (State.logRec_ev u r).frame .pwr (by decide), (State.logRec_ev u r).frame .cores (by decide)⟩
  have hr : ∀ (u : State), u.report.kpr = u.kpr ∧ u.report.kin = u.kin ∧ u.report.pwr = u.pwr ∧ u.report.cores = u.cores :=
    fun u => ⟨(State.report_ev u).frame .kpr (by decide), (State.report_ev u).frame .kin (by decide), (State.report_ev u).frame .pwr (by decide), (State.report_ev u).frame .cores (by decide)⟩
  unfold State.outvote
  extract_lets vote now
  split
  · exact ⟨rfl, rfl, rfl, rfl, rfl, rfl⟩
  · split
    · obtain ⟨h1, h2, h3, h4⟩ := hl s { event := 0x0C, action := 9, kind := 5, unit := c, d0 := k }
      rw [h1, h2, h3, h4]; exact ⟨rfl, rfl, rfl, rfl, rfl, rfl⟩
    · split
      · split
        · simp only [hr, hl]; exact ⟨rfl, rfl, rfl, rfl, rfl, rfl⟩
        · simp only [hl]; exact ⟨rfl, rfl, rfl, rfl, rfl, rfl⟩
      · simp only [hl]; exact ⟨rfl, rfl, rfl, rfl, rfl, rfl⟩
theorem sprint_alarm (s : State) (h : s.kin.alarm = true) : s.sprintDecision.kpr.sprintOn = false ∧ s.sprintDecision.kpr.vReq ≤ s.kpr.vReq := by
  have hr : sprintReason s = 7 := by unfold sprintReason; simp [h]
  unfold State.sprintDecision
  rw [hr]
  simp only [show (7 : Nat) ≠ 0 by decide, if_false]
  split
  · unfold State.endSprint
    split
    · simp_all
    · exact ⟨rfl, Nat.min_le_left ..⟩
  · exact ⟨by simp_all [State.onKpr], Nat.le_refl _⟩
theorem sprint_keep (s : State) : s.sprintDecision.kin.sensors = s.kin.sensors ∧ s.sprintDecision.kin.recent = s.kin.recent
    ∧ s.sprintDecision.kin.budget = s.kin.budget ∧ s.sprintDecision.kin.alarm = s.kin.alarm ∧ s.sprintDecision.pwr = s.pwr
    ∧ s.sprintDecision.kpr.tHot = s.kpr.tHot ∧ s.sprintDecision.kpr.sample = s.kpr.sample ∧ s.sprintDecision.kpr.pLimit = s.kpr.pLimit := by
  unfold State.sprintDecision
  extract_lets r
  split
  · exact ⟨rfl, rfl, rfl, rfl, rfl, rfl, rfl, rfl⟩
  · split
    · unfold State.endSprint
      split
      · exact ⟨rfl, rfl, rfl, rfl, rfl, rfl, rfl, rfl⟩
      · exact ⟨rfl, rfl, rfl, rfl, rfl, rfl, rfl, rfl⟩
    · exact ⟨rfl, rfl, rfl, rfl, rfl, rfl, rfl, rfl⟩
structure DK (s t : State) : Prop where
  sensors : t.kin.sensors = s.kin.sensors
  recent : t.kin.recent = s.kin.recent
  budget : t.kin.budget = s.kin.budget
  tHot : t.kpr.tHot = s.kpr.tHot
  sample : t.kpr.sample = s.kpr.sample
  pLimit : t.kpr.pLimit = s.kpr.pLimit
theorem DK.trans {a b c : State} (g : DK b c) (h : DK a b) : DK a c :=
  ⟨g.1.trans h.1, g.2.trans h.2, g.3.trans h.3, g.4.trans h.4, g.5.trans h.5, g.6.trans h.6⟩
theorem DK.refl (a : State) : DK a a := ⟨rfl, rfl, rfl, rfl, rfl, rfl⟩
theorem cap_keep (s : State) (f r : Nat) : DK s (s.capFall f) ∧ DK s (s.capRise r) := by
  constructor
  · unfold State.capFall
    extract_lets u
    split <;> exact ⟨rfl, rfl, rfl, rfl, rfl, rfl⟩
  · unfold State.capRise
    extract_lets u
    split <;> exact ⟨rfl, rfl, rfl, rfl, rfl, rfl⟩
theorem underCap_grade (s : State) (c : Nat) (h : c < 8) : (s.underCap.core c).grade ≤ s.underCap.kpr.gradeCap := by
  show CoreSt.grade (vget (vall s.cores _) c) ≤ s.kpr.gradeCap
  rw [vget_vall _ _ _ h]
  exact Nat.min_le_right ..
theorem decide_facts (s : State) (x : Sample) (ps : Nat) :
    DK s (s.decide_ x ps) ∧ (∀ c < 8, ((s.decide_ x ps).core c).grade ≤ (s.decide_ x ps).kpr.gradeCap)
    ∧ (x.chipAlarm = true ∨ 105 ≤ s.kpr.tHot → (s.decide_ x ps).kin.alarm = true ∧ (s.decide_ x ps).kpr.throttle = 3
      ∧ (s.decide_ x ps).kpr.gradeCap = 0 ∧ (s.decide_ x ps).kpr.sprintOn = false
      ∧ (s.pwr.state = .active ∨ s.pwr.state = .arraysOff → (s.decide_ x ps).kpr.vReq ≤ 120)) := by
  unfold State.decide_
  extract_lets k alarm hot cool above spare s1 s2 ceil at120 awake r s3 s4 tG s5 s6
  have d1 : DK s s1 := ⟨rfl, rfl, rfl, rfl, rfl, rfl⟩
  have d2 : DK s1 s2 := by
    obtain ⟨h1, h2, h3, h4, h5, h6, h7, h8⟩ := sprint_keep s1
    exact ⟨h1, h2, h3, h6, h7, h8⟩
  have d3 : DK s2 s3 := by
    show DK s2 (if awake = true then _ else _)
    split <;> exact ⟨rfl, rfl, rfl, rfl, rfl, rfl⟩
  have d4 : DK s3 s4 := ⟨rfl, rfl, rfl, rfl, rfl, rfl⟩
  have d5 : DK s4 s5 := ⟨rfl, rfl, rfl, rfl, rfl, rfl⟩
  have d6 : DK s5 s6 := by
    show DK s5 (if _ then _ else _)
    repeat' split
    · exact ⟨rfl, rfl, rfl, rfl, rfl, rfl⟩
    · exact (cap_keep _ _ 0).1
    · exact (cap_keep _ _ 0).1
    · exact (cap_keep _ _ 0).1
    · exact ⟨rfl, rfl, rfl, rfl, rfl, rfl⟩
    · exact (cap_keep _ 0 _).2
  have d7 : DK s6 s6.underCap := ⟨rfl, rfl, rfl, rfl, rfl, rfl⟩
  refine ⟨d7.trans (d6.trans (d5.trans (d4.trans (d3.trans (d2.trans d1))))), fun c hc => underCap_grade s6 c hc, ?_⟩
  intro ha
  have hal : alarm = true := by
    show (x.chipAlarm || decide (105 ≤ s.kpr.tHot)) = true
    rcases ha with ha | ha <;> simp [ha]
  have a1 : s1.kin.alarm = true := by
    show (s.kin.alarm || alarm) = true
    rw [hal]; simp
  have a2 : s2.kin.alarm = true := (sprint_keep s1).2.2.2.1.trans a1
  have o2 := (sprint_alarm s1 a1).1
  have hp2 : s2.pwr = s.pwr := (sprint_keep s1).2.2.2.2.1
  have a3 : s3.kin = s2.kin ∧ s3.kpr.sprintOn = s2.kpr.sprintOn ∧ (awake = true → s3.kpr.vReq = r.1) := by
    show (if awake = true then _ else _ : State).kin = _ ∧ (if awake = true then _ else _ : State).kpr.sprintOn = _ ∧ _
    cases hw : awake with
    | true => exact ⟨rfl, rfl, fun _ => by show (if awake = true then _ else _ : State).kpr.vReq = _; rw [hw]; rfl⟩
    | false => exact ⟨rfl, rfl, fun h => by cases h⟩
  have a4 : s5.kin.alarm = true := (congrArg KprIn.alarm a3.1).trans a2
  have t4 : s5.kpr.throttle = 3 := by
    show (if s3.kin.alarm = true then 3 else _) = 3
    rw [if_pos ((congrArg KprIn.alarm a3.1).trans a2)]
  have e6 : s6 = s5.onKpr (fun k => { k with gradeCap := 0 }) := if_pos a4
  refine ⟨?_, ?_, ?_, ?_, ?_⟩
  · show s6.kin.alarm = true
    rw [e6]; exact a4
  · show s6.kpr.throttle = 3
    rw [e6]; exact t4
  · show s6.kpr.gradeCap = 0
    rw [e6]; rfl
  · show s6.kpr.sprintOn = false
    rw [e6]; exact a3.2.1.trans o2
  · intro hw
    have aw : awake = true := by
      show (s2.pwr.state == .active || s2.pwr.state == .arraysOff || s2.pwr.going == some .active) = true
      rw [hp2]
      rcases hw with hw | hw <;> simp [hw]
    show s6.kpr.vReq ≤ 120
    rw [e6]
    show s3.kpr.vReq ≤ 120
    rw [a3.2.2 aw]
    show (requestOf s2.kin.alarm _ _ _ _ _ _).1 ≤ 120
    rw [a2]
    exact Nat.min_le_right ..
theorem stackSample_keep (s : State) (x : Nat) (t : Int) : (s.stackSample x t).kpr = s.kpr ∧ (s.stackSample x t).kin = s.kin
    ∧ (s.stackSample x t).pwr = s.pwr ∧ (s.stackSample x t).cores = s.cores := by
  have e := State.stackSample_ev s x t
  exact ⟨e.frame .kpr (by decide), e.frame .kin (by decide), e.frame .pwr (by decide), e.frame .cores (by decide)⟩
theorem stackSamples_keep (l : List (Int × Nat)) : ∀ (s : State), (l.foldl (fun s y => s.stackSample y.2 y.1) s).kpr = s.kpr ∧ (l.foldl (fun s y => s.stackSample y.2 y.1) s).kin = s.kin
    ∧ (l.foldl (fun s y => s.stackSample y.2 y.1) s).pwr = s.pwr ∧ (l.foldl (fun s y => s.stackSample y.2 y.1) s).cores = s.cores := by
  induction l with
  | nil => exact fun s => ⟨rfl, rfl, rfl, rfl⟩
  | cons a l ih =>
    intro s
    obtain ⟨h1, h2, h3, h4⟩ := ih (s.stackSample a.2 a.1)
    obtain ⟨g1, g2, g3, g4⟩ := stackSample_keep s a.2 a.1
    exact ⟨h1.trans g1, h2.trans g2, h3.trans g3, h4.trans g4⟩
theorem account_keep (i : KprIn) (k : Kpr) (deep : Bool) (ps rate : Nat) : (i.account k deep ps rate).sensors = i.sensors
    ∧ (i.account k deep ps rate).recent = i.recent ∧ (i.account k deep ps rate).alarm = i.alarm
    ∧ (i.account k deep ps rate).budget = min budgetFull (i.budget + k.pLimit * 1000000 - ps) := by
  unfold KprIn.account
  exact ⟨rfl, rfl, rfl, rfl⟩
theorem account_end (s t : State) (ps rate : Nat) (h : s.onKin (fun i => i.account s.kpr (s.pwr.state == .deep) ps rate) = t) :
    t.kpr = s.kpr ∧ t.cores = s.cores ∧ t.kin.sensors = s.kin.sensors ∧ t.kin.recent = s.kin.recent ∧ t.kin.alarm = s.kin.alarm
    ∧ t.kin.budget = min budgetFull (s.kin.budget + s.kpr.pLimit * 1000000 - ps) := by
  subst h
  obtain ⟨k1, k2, k3, k4⟩ := account_keep s.kin s.kpr (s.pwr.state == .deep) ps rate
  exact ⟨State.onKin_kpr .., State.onKin_cores .., (congrArg KprIn.sensors (State.onKin_kin ..)).trans k1,
    (congrArg KprIn.recent (State.onKin_kin ..)).trans k2, (congrArg KprIn.alarm (State.onKin_kin ..)).trans k3,
    (congrArg KprIn.budget (State.onKin_kin ..)).trans k4⟩
set_option linter.unusedVariables false
theorem exec_ev (c : Instr) (s : State) {t : State} (h : exec c s = .next t) : Ev (touches c) s t := by
  cases c with
  | nop q => exact execNop_ev q s h
  | fence q => exact execFence_ev q s h
  | fenceRelease q => exact execFenceRelease_ev q s h
  | signal q => exact execSignal_ev q s h
  | wait q => exact execWait_ev q s h
  | waitSatisfied q => exact execWaitSatisfied_ev q s h
  | stepSet q => exact execStepSet_ev q s h
  | matmul q => exact execMatmul_ev q s h
  | matvec q => exact execMatvec_ev q s h
  | gatherMatmul q => exact execGatherMatmul_ev q s h
  | segmentSum q => exact execSegmentSum_ev q s h
  | combine q => exact execCombine_ev q s h
  | finish q => exact execFinish_ev q s h
  | scaleScan q => exact execScaleScan_ev q s h
  | copy q => exact execCopy_ev q s h
  | fill q => exact execFill_ev q s h
  | frameSend q => exact execFrameSend_ev q s h
  | frameRecv q => exact execFrameRecv_ev q s h
  | frameCombine q => exact execFrameCombine_ev q s h
  | maxExchange q => exact execMaxExchange_ev q s h
  | spill q => exact execSpill_ev q s h
  | reload q => exact execReload_ev q s h
  | tunSave q => exact execTunSave_ev q s h
  | tunRestore q => exact execTunRestore_ev q s h
  | tunRestoreBind q => exact execTunRestoreBind_ev q s h
  | query q => exact execQuery_ev q s h
  | countersClear q => exact execCountersClear_ev q s h
  | unknownOpcode q => exact execUnknownOpcode_ev q s h
  | spareRead src => exact execSpareRead_ev src s h
  | repairAdd src => exact execRepairAdd_ev src s h
  | fuseBurn src burnOk => exact execFuseBurn_ev src burnOk s h
  | paritySet src => exact execParitySet_ev src s h
  | loopback src errors => exact execLoopback_ev src errors s h
  | wearReset src => exact execWearReset_ev src s h
  | farEvacuate src => exact execFarEvacuate_ev src s h
  | frameRetag src => exact execFrameRetag_ev src s h
  | frameDiscard src => exact execFrameDiscard_ev src s h
  | quiesce src => exact execQuiesce_ev src s h
  | workCounterRecordFree q => exact execWorkCounterRecordFree_ev q s h
  | ledgerRunWrite q pos => exact execLedgerRunWrite_ev q pos s h
  | qDoorbellWrite q value => exact execQDoorbellWrite_ev q value s h
  | qBaseWrite q value => exact execQBaseWrite_ev q value s h
  | enable n value => exact execEnable_ev n value s h
  | disable n value => exact execDisable_ev n value s h
  | preempt n value => exact execPreempt_ev n value s h
  | resume n value => exact execResume_ev n value s h
  | disableStageEnd n => exact execDisableStageEnd_ev n s h
  | farWriteAbandon n => exact execFarWriteAbandon_ev n s h
  | tunZeroComplete n => exact execTunZeroComplete_ev n s h
  | warmReset value => exact execWarmReset_ev value s h
  | attemptsClr value => exact execAttemptsClr_ev value s h
  | contextReset value => exact execContextReset_ev value s h
  | targetIdle value => exact execTargetIdle_ev value s h
  | targetArraysOff value => exact execTargetArraysOff_ev value s h
  | targetDeep value => exact execTargetDeep_ev value s h
  | targetActive value => exact execTargetActive_ev value s h
  | autoIdleExpiry => exact execAutoIdleExpiry_ev  s h
  | idleWake src => exact execIdleWake_ev src s h
  | powerStateReached => exact execPowerStateReached_ev  s h
  | kprLimitsWrite value => exact execKprLimitsWrite_ev value s h
  | sprintCtrlWrite value => exact execSprintCtrlWrite_ev value s h
  | rampLimitWrite value => exact execRampLimitWrite_ev value s h
  | memResvWrite value => exact execMemResvWrite_ev value s h
  | wearLedgerIdxWrite value => exact execWearLedgerIdxWrite_ev value s h
  | wearLedgerDataRead => exact execWearLedgerDataRead_ev  s h
  | ratedTibWrite value => exact execRatedTibWrite_ev value s h
  | registerWrite offset value => exact execRegisterWrite_ev offset value s h
  | powerOnReset straps => exact execPowerOnReset_ev straps s h
  | resetNAssert => exact execResetNAssert_ev  s h
  | resetNRelease straps => exact execResetNRelease_ev straps s h
  | railLoss => exact execRailLoss_ev  s h
  | startStageEnd e => exact execStartStageEnd_ev e s h
  | startStageTimeout => exact execStartStageTimeout_ev  s h
  | startRetry => exact execStartRetry_ev  s h
  | linkDown p => exact execLinkDown_ev p s h
  | moduleAttach p m => exact execModuleAttach_ev p m s h
  | inboundFrame raw => exact execInboundFrame_ev raw s h
  | ack raw => exact execAck_ev raw s h
  | sync raw => exact execSync_ev raw s h
  | syncRequest raw => exact execSyncRequest_ev raw s h
  | endFrame raw => exact execEndFrame_ev raw s h
  | ackSend hx => exact execAckSend_ev hx s h
  | frameResendTimeout hx fseq => exact execFrameResendTimeout_ev hx fseq s h
  | receiverTimeout q pos => exact execReceiverTimeout_ev q pos s h
  | hostAccessRequest addr write beats tag data strb upset => exact execHostAccessRequest_ev addr write beats tag data strb upset s h
  | hostOutboundResponse src status data => exact execHostOutboundResponse_ev src status data s h
  | cxlResponse q pos granule r => exact execCxlResponse_ev q pos granule r s h
  | phyParityError stack chan fails addr => exact execPhyParityError_ev stack chan fails addr s h
  | stackUncorrectable stack chan addr verifyOk => exact execStackUncorrectable_ev stack chan addr verifyOk s h
  | rebuildDone => exact execRebuildDone_ev  s h
  | stripeGatherExpiry stripe => exact execStripeGatherExpiry_ev stripe s h
  | stackFenceComplete stack => exact execStackFenceComplete_ev stack s h
  | stackReturnPhase1End stack responds => exact execStackReturnPhase1End_ev stack responds s h
  | stackReturnComplete stack => exact execStackReturnComplete_ev stack s h
  | patrolScrub bad => exact execPatrolScrub_ev bad s h
  | farWriteComplete q pos granule => exact execFarWriteComplete_ev q pos granule s h
  | keeperSample x => exact execKeeperSample_ev x s h
  | voltageStep => exact execVoltageStep_ev  s h
  | sprintContinuousLimit => exact execSprintContinuousLimit_ev  s h
  | throttleClear => exact execThrottleClear_ev  s h
  | stackLevelFall stack => exact execStackLevelFall_ev stack s h
  | voltageMonitorAlarm => exact execVoltageMonitorAlarm_ev  s h
  | sensorFailed sensor => exact execSensorFailed_ev sensor s h
  | telemetryRecord vMeas tStack workSteps fillerSteps => exact execTelemetryRecord_ev vMeas tStack workSteps fillerSteps s h
  | wearMirror => exact execWearMirror_ev  s h
  | delayMarginCalibration c margin => exact execDelayMarginCalibration_ev c margin s h
  | gradeInterval c => exact execGradeInterval_ev c s h
  | holdWindowExpiry c => exact execHoldWindowExpiry_ev c s h
  | tunScrub c double => exact execTunScrub_ev c double s h
  | tunScrubForced c slot double => exact execTunScrubForced_ev c slot double s h
  | stageScrub upset => exact execStageScrub_ev upset s h
  | draw u => exact execDraw_ev u s h
  | mailboxTake u => exact execMailboxTake_ev u s h
  | prefetchReadReturn a area addr len upset => exact execPrefetchReadReturn_ev a area addr len upset s h
  | feederVectorRead a double => exact execFeederVectorRead_ev a double s h
  | arrayStep a upset => exact execArrayStep_ev a upset s h
  | thinStep half upset => exact execThinStep_ev half upset s h
  | drainRowGrant c upset => exact execDrainRowGrant_ev c upset s h
  | doneAction u residue => exact execDoneAction_ev u residue s h
  | speculativeCopy a => exact execSpeculativeCopy_ev a s h
  | replyWrite q pos => exact execReplyWrite_ev q pos s h
  | diagnosticPassEnd a f => exact execDiagnosticPassEnd_ev a f s h
  | granuleComplete q pos granule => exact execGranuleComplete_ev q pos granule s h
  | watchdogStall c unit => exact execWatchdogStall_ev c unit s h
  | cpLockstepMismatch addr => exact execCpLockstepMismatch_ev addr s h
  | switchoverResume => exact execSwitchoverResume_ev  s h
  | cpSelftestEnd pass0 pass1 => exact execCpSelftestEnd_ev pass0 pass1 s h
  | abist a phasePass => exact execAbist_ev a phasePass s h
  | mbist mem pass => exact execMbist_ev mem pass s h
  | fusePgm bits => exact execFusePgm_ev bits s h
  | fuseRead => exact execFuseRead_ev  s h
  | status => exact execStatus_ev  s h
  | wsBypass => exact execWsBypass_ev  s h
  | wsExtest => exact execWsExtest_ev  s h
  | wsIntest => exact execWsIntest_ev  s h
  | wsSafe => exact execWsSafe_ev  s h
  | testEnFall => exact execTestEnFall_ev  s h
  | reservedSubcode src => exact execReservedSubcode_ev src s h
  | cfgResponse p r => exact execCfgResponse_ev p r s h
  | peerLinkUp i up => exact execPeerLinkUp_ev i up s h
  | extraInputStreamArrival u stream row => exact execExtraInputStreamArrival_ev u stream row s h
  | thinFetchArrival half f => exact execThinFetchArrival_ev half f s h
theorem Obligations_bitOf (w i : Nat) : bitOf w i = w.testBit i := by
  unfold bitOf
  rw [Nat.testBit_eq_decide_div_mod_eq, Nat.shiftRight_eq_div_pow]
  rcases Nat.mod_two_eq_zero_or_one (w / 2 ^ i) with h | h <;> simp [h]

end Sys2Proof.Machine
end

