-- ==== Sys2Proof/Laws/CpFaults.lean ====
section
/-! SUPPORT. Faults of the command processor. -/
namespace Sys2Proof.Machine

/-- A masked fault: each command of the key counts one more. -/
theorem maskFault_cmds (s : State) (k log) : (s.maskFault k log).cp.cmds = s.cp.cmds.map (fun c => if c.key == k then
    { c with masked := c.masked + 1, firstLog := some (c.firstLog.getD log) } else c) := rfl
theorem maskFold (log : Nat) : ∀ (l : List Cmd) (s : State) (c : Cmd), c ∈ s.cp.cmds →
    ∃ d ∈ (l.foldl (fun s c => s.maskFault c.key log) s).cp.cmds, d.key = c.key ∧ d.body = c.body ∧ c.masked ≤ d.masked
      ∧ (c.firstLog.isSome → d.firstLog.isSome) ∧ ((∃ x ∈ l, x.key = c.key) → c.masked < d.masked ∧ d.firstLog.isSome) := by
  intro l
  induction l with
  | nil => exact fun s c hc => ⟨c, hc, rfl, rfl, Nat.le_refl _, id, fun ⟨x, hx, _⟩ => by cases hx⟩
  | cons y l ih =>
    intro s c hc
    by_cases hk : c.key = y.key
    · obtain ⟨d, h1, h2, h3, h4, h5, h6⟩ := ih (s.maskFault y.key log) { c with masked := c.masked + 1, firstLog := some (c.firstLog.getD log) }
        (by rw [maskFault_cmds]; exact List.mem_map.2 ⟨c, hc, by simp [hk]⟩)
      have hm : c.masked < d.masked := by have : c.masked + 1 ≤ d.masked := h4; omega
      exact ⟨d, h1, h2, h3, by omega, fun _ => h5 rfl, fun _ => ⟨hm, h5 rfl⟩⟩
    · obtain ⟨d, h1, h2, h3, h4, h5, h6⟩ := ih (s.maskFault y.key log) c (by rw [maskFault_cmds]; exact List.mem_map.2 ⟨c, hc, by simp [hk]⟩)
      refine ⟨d, h1, h2, h3, h4, h5, fun ⟨x, hx, hxk⟩ => h6 ⟨x, ?_, hxk⟩⟩
      rcases List.mem_cons.1 hx with rfl | hx
      · exact absurd hxk.symm hk
      · exact hx
theorem maskFold_cp (log : Nat) : ∀ (l : List Cmd) (s : State), ∃ x, (l.foldl (fun s c => s.maskFault c.key log) s).cp = { s.cp with cmds := x }
    ∧ (l.foldl (fun s c => s.maskFault c.key log) s).svc = s.svc ∧ (l.foldl (fun s c => s.maskFault c.key log) s).blk = s.blk := by
  intro l
  induction l with
  | nil => exact fun s => ⟨_, rfl, rfl, rfl⟩
  | cons y l ih =>
    intro s
    obtain ⟨x, h1, h2, h3⟩ := ih (s.maskFault y.key log)
    exact ⟨x, h1, h2, h3⟩
theorem report_cp (s : State) : s.report.cp = s.cp := (State.report_ev s).frame .cp (by decide)
theorem logRec_cp (s : State) (r) : (s.logRec r).cp = s.cp := (State.logRec_ev s r).frame .cp (by decide)
theorem logRec_blk (s : State) (r) : (s.logRec r).blk = s.blk := (State.logRec_ev s r).frame .blk (by decide)
theorem logRec_arrays (s : State) (r) : (s.logRec r).arrays = s.arrays := (State.logRec_ev s r).frame .arrays (by decide)
theorem logRec_cores (s : State) (r) : (s.logRec r).cores = s.cores := (State.logRec_ev s r).frame .cores (by decide)
theorem report_repair (u : State) : u.report.blk.repair = u.blk.repair := by
  unfold State.report
  split
  · rfl
  · simp only
    generalize condsNow u = l
    generalize l.filter _ = l'
    have := logs_blk l' u
    generalize List.foldl _ u l' = v at *
    show v.blk.repair = _
    rw [this]
theorem unit_lt (u : UIx) : u.val < 56 := u.isLt

end Sys2Proof.Machine
end

