-- ==== Sys2Proof/Laws/Done.lean ====
section
/-! SUPPORT. Done actions and drains. -/
namespace Sys2Proof.Machine

theorem finishSaves_none (s : State) (h : ∀ x ∈ s.cp.cmds, pOp x.pkt ≠ 0x30) : s.finishSaves = s := by
  unfold State.finishSaves
  rw [List.filter_eq_nil_iff.2]
  · rfl
  · intro x hx
    have := h x hx
    simp [this]
theorem onComp_pkts (s : State) (k : Key) (f : Comp → Comp) (P : Nat → Prop) (h : ∀ x ∈ s.cp.cmds, P x.pkt) :
    ∀ x ∈ (s.onComp k f).cp.cmds, P x.pkt := by
  intro x hx
  obtain ⟨y, hy, rfl⟩ := List.mem_map.1 hx
  split
  · show P (Cmd.onComp y f).pkt
    unfold Cmd.onComp
    split <;> exact h y hy
  · exact h y hy
theorem stores_ev (s : State) (l : List (Nat × List Byte)) : Ev [.mem] s (l.foldl (fun s w => s.store w.1 w.2) s) :=
  Ev.foldl _ (fun _ _ h => Ev.then (State.store_ev ..) h (by decide)) l s (Ev.refl s)
/-- A change of a command's work keeps its phase and the state, checksum and unit of every entry. -/
def KeepsEnt (f : Comp → Comp) : Prop := ∀ c : Comp, (f c).phase = c.phase ∧ ∀ (ord i : Nat) (e : Entry), (c.run? ord).bind (fun r => r.entries[i]?) = some e →
  ∃ e' : Entry, ((f c).run? ord).bind (fun r => r.entries[i]?) = some e' ∧ e'.state = e.state ∧ e'.checksum = e.checksum ∧ e'.unit = e.unit
theorem KeepsEnt.same (f : Comp → Comp) (h : ∀ c, (f c).phase = c.phase ∧ (f c).runs = c.runs) : KeepsEnt f := by
  intro c
  refine ⟨(h c).1, fun ord i e he => ⟨e, ?_, rfl, rfl, rfl⟩⟩
  unfold Comp.run? at *
  rw [(h c).2]; exact he
theorem KeepsEnt.onEntry (o t : Nat) (g : Entry → Entry) (hg : ∀ e, (g e).state = e.state ∧ (g e).checksum = e.checksum ∧ (g e).unit = e.unit) :
    KeepsEnt (fun c => c.onEntry o t g) := by
  intro c
  refine ⟨rfl, fun ord i e he => ?_⟩
  show ∃ e', ((c.runs.modify o (fun r => { r with entries := r.entries.modify t g }))[ord]?).bind _ = some e' ∧ _
  change (c.runs[ord]?).bind _ = some e at he
  cases hr : c.runs[ord]? with
  | none => rw [hr] at he; cases he
  | some r =>
    rw [hr] at he
    rw [List.getElem?_modify, hr]
    show ∃ e', (if o = ord then ({ r with entries := r.entries.modify t g } : Run) else r).entries[i]? = some e' ∧ _
    by_cases h1 : o = ord
    · rw [if_pos h1]
      show ∃ e', (r.entries.modify t g)[i]? = some e' ∧ _
      rw [List.getElem?_modify]
      have he : r.entries[i]? = some e := he
      rw [he]
      show ∃ e', some (if t = i then g e else e) = some e' ∧ _
      by_cases h2 : t = i
      · rw [if_pos h2]; exact ⟨g e, rfl, hg e⟩
      · rw [if_neg h2]; exact ⟨e, rfl, rfl, rfl, rfl⟩
    · rw [if_neg h1]; exact ⟨e, he, rfl, rfl, rfl⟩
theorem KeepsEnt.trans {f g : Comp → Comp} (hf : KeepsEnt f) (hg : KeepsEnt g) : KeepsEnt (fun c => g (f c)) := by
  intro c
  refine ⟨(hg (f c)).1.trans (hf c).1, fun ord i e he => ?_⟩
  obtain ⟨e1, h1, h2, h3, h4⟩ := (hf c).2 ord i e he
  obtain ⟨e2, g1, g2, g3, g4⟩ := (hg (f c)).2 ord i e1 h1
  exact ⟨e2, g1, g2.trans h2, g3.trans h3, g4.trans h4⟩
theorem KeepsEnt.fold (o : Nat) : ∀ l : List Nat, KeepsEnt (fun c => l.foldl (fun c t => c.onEntry o t Entry.lessOne) c)
  | [] => KeepsEnt.same _ (fun _ => ⟨rfl, rfl⟩)
  | t :: l => (KeepsEnt.onEntry o t Entry.lessOne (fun _ => ⟨rfl, rfl, rfl⟩)).trans (KeepsEnt.fold o l)
theorem KeepsEnt.free : KeepsEnt Comp.freeRuns := by
  intro c
  refine ⟨rfl, fun ord i e he => ⟨e, ?_, rfl, rfl, rfl⟩⟩
  change (c.runs[ord]?).bind _ = some e at he
  show ((c.runs.map _)[ord]?).bind _ = some e
  rw [List.getElem?_map]
  cases hr : c.runs[ord]? with
  | none => rw [hr] at he; cases he
  | some r =>
    rw [hr] at he
    show (if _ then _ else _ : Run).entries[i]? = some e
    split <;> exact he
/-- What follows the done action keeps of the entry it set DONE, and of the drains of the unit. -/
structure After (k : Key) (ord i ck un u : Nat) (s t : State) : Prop where
  ent : (∃ (c : Comp) (e : Entry), s.comp? k = some c ∧ c.phase ≠ 1 ∧ (c.run? ord).bind (fun r => r.entries[i]?) = some e ∧ e.state = .done ∧ e.checksum = ck ∧ e.unit = un) →
    (∃ (c : Comp) (e : Entry), t.comp? k = some c ∧ c.phase ≠ 1 ∧ (c.run? ord).bind (fun r => r.entries[i]?) = some e ∧ e.state = .done ∧ e.checksum = ck ∧ e.unit = un)
  dr : ∀ x ∈ t.drainsOf u, x ∈ s.drainsOf u
section
variable {k : Key} {ord i ck un u : Nat}
theorem After.refl (s : State) : After k ord i ck un u s s := ⟨id, fun _ h => h⟩
theorem After.trans {a b c : State} (g : After k ord i ck un u b c) (h : After k ord i ck un u a b) : After k ord i ck un u a c :=
  ⟨fun x => g.1 (h.1 x), fun x hx => h.2 x (g.2 x hx)⟩
theorem After.foldl {α : Type} (f : State → α → State) (hf : ∀ s x, After k ord i ck un u s (f s x)) : ∀ (l : List α) (s : State),
    After k ord i ck un u s (l.foldl f s)
  | [], s => After.refl s
  | x :: l, s => (After.foldl f hf l _).trans (hf s x)
theorem drainsOf_congr {s t : State} (ha : t.arrays = s.arrays) (hh : t.halves = s.halves) (hc : t.cores = s.cores) (u : Nat) : t.drainsOf u = s.drainsOf u := by
  unfold State.drainsOf State.array State.half State.core
  rw [ha, hh, hc]
theorem After.of_cp {s t : State} (hc : t.cp = s.cp) (hd : ∀ x ∈ t.drainsOf u, x ∈ s.drainsOf u) : After k ord i ck un u s t := by
  refine ⟨fun ⟨c, e, h⟩ => ⟨c, e, ?_⟩, hd⟩
  rw [comp_of_cp hc]; exact h
theorem After.of_same {s t : State} (hc : t.cp = s.cp) (ha : t.arrays = s.arrays) (hh : t.halves = s.halves) (hk : t.cores = s.cores) :
    After k ord i ck un u s t := After.of_cp hc (by rw [drainsOf_congr ha hh hk]; exact fun x h => h)
theorem onCmd_comp_other (s : State) (j k : Key) (f : Cmd → Cmd) (hf : ∀ c, (f c).key = c.key) (h : j ≠ k) : (s.onCmd j f).cmd? k = s.cmd? k := by
  unfold State.onCmd State.cmd? State.onCp
  simp only
  generalize s.cp.cmds = l
  induction l with
  | nil => rfl
  | cons c r ih =>
    rw [List.map_cons, List.find?_cons, List.find?_cons]
    by_cases h1 : c.key = j
    · have e1 : (c.key == j) = true := by simp [h1]
      have e2 : (c.key == k) = false := by rw [h1]; simp [h]
      rw [if_pos e1]
      have e3 : ((f c).key == k) = false := by rw [hf]; exact e2
      rw [e2, e3]; exact ih
    · have e1 : (c.key == j) = false := by simp [h1]
      rw [e1, if_neg (by decide)]
      cases (c.key == k)
      · exact ih
      · rfl
theorem After.onCmd (s : State) (j : Key) (f : Cmd → Cmd) (hk : ∀ c, (f c).key = c.key) (hc : ∃ g, KeepsEnt g ∧ ∀ c, (f c).comp? = c.comp?.map g) :
    After k ord i ck un u s (s.onCmd j f) := by
  obtain ⟨g, hg, hcg⟩ := hc
  refine ⟨?_, fun _ h => h⟩
  rintro ⟨c, e, h1, h2, h3, h4, h5, h6⟩
  by_cases hj : j = k
  · subst hj
    obtain ⟨e', g1, g2, g3, g4⟩ := (hg c).2 ord i e h3
    refine ⟨g c, e', ?_, by rw [(hg c).1]; exact h2, g1, g2.trans h4, g3.trans h5, g4.trans h6⟩
    unfold State.comp? at *
    rw [onCmd_find _ _ _ hk]
    cases hs : s.cmd? j with
    | none => rw [hs] at h1; cases h1
    | some x =>
      rw [hs] at h1
      show (f x).comp? = _
      rw [hcg, show x.comp? = some c from h1]; rfl
  · refine ⟨c, e, ?_, h2, h3, h4, h5, h6⟩
    unfold State.comp? at *
    rw [onCmd_comp_other _ _ _ _ hk hj]; exact h1
theorem After.onComp (s : State) (j : Key) (g : Comp → Comp) (hg : KeepsEnt g) : After k ord i ck un u s (s.onComp j g) :=
  After.onCmd s j _ (fun c => c.onComp_key g) ⟨g, hg, fun c => c.onComp_comp g⟩
theorem After.specEnds (s : State) (sd) : After k ord i ck un u s (s.specEnds sd) := by
  unfold State.specEnds
  split
  · exact After.onComp _ _ _ (KeepsEnt.same _ (fun _ => ⟨rfl, rfl⟩))
  · exact After.refl s
theorem vget_vmod_cases {α : Type} [Inhabited α] {n : Nat} (v : Vector α n) (i j : Nat) (f : α → α) :
    vget (vmod v i f) j = f (vget v j) ∨ vget (vmod v i f) j = vget v j := by
  by_cases h : j = i
  · subst h
    by_cases hn : j < n
    · exact .inl (vget_vmod_same v j f hn)
    · right; unfold vmod; rw [dif_neg hn]
  · exact .inr (vget_vmod_other v i j f h)
theorem drains_sub {s t : State} (ha : ∀ m x, x ∈ (t.array m).drains → x ∈ (s.array m).drains) (hh : ∀ m x, x ∈ (t.half m).drains → x ∈ (s.half m).drains)
    (hc : ∀ m x, x ∈ (t.core m).fusionDrains → x ∈ (s.core m).fusionDrains) (u : Nat) : ∀ x ∈ t.drainsOf u, x ∈ s.drainsOf u := by
  intro x hx
  unfold State.drainsOf at *
  split
  · next h => rw [if_pos h] at hx; exact ha _ _ hx
  · next h =>
    rw [if_neg h] at hx
    split
    · next h => rw [if_pos h] at hx; exact hh _ _ hx
    · next h => rw [if_neg h] at hx; exact hc _ _ hx
theorem After.onArray (s : State) (n : Nat) (f : ArraySt → ArraySt) (hf : ∀ c x, x ∈ (f c).drains → x ∈ c.drains) : After k ord i ck un u s (s.onArray n f) :=
  After.of_cp rfl (drains_sub (s := s) (t := s.onArray n f) (fun m x hx => by
    have e : (s.onArray n f).array m = f (s.array m) ∨ (s.onArray n f).array m = s.array m := vget_vmod_cases s.arrays n m f
    rcases e with e | e <;> rw [e] at hx
    · exact hf _ _ hx
    · exact hx) (fun _ _ h => h) (fun _ _ h => h) u)
theorem After.onHalf (s : State) (n : Nat) (f : ThinSt → ThinSt) (hf : ∀ c x, x ∈ (f c).drains → x ∈ c.drains) : After k ord i ck un u s (s.onHalf n f) :=
  After.of_cp rfl (drains_sub (s := s) (t := s.onHalf n f) (fun _ _ h => h) (fun m x hx => by
    have e : (s.onHalf n f).half m = f (s.half m) ∨ (s.onHalf n f).half m = s.half m := vget_vmod_cases s.halves n m f
    rcases e with e | e <;> rw [e] at hx
    · exact hf _ _ hx
    · exact hx) (fun _ _ h => h) u)
theorem After.onCore (s : State) (n : Nat) (f : CoreSt → CoreSt) (hf : ∀ c x, x ∈ (f c).fusionDrains → x ∈ c.fusionDrains) : After k ord i ck un u s (s.onCore n f) :=
  After.of_cp rfl (drains_sub (s := s) (t := s.onCore n f) (fun _ _ h => h) (fun _ _ h => h) (fun m x hx => by
    have e : (s.onCore n f).core m = f (s.core m) ∨ (s.onCore n f).core m = s.core m := vget_vmod_cases s.cores n m f
    rcases e with e | e <;> rw [e] at hx
    · exact hf _ _ hx
    · exact hx) u)
theorem After.release (s : State) (v sd) : After k ord i ck un u s (s.release v sd) := by
  unfold State.release
  split
  · exact After.refl s
  · exact After.onCore _ _ _ (fun _ _ h => h)
theorem After.charge (s : State) (v : Nat) (q n) : After k ord i ck un u s (s.charge v q n) := After.onCore _ _ _ (fun _ _ h => h)
theorem After.dropWalk (s : State) (v sd) : After k ord i ck un u s (s.dropWalk v sd) := by
  unfold State.dropWalk
  split
  · refine After.trans (After.onCore _ _ _ ?_) (After.onArray _ _ _ ?_)
    · exact fun _ _ h => h
    · intro c x hx
      split at hx
      · split at hx <;> exact hx
      · exact hx
  · split
    · refine After.onHalf _ _ _ ?_
      intro c x hx
      split at hx
      · split at hx <;> exact hx
      · exact hx
    · exact After.refl s
theorem After.onDrains (s : State) (v) (p : Drain → Bool) : After k ord i ck un u s (s.onDrains v (fun l => l.filter p)) := by
  unfold State.onDrains
  split
  · exact After.onArray _ _ _ (fun _ _ h => (List.mem_filter.1 h).1)
  · split
    · exact After.onHalf _ _ _ (fun _ _ h => (List.mem_filter.1 h).1)
    · exact After.onCore _ _ _ (fun _ _ h => (List.mem_filter.1 h).1)
/-- Drains put in place of those of a unit, each one of them. -/
theorem After.setDrains (s : State) (v : Nat) (l : List Drain) (hl : ∀ x ∈ l, x ∈ s.drainsOf v) :
    After k ord i ck un u s (s.onDrains v (fun _ => l)) := by
  have key : ∀ {α : Type} [Inhabited α] {n : Nat} (w : Vector α n) (a b : Nat) (f : α → α) (g : α → List Drain)
      (_ : ∀ x ∈ g (f (vget w a)), x ∈ g (vget w a)), ∀ x ∈ g (vget (vmod w a f) b), x ∈ g (vget w b) := by
    intro α _ n w a b f g h x hx
    by_cases hb : b = a
    · subst hb
      rcases vget_vmod_cases w b b f with e | e <;> rw [e] at hx
      · exact h x hx
      · exact hx
    · rw [vget_vmod_other _ _ _ _ hb] at hx; exact hx
  unfold State.drainsOf at hl
  unfold State.onDrains
  split
  · next h =>
    rw [if_pos h] at hl
    exact After.of_cp rfl (drains_sub (s := s) (t := s.onArray v (fun a => { a with drains := l }))
      (fun m => key s.arrays v m (fun a => { a with drains := l }) (fun a => a.drains) hl) (fun _ _ h => h) (fun _ _ h => h) u)
  · next h =>
    rw [if_neg h] at hl
    split
    · next h =>
      rw [if_pos h] at hl
      exact After.of_cp rfl (drains_sub (s := s) (t := s.onHalf (v - 32) (fun a => { a with drains := l }))
        (fun _ _ h => h) (fun m => key s.halves (v - 32) m (fun a => { a with drains := l }) (fun a => a.drains) hl) (fun _ _ h => h) u)
    · next h =>
      rw [if_neg h] at hl
      exact After.of_cp rfl (drains_sub (s := s) (t := s.onCore (v - 48) (fun a => { a with fusionDrains := l }))
        (fun _ _ h => h) (fun _ _ h => h) (fun m => key s.cores (v - 48) m (fun a => { a with fusionDrains := l }) (fun a => a.fusionDrains) hl) u)
theorem After.setMail (s : State) (v m) : After k ord i ck un u s (s.setMail v m) := by
  unfold State.setMail
  split
  · exact After.onArray _ _ _ (fun _ _ h => h)
  · split
    · exact After.onHalf _ _ _ (fun _ _ h => h)
    · exact After.onCore _ _ _ (fun _ _ h => h)
theorem After.abandon (s : State) (v sd st) : After k ord i ck un u s (s.abandon v sd st) := by
  unfold State.abandon
  extract_lets saved gone steps s1 s2
  refine (After.release _ _ _).trans ((After.charge _ _ _ _).trans ?_)
  have h1 : After k ord i ck un u s s1 := After.onComp _ _ _ (KeepsEnt.fold _ _)
  have h2 : After k ord i ck un u s s2 := (After.dropWalk _ _ _).trans h1
  have hw : ∀ (kept : List Drain) (l : List Drain) (w : State), (l.foldl (fun s d => s.wipe v d kept) w).drainsOf v = w.drainsOf v
      ∧ After k ord i ck un u w (l.foldl (fun s d => s.wipe v d kept) w) := by
    intro kept l w
    have e := Ev.foldl (l := [.tun]) (s := w) (fun s d => s.wipe v d kept) (fun u x h => Ev.then (State.wipe_ev ..) h (by decide)) l w (Ev.refl w)
    exact ⟨drainsOf_congr (e.frame .arrays (by decide)) (e.frame .halves (by decide)) (e.frame .cores (by decide)) v,
      After.of_same (e.frame .cp (by decide)) (e.frame .arrays (by decide)) (e.frame .halves (by decide)) (e.frame .cores (by decide))⟩
  have h3 : ∀ lost : List Drain, After k ord i ck un u s ((lost.foldl (fun s d => s.wipe v d ((s2.drainsOf v).partition (fun d => !(d.seed == sd) || st d)).1) s2).onDrains v
      (fun _ => ((s2.drainsOf v).partition (fun d => !(d.seed == sd) || st d)).1)) := fun lost =>
    (After.setDrains _ _ _ (fun x hx => by
      rw [(hw _ _ _).1]
      rw [List.partition_eq_filter_filter] at hx
      exact (List.mem_filter.1 hx).1)).trans ((hw _ _ _).2.trans h2)
  show After k ord i ck un u s (if _ then _ else _)
  split
  · exact (After.specEnds _ _).trans (h3 _)
  · exact h3 _
theorem After.unplaced (s : State) (l : List Seed) : After k ord i ck un u s (s.onCp (fun cp => { cp with unplaced := l })) :=
  ⟨fun ⟨c, e, h⟩ => ⟨c, e, h⟩, fun _ h => h⟩
theorem After.dropQueued (s : State) (p) : After k ord i ck un u s (s.dropQueued p) := by
  unfold State.dropQueued
  refine (After.foldl _ ?_ _ _).trans (After.unplaced s _)
  intro s v
  split
  · split
    · exact (After.specEnds _ _).trans (After.setMail _ _ _)
    · exact After.refl s
  · exact After.refl s
theorem After.stopCopies (s : State) (q o) : After k ord i ck un u s (s.stopCopies q o) :=
  by
  unfold State.stopCopies
  extract_lets s1
  have h1 : After k ord i ck un u s s1 := After.foldl (fun (s : State) (x : Nat × Seed) => s.abandon x.1 x.2 (·.complete)) (fun s x => After.abandon s x.1 x.2 _) _ _
  exact (After.dropQueued s1 _).trans h1
theorem After.of_ev {s t : State} (e : Ev [.mem, .xch, .log, .svc, .mirror] s t) : After k ord i ck un u s t :=
  After.of_same (e.frame .cp (by decide)) (e.frame .arrays (by decide)) (e.frame .halves (by decide)) (e.frame .cores (by decide))
theorem KeepsEnt.id' : KeepsEnt (fun c => c) := KeepsEnt.same _ (fun _ => ⟨rfl, rfl⟩)
theorem After.onCmdKeep (s : State) (j : Key) (f : Cmd → Cmd) (hk : ∀ c, (f c).key = c.key) (hb : ∀ c, (f c).body = c.body) :
    After k ord i ck un u s (s.onCmd j f) := After.onCmd s j f hk ⟨_, KeepsEnt.id', fun c => by unfold Cmd.comp?; rw [hb]; cases c.body <;> rfl⟩
theorem After.txFrame (s : State) (h p q b) : After k ord i ck un u s (s.txFrame h p q b) := by
  unfold State.txFrame
  extract_lets t img s1 s2
  have h1 : After k ord i ck un u s s1 := After.of_same rfl rfl rfl rfl
  have h2 : After k ord i ck un u s s2 := by
    show After k ord i ck un u s (match q with | some k => s1.onCmd k (fun c => { c with sent := c.sent + 1 }) | none => s1)
    split
    · refine After.trans (After.onCmdKeep _ _ _ ?_ ?_) h1 <;> exact fun _ => rfl
    · exact h1
  split
  · exact (After.of_ev (Ev.mono (State.emit_ev ..) (by decide))).trans h2
  · split
    · exact h2
    · exact (After.of_ev (Ev.mono (State.sendSync_ev ..) (by decide))).trans h2
theorem After.finishCmd (s : State) (q cmd c) : After k ord i ck un u s (s.finishCmd q cmd c) := by
  unfold State.finishCmd
  extract_lets s1
  have h1 : After k ord i ck un u s s1 := After.onCmdKeep _ _ _ (fun _ => rfl) (fun _ => rfl)
  split
  · unfold State.txEnd
    extract_lets hdr payload
    split
    · exact h1
    · exact (After.txFrame _ _ _ _ _).trans h1
  · exact h1
theorem After.onNoDraw (s : State) (v f) : After k ord i ck un u s (s.onNoDraw v f) := by
  unfold State.onNoDraw
  split
  · exact After.onArray _ _ _ (fun _ _ h => h)
  · split
    · exact After.onHalf _ _ _ (fun _ _ h => h)
    · exact After.onCore _ _ _ (fun _ _ h => h)
theorem settleOnce_phase (s : State) (cmd : Cmd) (c : Comp) (h : c.phase1Done = true) (hc : s.cmd? k = some cmd) (hx : cmd.comp? = some c)
    (t : State) (hd : ∀ x ∈ t.drainsOf u, x ∈ s.drainsOf u) : After k ord i ck un u s t := by
  refine ⟨?_, hd⟩
  rintro ⟨c', e, h1, h2, _⟩
  unfold State.comp? at h1
  rw [hc] at h1
  have : some c = some c' := hx.symm.trans h1
  cases this
  unfold Comp.phase1Done at h
  simp only [Bool.and_eq_true, beq_iff_eq] at h
  exact absurd h.1.1 h2
theorem setDenom_drains (s : State) (c p) : (s.setDenomValid c p).drainsOf u = s.drainsOf u := by
  have e := State.setDenomValid_ev s c p
  exact drainsOf_congr (e.frame .arrays (by decide)) (e.frame .halves (by decide)) (e.frame .cores (by decide)) u
theorem After.settleOnce (s : State) : After k ord i ck un u s (s.settleOnce k) := by
  unfold State.settleOnce
  split
  · exact After.refl s
  · next cmd hcmd =>
    split
    · exact After.refl s
    · next c hc =>
      split
      · exact After.refl s
      · split
        · split
          · exact After.finishCmd ..
          · exact After.refl s
        · split
          · exact After.refl s
          · split
            · next hp =>
              refine settleOnce_phase s cmd c hp hcmd hc _ ?_
              split
              · intro x hx
                have := (After.finishCmd (k := k) (ord := 0) (i := 0) (ck := 0) (un := 0) (u := u) (s.setDenomValid c cmd.pkt) k cmd c).dr x hx
                rw [setDenom_drains] at this; exact this
              · split
                · intro x hx
                  unfold State.beginPhase2 at hx
                  have e := State.writeAllRuns_ev (((s.setDenomValid c cmd.pkt).onComp k Comp.startPhase2).allowDraws k) k
                  rw [drainsOf_congr (e.frame .arrays (by decide)) (e.frame .halves (by decide)) (e.frame .cores (by decide)) u] at hx
                  have h2 := (After.foldl (k := k) (ord := 0) (i := 0) (ck := 0) (un := 0) (u := u) (fun (s : State) v => s.onNoDraw v (fun l => l.filter (· != k))) (fun _ _ => After.onNoDraw ..) allUnits ((s.setDenomValid c cmd.pkt).onComp k Comp.startPhase2)).dr x hx
                  have h3 : x ∈ (s.setDenomValid c cmd.pkt).drainsOf u := h2
                  rw [setDenom_drains] at h3; exact h3
                · exact fun _ h => h
            · split
              · exact After.finishCmd ..
              · exact After.refl s
theorem After.afterDone (s : State) (sd : Seed) (h : sd.key = k) : After k ord i ck un u s (s.afterDone sd) := by
  unfold State.afterDone
  extract_lets s1
  have h1 : After k ord i ck un u s s1 := by
    show After k ord i ck un u s (match (s.comp? sd.key).bind (fun c => c.run? sd.ord) with | some r => if r.allDone then s.stopCopies sd.key sd.ord else s | none => s)
    split
    · split
      · exact After.stopCopies ..
      · exact After.refl s
    · exact After.refl s
  rw [h]
  refine After.trans (After.of_same ((State.letGo_ev _).frame .cp (by decide)) ((State.letGo_ev _).frame .arrays (by decide))
    ((State.letGo_ev _).frame .halves (by decide)) ((State.letGo_ev _).frame .cores (by decide))) ?_
  refine After.trans (After.settleOnce _) (After.trans (After.settleOnce _) ?_)
  refine After.trans (After.of_ev (Ev.mono (State.syncArea_ev _ _) (by decide))) ?_
  exact (After.onComp _ _ _ KeepsEnt.free).trans h1
end

end Sys2Proof.Machine
end

