-- ==== Sys2Proof/Laws/Cut.lean ====
section
/-! SUPPORT. Commands that end by a fault. -/
namespace Sys2Proof.Machine

/-- A cut command stays in flight, cut, with the condition that cut it. -/
def CutWith (k : Key) (e : Cond) (s : State) : Prop := ∃ d, s.cmd? k = some d ∧ d.cut = true ∧ e ∈ d.conds
structure KC (k : Key) (e : Cond) (s t : State) : Prop where
  go : CutWith k e s → CutWith k e t
section
variable {k : Key} {e : Cond}
theorem KC.refl (s : State) : KC k e s s := ⟨id⟩
theorem KC.trans {a b c : State} (g : KC k e b c) (h : KC k e a b) : KC k e a c := ⟨fun x => g.1 (h.1 x)⟩
theorem KC.foldl {α : Type} (f : State → α → State) (hf : ∀ s x, KC k e s (f s x)) : ∀ (l : List α) (s : State), KC k e s (l.foldl f s)
  | [], s => KC.refl s
  | x :: l, s => (KC.foldl f hf l _).trans (hf s x)
theorem KC.of_cp {s t : State} (h : t.cp = s.cp) : KC k e s t := ⟨fun ⟨d, h1, h2⟩ => ⟨d, by rw [cmd_of_cp h]; exact h1, h2⟩⟩
theorem KC.of_cmds {s t : State} (h : t.cp.cmds = s.cp.cmds) : KC k e s t := ⟨fun ⟨d, h1, h2⟩ => ⟨d, by unfold State.cmd? at *; rw [h]; exact h1, h2⟩⟩
theorem KC.onCmd (s : State) (j : Key) (f : Cmd → Cmd) (hk : ∀ c, (f c).key = c.key) (hc : ∀ c, (c.cut = true → (f c).cut = true) ∧ ∀ x ∈ c.conds, x ∈ (f c).conds) :
    KC k e s (s.onCmd j f) := by
  refine ⟨fun ⟨d, h1, h2, h3⟩ => ?_⟩
  by_cases hj : j = k
  · subst hj
    exact ⟨f d, by rw [onCmd_find _ _ _ hk, h1]; rfl, (hc d).1 h2, (hc d).2 _ h3⟩
  · exact ⟨d, by rw [onCmd_comp_other _ _ _ _ hk hj]; exact h1, h2, h3⟩
theorem KC.onComp (s : State) (j : Key) (g : Comp → Comp) : KC k e s (s.onComp j g) :=
  KC.onCmd s j _ (fun c => c.onComp_key g) (fun c => by unfold Cmd.onComp; split <;> exact ⟨id, fun _ h => h⟩)
theorem KC.specEnds (s : State) (sd) : KC k e s (s.specEnds sd) := by
  unfold State.specEnds
  split
  · exact KC.onComp ..
  · exact KC.refl s
theorem KC.release (s : State) (u sd) : KC k e s (s.release u sd) := KC.of_cp ((State.release_ev s u sd).frame .cp (by decide))
theorem KC.dropWalk (s : State) (u sd) : KC k e s (s.dropWalk u sd) := by
  unfold State.dropWalk
  split
  · exact KC.of_cp rfl
  · split <;> exact KC.of_cp rfl
theorem KC.abandon (s : State) (u sd st) : KC k e s (s.abandon u sd st) := by
  unfold State.abandon
  extract_lets saved gone steps s1 s2
  have h2 : KC k e s s2 := (KC.dropWalk _ _ _).trans (KC.onComp ..)
  have h3 : ∀ kept lost : List Drain, KC k e s ((lost.foldl (fun s d => s.wipe u d kept) s2).onDrains u (fun _ => kept)) := fun kept lost =>
    (KC.of_cp (onDrains_cp ..)).trans ((KC.foldl _ (fun w d => KC.of_cp ((State.wipe_ev ..).frame .cp (by decide))) lost s2).trans h2)
  have hc : ∀ (w : State) n, KC k e w (w.charge u sd.key n) := fun _ _ => KC.of_cp rfl
  refine (KC.release _ _ _).trans ((hc _ _).trans ?_)
  split
  · exact (KC.specEnds _ _).trans (h3 _ _)
  · exact h3 _ _
theorem KC.dropQueued (s : State) (p) : KC k e s (s.dropQueued p) := by
  unfold State.dropQueued
  refine KC.trans (KC.foldl _ ?_ _ _) (KC.of_cmds rfl)
  intro s v
  split
  · split
    · exact (KC.specEnds _ _).trans (KC.of_cp (setMail_cp ..))
    · exact KC.refl s
  · exact KC.refl s
theorem KC.clearWork (s : State) (j : Key) : KC k e s (s.clearWork j) := by
  unfold State.clearWork
  generalize allUnits = l
  extract_lets s1 s2
  have h1 : KC k e s s1 := KC.foldl (fun (s : State) u => ((s.seedsOn u).filter (fun sd => sd.key == j)).foldl (fun s sd =>
      s.abandon u sd (fun d => d.finishes && !d.seed.origin.isArb)) s) (fun s u => KC.foldl (fun (s : State) sd =>
      s.abandon u sd (fun d => d.finishes && !d.seed.origin.isArb)) (fun s sd => KC.abandon s u sd _) _ s) l s
  have h2 : KC k e s s2 := (KC.dropQueued s1 _).trans h1
  have hf : ∀ (s : State) (u : Nat), KC k e s (match s.holdOf u with
    | some h => if h.1 = j then s.setHold u none else s
    | none => s) := by
    intro s v
    split
    · split
      · exact KC.of_cp (setHold_cp ..)
      · exact KC.refl s
    · exact KC.refl s
  exact (KC.foldl (fun (s : State) u => match s.holdOf u with
    | some h => if h.1 = j then s.setHold u none else s
    | none => s) hf l s2).trans h2
theorem KC.txFrame (s : State) (h p q b) : KC k e s (s.txFrame h p q b) := by
  unfold State.txFrame
  extract_lets t img s1 s2
  have h2 : KC k e s s2 := by
    show KC k e s (match q with | some k => s1.onCmd k (fun c => { c with sent := c.sent + 1 }) | none => s1)
    split
    · refine KC.trans (KC.onCmd s1 _ _ ?_ ?_) (KC.of_cp rfl)
      · exact fun _ => rfl
      · exact fun _ => ⟨id, fun _ h => h⟩
    · exact KC.of_cp rfl
  split
  · exact (KC.of_cp ((State.emit_ev ..).frame .cp (by decide))).trans h2
  · split
    · exact h2
    · exact (KC.of_cp ((State.sendSync_ev ..).frame .cp (by decide))).trans h2
theorem KC.finishCmd (s : State) (q cmd c) : KC k e s (s.finishCmd q cmd c) := by
  unfold State.finishCmd
  extract_lets s1
  have h1 : KC k e s s1 := KC.onCmd s q _ (fun _ => rfl) (fun _ => ⟨id, fun _ h => h⟩)
  split
  · unfold State.txEnd
    extract_lets hdr payload
    split
    · exact h1
    · exact (KC.txFrame _ _ _ _ _).trans h1
  · exact h1
/-- A cut command that settles goes the way of cut commands. -/
theorem KC.settleOnce (s : State) : KC k e s (s.settleOnce k) := by
  refine ⟨fun h => ?_⟩
  obtain ⟨d, h1, h2, h3⟩ := h
  unfold State.settleOnce
  rw [h1]
  simp only
  split
  · exact ⟨d, h1, h2, h3⟩
  · split
    · exact ⟨d, h1, h2, h3⟩
    · split
      · exact (KC.finishCmd s k d _).go ⟨d, h1, h2, h3⟩
      · exact ⟨d, h1, h2, h3⟩
/-- A fault ends a command: it is cut with the condition. -/
theorem cutCmd_cut (s : State) (d : Cmd) (h : s.cmd? k = some d) : CutWith k e (s.cutCmd k e) := by
  unfold State.cutCmd
  extract_lets s1
  have h1 : CutWith k e s1 := ⟨{ d.onComp (fun x => { x with stop := true }) with conds := d.conds ++ [e], cut := true }, by
    show (s.onCmd _ _).cmd? _ = _
    rw [onCmd_find _ _ _ (by intro c; exact c.onComp_key _), h]; rfl, rfl, by simp⟩
  refine (KC.of_cp ((State.letGo_ev _).frame .cp (by decide))).go ((KC.settleOnce _).go ((KC.settleOnce _).go ?_))
  refine (KC.of_cp ((State.syncArea_ev ..).frame .cp (by decide))).go ((KC.onComp ..).go ((KC.clearWork ..).go ?_))
  exact (KC.of_cp ((State.meetLine_ev ..).frame .cp (by decide))).go h1
end
theorem logLost_cp (s : State) (a b c) : (s.logLost a b c).cp = s.cp := (State.logLost_ev s a b c).frame .cp (by decide)

end Sys2Proof.Machine
end

