-- ==== Sys2Proof/Laws/Walks.lean ====
section
/-! SUPPORT. Steps of the arrays and the thin path. -/
namespace Sys2Proof.Machine

theorem loadStep_claim (c : Comp) (a x : ArraySt) (p : Nat) (o : LoadOp) (h : c.loadStep a p o = some x) : x.claim = a.claim := by
  unfold Comp.loadStep at h
  simp only at h
  split at h
  · simp only [Option.some.injEq] at h
    rw [← h]
    split <;> split <;> rfl
  · cases h
theorem works_core (s : State) (a b : Nat) : (s.onCore a CoreSt.works).array b = s.array b := rfl
theorem filler_group (g col : Nat) (d : Int) (hg : g < 16) (hd : d ≠ 0) : ∃ f, fillerFault (some (.groupDiff g col d)) = some f := by
  apply Option.isSome_iff_exists.1
  unfold fillerFault wardFault
  simp only
  rw [List.findSome?_isSome_iff]
  refine ⟨g, mem_rangeFrom.2 ⟨Nat.zero_le _, by omega⟩, ?_⟩
  simp only [List.find?_nil, upsetDiff, if_pos]
  have : (0 : Int) + (if col = 256 then -d else d) ≠ 0 := by
    split <;> omega
  rw [if_neg this]; rfl
theorem wardFail_stand (s : State) (a : Nat) (f) (h : a < 32) : ((s.wardFail a f).array a).inService = false
    ∧ ((s.wardFail a f).array a).wardFails = (s.array a).wardFails + 1 := by
  unfold State.wardFail
  extract_lets log first key s1 s2
  obtain ⟨r1, r2⟩ := retireArray_stand s2 a log h
  refine ⟨r1, r2.trans ?_⟩
  show ((s1.onArray a _).array a).wardFails = _
  rw [State.onArray_array_same _ _ _ h]
  have : s1.array a = s.array a := congrArg (vget · a) ((State.logRec_ev ..).frame .arrays (by decide))
  rw [this]
theorem rowUpdate_get (flush : Bool) (lp A : Int) (a : ArraySt) (bs : List StepBlock) (j : Nat) (hj : j < 256) :
    ((rowUpdate flush lp A a bs).map (·.1))[j]? = some (columnUpdate flush lp A a bs (min j (widthOf a))).1 := by
  unfold rowUpdate
  simp only
  rw [List.getElem?_map]
  by_cases h1 : j < min 256 (widthOf a)
  · rw [List.getElem?_append_left (by rw [List.length_map, length_rangeFrom]; exact h1), List.getElem?_map, getElem?_rangeFrom _ _ _ h1,
      Nat.min_eq_left (by omega)]
    simp
  · rw [List.getElem?_append_right (by rw [List.length_map, length_rangeFrom]; omega), List.length_map, length_rangeFrom, List.getElem?_replicate,
      if_pos (by omega), Nat.min_eq_right (by omega), Nat.min_eq_right (by omega)]
    rfl
theorem rowUpdate_len (flush : Bool) (lp A : Int) (a : ArraySt) (bs : List StepBlock) :
    ((rowUpdate flush lp A a bs).map (·.1)).length = 256 := by
  unfold rowUpdate
  simp only [List.length_map, List.length_append, List.length_replicate, length_rangeFrom]
  omega
theorem tunRow_len (s : State) (c x r) : (s.tunRow c x r).length = 256 := by
  show ((rangeFrom 0 256).map _).length = 256
  rw [List.length_map, length_rangeFrom]
theorem tunRow_congr {s t : State} (h : t.tun = s.tun) (c x r) : t.tunRow c x r = s.tunRow c x r := by
  unfold State.tunRow; rw [h]

end Sys2Proof.Machine
end

