-- ==== Sys2Proof/Laws/Stages.lean ====
section
/-! SUPPORT. The stages of a disable, and the host port. -/
namespace Sys2Proof.Machine

theorem foldl_keep {α : Type} (P : State → State → Prop) (hr : ∀ s, P s s) (ht : ∀ s t u, P s t → P t u → P s u) (g : State → α → State)
    (hg : ∀ s x, P s (g s x)) : ∀ (l : List α) (s : State), P s (l.foldl g s)
  | [], s => hr s
  | x :: l, s => ht _ _ _ (hg s x) (foldl_keep P hr ht g hg l (g s x))
theorem reply_mode (s : State) (c : Cmd) (n : Nat) : ((s.reply c).ctx n).mode = (s.ctx n).mode ∧ ((s.reply c).ctx n).stage = (s.ctx n).stage
    ∧ ((s.reply c).ctx n).resetAfter = (s.ctx n).resetAfter := by
  unfold State.reply
  simp only
  have hc : ∀ (u : State) (F : Ctx → Ctx) (i : Nat) (G : Queue → Queue) (q : Nat), (∀ x, (F x).mode = x.mode ∧ (F x).stage = x.stage ∧ (F x).resetAfter = x.resetAfter) →
      ((((u.onCtx i F).onQ q G).ctx n).mode = (u.ctx n).mode ∧ (((u.onCtx i F).onQ q G).ctx n).stage = (u.ctx n).stage
      ∧ (((u.onCtx i F).onQ q G).ctx n).resetAfter = (u.ctx n).resetAfter) := by
    intro u F i G q hF
    show (vget (vmod u.ctxs i F) n).mode = _ ∧ (vget (vmod u.ctxs i F) n).stage = _ ∧ (vget (vmod u.ctxs i F) n).resetAfter = _
    by_cases hi : n = i
    · subst hi
      by_cases hl : n < 16
      · rw [vget_vmod_same _ _ _ hl]; exact hF _
      · have : vmod u.ctxs n F = u.ctxs := by unfold vmod; simp [hl]
        rw [this]; exact ⟨rfl, rfl, rfl⟩
    · rw [vget_vmod_other _ _ _ _ hi]; exact ⟨rfl, rfl, rfl⟩
  have h2 := hc ((((s.settleArea c c.final).1.meetAll c.conds).store (replyAddr (s.queue c.q) c.pos) (natLe (replyWord c c.final (s.settleArea c c.final).2) 64)).dropCmd c.key)
    (fun x => { x with totals := addTotals x.totals c.counts, qpend := if pIrq c.pkt then x.qpend ||| 2 ^ prioOf c.q else x.qpend }) (ctxOf c.q)
    (·.markReplied c.pos) c.q (fun x => ⟨rfl, rfl, rfl⟩)
  have h3 : ((((s.settleArea c c.final).1.meetAll c.conds).store (replyAddr (s.queue c.q) c.pos) (natLe (replyWord c c.final (s.settleArea c c.final).2) 64)).dropCmd c.key).ctxs = s.ctxs :=
    (Ev.then (State.dropCmd_ev ..) (Ev.then (State.store_ev ..) (Ev.then (State.meetAll_ev ..) ((State.settleArea_ev ..).mono (by decide)) (by decide))
      (by decide)) (by decide) : Ev [.cp, .svc, .log, .mem, .mirror] _ _).frame .ctxs (by decide)
  unfold State.ctx at h2 ⊢
  rw [h3] at h2
  exact h2
theorem reply_cmds (s : State) (c : Cmd) : (s.reply c).cp.cmds = s.cp.cmds.filter (fun x => !(x.key == c.key)) := by
  unfold State.reply
  show (State.dropCmd _ c.key).cp.cmds = _
  show List.filter _ _ = _
  have h : ((((s.settleArea c c.final).1.meetAll c.conds).store (replyAddr (s.queue c.q) c.pos) (natLe (replyWord c c.final (s.settleArea c c.final).2) 64))).cp.cmds = s.cp.cmds := by
    rw [store_cp, (State.meetAll_ev ..).frame .cp (by decide)]
    unfold State.settleArea
    split
    · rfl
    · split
      · rfl
      · dsimp only
        split
        · show (State.writeArea ..).cp.cmds = _
          rw [(State.writeArea_ev ..).frame .cp (by decide)]
        · show (State.writeArea ..).cp.cmds = _
          rw [(State.writeArea_ev ..).frame .cp (by decide)]
  rw [h]
theorem partialOf_key (st) (c : Cmd) : (c.partialOf st).key = c.key := by unfold Cmd.partialOf; split <;> rfl
theorem drainQueue_mode (n : Nat) : ∀ (k q : Nat) (st : Status) (s : State), ((s.drainQueue k q st).ctx n).mode = (s.ctx n).mode
    ∧ ((s.drainQueue k q st).ctx n).stage = (s.ctx n).stage ∧ ((s.drainQueue k q st).ctx n).resetAfter = (s.ctx n).resetAfter
  | 0, _, _, s => ⟨rfl, rfl, rfl⟩
  | k + 1, q, st, s => by
    unfold State.drainQueue
    simp only
    split
    · exact ⟨rfl, rfl, rfl⟩
    · have h1 := drainQueue_mode n k q st ((s.takePacket q).replyNow q (s.queue q).head (packetAt s (packetAddr (s.queue q) (s.queue q).head))
        ((⟨st, 0⟩ : Cond) :: (packetFault s (packetAddr (s.queue q) (s.queue q).head)).toList))
      have h2 : ∀ c, ((((s.takePacket q).reply c).ctx n).mode = (s.ctx n).mode) ∧ (((s.takePacket q).reply c).ctx n).stage = (s.ctx n).stage
        ∧ (((s.takePacket q).reply c).ctx n).resetAfter = (s.ctx n).resetAfter := fun c => reply_mode (s.takePacket q) c n
      rw [h1.1, h1.2.1, h1.2.2]
      unfold State.replyNow
      exact h2 _
theorem drainQueues_mode (s : State) (m n : Nat) : ((s.drainQueues m).ctx n).mode = (s.ctx n).mode
    ∧ ((s.drainQueues m).ctx n).stage = (s.ctx n).stage ∧ ((s.drainQueues m).ctx n).resetAfter = (s.ctx n).resetAfter := by
  unfold State.drainQueues
  refine foldl_keep (fun s t => (t.ctx n).mode = (s.ctx n).mode ∧ (t.ctx n).stage = (s.ctx n).stage ∧ (t.ctx n).resetAfter = (s.ctx n).resetAfter)
    (fun _ => ⟨rfl, rfl, rfl⟩) (fun _ _ _ h1 h2 => ⟨h2.1.trans h1.1, h2.2.1.trans h1.2.1, h2.2.2.trans h1.2.2⟩) _ ?_ _ _
  intro s q
  dsimp only
  split
  · exact ⟨rfl, rfl, rfl⟩
  · exact drainQueue_mode _ _ _ _ _
theorem onCore_xch (l : List Nat) (s : State) (f : Nat → CoreSt → CoreSt) : (l.foldl (fun s c => s.onCore c (f c)) s).xch = s.xch ∧ (l.foldl (fun s c => s.onCore c (f c)) s).ctxs = s.ctxs := by
  exact foldl_keep (fun s t => t.xch = s.xch ∧ t.ctxs = s.ctxs) (fun _ => ⟨rfl, rfl⟩) (fun _ _ _ h1 h2 => ⟨h2.1.trans h1.1, h2.2.trans h1.2⟩) (fun s c => s.onCore c (f c)) (fun _ _ => ⟨rfl, rfl⟩) _ _
theorem onHeld_same (s : State) (n : Nat) (f) (h : n < 16) : (s.onHeld n f).heldOf n = f (s.heldOf n) := vget_vmod_same s.xch.held n f h
theorem onCtx_same (s : State) (n : Nat) (f : Ctx → Ctx) (h : n < 16) : (s.onCtx n f).ctx n = f (s.ctx n) := vget_vmod_same s.ctxs n f h
theorem resetCtx_facts (s : State) (n : Nat) (h : n < 16) : ((s.resetCtx n).ctx n).mode = .disabled ∧ (s.resetCtx n).heldOf n = [] := by
  unfold State.resetCtx
  refine ⟨?_, ?_⟩
  · simp only
    rw [onCtx_same _ _ _ h]; rfl
  · show (State.heldOf _ n) = []
    have hq : ∀ (l : List Nat) (u : State), (l.foldl (fun s q => s.onQ q (fun _ => Queue.reset)) u).xch = u.xch := fun l u =>
      foldl_keep (fun s t => t.xch = s.xch) (fun _ => rfl) (fun _ _ _ h1 h2 => h2.trans h1) (fun s q => s.onQ q (fun _ => Queue.reset)) (fun _ _ => rfl) l u
    obtain ⟨u, hu⟩ : ∃ u : State, (s.zeroWindow n).clearCtx n = (rangeFrom 0 8).foldl (fun s c => s.onCore c (fun k => { k with yielded := k.yielded.filter (fun y => y.1 != n) })) (u.onHeld n (fun _ => [])) := ⟨_, rfl⟩
    simp only
    show vget (State.xch (List.foldl _ _ _)).held n = []
    rw [hq, hu, (onCore_xch _ _ (fun _ k => { k with yielded := k.yielded.filter (fun y => y.1 != n) })).1]
    exact onHeld_same _ _ _ h
theorem sendSync_held (s : State) (d b : Nat) : (s.sendSync d b).xch.held = s.xch.held := rfl
theorem txFrame_held (s : State) (h p c e) : (s.txFrame h p c e).xch.held = s.xch.held := by
  unfold State.txFrame
  dsimp only
  split
  · split <;> rfl
  · split
    · split <;> rfl
    · split <;> rfl
theorem txEnd_held (s : State) (c a b d) : (s.txEnd c a b d).xch.held = s.xch.held := by
  unfold State.txEnd
  dsimp only
  split
  · rfl
  · exact txFrame_held _ _ _ _ _
theorem discardSends_held (s : State) (n : Nat) : (s.discardSends n).xch.held = s.xch.held := by
  have hf : ∀ (st : Status) (l : List Cmd) (u : State), (l.foldl (fun s c => match c.endOf with
    | some (dst, sent, frozen) => s.txEnd (c.partialOf st) dst sent frozen
    | none => s) u).xch.held = u.xch.held := fun st l u =>
    foldl_keep (fun s t => t.xch.held = s.xch.held) (fun _ => rfl) (fun _ _ _ h1 h2 => h2.trans h1) _ (by
      intro s x
      split
      · exact txEnd_held _ _ _ _ _
      · rfl) l u
  unfold State.discardSends
  exact hf _ _ _
theorem zeroSlots_row (s : State) (c : Nat) (l : List Nat) (keep : Nat → Nat → Bool) (core slot row : Nat) :
    (s.zeroSlots c l keep).tunRow core slot row
      = if core = c ∧ slot ∈ l ∧ keep slot row = false then List.replicate 256 lwZero else s.tunRow core slot row := by
  have h1 : tunCells (s.zeroSlots c l keep).tun core slot row
      = if core = c ∧ slot ∈ l ∧ keep slot row = false then [] else tunCells s.tun core slot row := by
    show tunCells (s.tun.filter _) core slot row = _
    unfold tunCells
    rw [List.filter_filter]
    split
    · next h =>
      rw [List.filter_eq_nil_iff]
      intro x _
      simp only [Bool.and_eq_true, beq_iff_eq, Bool.not_eq_true', not_and]
      rintro ⟨⟨rfl, rfl⟩, rfl⟩
      simp [h.1, h.2.1, h.2.2]
    · next h =>
      apply List.filter_congr
      intro x _
      by_cases h2 : (x.core == core && x.slot == slot && x.row == row) = true
      · rw [h2]
        simp only [Bool.and_eq_true, beq_iff_eq] at h2
        obtain ⟨⟨h3, h4⟩, h5⟩ := h2
        rw [h3, h4, h5, Bool.true_and]
        by_cases h6 : core = c <;> by_cases h7 : slot ∈ l <;> simp_all
      · simp only [Bool.not_eq_true] at h2
        rw [h2]; rfl
  unfold State.tunRow
  simp only
  rw [h1]
  split
  · refine List.eq_replicate_iff.2 ⟨by rw [List.length_map, length_rangeFrom], ?_⟩
    intro b hb
    obtain ⟨j, _, rfl⟩ := List.mem_map.1 hb
    rfl
  · rfl
theorem zeroWindow_fold (n : Nat) : ∀ (l : List Nat) (s u : State), (∀ c x, boundToOther u n (c, x) = boundToOther s n (c, x)) → u.ctxs = s.ctxs → l.Nodup →
    ∀ core slot row, core < 8 → (l.foldl (fun s c => (s.zeroSlots c (windowFree s n c) (fun _ _ => false)).onCore c (fun k => { k with
        lastCtx := (windowFree s n c).foldl (fun v x => vmod v x (fun _ => none)) k.lastCtx })) u).tunRow core slot row
      = if core ∈ l ∧ slot ∈ windowFree s n core then List.replicate 256 lwZero else u.tunRow core slot row
  | [], s, u, _, _, _, core, slot, row, _ => by simp
  | c :: l, s, u, hb, hc, hd, core, slot, row, h8 => by
    rw [List.foldl_cons, zeroWindow_fold n l s _ ?_ (by exact hc) (List.nodup_cons.1 hd).2 core slot row h8]
    · have hw : windowFree u n c = windowFree s n c := by
        unfold windowFree State.ctx
        rw [hc]
        simp only [hb]
      have h1 : ∀ F, (((u.zeroSlots c (windowFree u n c) (fun _ _ => false)).onCore c F).tunRow core slot row)
          = (u.zeroSlots c (windowFree u n c) (fun _ _ => false)).tunRow core slot row := fun _ => rfl
      rw [h1, zeroSlots_row, hw]
      generalize List.replicate 256 lwZero = z
      by_cases h2 : core = c
      · subst h2
        have : core ∉ l := (List.nodup_cons.1 hd).1
        simp [this]
      · simp [h2]
    · intro c' x
      rw [← hb c' x]
      unfold boundToOther State.core
      show ((vget (vmod u.cores c _) c').binds.any _) = _
      by_cases h2 : c' = c
      · subst h2
        by_cases h3 : c' < 8
        · rw [vget_vmod_same _ _ _ h3]
        · have : ∀ F, vmod u.cores c' F = u.cores := by intro F; unfold vmod; simp [h3]
          rw [this]
      · rw [vget_vmod_other _ _ _ _ h2]
theorem hostWrite_byte (s : State) (a : Nat) (x : Byte) (y : Nat) :
    (s.writeBytes a [x]).mem.read y = if y = a then x else s.mem.read y := by
  by_cases h : y = a
  · subst h
    rw [if_pos rfl]
    exact MemSt.read_write_in s.mem y [x] 0 (by simp)
  · rw [if_neg h]
    exact MemSt.read_write_out s.mem a [x] y (by simp; omega)
theorem hostWrite_fold (a : Nat) : ∀ (l : List (Byte × Bool)) (k : Nat) (s : State) (y : Nat),
    ((l.zipIdx k).foldl (fun s x => if x.1.2 then s.writeBytes (a + x.2) [x.1.1] else s) s).mem.read y
      = if a + k ≤ y ∧ y < a + k + l.length then (match l[y - a - k]? with | some (b, true) => b | _ => s.mem.read y) else s.mem.read y
  | [], k, s, y => by simp
  | x :: l, k, s, y => by
    rw [List.zipIdx_cons, List.foldl_cons, hostWrite_fold a l (k + 1)]
    have h1 : (if x.2 = true then s.writeBytes (a + k) [x.1] else s).mem.read y = if y = a + k ∧ x.2 = true then x.1 else s.mem.read y := by
      by_cases h : x.2 = true
      · rw [if_pos h, hostWrite_byte]; simp [h]
      · rw [if_neg h, if_neg (fun g => h g.2)]
    simp only
    rw [h1]
    by_cases h2 : y = a + k
    · subst h2
      rw [if_neg (show ¬ (a + (k + 1) ≤ a + k ∧ a + k < a + (k + 1) + l.length) by omega), if_pos (show a + k ≤ a + k ∧ a + k < a + k + (x :: l).length by simp)]
      rw [show a + k - a - k = 0 by omega]
      rw [List.getElem?_cons_zero]
      obtain ⟨b, c⟩ := x
      cases c <;> simp
    · have h3 : ¬ (y = a + k ∧ x.2 = true) := fun h => h2 h.1
      rw [if_neg h3]
      by_cases h4 : a + (k + 1) ≤ y ∧ y < a + (k + 1) + l.length
      · rw [if_pos h4, if_pos (by simp; omega)]
        rw [show y - a - k = (y - a - (k + 1)) + 1 by omega, List.getElem?_cons_succ]
      · rw [if_neg h4, if_neg (by simp; omega)]
theorem hostWrite_in (s : State) (a : Nat) (d : List Byte) (b : List Bool) (n : Nat) (h1 : d.length = n) (h2 : b.length = n) :
    (∀ i < n, (s.hostWrite a d b).mem.read (a + i) = if b.getD i false then d.getD i 0 else s.mem.read (a + i)) ∧ s.memOutside (s.hostWrite a d b) a n := by
  unfold State.hostWrite
  split
  · next h =>
    subst h1
    rw [List.all_eq_true] at h
    refine ⟨fun i hi => ?_, State.store_outside s a d⟩
    have hb : b.getD i false = true := by
      have := h (b[i]'(by omega)) (List.getElem_mem _)
      simp at this
      simp [List.getD, List.getElem?_eq_getElem (show i < b.length by omega), this]
    rw [if_pos hb, store_byte s a d i hi]
    simp [List.getD, List.getElem?_eq_getElem hi]
  · refine ⟨fun i hi => ?_, fun y hy => ?_⟩
    · simp only
      rw [hostWrite_fold, if_pos (by simp [List.length_zip]; omega), State.parkWrite_read]
      rw [show a + i - a - 0 = i by omega]
      have hz : (d.zip b)[i]? = some (d[i]'(by omega), b[i]'(by omega)) := by
        rw [List.getElem?_eq_getElem (by simp; omega)]; simp
      rw [hz]
      have hb : b.getD i false = b[i]'(by omega) := by simp [List.getD, List.getElem?_eq_getElem (show i < b.length by omega)]
      have hd : d.getD i 0 = d[i]'(by omega) := by simp [List.getD, List.getElem?_eq_getElem (show i < d.length by omega)]
      rw [hb, hd]
      cases b[i]'(by omega) <;> rfl
    · simp only
      rw [hostWrite_fold, if_neg (by simp [List.length_zip]; omega), State.parkWrite_read]

end Sys2Proof.Machine
end

