-- ==== Sys2Proof/WellFormed.lean ====
section
/-! DEFINITION. Which operands a command may carry: the framing rules of the ports (R416, R454, R455) and the sizes that the
spec fixes. A command that breaks one is no transfer the spec describes. -/
namespace Sys2Proof

/-- A host-access request (R455): 1 to 32 beats, within a 2 KiB boundary, and for a write 64 data
bytes and 64 strobes per beat. -/
def hostRequestOk (addr : Nat) (write : Bool) (beats tag : Nat) (data : List Byte) (strb : List Bool) : Bool :=
  decide (1 ≤ beats) && decide (beats ≤ 32) && decide (addr < 2 ^ 48)
    && decide (addr / 2048 = (addr + 64 * beats - 1) / 2048) && decide (tag < 1024)
    && (if write then decide (data.length = 64 * beats) && decide (strb.length = 64 * beats)
        else decide (data.length = 0) && decide (strb.length = 0))

/-- A sample reads every sensor of R416: 96 thermal, 16 rail pairs four times, a temperature for each of at most 24 stacks. -/
def sampleOk (x : Sample) : Bool :=
  decide (x.thermal.length = 96) && decide (x.rails.length = 4) && x.rails.all (fun r => decide (r.length = 16))
    && decide (x.stackT.length ≤ 24) && decide (x.other.written.length ≤ 16)

/-- What stage S2 reports of (R313, R344): at most 24 stacks, four root ports, channels 0–31 of them. -/
def s2Ok (i : S2Info) : Bool :=
  decide (i.stackGib.length ≤ 24) && decide (i.modules.length = 4)
    && i.lostChannels.all (fun c => decide (c.1 < 24) && decide (c.2 < 32))

/-- A stage's findings name units that exist (R432). -/
def stageEndOk : StageEnd → Bool
  | .s0 agree => decide (agree ≤ 3)
  | .s1 _ => true
  | .s2 i => s2Ok i
  | .s3 a t => a.all (fun x => decide (x.1 < 32)) && t.all (fun x => decide (x < 8))
  | .s4 c t sl => c.all (fun x => decide (x < 8)) && t.all (fun x => decide (x < 32))
      && sl.all (fun x => decide (x < 16))
  | .s5 p _ => decide (p.length = 3)
  | .s6 => true

/-- A frame on the exchange stream: a 64-byte header and a payload in whole 64-byte units, 65 units at most (R361, R461). -/
def frameOk (raw : List Byte) : Bool :=
  decide (64 ≤ raw.length) && decide (raw.length % 64 = 0) && decide (raw.length ≤ 4160)

/-- The operands of a command are ones its port can carry. -/
def Instr.wf : Instr → Bool
  | .loopback _ errors => decide (errors.length = 2048)
  | .hostAccessRequest addr write beats tag data strb _ => hostRequestOk addr write beats tag data strb
  | .keeperSample x => sampleOk x
  | .startStageEnd e => stageEndOk e
  | .inboundFrame raw => frameOk raw
  | .ack raw => frameOk raw
  | .sync raw => frameOk raw
  | .syncRequest raw => frameOk raw
  | .endFrame raw => frameOk raw
  | .prefetchReadReturn _ _ addr len _ => decide (addr < 2 ^ 48) && decide (128 ≤ len) && decide (len ≤ 2048)
  | .fusePgm bits => decide (bits < 2 ^ 4096)
  | .registerWrite off _ => decide (off < 65536) && decide (off % 8 = 0)
  | _ => true

end Sys2Proof
end

