-- ==== Sys2Proof/Tests/Slice0.lean ====
section
/-! SUPPORT. Tests. First what `Instr.wf` refuses; then, for each statement of the obligations with hypotheses, a state and operands
that meet them, clause by clause; then small runs of one step with results written out from the spec. -/
namespace Sys2Proof.Tests
open Sys2Proof Sys2Proof.Machine

set_option Elab.async false

/-! Small states. -/

/-- An ACTIVE context with the whole window. -/
def act : Ctx := { Ctx.reset with mode := .active, wBase := 0, wCount := 32 }

/-- A block that is READY, with 32 GiB of near memory, every context ACTIVE and every core and array in service. -/
def base : State := { State.reset with
  blk := { Blk.reset with mode := .ready, straps := 0x7C }
  start := { StartSt.reset with stage := 7 }
  ctxs := Vector.replicate 16 act
  map := { MapSt.reset with top := 0x1000000, slots := 32768 }
  cp := { Cp.reset with running := 2 }
  arrays := Vector.replicate 32 { ArraySt.reset with inService := true }
  cores := Vector.replicate 8 { CoreSt.reset with inService := true, thinIn := true } }

/-- A packet from its bytes that are not zero, each as its place and its value. -/
def pkt (l : List (Nat × Nat)) : Nat := l.foldl (fun n x => n + x.2 * 256 ^ x.1) 0

/-- The ring of queue 0 in the tests: 16 entries at 256 MiB. -/
def ring : Queue := { Queue.reset with log := 4, base := 0x10000000, tail := 1 }

/-- Bytes of near memory, each as its address and its value. -/
def cells (l : List (Nat × Nat)) : List Host.Cell := l.map (fun x => (x.1, BitVec.ofNat 8 x.2))

/-- A packet at HEAD of queue 0, and further bytes of near memory below and above it. -/
def sentOn (s : State) (low l high : List (Nat × Nat)) : State :=
  { s with qs := s.qs.set 0 ring, mem := { s.mem with near := cells (low ++ l.map (fun x => (0x10000000 + x.1, x.2)) ++ high) } }

/-- A packet at HEAD of queue 0 of the small block. -/
def sent (l : List (Nat × Nat)) : State := sentOn base [] l []

/-- A command of queue 0 in flight at a position, read from a packet. -/
def cmdOf (pos : Nat) (l : List (Nat × Nat)) (b : Body) : Cmd := Cmd.read 0 pos (pkt l) 0 b

/-- The small block with commands in flight and queue 0 past them. -/
def flying (l : List Cmd) : State :=
  { base with cp := { base.cp with cmds := l }, qs := base.qs.set 0 { ring with tail := 2, head := 2 } }

/-- The same with queue 0 held by the command at position 1. -/
def holding (l : List Cmd) : State := (flying l).onQ 0 (fun q => { q with hold := some 1 })

/-- The state that a command leaves; the reset state where there is none. -/
def after (o : Host.Outcome State Fault Refusal) : State := match o with | .next t => t | _ => State.reset

/-- `Waits`, as a check. -/
theorem waits_of (s : State) (q op p : Nat) (h : canDispatch s q = true ∧ hasPacket s q = true ∧ headPacket s q = p ∧ pOp p = op
    ∧ packetFault s (packetAddr (s.queue q) (s.queue q).head) = none) : Waits s q op p :=
  ⟨h.1, h.2.1, h.2.2.1, h.2.2.2.1, h.2.2.2.2⟩

/-- The small block with a far-tier module of 1 GiB at root port 0. -/
def farBlock : State := { base with far := { FarSt.reset with
  modules := #v[some ⟨⟨7, 1, 0, 0, 0, 0⟩, 1⟩, none, none, none], linkUp := #v[true, false, false, false], extents := 1024
  wear := FarSt.reset.wear.set 0 { Wear.empty with serial := 7, state := 1, capGib := 1 } } }

/-! What `Instr.wf` refuses: a term for each of its checks, beside one that it takes. -/

theorem wf_host_access : Instr.wf (.hostAccessRequest 0 false 1 0 [] [] none) = true
    ∧ Instr.wf (.hostAccessRequest 0 false 0 0 [] [] none) = false ∧ Instr.wf (.hostAccessRequest 0 false 33 0 [] [] none) = false
    ∧ Instr.wf (.hostAccessRequest (2 ^ 48) false 1 0 [] [] none) = false
    ∧ Instr.wf (.hostAccessRequest 1985 false 1 0 [] [] none) = false ∧ Instr.wf (.hostAccessRequest 0 false 1 1024 [] [] none) = false
    ∧ Instr.wf (.hostAccessRequest 0 false 1 0 [0] [] none) = false ∧ Instr.wf (.hostAccessRequest 0 false 1 0 [] [true] none) = false
    ∧ Instr.wf (.hostAccessRequest 0 true 1 0 [] (List.replicate 64 true) none) = false
    ∧ Instr.wf (.hostAccessRequest 0 true 1 0 (List.replicate 64 0) [] none) = false := by decide +kernel

/-- A sample with every reading there. -/
def fullSample : Sample :=
  { (default : Sample) with thermal := List.replicate 96 40, rails := List.replicate 4 (List.replicate 16 (0, 0)), stackT := [] }

theorem wf_sample : Instr.wf (.keeperSample fullSample) = true
    ∧ Instr.wf (.keeperSample { fullSample with thermal := [] }) = false ∧ Instr.wf (.keeperSample { fullSample with rails := [] }) = false
    ∧ Instr.wf (.keeperSample { fullSample with rails := List.replicate 4 [] }) = false
    ∧ Instr.wf (.keeperSample { fullSample with stackT := List.replicate 25 40 }) = false
    ∧ Instr.wf (.keeperSample { fullSample with other := { (default : CopyView) with written := List.replicate 17 0 } }) = false := by
  decide +kernel

theorem wf_stage_end : Instr.wf (.startStageEnd (.s0 3)) = true ∧ Instr.wf (.startStageEnd (.s0 4)) = false
    ∧ Instr.wf (.startStageEnd (.s2 ⟨List.replicate 25 none, [], List.replicate 4 none, true, true, true⟩)) = false
    ∧ Instr.wf (.startStageEnd (.s2 ⟨[], [], [], true, true, true⟩)) = false
    ∧ Instr.wf (.startStageEnd (.s2 ⟨[], [(24, 0)], List.replicate 4 none, true, true, true⟩)) = false
    ∧ Instr.wf (.startStageEnd (.s2 ⟨[], [(0, 32)], List.replicate 4 none, true, true, true⟩)) = false
    ∧ Instr.wf (.startStageEnd (.s3 [(32, [])] [])) = false ∧ Instr.wf (.startStageEnd (.s3 [] [8])) = false
    ∧ Instr.wf (.startStageEnd (.s4 [8] [] [])) = false ∧ Instr.wf (.startStageEnd (.s4 [] [32] [])) = false
    ∧ Instr.wf (.startStageEnd (.s4 [] [] [16])) = false ∧ Instr.wf (.startStageEnd (.s5 [true] none)) = false := by decide +kernel

theorem wf_frames : Instr.wf (.inboundFrame (List.replicate 64 0)) = true ∧ Instr.wf (.inboundFrame []) = false
    ∧ Instr.wf (.ack (List.replicate 65 0)) = false ∧ Instr.wf (.sync (List.replicate 4224 0)) = false
    ∧ Instr.wf (.syncRequest []) = false ∧ Instr.wf (.endFrame []) = false := by decide +kernel

theorem wf_others : Instr.wf (.loopback .register []) = false ∧ Instr.wf (.prefetchReadReturn 0 .weight (2 ^ 48) 128 ⟨none, none⟩) = false
    ∧ Instr.wf (.prefetchReadReturn 0 .weight 0 127 ⟨none, none⟩) = false ∧ Instr.wf (.prefetchReadReturn 0 .weight 0 2049 ⟨none, none⟩) = false
    ∧ Instr.wf (.prefetchReadReturn 0 .weight 0 128 ⟨none, none⟩) = true
    ∧ Instr.wf (.fusePgm (2 ^ 4096)) = false ∧ Instr.wf (.registerWrite 65536 0) = false
    ∧ Instr.wf (.registerWrite 4 0) = false ∧ Instr.wf (.nop 0) = true := by decide +kernel

/-! The CRC of a frame, evaluated over numbers. -/

/-- `f` at a number that is evaluated first. -/
def atNum {α : Type} (f : Nat → α) : Nat → α
  | 0 => f 0
  | n + 1 => f (n + 1)

theorem atNum_eq {α : Type} (f : Nat → α) (n : Nat) : atNum f n = f n := by cases n <;> rfl

def crcBits : Nat → Nat → Nat
  | 0, c => c
  | n + 1, c => atNum (crcBits n) (if c % 2 = 1 then (c / 2) ^^^ 0x82F63B78 else c / 2)

def crcBytes : List Byte → Nat → Nat
  | [], c => c
  | b :: bs, c => atNum (crcBytes bs) (crcBits 8 (c ^^^ b.toNat))

theorem crcBits_eq (n : Nat) (c : BitVec 32) : (crc32cStep n c).toNat = crcBits n c.toNat := by
  induction n generalizing c with
  | zero => rfl
  | succ n ih =>
    simp only [crc32cStep, crcBits, atNum_eq, ih]
    congr 1
    have : c.getLsbD 0 = decide (c.toNat % 2 = 1) := by simp [BitVec.getLsbD, Nat.testBit_zero]
    rw [this]
    by_cases h : c.toNat % 2 = 1
    · simp only [h, decide_true, if_true, BitVec.toNat_xor, BitVec.toNat_ushiftRight, Nat.shiftRight_succ, Nat.shiftRight_zero]
      rfl
    · simp only [h, decide_false, if_false, Bool.false_eq_true, BitVec.toNat_ushiftRight, Nat.shiftRight_succ, Nat.shiftRight_zero]

theorem crcBytes_eq (bs : List Byte) (c : BitVec 32) : (crc32cGo bs c).toNat = crcBytes bs c.toNat := by
  induction bs generalizing c with
  | nil => rfl
  | cons b bs ih =>
    have : b.toNat % 2 ^ 32 = b.toNat := Nat.mod_eq_of_lt (by have := b.isLt; omega)
    simp only [crc32cGo, crcBytes, atNum_eq, ih, crcBits_eq, BitVec.toNat_xor, BitVec.toNat_setWidth, this]

/-- A frame of the right length whose last header bytes hold its CRC is sound. -/
theorem sound_of (raw : List Byte) (hl : raw.length = 64 + ceilDiv (payloadLen (leNat (raw.take 64))) 64 * 64)
    (hc : crcBytes (raw.take 60 ++ [0, 0, 0, 0] ++ raw.drop 64) 0xFFFFFFFF ^^^ 0xFFFFFFFF = bitsOf (leNat (raw.take 64)) 511 480) :
    frameSound raw = true := by
  simp only [frameSound, Bool.and_eq_true, beq_iff_eq]
  refine ⟨hl, ?_⟩
  rw [crc32c, BitVec.toNat_xor, crcBytes_eq]
  exact hc

/-- A frame of one unit of payload from the network interface's hop for context 0: type, elements, FSEQ 5, source position 8,
board 9, SUBTYPE, its CRC, and bytes of payload. -/
def frameOf (typ elems sub crc : Nat) (payload : List (Nat × Nat)) : List Byte :=
  let l : List (Nat × Nat) := [(0, typ), (13, 0x80), (26, elems), (28, 5), (32, 8), (40, 9), (48, sub), (60, crc % 256),
    (61, crc / 256 % 256), (62, crc / 65536 % 256), (63, crc / 16777216)] ++ payload.map (fun x => (64 + x.1, x.2))
  (rangeFrom 0 128).map (fun i => BitVec.ofNat 8 ((aget l i).getD 0))

/-! The statements' hypotheses can be met: packets. -/

theorem witness_SimplePackets : Waits (sent [(0, 0x01)]) (0 : QIx) 0x01 (pkt [(0, 0x01)])
    ∧ opcodeKnown 0x7F = false ∧ Waits (sent [(0, 0x7F)]) (0 : QIx) 0x7F (pkt [(0, 0x7F)])
    ∧ Waits (sent [(0, 0x08), (8, 5)]) (0 : QIx) 0x08 (pkt [(0, 0x08), (8, 5)])
    ∧ Waits (sent [(0, 0x39), (8, 0x21)]) (0 : QIx) 0x39 (pkt [(0, 0x39), (8, 0x21)]) :=
  ⟨waits_of _ _ _ _ (by decide +kernel), by decide, waits_of _ _ _ _ (by decide +kernel), waits_of _ _ _ _ (by decide +kernel),
    waits_of _ _ _ _ (by decide +kernel)⟩

/-- A FENCE packet, of its queue, with another command of the queue in flight. -/
def fenceBusy : State := (sent [(0, 0x02)]).onCp (fun x => { x with cmds := [cmdOf 7 [(0, 0x18)] (.signal 0)] })

theorem witness_FenceWaits : Waits (sent [(0, 0x02), (8, 1)]) (0 : QIx) 0x02 (pkt [(0, 0x02), (8, 1)])
    ∧ (∀ c ∈ (sent [(0, 0x02), (8, 1)]).cp.cmds, ctxOf c.q ≠ ctxOf (0 : QIx))
    ∧ Waits fenceBusy (0 : QIx) 0x02 (pkt [(0, 0x02)]) ∧ (∃ c ∈ fenceBusy.cp.cmds, c.q = (0 : QIx).val)
    ∧ (let c := cmdOf 1 [(0, 0x02)] (.fence [(0, 0)])
      (holding [c]).holder (0 : QIx) = some c ∧ actsFor (holding [c]) (ctxOf (0 : QIx)) = true ∧ (holding [c]).cmd? (0, 0) = none
        ∧ (holding [cmdOf 0 [(0, 0x18)] (.signal 0), c]).holder (0 : QIx) = some c
        ∧ ((holding [cmdOf 0 [(0, 0x18)] (.signal 0), c]).cmd? (0, 0)).isSome) :=
  ⟨waits_of _ _ _ _ (by decide +kernel), by decide +kernel, waits_of _ _ _ _ (by decide +kernel), by decide +kernel, by decide +kernel⟩

/-- The bytes of a WAIT for the word at 0x20000000: CMP and VALUE. -/
def waitP (cmp v : Nat) : List (Nat × Nat) := [(0, 0x04), (8, cmp), (19, 0x20), (24, v)]

theorem witness_WaitHolds :
    (∀ x ∈ [(0, 0), (0, 3), (1, 3)], Waits (sent (waitP x.1 x.2)) (0 : QIx) 0x04 (pkt (waitP x.1 x.2)))
    ∧ Waits (sent (waitP 2 0)) (0 : QIx) 0x04 (pkt (waitP 2 0)) ∧ 1 < bitsOf (pkt (waitP 2 0)) 65 64
    ∧ (let p := pkt (waitP 0 3); let s := sent (waitP 0 3)
      bitsOf p 175 128 = 0x20000000 ∧ regionOf (bitsOf p 175 128) = .near ∧ badByte s (bitsOf p 175 128) 8 = none
        ∧ readFault s (bitsOf p 175 128) 8 = none ∧ s.readNat (bitsOf p 175 128) 8 ≠ bitsOf p 255 192)
    ∧ (sent (waitP 0 0)).readNat 0x20000000 8 = bitsOf (pkt (waitP 0 0)) 255 192
    ∧ (sent (waitP 1 3)).readNat 0x20000000 8 < bitsOf (pkt (waitP 1 3)) 255 192
    ∧ (let c := cmdOf 1 (waitP 1 0) (.wait 1 0x20000000 0); let d := cmdOf 1 (waitP 1 3) (.wait 1 0x20000000 3)
      (holding [c]).holder (0 : QIx) = some c ∧ actsFor (holding [c]) 0 = true ∧ 0 ≤ (holding [c]).readNat 0x20000000 8
        ∧ (holding [d]).holder (0 : QIx) = some d ∧ (holding [d]).readNat 0x20000000 8 < 3) := by
  refine ⟨?_, waits_of _ _ _ _ (by decide +kernel), by decide, by decide +kernel, by decide +kernel, by decide +kernel,
    by decide +kernel⟩
  intro x h
  have : x = (0, 0) ∨ x = (0, 3) ∨ x = (1, 3) := by simpa using h
  obtain rfl | rfl | rfl := this <;> exact waits_of _ _ _ _ (by decide +kernel)

/-- A SIGNAL with OP, ADDR's byte 2 and byte 5, and VALUE 9. -/
def signalP (op hi : Nat) : List (Nat × Nat) := [(0, 0x03), (8, op), (19, 0x20), (21, hi), (24, 9)]

theorem witness_SignalWrites : Waits (sent (signalP 1 0)) (0 : QIx) 0x03 (pkt (signalP 1 0))
    ∧ Waits (sent (signalP 0 0x10)) (0 : QIx) 0x03 (pkt (signalP 0 0x10))
    ∧ (let a := bitsOf (pkt (signalP 1 0)) 175 128; let s := sent (signalP 1 0)
      a % 8 = 0 ∧ regionOf a = .near ∧ hitsBlockRegion a 8 = false ∧ badByte s a 8 = none ∧ writeFault s a 8 = none
        ∧ readFault s a 8 = none)
    ∧ (let a := bitsOf (pkt (signalP 0 0x10)) 175 128; a % 8 = 0 ∧ regionOf a = .host) :=
  ⟨waits_of _ _ _ _ (by decide +kernel), waits_of _ _ _ _ (by decide +kernel), by decide +kernel, by decide +kernel⟩

/-- A QUERY with KIND, to 0x20000000. -/
def queryP (kind : Nat) : List (Nat × Nat) := [(0, 0x38), (8, kind), (10, 5), (19, 0x20)]

theorem witness_QueryWrites : Waits (sent (queryP 1)) (0 : QIx) 0x38 (pkt (queryP 1))
    ∧ Waits (sent (queryP 0)) (0 : QIx) 0x38 (pkt (queryP 0))
    ∧ (let a := bitsOf (pkt (queryP 1)) 175 128; let s := sent (queryP 1)
      a % 64 = 0 ∧ regionOf a = .near ∧ hitsBlockRegion a 48 = false ∧ badByte s a 48 = none ∧ writeFault s a 48 = none)
    ∧ (let p := pkt (queryP 0); let s := sent (queryP 0)
      progressOf s (ctxOf (0 : QIx)) (bitsOf p 95 80) = none ∧ bitOf p 66 = false ∧ hitsBlockRegion (bitsOf p 175 128) 64 = false
        ∧ badByte s (bitsOf p 175 128) 64 = none ∧ writeFault s (bitsOf p 175 128) 64 = none) :=
  ⟨waits_of _ _ _ _ (by decide +kernel), waits_of _ _ _ _ (by decide +kernel), by decide +kernel, by decide +kernel⟩

/-- A COPY or FILL of `n` × 256 bytes from 0x20000000 to 0x20001000. -/
def moveP (op n : Nat) : List (Nat × Nat) := [(0, op), (11, 0x20), (17, 0x10), (19, 0x20), (25, n)]

theorem witness_CopyFillDispatch : Waits (sent (moveP 0x18 8)) (0 : QIx) 0x18 (pkt (moveP 0x18 8))
    ∧ Waits (sent (moveP 0x18 0)) (0 : QIx) 0x18 (pkt (moveP 0x18 0)) ∧ Waits (sent (moveP 0x19 8)) (0 : QIx) 0x19 (pkt (moveP 0x19 8))
    ∧ Waits (sent (moveP 0x19 0)) (0 : QIx) 0x19 (pkt (moveP 0x19 0)) ∧ gLen (pkt (moveP 0x18 0)) = 0
    ∧ (let p := pkt (moveP 0x18 8); let s := sent (moveP 0x18 8)
      gSrc p % 2048 = 0 ∧ gDst p % 2048 = 0 ∧ gLen p = 2048 ∧ regionOf (gSrc p) = .near ∧ regionOf (gDst p) = .near
        ∧ hitsBlockRegion (gDst p) (gLen p) = false ∧ gSrc p + gLen p ≤ gDst p ∧ badByte s (gSrc p) (gLen p) = none
        ∧ badByte s (gDst p) (gLen p) = none) :=
  ⟨waits_of _ _ _ _ (by decide +kernel), waits_of _ _ _ _ (by decide +kernel), waits_of _ _ _ _ (by decide +kernel),
    waits_of _ _ _ _ (by decide +kernel), by decide, by decide +kernel⟩

/-- A SPILL from 0x20000000 to the far tier, or a RELOAD back, of 2 KiB. -/
def spillP : List (Nat × Nat) := [(0, 0x28), (11, 0x20), (21, 0x02), (25, 8)]
def reloadP : List (Nat × Nat) := [(0, 0x29), (13, 0x02), (19, 0x20), (25, 8)]

theorem witness_SpillReloadDispatch : Waits (sentOn farBlock [] spillP []) (0 : QIx) 0x28 (pkt spillP)
    ∧ Waits (sent spillP) (0 : QIx) 0x28 (pkt spillP) ∧ Waits (sentOn farBlock [] reloadP []) (0 : QIx) 0x29 (pkt reloadP)
    ∧ Waits (sent reloadP) (0 : QIx) 0x29 (pkt reloadP) ∧ gLen (pkt spillP) ≠ 0 ∧ gLen (pkt reloadP) ≠ 0
    ∧ farAbsent farBlock = false ∧ farAbsent base = true
    ∧ firstFail (spillChecks (pkt spillP)) = none ∧ firstFail (reloadChecks (pkt reloadP)) = none
    ∧ badByte (sentOn farBlock [] spillP []) (gSrc (pkt spillP)) 2048 = none
    ∧ badByte (sentOn farBlock [] spillP []) (gDst (pkt spillP)) 2048 = none
    ∧ badByte (sentOn farBlock [] reloadP []) (gDst (pkt reloadP)) 2048 = none
    ∧ badByte (sentOn farBlock [] reloadP []) (gSrc (pkt reloadP)) 2048 = none
    ∧ badByte (sent spillP) (gSrc (pkt spillP)) 2048 = none ∧ badByte (sent reloadP) (gDst (pkt reloadP)) 2048 = none :=
  ⟨waits_of _ _ _ _ (by decide +kernel), waits_of _ _ _ _ (by decide +kernel), waits_of _ _ _ _ (by decide +kernel),
    waits_of _ _ _ _ (by decide +kernel), by decide +kernel⟩

/-! Commands that use the ledger: one output tile of one element, over one contraction index. -/

/-- A descriptor whose every extent is 1: levels 1 to 5 in the order M, N, K, F, one slot from slot 0 on, operands at 0x20000000 and
0x21000000 with their scales at 0x22000000 and 0x23000000, output at 0x24000000. -/
def unitDesc : List (Nat × Nat) :=
  ([(0, 1)]
    ++ (rangeFrom 0 6).flatMap (fun l =>
      (if l = 0 then [] else [(16 + 40 * l, 0xE4)]) ++ (if l = 2 then [(18 + 40 * l, 1)] else [])
        ++ [(20 + 40 * l, 1), (24 + 40 * l, 1), (28 + 40 * l, 1), (32 + 40 * l, 1)]
        ++ (if l = 2 then [(119, 0x22), (125, 0x23)] else []) ++ (if l = 5 then [(239, 0x20), (245, 0x21), (251, 0x24)] else []))).map
    (fun (x : Nat × Nat) => (0x0C000000 + x.1, x.2))

/-- A compute packet: opcode, EXT_LEN, the further bytes. -/
def compP (op ext : Nat) (l : List (Nat × Nat)) : List (Nat × Nat) := [(0, op), (1, ext)] ++ l

/-- The small block with a packet at HEAD of queue 0 and the descriptor in its table. -/
def compSent (l : List (Nat × Nat)) : State := sentOn base unitDesc l []

/-- A compute command passes every check of its dispatch. -/
def prepares (s : State) (op p : Nat) : Bool :=
  match prepare (s.takePacket 0) 0 (packetAddr (s.queue 0) (s.queue 0).head) op p with
  | .ok c => (statWriteFault s c p).isNone
  | .error _ => false

/-- The condition a check fails with. -/
def failure (x : Chk Comp) : Option Cond := match x with | .ok _ => none | .error e => some e

theorem error_of (x : Chk Comp) (e : Cond) (h : failure x = some e) : x = .error e := by
  cases x with
  | ok c => simp [failure] at h
  | error y => simp [failure] at h; rw [h]

/-- The result of checks that pass. -/
def result (x : Chk Comp) : Option Comp := match x with | .ok c => some c | .error _ => none

theorem ok_of (x : Chk Comp) (c : Comp) (h : result x = some c) : x = .ok c := by
  cases x with
  | ok y => simp [result] at h; rw [h]
  | error e => simp [result] at h

/-- Packets of commands that use the ledger: a product, a segment sum and a fusion command. -/
def compRows : List ((QIx → Instr) × Nat × List (Nat × Nat)) :=
  [(Instr.matmul, 0x10, compP 0x10 0 [(12, 9)]), (.segmentSum, 0x13, compP 0x13 4 [(11, 9), (259, 0x25), (264, 1)]),
   (.finish, 0x15, compP 0x15 4 [(11, 9), (12, 9), (256, 0x20)])]

/-- Every work-counter record taken by a held area. -/
def fullLedger (s : State) : State :=
  s.onCp (fun x => { x with areas := (rangeFrom 0 256).map (fun r => ⟨r, 1, r, 0x10, 0, Comp.base 0 0 .thin⟩) })

theorem witness_ComputeDispatch :
    (∀ row ∈ compRows, Waits (compSent row.2.2) (0 : QIx) row.2.1 (pkt row.2.2)
      ∧ prepares (compSent row.2.2) row.2.1 (pkt row.2.2) = true ∧ (compSent row.2.2).freeRec = some 0)
    ∧ Waits (fullLedger (compSent (compP 0x10 0 [(12, 9)]))) (0 : QIx) 0x10 (pkt (compP 0x10 0 [(12, 9)]))
    ∧ prepares (fullLedger (compSent (compP 0x10 0 [(12, 9)]))) 0x10 (pkt (compP 0x10 0 [(12, 9)])) = true
    ∧ (fullLedger (compSent (compP 0x10 0 [(12, 9)]))).freeRec = none
    ∧ Waits (sent (compP 0x10 0 [(12, 9)])) (0 : QIx) 0x10 (pkt (compP 0x10 0 [(12, 9)]))
    ∧ prepare ((sent (compP 0x10 0 [(12, 9)])).takePacket 0) 0 0x10000000 0x10 (pkt (compP 0x10 0 [(12, 9)]))
      = .error (badField 1 0x0C000000 0) := by
  refine ⟨?_, waits_of _ _ _ _ (by decide +kernel), by decide +kernel, by decide +kernel, waits_of _ _ _ _ (by decide +kernel),
    error_of _ _ (by decide +kernel)⟩
  intro row h
  have : row ∈ compRows := h
  simp only [compRows, List.mem_cons, List.not_mem_nil, or_false] at this
  obtain rfl | rfl | rfl := this <;>
    exact ⟨waits_of _ _ _ _ (by decide +kernel), by decide +kernel, by decide +kernel⟩

/-- The one run of the command over the unit descriptor. -/
def unitRun : Run :=
  ⟨⟨0, 1, 0, 1, 0, 1, 0, 1⟩, [⟨⟨0, 0, 0⟩, .unclaimed, 0, 0, false, false, 0, [], false, false, Counts.zero, Counts.zero, false, 0, 0⟩],
    false, false, false⟩

/-- What the command over the unit descriptor is at dispatch. -/
def unitComp (kind : UnitKind) : Comp :=
  { Comp.base (unitDesc.foldl (fun n x => n + x.2 * 256 ^ (x.1 - 0x0C000000)) 0) 0 kind with
    runs := [unitRun]
    fEff := 1, mEff := [1], nEff := [1], kEff := [1], stageCount := 1 }

/-- A SCALE_SCAN of the descriptor, with its record at 0x27000000. -/
def scanP : List (Nat × Nat) := compP 0x16 0 [(19, 0x27)]

/-- What SCALE_SCAN over the unit descriptor is at dispatch. -/
def scanComp : Comp := { unitComp .fusion with runs := [], stageCount := 0 }

theorem witness_ScaleScanDispatch : Waits (compSent scanP) (0 : QIx) 0x16 (pkt scanP)
    ∧ prepare ((compSent scanP).takePacket 0) 0 0x10000000 0x16 (pkt scanP) = .ok scanComp
    ∧ scanGranules (scanSpans (pkt scanP) scanComp) ≠ []
    ∧ Waits (sent scanP) (0 : QIx) 0x16 (pkt scanP)
    ∧ prepare ((sent scanP).takePacket 0) 0 0x10000000 0x16 (pkt scanP) = .error (badField 1 0x0C000000 0) :=
  ⟨waits_of _ _ _ _ (by decide +kernel), ok_of _ _ (by decide +kernel), by decide +kernel, waits_of _ _ _ _ (by decide +kernel), error_of _ _ (by decide +kernel)⟩

/-- A MATMUL in flight, published, its run not yet written. -/
def pubCmd (kind : UnitKind) : Cmd :=
  cmdOf 0 (compP 0x10 0 [(12, 9)]) (.compute { unitComp kind with recNo := some 0, published := true })

/-- The same with its run written. -/
def raised : Cmd := cmdOf 0 (compP 0x10 0 [(12, 9)]) (.compute { unitComp .thin with recNo := some 0, published := true, limit := 1 })

theorem witness_LedgerGrows :
    (let c := cmdOf 1 (compP 0x10 0 [(12, 9)]) (.waitRecord (unitComp .thin));
      (holding [c]).holder (0 : QIx) = some c ∧ actsFor (holding [c]) (ctxOf (0 : QIx)) = true
        ∧ (fullLedger (holding [c])).freeRec = none ∧ (fullLedger (holding [c])).holder (0 : QIx) = some c
        ∧ (holding [c]).freeRec ≠ none ∧ ((holding [c]).dropCmd c.key).freeRec = some 0)
    ∧ (let s := flying [pubCmd .thin];
      s.cp.paused = false ∧ s.lives ((0 : QIx).val, 0) = true ∧ (s.comp? ((0 : QIx).val, 0)).any (·.published) = true
        ∧ s.nextRunFits ((0 : QIx).val, 0) = true)
    ∧ (let s := flying [raised];
      s.lives ((0 : QIx).val, 0) = true ∧ (s.comp? ((0 : QIx).val, 0)).any (·.published) = true
        ∧ s.nextRunFits ((0 : QIx).val, 0) = false) := by decide +kernel

/-! Frames, slots, replies and service packets. -/

/-- A FRAME_SEND of 4 long words at 0x20000000 to board 1, a receiver to 0x20000000, and a MAX_EXCHANGE of two of the record at
0x20000000. -/
def sendP : List (Nat × Nat) := [(0, 0x20), (19, 0x20), (22, 4), (28, 1)]
def recvP (op : Nat) : List (Nat × Nat) := [(0, op), (19, 0x20), (22, 4)]
def maxP : List (Nat × Nat) := [(0, 0x23), (11, 0x20), (19, 0x21), (26, 2)]

/-- The state of the MAX_EXCHANGE, with a VALID record. -/
def maxSent : State := sentOn base [] maxP [(0x20000007, 0x80)]

theorem witness_FrameDispatch : Waits (sent sendP) (0 : QIx) 0x20 (pkt sendP) ∧ firstFail (sendChecks (sent sendP) (pkt sendP)) = none
    ∧ Waits ((sent sendP).onBlk (fun b => { b with straps := 0x40 })) (0 : QIx) 0x20 (pkt sendP)
    ∧ noOutbound ((sent sendP).onBlk (fun b => { b with straps := 0x40 })) = true
    ∧ Waits (sent (recvP 0x21)) (0 : QIx) 0x21 (pkt (recvP 0x21))
    ∧ firstFail (recvChecks (sent (recvP 0x21)) (pkt (recvP 0x21)) 8) = none
    ∧ Waits (sent (recvP 0x22)) (0 : QIx) 0x22 (pkt (recvP 0x22))
    ∧ firstFail (recvChecks (sent (recvP 0x22)) (pkt (recvP 0x22)) 16) = none
    ∧ Waits maxSent (0 : QIx) 0x23 (pkt maxP) ∧ firstFail (maxChecks maxSent (pkt maxP)) = none
    ∧ nearFault maxSent (mxLocal (pkt maxP)) 8 = none ∧ bitOf (maxSent.readNat (mxLocal (pkt maxP)) 8) 63 = true
    ∧ bitOf (maxSent.readNat (mxLocal (pkt maxP)) 8) 58 = false :=
  ⟨waits_of _ _ _ _ (by decide +kernel), by decide +kernel, waits_of _ _ _ _ (by decide +kernel), by decide +kernel,
    waits_of _ _ _ _ (by decide +kernel), by decide +kernel, waits_of _ _ _ _ (by decide +kernel), by decide +kernel,
    waits_of _ _ _ _ (by decide +kernel), by decide +kernel⟩

/-- A TUN_SAVE or TUN_RESTORE of slot 3 of core 0 at 0x20000000. -/
def tunP (op : Nat) : List (Nat × Nat) := [(0, op), (8, 8), (12, 1), (19, 0x20)]

/-- Slot 3 of core 0 yielded for context 0, and bound, with `b`, to a claim of context 1. -/
def yieldedTo (s : State) (b : Bool) : State :=
  s.onCore 0 (fun c => { c with yielded := [(0, 3)], binds := if b then [⟨3, 0, (4, 0), 0⟩] else [] })

theorem witness_TunRestoreDispatch :
    (∀ b, Waits (yieldedTo (sent (tunP 0x31)) b) (0 : QIx) 0x31 (pkt (tunP 0x31))
      ∧ firstFail (tunChecks (yieldedTo (sent (tunP 0x31)) b) (ctxOf (0 : QIx)) (pkt (tunP 0x31))
        (fun x => !isYielded (yieldedTo (sent (tunP 0x31)) b) (ctxOf (0 : QIx)) x) false) = none
      ∧ namedSlots (yieldedTo (sent (tunP 0x31)) b) (ctxOf (0 : QIx)) (pkt (tunP 0x31)) = [(0, 3)]
      ∧ (namedSlots (yieldedTo (sent (tunP 0x31)) b) (ctxOf (0 : QIx)) (pkt (tunP 0x31))).any
          (boundToOther (yieldedTo (sent (tunP 0x31)) b) (ctxOf (0 : QIx))) = b)
    ∧ (let c := cmdOf 1 (tunP 0x31) (.tunRestore ⟨[(0, 3)], 0⟩ false);
      ∀ b, (yieldedTo (holding [c]) b).holder (0 : QIx) = some c ∧ actsFor (yieldedTo (holding [c]) b) (ctxOf (0 : QIx)) = true
        ∧ [(0, 3)].any (boundToOther (yieldedTo (holding [c]) b) (ctxOf (0 : QIx))) = b) := by
  constructor
  · intro b
    cases b <;> exact ⟨waits_of _ _ _ _ (by decide +kernel), by decide +kernel⟩
  · decide +kernel

theorem witness_TunSaveYields : Waits (sent (tunP 0x30)) (0 : QIx) 0x30 (pkt (tunP 0x30))
    ∧ firstFail (tunChecks (sent (tunP 0x30)) (ctxOf (0 : QIx)) (pkt (tunP 0x30)) (isYielded (sent (tunP 0x30)) (ctxOf (0 : QIx))) true)
      = none
    ∧ namedSlots (sent (tunP 0x30)) (ctxOf (0 : QIx)) (pkt (tunP 0x30)) = [(0, 3)]
    ∧ outputFault (sent (tunP 0x30)) (tsAddr (pkt (tunP 0x30))) (0x100000
      + 0x4000 * ((rangeFrom 0 32).flatMap (toPause (sent (tunP 0x30)) (ctxOf (0 : QIx)) [(0, 3)])).length) = none :=
  ⟨waits_of _ _ _ _ (by decide +kernel), by decide +kernel⟩

/-- A SIGNAL that the integrator has answered, and a MATMUL that is over with a copy still running. -/
def overCmd : Cmd := { cmdOf 0 [(0, 0x03)] (.signal 0) with ended := true }
def copyCmd : Cmd :=
  let e := { unitRun with entries := unitRun.entries.map (fun e => { e with copies := 1 }) }
  { cmdOf 0 (compP 0x10 0 [(12, 9)]) (.compute { unitComp .thin with runs := [e] }) with ended := true }

theorem witness_RepliesWritten : (flying [overCmd]).cmd? ((0 : QIx).val, 0) = some overCmd ∧ overCmd.ended = true
    ∧ actsFor (flying [overCmd]) (ctxOf (0 : QIx)) = true ∧ overCmd.over (flying [overCmd]) = true
    ∧ (flying [copyCmd]).cmd? ((0 : QIx).val, 0) = some copyCmd ∧ copyCmd.ended = true
    ∧ copyCmd.comp?.any (fun x => x.entries.any (fun e => decide (e.copies ≠ 0))) = true := by decide +kernel

/-- A SERVICE packet with SUBCODE and further bytes. -/
def svcP (sub : Nat) (l : List (Nat × Nat)) : List (Nat × Nat) := [(0, 0x3C), (8, sub)] ++ l

theorem witness_ServicePacketsRefused :
    (∀ sub ∈ [0x02, 0x10, 0x20, 0x21, 0x40, 0x03, 0x11, 0x7E], Waits (sent (svcP sub [])) (0 : QIx) 0x3C (pkt (svcP sub []))
      ∧ svcSub (pkt (svcP sub [])) = sub) ∧ svcKnown 0x7E = false := by
  refine ⟨?_, by decide⟩
  intro sub h
  simp only [List.mem_cons, List.not_mem_nil, or_false] at h
  obtain rfl | rfl | rfl | rfl | rfl | rfl | rfl | rfl := h <;> exact ⟨waits_of _ _ _ _ (by decide +kernel), by decide +kernel⟩

theorem witness_ServicePacketsRun :
    (let l := svcP 0x01 [(19, 0x20)];
      Waits (sent l) (0 : QIx) 0x3C (pkt l) ∧ svcSub (pkt l) = 0x0001
        ∧ firstFail (outputChecks (bitsOf (pkt l) 175 128) (spareBytes (sent l)).length 16) = none
        ∧ outputFault (sent l) (bitsOf (pkt l) 175 128) (spareBytes (sent l)).length = none)
    ∧ (∀ sub ∈ [0x30, 0x31], Waits (sent (svcP sub [])) (0 : QIx) 0x3C (pkt (svcP sub [])) ∧ svcSub (pkt (svcP sub [])) = sub
        ∧ bitsOf (pkt (svcP sub [])) 83 80 = ctxOf (0 : QIx)) := by
  refine ⟨⟨waits_of _ _ _ _ (by decide +kernel), by decide +kernel⟩, ?_⟩
  intro sub h
  simp only [List.mem_cons, List.not_mem_nil, or_false] at h
  obtain rfl | rfl := h <;> exact ⟨waits_of _ _ _ _ (by decide +kernel), by decide +kernel⟩

/-- A SERVICE_CMD run under way at 0x20000000, with the image read. -/
def running (s : State) (l : List (Nat × Nat)) : State :=
  s.onSvc (fun x => { x with busy := true, area := 0x20000000, image := some (pkt l) })

theorem runs_of (s : State) (sub p : Nat) (h : s.svc.image = some p ∧ s.svc.busy = true ∧ blkRuns s = true ∧ s.cp.paused = false
    ∧ pOp p = 0x3C ∧ svcSub p = sub ∧ regionOf (s.svc.area + 64) ≠ .host) : SvcRuns s sub p :=
  ⟨h.1, h.2.1, h.2.2.1, h.2.2.2.1, h.2.2.2.2.1, h.2.2.2.2.2.1, h.2.2.2.2.2.2⟩

/-- The small block in service quiesce. -/
def quiet : State := base.onBlk (fun b => { b with mode := .quiesced })

theorem witness_ServiceRunsSettings :
    (∀ sub ∈ [0x10, 0x02, 0x20, 0x40, 0x03], SvcRuns (running base (svcP sub [])) sub (pkt (svcP sub [])))
    ∧ base.blk.repair.length < 64 ∧ base.wearOf (bitsOf (pkt (svcP 0x20 [])) 143 80) = none
    ∧ SvcRuns (running farBlock (svcP 0x20 [(10, 7)])) 0x0020 (pkt (svcP 0x20 [(10, 7)]))
    ∧ (farBlock.wearOf (bitsOf (pkt (svcP 0x20 [(10, 7)])) 143 80)).isSome = true
    ∧ base.blk.mode ≠ .quiesced ∧ base.start.skeleton = false
    ∧ SvcRuns (running quiet (svcP 0x03 [])) 0x0003 (pkt (svcP 0x03 [])) ∧ quiet.blk.mode = .quiesced ∧ quiet.start.skeleton = false := by
  refine ⟨?_, by decide +kernel, by decide +kernel, runs_of _ _ _ (by decide +kernel), by decide +kernel, by decide +kernel,
    by decide +kernel, runs_of _ _ _ (by decide +kernel), by decide +kernel, by decide +kernel⟩
  intro sub h
  simp only [List.mem_cons, List.not_mem_nil, or_false] at h
  obtain rfl | rfl | rfl | rfl | rfl := h <;> exact runs_of _ _ _ (by decide +kernel)

theorem witness_ServiceRunsReports :
    (∀ sub ∈ [0x21, 0x30, 0x31, 0x7E], SvcRuns (running base (svcP sub [])) sub (pkt (svcP sub [])))
    ∧ svcKnown 0x7E = false ∧ farAbsent base = true
    ∧ (let l := svcP 0x01 [(19, 0x21)];
      SvcRuns (running base l) 0x0001 (pkt l)
        ∧ firstFail (outputChecks (bitsOf (pkt l) 175 128) (spareBytes (running base l)).length 16) = none
        ∧ outputFault (running base l) (bitsOf (pkt l) 175 128) (spareBytes (running base l)).length = none)
    ∧ (let l := svcP 0x11 [(27, 0x21)];
      SvcRuns (running quiet l) 0x0011 (pkt l) ∧ bitsOf (pkt l) 84 80 < stackCount quiet.map.profile ∧ quiet.blk.mode = .quiesced
        ∧ firstFail (outputChecks (bitsOf (pkt l) 239 192) (loopbackBytes (pkt l) []).length 24) = none
        ∧ outputFault (running quiet l) (bitsOf (pkt l) 239 192) (loopbackBytes (pkt l) []).length = none)
    ∧ SvcRuns (running farBlock (svcP 0x21 [])) 0x0021 (pkt (svcP 0x21 [])) ∧ farAbsent farBlock = false
    ∧ (vget farBlock.far.modules (bitsOf (pkt (svcP 0x21 [])) 81 80)).isSome = true
    ∧ (let s := running base [(0, 0x01)]; s.svc.image = some (pkt [(0, 0x01)]) ∧ s.svc.busy = true ∧ blkRuns s = true
      ∧ s.cp.paused = false ∧ regionOf (s.svc.area + 64) ≠ .host ∧ pOp (pkt [(0, 0x01)]) ≠ 0x3C) := by
  refine ⟨?_, by decide, by decide +kernel, ⟨runs_of _ _ _ (by decide +kernel), by decide +kernel⟩,
    ⟨runs_of _ _ _ (by decide +kernel), by decide +kernel⟩, runs_of _ _ _ (by decide +kernel), by decide +kernel⟩
  intro sub h
  simp only [List.mem_cons, List.not_mem_nil, or_false] at h
  obtain rfl | rfl | rfl | rfl := h <;> exact runs_of _ _ _ (by decide +kernel)

theorem witness_PacketsWait : packetOf (.nop 0) = some (0 : QIx) ∧ packetOf (.spareRead (.packet 63)) = some (63 : QIx)
    ∧ canDispatch State.reset (0 : QIx) = false ∧ canDispatch base (63 : QIx) = true ∧ hasPacket base (63 : QIx) = false := by
  decide +kernel

/-! Queues, contexts and registers. -/

/-- The small block with queue 0 at positions OLDEST 5, TAIL 5. -/
def ringed : State := base.onQ 0 (fun _ => { ring with tail := 5, head := 5, oldest := 5 })

/-- The same with every context DISABLED. -/
def resting : State := { ringed with ctxs := Vector.replicate 16 Ctx.reset }

theorem witness_DoorbellRule : Served ringed
    ∧ (∀ T ∈ [(5 : Int), 21], (T - (ringed.queue (0 : QIx)).oldest) % 2 ^ 32 ≤ 2 ^ (ringed.queue (0 : QIx)).log
      ∧ (T - (ringed.queue (0 : QIx)).tail) % 2 ^ 32 ≤ 2 ^ (ringed.queue (0 : QIx)).log)
    ∧ (ringed.queue (0 : QIx)).log ≠ 0
    ∧ (∀ T ∈ [(4 : Int), 22], 2 ^ (ringed.queue (0 : QIx)).log < (T - (ringed.queue (0 : QIx)).oldest) % 2 ^ 32
      ∧ 2 ^ (ringed.queue (0 : QIx)).log < (T - (ringed.queue (0 : QIx)).tail) % 2 ^ 32)
    ∧ (ringed.queue (1 : QIx)).log = 0 ∧ Served resting ∧ (resting.ctx (ctxOf (0 : QIx))).mode ≠ .active := by
  refine ⟨by show _ = true; decide +kernel, ?_⟩
  refine ⟨by decide +kernel, by decide +kernel, by decide +kernel, by decide +kernel, by show _ = true; decide +kernel, by decide +kernel⟩

/-- A Q_BASE value of 2^L entries at the base `b` × 4 KiB. -/
def qbase (l b : Nat) : Word := BitVec.ofNat 64 (l + b * 4096)

theorem witness_QueueBaseRule : Served resting ∧ (resting.ctx (ctxOf (0 : QIx))).mode = .disabled
    ∧ (∀ l ∈ [4, 12], 4 ≤ bitsOf (qbase l 0xD000).toNat 3 0 ∧ bitsOf (qbase l 0xD000).toNat 3 0 ≤ 12
      ∧ 0x0D000000 ≤ bitsOf (qbase l 0xD000).toNat 47 12 * 4096 ∧ regionOf (bitsOf (qbase l 0xD000).toNat 47 12 * 4096) = .near
      ∧ badByte resting (bitsOf (qbase l 0xD000).toNat 47 12 * 4096) (576 * 2 ^ bitsOf (qbase l 0xD000).toNat 3 0) = none)
    ∧ qbase 0 0 = 0 ∧ (ringed.ctx (ctxOf (0 : QIx))).mode ≠ .disabled
    ∧ bitsOf (qbase 3 0xD000).toNat 3 0 < 4 ∧ bitsOf (qbase 3 0xD000).toNat 47 12 ≠ 0 ∧ 12 < bitsOf (qbase 13 0xD000).toNat 3 0
    ∧ 0 < bitsOf (qbase 4 0xCFFF).toNat 47 12 ∧ bitsOf (qbase 4 0xCFFF).toNat 47 12 * 4096 < 0x0D000000 :=
  ⟨by show _ = true; decide +kernel, by decide +kernel⟩

/-- A CTX_CTRL value: CMD, the window of 32 slots from 0 on, SHARE 1. -/
def ctrl (cmd : Nat) : Word := BitVec.ofNat 64 (cmd + 32 * 2 ^ 13 + 2 ^ 24)

/-- The small block with context 0 in a mode and a stage of its sequence. -/
def inMode (m : CtxMode) (stage : Nat) : State := base.onCtx 0 (fun c => { c with mode := m, stage := stage })

theorem witness_ContextCommands :
    (∀ c ∈ [1, 2, 3, 4], ccRefused (ctrl c).toNat = false ∧ ccCmd (ctrl c).toNat = c
      ∧ ccBase (ctrl c).toNat + ccCount (ctrl c).toNat ≤ 32
      ∧ ccRefused ((ctrl c).toNat + 2 ^ 13) = true ∧ ccCmd ((ctrl c).toNat + 2 ^ 13) = c)
    ∧ (∀ m ∈ [CtxMode.disabled, .active, .suspended], windowOpen (inMode m 0) = true ∧ ((inMode m 0).ctx (0 : CIx)).mode = m
      ∧ (inMode m 0).blk.mode ≠ .quiesced) := by decide +kernel

theorem witness_DisableStages : (∀ x ∈ [1, 2, 3, 5, 6], blkRuns (inMode .disabling x) = true ∧ (inMode .disabling x).cp.paused = false
      ∧ ((inMode .disabling x).ctx (0 : CIx)).stage = x)
    ∧ settledStages (inMode .disabling 3) (0 : CIx) = true
    ∧ settledStages ((inMode .disabling 3).onCp (fun x => { x with
        cmds := [cmdOf 0 (moveP 0x18 8) (.engine { Eng.start 1 none with awaiting := [(0, false)] })] })) (0 : CIx) = false
    ∧ ((inMode .disabling 5).ctx (0 : CIx)).zeroed = false ∧ ((inMode .disabling 5).ctx (0 : CIx)).wCount ≠ 0
    ∧ (((inMode .disabling 5).onCtx 0 (fun c => { c with zeroed := true })).ctx (0 : CIx)).zeroed = true
    ∧ endsAcked (inMode .disabling 6) (0 : CIx) = true
    ∧ (let c := cmdOf 0 sendP (.frame ⟨4, 0, 4, 0, 0, 0, 0⟩);
      endsAcked (((inMode .disabling 6).onCp (fun x => { x with cmds := [c] })).onTx 8 (fun t => { t with
        buf := [⟨5, 0, false, [], some c.key, true⟩] })) (0 : CIx) = false) := by decide +kernel

theorem witness_HeldFramesAtEnd : blkRuns (inMode .disabling 7) = true ∧ (inMode .disabling 7).cp.paused = false
    ∧ ((inMode .disabling 7).ctx (0 : CIx)).mode = .disabling ∧ ((inMode .disabling 7).ctx (0 : CIx)).stage = 7
    ∧ ((inMode .preempting 7).ctx (0 : CIx)).mode = .preempting ∧ ((inMode .preempting 7).ctx (0 : CIx)).stage = 7
    ∧ blkRuns (inMode .preempting 7) = true ∧ blkRuns (inMode .suspended 0) = true ∧ windowOpen (inMode .suspended 0) = true
    ∧ ((inMode .suspended 0).ctx (0 : CIx)).mode = .suspended ∧ ccRefused (ctrl 4).toNat = false ∧ ccCmd (ctrl 4).toNat = 4
    ∧ (inMode .suspended 0).blk.mode ≠ .quiesced := by decide +kernel

theorem witness_DisableWork : ((inMode .disabling 5).ctx (0 : CIx)).stage = 5 ∧ blkRuns (inMode .disabling 5) = true
    ∧ ((inMode .disabling 5).ctx (0 : CIx)).wBase ≤ 31 ∧ 31 < ((inMode .disabling 5).ctx (0 : CIx)).wBase
      + ((inMode .disabling 5).ctx (0 : CIx)).wCount ∧ boundToOther (inMode .disabling 5) (0 : CIx) (7, 31) = false
    ∧ boundToOther (yieldedTo (inMode .disabling 5) true) (0 : CIx) (0, 3) = true
    ∧ ((inMode .disabling 3).ctx (0 : CIx)).stage = 3 ∧ unitsRun (inMode .disabling 3) = true := by decide +kernel

/-- A KPR_LIMITS value. -/
def limits (p t vs vp : Nat) : Word := BitVec.ofNat 64 (p + t * 2 ^ 10 + vs * 2 ^ 24 + vp * 2 ^ 32)

theorem witness_LimitsRule : base.start.stage ≠ 0 ∧ base.pwr.state ≠ .idle
    ∧ (∀ x ∈ [(250, 70, 120, 150), (700, 100, 150, 170)],
      bitsOf (limits x.1 x.2.1 x.2.2.1 x.2.2.2).toNat 9 0 = x.1 ∧ bitsOf (limits x.1 x.2.1 x.2.2.1 x.2.2.2).toNat 16 10 = x.2.1
        ∧ bitsOf (limits x.1 x.2.1 x.2.2.1 x.2.2.2).toNat 31 24 = x.2.2.1 ∧ bitsOf (limits x.1 x.2.1 x.2.2.1 x.2.2.2).toNat 39 32 = x.2.2.2
        ∧ 250 ≤ x.1 ∧ x.1 ≤ 700 ∧ 70 ≤ x.2.1 ∧ x.2.1 ≤ 100 ∧ 120 ≤ x.2.2.1 ∧ x.2.2.1 ≤ 150 ∧ 150 ≤ x.2.2.2 ∧ x.2.2.2 ≤ 170
        ∧ x.2.2.1 ≤ x.2.2.2)
    ∧ bitsOf (limits 249 70 120 150).toNat 9 0 < 250 := by decide +kernel

theorem witness_RegisterSettings : Served farBlock ∧ bitsOf (1000 : Word).toNat 9 0 ≤ 1000 ∧ 1000 < bitsOf (1001 : Word).toNat 9 0
    ∧ (vget farBlock.far.wear farBlock.far.wearIdx).state ≠ 0 ∧ (vget farBlock.far.wear farBlock.far.wearIdx).ratedTib = 0
    ∧ Served base ∧ (vget base.far.wear base.far.wearIdx).state = 0 :=
  ⟨by show _ = true; decide +kernel, by decide +kernel, by decide +kernel, by decide +kernel, by decide +kernel,
    by show _ = true; decide +kernel, by decide +kernel⟩

theorem witness_PowerTargets : Served resting ∧ Served base
    ∧ (∀ v ∈ [0, 1, 2, 3], bitsOf (BitVec.ofNat 64 v : Word).toNat 1 0 = v)
    ∧ resting.pwr.state = .active ∧ (∀ n < 16, (resting.ctx n).mode = .disabled) ∧ (∃ n < 16, (base.ctx n).mode ≠ .disabled) :=
  ⟨by show _ = true; decide +kernel, by show _ = true; decide +kernel, by decide +kernel⟩

/-- The small block in a power state, or on its way to one. -/
def inPower (p : PState) (going : Option PState) : State :=
  base.onPwr (fun x => { x with state := p, going := going, autoIdle := true })

theorem witness_PowerTransitions : Served (inPower .active none) ∧ (inPower .active none).pwr.autoIdle = true
    ∧ (inPower .active none).pwr.state = .active ∧ (inPower .active none).pwr.going = none ∧ (inPower .active none).cp.cmds = []
    ∧ (∀ q < 64, ((inPower .active none).queue q).head = ((inPower .active none).queue q).tail)
    ∧ (inPower .idle none).pwr.state = .idle ∧ (inPower .idle none).start.resetLow = false ∧ (inPower .idle none).blk.mode = .ready
    ∧ (∀ p ∈ [PState.idle, .arraysOff, .deep, .active], (inPower .active (some p)).pwr.going = some p)
    ∧ (inPower .idle (some .active)).pwr.waking = [] ∧ bitsOf (0 : Word).toNat 1 0 = 0
    ∧ (inPower .deep none).pwr.state = .deep ∧ (inPower .deep none).start.stage = 7 ∧ (inPower .deep none).blk.mode = .ready
    ∧ ((inPower .idle none).onKin (fun k => { k with alarm := true })).kin.alarm = true
    ∧ (inPower .active (some .deep)).start.stage = 7 :=
  ⟨by show _ = true; decide +kernel, by decide +kernel⟩

theorem witness_ResetsWritten : Served base ∧ Served resting
    ∧ bitsOf (2 : Word).toNat 31 16 = 0 ∧ bitsOf (2 : Word).toNat 1 0 = 2 ∧ bitsOf (1 : Word).toNat 31 16 = 0
    ∧ bitsOf (1 : Word).toNat 1 0 = 1 ∧ (∀ n ∈ [0, 15], bitsOf (BitVec.ofNat 64 (2 ^ (16 + n)) : Word).toNat 31 16 = 2 ^ n
      ∧ bitsOf (BitVec.ofNat 64 (2 ^ (16 + n)) : Word).toNat 1 0 = 0 ∧ (resting.ctx n).mode = .disabled ∧ (base.ctx n).mode = .active) :=
  ⟨by show _ = true; decide +kernel, by show _ = true; decide +kernel, by decide +kernel⟩

/-- The small block in a start stage. -/
def atStage (x : Nat) : State := base.onStart (fun y => { y with stage := x })

theorem witness_ResetsOfPins : (base.onStart (fun x => { x with resetLow := true })).start.resetLow = true
    ∧ (base.onStart (fun x => { x with resetLow := true })).start.stage = 7 ∧ base.start.attempts < 3 ∧ base.sound
    ∧ base.pwr.state ≠ .deep ∧ base.start.stage ≠ 0 ∧ base.start.resetLow = false
    ∧ cellGet base.mem.dirty 0x20000000 = none := by
  refine ⟨by decide +kernel, by decide +kernel, by decide +kernel, by show _ = true; decide +kernel, by decide +kernel⟩

/-- A partial of a diagnostic pass that differs from the expected one: 0 in column 3 of row 5 in the first phase. -/
def badRead : DiagRead := ⟨0, 5, 0, false, 3, 0⟩

/-- Eight stacks of 32 GiB, nothing lost, no module. -/
def goodS2 : S2Info := ⟨List.replicate 24 (some 32), [], [none, none, none, none], true, true, true⟩

theorem witness_StartStages : (∀ x < 7, (atStage x).start.resetLow = false ∧ (atStage x).start.skeleton = false
      ∧ (atStage x).start.stage = x)
    ∧ (atStage 0).start.attempts < 3 ∧ 2 ≤ 3
    ∧ (∀ x < stackCount ((atStage 2).blk.straps % 4), (goodS2.stackGib.getD x none).isSome = true) ∧ goodS2.lostChannels = []
    ∧ (atStage 2).blk.mapList = [] ∧ (atStage 5).blk.fwPatch = 0 ∧ 2 ≤ [true, true, false].countP id
    ∧ (atStage 6).start.kind ≠ .warm
    ∧ 16 ≤ arraysIn (after (exec (.startStageEnd (.s3 [(0, [badRead])] [])) (atStage 3)))
    ∧ arraysIn (after (exec (.startStageEnd (.s3 ((rangeFrom 0 17).map (fun a => (a, [badRead]))) [])) (atStage 3))) < 16
    ∧ 16 ≤ arraysIn (after (exec (.startStageEnd (.s4 [0] [] [])) (atStage 4)))
    ∧ arraysIn (after (exec (.startStageEnd (.s4 [] (rangeFrom 0 17) [])) (atStage 4))) < 16 := by decide +kernel

theorem witness_StartFailures : (atStage 5).start.resetLow = false ∧ (atStage 5).start.stage ≤ 5 ∧ (atStage 1).start.stage = 1
    ∧ (base.onStart (fun x => { x with retryDue := true })).start.retryDue = true := by decide +kernel

/-! Engines, far tier, frames and ports. -/

/-- A COPY of a granule in flight, and a FILL of one, with one granule. -/
def copyOn : State := flying [cmdOf 0 (moveP 0x18 8) (.engine (Eng.start 1 none))]
def fillOn (hi : Nat) : State := flying [cmdOf 0 ([(0, 0x19), (17, 0x10), (19, hi), (25, 8)]) (.engine (Eng.start 1 none))]

/-- A granule of it can be completed. -/
def openAt (s : State) (g : Nat) : Bool :=
  (s.cmd? ((0 : QIx).val, 0)).any (fun c => !c.ended && c.eng?.any (fun e => granuleOpen s ((0 : QIx).val, 0) e g))

/-- The copy while every stack is in phase 1 of its return. -/
def waitingCopy : State :=
  { copyOn.onMap (fun m => { m with parity := true, fenced := rangeFrom 0 8 }) with
    stks := vall copyOn.stks (fun k => { k with fence := .return1 }) }

theorem witness_GranulesComplete : openAt copyOn 0 = true ∧ openAt (fillOn 0x20) 0 = true ∧ openAt (fillOn 0) 0 = true
    ∧ gSrc (pkt (moveP 0x18 8)) = 0x20000000 ∧ gDst (pkt (moveP 0x18 8)) = 0x20001000 ∧ regionOf 0x20001000 ≠ .host
    ∧ regionOf 0x20000000 ≠ .host ∧ accessFault copyOn 0x20000000 2048 = none ∧ outputFault copyOn 0x20001000 2048 = none
    ∧ outputFault (fillOn 0x20) 0x20001000 2048 = none
    ∧ (outputFault ((fillOn 0x20).onMap (fun m => { m with top := 1 })) 0x20001000 2048).isSome = true
    ∧ granuleWaits copyOn ((0 : QIx).val, 0) (pkt (moveP 0x18 8)) 0 = false
    ∧ granuleWaits (fillOn 0x20) ((0 : QIx).val, 0) (pkt [(0, 0x19), (17, 0x10), (19, 0x20), (25, 8)]) 0 = false
    ∧ openAt waitingCopy 0 = true ∧ granuleWaits waitingCopy ((0 : QIx).val, 0) (pkt (moveP 0x18 8)) 0 = true := by decide +kernel

/-- A SPILL of two granules with its first extent open and `n` completions, and a RELOAD. -/
def spilling (n : Nat) : State :=
  { farBlock with
    cp := { base.cp with cmds := [cmdOf 0 [(0, 0x28), (11, 0x20), (21, 0x02), (25, 0x10)]
      (.engine { Eng.start 2 none with cur := some ⟨0, true, 0, 0, none⟩, cmps := if n = 0 then [] else [(0, n)] })] } }
def reloading : State :=
  { farBlock with
    cp := { base.cp with cmds := [cmdOf 0 reloadP (.engine (Eng.start 1 none))] }
    far := { farBlock.far with map := [⟨0, 0, 0, none⟩] } }

theorem witness_FarResponses : unitsRun farBlock = true ∧ (farBlock.ctx (ctxOf (0 : QIx))).mode = .active
    ∧ (∀ n ∈ [0, 31, 32], (((spilling n).cmd? ((0 : QIx).val, 0)).any (fun c => !c.ended && pOp c.pkt == 0x28 && c.eng?.any (fun e =>
        !e.halted && !e.isDone 0 && !e.isDone 1 && e.cur == some ⟨0, true, 0, 0, none⟩ && extentIdx (farGranule c.pkt 0) == 0
          && extentIdx (farGranule c.pkt 1) == 0 && decide (0 < e.granules) && decide (1 < e.granules)
          && aget e.cmps 0 == (if n = 0 then none else some n)))) = true)
    ∧ accessFault (spilling 32) 0x20000000 2048 = none
    ∧ (reloading.cmd? ((0 : QIx).val, 0)).any (fun c => !c.ended && pOp c.pkt == 0x29 && c.eng?.any (fun e =>
        !e.halted && e.nextGranule == some 0 && (aget e.cmps 0).getD 0 == 0 && (badByte reloading (farGranule c.pkt 0) 1).isNone
          && (farLost reloading (farGranule c.pkt 0) 2048).isNone && (reloading.mem.badLine false (farGranule c.pkt 0) 1).isNone)) = true
    ∧ (let s := reloading.onFar (fun f => { f with map := [⟨0, 0, 0, some 7⟩] }); farLost s 0x020000000000 2048 = some ⟨.farTierAbsent, 7⟩) := by
  decide +kernel

theorem witness_ModulesComeAndGo : vget base.far.modules (0 : PIx) = none
    ∧ vget farBlock.far.modules (0 : PIx) = some ⟨⟨7, 1, 0, 0, 0, 0⟩, 1⟩
    ∧ portWired (base.onBlk (fun b => { b with straps := 0xFC })) (0 : PIx) = true
    ∧ vget (base.onBlk (fun b => { b with straps := 0xFC })).far.modules (0 : PIx) = none
    ∧ (base.onBlk (fun b => { b with straps := 0xFC })).blk.mode = .ready
    ∧ (2 ^ 64 + 7) % 2 ^ 64 = (⟨⟨7, 1, 0, 0, 0, 0⟩, 1⟩ : Module).serial ∧ 9 % 2 ^ 64 ≠ (⟨⟨7, 1, 0, 0, 0, 0⟩, 1⟩ : Module).serial := by
  decide +kernel

/-- A data frame of one element, a frame of the reserved type, an END, an ACK up to 9, a SYNC request and a SYNC. -/
def dataFrame : List Byte := frameOf 0 1 0 3307115442 [(0, 1)]
def gradFrame : List Byte := frameOf 1 1 0 2894880016 [(0, 1)]
def endFrame : List Byte := frameOf 3 0 3 3053608318 [(0, 1)]
def ackFrame : List Byte := frameOf 3 0 1 137716645 [(0, 9)]
def requestFrame : List Byte := frameOf 3 0 1 2005701994 [(4, 0xFF), (5, 0xFF), (6, 0xFF), (7, 0xFF)]
def syncFrame : List Byte := frameOf 3 0 2 490654594 [(0, 7), (4, 3)]

theorem frames_sound : ∀ raw ∈ [dataFrame, gradFrame, endFrame, ackFrame, requestFrame, syncFrame], frameSound raw = true := by
  intro raw h
  simp only [List.mem_cons, List.not_mem_nil, or_false] at h
  obtain rfl | rfl | rfl | rfl | rfl | rfl := h <;> exact sound_of _ (by decide +kernel) (by decide +kernel)

theorem taken_of (s : State) (raw : List Byte) (h : raw ∈ [dataFrame, gradFrame, endFrame, ackFrame, requestFrame, syncFrame])
    (hs : xchRuns s = true ∧ noInbound s = false) : frameTaken s raw = true := by
  simp [frameTaken, hs.1, hs.2, frames_sound raw h]

/-- The small block whose hop from the network interface is in step from FSEQ 5 on. -/
def inStep : State := base.onRx 8 (fun r => { r with epoch := some 1, base := 5 })

/-- The same with every context DISABLED. -/
def offStep : State := { inStep with ctxs := Vector.replicate 16 Ctx.reset }

/-- The same with the share of context 0 full. -/
def fullShare : State := inStep.onHeld 0 (fun _ => List.replicate 253 ⟨0, List.replicate 4096 0, false⟩)

theorem witness_FramesArrive :
    frameTaken inStep dataFrame = true ∧ frameTaken base dataFrame = true ∧ frameTaken inStep gradFrame = true
    ∧ frameTaken inStep endFrame = true
    ∧ (let raw := dataFrame;
      hHop (hdrOf raw) = 8 ∧ hType (hdrOf raw) ≠ 3 ∧ (inStep.rxHop 8).epoch.isSome = true
        ∧ (hFseq (hdrOf raw) + 2 ^ 32 - (inStep.rxHop 8).base) % 2 ^ 32 < 4096 ∧ (inStep.rxHop 8).accepted.contains (hFseq (hdrOf raw)) = false
        ∧ rejectClause inStep (hdrOf raw) = none ∧ hCtx (hdrOf raw) = 0 ∧ shareBytes inStep 0 + 128 ≤ 0x100000
        ∧ (base.rxHop 8).epoch = none ∧ (base.rxHop 8).asked = false)
    ∧ hType (hdrOf gradFrame) ≠ 3 ∧ rejectClause inStep (hdrOf gradFrame) = some 4
    ∧ hHop (hdrOf endFrame) = 8 ∧ hType (hdrOf endFrame) = 3 ∧ hSub (hdrOf endFrame) = 3
    ∧ (inStep.rxHop 8).accepted.contains (hFseq (hdrOf endFrame)) = false ∧ rejectClause inStep (hdrOf endFrame) = none
    ∧ (rejectClause offStep (hdrOf endFrame)).isSome = true ∧ (offStep.rxHop 8).epoch.isSome = true ∧ xchRuns offStep = true
    ∧ noInbound offStep = false := by
  refine ⟨taken_of _ _ (by simp) (by decide +kernel), taken_of _ _ (by simp) (by decide +kernel),
    taken_of _ _ (by simp) (by decide +kernel), taken_of _ _ (by simp) (by decide +kernel), by decide +kernel⟩

/-- The clause of a full share. -/
theorem witness_FramesArrive_full : xchRuns fullShare = true ∧ noInbound fullShare = false
    ∧ rejectClause fullShare (hdrOf dataFrame) = none ∧ 0x100000 < shareBytes fullShare 0 + 128
    ∧ (fullShare.rxHop 8).epoch.isSome = true := by decide +kernel

theorem witness_FrameControl :
    (∀ raw ∈ [ackFrame, requestFrame, syncFrame], frameTaken inStep raw = true ∧ frameTaken offStep raw = true)
    ∧ (∀ x ∈ [(1, ackFrame), (1, requestFrame), (2, syncFrame)], hType (hdrOf x.2) = 3 ∧ hHop (hdrOf x.2) = 8
      ∧ rejectClause inStep (hdrOf x.2) = none ∧ (rejectClause offStep (hdrOf x.2)).isSome = true ∧ hSub (hdrOf x.2) = x.1)
    ∧ (inStep.txHop 8).syncOut = false ∧ leNat ((ackFrame.drop 64).take 8) < 2 ^ 32
    ∧ leNat ((requestFrame.drop 64).take 8) = 0xFFFFFFFF * 2 ^ 32
    ∧ (inStep.rxHop 8).epoch ≠ some (leNat ((syncFrame.drop 64).take 8) % 2 ^ 32) := by
  refine ⟨?_, by decide +kernel⟩
  intro raw h
  simp only [List.mem_cons, List.not_mem_nil, or_false] at h
  obtain rfl | rfl | rfl := h <;> exact ⟨taken_of _ _ (by simp) (by decide +kernel), taken_of _ _ (by simp) (by decide +kernel)⟩

/-- A hop with a frame resent `n` times. -/
def resent (n : Nat) : State := base.onTx 8 (fun t => { t with synced := true, buf := [⟨5, n, false, [], none, false⟩] })

theorem witness_HopTimers : xchRuns base = true
    ∧ (∀ n ∈ [3, 4], xchRuns (resent n) = true ∧ ((resent n).txHop (8 : HIx)).syncOut = false ∧ ((resent n).txHop (8 : HIx)).synced = true
      ∧ ((resent n).txHop (8 : HIx)).buf.find? (fun f => !f.sync && f.fseq == 5) = some ⟨5, n, false, [], none, false⟩)
    ∧ (let c := cmdOf 0 (recvP 0x21 ++ [(28, 1)]) (.frame ⟨4, 0, 0, 0, 0, 0, 0⟩);
      (flying [c]).cmd? ((0 : QIx).val, 0) = some c ∧ c.ended = false ∧ pOp c.pkt = 0x21 ∧ frTimeout c.pkt ≠ 0
        ∧ ((flying [c]).ctx (ctxOf (0 : QIx))).mode = .active ∧ xchRuns (flying [c]) = true) := by decide +kernel

/-- The small block with a SIGNAL's write, or a SERVICE_CMD image read, out on the host port. -/
def outWrite : State :=
  (flying [cmdOf 0 (signalP 0 0x10) (.signal 0x100020000000)]).onPort (fun x => { x with
    hout := [⟨some (0, 0), 0x100020000000, true, [], 8⟩] })
def outRead : State := base.onPort (fun x => { x with hout := [⟨none, 0x100000000000, false, [], 512⟩] })

theorem witness_HostPort : hostAway base = false ∧ hostAway (inPower .idle none) = true
    ∧ (∀ x ∈ [(0x20000000, 32), (0x200007C0, 1)], 1 ≤ x.2 ∧ x.2 ≤ 32 ∧ x.1 < 2 ^ 48 ∧ x.1 % 2048 + 64 * x.2 ≤ 2048
      ∧ hostRange base x.1 (64 * x.2) false = true ∧ hostRange base x.1 (64 * x.2) true = true ∧ readFault base x.1 (64 * x.2) = none)
    ∧ hostRange base 0x020000000000 64 false = false ∧ 2048 < 0x200007C1 % 2048 + 64 * 1
    ∧ outWrite.port.hout.find? (OutReq.of (.command (0 : QIx) 0)) = some ⟨some (0, 0), 0x100020000000, true, [], 8⟩
    ∧ outWrite.cmd? ((0 : QIx).val, 0) = some (cmdOf 0 (signalP 0 0x10) (.signal 0x100020000000))
    ∧ outRead.port.hout.find? (OutReq.of .service) = some ⟨none, 0x100000000000, false, [], 512⟩
    ∧ (List.replicate 512 (0 : Byte)).length = 512 ∧ ([] : List Byte).length ≠ 512
    ∧ base.port.hout.find? (OutReq.of .service) = none := by decide +kernel

/-! Stacks, the keeper and grades. -/

/-- The small block with parity and eight channels mapped out at most, TOP and U as one stack row. -/
def parityOn : State := base.onMap (fun m => { m with parity := true })

theorem witness_StackErrors : blkRuns parityOn = true ∧ blkRuns base = true
    ∧ stackServes parityOn (0 : SIx) = true ∧ (parityOn.stack (0 : SIx)).lost.contains (0 : Fin 32).val = false
    ∧ ((parityOn.stack (0 : SIx)).retries.filter (fun r => r.1 == (0 : Fin 32).val
        && decide (parityOn.kpr.sample < r.2 + 100))).length < 15
    ∧ 1 ≤ 4 ∧ ((parityOn.stack (0 : SIx)).lostAt.filter (fun t => decide (parityOn.kpr.sample ≤ t + 1))).length < 31
    ∧ parityOn.map.parity = true ∧ parityOn.map.outs.length < 8 ∧ base.map.parity = false ∧ stackServes base (0 : SIx) = true
    ∧ rebuilding base = false ∧ base.map.slots ≠ 0 := by decide +kernel

/-- The slot of byte 0x20000000, and a block with a channel mapped out and a rebuild under way. -/
def rebuildOn : State :=
  base.onMap (fun m => { m with parity := true, outs := [⟨3, 4, 0x800000, [], 0, [], false⟩], rebuilds := true })

theorem witness_StackErrors_uncorrectable : ∀ s ∈ [parityOn, base], ∃ (x : SIx) (c : Fin 32),
    touchedSlot s x c (0x20000000 / 2048) = some (place s.map (0x20000000 / 2048)).slot
    ∧ granuleOf s.map (place s.map (0x20000000 / 2048)).slot (chanMember s.map.profile x c).1 (chanMember s.map.profile x c).2
      = some (0x20000000 / 2048)
    ∧ regionOf 0x20000000 = .near ∧ badByte s 0x20000000 1 = none ∧ stackServes s x = true ∧ (s.stack x).lost.contains c.val = false
    ∧ ((members s.map (chanMember s.map.profile x c).1).all (fun y => y == (x.val, c.val)
      || memberReadable s y (place s.map (0x20000000 / 2048)).slot)) = true := by
  intro s h
  rcases List.mem_cons.mp h with rfl | h
  · exact ⟨2, 7, by decide +kernel⟩
  · rcases List.mem_singleton.mp h with rfl
    exact ⟨0, 0, by decide +kernel⟩

theorem witness_StackErrors_rebuild : blkRuns rebuildOn = true ∧ rebuildOn.map.rebuilds = true
    ∧ rebuildOn.map.outs.find? (fun o => !o.rebuilt) = some ⟨3, 4, 0x800000, [], 0, [], false⟩
    ∧ rebuildWaits rebuildOn ⟨3, 4, 0x800000, [], 0, [], false⟩ = false
    ∧ ((otherMembers rebuildOn ⟨3, 4, 0x800000, [], 0, [], false⟩).all (fun y =>
      (rebuildOn.stack y.1).fence != .dead && !(rebuildOn.stack y.1).lost.contains y.2)) = true
    ∧ rebuildWaits { rebuildOn with stks := vall rebuildOn.stks (fun k => { k with fence := .fenced }) }
      ⟨3, 4, 0x800000, [], 0, [], false⟩ = true := by decide +kernel

/-- The small block with stack 0 at a level, a fence state and a count of cool samples. -/
def stackAt (l : SLevel) (f : Fence) (cool : Nat) : State :=
  base.onStack 0 (fun k => { k with level := l, fence := f, cool := cool })

/-- Parity on, stack 0 in phase 2 of its return, a byte of it parked. -/
def returning : State :=
  ((stackAt .warm .return2 0).onMap (fun m => { m with parity := true, fenced := [0] })).onMem (fun m => { m with
    dirty := cells [(0x20000000, 5)], parked := [lineOf 0x20000000] })

theorem witness_StackFences : ((stackAt .hot .fencing 0).stack (0 : SIx)).fence = .fencing
    ∧ ((stackAt .hot .refencing 0).stack (0 : SIx)).fence = .refencing
    ∧ (∃ x : SIx, lineStack returning (lineOf 0x20000000) = x.val) ∧ returning.sound
    ∧ returning.mem.parked.contains (lineOf 0x20000000) = true
    ∧ ((stackAt .hot .fencing 99).stack (0 : SIx)).cool < 100
    ∧ (∀ l ∈ [SLevel.critical, .warm, .hot], 100 ≤ ((stackAt l .fenced 100).stack (0 : SIx)).cool
      ∧ ((stackAt l .fenced 100).stack (0 : SIx)).level = l ∧ ((stackAt l .fenced 100).stack (0 : SIx)).fence = .fenced)
    ∧ (stackAt .hot .fenced 100).map.parity = false
    ∧ ((stackAt .hot .fenced 100).onMap (fun m => { m with parity := true })).map.parity = true
    ∧ (∀ f ∈ [Fence.return1, .return2], blkRuns (stackAt .warm f 0) = true ∧ ((stackAt .warm f 0).stack (0 : SIx)).fence = f) :=
  ⟨by decide +kernel, by decide +kernel, by decide +kernel, by show _ = true; decide +kernel, by decide +kernel⟩

/-- A keeper sample with every thermal reading 106 °C. -/
def hotSample : Sample := { (default : Sample) with thermal := List.replicate 96 106 }

theorem witness_KeeperRules : base.start.stage ≠ 0 ∧ hotSample.chipAlarm = false
    ∧ 105 ≤ (after (exec (.keeperSample hotSample) base)).kpr.tHot
    ∧ (base.onKpr (fun k => { k with vTarget := 0xAA })).kpr.vReq < (base.onKpr (fun k => { k with vTarget := 0xAA })).kpr.vTarget
    ∧ base.kpr.vTarget ≤ base.kpr.vReq
    ∧ 150000 ≤ ((base.onKin (fun k => { k with cont := 150000 })).onKpr (fun k => { k with sprintOn := true })).kin.cont
    ∧ ((base.onKin (fun k => { k with cont := 150000 })).onKpr (fun k => { k with sprintOn := true })).kpr.sprintOn = true
    ∧ 3 ≤ (base.onKin (fun k => { k with lowV := 3 })).kin.lowV ∧ (base.onKin (fun k => { k with lowV := 3 })).kin.vFault = false
    ∧ base.kin.sensors[(95 : Fin 96).val]? = some (none, 0, false) ∧ blkRuns base = true ∧ base.kpr.sample % 100 = 0
    ∧ base.kpr.sample % 1000 = 0 ∧ 2 < base.start.stage ∧ base.pwr.state = .active := by decide +kernel

theorem witness_GradesAndScrubs : arraysPowered base = true ∧ (base.core (7 : KIx)).inService = true ∧ coreWorks base (7 : KIx) = false
    ∧ (base.core (7 : KIx)).holding = false ∧ ((base.onCore 7 (fun c => { c with holding := true })).core (7 : KIx)).holding = true
    ∧ blkRuns base = true ∧ base.kpr.vminTrim < 10 ∧ 10 ≤ (base.onKpr (fun k => { k with vminTrim := 10 })).kpr.vminTrim
    ∧ unitsRun base = true ∧ (base.core (7 : KIx)).scrub / 256 = (0 : Fin 32).val ∧ (base.core (7 : KIx)).scrub / 256 ≠ (1 : Fin 32).val := by
  decide +kernel

/-! Units. -/

/-- The MATMUL on the arrays, with NEXT and LIMIT; its run is written once LIMIT is 1. -/
def matCmd (kind : UnitKind) (next limit : Nat) : Cmd :=
  cmdOf 0 (compP 0x10 0 [(12, 9)]) (.compute { unitComp kind with
    recNo := some 0, published := true, next := next, limit := limit, runs := [{ unitRun with written := decide (limit = 1) }] })

/-- The small block with it in flight. -/
def matOn (kind : UnitKind) (next limit : Nat) : State := flying [matCmd kind next limit]

/-- The claim of that command on array 0: one weight row, one vector, with what is left of its walk. -/
def loadOp : LoadOp := { buf := (0, 0), f := 0, k0 := 0, klen := 1, n0 := 0, n1 := 1, wj := 0, row := 0, rows := 1 }
def vecOp : VecOp :=
  { buf := 0, f := 0, m := 0, k0 := 0, klen := 1, n0 := 0, n1 := 1, ai := 0, wj := 0, slot := 0, tile := 0, write := true,
    firstPass := true, last := true, kb := 1 }
def claimOn (todo : List WalkOp) : Claim :=
  { seed := ⟨(0, 0), 0, .draw⟩, todo := todo, begun := [], tileCounts := [Counts.zero], tileSlots := [0], slots := [0], steps := 0, started := false }

/-- The claim on array 0 with the operand bytes staged: elements 1.0 of E4M3, scales 2^0. -/
def arrayOn (todo : List WalkOp) : State :=
  ((matOn .array 1 1).onArray 0 (fun a => { a with
    claim := some (claimOn todo)
    stage := { StageSt.empty with
      weights := [⟨(0, 0), cells [(0x21000000, 0x38), (0x23000000, 127)], 0⟩]
      acts := [⟨0, cells [(0x20000000, 0x38), (0x22000000, 127)], 0⟩] } })).onCore 0 (fun c =>
      { c with binds := [⟨0, 0, (0, 0), 0⟩] })
def vecReady : State := after (exec (.feederVectorRead 0 none) (arrayOn [.vec vecOp]))

/-- The same command on thin half 0, its row and weights fetched. -/
def thinOn : State := (matOn .thin 1 1).onHalf 0 (fun h => { h with claim := some ⟨⟨(0, 0), 0, .draw⟩, 0, 0, 0, 0, Counts.zero⟩ })
def thinReady : State := after (exec (.thinFetchArrival 0 (.weights 0)) (after (exec (.thinFetchArrival 0 (.store 0)) thinOn)))

/-- The drain of the thin half, its row not yet read or all read. -/
def drainOf (src : DSrc) (row : Nat) : Drain :=
  { seed := ⟨(0, 0), 0, .draw⟩, tile := 0, src := src, sweep := .plain, row := row, rows := 1, sum := 0, counts := Counts.zero,
    staged := [], complete := decide (row = 1), fed := [], stats := [] }
def drainOn (row : Nat) : State :=
  ((matOn .thin 1 1).onHalf 0 (fun h => { h with drains := [drainOf (.thin 0) row] })).onComp (0, 0) (fun c => { c with
    runs := c.runs.map (fun r => { r with entries := r.entries.map (fun e => { e with state := .claimed, copies := 1 }) }) })

theorem witness_UnitsTakeWork :
    (∀ x ∈ [(0, 0), (0, 1), (1, 1)], unitFree (matOn .array x.1 x.2) (0 : UIx) = true ∧ readyPaused (matOn .array x.1 x.2) (0 : UIx) = none
      ∧ (matOn .array x.1 x.2).mailOf (0 : UIx) = none ∧ (matOn .array x.1 x.2).holdOf (0 : UIx) = none
      ∧ (matOn .array x.1 x.2).placeFor (0 : UIx) = none
      ∧ (let v := (matOn .array x.1 x.2).elect (coreOfUnit (0 : UIx));
        chooseCtx v (v.core (coreOfUnit (0 : UIx))).v (eligibles v (0 : UIx)) = some 0
          ∧ topCmd v (0 : UIx) 0 = some (matCmd .array x.1 x.2))
      ∧ (matOn .array x.1 x.2).cmd? (0, 0) = some (matCmd .array x.1 x.2))
    ∧ (let s := (matOn .array 0 1).onComp (0, 0) (fun c => { c with stop := true }); let v := s.elect (coreOfUnit (0 : UIx));
      chooseCtx v (v.core (coreOfUnit (0 : UIx))).v (eligibles v (0 : UIx)) = some 0 ∧ unitFree s (0 : UIx) = true
        ∧ (topCmd v (0 : UIx) 0).any (fun c => s.cmd? c.key == some c && c.comp?.any (·.stop)) = true)
    ∧ (matCmd .array 0 0).comp?.any (fun c => !c.stop && decide (c.limit ≤ c.next) && decide (c.next < c.stageCount)) = true
    ∧ (matCmd .array 0 1).comp?.any (fun c => !c.stop && decide (c.next < c.limit) && decide (c.next < c.runs.length)) = true
    ∧ (matCmd .array 1 1).comp?.any (fun c => !c.stop && decide (c.limit ≤ c.next) && decide (c.stageCount ≤ c.next)) = true
    ∧ (let s := (matOn .array 1 1).onArray 0 (fun a => { a with hold := some ((0, 0), 0) });
      unitFree s (0 : UIx) = true ∧ s.holdOf (0 : UIx) = some ((0, 0), 0) ∧ (s.comp? (0, 0)).any (fun c =>
        !c.stop && decide (0 < c.limit) && slotsFree s (0 : UIx) (ctxOf 0) c.desc) = true)
    ∧ (let s := (matOn .array 1 1).onArray 0 (fun a => { a with mailbox := some ⟨(0, 0), 0, .recovery⟩ });
      unitFree s (0 : UIx) = true ∧ s.mailOf (0 : UIx) = some ⟨(0, 0), 0, .recovery⟩ ∧ mailFits s (0 : UIx) ⟨(0, 0), 0, .recovery⟩ = true)
    ∧ (let s := (matOn .array 1 1).onCp (fun x => { x with unplaced := [⟨(0, 0), 0, .recovery⟩] });
      s.mailOf (0 : UIx) = none ∧ s.placeFor (0 : UIx) = some ⟨(0, 0), 0, .recovery⟩)
    ∧ (let s := ((arrayOn [.vec vecOp]).onComp (0, 0) (fun c => { c with exhausted := true })).onArray 4 (fun a => { a with
        noDraw := [(0, 0)] });
      unitFree s (4 : UIx) = true ∧ s.cp.paused = false ∧ s.start.skeleton = false ∧ s.mailOf (4 : UIx) = none
        ∧ s.holdOf (4 : UIx) = none ∧ specChoice s (4 : AIx) = some ((0, 0), 0)) := by decide +kernel

theorem witness_DataArrives :
    (let s := arrayOn [.load loadOp, .vec vecOp]; let c := { unitComp .array with runs := [{ unitRun with written := true }] };
      s.lives (0, 0) = true ∧ (s.claimCmd ⟨(0, 0), 0, .draw⟩).isSome = true ∧ arrayRuns s (0 : AIx) = true
        ∧ (s.array (0 : AIx)).claim = some (claimOn [.load loadOp, .vec vecOp])
        ∧ neededHull (c.needs (matCmd .array 1 1).pkt (s.array (0 : AIx)) (claimOn [.load loadOp, .vec vecOp]) .weight) 0x21000000 128
          = some (0x21000000, 1)
        ∧ neededHull (c.needs (matCmd .array 1 1).pkt (s.array (0 : AIx)) (claimOn [.load loadOp, .vec vecOp]) .weight) 0x25000000 128
          = none
        ∧ accessFault s 0x21000000 1 = none
        ∧ (accessFault (s.onMap (fun m => { m with top := 1 })) 0x21000000 1).isSome = true
        ∧ (vecsLeft (claimOn [.load loadOp, .vec vecOp]) 0).head? = some vecOp
        ∧ (c.deliver (s.array (0 : AIx)).stage (matCmd .array 1 1).pkt vecOp).isSome = true)
    ∧ (let s := thinOn;
      s.lives (0, 0) = true ∧ (s.claimCmd ⟨(0, 0), 0, .draw⟩).isSome = true ∧ unitsRun s = true
        ∧ (s.comp? (0, 0)).any (fun c => (c.thinRows 0x10 (c.thinTile 0)).contains 0
          && (spansFault s (c.storeSpans (matCmd .thin 1 1).pkt (c.thinTile 0).f 0)).isNone
          && (c.storeRow (memRd s) (matCmd .thin 1 1).pkt (c.thinTile 0).f 0).isSome
          && (spansFault s (c.weightSpans (matCmd .thin 1 1).pkt (c.thinTile 0) 0)).isNone
          && (allSome ((c.thinCols (c.thinTile 0)).map (c.weightCol (memRd s) (matCmd .thin 1 1).pkt (c.thinTile 0).f 0))).isSome) = true) := by
  decide +kernel

/-- The command on the thin half with one chain operation that adds an element of extra input stream 0. -/
def fedP : List (Nat × Nat) := compP 0x10 3 [(12, 9), (13, 0x10), (128, 1), (129, 0x10), (163, 0x28), (166, 0x40)]
def fedOn : State :=
  (flying [cmdOf 0 fedP (.compute { unitComp .thin with
    recNo := some 0, published := true, next := 1, limit := 1, runs := [{ unitRun with written := true }] })]).onHalf 0 (fun h =>
      { h with drains := [drainOf (.thin 0) 0] })

theorem witness_DataArrives_streams : fedOn.lives (0, 0) = true ∧ fedOn.drainsOf (32 : UIx) = [drainOf (.thin 0) 0] ∧ unitsRun fedOn = true
    ∧ (drainOf (.thin 0) 0).complete = false ∧ (drainOf (.thin 0) 0).fed = [] ∧ (streamsUsed (pkt fedP)).contains (0 : Fin 3).val = true
    ∧ (fedOn.claimCmd ⟨(0, 0), 0, .draw⟩).any (fun x => x.1.pkt == pkt fedP
      && (spansFault fedOn (x.2.feedSpans x.1.pkt 0 (x.2.drainTile (drainOf (.thin 0) 0)) 0)).isNone) = true := by decide +kernel

theorem witness_StepsAccumulate :
    arrayRuns base (0 : AIx) = true ∧ base.kpr.gradeCap ≠ 0 ∧ (base.array (0 : AIx)).claim = none
    ∧ (base.core ((0 : AIx) / 4)).grade = 0 ∧ ((base.onCore 0 (fun c => { c with grade := 3 })).core ((0 : AIx) / 4)).grade ≠ 0
    ∧ (let s := arrayOn [.load loadOp, .vec vecOp];
      arrayRuns s (0 : AIx) = true ∧ (s.claimCmd ⟨(0, 0), 0, .draw⟩).isSome = true ∧ s.lives (0, 0) = true
        ∧ (s.comp? (0, 0)).any (fun c => (c.loadStep (s.array (0 : AIx)) (matCmd .array 1 1).pkt loadOp).isSome) = true)
    ∧ (let s := vecReady;
      ((s.array (0 : AIx)).vecs.find? (fun y => y.op == vecOp)).any (fun vec =>
          let x := (s.array (0 : AIx)).latch vec none
          wardFault (fmtD (cFmtA (matCmd .array 1 1).pkt)) x (stepBlocks x vec) none == none) = true
        ∧ drainPending s (0 : AIx) vecOp.slot 0 = false ∧ s.lives (0, 0) = true)
    ∧ (let s := thinReady;
      (s.half (0 : Fin 16)).claim = some ⟨⟨(0, 0), 0, .draw⟩, 0, 0, 0, 0, Counts.zero⟩ ∧ s.lives (0, 0) = true ∧ unitsRun s = true
        ∧ (s.core 0).thinIn = true ∧ (s.half (0 : Fin 16)).wBlock = some 0
        ∧ ((s.half (0 : Fin 16)).store.find? (fun r => r.idx == 0)).any (fun row => thinDiff (pairFmt (fmtD 0) (fmtD 0))
            (storeAt (pairFmt (fmtD 0) (fmtD 0)) row 0 1 0).1 (s.half (0 : Fin 16)).weights 0 none == 0) = true
        ∧ (cPasses (matCmd .thin 1 1).pkt).getD 0 (0, 0) = (0, 0)) := by decide +kernel

theorem witness_DrainsFinish : unitsRun (drainOn 0) = true ∧ ((drainOn 0).core (0 : KIx)).inService = true
    ∧ nextGrant (drainOn 0) (0 : KIx) = some (32, drainOf (.thin 0) 0)
    ∧ ((drainOn 0).claimCmd ⟨(0, 0), 0, .draw⟩).any (fun x =>
        (spansFault (drainOn 0) (x.2.rowSpans x.1.pkt (.thin 0) (x.2.drainTile (drainOf (.thin 0) 0)) 0)).isNone
          && (rowFault (drainOn 0) (x.2.grantRow (drainOn 0) 32 x.1 (drainOf (.thin 0) 0))).isNone) = true
    ∧ (∀ x ∈ (drainOn 0).cp.cmds, pOp x.pkt ≠ 0x30)
    ∧ ((drainOn 1).drainsOf (32 : UIx)).find? (·.complete) = some (drainOf (.thin 0) 1)
    ∧ ((drainOn 1).cmd? (0, 0)).any (fun cmd => cmd.comp?.any (fun c => decide (c.phase ≠ 1) && ((c.run? 0).bind (fun r =>
        r.entries[0]?)).any (fun e => e.state == .claimed))) = true
    ∧ ((drainOn 1).ctx (ctxOf 0)).mode = .active := by decide +kernel

theorem witness_FaultsContained : base.cp.running = 2 ∧ base.cp.paused = false ∧ blkRuns base = true
    ∧ (base.onCp (fun c => { c with spare := true })).cp.spare = true
    ∧ (base.onCp (fun c => { c with paused := true })).cp.paused = true ∧ 1 ≤ base.cp.running
    ∧ (base.onCp (fun c => { c with testing := 2 })).cp.testing = 2
    ∧ (base.onCp (fun c => { c with testing := 2, running := 0 })).cp.running + bit false + bit false = 0
    ∧ unitsRun base = true ∧ (base.core (0 : KIx)).inService = true
    ∧ arrayReady (vecReady.onArray 0 (fun a => { a with claim := some (claimOn [.vec vecOp]) })) (4 * (0 : KIx) + (0 : Fin 7)) = true
    ∧ sequencerReady (matOn .array 0 1) 0 = true ∧ 0 ∈ coreUnits (0 : KIx)
    ∧ fusionReady (drainOn 0) (0 : KIx) = true ∧ halfReady thinReady (2 * (0 : KIx)) = true
    ∧ stallSubject base (0 : KIx) (0 : Fin 7) = []
    ∧ ((base.onArray 0 (fun a => { a with diag := true })).array (0 : AIx)).diag = true ∧ arraysPowered base = true
    ∧ 120 ≤ base.kpr.vReq ∧ badRead.value ≠ diagExpect badRead ∧ { badRead with value := 1 }.value = diagExpect { badRead with value := 1 }
    ∧ repairOf base (0 : AIx) (diagFinding [badRead]) = (1, [mkRepair 0 1 3]) ∧ base.blk.repair.length + 1 ≤ 64 := by decide +kernel

/-- The expected partials of a diagnostic pass (R124's table) are what the datapath of a work step forms, in row 5 and its group. -/
theorem test_diag_expect : ∀ ph : Fin 5, ∀ col ∈ [(0 : Fin 257), 1, 256],
    diagExpect ⟨ph, 5, 0, false, col, 0⟩ = diagSound ⟨ph, 5, 0, false, col, 0⟩ := by decide +kernel

/-- The small block with TEST_EN 1 and RESET_N low. -/
def underTest : State := (base.onPort (fun p => { p with testEn := true })).onStart (fun x => { x with resetLow := true })

theorem witness_TestAccess : underTest.port.testEn = true ∧ underTest.start.resetLow = true ∧ base.port.testEn = false
    ∧ base.start.resetLow = false := by decide +kernel

/-! The statements about every step. -/

/-- A step that goes on: the NOP of queue 0, from a sound state with BLK_SERIAL's first bit programmed. -/
theorem witness_Steps : (sent [(0, 0x01)]).sound ∧ bitOf (sent [(0, 0x01)]).blk.fuse 512 = true
    ∧ (∃ t, step { sent [(0, 0x01)] with pending := [.nop 0] } = .next t)
    ∧ (∃ t, exec (.nop 0) (sent [(0, 0x01)]) = .next t) ∧ base.pending = [] :=
  ⟨by show _ = true; decide +kernel, by decide +kernel, ⟨_, rfl⟩, ⟨_, rfl⟩, rfl⟩

theorem witness_LongWordCodes : (LW.mk .nan 5).cls ≠ .finite
    ∧ bitsOf (3 * 2 ^ 126 + 9) 127 126 ≠ 0 ∧ bitsOf (3 * 2 ^ 126 + 9) 127 126 = bitsOf (3 * 2 ^ 126) 127 126 := by decide +kernel

theorem witness_RecordsRaise : (∃ r : Rec, r.action = 7) ∧ (∃ r : Rec, r.action = 0 ∧ r.event = 0x1A)
    ∧ ∃ r : Rec, ¬ (r.action = 1 ∨ r.action = 4 ∨ r.action = 5 ∨ r.action = 6 ∨ r.action = 7 ∨ r.event = 0x20 ∨ r.event = 0x1A
      ∨ r.event = 0x13) :=
  ⟨⟨{ event := 0x01, action := 7 }, rfl⟩, ⟨{ event := 0x1A, action := 0 }, rfl, rfl⟩, ⟨{ event := 0x10, action := 0 }, by decide⟩⟩

/-! Small runs and values, with results from the spec's examples and tables. -/

/-- The worked product of 03_result_contract: E4M3 0xB3 is −352 on its grid, E2M1 0x5 is 6. -/
theorem test_grid : (deliverMx .e4m3 0xB3).grid = -352 ∧ (deliverMx .e2m1 0x5).grid = 6 := by decide +kernel

/-- The long-word examples of R47. -/
theorem test_long_words : lwBytes ⟨.finite, BitVec.ofInt 126 (-3)⟩ = 0xFD#8 :: (List.replicate 14 0xFF#8 ++ [0x3F#8])
    ∧ lwBytes ⟨.nan, 5⟩ = List.replicate 15 0#8 ++ [0xC0#8] := by decide +kernel

/-- The GRAD16 example of 02_element_formats: −3 × 2^−8 under the agreed scale 0x7A is 0xE800. -/
theorem test_grad16 : gradCode (-8) 0x7A (2 ^ 126 - 3) = 0xE800 := by decide +kernel

/-- The WARD_FAIL record of the worked example in 18_fault_handling. -/
theorem test_record : recWord 0x1A2C 0x000451E0
    { event := 0x01, action := 1, kind := 1, unit := 22, ctx := some 1, ticket := some 0x0203, d0 := 0x40000 }
    = 0x0161010100001A2C + 0x000451E000020331 * 2 ^ 64 + 0x40000 * 2 ^ 128 := by decide +kernel

/-- Context 2 enabled with a value, a ring given to queue 8 and its doorbell rung. -/
def rungOn : State :=
  after (exec (.qDoorbellWrite 8 1) (after (exec (.enable 2 0x403E004010040001#64) (after (exec (.qBaseWrite 8 0x00000E000009#64)
    ({ base with ctxs := Vector.replicate 16 Ctx.reset }))))))

/-- The worked example of 21_boundary_registers: Q_BASE[8], CTX_CTRL[2] and the doorbell. -/
theorem test_enable_and_ring :
    (((rungOn.queue 8).log, replyAddr (rungOn.queue 8) 0, (rungOn.queue 8).tail) = (9, 0x00000E040000, 1))
      ∧ (((rungOn.ctx 2).mode, (rungOn.ctx 2).wCount, (rungOn.ctx 2).share) = (.active, 32, 0x10))
      ∧ (((rungOn.ctx 2).quota, (rungOn.ctx 2).bwRate, (rungOn.ctx 2).bwBurst) = (0x040, 62, 16))
      ∧ regRead rungOn (0x9000 + 0x40) = 1 := by decide +kernel

/-- The reply of an unlisted opcode (R276, R285): SEQ 0, STATUS 0x31, OPCODE 0x7F. -/
theorem test_unknown_opcode : (after (exec (.unknownOpcode 0) (sent [(0, 0x7F)]))).readNat 0x10002000 8 = 0x7F3100000000 := by
  decide +kernel

/-- A NOP's reply: SEQ 0, STATUS 0x00, OPCODE 0x01; HEAD has moved (R270, R285). -/
theorem test_nop : (let t := after (exec (.nop 0) (sent [(0, 0x01)])); (t.readNat 0x10002000 8, (t.queue 0).head)) = (0x010000000000, 1) := by
  decide +kernel

/-- A SIGNAL with OP ADD to a word that holds 2^64 − 1 wraps (R305). -/
theorem test_signal_wraps :
    (after (exec (.signal 0) (sentOn base [] (signalP 1 0) ((rangeFrom 0 8).map (fun i => (0x20000000 + i, 0xFF)))))).readNat 0x20000000 8 = 8 := by
  decide +kernel

/-- 1.0 × 1.0 in E4M3 under scales 2^0 and anchor 0 accumulates 1 in column 0 of its slot row, and the other columns hold 0 (R60, R112). -/
theorem test_array_product :
    (let t := after (exec (.arrayStep 0 none) (after (exec (.feederVectorRead 0 none)
        (after (exec (.arrayStep 0 none) (arrayOn [.load loadOp, .vec vecOp])))))); (t.tun, (t.array 0).claim, (t.array 0).drains.length))
    = ([⟨0, 0, 0, 0, ⟨.finite, 1⟩⟩], none, 1) := by decide +kernel

/-- A host write to the block region outside the descriptor table is answered RANGE (R455, R471); to the table it is taken. -/
theorem test_host_range : hostRange base 0x0C080000 64 true = false ∧ hostRange base 0x0C000000 64 true = true
    ∧ hostRange base 0x0C080000 64 false = true := by decide +kernel

/-- KPR_LIMITS at reset reads 700, 100, 0x96 and 0xAA in their places (R426); KPR_STATUS reads V_REQ 0x96 and GRADE_CAP 8. -/
theorem test_keeper_registers : regRead State.reset 0x108 = 700 + 100 * 2 ^ 10 + 0x96 * 2 ^ 24 + 0xAA * 2 ^ 32
    ∧ bitsOf (regRead State.reset 0x100) 7 0 = 0x96 := by decide +kernel

/-- BLK_ID reads PART 0x0C8A, REV 1 and ROM_VER 0x0100 (R474). -/
theorem test_blk_id : bitsOf (regRead base 0x00) 15 0 = 0x0C8A := by decide +kernel

/-- The step takes the first command waiting and leaves the rest (the model's queue). -/
theorem test_step_order : (after (step { sent [(0, 0x01)] with pending := [.nop 0, .fuseRead] })).pending = [.fuseRead] := by decide +kernel

end Sys2Proof.Tests
end

section
/-! SUPPORT. A store of a number (R4, R267). -/
namespace Sys2Proof.Machine

/-- Settles O8: the bytes written are the number's, the parked lines change no byte that is read, and a store evolves memory
alone. -/
theorem storeReadsBack : Obligations.StoreReadsBack := by
  intro s a w n
  have outside := s.store_outside a (natLe w n)
  rw [length_natLe] at outside
  exact ⟨s.store_readNat a w n, outside, (s.store_ev a (natLe w n)).frame⟩

end Sys2Proof.Machine
end

section
/-! SUPPORT. Frames that arrive (R364-R368): what a hop makes of a numbered frame, and what judging a frame comes to. -/
namespace Sys2Proof.Machine

/-! The hops: what acknowledging and accepting leave of the held frames and of the other hops. -/

/-- From `s` to `t` no held frame changes, and no receiving hop but `h`. -/
structure State.onlyHop (h : Nat) (s t : State) : Prop where
  held : t.xch.held = s.xch.held
  others : ∀ i, i ≠ h → t.rxHop i = s.rxHop i

theorem State.onlyHop.refl (h : Nat) (s : State) : s.onlyHop h s := ⟨rfl, fun _ _ => rfl⟩

theorem State.onlyHop.trans {h : Nat} {s t u : State} (h₁ : State.onlyHop h s t) (h₂ : State.onlyHop h t u) :
    State.onlyHop h s u :=
  ⟨h₂.held.trans h₁.held, fun i hi => (h₂.others i hi).trans (h₁.others i hi)⟩

theorem State.onRx_onlyHop (s : State) (h : Nat) (f : RxHop → RxHop) : State.onlyHop h s (s.onRx h f) :=
  ⟨rfl, fun i hi => vget_vmod_other s.xch.rx h i f hi⟩

theorem State.sendAck_onlyHop (s : State) (h d n : Nat) (b : Bool) : State.onlyHop h s (s.sendAck d n b) :=
  ⟨rfl, fun _ _ => rfl⟩

theorem State.ackHop_onlyHop (s : State) (h : Nat) : State.onlyHop h s (s.ackHop h) :=
  (s.sendAck_onlyHop h ..).trans (State.onRx_onlyHop ..)

theorem State.ackIfDue_onlyHop (s : State) (h : Nat) : State.onlyHop h s (s.ackIfDue h) := by
  unfold State.ackIfDue
  split
  · exact s.ackHop_onlyHop h
  · exact .refl h s

/-- A numbered frame touches its own hop only, and no held frame but by what judges it. -/
theorem State.atHop_onlyHop (s : State) (h n : Nat) {f : State → State} (hf : ∀ u, State.onlyHop h u (f u)) :
    State.onlyHop h s (s.atHop h n f) := by
  unfold State.atHop
  dsimp only
  split
  · exact .refl h s
  split
  · split
    · exact .refl h s
    · exact (s.sendAck_onlyHop h ..).trans (State.onRx_onlyHop ..)
  split
  · split
    · exact (s.onRx_onlyHop ..).trans (State.ackIfDue_onlyHop ..)
    · exact .refl h s
  · exact ((s.onRx_onlyHop ..).trans (hf _)).trans (State.ackIfDue_onlyHop ..)

/-- A new FSEQ in the window of a hop with an epoch is accepted, and the frame judged (R364). -/
theorem State.atHop_new (s : State) {h n : Nat} (f : State → State) (hh : h ≤ 8) (he : (s.rxHop h).epoch.isSome)
    (hw : (n + 2 ^ 32 - (s.rxHop h).base) % 2 ^ 32 < 4096) (hn : (s.rxHop h).accepted.contains n = false) :
    s.atHop h n f = (f (s.onRx h (·.accept n))).ackIfDue h := by
  have hnone : (s.rxHop h).epoch.isNone = false := by simpa using he
  unfold State.atHop
  dsimp only
  rw [if_neg (Nat.not_lt.mpr hh), hnone, if_neg Bool.false_ne_true, hn, if_neg (by simpa using hw)]

/-- A hop without an epoch that has not asked yet asks for a SYNC (R365). -/
theorem State.atHop_asks (s : State) {h : Nat} (n : Nat) (f : State → State) (hh : h ≤ 8) (he : (s.rxHop h).epoch = none)
    (ha : (s.rxHop h).asked = false) :
    s.atHop h n f = (s.sendAck h 0 true).onRx h (fun r => { r with asked := true }) := by
  unfold State.atHop
  dsimp only
  rw [if_neg (Nat.not_lt.mpr hh), he, ha]
  rfl

/-! Judging: the clauses of R366 do not look at the receiving hops. -/

@[simp] theorem rejectClause_onRx (s : State) (h : Nat) (f : RxHop → RxHop) (x : Nat) :
    rejectClause (s.onRx h f) x = rejectClause s x := rfl

theorem State.judgeFrame_of_none {s : State} {h : Nat} (hr : rejectClause s h = none) (p : List Byte) :
    s.judgeFrame h p = s.holdFrame h p := by
  unfold State.judgeFrame; rw [hr]

theorem State.judgeFrame_of_some {s : State} {h c : Nat} (hr : rejectClause s h = some c) (p : List Byte) :
    s.judgeFrame h p = s.logReject h c := by
  unfold State.judgeFrame; rw [hr]

theorem State.noHop_of_none {s : State} {h : Nat} (hr : rejectClause s h = none) : s.noHop h = s := by
  unfold State.noHop; rw [hr]

theorem State.noHop_of_some {s : State} {h c : Nat} (hr : rejectClause s h = some c) : s.noHop h = s.logReject h c := by
  unfold State.noHop; rw [hr]

/-! The rows. -/

/-- A block that takes frames is not in IDLE. -/
theorem sleeps_of_taken {s : State} {raw : List Byte} (h : frameTaken s raw = true) : sleeps s = false := by
  simp only [frameTaken, xchRuns, unitsRun, Bool.and_eq_true, Bool.or_eq_true, beq_iff_eq] at h
  obtain ⟨⟨⟨hp | hp, -⟩, -⟩, -⟩ := h <;> simp [sleeps, hp]

theorem State.atStream_of_taken {s : State} {raw : List Byte} (h : frameTaken s raw = true) (f : State → State) :
    s.atStream f = f s := by
  unfold State.atStream
  rw [sleeps_of_taken h, if_neg Bool.false_ne_true]

/-- A frame that is no CTRL frame, and that a clause discards or its share has room for, comes to its hop. -/
theorem exec_inboundFrame_atHop {s : State} {raw : List Byte} (ht : frameTaken s raw = true) (hh : hHop (hdrOf raw) ≤ 8)
    (h3 : hType (hdrOf raw) ≠ 3)
    (hroom : rejectClause s (hdrOf raw) = none → shareBytes s (hCtx (hdrOf raw)) + raw.length ≤ 0x100000) :
    exec (.inboundFrame raw) s
      = .next (s.atHop (hHop (hdrOf raw)) (hFseq (hdrOf raw)) (fun u => u.judgeFrame (hdrOf raw) (raw.drop 64))) := by
  have hfull : ¬ (rejectClause s (hdrOf raw) = none ∧ shareLimit < shareBytes s (hCtx (hdrOf raw)) + raw.length) :=
    fun ⟨hr, hl⟩ => absurd (hroom hr) (Nat.not_le.mpr hl)
  show execInboundFrame raw s = _
  unfold execInboundFrame
  dsimp only
  rw [State.atStream_of_taken ht, if_neg (by simp [ht, h3]), if_neg (Nat.not_lt.mpr hh), if_neg hfull]

/-- A frame that no clause discards and its share has no room for tells only its hop (log 63). -/
theorem exec_inboundFrame_unroomed {s : State} {raw : List Byte} (ht : frameTaken s raw = true) (hh : hHop (hdrOf raw) ≤ 8)
    (h3 : hType (hdrOf raw) ≠ 3) (hr : rejectClause s (hdrOf raw) = none)
    (hfull : 0x100000 < shareBytes s (hCtx (hdrOf raw)) + raw.length) :
    exec (.inboundFrame raw) s = .next (s.frameUnroomed (hdrOf raw)) := by
  show execInboundFrame raw s = _
  unfold execInboundFrame
  dsimp only
  rw [State.atStream_of_taken ht, if_neg (by simp [ht, h3]), if_neg (Nat.not_lt.mpr hh), if_pos ⟨hr, hfull⟩]

/-- An END comes to its hop; a clause that discards it is recorded there. -/
theorem exec_endFrame_atHop {s : State} {raw : List Byte} (ht : frameTaken s raw = true) (hh : hHop (hdrOf raw) ≤ 8)
    (h3 : hType (hdrOf raw) = 3) (hs : hSub (hdrOf raw) = 3) :
    exec (.endFrame raw) s
      = .next (s.atHop (hHop (hdrOf raw)) (hFseq (hdrOf raw)) (fun u => u.noHop (hdrOf raw))) := by
  show execEndFrame raw s = _
  unfold execEndFrame
  dsimp only
  rw [State.atStream_of_taken ht, if_neg (by simp [ht, h3, hs]), if_neg (Nat.not_lt.mpr hh)]

/-- A frame without room leaves the held frames and the hops of other senders. -/
theorem State.frameUnroomed_onlyHop (s : State) (h : Nat) : State.onlyHop (hHop h) s (s.frameUnroomed h) := by
  unfold State.frameUnroomed
  extract_lets t
  have counted : State.onlyHop (hHop h) s t := ⟨rfl, fun _ _ => rfl⟩
  split
  · exact counted.trans (t.atHop_onlyHop _ _ (f := id) (fun u => .refl _ u))
  · exact counted

/-- Settles O45: one equation per row says how a frame comes to its hop; the window's cases and the clauses of R366 then decide
what becomes of it. -/
theorem framesArrive : Obligations.FramesArrive := by
  intro raw s ht hh
  refine ⟨fun h3 he hw hn => ⟨fun hr hroom => ⟨_, rfl, ?held⟩, fun x hr => ⟨_, rfl, ?discarded⟩⟩,
    fun h3 hr hfull => ⟨_, exec_inboundFrame_unroomed ht hh h3 hr hfull, ?unroomed⟩,
    fun h3 he ha hroom => ⟨_, (exec_inboundFrame_atHop ht hh h3 hroom).trans
      (congrArg _ (s.atHop_asks _ _ hh he ha)), ?asks⟩,
    fun h3 hs he hw hn => ⟨_, rfl, fun hr => ⟨_, ?endTaken, ?endKeeps, ?endFrame, rfl⟩, fun x hr => ?endDiscarded⟩⟩
  case held =>
    rw [exec_inboundFrame_atHop ht hh h3 (fun _ => hroom), s.atHop_new _ hh he hw hn,
      State.judgeFrame_of_none (by simpa using hr)]
  case discarded =>
    rw [exec_inboundFrame_atHop ht hh h3 (by simp [hr]), s.atHop_new _ hh he hw hn,
      State.judgeFrame_of_some (by simpa using hr)]
    rfl
  case unroomed =>
    have only := s.frameUnroomed_onlyHop (hdrOf raw)
    exact ⟨only.held, only.others, (s.frameUnroomed_ev _).frame⟩
  case asks =>
    refine ⟨?_, rfl, emit_out .., ?_⟩
    · rw [onRx_same _ _ _ (by omega)]
    · exact ((State.onRx_ev ..).then (s.sendAck_ev ..) (by decide)).frame
  case endTaken =>
    rw [exec_endFrame_atHop ht hh h3 hs, s.atHop_new _ hh he hw hn, State.noHop_of_none (by simpa using hr)]
  case endKeeps => exact (State.ackIfDue_onlyHop ..).held
  case endFrame => exact ((State.ackIfDue_ev ..).then (s.onRx_ev ..) (by decide)).frame
  case endDiscarded =>
    rw [exec_endFrame_atHop ht hh h3 hs, s.atHop_new _ hh he hw hn, State.noHop_of_some (by simpa using hr)]
    rfl

end Sys2Proof.Machine
end

section
/-! SUPPORT. Long words as codes (R44, R45, R47): the two fields of a code, and what a code is read as. -/
namespace Sys2Proof.Machine

/-! The code of a long word. -/

theorem Cls.code_lt (c : Cls) : c.code < 4 := by cases c <;> decide

@[simp] theorem clsOfCode_code (c : Cls) : clsOfCode c.code = c := by cases c <;> rfl

/-- Only the code 0 is FINITE's, of the codes that two bits hold. -/
theorem clsOfCode_ne_finite {c : Nat} (hlt : c < 4) (hc : c ≠ 0) : clsOfCode c ≠ .finite := by
  match c, hlt, hc with
  | 1, _, _ | 2, _, _ | 3, _, _ => decide

theorem lwCode_of_finite {x : LW} (h : x.cls = .finite) : lwCode x = x.val.toNat := by simp [lwCode, h, Cls.code]

theorem lwCode_of_ne_finite {x : LW} (h : x.cls ≠ .finite) : lwCode x = x.cls.code * 2 ^ 126 := by simp [lwCode, h]

/-- Bits [127:126] of a code are the class. -/
@[simp] theorem bitsOf_lwCode_class (x : LW) : bitsOf (lwCode x) 127 126 = x.cls.code := by
  have hc := x.cls.code_lt
  have hv := x.val.isLt
  unfold bitsOf
  rw [Nat.shiftRight_eq_div_pow]
  by_cases h : x.cls = .finite
  · rw [lwCode_of_finite h, Nat.div_eq_of_lt hv, h]
    rfl
  · rw [lwCode_of_ne_finite h, Nat.mul_div_cancel _ (by decide)]
    exact Nat.mod_eq_of_lt hc

/-- A class other than FINITE has a code with no bit below the class (R45). -/
theorem bitsOf_lwCode_value {x : LW} (h : x.cls ≠ .finite) : bitsOf (lwCode x) 125 0 = 0 := by
  rw [lwCode_of_ne_finite h]
  exact Nat.mul_mod_left ..

theorem lwCode_lt (x : LW) : lwCode x < 256 ^ 16 := by
  have hc := x.cls.code_lt
  have hv := x.val.isLt
  by_cases h : x.cls = .finite
  · rw [lwCode_of_finite h]
    omega
  · rw [lwCode_of_ne_finite h]
    omega

/-- The sixteen bytes of a long word read back as its code. -/
theorem lwBytes_readCode (s : State) (a : Nat) (x : LW) : (s.store a (lwBytes x)).readNat a 16 = lwCode x :=
  (lwBytes_read s a x).trans (Nat.mod_eq_of_lt (lwCode_lt x))

/-! What a code is read as. -/

/-- A code of a class other than FINITE is read by its class alone (R45). -/
theorem lwDecode_of_class_ne_zero {w : Nat} (h : bitsOf w 127 126 ≠ 0) : lwDecode w = lwOfCls (clsOfCode (bitsOf w 127 126)) := by
  have hlt : bitsOf w 127 126 < 4 := Nat.mod_lt _ (by decide)
  simp only [lwDecode, lwOfCls, if_neg (clsOfCode_ne_finite hlt h)]

theorem lwDecode_lwCode_of_finite {x : LW} (h : x.cls = .finite) : lwDecode (lwCode x) = x := by
  have hv : BitVec.ofNat 126 (lwCode x) = x.val := by simp [lwCode_of_finite h]
  simp only [lwDecode, bitsOf_lwCode_class, clsOfCode_code, if_pos h, hv]

/-- Settles O50: memory gives the code back whole, and the code has the class in its upper field and, unless FINITE, nothing in
its lower one. -/
theorem longWordCodes : Obligations.LongWordCodes := by
  refine ⟨fun s a x hx => ?written, fun w v hw hv => ?ignored, fun s a v => ?finite⟩
  case written =>
    rw [lwBytes_readCode]
    exact ⟨bitsOf_lwCode_value hx, bitsOf_lwCode_class x⟩
  case ignored => rw [lwDecode_of_class_ne_zero hw, lwDecode_of_class_ne_zero (by rwa [hv]), hv]
  case finite =>
    rw [lwBytes_readCode]
    exact lwDecode_lwCode_of_finite rfl

end Sys2Proof.Machine
end

section
/-! SUPPORT. SCALE_SCAN at dispatch (R54, R57, R279, R284, R483): one equation per outcome of its checks. -/
namespace Sys2Proof.Machine

/-- A command put in flight by its packet with an engine part. -/
theorem State.startEng_launched (s : State) (q : QIx) (p : Nat) (e : Eng) :
    Launched s ((s.takePacket q).startEng q (s.queue q).head p e) q
      { Cmd.read q (s.queue q).head p (s.ctx (ctxOf q)).step (.engine e) with dispatched := true } false :=
  s.launchCmd_launched q _ false rfl rfl

theorem execScaleScan_of_prepare_error {s : State} {q : QIx} {p : Nat} {e : Cond} (h : Waits s q 0x16 p)
    (he : prepare (s.takePacket q) q (packetAddr (s.queue q) (s.queue q).head) 0x16 p = .error e) :
    execScaleScan q s = .next ((s.takePacket q).replyNow q (s.queue q).head p [e]) := by
  rw [execScaleScan, withPacket_run _ h]
  simp only [he]

theorem execScaleScan_of_prepare_ok {s : State} {q : QIx} {p : Nat} {c : Comp} (h : Waits s q 0x16 p)
    (hc : prepare (s.takePacket q) q (packetAddr (s.queue q) (s.queue q).head) 0x16 p = .ok c)
    (hg : scanGranules (scanSpans p c) ≠ []) :
    execScaleScan q s = .next ((s.takePacket q).startEng q (s.queue q).head p
      (Eng.start (scanGranules (scanSpans p c)).length (some c))) := by
  have hn : (scanGranules (scanSpans p c)).length ≠ 0 := mt List.length_eq_zero_iff.mp hg
  rw [execScaleScan, withPacket_run _ h]
  simp only [hc, if_neg hn]

/-- Settles O15: the checks of `prepare` decide which equation holds; the one launches the packet's command, the other answers
the packet. -/
theorem scaleScanDispatch : Obligations.ScaleScanDispatch := by
  intro q s p h
  constructor
  · intro c hc hg
    exact ⟨_, execScaleScan_of_prepare_ok h hc hg, s.startEng_launched q p _⟩
  · intro e he
    exact ⟨_, execScaleScan_of_prepare_error h he, s.replyNow_answered q p [e]⟩

end Sys2Proof.Machine
end

section
/-! SUPPORT. Grades, the delay margin and scrubs (R129-R131, R177, R385, R429): one equation per outcome of each row. -/
namespace Sys2Proof.Machine

/-! The grade of a core (R129, R131). -/

/-- While a core works its grade rises by one, up to 8 and the grade cap. -/
theorem execGradeInterval_of_works {c : KIx} {s : State} (hp : arraysPowered s = true) (hc : (s.core c).inService = true)
    (hw : coreWorks s c = true) :
    execGradeInterval c s = .next (s.onCore c (fun k =>
      { k with grade := min (min 8 s.kpr.gradeCap) (k.grade + 1), dir := 1, holding := true })) := by
  simp [execGradeInterval, hp, hc, hw]

/-- A core without work falls by one once its hold window has passed. -/
theorem execGradeInterval_of_rests {c : KIx} {s : State} (hp : arraysPowered s = true) (hc : (s.core c).inService = true)
    (hw : coreWorks s c = false) :
    execGradeInterval c s = .next (s.onCore c (fun k => if k.holding then k else { k with grade := k.grade - 1, dir := 2 })) := by
  simp [execGradeInterval, hp, hc, hw]

theorem execHoldWindowExpiry_of_rests {c : KIx} {s : State} (hw : coreWorks s c = false) :
    execHoldWindowExpiry c s = .next (s.onCore c (fun k => { k with holding := false, dir := 2 })) := by
  simp [execHoldWindowExpiry, hw]

/-! The delay margin of a core (R429). -/

theorem execDelayMarginCalibration_met (c : KIx) (s : State) : execDelayMarginCalibration c true s = .next s := by
  simp [execDelayMarginCalibration]

theorem execDelayMarginCalibration_trims {c : KIx} {s : State} (hr : blkRuns s = true) (hc : (s.core c).inService = true)
    (ht : s.kpr.vminTrim < 10) :
    execDelayMarginCalibration c false s
      = .next ((s.onKpr (fun k => { k with vminTrim := k.vminTrim + 1 })).logInternal 9 2 c) := by
  simp [execDelayMarginCalibration, hr, hc, ht]

theorem execDelayMarginCalibration_retires {c : KIx} {s : State} (hr : blkRuns s = true) (hc : (s.core c).inService = true)
    (ht : 10 ≤ s.kpr.vminTrim) :
    execDelayMarginCalibration c false s = .next ((s.logInternal 1 2 c).retireCore c s.nextLog) := by
  simp [execDelayMarginCalibration, hr, hc, Nat.not_lt.mpr ht]

theorem State.logInternal_kpr (s : State) (action kind unit : Nat) : (s.logInternal action kind unit).kpr = s.kpr :=
  (s.logInternal_ev action kind unit).frame .kpr rfl

theorem State.retireCore_kpr (s : State) (c log : Nat) : (s.retireCore c log).kpr = s.kpr :=
  (s.retireCore_ev c log).frame .kpr rfl

/-! Scrubs (R177, R385). -/

/-- A slot row without a double-bit error: the scrub goes on to the next one. -/
theorem State.scrubRow_sound {s : State} {c : Nat} (hu : unitsRun s = true) (hc : (s.core c).inService = true) :
    s.scrubRow c false = s.onCore c (fun k => { k with scrub := (k.scrub + 1) % 8192 }) := by
  simp [State.scrubRow, hu, hc]

theorem execStageScrub_none (s : State) : execStageScrub none s = .next s := by
  unfold execStageScrub
  split <;> rfl

/-- A clean cached word is fetched again, which is recorded. -/
theorem execStageScrub_clean {s : State} (hu : unitsRun s = true) (x : Nat) :
    execStageScrub (some (.cache (.clean x))) s = .next (s.logRec (scRec (lineAddr x) 0 0)) := by
  simp [execStageScrub, State.cacheUpset, hu]

/-- Settles O54: each row's equation gives the next state; what it holds follows from the rules of the operations in it. -/
theorem gradesAndScrubs : Obligations.GradesAndScrubs := by
  intro c s
  refine ⟨fun hp hc => ?grade, execHoldWindowExpiry_of_rests, fun hr hc => ⟨?met, fun ht => ?trims, fun ht => ?retires⟩,
    fun hu hc => ⟨?scrub, fun slot hs => ?forced, fun slot hs => ?notNext, execStageScrub_none s, fun x => ?clean⟩⟩
  case grade =>
    cases hw : coreWorks s c with
    | true =>
      refine ⟨_, execGradeInterval_of_works hp hc hw, (s.onCore_ev c _).frame, fun k hk => s.onCore_core_other c k _ hk,
        fun _ => ?_, nofun, nofun⟩
      rw [s.onCore_core_same c _ c.isLt]
    | false =>
      refine ⟨_, execGradeInterval_of_rests hp hc hw, (s.onCore_ev c _).frame, fun k hk => s.onCore_core_other c k _ hk,
        nofun, fun _ hh => ?_, fun _ hh => ?_⟩ <;>
      rw [s.onCore_core_same c _ c.isLt, hh] <;> rfl
  case met => exact execDelayMarginCalibration_met c s
  case trims =>
    have trimmed := s.onKpr_ev (fun k => { k with vminTrim := k.vminTrim + 1 })
    refine ⟨_, execDelayMarginCalibration_trims hr hc ht, State.logInternal_kpr .., ?_⟩
    exact ((State.logInternal_ev ..).then (trimmed.mono (l := [.free, .svc, .log, .kpr, .mem, .mirror]) rfl) rfl).frame
  case retires =>
    obtain ⟨core, arrays⟩ := retireCore_stand (s.logInternal 1 2 c) c s.nextLog c.isLt
    exact ⟨_, execDelayMarginCalibration_retires hr hc ht, core, arrays,
      (State.retireCore_kpr ..).trans (State.logInternal_kpr ..)⟩
  case scrub => exact congrArg _ (State.scrubRow_sound hu hc)
  case forced => exact congrArg _ ((if_pos hs).trans (State.scrubRow_sound hu hc))
  case notNext => exact congrArg _ (if_neg hs)
  case clean => exact ⟨_, execStageScrub_clean hu x, logs_ok .., (logRec_quiet _ _ rfl).frame⟩

end Sys2Proof.Machine
end

section
/-! SUPPORT. Faults that change who serves (R124, R125, R386-R394, R485): one equation per outcome of each row. -/
namespace Sys2Proof.Machine

/-! The command processor (R391-R394, R485). -/

/-- The command processor after a lockstep mismatch: the pair halts, and a hot spare takes over (R392, R485). -/
def Cp.handedOver (spare : Bool) (cp : Cp) : Cp :=
  { cp with
    running := bit spare, spare := false, testing := 2, paused := true
    ids := if spare then cp.ids.drop 2 ++ cp.ids.take 2 else cp.ids }

/-- The record of a lockstep mismatch (R404). -/
def lockstepRec (spare : Bool) (addr : Nat) : Rec := { event := 0x0A, action := if spare then 7 else 9, kind := 4, d0 := addr }

theorem execCpLockstepMismatch_of_runs {addr : Nat} {s : State} (hn : s.cp.running = 2) (hp : s.cp.paused = false)
    (hr : blkRuns s = true) :
    execCpLockstepMismatch addr s
      = .next (((s.maskAll s.nextLog).onCp (Cp.handedOver s.cp.spare)).logRec (lockstepRec s.cp.spare addr)).report :=
  congrArg _ (if_neg (by simp [hn, hp, hr]))

/-- The switchover is recorded in every command read and not yet replied to. -/
theorem State.maskAll_masks (s : State) (log : Nat) {c : Cmd} (hc : c ∈ s.cp.cmds) :
    ∃ d ∈ (s.maskAll log).cp.cmds, d.key = c.key ∧ d.body = c.body ∧ c.masked < d.masked ∧ d.firstLog.isSome := by
  obtain ⟨d, hd, key, body, -, -, masked⟩ := maskFold log s.cp.cmds s c hc
  exact ⟨d, hd, key, body, masked ⟨c, hc, rfl⟩⟩

theorem State.report_logRec_cp (s : State) (r : Rec) : (s.logRec r).report.cp = s.cp := (report_cp _).trans (logRec_cp s r)

/-- A mismatch that a hot spare answers raises the service interrupt (R405). -/
theorem logRec_irq {s : State} {r : Rec} (h : recRaises r = true) : bitOf (s.logRec r).svc.irq 0 = true := (logs_ok s r).2.2 h

/-- The command processor after the self-test of its halted cores (R394). -/
def Cp.tested (cp : Cp) (p0 p1 : Bool) : Cp :=
  { cp with
    running := min 2 (cp.running + bit p0 + bit p1), spare := decide (3 ≤ cp.running + bit p0 + bit p1), testing := 0
    ids := cp.ids.take cp.running ++ passedCores cp p0 p1 }

/-- A self-test that ends gives back the cores that pass; with none the block is FAILED. -/
theorem execCpSelftestEnd_of_testing {p0 p1 : Bool} {s : State} (ht : s.cp.testing = 2) :
    ∃ r, execCpSelftestEnd p0 p1 s = .next (
      if s.cp.running + bit p0 + bit p1 = 0 then ((s.onCp (·.tested p0 p1)).logRec r).fail
      else ((s.onCp (·.tested p0 p1)).logRec r).report) := by
  simp only [Cp.tested, Nat.add_assoc]
  exact ⟨_, congrArg _ (if_neg (by simp [ht]))⟩

/-! Stalls (R386-R389). -/

/-- A named array that stalls is retired alone. -/
theorem execWatchdogStall_array {c : KIx} {unit : Fin 7} {s : State} (hu : unitsRun s = true) (hc : (s.core c).inService = true)
    (hn : unit.val < 4) (hs : stallSubject s c unit ≠ []) :
    ∃ r, execWatchdogStall c unit s = .next ((s.logRec r).retireArray (4 * c + unit) s.nextLog) := by
  obtain ⟨u, l, hl⟩ := List.exists_cons_of_ne_nil hs
  simp only [execWatchdogStall, hl, hu, hc, Bool.not_true, Bool.or_self, Bool.false_eq_true, if_false, if_pos hn]
  exact ⟨_, rfl⟩

/-- Any other unit that stalls takes its core with it. -/
theorem execWatchdogStall_core {c : KIx} {unit : Fin 7} {s : State} (hu : unitsRun s = true) (hc : (s.core c).inService = true)
    (hn : ¬ unit.val < 4) (hs : stallSubject s c unit ≠ []) :
    ∃ r, execWatchdogStall c unit s = .next ((s.logRec r).retireCore c s.nextLog) := by
  obtain ⟨u, l, hl⟩ := List.exists_cons_of_ne_nil hs
  simp only [execWatchdogStall, hl, hu, hc, Bool.not_true, Bool.or_self, Bool.false_eq_true, if_false, if_neg hn]
  exact ⟨_, rfl⟩

theorem execWatchdogStall_none {c : KIx} {unit : Fin 7} {s : State} (hs : stallSubject s c unit = []) :
    execWatchdogStall c unit s = .next s := by
  simp only [execWatchdogStall, hs]

/-- A ready array is the subject of its stall. -/
theorem stallSubject_array {s : State} {c unit : Nat} (hn : unit < 4) (hr : arrayReady s (4 * c + unit) = true) :
    stallSubject s c unit ≠ [] := by
  simp [stallSubject, hn, hr]

theorem stallSubject_sequencer {s : State} {c u : Nat} (hu : u ∈ coreUnits c) (hr : sequencerReady s u = true) :
    stallSubject s c 4 ≠ [] := by
  show (coreUnits c).filter (sequencerReady s) ≠ []
  exact List.ne_nil_of_mem (List.mem_filter.mpr ⟨hu, hr⟩)

theorem stallSubject_fusion {s : State} {c : Nat} (hr : fusionReady s c = true) : stallSubject s c 5 ≠ [] := by
  show (if fusionReady s c then (nextGrant s c).elim [48 + c] (fun x => [x.1]) else []) ≠ []
  rw [if_pos hr]
  cases nextGrant s c <;> exact List.cons_ne_nil _ _

theorem stallSubject_thin {s : State} {c h : Nat} (hh : h ∈ rangeFrom (2 * c) 2) (hr : halfReady s h = true) :
    stallSubject s c 6 ≠ [] := by
  show (rangeFrom (2 * c) 2).filterMap (fun h => if halfReady s h then some (32 + h) else none) ≠ []
  exact List.ne_nil_of_mem (List.mem_filterMap.mpr ⟨h, hh, if_pos hr⟩)

/-! Diagnostic passes (R124, R125). -/

/-- The array after a diagnostic pass: the last phase's pattern stands in WREG. -/
def ArraySt.diagnosed (a : ArraySt) : ArraySt := { a with diag := false, wreg := diagWreg 4 }

/-- The array of a pass without a finding serves again. -/
def ArraySt.returned (a : ArraySt) : ArraySt := { a with inService := true, retired := false }

/-- A pass whose partials are all as expected finds nothing. -/
theorem diagFinding_of_expected {reads : List DiagRead} (h : ∀ x ∈ reads, x.value = diagExpect x) :
    diagFinding reads = .transient := by
  have sound : diagWrong reads = [] := List.filter_eq_nil_iff.mpr (fun x hx => by simp [h x hx])
  simp [diagFinding, sound]

/-- What a finding calls for does not depend on the arrays. -/
theorem repairOf_onArray (s : State) (n : Nat) (f : ArraySt → ArraySt) (a : Nat) (x : Finding) :
    repairOf (s.onArray n f) a x = repairOf s a x := rfl

theorem execDiagnosticPassEnd_of_transient {a : AIx} {reads : List DiagRead} {s : State} (hd : (s.array a).diag = true)
    (hp : arraysPowered s = true) (hv : 120 ≤ s.kpr.vReq) (hf : diagFinding reads = .transient) :
    ∃ r, execDiagnosticPassEnd a reads s
      = .next (((s.onArray a ArraySt.diagnosed).onArray a ArraySt.returned).logRec r).report := by
  simp only [execDiagnosticPassEnd, hf, repairOf, hd, hp, Nat.not_lt.mpr hv, Bool.not_true, Bool.or_self,
    decide_false, Bool.false_eq_true, if_false]
  exact ⟨_, rfl⟩

theorem execDiagnosticPassEnd_of_found {a : AIx} {reads : List DiagRead} {s : State} {row r : Nat} {l : List Nat}
    (hd : (s.array a).diag = true) (hp : arraysPowered s = true) (hv : 120 ≤ s.kpr.vReq)
    (hf : repairOf s a (diagFinding reads) = (row, r :: l)) :
    execDiagnosticPassEnd a reads s
      = .next ((r :: l).foldl (fun s r => s.diagRecord a row r) (s.onArray a ArraySt.diagnosed)).report := by
  simp only [execDiagnosticPassEnd, repairOf_onArray, hf, hd, hp, Nat.not_lt.mpr hv, Bool.not_true, Bool.or_self,
    decide_false, Bool.false_eq_true, if_false]
  rfl

/-- A record of a finding goes into a repair log that has room. -/
theorem State.diagRecord_repair {s : State} (a row r : Nat) (h : s.blk.repair.length < 64) :
    (s.diagRecord a row r).blk.repair = s.blk.repair ++ [r] := by
  simp only [State.diagRecord, State.addRepair, if_pos h, logRec_blk]
  rfl

theorem foldl_diagRecord_repair (a row : Nat) : ∀ (l : List Nat) (s : State), s.blk.repair.length + l.length ≤ 64 →
    (l.foldl (fun s r => s.diagRecord a row r) s).blk.repair = s.blk.repair ++ l
  | [], s, _ => (List.append_nil _).symm
  | r :: l, s, h => by
    simp only [List.length_cons] at h
    have one := s.diagRecord_repair a row r (by omega)
    rw [List.foldl_cons, foldl_diagRecord_repair a row l _ (by rw [one]; simp; omega), one, List.append_assoc]
    rfl

theorem foldl_diagRecord_arrays (a row : Nat) (l : List Nat) (s : State) :
    (l.foldl (fun s r => s.diagRecord a row r) s).arrays = s.arrays :=
  (Ev.foldl (l := [.blk, .svc, .log, .mem, .mirror]) _ (fun u r h => (State.diagRecord_ev u a row r).then h rfl) l s
    (.refl s)).frame .arrays rfl

theorem State.report_array (s : State) (a : Nat) : s.report.array a = s.array a :=
  congrArg (vget · a) (s.report_ev.frame .arrays rfl)

theorem State.logRec_array (s : State) (r : Rec) (a : Nat) : (s.logRec r).array a = s.array a :=
  congrArg (vget · a) (logRec_arrays s r)

/-- Settles O59: each row's equation gives the next state, and the rules of retiring, reporting and recording say who serves
in it. -/
theorem faultsContained : Obligations.FaultsContained := by
  intro s
  refine ⟨fun addr hn hp hr => ⟨_, execCpLockstepMismatch_of_runs hn hp hr, ?mismatch⟩, fun hp hn hr => ?resume,
    fun p0 p1 ht => ?selftest, fun c unit hu hc => ⟨fun hn hr => ?array, fun hs => ?core, execWatchdogStall_none⟩,
    fun a reads hd hp hv => ⟨fun hx => ?transient, fun row l hf hl hroom => ?found⟩⟩
  case mismatch =>
    have cp := State.report_logRec_cp ((s.maskAll s.nextLog).onCp (Cp.handedOver s.cp.spare)) (lockstepRec s.cp.spare addr)
    rw [cp]
    refine ⟨rfl, rfl, rfl, rfl, fun hs => ?_, fun c hc => s.maskAll_masks s.nextLog hc⟩
    exact report_irq _ (logRec_irq (by simp [recRaises, lockstepRec, hs]))
  case resume => exact congrArg _ (if_pos (by simp [hp, hn, hr]))
  case selftest =>
    obtain ⟨r, hr⟩ := execCpSelftestEnd_of_testing (p0 := p0) (p1 := p1) ht
    refine ⟨_, hr, ?_, fun h0 => ?_⟩
    · split
      · exact logRec_cp ..
      · exact State.report_logRec_cp ..
    · rw [if_pos h0]
      rfl
  case array =>
    obtain ⟨r, hr⟩ := execWatchdogStall_array hu hc hn (stallSubject_array hn hr)
    exact ⟨_, hr, (retireArray_stand _ _ _ (by omega)).1⟩
  case core =>
    obtain ⟨r, hr⟩ : ∃ r, execWatchdogStall c unit s = .next ((s.logRec r).retireCore c s.nextLog) := by
      rcases hs with ⟨h4, u, hu4, hr⟩ | ⟨h5, hr⟩ | ⟨h6, hr⟩
      · exact execWatchdogStall_core hu hc (by omega) (h4 ▸ stallSubject_sequencer hu4 hr)
      · exact execWatchdogStall_core hu hc (by omega) (h5 ▸ stallSubject_fusion hr)
      · refine execWatchdogStall_core hu hc (by omega) (h6 ▸ ?_)
        rcases hr with hr | hr
        · exact stallSubject_thin (mem_rangeFrom.mpr (by omega)) hr
        · exact stallSubject_thin (mem_rangeFrom.mpr (by omega)) hr
    exact ⟨_, hr, retireCore_stand _ _ _ c.isLt⟩
  case transient =>
    obtain ⟨r, hr⟩ := execDiagnosticPassEnd_of_transient hd hp hv (diagFinding_of_expected hx)
    have array : (((s.onArray a ArraySt.diagnosed).onArray a ArraySt.returned).logRec r).report.array a
        = (s.array a).diagnosed.returned := by
      rw [State.report_array, State.logRec_array, State.onArray_array_same _ _ _ a.isLt, State.onArray_array_same _ _ _ a.isLt]
    refine ⟨_, hr, ?_, ?_, ?_⟩
    · rw [array]; rfl
    · rw [array]; rfl
    · rw [report_repair, logRec_blk]; rfl
  case found =>
    obtain ⟨r, l, rfl⟩ := List.exists_cons_of_ne_nil hl
    have array : (((r :: l).foldl (fun s r => s.diagRecord a row r) (s.onArray a ArraySt.diagnosed)).report.array a)
        = (s.array a).diagnosed := by
      rw [State.report_array, State.array, foldl_diagRecord_arrays]
      exact State.onArray_array_same _ _ _ a.isLt
    refine ⟨_, execDiagnosticPassEnd_of_found hd hp hv hf, ?_, ?_, ?_⟩
    · exact (report_repair _).trans (foldl_diagRecord_repair a row _ (s.onArray a ArraySt.diagnosed) hroom)
    · rw [array]; rfl
    · rw [array]; rfl

end Sys2Proof.Machine
end

section
/-! SUPPORT. Steps of an array (R112-R123, R128, R129, R158, R159, R169): one equation per outcome, and what an update leaves of the
tun. -/
namespace Sys2Proof.Machine

/-! The claim of an array: what a step reads beside it. -/

/-- The array walking the claim `cl`. -/
def ArraySt.walking (x : ArraySt) (cl : Claim) : ArraySt := { x with claim := some cl }

@[simp] theorem ArraySt.walking_claim (x : ArraySt) (cl : Claim) : (x.walking cl).claim = some cl := rfl
@[simp] theorem ArraySt.walking_latch (x : ArraySt) (cl : Claim) (v : Vec) (up : Option ArrayUpset) :
    (x.walking cl).latch v up = (x.latch v up).walking cl := rfl
@[simp] theorem stepBlocks_walking (x : ArraySt) (cl : Claim) (v : Vec) : stepBlocks (x.walking cl) v = stepBlocks x v := rfl
@[simp] theorem wardFault_walking (f : Fmt) (x : ArraySt) (cl : Claim) (bs : List StepBlock) (up : Option ArrayUpset) :
    wardFault f (x.walking cl) bs up = wardFault f x bs up := rfl

/-- A load step writes the weight row whatever the claim. -/
theorem loadStep_walking (c : Comp) (x : ArraySt) (cl : Claim) (p : Nat) (o : LoadOp) :
    c.loadStep (x.walking cl) p o = (c.loadStep x p o).map (·.walking cl) := by
  unfold Comp.loadStep
  dsimp only [ArraySt.walking]
  split
  · by_cases hlast : o.row + 1 = o.rows <;> by_cases hset : x.active = true <;> simp [hlast, hset]
  · rfl

@[simp] theorem Claim.tick_todo (cl : Claim) (b : Bool) : (cl.tick b).todo = cl.todo := by unfold Claim.tick; split <;> rfl
@[simp] theorem Claim.tick_seed (cl : Claim) (b : Bool) : (cl.tick b).seed = cl.seed := by unfold Claim.tick; split <;> rfl

/-- A step that counts changes the claim's count alone. -/
theorem Claim.tick_eq (cl : Claim) (b : Bool) : cl.tick b = { cl with steps := (cl.tick b).steps } := by
  unfold Claim.tick; split <;> rfl

/-! Which step an array takes (R128, R129). -/

theorem liveClaim_of_none {s : State} {a : Nat} (h : (s.array a).claim = none) : liveClaim s a = none := by
  simp [liveClaim, h]

theorem liveClaim_of_some {s : State} {a : Nat} {cl : Claim} {cmd : Cmd} {c : Comp} (h : (s.array a).claim = some cl)
    (hc : s.claimCmd cl.seed = some (cmd, c)) (hl : s.lives cmd.key = true) : liveClaim s a = some (cl, cmd, c) := by
  simp [liveClaim, h, hc, hl]

theorem fillerFault_none : fillerFault none = none := by decide

/-- An array without work takes no step at grade 0. -/
theorem execArrayStep_cold {a : AIx} {up : Option ArrayUpset} {s : State} (hl : liveClaim s a = none)
    (hg : (s.core (a / 4)).grade = 0) : execArrayStep a up s = .next s := by
  simp only [execArrayStep, hl, hg, if_true, ite_self]

/-- An array without work takes a filler step at any other grade. -/
theorem execArrayStep_filler {a : AIx} {up : Option ArrayUpset} {s : State} (hr : arrayRuns s a = true)
    (hcap : s.kpr.gradeCap ≠ 0) (hl : liveClaim s a = none) (hg : (s.core (a / 4)).grade ≠ 0) :
    execArrayStep a up s = .next (s.fillerStep a up) := by
  simp [execArrayStep, hr, hl, if_neg hg, hcap]

/-- A filler step whose check passes is counted by telemetry alone. -/
theorem State.fillerStep_none (s : State) (a : Nat) : s.fillerStep a none = s.onKin (fun i => { i with fillN := i.fillN + 1 }) := by
  simp only [State.fillerStep, fillerFault_none]

theorem State.fillerStep_of_fault {s : State} {a : Nat} {up : Option ArrayUpset} {f : Nat × Int × Bool}
    (h : fillerFault up = some f) :
    s.fillerStep a up = (s.onKin (fun i => { i with fillN := i.fillN + 1 })).wardFail a f := by
  simp only [State.fillerStep, h]

/-- An array at work: its claim counts the step and its core holds its grade. -/
def State.atWork (s : State) (a : Nat) (cl : Claim) : State := (s.onArray a (·.walking cl)).onCore (a / 4) CoreSt.works

theorem State.atWork_ev (s : State) (a : Nat) (cl : Claim) : Ev [.arrays, .cores] s (s.atWork a cl) :=
  (State.onCore_ev ..).then ((s.onArray_ev a _).mono rfl) rfl

theorem State.atWork_array {s : State} {a : Nat} (ha : a < 32) (cl : Claim) : (s.atWork a cl).array a = (s.array a).walking cl :=
  (works_core ..).trans (State.onArray_array_same _ _ _ ha)

theorem State.atWork_array_other {s : State} {a b : Nat} (hb : b ≠ a) (cl : Claim) : (s.atWork a cl).array b = s.array b :=
  (works_core ..).trans (State.onArray_array_other _ _ _ _ hb)

/-- An array with work takes the step that its claim calls for. -/
theorem execArrayStep_works {a : AIx} {up : Option ArrayUpset} {s : State} {cl : Claim} {cmd : Cmd} {c : Comp}
    (hr : arrayRuns s a = true) (hcap : s.kpr.gradeCap ≠ 0) (hl : liveClaim s a = some (cl, cmd, c))
    (hw : arrayWorks s a = true) :
    execArrayStep a up s = .next ((s.atWork a (cl.tick true)).claimStep a cmd c (cl.tick true) up) := by
  simp only [execArrayStep, hr, hl, hw, hcap, Bool.not_true, Bool.false_and, Bool.false_eq_true, if_false, if_true]
  rfl

/-! A load step (R116, R117). -/

theorem State.claimStep_load {s : State} {a : Nat} {cmd : Cmd} {c : Comp} {cl : Claim} {o : LoadOp} {r : List WalkOp} {x : ArraySt}
    (ht : cl.todo = .load o :: r) (hx : c.loadStep (s.array a) cmd.pkt o = some x) :
    s.claimStep a cmd c cl none = (s.onArray a (fun _ => x)).advance a := by
  simp only [State.claimStep, ht, fillerFault_none, hx]

/-- A walk with steps left goes on to the next. -/
theorem State.advance_on {s : State} {a : Nat} {cl : Claim} {o : WalkOp} {r : List WalkOp} (hc : (s.array a).claim = some cl)
    (ht : cl.todo = o :: r) (hr : r ≠ []) :
    s.advance a = s.onArray a (·.walking { cl with todo := r, started := true }) := by
  have left : r.isEmpty = false := by simpa using hr
  simp only [State.advance, hc, ht, List.drop_one, List.tail_cons, left, Bool.false_eq_true, if_false]
  rfl

theorem arrayWorks_load {s : State} {a : Nat} {cl : Claim} {cmd : Cmd} {c : Comp} {o : LoadOp} {r : List WalkOp} {x : ArraySt}
    (hl : liveClaim s a = some (cl, cmd, c)) (ht : cl.todo = .load o :: r) (hx : c.loadStep (s.array a) cmd.pkt o = some x) :
    arrayWorks s a = true := by
  simp only [arrayWorks, hl, ht, hx, Option.isSome_some]

/-- A load step with more to do: the weight row is in place and the walk goes on. -/
theorem execArrayStep_load {a : AIx} {s : State} {cl : Claim} {cmd : Cmd} {c : Comp} {o : LoadOp} {r : List WalkOp} {x : ArraySt}
    (hr : arrayRuns s a = true) (hcap : s.kpr.gradeCap ≠ 0) (hl : liveClaim s a = some (cl, cmd, c)) (ht : cl.todo = .load o :: r)
    (hne : r ≠ []) (hx : c.loadStep (s.array a) cmd.pkt o = some x) :
    execArrayStep a none s = .next (((s.atWork a (cl.tick true)).onArray a (fun _ => x.walking (cl.tick true))).onArray a
      (·.walking { cl.tick true with todo := r, started := true })) := by
  have loaded : c.loadStep ((s.atWork a (cl.tick true)).array a) cmd.pkt o = some (x.walking (cl.tick true)) := by
    rw [State.atWork_array a.isLt, loadStep_walking, hx]
    rfl
  have todo : (cl.tick true).todo = .load o :: r := (cl.tick_todo true).trans ht
  rw [execArrayStep_works hr hcap hl (arrayWorks_load hl ht hx), State.claimStep_load todo loaded, State.advance_on _ todo hne]
  rw [State.onArray_array_same _ _ _ a.isLt, ArraySt.walking_claim]

/-! An activation step (R112-R115, R158, R159). -/

theorem State.claimStep_vec {s : State} {a : Nat} {cmd : Cmd} {c : Comp} {cl : Claim} {v : VecOp} {r : List WalkOp} {vec : Vec}
    {up : Option ArrayUpset} (ht : cl.todo = .vec v :: r) (hv : (s.array a).vecs.find? (fun y => y.op == v) = some vec) :
    s.claimStep a cmd c cl up = s.workStep a cmd c cl v vec up := by
  simp only [State.claimStep, ht, hv]

theorem arrayWorks_vec {s : State} {a : Nat} {cl : Claim} {cmd : Cmd} {c : Comp} {v : VecOp} {r : List WalkOp} {vec : Vec}
    (hl : liveClaim s a = some (cl, cmd, c)) (ht : cl.todo = .vec v :: r)
    (hv : (s.array a).vecs.find? (fun y => y.op == v) = some vec) : arrayWorks s a = true := by
  simp only [arrayWorks, hl, ht, hv, Option.isSome_some]

/-- The long words that a step's vector gives its pass tile (R115). -/
def stepWords (cmd : Cmd) (c : Comp) (v : VecOp) (x : ArraySt) (bs : List StepBlock) : List (LW × Nat × Nat) :=
  rowUpdate (cFlush cmd.pkt) (lPairPass (fmtD (cFmtA cmd.pkt)) (fmtD (cFmtW cmd.pkt)) v.ai v.wj) c.anchor x bs

@[simp] theorem stepWords_walking (cmd : Cmd) (c : Comp) (v : VecOp) (x : ArraySt) (cl : Claim) (bs : List StepBlock) :
    stepWords cmd c v (x.walking cl) bs = stepWords cmd c v x bs := rfl

/-- A vector whose row no drain holds and whose check passes updates the tun. -/
theorem State.workStep_sound {s : State} {a : Nat} {cmd : Cmd} {c : Comp} {cl : Claim} {v : VecOp} {vec : Vec} {e : Entry}
    {x : ArraySt} (he : (c.run? cl.seed.ord).bind (fun r => r.entries[v.tile]?) = some e)
    (hd : drainPending s a v.slot (v.m - e.tile.m0) = false) (hx : x = (s.array a).latch vec none)
    (hw : wardFault (fmtD (cFmtA cmd.pkt)) x (stepBlocks x vec) none = none) :
    s.workStep a cmd c cl v vec none
      = ((s.onKin (fun i => { i with workN := i.workN + 1 })).onArray a (fun _ => x)).vecStep a cmd c cl v
        (stepWords cmd c v x (stepBlocks x vec)) := by
  subst hx
  simp only [State.workStep, he, Option.elim_some, hd, Bool.false_eq_true, if_false, State.onKin_array, hw, updateFault, stepWords]

/-- The slot row of a vector, updated in the tun. -/
def State.updateRow (s : State) (k : Nat) (c : Comp) (t : Tile) (v : VecOp) (l : List LW) : State :=
  s.setTunRow k v.slot (v.m - t.m0) (updatedRow (dExt c.desc 5 1) t v (s.tunRow k v.slot (v.m - t.m0)) l)

/-- Beside the update of its slot row a vector's step changes nothing of the tun. -/
theorem State.vecStep_tun {s : State} {a : Nat} {cmd : Cmd} {c : Comp} {cl : Claim} {v : VecOp} {l : List (LW × Nat × Nat)}
    {e : Entry} (he : (c.run? cl.seed.ord).bind (fun r => r.entries[v.tile]?) = some e) :
    (s.vecStep a cmd c cl v l).tun = (s.updateRow (a / 4) c e.tile v (l.map (·.1))).tun := by
  unfold State.vecStep
  simp only [he, Option.elim_some]
  rw [(State.advance_ev ..).frame .tun rfl]
  split
  · rw [(State.addDrain_ev ..).frame .tun rfl, (State.syncArea_ev ..).frame .tun rfl]
    rfl
  · rw [(State.syncArea_ev ..).frame .tun rfl]
    rfl

/-- Of near memory a vector's step changes only the progress areas. -/
theorem State.vecStep_above (s : State) (a : Nat) (cmd : Cmd) (c : Comp) (cl : Claim) (v : VecOp) (l : List (LW × Nat × Nat)) :
    s.memAbove (s.vecStep a cmd c cl v l) := by
  unfold State.vecStep
  extract_lets k tile row s1 counts s2 s3 s4
  have h3 : s.memAbove s3 := State.memAbove_trans (State.memAbove_of_mem rfl) (State.syncArea_above _ _)
  have h4 : s4.mem = s3.mem := by
    show (if v.last then _ else s3).mem = _
    split
    · exact (State.addDrain_ev ..).frame .mem rfl
    · rfl
  exact State.memAbove_trans h3 (State.memAbove_of_mem (((State.advance_ev ..).frame .mem rfl).trans h4))

/-- An array at work on a vector: `x` is the array with the vector latched, and telemetry counts the step (R430). -/
def State.latched (s : State) (a : Nat) (cl : Claim) (x : ArraySt) : State :=
  ((s.atWork a cl).onKin (fun i => { i with workN := i.workN + 1 })).onArray a (fun _ => x.walking cl)

theorem State.latched_ev (s : State) (a : Nat) (cl : Claim) (x : ArraySt) : Ev [.kin, .arrays, .cores] s (s.latched a cl x) :=
  (State.onArray_ev ..).then ((State.onKin_ev ..).then ((s.atWork_ev a cl).mono rfl) rfl) rfl

/-- A work step whose row no drain holds and whose check passes updates the tun by its vector. -/
theorem execArrayStep_vec {a : AIx} {s : State} {cl : Claim} {cmd : Cmd} {c : Comp} {v : VecOp} {r : List WalkOp} {vec : Vec}
    {e : Entry} {x : ArraySt} (hr : arrayRuns s a = true) (hcap : s.kpr.gradeCap ≠ 0) (hl : liveClaim s a = some (cl, cmd, c))
    (ht : cl.todo = .vec v :: r) (hv : (s.array a).vecs.find? (fun y => y.op == v) = some vec)
    (he : (c.run? cl.seed.ord).bind (fun r => r.entries[v.tile]?) = some e)
    (hd : drainPending s a v.slot (v.m - e.tile.m0) = false) (hx : x = (s.array a).latch vec none)
    (hw : wardFault (fmtD (cFmtA cmd.pkt)) x (stepBlocks x vec) none = none) :
    execArrayStep a none s = .next ((s.latched a (cl.tick true) x).vecStep a cmd c (cl.tick true) v
      (stepWords cmd c v x (stepBlocks x vec))) := by
  have array := State.atWork_array (s := s) a.isLt (cl.tick true)
  rw [execArrayStep_works hr hcap hl (arrayWorks_vec hl ht hv),
    State.claimStep_vec ((cl.tick_todo true).trans ht) (by rw [array]; exact hv),
    State.workStep_sound (e := e) (x := x.walking (cl.tick true)) (by rw [Claim.tick_seed]; exact he)
      (by rw [drainPending, array]; exact hd) (by rw [array, hx, ArraySt.walking_latch])
      (by rw [stepBlocks_walking, wardFault_walking, hw]), stepBlocks_walking, stepWords_walking]
  rfl

/-! What an update leaves of the tun (R158, R159). -/

theorem updatedRow_length (nExt : Nat) (t : Tile) (v : VecOp) (old new : List LW) : (updatedRow nExt t v old new).length = 256 := by
  rw [updatedRow, List.length_map, length_rangeFrom]

/-- A column of the vector's pass tile is written, or the step's long word added to it. -/
theorem updatedRow_in {nExt : Nat} {t : Tile} {v : VecOp} {old new : List LW} {j : Nat} (hj : j < 256) (h0 : v.n0 ≤ t.n0 + j)
    (h1 : t.n0 + j < v.n1) :
    (updatedRow nExt t v old new)[j]? = some (if v.write then new.getD (t.n0 + j - v.n0) lwZero
      else lwAdd (old.getD j lwZero) (new.getD (t.n0 + j - v.n0) lwZero)) := by
  have col : passCol nExt t v j = some (t.n0 + j - v.n0) := if_pos ⟨h0, .inl h1⟩
  rw [updatedRow, List.getElem?_map, getElem?_rangeFrom _ _ _ hj, Nat.zero_add, Option.map_some, col]

/-- Where a vector adds, a column of another pass tile stays. -/
theorem updatedRow_out {nExt : Nat} {t : Tile} {v : VecOp} {old new : List LW} {j : Nat} (hj : j < 256) (hw : v.write = false)
    (ho : t.n0 + j < v.n0 ∨ (v.n1 ≤ t.n0 + j ∧ t.n0 + j < nExt)) :
    (updatedRow nExt t v old new)[j]? = some (old.getD j lwZero) := by
  have col : passCol nExt t v j = none := if_neg (by omega)
  rw [updatedRow, List.getElem?_map, getElem?_rangeFrom _ _ _ hj, Nat.zero_add, Option.map_some, col, hw]
  rfl

/-- A step's long word of a column: the columns beyond those loaded share one. -/
theorem stepWords_getD (cmd : Cmd) (c : Comp) (v : VecOp) (x : ArraySt) (bs : List StepBlock) {col : Nat} (hc : col < 256) :
    ((stepWords cmd c v x bs).map (·.1)).getD col lwZero
      = (columnUpdate (cFlush cmd.pkt) (lPairPass (fmtD (cFmtA cmd.pkt)) (fmtD (cFmtW cmd.pkt)) v.ai v.wj) c.anchor x bs
        (min col (widthOf x))).1 := by
  rw [List.getD_eq_getElem?_getD, stepWords, rowUpdate_get _ _ _ _ _ _ hc, Option.getD_some]

theorem State.updateRow_same (s : State) (k : Nat) (c : Comp) (t : Tile) (v : VecOp) (l : List LW) :
    (s.updateRow k c t v l).tunRow k v.slot (v.m - t.m0) = updatedRow (dExt c.desc 5 1) t v (s.tunRow k v.slot (v.m - t.m0)) l :=
  tunRow_set _ _ _ _ _ (updatedRow_length ..)

theorem State.updateRow_other (s : State) (c : Comp) (t : Tile) (v : VecOp) (l : List LW) {k k' slot row : Nat}
    (h : (k', slot, row) ≠ (k, v.slot, v.m - t.m0)) : (s.updateRow k c t v l).tunRow k' slot row = s.tunRow k' slot row :=
  tunRow_set_other _ _ _ _ _ _ _ _ h

/-- The slot rows after a vector's step are those after the update of its row, whatever else the step began with. -/
theorem State.vecStep_tunRow {s u : State} {a : Nat} {cmd : Cmd} {c : Comp} {cl : Claim} {v : VecOp} {l : List (LW × Nat × Nat)}
    {e : Entry} (he : (c.run? cl.seed.ord).bind (fun r => r.entries[v.tile]?) = some e) (hu : u.tun = s.tun) (k slot row : Nat) :
    (u.vecStep a cmd c cl v l).tunRow k slot row = (s.updateRow (a / 4) c e.tile v (l.map (·.1))).tunRow k slot row := by
  have updated : (u.updateRow (a / 4) c e.tile v (l.map (·.1))).tun = (s.updateRow (a / 4) c e.tile v (l.map (·.1))).tun := by
    simp only [State.updateRow, State.setTunRow, State.onTun, tunRow_congr hu, hu]
  exact tunRow_congr ((State.vecStep_tun he).trans updated) k slot row

end Sys2Proof.Machine
end

section
/-! SUPPORT. Lane steps of the thin path (R247, R253): what a step leaves of the accumulators, and what else it changes. -/
namespace Sys2Proof.Machine

/-- A lane step is taken once the store row and the weights of its K-block are there. -/
theorem execThinStep_ready {h : Fin 16} {up : Option ThinUpset} {s : State} {cl : TClaim} {cmd : Cmd} {c : Comp} {row : DRow}
    (hcl : (s.half h).claim = some cl) (hc : s.claimCmd cl.seed = some (cmd, c)) (hu : unitsRun s = true)
    (hin : (s.core (h / 2)).thinIn = true) (hl : s.lives cmd.key = true) (hb : (s.half h).wBlock = some cl.b)
    (hrow : (s.half h).store.find? (fun r => r.idx == cl.m) = some row) :
    execThinStep h up s = .next (s.laneStep h cmd c cl row up) := by
  simp only [execThinStep, hcl, Option.bind_some, hc, Option.map_some, hu, hin, hl, hb, beq_self_eq_true, Bool.and_true, hrow,
    Bool.not_true, Bool.or_self, Bool.false_eq_true, if_false]

/-- The contributions of a lane step, one per column of weights (R247). -/
def laneContribs (cmd : Cmd) (c : Comp) (x : List DElem × Scale) (ws : List DRow) (i j : Nat) : List Contrib :=
  ws.map (fun w => laneContrib cmd.pkt c.anchor x.1 x.2 w i j)

/-- A lane step whose check group finds no difference accumulates. -/
theorem State.laneStep_sound {s : State} {h : Nat} {cmd : Cmd} {c : Comp} {cl : TClaim} {row : DRow} {i j : Nat}
    {x : List DElem × Scale} (hij : (i, j) = (cPasses cmd.pkt).getD cl.pass (0, 0))
    (hx : x = storeAt (pairFmt (fmtD (cFmtA cmd.pkt)) (fmtD (cFmtW cmd.pkt))) row cl.b
      (min 32 (c.kAt (c.thinTile cl.seed.ord).f - 32 * cl.b)) i)
    (hd : thinDiff (pairFmt (fmtD (cFmtA cmd.pkt)) (fmtD (cFmtW cmd.pkt))) x.1 (s.half h).weights j none = 0) :
    s.laneStep h cmd c cl row none = s.thinAccumulate h cmd c cl (laneContribs cmd c x (s.half h).weights i j) := by
  subst hx
  simp only [State.laneStep, ← hij, hd, reduceCtorEq, ne_eq, not_true_eq_false, if_false, laneContribs]

/-- A half's contributions added to the accumulators of row `m`. -/
def State.accumulate (s : State) (h m : Nat) (ws : List LW) : State := s.onHalf h (fun x => { x with acc := accAdd x.acc m ws })

/-- The tile's progress shown after a lane step (R292). -/
def State.reachBlock (s : State) (sd : Seed) (kb : Nat) : State :=
  (s.onComp sd.key (fun c => c.onEntry sd.ord 0 (·.reached kb))).syncArea sd.key

theorem State.reachBlock_ev (s : State) (sd : Seed) (kb : Nat) : Ev [.cp, .mem] s (s.reachBlock sd kb) :=
  (State.syncArea_ev ..).then ((s.onComp_ev ..).mono rfl) rfl

theorem State.reachBlock_above (s : State) (sd : Seed) (kb : Nat) : s.memAbove (s.reachBlock sd kb) :=
  State.memAbove_trans (State.memAbove_of_mem rfl) (State.syncArea_above _ _)

/-- After a lane step the walk of the half goes on, or its claim is over and its drain begins; the accumulators are those of the
step. -/
theorem State.thinAccumulate_cases (s : State) {h : Nat} (hh : h < 16) (cmd : Cmd) (c : Comp) (cl : TClaim) (cs : List Contrib) :
    ∃ kb f, (s.thinAccumulate h cmd c cl cs = ((s.accumulate h cl.m (cs.map (·.lw))).reachBlock cl.seed kb).onHalf h f
        ∨ ∃ n d, s.thinAccumulate h cmd c cl cs
          = ((((s.accumulate h cl.m (cs.map (·.lw))).reachBlock cl.seed kb).onHalf h f).charge (32 + h) cl.seed.key n).onHalf h
            (fun x => { x with drains := x.drains ++ [d] }))
      ∧ ∀ x : ThinSt, (f x).acc = x.acc := by
  have drained : ∀ (u : State) d, u.addDrain (32 + h) d = u.onHalf h (fun x => { x with drains := x.drains ++ [d] }) := by
    intro u d
    rw [State.addDrain, State.onDrains, if_neg (by omega), if_pos (by omega), Nat.add_sub_cancel_left]
  unfold State.thinAccumulate
  dsimp only
  split
  · exact ⟨_, _, .inl rfl, fun _ => rfl⟩
  · exact ⟨_, _, .inr ⟨_, _, drained _ _⟩, fun _ => rfl⟩

/-- A lane step that accumulates: the accumulators grow by its contributions, of near memory only the progress areas change, and no
array does. -/
theorem State.thinAccumulate_facts (s : State) {h : Nat} (hh : h < 16) (cmd : Cmd) (c : Comp) (cl : TClaim) (cs : List Contrib) :
    ((s.thinAccumulate h cmd c cl cs).half h).acc = accAdd (s.half h).acc cl.m (cs.map (·.lw))
      ∧ s.memAbove (s.thinAccumulate h cmd c cl cs)
      ∧ s.onlyIn [.cp, .halves, .cores, .mem] (s.thinAccumulate h cmd c cl cs) := by
  obtain ⟨kb, f, step, hf⟩ := s.thinAccumulate_cases hh cmd c cl cs
  have shown := (s.accumulate h cl.m (cs.map (·.lw))).reachBlock_ev cl.seed kb
  have above := State.memAbove_trans (State.memAbove_of_mem (s := s) rfl)
    ((s.accumulate h cl.m (cs.map (·.lw))).reachBlock_above cl.seed kb)
  generalize (s.accumulate h cl.m (cs.map (·.lw))).reachBlock cl.seed kb = u at step shown above
  have acc : ((u.onHalf h f).half h).acc = accAdd (s.half h).acc cl.m (cs.map (·.lw)) := by
    rw [State.onHalf_half_same _ _ _ hh, hf, State.half, shown.frame .halves rfl]
    exact congrArg ThinSt.acc (s.onHalf_half_same h _ hh)
  have ev : Ev [.cp, .halves, .cores, .mem] s (u.onHalf h f) :=
    (u.onHalf_ev h f).then (shown.then ((s.onHalf_ev ..).mono rfl) rfl) rfl
  rcases step with step | ⟨n, d, step⟩
  · rw [step]
    exact ⟨acc, above, ev.frame⟩
  · rw [step]
    exact ⟨(congrArg ThinSt.acc (State.onHalf_half_same _ _ _ hh)).trans acc, above,
      ((State.onHalf_ev ..).then ((State.charge_ev ..).then ev rfl) rfl).frame⟩

/-- Settles O57: the equation of the step that the claim calls for gives the next state; the rules of the slot row updated and of
the accumulators say what it holds. -/
theorem stepsAccumulate : Obligations.StepsAccumulate := by
  intro s
  refine ⟨fun a hr hcap => ⟨fun hn hg => execArrayStep_cold (liveClaim_of_none hn) hg, fun hn hg => ?filler,
      fun hn hg g col d h16 hne => ?differs, fun cl cmd c hcl hc hl => ⟨fun o r x ht hne hx => ?load,
        fun v r vec e x ht hv he hd hx hw => ?vec⟩⟩,
    fun h cl cmd c row hcl hc hu hin hl hb hrow pf x i j hpf hij hx hd => ?lane⟩
  case filler => exact (execArrayStep_filler hr hcap (liveClaim_of_none hn) hg).trans (congrArg _ (s.fillerStep_none a))
  case differs =>
    obtain ⟨f, hf⟩ := filler_group g col d h16 hne
    exact ⟨_, (execArrayStep_filler hr hcap (liveClaim_of_none hn) hg).trans (congrArg _ (State.fillerStep_of_fault hf)),
      wardFail_stand _ a f a.isLt⟩
  case load =>
    refine ⟨_, (cl.tick true).steps, execArrayStep_load hr hcap (liveClaim_of_some hcl hc hl) ht hne hx, ?_⟩
    rw [State.onArray_array_same _ _ _ a.isLt, State.onArray_array_same _ _ _ a.isLt]
    refine ⟨rfl, rfl, rfl, rfl, ?_, fun b hb => ?_, ?_⟩
    · rw [ArraySt.walking_claim, cl.tick_eq true]
    · rw [State.onArray_array_other _ _ _ _ hb, State.onArray_array_other _ _ _ _ hb, State.atWork_array_other hb]
    · exact ((State.onArray_ev ..).then ((State.onArray_ev ..).then (s.atWork_ev a (cl.tick true)) rfl) rfl).frame
  case vec =>
    have latched := s.latched_ev a (cl.tick true) x
    have rows := State.vecStep_tunRow (a := a) (cmd := cmd) (c := c) (cl := cl.tick true)
      (l := stepWords cmd c v x (stepBlocks x vec)) (by rw [Claim.tick_seed]; exact he) (latched.frame .tun rfl)
    refine ⟨_, execArrayStep_vec hr hcap (liveClaim_of_some hcl hc hl) ht hv he hd hx hw, fun j hj h0 h1 hwide => ?_,
      fun hwr j hj ho => ?_, fun k slot row hk => ?_, ?_, ?_⟩
    · rw [rows, State.updateRow_same, updatedRow_in hj h0 h1, stepWords_getD _ _ _ _ _ (by omega)]
    · rw [rows, State.updateRow_same, updatedRow_out hj hwr ho]
    · rw [rows, State.updateRow_other _ _ _ _ _ hk]
    · exact State.memAbove_trans (State.memAbove_of_mem (latched.frame .mem rfl)) (State.vecStep_above _ _ _ _ _ _ _)
    · exact ((State.vecStep_ev ..).then (latched.mono (l := [.kin, .cp, .arrays, .halves, .cores, .tun, .mem]) rfl) rfl).frame
  case lane =>
    subst hpf
    obtain ⟨acc, above, frame⟩ := s.thinAccumulate_facts h.isLt cmd c cl (laneContribs cmd c x (s.half h).weights i j)
    refine ⟨_, (execThinStep_ready hcl hc hu hin hl hb hrow).trans (congrArg _ (State.laneStep_sound hij hx hd)), above, frame,
      fun g => ?_⟩
    rw [acc, accAt_add, laneContribs, List.getElem?_map, List.getElem?_map]
    cases (s.half h).weights[g]? <;> rfl

end Sys2Proof.Machine
end

section
/-! SUPPORT. Reads that a unit's work waits for (R132, R133, R136, R145, R192, R217, R225, R253): one equation per outcome of each
arrival. -/
namespace Sys2Proof.Machine

/-! A prefetch read (R136, R217, R225, R406). -/

/-- The lines of a read are held where its operand is resident (R217). -/
def State.holdOperand (s : State) (sd : Seed) (c : Comp) (area : StageArea) (h : Span) : State :=
  if heldOperand c.desc area then s.holdLines sd.key (c.sharedTile sd.ord) (linesOf h.1 h.2) else s

/-- Held lines are no change to the bytes of near memory. -/
theorem State.holdOperand_memSame (s : State) (sd : Seed) (c : Comp) (area : StageArea) (h : Span) :
    s.memSame (s.holdOperand sd c area h) := by
  unfold State.holdOperand
  split <;> exact fun _ => rfl

theorem State.holdOperand_bytesAt (s : State) (sd : Seed) (c : Comp) (area : StageArea) (h : Span) (a n : Nat) :
    (s.holdOperand sd c area h).bytesAt a n = s.bytesAt a n := by
  unfold State.holdOperand
  split <;> rfl

theorem State.holdOperand_ev (s : State) (sd : Seed) (c : Comp) (area : StageArea) (h : Span) :
    Ev [.mem] s (s.holdOperand sd c area h) := by
  unfold State.holdOperand
  split
  · exact State.holdLines_ev ..
  · exact Ev.refl ..

theorem State.holdOperand_array (s : State) (sd : Seed) (c : Comp) (area : StageArea) (h : Span) (a : Nat) :
    (s.holdOperand sd c area h).array a = s.array a :=
  congrArg (vget · a) ((s.holdOperand_ev sd c area h).frame .arrays rfl)

section
variable {a : AIx} {area : StageArea} {addr len : Nat} {s : State} {cl : Claim} {cmd : Cmd} {c : Comp}

/-- A read without a byte that the walk needs is dropped whatever it meets (log 69). -/
theorem execPrefetchReadReturn_unneeded {up : ReadUpset} (hcl : (s.array a).claim = some cl)
    (hc : s.claimCmd cl.seed = some (cmd, c)) (hn : neededHull (c.needs cmd.pkt (s.array a) cl area) addr len = none) :
    execPrefetchReadReturn a area addr len up s = .next s := by
  simp only [execPrefetchReadReturn, hcl, hc, hn]

/-- A read whose needed bytes can be had fills its stage area (R136, R217). -/
theorem execPrefetchReadReturn_fills {h : Span} (hcl : (s.array a).claim = some cl) (hc : s.claimCmd cl.seed = some (cmd, c))
    (hr : arrayRuns s a = true) (hl : s.lives cmd.key = true)
    (hn : neededHull (c.needs cmd.pkt (s.array a) cl area) addr len = some h) (hf : accessFault s h.1 h.2 = none) :
    execPrefetchReadReturn a area addr len ⟨none, none⟩ s = .next ((s.holdOperand cl.seed c area h).onArray a (fun x =>
      { x with stage := c.fillStage cmd.pkt x cl area addr (s.bytesAt addr len) })) := by
  rw [← s.holdOperand_bytesAt cl.seed c area h addr len]
  simp only [execPrefetchReadReturn, hcl, hc, hn, hr, hl, hf, Bool.not_true, Bool.or_self, Bool.false_eq_true, if_false,
    State.cacheUpset, State.holdOperand]

/-- A read whose needed bytes cannot be had fails (R225, R406). -/
theorem execPrefetchReadReturn_fails {h : Span} {e : Cond} {up : ReadUpset} (hcl : (s.array a).claim = some cl)
    (hc : s.claimCmd cl.seed = some (cmd, c)) (hr : arrayRuns s a = true) (hl : s.lives cmd.key = true)
    (hn : neededHull (c.needs cmd.pkt (s.array a) cl area) addr len = some h) (hf : accessFault s h.1 h.2 = some e) :
    execPrefetchReadReturn a area addr len up s = .next (s.failRead cmd e) := by
  simp only [execPrefetchReadReturn, hcl, hc, hn, hr, hl, hf, Bool.not_true, Bool.or_self, Bool.false_eq_true, if_false]

end

/-- A failed read cuts its command with what stood in the way (R406). -/
theorem State.failRead_cut {s : State} {cmd : Cmd} (e : Cond) (h : s.cmd? cmd.key = some cmd) :
    CutWith cmd.key e (s.failRead cmd e) :=
  cutCmd_cut _ cmd ((cmd_of_cp (logLost_cp ..) _).trans h)

/-! A vector read (R133, R142). -/

/-- Stage memory after a vector of activation buffer `buf` is delivered, with `buffers` of them kept (R133). -/
def StageSt.delivered (x : StageSt) (buffers buf : Nat) : StageSt :=
  let y := (x.goodRead (.acts buf)).goodRead .side
  if buffers = 0 then { y with acts := [] } else y

/-- In STREAM mode the row is gone. -/
theorem StageSt.delivered_acts {x : StageSt} {buffers buf : Nat} (h : buffers = 0) : (x.delivered buffers buf).acts = [] := by
  simp only [StageSt.delivered, if_pos h]

/-- Delivery leaves the weights and all of the side area but its count of refetches. -/
theorem StageSt.delivered_rest (x : StageSt) (buffers buf : Nat) :
    (x.delivered buffers buf).norm = x.norm ∧ (x.delivered buffers buf).affine = x.affine
      ∧ (x.delivered buffers buf).exps = x.exps ∧ (x.delivered buffers buf).weights = x.weights := by
  unfold StageSt.delivered
  split <;> exact ⟨rfl, rfl, rfl, rfl⟩

/-- A change of an array is what it makes of that array. -/
theorem State.onArray_congr {s : State} {a : Nat} {f g : ArraySt → ArraySt} (ha : a < 32) (h : f (s.array a) = g (s.array a)) :
    s.onArray a f = s.onArray a g := by
  have at_a : s.array a = s.arrays[a] := by simp [State.array, vget, ha]
  rw [at_a] at h
  simp only [State.onArray, vmod, dif_pos ha, h]

/-- The next vector is delivered once its bytes are there. -/
theorem execFeederVectorRead_delivers {a : AIx} {s : State} {cl : Claim} {cmd : Cmd} {c : Comp} {v : VecOp} {vec : Vec}
    (hcl : (s.array a).claim = some cl) (hc : s.claimCmd cl.seed = some (cmd, c)) (hr : arrayRuns s a = true)
    (hl : s.lives cmd.key = true) (hv : (vecsLeft cl (s.array a).vecs.length).head? = some v)
    (hd : c.deliver (s.array a).stage cmd.pkt v = some vec) :
    execFeederVectorRead a none s = .next (s.onArray a (fun x => { x with
      vecs := x.vecs ++ [vec], stage := x.stage.delivered (actBuffers cmd.pkt c.desc) v.buf })) := by
  simp only [execFeederVectorRead, hcl, hc, hr, hl, hv, hd, Bool.not_true, Bool.or_self, Bool.false_eq_true, if_false]
  rfl

/-! Rows and weights of a thin half (R145, R253). -/

section
variable {h : Fin 16} {s : State} {cl : TClaim} {cmd : Cmd} {c : Comp}

/-- A store row that can be read is the half's row of its index. -/
theorem execThinFetchArrival_store {m : Nat} {r : DRow} (hcl : (s.half h).claim = some cl)
    (hc : s.claimCmd cl.seed = some (cmd, c)) (hu : unitsRun s = true) (hl : s.lives cmd.key = true)
    (hm : m ∈ c.thinRows (pOp cmd.pkt) (c.thinTile cl.seed.ord))
    (hf : spansFault s (c.storeSpans cmd.pkt (c.thinTile cl.seed.ord).f m) = none)
    (hr : c.storeRow (memRd s) cmd.pkt (c.thinTile cl.seed.ord).f m = some r) :
    execThinFetchArrival h (.store m) s = .next (s.onHalf h (fun x => { x with
      store := r :: x.store.filter (fun y => y.idx != m) })) := by
  have asked : (c.thinRows (pOp cmd.pkt) (c.thinTile cl.seed.ord)).contains m = true := List.contains_iff_mem.2 hm
  simp only [execThinFetchArrival, hcl, hc, hu, hl, asked, hf, hr, Bool.not_true, Bool.or_self, Bool.false_eq_true, if_false]

/-- Weights of the K-block in progress that can be read are the half's weights. -/
theorem execThinFetchArrival_weights {l : List DRow} (hcl : (s.half h).claim = some cl)
    (hc : s.claimCmd cl.seed = some (cmd, c)) (hu : unitsRun s = true) (hl : s.lives cmd.key = true)
    (hf : spansFault s (c.weightSpans cmd.pkt (c.thinTile cl.seed.ord) cl.b) = none)
    (hw : allSome ((c.thinCols (c.thinTile cl.seed.ord)).map
      (c.weightCol (memRd s) cmd.pkt (c.thinTile cl.seed.ord).f cl.b)) = some l) :
    execThinFetchArrival h (.weights cl.b) s = .next (s.onHalf h (fun x => { x with wBlock := some cl.b, weights := l })) := by
  simp only [execThinFetchArrival, hcl, hc, hu, hl, hf, hw, bne_self_eq_false, Bool.not_true, Bool.or_self, Bool.false_eq_true,
    if_false]

end

/-! A row of an extra stream (R192). -/

/-- A drain with a row of a stream's data. -/
def Drain.feed (d : Drain) (i row : Nat) : Drain := { d with fed := (i, row) :: d.fed }

/-- The unit's only drain is fed the stream data that it lacks. -/
theorem execExtraInputStreamArrival_feeds {u : UIx} {i : Fin 3} {row : Nat} {s : State} {d : Drain} {cmd : Cmd} {c : Comp}
    (hd : s.drainsOf u = [d]) (hc : s.claimCmd d.seed = some (cmd, c)) (hu : unitsRun s = true) (hrow : row < d.rows)
    (hopen : d.complete = false) (hi : (streamsUsed cmd.pkt).contains i.val = true)
    (hlack : d.fed.contains (i.val, feedRow cmd.pkt i row) = false)
    (hf : spansFault s (c.feedSpans cmd.pkt i (c.drainTile d) row) = none) :
    execExtraInputStreamArrival u i row s = .next (s.onDrains u (fun l => l.map (fun x =>
      if x == d then x.feed i (feedRow cmd.pkt i row) else x))) := by
  simp only [execExtraInputStreamArrival, hd, List.find?_singleton, hc, hu, hrow, hopen, hi, hlack, hf, decide_true,
    Bool.not_true, Bool.not_false, Bool.and_true, Bool.false_eq_true, if_true, if_false]
  rfl

/-- Settles O56: the equation of each arrival gives the next state. -/
theorem dataArrives : Obligations.DataArrives := by
  intro s cmd c hl
  refine ⟨fun a cl hcl hc hr => ⟨fun area addr len h hn => ⟨fun hf => ?fills, fun e hf hcmd => ?fails⟩,
      fun area addr len up hn => execPrefetchReadReturn_unneeded hcl hc hn, fun v vec hv hd => ?delivers⟩,
    fun h cl hcl hc hu => ⟨fun m r hm hf hr => execThinFetchArrival_store hcl hc hu hl hm hf hr,
      fun l hf hw => execThinFetchArrival_weights hcl hc hu hl hf hw⟩,
    fun u i row d hd hc hu hrow hopen hi hlack hf => ?feeds⟩
  case fills =>
    have held := s.holdOperand_ev cl.seed c area h
    refine ⟨_, execPrefetchReadReturn_fills hcl hc hr hl hn hf, ?_, fun b hb => ?_, ?_, ?_⟩
    · rw [State.onArray_array_same _ _ _ a.isLt, State.holdOperand_array]
    · rw [State.onArray_array_other _ _ _ _ hb, State.holdOperand_array]
    · exact s.holdOperand_memSame cl.seed c area h
    · exact ((State.onArray_ev ..).then (held.mono rfl) rfl).frame
  case fails =>
    obtain ⟨d, cut⟩ := State.failRead_cut e hcmd
    exact ⟨_, d, execPrefetchReadReturn_fails (up := ⟨none, none⟩) hcl hc hr hl hn hf, cut⟩
  case delivers =>
    exact ⟨_, (execFeederVectorRead_delivers hcl hc hr hl hv hd).trans (congrArg _ (State.onArray_congr a.isLt rfl)),
      StageSt.delivered_acts, StageSt.delivered_rest ..⟩
  case feeds =>
    refine ⟨_, execExtraInputStreamArrival_feeds hd hc hu hrow hopen hi hlack hf, ?_, (State.onDrains_ev ..).frame⟩
    rw [onDrains_drainsOf _ _ u.isLt, hd, List.map_singleton, beq_self_eq_true, if_pos rfl]
    rfl

end Sys2Proof.Machine
end

section
/-! SUPPORT. The work of a disable (R178, R308): the window zeroed, and the far-tier writes abandoned. -/
namespace Sys2Proof.Machine

/-! The window (R178). -/

theorem mem_windowFree {s : State} {n core slot : Nat} :
    slot ∈ windowFree s n core ↔ (s.ctx n).wBase ≤ slot ∧ slot < (s.ctx n).wBase + (s.ctx n).wCount
      ∧ boundToOther s n (core, slot) = false := by
  simp only [windowFree, List.mem_filter, mem_rangeFrom, Bool.not_eq_true', and_assoc]

/-- A zeroed window reads zero in the slots free of other contexts, and every other slot reads as before. -/
theorem State.zeroWindow_tunRow (s : State) {n core : Nat} (h : core < 8) (slot row : Nat) :
    (s.zeroWindow n).tunRow core slot row
      = if slot ∈ windowFree s n core then List.replicate 256 lwZero else s.tunRow core slot row := by
  have listed : core ∈ rangeFrom 0 8 := mem_rangeFrom.2 ⟨Nat.zero_le _, by omega⟩
  rw [State.zeroWindow, zeroWindow_fold n _ s s (fun _ _ => rfl) rfl (range_nodup 0 8) core slot row h]
  simp only [listed, true_and]

/-- Stage 5 zeroes the window and notes it. -/
theorem execTunZeroComplete_zeroes {n : CIx} {s : State} (h5 : (s.ctx n).stage = 5) (hb : blkRuns s = true) :
    execTunZeroComplete n s = .next ((s.zeroWindow n).onCtx n (fun c => { c with zeroed := true })) := by
  simp only [execTunZeroComplete, h5, hb, bne_self_eq_false, Bool.not_true, Bool.or_self, Bool.false_eq_true, if_false]

/-! Far-tier writes (R308). -/

/-- A command as its settling leaves it: ended once its engine part has no more to do (R284, R349). -/
def Cmd.settleEng (c : Cmd) : Cmd :=
  match c.eng? with
  | some e => if (e.halted || e.allDone) && e.quiet then { c with ended := true } else c
  | none => c

theorem Cmd.settleEng_keeps (c : Cmd) : c.settleEng.key = c.key ∧ c.settleEng.pkt = c.pkt ∧ c.settleEng.eng? = c.eng? := by
  unfold Cmd.settleEng
  split
  · split <;> exact ⟨rfl, rfl, rfl⟩
  · exact ⟨rfl, rfl, rfl⟩

theorem State.engSettle_eq (s : State) (k : Key) : s.engSettle k = s.onCmd k Cmd.settleEng := rfl

/-- An engine part without its outstanding far-tier writes (R308). -/
def Eng.dropWrites (e : Eng) : Eng := { e with cmps := [] }

/-- A command with its far-tier writes abandoned (R308). -/
def Cmd.abandonWrites (c : Cmd) : Cmd := (c.onEng Eng.dropWrites).settleEng

theorem Cmd.onEng_eng (c : Cmd) (f : Eng → Eng) : (c.onEng f).eng? = c.eng?.map f := by
  cases hb : c.body <;> simp only [Cmd.onEng, Cmd.eng?, hb, Option.map_some, Option.map_none]

theorem Cmd.onEng_pkt (c : Cmd) (f : Eng → Eng) : (c.onEng f).pkt = c.pkt := by unfold Cmd.onEng; split <;> rfl

/-- What abandoning its writes leaves of a command. -/
theorem Cmd.abandonWrites_keeps (c : Cmd) : c.abandonWrites.key = c.key ∧ c.abandonWrites.pkt = c.pkt
    ∧ c.abandonWrites.eng? = c.eng?.map Eng.dropWrites := by
  obtain ⟨key, pkt, eng⟩ := (c.onEng Eng.dropWrites).settleEng_keeps
  exact ⟨key.trans (onEng_key c _), pkt.trans (c.onEng_pkt _), eng.trans (c.onEng_eng _)⟩

/-- The writes of command `k` abandoned, in a list of commands in flight. -/
theorem State.abandonWrites_cmds (s : State) (k : Key) :
    ((s.onEng k Eng.dropWrites).engSettle k).cp.cmds
      = s.cp.cmds.map (fun c => if c.key == k then c.abandonWrites else c) := by
  rw [State.engSettle_eq]
  show (s.cp.cmds.map _).map _ = _
  rw [List.map_map]
  refine List.map_congr_left fun c _ => ?_
  by_cases h : (c.key == k) = true
  · simp only [Function.comp_apply, h, if_true, onEng_key]
    rfl
  · simp only [Function.comp_apply, h, Bool.false_eq_true, if_false]

/-- A command after those of `l` have had their writes abandoned in turn. -/
def Cmd.abandonIn (l : List Cmd) (c : Cmd) : Cmd := l.foldl (fun c x => if c.key == x.key then c.abandonWrites else c) c

/-- The writes of the commands of `l` abandoned in turn. -/
def State.abandonAll (s : State) (l : List Cmd) : State :=
  l.foldl (fun s c => (s.onEng c.key Eng.dropWrites).engSettle c.key) s

theorem State.abandonAll_cmds : ∀ (l : List Cmd) (s : State), (s.abandonAll l).cp.cmds = s.cp.cmds.map (Cmd.abandonIn l)
  | [], s => (List.map_id' s.cp.cmds).symm
  | x :: l, s => by
    rw [State.abandonAll, List.foldl_cons, ← State.abandonAll, State.abandonAll_cmds l, State.abandonWrites_cmds, List.map_map]
    rfl

/-- A command keeps its name and packet, and loses its outstanding writes if it is one of those named. -/
theorem Cmd.abandonIn_keeps : ∀ (l : List Cmd) (c : Cmd), (c.abandonIn l).key = c.key ∧ (c.abandonIn l).pkt = c.pkt
    ∧ (c.abandonIn l).eng? = c.eng?.map (fun e => if l.any (fun x => c.key == x.key) then e.dropWrites else e)
  | [], c => ⟨rfl, rfl, by simp [Cmd.abandonIn]⟩
  | x :: l, c => by
    show (Cmd.abandonIn l (if c.key == x.key then c.abandonWrites else c)).key = _ ∧ (Cmd.abandonIn l _).pkt = _
      ∧ (Cmd.abandonIn l _).eng? = _
    rw [List.any_cons]
    by_cases h : (c.key == x.key) = true
    · obtain ⟨key, pkt, eng⟩ := c.abandonWrites_keeps
      obtain ⟨key', pkt', eng'⟩ := Cmd.abandonIn_keeps l c.abandonWrites
      simp only [h, if_true, Bool.true_or]
      refine ⟨key'.trans key, pkt'.trans pkt, ?_⟩
      rw [eng', eng, Option.map_map]
      exact congrArg (Option.map · c.eng?) (funext fun e => by rw [key]; exact ite_self _)
    · simp only [h, Bool.false_eq_true, if_false, Bool.false_or]
      exact Cmd.abandonIn_keeps l c

/-- The SPILLs of a context with far-tier writes outstanding. -/
def spillsOut (s : State) (n : Nat) : List Cmd :=
  (s.cmdsOf n).filter (fun c => c.eng?.any (fun e => pOp c.pkt == 0x28 && !e.cmps.isEmpty))

/-- Stage 4 abandons the writes of those SPILLs. -/
theorem execFarWriteAbandon_abandons {n : CIx} {s : State} (h3 : (s.ctx n).stage = 3) (hu : unitsRun s = true) :
    execFarWriteAbandon n s = .next (s.abandonAll (spillsOut s n)) := by
  have named : ((s.cmdsOf n).filter fun c => match c.eng? with
      | some e => pOp c.pkt == 0x28 && !e.cmps.isEmpty
      | none => false) = spillsOut s n := by
    refine List.filter_congr fun c _ => ?_
    split <;> simp only [*, Option.any_some, Option.any_none]
  rw [← named]
  simp only [execFarWriteAbandon, h3, hu, bne_self_eq_false, Bool.not_true, Bool.or_self, Bool.false_eq_true, if_false]
  rfl

/-- Then no SPILL of the context has a write outstanding. -/
theorem abandonIn_spillsOut {s : State} {n : Nat} {c : Cmd} {e : Eng} (hc : c ∈ s.cp.cmds) (hn : ctxOf c.q = n)
    (hp : pOp c.pkt = 0x28) (he : (c.abandonIn (spillsOut s n)).eng? = some e) : e.cmps = [] := by
  obtain ⟨-, -, eng⟩ := c.abandonIn_keeps (spillsOut s n)
  obtain ⟨e₀, he₀, rfl⟩ := Option.map_eq_some_iff.1 (eng.symm.trans he)
  split
  · rfl
  · next unnamed =>
    cases out : e₀.cmps with
    | nil => rfl
    | cons x l =>
      have named : c ∈ spillsOut s n := by
        refine List.mem_filter.2 ⟨List.mem_filter.2 ⟨hc, beq_iff_eq.2 hn⟩, ?_⟩
        simp only [he₀, hp, out, Option.any_some, List.isEmpty_cons, beq_self_eq_true, Bool.not_false, Bool.and_self]
      exact (unnamed (List.any_eq_true.2 ⟨c, named, beq_self_eq_true _⟩)).elim

/-- Settles O33: the zeroed window by slots, and the commands in flight after each SPILL named has lost its writes. -/
theorem disableWork : Obligations.DisableWork := by
  refine ⟨fun n s h5 hb => ⟨_, execTunZeroComplete_zeroes h5 hb, ?zeroed, fun core hcore slot row => ?rows⟩,
    fun n s h3 hu => ?abandoned⟩
  case zeroed => rw [onCtx_same _ _ _ n.isLt]
  case rows =>
    have rows := s.zeroWindow_tunRow (n := n) hcore slot row
    refine ⟨fun lo hi free => rows.trans (if_pos (mem_windowFree.2 ⟨lo, hi, free⟩)),
      fun out => rows.trans (if_neg fun h => ?_)⟩
    obtain ⟨lo, hi, free⟩ := mem_windowFree.1 h
    rcases out with out | out | out
    · omega
    · omega
    · exact absurd (out.symm.trans free) (by decide)
  case abandoned =>
    have ht := execFarWriteAbandon_abandons h3 hu
    have cmds := State.abandonAll_cmds (spillsOut s n) s
    refine ⟨_, ht, (execFarWriteAbandon_ev n s ht).frame, fun d hd hn hp e he => ?_, ?_⟩
    · rw [cmds] at hd
      obtain ⟨c, hc, rfl⟩ := List.mem_map.1 hd
      obtain ⟨key, pkt, -⟩ := c.abandonIn_keeps (spillsOut s n)
      have q : (c.abandonIn (spillsOut s n)).q = c.q := congrArg Prod.fst key
      exact abandonIn_spillsOut hc (q ▸ hn) (pkt ▸ hp) he
    · rw [cmds, List.map_map]
      refine List.map_congr_left fun c _ => ?_
      obtain ⟨key, -, eng⟩ := c.abandonIn_keeps (spillsOut s n)
      rw [Function.comp_apply, key, eng, Option.map_map]
      exact congrArg (fun f => (c.key, Option.map f c.eng?)) (funext fun e => by simp only [Function.comp_apply]; split <;> rfl)

end Sys2Proof.Machine
end

section
/-! SUPPORT. Drains (R168-R175, R198, R235): a granted row, and the done action of a plain drain. -/
namespace Sys2Proof.Machine

/-! A granted row (R170-R174). -/

/-- The fusion unit gives the row that is next. -/
theorem execDrainRowGrant_gives {k : KIx} {s : State} {u : Nat} {d : Drain} {cmd : Cmd} {c : Comp} (hu : unitsRun s = true)
    (hin : (s.core k).inService = true) (hg : nextGrant s k = some (u, d)) (hc : s.claimCmd d.seed = some (cmd, c)) :
    execDrainRowGrant k none s = .next (((s.giveRow u cmd c d).finishSaves).elect k) := by
  simp only [execDrainRowGrant, hu, hin, hg, hc, Bool.not_true, Bool.or_self, Bool.false_eq_true, if_false]

/-- A drain goes on past a row, whose slot row is let go of. -/
def State.passRow (s : State) (u : Nat) (d : Drain) (o : RowOut) : State :=
  let s := s.onDrains u (fun l => l.map (fun x => if x == d then d.after o else x))
  s.wipe u d (s.drainsOf u)

/-- A row shown in the progress of its command (R292). -/
def State.showRow (s : State) (cmd : Cmd) (d : Drain) : State :=
  (s.onComp d.seed.key (fun c => c.onEntry d.seed.ord d.tile (fun e =>
    { e with begun := e.begun || decide (0 < rowsShown cmd d), rowsWritten := max e.rowsWritten (rowsShown cmd d) }))).syncArea
    d.seed.key

/-- What a granted row does beside its stores. -/
def State.noteRow (s : State) (u : Nat) (cmd : Cmd) (d : Drain) (o : RowOut) : State :=
  (((s.passRow u d o).showRow cmd d).turnBand u cmd.pkt d).release u d.seed

/-- A row that can be read and written, and need not wait, is stored and noted. -/
theorem State.giveRow_stores {s : State} {u : Nat} {cmd : Cmd} {c : Comp} {d : Drain}
    (hr : spansFault s (c.rowSpans cmd.pkt d.src (c.drainTile d) ((c.drainTile d).m0 + d.row)) = none)
    (hf : rowFault s (c.grantRow s u cmd d) = none)
    (hw : s.writeWaits (some (ctxOf d.seed.key.1)) ((c.grantRow s u cmd d).writes.map (fun w => (w.1, w.2.length))) = false) :
    s.giveRow u cmd c d = ((c.grantRow s u cmd d).writes.foldl (fun s w => s.store w.1 w.2) s).noteRow u cmd d
      (c.grantRow s u cmd d) := by
  simp only [State.giveRow, hr, hf, hw, Bool.false_eq_true, if_false]
  rfl

theorem State.passRow_ev (s : State) (u : Nat) (d : Drain) (o : RowOut) :
    Ev [.arrays, .halves, .cores, .tun] s (s.passRow u d o) :=
  (State.wipe_ev ..).then ((State.onDrains_ev ..).mono rfl) rfl

theorem State.showRow_ev (s : State) (cmd : Cmd) (d : Drain) : Ev [.cp, .mem] s (s.showRow cmd d) :=
  (State.syncArea_ev ..).then ((s.onComp_ev ..).mono rfl) rfl

/-- The band turned and the slots released: the units alone change. -/
theorem State.bandTurned_ev (s : State) (u p : Nat) (d : Drain) (sd : Seed) :
    Ev [.arrays, .halves, .cores] s ((s.turnBand u p d).release u sd) :=
  (State.release_ev ..).then (State.turnBand_ev ..) rfl

theorem State.noteRow_ev (s : State) (u : Nat) (cmd : Cmd) (d : Drain) (o : RowOut) :
    Ev [.cp, .arrays, .halves, .cores, .tun, .mem] s (s.noteRow u cmd d o) :=
  (State.bandTurned_ev ..).then ((State.showRow_ev ..).then ((s.passRow_ev u d o).mono rfl) rfl) rfl

/-- Of near memory a noted row changes the progress area alone. -/
theorem State.noteRow_above (s : State) (u : Nat) (cmd : Cmd) (d : Drain) (o : RowOut) : s.memAbove (s.noteRow u cmd d o) := by
  have passed : s.memAbove (s.passRow u d o) := State.memAbove_of_mem ((s.passRow_ev u d o).frame .mem rfl)
  have shown : (s.passRow u d o).memAbove ((s.passRow u d o).showRow cmd d) :=
    State.memAbove_trans (State.memAbove_of_mem rfl) (State.syncArea_above _ _)
  exact State.memAbove_trans (State.memAbove_trans passed shown)
    (State.memAbove_of_mem ((State.bandTurned_ev ..).frame .mem rfl))

/-- A noted row changes no packet of a command in flight. -/
theorem State.noteRow_pkts (s : State) (u : Nat) (cmd : Cmd) (d : Drain) (o : RowOut) (P : Nat → Prop)
    (h : ∀ x ∈ s.cp.cmds, P x.pkt) : ∀ x ∈ (s.noteRow u cmd d o).cp.cmds, P x.pkt := by
  rw [State.noteRow, (State.bandTurned_ev ..).frame .cp rfl, State.showRow, (State.syncArea_ev ..).frame .cp rfl]
  exact onComp_pkts _ _ _ P (by rw [(s.passRow_ev u d o).frame .cp rfl]; exact h)

/-! The done action of a plain drain without staged outputs (R174, R235). -/

/-- The entry of a tile whose copy is done (R235). -/
def Entry.finish (e : Entry) (u : Nat) (d : Drain) : Entry :=
  { e with state := .done, checksum := d.sum.toNat, unit := u, copies := e.copies - 1, counts := e.counts.add d.counts }

/-- The drains of a unit but `d`. -/
def State.drainsBut (s : State) (u : Nat) (d : Drain) : List Drain := (s.drainsOf u).filter (not ∘ [d].contains)

/-- The drain `d` taken from its unit, its slot rows let go of. -/
def State.takeDrain (s : State) (u : Nat) (d : Drain) : State :=
  ((s.drainsOf u).filter [d].contains).foldl (fun t x => t.wipe u x (s.drainsBut u d)) (s.onDrains u (fun _ => s.drainsBut u d))

/-- What follows once the entry of a tile is DONE (R232, R236, R237, R239). -/
def State.settleDone (s : State) (u : Nat) (sd : Seed) : State := (((s.copyEnds u sd).release u sd).afterDone sd).electAll

/-- Letting go of slot rows changes the tun alone. -/
theorem State.wipes_ev (s : State) (u : Nat) (kept l : List Drain) : Ev [.tun] s (l.foldl (fun t x => t.wipe u x kept) s) :=
  Ev.foldl _ (fun _ _ h => (State.wipe_ev ..).then h rfl) l s (Ev.refl s)

theorem State.takeDrain_ev (s : State) (u : Nat) (d : Drain) : Ev [.arrays, .halves, .cores, .tun] s (s.takeDrain u d) :=
  (State.wipes_ev ..).then ((s.onDrains_ev ..).mono rfl) rfl

/-- A drain that is taken is no more on its unit. -/
theorem State.takeDrain_gone (s : State) {u : Nat} (hu : u < 56) (d : Drain) : d ∉ (s.takeDrain u d).drainsOf u := by
  have wiped := (s.onDrains u (fun _ => s.drainsBut u d)).wipes_ev u (s.drainsBut u d) ((s.drainsOf u).filter [d].contains)
  rw [State.takeDrain, drainsOf_congr (wiped.frame .arrays rfl) (wiped.frame .halves rfl) (wiped.frame .cores rfl),
    onDrains_drainsOf _ _ hu, State.drainsBut, List.mem_filter]
  simp

/-- The entry of a CLAIMED tile is finished by its drain. -/
theorem State.doneEntry_claimed {s : State} {u : Nat} {d : Drain} {cmd : Cmd} {c : Comp} {e : Entry}
    (hk : s.cmd? d.seed.key = some cmd) (hc : cmd.comp? = some c) (he : c.entry? d.seed.ord d.tile = some e)
    (hs : e.state = .claimed) (hst : d.staged = []) :
    s.doneEntry u d = s.onComp d.seed.key (fun c => c.onEntry d.seed.ord d.tile (·.finish u d)) := by
  simp only [State.doneEntry, hk, hc, he, hs, hst]
  rfl

/-- The compute part of a command found. -/
theorem comp_of_cmd {s : State} {k : Key} {cmd : Cmd} {c : Comp} (hk : s.cmd? k = some cmd) (hc : cmd.comp? = some c) :
    s.comp? k = some c := by
  rw [State.comp?, hk, Option.bind_some, hc]

/-- An entry after a change of it. -/
theorem Comp.onEntry_entry (c : Comp) (ord i : Nat) (f : Entry → Entry) :
    (c.onEntry ord i f).entry? ord i = (c.entry? ord i).map f := by
  unfold Comp.entry? Comp.run? Comp.onEntry Comp.onRun
  rw [List.getElem?_modify]
  cases c.runs[ord]? with
  | none => rfl
  | some r => simp

/-- A complete plain drain is due alone. -/
theorem dueDrains_plain {s : State} {u : Nat} {d : Drain} (hd : (s.drainsOf u).find? (·.complete) = some d)
    (hp : d.sweep = .plain) : dueDrains s u = [d] := by
  simp only [dueDrains, hd, hp]
  rfl

/-- No output is staged: nothing is applied, waited for or sent. -/
theorem State.doneAction_plain {s : State} {u : Nat} {d : Drain} (hst : d.staged = []) :
    s.doneAction u false d [] = ((s.takeDrain u d).doneEntry u d).settleDone u d.seed := by
  have added : failedAdd s false ([d].flatMap (appliedAdds s)) = none := by
    have : appliedAdds s d = [] := by
      unfold appliedAdds
      split
      · rfl
      · split <;> simp [hst]
    simp [failedAdd, this]
  simp only [State.doneAction, added, List.partition_eq_filter_filter]
  rfl

/-- The done action of a complete plain drain without staged outputs is taken at once while its context is ACTIVE (R235). -/
theorem execDoneAction_plain {u : UIx} {s : State} {d : Drain} (hu : unitsRun s = true)
    (hd : (s.drainsOf u).find? (·.complete) = some d) (hp : d.sweep = .plain) (hst : d.staged = [])
    (hm : (s.ctx (ctxOf d.seed.key.1)).mode = .active) :
    execDoneAction u false s = .next (((s.takeDrain u d).doneEntry u d).settleDone u d.seed) := by
  have fits : framesFit s [d] = true := by simp [framesFit, hst]
  have waits : dueWaits s [d] = false := by simp [dueWaits, hst, State.writeWaits]
  have applies : dueFault s [d] = none := by simp [dueFault, hst]
  have sends : sendsFrames [d] = false := by simp [sendsFrames, hst]
  simp only [execDoneAction, dueDrains_plain hd hp, hu, fits, waits, hm, applies, sends, State.doneAction_plain hst,
    Bool.not_true, Bool.or_self, beq_self_eq_true, Bool.true_or, Bool.false_and, Bool.false_eq_true, if_false]

/-- Eligibility taken anew leaves the drains and the commands. -/
theorem After.electAll {k : Key} {ord i ck un u : Nat} (s : State) : After k ord i ck un u s s.electAll :=
  After.foldl State.elect (fun s c => After.onCore s c (·.refresh (coreEligibles s c)) (fun _ _ h => h)) _ s

theorem After.settleDone {ord i ck un u : Nat} (s : State) (v : Nat) (sd : Seed) :
    After sd.key ord i ck un u s (s.settleDone v sd) := by
  have ends : After sd.key ord i ck un u s (s.copyEnds v sd) := by
    unfold State.copyEnds
    split
    · exact After.refl s
    · exact After.specEnds s sd
  exact (After.electAll _).trans ((After.afterDone _ sd rfl).trans ((After.release _ v sd).trans ends))

/-- Settles O58: a granted row is stored and then noted; a finished entry outlasts what follows a done action. -/
theorem drainsFinish : Obligations.DrainsFinish := by
  refine fun s hu => ⟨fun k u d cmd c hin hg hc hr hf hs hw => ?row, fun u d cmd c e hd hp hk hc he hcl hm hst h1 => ?done⟩
  case row =>
    have stored := stores_ev s (c.grantRow s u cmd d).writes
    have given := State.giveRow_stores hr hf hw
    generalize (c.grantRow s u cmd d).writes.foldl (fun s w => s.store w.1 w.2) s = w at stored given ⊢
    have noted := w.noteRow_ev u cmd d (c.grantRow s u cmd d)
    have saves : (s.giveRow u cmd c d).finishSaves = w.noteRow u cmd d (c.grantRow s u cmd d) := by
      rw [given]
      exact finishSaves_none _ (w.noteRow_pkts u cmd d _ (pOp · ≠ 0x30) (by rw [stored.frame .cp rfl]; exact hs))
    refine ⟨_, (execDrainRowGrant_gives hu hin hg hc).trans (congrArg (fun t => Host.Outcome.next (State.elect t k)) saves),
      ?_, ?_⟩
    · exact State.memAbove_trans (w.noteRow_above u cmd d _) (State.memAbove_of_mem rfl)
    · exact ((State.elect_ev ..).then (noted.then (stored.mono rfl) rfl) rfl).frame
  case done =>
    have found : (s.takeDrain u d).cmd? d.seed.key = some cmd := (cmd_of_cp ((s.takeDrain_ev u d).frame .cp rfl) _).trans hk
    have finished := State.doneEntry_claimed (u := u) found hc he hcl hst
    have settled := After.settleDone (ord := d.seed.ord) (i := d.tile) (ck := d.sum.toNat) (un := u) (u := u)
      ((s.takeDrain u d).doneEntry u d) u d.seed
    have comp : ((s.takeDrain u d).doneEntry u d).comp? d.seed.key = some (c.onEntry d.seed.ord d.tile (·.finish u d)) := by
      rw [finished, onComp_comp, comp_of_cmd found hc, Option.map_some]
    obtain ⟨c', e', comp', -, entry, state, sum, unit⟩ := settled.ent
      ⟨_, e.finish u d, comp, h1, (c.onEntry_entry ..).trans (congrArg (Option.map _) he), rfl, rfl, rfl⟩
    refine ⟨_, c', e', execDoneAction_plain hu hd hp hst hm, comp', entry, state, sum, unit, fun h => ?_⟩
    have left := settled.dr d h
    rw [finished] at left
    exact s.takeDrain_gone u.isLt d left

end Sys2Proof.Machine
end

section
/-! SUPPORT. Dispatch of the commands that use the ledger (R226, R227, R231, R279, R287): one equation per outcome, for a packet
and for a command that waits for a record. -/
namespace Sys2Proof.Machine

/-! A record and a ticket (R226, R227). -/

/-- The ticket that the next command takes (R226). -/
def State.dueTicket (s : State) : Nat := s.nextTicket 400 s.cp.nextTicket

theorem dueTicket_congr {s t : State} (h : t.cp = s.cp) : t.dueTicket = s.dueTicket := by
  rw [State.dueTicket, nextTicket_congr h, h, State.dueTicket]

/-- A checked command in flight with record `r` and the next ticket, before any unit may draw from it (R226, R227). -/
def State.ticketed (s : State) (q pos p step : Nat) (c : Comp) (r : Nat) : State :=
  (s.onCp (fun cp => { cp with nextTicket := (s.dueTicket + 1) % 65536 })).addCmd
    { Cmd.read q pos p step (.compute { c with recNo := some r, ticket := s.dueTicket }) with
      ticket := some (s.dueTicket) }

theorem State.ticketed_ev (s : State) (q pos p step : Nat) (c : Comp) (r : Nat) : Ev [.cp] s (s.ticketed q pos p step c r) :=
  (State.addCmd_ev ..).then (State.onCp_ev ..) rfl

theorem State.ticketed_queue (s : State) (q pos p step : Nat) (c : Comp) (r i : Nat) :
    (s.ticketed q pos p step c r).queue i = s.queue i :=
  congrArg (vget · i) ((State.ticketed_ev ..).frame .qs rfl)

/-- With no record free the command holds its queue. -/
theorem State.launch_of_full {s : State} (h : s.freeRec = none) (q pos p step : Nat) (c : Comp) :
    s.launch q pos p step c = s.launchCmd (Cmd.read q pos p step (.waitRecord c)) true := by
  simp only [State.launch, h]

/-- With a record free the command takes the lowest, may be drawn from by every unit, and is published. -/
theorem State.launch_of_free {s : State} {r : Nat} (h : s.freeRec = some r) (q pos p step : Nat) (c : Comp) :
    s.launch q pos p step c = ((s.ticketed q pos p step c r).allowDraws (q, pos)).publish (q, pos) := by
  simp only [State.launch, h]
  rfl

/-! Dispatch (R279, R287). -/

/-- The rows of the packets that use the ledger, each with its opcode. -/
def computeRows : List ((QIx → Instr) × Nat) :=
  [(.matmul, 0x10), (.matvec, 0x11), (.gatherMatmul, 0x12), (.segmentSum, 0x13), (.combine, 0x14), (.finish, 0x15)]

theorem exec_computeRow {row : (QIx → Instr) × Nat} (h : row ∈ computeRows) (q : QIx) (s : State) :
    exec (row.1 q) s = .next (dispatchComp row.2 q s) := by
  simp only [computeRows, List.mem_cons, List.not_mem_nil, or_false] at h
  obtain rfl | rfl | rfl | rfl | rfl | rfl := h <;> rfl

/-- Whether the statistics writes can be made depends on memory alone. -/
theorem SameMem.statWriteFault {s t : State} (h : SameMem s t) (c : Comp) (p : Nat) :
    statWriteFault t c p = statWriteFault s c p := by
  simp only [Machine.statWriteFault, h.outputFault]

theorem dispatchComp_of_prepare_error {s : State} {q : QIx} {op p : Nat} {e : Cond} (h : Waits s q op p)
    (he : prepare (s.takePacket q) q (packetAddr (s.queue q) (s.queue q).head) op p = .error e) :
    dispatchComp op q s = (s.takePacket q).replyNow q (s.queue q).head p [e] := by
  rw [dispatchComp, withPacket_run _ h]
  simp only [he]

theorem dispatchComp_of_prepare_ok {s : State} {q : QIx} {op p : Nat} {c : Comp} (h : Waits s q op p)
    (hc : prepare (s.takePacket q) q (packetAddr (s.queue q) (s.queue q).head) op p = .ok c)
    (hw : statWriteFault s c p = none) :
    dispatchComp op q s = (s.takePacket q).launch q (s.queue q).head p (s.ctx (ctxOf q)).step c := by
  have writable := ((SameMem.takePacket s q).statWriteFault c p).trans hw
  rw [dispatchComp, withPacket_run _ h]
  simp only [hc, writable]
  rfl

theorem State.takePacket_cp (s : State) (q : Nat) : (s.takePacket q).cp = s.cp := rfl

/-- A packet's command that has taken its record and ticket is in flight. -/
theorem State.ticketed_launched (s : State) (q : QIx) (p : Nat) (c : Comp) (r : Nat) :
    Launched s ((s.takePacket q).ticketed q (s.queue q).head p (s.ctx (ctxOf q)).step c r) q
      { Cmd.read q (s.queue q).head p (s.ctx (ctxOf q)).step
          (.compute { c with recNo := some r, ticket := s.dueTicket }) with
        ticket := some (s.dueTicket) } false := by
  refine ⟨?_, ⟨rfl, rfl⟩, (State.ticketed_queue ..).trans (State.onQ_queue ..),
    fun x hx => (State.ticketed_queue ..).trans (State.onQ_queuesBut s q _ x hx),
    ((State.ticketed_ev ..).then (l := [.qs, .cp]) ((State.takePacket_ev s q).mono rfl) rfl).frame⟩
  rw [State.ticketed, dueTicket_congr (s.takePacket_cp q)]
  rfl

/-- Settles O17: the checks decide which equation of dispatch holds; one answers the packet, the others launch its command with a
record and a ticket or have it wait for them. -/
theorem computeDispatch : Obligations.ComputeDispatch := by
  intro row hrow q s p h
  rw [exec_computeRow hrow q s]
  constructor
  · intro e he
    exact ⟨_, congrArg _ (dispatchComp_of_prepare_error h he), s.replyNow_answered q p [e]⟩
  · intro c hc hw
    rw [dispatchComp_of_prepare_ok h hc hw]
    constructor
    · intro full
      exact ⟨_, congrArg _ (State.launch_of_full (s := s.takePacket q) full ..), s.launchCmd_launched q _ true rfl rfl⟩
    · intro r free
      exact ⟨_, congrArg _ (State.launch_of_free (s := s.takePacket q) free ..),
        congrArg (fun n => (n + 1) % 65536) (dueTicket_congr (s.takePacket_cp q)), s.ticketed_launched q p c r⟩

end Sys2Proof.Machine
end

section
/-! SUPPORT. The ledger as records and entries become free (R227, R228, R231, R291): one equation per outcome. -/
namespace Sys2Proof.Machine

/-! A command that waits for a record (R227). -/

/-- The command that waited is no longer in flight as waiting, and its queue is let go. -/
def State.unwait (s : State) (q : Nat) (c : Cmd) : State := (s.dropCmd c.key).onQ q (fun y => { y with hold := none })

theorem execWorkCounterRecordFree_of_full {q : QIx} {s : State} (h : s.freeRec = none) :
    execWorkCounterRecordFree q s = .next s := by
  unfold execWorkCounterRecordFree
  congr 1
  split
  · split
    · exact if_neg (by simp [h])
    · rfl
  · rfl

theorem execWorkCounterRecordFree_of_free {q : QIx} {s : State} {c : Cmd} {x : Comp} (hold : s.holder q = some c)
    (waits : c.body = .waitRecord x) (acts : actsFor s (ctxOf q) = true) (free : s.freeRec ≠ none) :
    execWorkCounterRecordFree q s = .next ((s.unwait q c).launch q c.pos c.pkt c.step x) := by
  have free := Option.isSome_iff_ne_none.2 free
  simp only [execWorkCounterRecordFree, hold, waits, acts, free, Bool.and_self, if_true]
  rfl

/-! A run written (R228, R231). -/

theorem execLedgerRunWrite_of_misfit {q : QIx} {pos : Nat} {s : State} (h : s.nextRunFits (q.val, pos) = false) :
    execLedgerRunWrite q pos s = .next s :=
  congrArg _ (if_pos (by simp [h]))

theorem execLedgerRunWrite_of_published {q : QIx} {pos : Nat} {s : State} {c : Comp} (acts : s.cp.paused = false)
    (lives : s.lives (q.val, pos) = true) (hc : s.comp? (q.val, pos) = some c) (pub : c.published = true)
    (fits : s.nextRunFits (q.val, pos) = true) :
    execLedgerRunWrite q pos s
      = .next (((s.onComp (q.val, pos) Comp.writeRun).claimAllHeld (q.val, pos)).syncArea (q.val, pos)) := by
  simp only [execLedgerRunWrite, acts, lives, fits, hc, pub, Bool.not_true, Bool.or_self, Bool.false_eq_true, if_false, if_true]

/-- Settles O18: a command that waited is launched as at dispatch, and a run that fits is written; otherwise nothing changes. -/
theorem ledgerGrows : Obligations.LedgerGrows := by
  constructor
  · intro q s c x hold waits acts
    refine ⟨execWorkCounterRecordFree_of_full, fun r vacant free => ?_⟩
    have lowest : (s.unwait q c).freeRec = some r := free
    have unwaited : Ev [.qs, .cp] s (s.unwait q c) := (State.onQ_ev ..).then ((State.dropCmd_ev ..).mono rfl) rfl
    have ticket : (s.unwait q c).dueTicket = (s.dropCmd c.key).dueTicket := dueTicket_congr rfl
    refine ⟨(s.unwait q c).ticketed q c.pos c.pkt c.step x r, ?_, ?_, ?_, ((State.ticketed_ev ..).then unwaited rfl).frame⟩
    · exact (execWorkCounterRecordFree_of_free hold waits acts vacant).trans
        (congrArg _ (State.launch_of_free lowest ..))
    · rw [State.ticketed, ticket]
      rfl
    · rw [State.ticketed_queue, State.unwait, State.onQ_queue]
  · intro q pos s c acts lives hc pub
    refine ⟨fun fits => ⟨_, execLedgerRunWrite_of_published acts lives hc pub fits, (State.onComp_ev ..).frame, ?_, rfl⟩,
      execLedgerRunWrite_of_misfit⟩
    rw [onComp_comp, hc, Option.map_some]

end Sys2Proof.Machine
end

section
/-! SUPPORT. How a unit takes work (R228, R234, R239): one equation per row and outcome, and what a fetch-add leaves. -/
namespace Sys2Proof.Machine

/-! What a unit holds, while its core's eligibility alone is taken anew (R299). -/

theorem units_elected {s t : State} (ha : t.arrays = s.arrays) (hh : t.halves = s.halves) (hc : s.coresElected t) (u : Nat) :
    t.seedsOn u = s.seedsOn u ∧ t.holdOf u = s.holdOf u ∧ t.noDrawOf u = s.noDrawOf u := by
  have core : ∀ k, (t.core k).paused = (s.core k).paused ∧ (t.core k).fusionDrains = (s.core k).fusionDrains
      ∧ (t.core k).fusionHold = (s.core k).fusionHold ∧ (t.core k).fusionNoDraw = (s.core k).fusionNoDraw := by
    intro k
    obtain ⟨v, e, hk⟩ := hc k
    rw [hk]
    exact ⟨rfl, rfl, rfl, rfl⟩
  simp only [State.seedsOn, State.walkOf, State.drainsOf, State.holdOf, State.noDrawOf, State.array, State.half, ha, hh, core,
    and_self]

/-! One fetch-add on NEXT (R228). -/

/-- The work counter after a fetch-add. -/
def Comp.fetched (c : Comp) : Comp := { c with next := (c.next + 1) % 2 ^ 32 }

/-- The outcome of a draw of unit `u` from a command whose counter was as in `c`. -/
def State.drawOutcome (s : State) (u : Nat) (k : Key) (c : Comp) : State :=
  let s := s.onComp k Comp.fetched
  if c.stop then s.onNoDraw u (· ++ [k])
  else if c.next < c.limit then s.startClaim u ⟨k, c.next, .draw⟩
  else if c.next < c.stageCount then s.setHold u (some (k, c.next))
  else (s.onComp k (fun c => { c with exhausted := true })).onNoDraw u (· ++ [k])

theorem State.drawFrom_eq (s : State) (u : Nat) (cmd : Cmd) (c : Comp) :
    s.drawFrom u cmd c = (s.drawOutcome u cmd.key c).syncArea cmd.key := rfl

/-- From a state where the work counter of command `k` was as in `c`, unit `u` has drawn from it to `t` (R228). -/
structure Drawn (k : Key) (c : Comp) (u : Nat) (t : State) : Prop where
  counter : ∃ d, t.comp? k = some d ∧ d.next = (c.next + 1) % 2 ^ 32 ∧ d.limit = c.limit
    ∧ (c.stop = false → c.limit ≤ c.next → c.stageCount ≤ c.next → d.exhausted = true)
  claims : c.stop = false → c.next < c.limit → c.next < c.runs.length → ⟨k, c.next, .draw⟩ ∈ t.seedsOn u
  holds : c.stop = false → c.limit ≤ c.next → c.next < c.stageCount → t.holdOf u = some (k, c.next)
  past : c.stop = false → c.limit ≤ c.next → c.stageCount ≤ c.next → k ∈ t.noDrawOf u
  stopped : c.stop = true → k ∈ t.noDrawOf u

/-- What was drawn stays drawn while the units and commands stay and eligibility is taken anew. -/
theorem Drawn.elected {k : Key} {c : Comp} {u : Nat} {s t : State} (h : Drawn k c u s) (hp : t.cp = s.cp)
    (ha : t.arrays = s.arrays) (hh : t.halves = s.halves) (hc : s.coresElected t) : Drawn k c u t := by
  obtain ⟨seeds, hold, noDraw⟩ := units_elected ha hh hc u
  obtain ⟨counter, claims, holds, past, stopped⟩ := h
  refine ⟨?_, ?_, ?_, ?_, ?_⟩
  · rwa [comp_of_cp hp]
  · rwa [seeds]
  · rwa [hold]
  · rwa [noDraw]
  · rwa [noDraw]

/-- A claim that starts leaves the work counter of its command. -/
theorem startClaim_counter {s : State} {u : Nat} {sd : Seed} {c : Comp} (hu : u < 56) (hc : s.comp? sd.key = some c) :
    ∃ d, (s.startClaim u sd).comp? sd.key = some d ∧ d.next = c.next ∧ d.limit = c.limit := by
  obtain ⟨cmd, hk, hcmd⟩ := Option.bind_eq_some_iff.1 hc
  cases hr : c.run? sd.ord with
  | none =>
    have unstarted : s.startClaim u sd = s := by simp only [State.startClaim, hk, hcmd, hr]
    exact ⟨c, by rw [unstarted, hc], rfl, rfl⟩
  | some r =>
    obtain ⟨-, -, -, hcp⟩ := startClaim_taken s sd hu hk hcmd hr
    exact ⟨_, (comp_of_cp hcp _).trans ((onComp_comp ..).trans (congrArg _ hc)), rfl, rfl⟩

/-- A claim that starts on a stage tile of its command is on its unit. -/
theorem startClaim_seed {s : State} {u : Nat} {sd : Seed} {c : Comp} (hu : u < 56) (hc : s.comp? sd.key = some c)
    (ho : sd.ord < c.runs.length) : sd ∈ (s.startClaim u sd).seedsOn u := by
  obtain ⟨cmd, hk, hcmd⟩ := Option.bind_eq_some_iff.1 hc
  exact (startClaim_taken s sd hu hk hcmd (List.getElem?_eq_getElem ho)).1

/-- Each outcome of a fetch-add is that of R228. -/
theorem State.drawOutcome_drawn {s : State} {u : Nat} {k : Key} {c : Comp} (hu : u < 56) (hc : s.comp? k = some c) :
    Drawn k c u (s.drawOutcome u k c) := by
  have fetched : (s.onComp k Comp.fetched).comp? k = some c.fetched := by rw [onComp_comp, hc, Option.map_some]
  unfold State.drawOutcome
  extract_lets w
  by_cases stop : c.stop = true
  · rw [if_pos stop]
    have undrawn : k ∈ (w.onNoDraw u (· ++ [k])).noDrawOf u := by rw [onNoDraw_noDrawOf _ _ hu]; simp
    exact ⟨⟨_, (comp_of_cp (onNoDraw_cp ..) k).trans fetched, rfl, rfl, by simp [stop]⟩, by simp [stop], by simp [stop],
      fun _ _ _ => undrawn, fun _ => undrawn⟩
  rw [if_neg stop]
  by_cases below : c.next < c.limit
  · rw [if_pos below]
    obtain ⟨d, hd, next, limit⟩ := startClaim_counter (sd := ⟨k, c.next, .draw⟩) hu fetched
    exact ⟨⟨d, hd, next, limit, by omega⟩, fun _ _ ho => startClaim_seed hu fetched ho, by omega, by omega, (absurd · stop)⟩
  rw [if_neg below]
  by_cases tile : c.next < c.stageCount
  · rw [if_pos tile]
    exact ⟨⟨_, (comp_of_cp (setHold_cp ..) k).trans fetched, rfl, rfl, by omega⟩, by omega,
      fun _ _ _ => setHold_holdOf _ _ hu, by omega, (absurd · stop)⟩
  · rw [if_neg tile]
    have exhausted : (w.onComp k (fun c => { c with exhausted := true })).comp? k = some { c.fetched with exhausted := true } := by
      rw [onComp_comp, fetched, Option.map_some]
    exact ⟨⟨_, (comp_of_cp (onNoDraw_cp ..) k).trans exhausted, rfl, rfl, fun _ _ _ => rfl⟩, by omega, by omega,
      fun _ _ _ => by rw [onNoDraw_noDrawOf _ _ hu]; simp, (absurd · stop)⟩

/-- A draw from a chosen command, its progress area shown and eligibility taken anew, is that fetch-add. -/
theorem State.drawFrom_drawn {s : State} {u : Nat} {cmd : Cmd} {c : Comp} (hu : u < 56) (hc : s.comp? cmd.key = some c) (core : Nat) :
    Drawn cmd.key c u ((s.drawFrom u cmd c).elect core) := by
  rw [State.drawFrom_eq]
  have shown := State.syncArea_ev (s.drawOutcome u cmd.key c) cmd.key
  exact (State.drawOutcome_drawn hu hc).elected (shown.frame .cp rfl) (shown.frame .arrays rfl) (shown.frame .halves rfl)
    (elected_trans (elected_of_eq (shown.frame .cores rfl)) (elect_elected _ core))

/-! DRAW (R228, R234). -/

section
variable {u : UIx} {s : State} (free : unitFree s u = true) (ready : readyPaused s u = none)
include free ready

theorem execDraw_draws {n : Nat} {cmd : Cmd} {c : Comp} (mail : s.mailOf u = none) (hold : s.holdOf u = none)
    (place : s.placeFor u = none)
    (chosen : chooseCtx (s.elect (coreOfUnit u)) ((s.elect (coreOfUnit u)).core (coreOfUnit u)).v
      (eligibles (s.elect (coreOfUnit u)) u) = some n)
    (top : topCmd (s.elect (coreOfUnit u)) u n = some cmd) (hc : cmd.comp? = some c) :
    execDraw u s = .next (((s.elect (coreOfUnit u)).drawFrom u cmd c).elect (coreOfUnit u)) := by
  simp only [execDraw, free, ready, mail, hold, place, State.drawOn, chosen, top, hc]
  rfl

theorem execDraw_claims {k : Key} {o : Nat} {c : Comp} (mail : s.mailOf u = none) (place : s.placeFor u = none)
    (hold : s.holdOf u = some (k, o)) (hc : s.comp? k = some c) (stop : c.stop = false) (written : o < c.limit)
    (slots : 32 ≤ u.val ∨ slotsFree s u (ctxOf k.1) c.desc = true) :
    execDraw u s = .next (s.beginClaim u ⟨k, o, .draw⟩) := by
  have claim : heldClaim s u = some ⟨k, o, .draw⟩ := by simp [heldClaim, hold, hc, stop, free, mail, written, slots]
  simp only [execDraw, free, ready, mail, place, hold, State.claimHeld, claim]
  rfl

/-! MAILBOX_TAKE (R234). -/

theorem execMailboxTake_takes {sd : Seed} (mail : s.mailOf u = some sd) (fits : mailFits s u sd = true) :
    execMailboxTake u s = .next (s.beginClaim u sd) := by
  simp only [execMailboxTake, free, ready, mail, fits]
  rfl

theorem execMailboxTake_places {sd : Seed} (mail : s.mailOf u = none) (place : s.placeFor u = some sd) :
    execMailboxTake u s
      = .next ((s.onCp (fun cp => { cp with unplaced := cp.unplaced.erase sd })).beginClaim u sd) := by
  simp only [execMailboxTake, free, ready, mail, place]
  rfl

end

/-- A claim that is placed fits. -/
theorem placeFor_fits {s : State} {u : Nat} {sd : Seed} (h : s.placeFor u = some sd) : mailFits s u sd = true := by
  unfold State.placeFor at h
  split at h
  · cases h
  · exact List.find?_some h

/-! SPECULATIVE_COPY (R239). -/

/-- The stage tile `o` has had its speculative copy, and one more of its command is out. -/
def Comp.speculated (c : Comp) (o : Nat) : Comp :=
  { c.onRun o (fun r => { r with hadSpec := true }) with specOut := c.specOut + 1 }

/-- A speculative copy in the mailbox of array `a`, not yet shown in the progress area. -/
def State.speculate (s : State) (a : Nat) (k : Key) (o : Nat) : State :=
  (s.onComp k (·.speculated o)).setMail a (some ⟨k, o, .speculation⟩)

theorem execSpeculativeCopy_copies {a : AIx} {s : State} {k : Key} {o : Nat} (acts : s.cp.paused = false)
    (whole : s.start.skeleton = false) (free : unitFree s a = true) (mail : s.mailOf a = none)
    (choice : specChoice s a = some (k, o)) : execSpeculativeCopy a s = .next ((s.speculate a k o).syncArea k) := by
  simp only [execSpeculativeCopy, acts, whole, free, mail, choice]
  rfl

/-- Only commands and arrays change until the progress area does. -/
theorem State.speculate_ev (s : State) {a : Nat} (ha : a < 32) (k : Key) (o : Nat) :
    Ev [.cp, .arrays] s (s.speculate a k o) := by
  rw [State.speculate, State.setMail, if_pos ha]
  exact (State.onArray_ev ..).then ((State.onComp_ev ..).mono rfl) rfl

/-- Settles O55: each row's equation gives the next state; what a fetch-add and a claim that begins leave says the rest. -/
theorem unitsTakeWork : Obligations.UnitsTakeWork := by
  intro u s free ready
  refine ⟨?draws, ?held, ?mail, ?placed, ?copy⟩
  case draws =>
    rintro mail hold place v n cmd c rfl chosen top hc hk
    have comp : (s.elect (coreOfUnit u)).comp? cmd.key = some c := comp_of_cmd hk hc
    obtain ⟨⟨d, hd, next, limit, exhausted⟩, claims, holds, past, stopped⟩ :=
      State.drawFrom_drawn u.isLt comp (coreOfUnit u)
    exact ⟨_, d, execDraw_draws free ready mail hold place chosen top hc, hd, next, limit, claims, holds,
      fun h1 h2 h3 => ⟨exhausted h1 h2 h3, past h1 h2 h3⟩, stopped⟩
  case held =>
    intro k o c mail place hold hc stop written run slots
    obtain ⟨cmd, hk, hcmd⟩ := Option.bind_eq_some_iff.1 hc
    obtain ⟨seed, -, unheld, -⟩ := beginClaim_taken s ⟨k, o, .draw⟩ u.isLt hk hcmd (List.getElem?_eq_getElem run)
    exact ⟨_, execDraw_claims free ready mail place hold hc stop written slots, seed, unheld hold⟩
  case mail =>
    intro sd mail fits
    obtain ⟨cmd, c, r, hk, hc, hr⟩ := mailFits_run fits
    obtain ⟨seed, emptied, -, -⟩ := beginClaim_taken s sd u.isLt hk hc hr
    exact ⟨_, execMailboxTake_takes free ready mail fits, seed, emptied⟩
  case placed =>
    intro sd mail place
    obtain ⟨cmd, c, r, hk, hc, hr⟩ := mailFits_run (placeFor_fits place)
    obtain ⟨seed, -, -, cp⟩ :=
      beginClaim_taken (s.onCp (fun cp => { cp with unplaced := cp.unplaced.erase sd })) sd u.isLt hk hc hr
    exact ⟨_, execMailboxTake_places free ready mail place, seed, congrArg Cp.unplaced cp⟩
  case copy =>
    intro a k o hau acts whole mail choice c hc
    rw [← hau] at free mail ⊢
    have placed := s.speculate_ev a.isLt k o
    have shown := (s.speculate a k o).syncArea_ev k
    have mailed : (s.speculate a k o).mailOf a = some ⟨k, o, .speculation⟩ := setMail_mailOf _ _ (by omega)
    obtain ⟨-, mail_shown, -⟩ := units_same (shown.frame .arrays rfl) (shown.frame .halves rfl) (shown.frame .cores rfl) a
    have comp : ((s.speculate a k o).syncArea k).comp? k = some (c.speculated o) := by
      rw [comp_of_cp (shown.frame .cp rfl), State.speculate, comp_of_cp (setMail_cp ..), onComp_comp, hc, Option.map_some]
    exact ⟨_, _, execSpeculativeCopy_copies acts whole free mail choice, mail_shown.trans mailed, comp, rfl,
      State.memAbove_trans (State.memAbove_of_mem (placed.frame .mem rfl)) (State.syncArea_above _ k),
      (shown.then (l := [.cp, .arrays, .mem]) (placed.mono rfl) rfl).frame⟩

end Sys2Proof.Machine
end

section
/-! SUPPORT. What a step can do, and that it keeps near memory in canonical form (15_near_memory, R267, log 2). -/
namespace Sys2Proof.Machine

/-- A step idles on an empty queue, or runs the command at the front on the state with the queue's rest. -/
theorem step_cases {s t : State} (h : step s = .next t) :
    (s.pending = [] ∧ t = s) ∨
      ∃ c rest, s.pending = c :: rest ∧ exec c { s with pending := rest } = .next t := by
  unfold step at h
  split at h
  next empty => exact .inl ⟨empty, (Host.Outcome.next.inj h).symm⟩
  next c rest front => exact .inr ⟨c, rest, front, h⟩

/-- What a command leaves is sound if it ran on a sound state. -/
theorem exec_sound {c : Instr} {s t : State} (h : exec c s = .next t) (sound : s.sound) : t.sound :=
  (exec_ev c s h).mem sound

/-- Settles O5: the queue is no part of memory, and every command evolves the state soundly (`exec_ev`). -/
theorem stepsKeepSound : Obligations.StepsKeepSound := by
  intro s t sound h
  obtain ⟨-, rfl⟩ | ⟨c, rest, -, run⟩ := step_cases h
  · exact sound
  · have popped : State.sound { s with pending := rest } := sound
    exact exec_sound run popped

end Sys2Proof.Machine
end

section
/-! SUPPORT. Packets that must wait, and the doorbells that name them (R270, R271, R273, R295, R391). -/
namespace Sys2Proof.Machine

/-- Every packet row hands its queue to `withPacket`, those of SERVICE through `withService`. -/
theorem exec_packetRow {c : Instr} {q : QIx} (h : packetOf c = some q) (s : State) :
    (∃ g f, exec c s = .next (withPacket s q g f)) ∨ (∃ g f, exec c s = .next (withService s (.packet q) g f)) := by
  unfold packetOf at h
  -- The 25 rows of their own opcode, the 11 subcodes of SERVICE, and the rows that take no packet.
  split at h
  case h_37 => cases h
  all_goals cases h
  case h_26 | h_27 | h_28 | h_29 | h_30 | h_31 | h_32 | h_33 | h_34 | h_35 | h_36 => exact .inr ⟨_, _, rfl⟩
  all_goals exact .inl ⟨_, _, rfl⟩

/-- Settles O27: whichever way a packet row takes its packet, it changes nothing while the packet must wait. -/
theorem packetsWait : Obligations.PacketsWait := by
  intro c q s row waits
  obtain ⟨g, f, run⟩ | ⟨g, f, run⟩ := exec_packetRow row s
  · rw [run, withPacket_wait g f waits]
  · rw [run, withService_wait g f waits]

/-! Doorbells (R271). -/

/-- The distance on the ring of positions as the model forms it is that of R271. -/
theorem ringDistance_eq (t o : Nat) :
    ((t % 2 ^ 32 : Int) - o) % 2 ^ 32 = ((t % 2 ^ 32 + 2 ^ 32 - o % 2 ^ 32) % 2 ^ 32 : Nat) := by
  omega

theorem ringDistance_le_iff (t o l : Nat) :
    ((t % 2 ^ 32 : Int) - o) % 2 ^ 32 ≤ 2 ^ l ↔ (t % 2 ^ 32 + 2 ^ 32 - o % 2 ^ 32) % 2 ^ 32 ≤ 2 ^ l := by
  rw [ringDistance_eq, ← Int.ofNat_le, Int.natCast_pow]
  rfl

theorem lt_ringDistance_iff (t o l : Nat) :
    2 ^ l < ((t % 2 ^ 32 : Int) - o) % 2 ^ 32 ↔ 2 ^ l < (t % 2 ^ 32 + 2 ^ 32 - o % 2 ^ 32) % 2 ^ 32 := by
  rw [← Int.not_le, ringDistance_le_iff, Nat.not_le]

theorem State.writeDoorbell_of_fits {s : State} {q v : Nat} (ring : (s.queue q).log ≠ 0)
    (oldest : ((v % 2 ^ 32 : Int) - (s.queue q).oldest) % 2 ^ 32 ≤ 2 ^ (s.queue q).log)
    (tail : ((v % 2 ^ 32 : Int) - (s.queue q).tail) % 2 ^ 32 ≤ 2 ^ (s.queue q).log) :
    s.writeDoorbell q v = s.onQ q (fun x => { x with tail := v % 2 ^ 32 }) := by
  rw [ringDistance_le_iff] at oldest tail
  exact if_neg (not_or.2 ⟨ring, not_or.2 ⟨Nat.not_lt.2 oldest, Nat.not_lt.2 tail⟩⟩)

theorem State.writeDoorbell_of_misfit {s : State} {q v : Nat}
    (h : 2 ^ (s.queue q).log < ((v % 2 ^ 32 : Int) - (s.queue q).oldest) % 2 ^ 32
      ∨ 2 ^ (s.queue q).log < ((v % 2 ^ 32 : Int) - (s.queue q).tail) % 2 ^ 32 ∨ (s.queue q).log = 0) :
    s.writeDoorbell q v = s.onCtx (ctxOf q) (fun c => { c with qerr := true }) := by
  rw [lt_ringDistance_iff, lt_ringDistance_iff, ← or_assoc] at h
  exact if_pos h.symm

theorem exec_qDoorbellWrite_served {s : State} (h : Served s) (q : QIx) (value : Word) :
    exec (.qDoorbellWrite q value) s = .next (s.writeDoorbell q value.toNat) := by
  rw [← writeReg_doorbell, ← regWrite_served h]
  rfl

/-- Settles O28: a served write reaches the doorbell, whose two conditions are those of R271; a context that is not ACTIVE
dispatches nothing. -/
theorem doorbellRule : Obligations.DoorbellRule := by
  intro q value s served
  rw [exec_qDoorbellWrite_served served]
  refine ⟨fun oldest tail ring => ?accepted, fun misfit => ?ignored, fun idle c row => ?unread⟩
  case accepted => rw [State.writeDoorbell_of_fits ring oldest tail]
  case ignored => rw [State.writeDoorbell_of_misfit misfit]
  case unread => exact packetsWait c q s row (.inl (canDispatch_active idle))

end Sys2Proof.Machine
end

section
/-! SUPPORT. Control packets answered at dispatch (R276, R277, R282, R289, R294, R305, R307, R457): one equation per outcome. -/
namespace Sys2Proof.Machine

/-- A packet that waits is consumed by any row that takes its opcode. -/
theorem withPacket_of_isOp {s : State} {q op p : Nat} {isOp : Nat → Bool} (takes : isOp op = true)
    (f : State → Nat → Nat → Nat → State) (h : Waits s q op p) :
    withPacket s q isOp f = f (s.takePacket q) p (packetAddr (s.queue q) (s.queue q).head) (s.queue q).head := by
  simp [withPacket, h.dispatches, h.present, h.image, h.opcode, h.readable, takes]

/-- An update of the packet's context, then its reply. -/
theorem State.onCtx_answered (s : State) (q : QIx) (n : Nat) (f : Ctx → Ctx) (p : Nat) (conds : List Cond) :
    Answered (s.onCtx n f) (((s.takePacket q).onCtx n f).replyNow q (s.queue q).head p conds) q p conds :=
  (s.onCtx n f).replyNow_answered q p conds

theorem execNop_of_waits {s : State} {q : QIx} {p : Nat} (h : Waits s q 0x01 p) :
    execNop q s = .next ((s.takePacket q).replyNow q (s.queue q).head p []) := by
  rw [execNop, withPacket_run _ h]

theorem execUnknownOpcode_of_waits {s : State} {q : QIx} {op p : Nat} (unknown : opcodeKnown op = false) (h : Waits s q op p) :
    execUnknownOpcode q s = .next ((s.takePacket q).replyNow q (s.queue q).head p [⟨.opcodeInvalid, op⟩]) := by
  rw [execUnknownOpcode, withPacket_of_isOp (by simp [unknown]) _ h, h.opcode]

theorem execStepSet_of_waits {s : State} {q : QIx} {p : Nat} (h : Waits s q 0x08 p) :
    execStepSet q s = .next (((s.takePacket q).onCtx (ctxOf q) (fun c => { c with step := bitsOf p 111 64 })).replyNow q
      (s.queue q).head p []) := by
  rw [execStepSet, withPacket_run _ h]

/-- The totals with those named by the MASK of packet `p` zeroed (R289). -/
def clearTotals (p : Nat) (v : Vector Nat 6) : Vector Nat 6 :=
  Vector.ofFn (fun i => if bitOf p (64 + i) then 0 else vget v i)

theorem vget_clearTotals (p : Nat) (v : Vector Nat 6) {i : Nat} (h : i < 6) :
    vget (clearTotals p v) i = if bitOf p (64 + i) then 0 else vget v i :=
  vget_ofFn _ i h

theorem execCountersClear_of_waits {s : State} {q : QIx} {p : Nat} (h : Waits s q 0x39 p) :
    execCountersClear q s
      = .next (((s.takePacket q).onCtx (ctxOf q) (fun c => { c with totals := clearTotals p c.totals })).replyNow q
          (s.queue q).head p []) := by
  rw [execCountersClear, withPacket_run _ h]
  rfl

/-- Settles O9: each row's equation gives the update made before the reply, and the reply answers the packet. -/
theorem simplePackets : Obligations.SimplePackets := by
  refine ⟨fun q s p => ⟨fun h => ?nop, fun op unknown h => ?unknown⟩, fun q s p h => ?step, fun q s p h => ?clear⟩
  case nop => exact ⟨_, execNop_of_waits h, s.replyNow_answered q p []⟩
  case unknown => exact ⟨_, execUnknownOpcode_of_waits unknown h, s.replyNow_answered q p _⟩
  case step => exact ⟨_, execStepSet_of_waits h, s.onCtx_answered q _ _ p []⟩
  case clear =>
    exact ⟨_, clearTotals p, execCountersClear_of_waits h, fun v i hi => vget_clearTotals p v hi, s.onCtx_answered q _ _ p []⟩

/-! SIGNAL (R282, R305, R457). -/

/-- The number that a SIGNAL leaves at its word: VALUE, or the sum modulo 2^64. -/
def signalWord (s : State) (p : Nat) : Nat :=
  if bitsOf p 65 64 = 1 then (s.readNat (bitsOf p 175 128) 8 + bitsOf p 255 192) % 2 ^ 64 else bitsOf p 255 192

/-- The write that a SIGNAL to the host aperture hands to the host port (R457). -/
def signalRequest (k : Key) (p : Nat) : OutReq := ⟨some k, bitsOf p 175 128, true, natLe (bitsOf p 255 192) 8, 8⟩

theorem signalChecks_near {p : Nat} (op : bitsOf p 65 64 ≤ 1) (aligned : bitsOf p 175 128 % 8 = 0)
    (near : regionOf (bitsOf p 175 128) = .near) (outside : hitsBlockRegion (bitsOf p 175 128) 8 = false) :
    firstFail (signalChecks p) = none := by
  rw [firstFail_none]
  simp [signalChecks, isMult, op, aligned, near, outside]

theorem signalChecks_host {p : Nat} (op : bitsOf p 65 64 = 0) (aligned : bitsOf p 175 128 % 8 = 0)
    (host : regionOf (bitsOf p 175 128) = .host) : firstFail (signalChecks p) = none := by
  rw [firstFail_none]
  simp [signalChecks, isMult, op, aligned, host]

theorem execSignal_near {s : State} {q : QIx} {p : Nat} (h : Waits s q 0x03 p) (checks : firstFail (signalChecks p) = none)
    (near : regionOf (bitsOf p 175 128) = .near) (writable : outputFault s (bitsOf p 175 128) 8 = none)
    (readable : bitsOf p 65 64 = 1 → readFault s (bitsOf p 175 128) 8 = none) :
    execSignal q s = .next (((s.takePacket q).store (bitsOf p 175 128) (natLe (signalWord s p) 8)).replyNow q
      (s.queue q).head p []) := by
  have same := SameMem.takePacket s q
  have unread : (if bitsOf p 65 64 = 1 then readFault (s.takePacket q) (bitsOf p 175 128) 8 else none) = none := by
    rw [same.readFault]
    exact ite_eq_right_iff.2 readable
  rw [execSignal, withPacket_run _ h]
  simp only [checks, near, same.outputFault, writable, unread]
  rfl

theorem execSignal_host {s : State} {q : QIx} {p : Nat} (h : Waits s q 0x03 p) (checks : firstFail (signalChecks p) = none)
    (host : regionOf (bitsOf p 175 128) = .host) :
    execSignal q s = .next (((s.onPort (fun x => { x with
        hout := x.hout ++ [signalRequest (q.val, (s.queue q).head) p] })).takePacket q).launchCmd
      { Cmd.read q (s.queue q).head p (s.ctx (ctxOf q)).step (.signal (bitsOf p 175 128)) with
        dispatched := true, applied := true } false) := by
  rw [execSignal, withPacket_run _ h]
  simp only [checks, host, if_true]
  rfl

/-- Settles O12: in near memory the word is stored before the reply; into the host aperture the write joins the port's requests
and the command is launched. -/
theorem signalWrites : Obligations.SignalWrites := by
  intro q s p h aligned
  refine ⟨fun op near outside valid writable readable => ?near, fun op host => ?host⟩
  case near =>
    exact ⟨_, execSignal_near h (signalChecks_near op aligned near outside) near (outputFault_none near valid writable) readable,
      s.store_answered q _ _ p []⟩
  case host =>
    exact ⟨_, execSignal_host h (signalChecks_host op aligned host) host, State.launchCmd_launched _ q _ false rfl rfl⟩

/-! QUERY (R294). -/

/-- The checks of a QUERY that writes `len` bytes. -/
theorem queryChecks_none {p len : Nat} (kind : bitsOf p 65 64 ≤ 1) (aligned : bitsOf p 175 128 % 64 = 0)
    (near : regionOf (bitsOf p 175 128) = .near) (outside : hitsBlockRegion (bitsOf p 175 128) len = false) :
    firstFail ([ (decide (bitsOf p 65 64 > 1), 8), (!isMult (bitsOf p 175 128) 64, 16) ]
      ++ outputChecks (bitsOf p 175 128) len 16) = none := by
  rw [firstFail_none]
  simp [outputChecks, isMult, kind, aligned, near, outside]

theorem execQuery_totals {s : State} {q : QIx} {p : Nat} (h : Waits s q 0x38 p) (kind : bitsOf p 65 64 = 1)
    (aligned : bitsOf p 175 128 % 64 = 0) (near : regionOf (bitsOf p 175 128) = .near)
    (outside : hitsBlockRegion (bitsOf p 175 128) 48 = false) (writable : outputFault s (bitsOf p 175 128) 48 = none) :
    execQuery q s = .next (((s.takePacket q).store (bitsOf p 175 128) (totalsBytes (s.ctx (ctxOf q)).totals)).replyNow q
      (s.queue q).head p []) := by
  have span : ∀ pr, querySpan (bitsOf p 65 64) pr = 48 := fun _ => if_pos kind
  rw [execQuery, withPacket_run _ h]
  simp only [span, queryChecks_none (Nat.le_of_eq kind) aligned near outside, (SameMem.takePacket s q).outputFault, writable,
    if_pos kind]
  simp only [kind]
  rfl

theorem execQuery_absent {s : State} {q : QIx} {p : Nat} (h : Waits s q 0x38 p) (kind : bitsOf p 65 64 = 0)
    (absent : progressOf s (ctxOf q) (bitsOf p 95 80) = none) (kept : bitOf p 66 = false)
    (aligned : bitsOf p 175 128 % 64 = 0) (near : regionOf (bitsOf p 175 128) = .near)
    (outside : hitsBlockRegion (bitsOf p 175 128) 64 = false) (writable : outputFault s (bitsOf p 175 128) 64 = none) :
    execQuery q s = .next (((s.takePacket q).store (bitsOf p 175 128) (List.replicate 64 0)).replyNow q
      (s.queue q).head p []) := by
  have none_found : progressOf (s.takePacket q) (ctxOf q) (bitsOf p 95 80) = none := absent
  have not_totals : bitsOf p 65 64 ≠ 1 := by omega
  have span : querySpan (bitsOf p 65 64) none = 64 := if_neg not_totals
  rw [execQuery, withPacket_run _ h]
  simp only [none_found, span, queryChecks_none (by omega) aligned near outside, (SameMem.takePacket s q).outputFault, writable,
    kept, if_neg not_totals, Bool.and_false]
  rfl

/-- Settles O13: either form of QUERY stores its bytes and is answered. -/
theorem queryWrites : Obligations.QueryWrites := by
  intro q s p h aligned near
  refine ⟨fun kind outside valid writable => ?totals, fun kind absent kept outside valid writable => ?absent⟩
  case totals =>
    exact ⟨_, execQuery_totals h kind aligned near outside (outputFault_none near valid writable), s.store_answered q _ _ p []⟩
  case absent =>
    exact ⟨_, execQuery_absent h kind absent kept aligned near outside (outputFault_none near valid writable),
      s.store_answered q _ _ p []⟩

end Sys2Proof.Machine
end

section
/-! SUPPORT. COPY and FILL at dispatch (R283, R284, R472, R486): what their field checks ask, and the equation of a length of 0. -/
namespace Sys2Proof.Machine

/-- The destination checks that COPY and FILL share (R283, R472). -/
structure CopyDst (p : Nat) : Prop where
  dst : gDst p % 2048 = 0
  len : gLen p % 2048 = 0
  region : regionOf (gDst p) ≠ .far
  outside : regionOf (gDst p) = .near → hitsBlockRegion (gDst p) (gLen p) = false

theorem fillChecks_none {p : Nat} (d : CopyDst p) : firstFail (copyChecks false p) = none := by
  rw [firstFail_none]
  simpa [copyChecks, isMult, d.dst, d.len, d.region] using d.outside

theorem copyChecks_none {p : Nat} (d : CopyDst p) (src : gSrc p % 2048 = 0) (region : regionOf (gSrc p) ≠ .far)
    (apart : gLen p = 0 ∨ gSrc p + gLen p ≤ gDst p ∨ gDst p + gLen p ≤ gSrc p) : firstFail (copyChecks true p) = none := by
  have fill := (firstFail_none _).1 (fillChecks_none d)
  have overlap : gSrc p < gDst p + gLen p → gDst p < gSrc p + gLen p → gLen p = 0 := by omega
  have source : ∀ x ∈ [(!isMult (gSrc p) 2048, 8), (regionOf (gSrc p) == .far, 8),
      (decide (gSrc p < gDst p + gLen p ∧ gDst p < gSrc p + gLen p) && gLen p != 0, 16)], x.1 = false := by
    simpa [isMult, src, region] using overlap
  rw [firstFail_none]
  intro x hx
  exact (List.mem_append.1 hx).elim (source x) (fill x)

theorem State.copyStart_empty {s : State} {checks : List (Bool × Nat)} {p : Nat} (h : firstFail checks = none) (empty : gLen p = 0)
    (q pos pktA : Nat) (ranges : List Nat) (far : Bool) : s.copyStart q pos p pktA checks ranges far = s.replyNow q pos p [] := by
  simp only [State.copyStart, h, if_pos empty]

theorem execCopy_of_waits {s : State} {q : QIx} {p : Nat} (h : Waits s q 0x18 p) :
    execCopy q s = .next ((s.takePacket q).copyStart q (s.queue q).head p (packetAddr (s.queue q) (s.queue q).head)
      (copyChecks true p) [gSrc p, gDst p] false) := by
  rw [execCopy, withPacket_run _ h]

theorem execFill_of_waits {s : State} {q : QIx} {p : Nat} (h : Waits s q 0x19 p) :
    execFill q s = .next ((s.takePacket q).copyStart q (s.queue q).head p (packetAddr (s.queue q) (s.queue q).head)
      (copyChecks false p) [gDst p] false) := by
  rw [execFill, withPacket_run _ h]

/-- Settles O14: the checks pass; a length of 0 answers the packet, and any other with valid ranges launches its command. -/
theorem copyFillDispatch : Obligations.CopyFillDispatch := by
  constructor
  · intro q s p h src dst len srcRegion region outside apart
    have checks := copyChecks_none ⟨dst, len, region, outside⟩ src srcRegion apart
    rw [show exec (.copy q) s = _ from execCopy_of_waits h]
    refine ⟨fun empty => ?_, fun filled srcValid dstValid => ?_⟩
    · exact ⟨_, rfl, State.copyStart_empty checks empty .. ▸ s.replyNow_answered q p []⟩
    · exact ⟨_, rfl, copyStart_launch checks filled (by simp [rangeBad_nil srcValid, rangeBad_nil dstValid]) rfl⟩
  · intro q s p h dst len region outside
    have checks := fillChecks_none ⟨dst, len, region, outside⟩
    rw [show exec (.fill q) s = _ from execFill_of_waits h]
    refine ⟨fun empty => ?_, fun filled dstValid => ?_⟩
    · exact ⟨_, rfl, State.copyStart_empty checks empty .. ▸ s.replyNow_answered q p []⟩
    · exact ⟨_, rfl, copyStart_launch checks filled (by simp [rangeBad_nil dstValid]) rfl⟩

end Sys2Proof.Machine
end

section
/-! SUPPORT. Replies of commands in flight (R237, R291, R373). -/
namespace Sys2Proof.Machine

theorem cmd?_key {s : State} {k : Key} {c : Cmd} (h : s.cmd? k = some c) : c.key = k := by
  simpa using List.find?_some h

/-- With the work over, the reply of a command depends on what is still in flight of it alone. -/
theorem execReplyWrite_of_ended {q : QIx} {pos : Nat} {s : State} {c : Cmd} (h : s.cmd? (q.val, pos) = some c)
    (ended : c.ended = true) :
    execReplyWrite q pos s = .next (if actsFor s (ctxOf q) && c.over s then s.reply c else s) := by
  simp only [execReplyWrite, finishSave_ended s _ c h ended, h]

/-- A command with a copy in flight is not over (R237). -/
theorem Cmd.over_of_copies {c : Cmd} {x : Comp} {e : Entry} (comp : c.comp? = some x) (mem : e ∈ x.entries) (copies : e.copies ≠ 0)
    (s : State) : c.over s = false := by
  have running : x.noCopies = false := List.all_eq_false.2 ⟨e, mem, by simpa using copies⟩
  unfold Cmd.comp? at comp
  split at comp
  next y body =>
    cases comp
    simp [Cmd.over, body, running]
  next => cases comp

/-- Settles O22: once its work is over, what is in flight of a command decides whether its reply is written. -/
theorem repliesWritten : Obligations.RepliesWritten := by
  intro q pos s c h ended
  rw [show exec (.replyWrite q pos) s = _ from execReplyWrite_of_ended h ended]
  refine ⟨fun acts done => ?answered, fun x comp ⟨e, mem, copies⟩ => ?kept⟩
  case answered =>
    have queue : c.q = q.val := congrArg Prod.fst (cmd?_key h)
    exact ⟨_, by rw [acts, done]; rfl, reply_gen s c (queue ▸ q.isLt)⟩
  case kept => rw [Cmd.over_of_copies comp mem copies s, Bool.and_false, if_neg Bool.false_ne_true]

end Sys2Proof.Machine
end

section
/-! SUPPORT. Granules of COPY and FILL (R283, R284, R290, R339, R406): one equation per outcome. -/
namespace Sys2Proof.Machine

/-- A granule stored and marked done: what holds of the command and of memory (R283, R290). -/
theorem State.granuleStored {s : State} {k : Key} {c : Cmd} {e : Eng} (h : s.cmd? k = some c) (he : c.eng? = some e) (g b : Nat)
    {data : List Byte} (len : data.length = 2048) :
    ((s.store b data).granuleDone k g).mem = (s.store b data).mem
      ∧ s.memOutside ((s.store b data).granuleDone k g) b 2048
      ∧ ∃ d, ((s.store b data).granuleDone k g).cmd? k = some d
        ∧ d.eng? = some { e with doneBits := e.doneBits.set g true }
        ∧ s.onlyIn [.cp, .mem] ((s.store b data).granuleDone k g) := by
  have stored := s.store_ev b data
  have marked := (s.store b data).granuleDone_ev k g
  have mem := marked.frame .mem rfl
  obtain ⟨d, hd, eng, -⟩ := done_find g ((cmd_of_cp (stored.frame .cp rfl) k).trans h) he
  refine ⟨mem, fun x hx => ?_, d, hd, eng, (marked.then (l := [.cp, .mem]) (stored.mono rfl) rfl).frame⟩
  rw [mem]
  exact s.store_outside b data x (len ▸ hx)

theorem State.putGranule_near {s : State} {b : Nat} (near : regionOf b ≠ .host) (writable : outputFault s b 2048 = none)
    (k : Key) (g : Nat) (data : List Byte) : s.putGranule k g b data = (s.store b data).granuleDone k g := by
  simp only [State.putGranule, if_neg near, writable]

theorem State.putGranule_fault {s : State} {b : Nat} {x : Cond} (near : regionOf b ≠ .host)
    (fault : outputFault s b 2048 = some x) (k : Key) (g : Nat) (data : List Byte) : s.putGranule k g b data = s.engHalt k x := by
  simp only [State.putGranule, if_neg near, fault]

theorem State.copyGranule_near {s : State} {p g : Nat} (near : regionOf (gSrc p + 2048 * g) ≠ .host)
    (readable : accessFault s (gSrc p + 2048 * g) 2048 = none) (k : Key) :
    s.copyGranule k p g = s.putGranule k g (gDst p + 2048 * g) (s.readBytes (gSrc p + 2048 * g) 2048) := by
  simp only [State.copyGranule, if_neg near, readable]

section
variable {q : QIx} {pos g : Nat} {s : State} {c : Cmd} {e : Eng}

theorem execGranuleComplete_waits (h : s.cmd? (q.val, pos) = some c) (he : c.eng? = some e)
    (waits : granuleWaits s (q.val, pos) c.pkt g = true) : execGranuleComplete q pos g s = .next s := by
  simp [execGranuleComplete, h, he, waits]

variable (h : s.cmd? (q.val, pos) = some c) (he : c.eng? = some e) (runs : c.ended = false)
  (ready : granuleOpen s (q.val, pos) e g = true) (free : granuleWaits s (q.val, pos) c.pkt g = false)
include h he runs ready free

theorem execGranuleComplete_copy (op : pOp c.pkt = 0x18) :
    execGranuleComplete q pos g s = .next (s.copyGranule (q.val, pos) c.pkt g) := by
  simp [execGranuleComplete, h, he, runs, ready, free, op]

theorem execGranuleComplete_fill (op : pOp c.pkt = 0x19) :
    execGranuleComplete q pos g s
      = .next (s.putGranule (q.val, pos) g (gDst c.pkt + 2048 * g) (patternBytes c.pkt)) := by
  simp [execGranuleComplete, h, he, runs, ready, free, op]

end

/-- Settles O42: a granule that need not wait is stored and marked done, or halts its command. -/
theorem granulesComplete : Obligations.GranulesComplete := by
  intro q pos g s c e h he runs ready
  refine ⟨fun waits => ?waits, fun free near => ⟨fun op srcNear readable writable => ?copy, fun op writable => ?fill,
    fun x op fault => ?fault⟩⟩
  case waits => exact execGranuleComplete_waits h he waits
  case copy =>
    have len := readBytes_len s (gSrc c.pkt + 2048 * g) 2048
    obtain ⟨mem, outside, d, hd, eng, rest⟩ := State.granuleStored h he g (gDst c.pkt + 2048 * g) len
    refine ⟨_, d, ?_, ?_, outside, hd, eng, rest⟩
    · exact (execGranuleComplete_copy h he runs ready free op).trans
        (congrArg _ ((State.copyGranule_near srcNear readable _).trans (State.putGranule_near near writable ..)))
    · have written := store_read s (gDst c.pkt + 2048 * g) (s.readBytes (gSrc c.pkt + 2048 * g) 2048)
      rw [len] at written
      exact (congrArg (MemSt.readBytes · _ 2048) mem).trans written
  case fill =>
    obtain ⟨mem, outside, d, hd, eng, rest⟩ := State.granuleStored h he g (gDst c.pkt + 2048 * g) (pat_len c.pkt)
    refine ⟨_, d, ?_, fun i hi => ?_, outside, hd, eng, rest⟩
    · exact (execGranuleComplete_fill h he runs ready free op).trans (congrArg _ (State.putGranule_near near writable ..))
    · obtain ⟨within, byte⟩ := pat_get c.pkt i hi
      rw [mem, ← byte]
      exact store_byte _ _ _ i within
  case fault =>
    obtain ⟨d, hd, eng, conds, -⟩ := halt_find x h he
    exact ⟨_, d, (execGranuleComplete_fill h he runs ready free op).trans (congrArg _ (State.putGranule_fault near fault ..)),
      hd, conds, eng, (s.engHalt_ev _ x).frame⟩

end Sys2Proof.Machine
end

section
/-! SUPPORT. The values that the registers' Reset columns give (R296, R426-R428, R435, R441, R443, R476, R478, R479). -/
namespace Sys2Proof.Machine

theorem State.reset_ctx {n : Nat} (h : n < 16) : State.reset.ctx n = Ctx.reset := vrep_vget _ n h

theorem State.reset_queue {q : Nat} (h : q < 64) : State.reset.queue q = Queue.reset := vrep_vget _ q h

/-- Settles O3: the settings of the block are fields of State.reset; each context and each queue has the same reset value. -/
theorem resetSettings : Obligations.ResetSettings := by
  refine ⟨rfl, rfl, rfl, rfl, rfl, ⟨rfl, rfl, rfl, rfl, rfl⟩, ⟨rfl, rfl, rfl, rfl⟩, rfl, rfl, fun n hn => ?contexts,
    fun q hq => ?queues⟩
  case contexts => rw [State.reset_ctx hn]; exact ⟨rfl, rfl, rfl, rfl, rfl, rfl⟩
  case queues => rw [State.reset_queue hq]; exact ⟨rfl, rfl, rfl, rfl⟩

end Sys2Proof.Machine
end

section
/-! SUPPORT. Packets that hold their queue: FENCE (R304) and WAIT (R306), one equation per outcome. -/
namespace Sys2Proof.Machine

/-! FENCE (R304). -/

/-- FENCE awaits the commands in flight of its scope. -/
theorem mem_fenceAwaits {s : State} {q p : Nat} {k : Key} :
    k ∈ fenceAwaits s q p ↔ ∃ c ∈ s.cp.cmds, c.key = k ∧ if bitOf p 64 then ctxOf c.q = ctxOf q else c.q = q := by
  unfold fenceAwaits State.cmdsOf
  split <;> simp only [List.mem_map, List.mem_filter, beq_iff_eq] <;>
    exact exists_congr fun c => and_assoc.trans (and_congr_right' and_comm)

theorem fenceAwaits_eq_nil_iff {s : State} {q p : Nat} :
    fenceAwaits s q p = [] ↔ ∀ c ∈ s.cp.cmds, if bitOf p 64 then ctxOf c.q ≠ ctxOf q else c.q ≠ q := by
  rw [List.eq_nil_iff_forall_not_mem]
  simp only [mem_fenceAwaits, not_exists, not_and]
  split <;> exact ⟨fun h c mem => h c.key c mem rfl, fun h k c mem _ => h c mem⟩

theorem execFence_of_none {s : State} {q : QIx} {p : Nat} (h : Waits s q 0x02 p) (idle : fenceAwaits s q p = []) :
    execFence q s = .next ((s.takePacket q).replyNow q (s.queue q).head p []) := by
  have awaits : fenceAwaits (s.takePacket q) q p = [] := idle
  rw [execFence, withPacket_run _ h]
  simp only [awaits]

theorem execFence_of_some {s : State} {q : QIx} {p : Nat} (h : Waits s q 0x02 p) (busy : fenceAwaits s q p ≠ []) :
    execFence q s = .next ((s.takePacket q).launchCmd
      (Cmd.read q (s.queue q).head p (s.ctx (ctxOf q)).step (.fence (fenceAwaits s q p))) true) := by
  obtain ⟨k, l, awaits⟩ := List.exists_cons_of_ne_nil busy
  have taken : fenceAwaits (s.takePacket q) q p = k :: l := awaits
  rw [execFence, withPacket_run _ h, awaits]
  simp only [taken]
  rfl

/-- The command that holds a queue is answered without a progress area if it is none of those that use the ledger. -/
theorem State.reply_of_holder {s : State} {q : QIx} {c : Cmd} (h : s.holder q = some c) (area : c.comp? = none) :
    Replied s (s.reply c) c none :=
  s.reply_replied c (holder_cmd s q c h ▸ q.isLt) area

theorem execFenceRelease_of_holder {s : State} {q : QIx} {c : Cmd} {l : List Key} (h : s.holder q = some c)
    (body : c.body = .fence l) (acts : actsFor s (ctxOf q) = true) :
    execFenceRelease q s = .next (if l.all (fun k => (s.cmd? k).isNone) then s.reply c else s) := by
  simp only [execFenceRelease, h, body, acts, Bool.true_and]

/-- Settles O10: the list of awaited commands decides whether the packet is answered or launched, and later whether the command
that holds the queue is answered. -/
theorem fenceWaits : Obligations.FenceWaits := by
  refine ⟨fun q s p h => ⟨fun idle => ?answered, fun ⟨c, mem, scope⟩ => ?held⟩,
    fun q s c l h body acts => ?release⟩
  case answered => exact ⟨_, execFence_of_none h (fenceAwaits_eq_nil_iff.2 idle), s.replyNow_answered q p []⟩
  case held =>
    have awaits : fenceAwaits s q p ≠ [] := List.ne_nil_of_mem (mem_fenceAwaits.2 ⟨c, mem, rfl, scope⟩)
    exact ⟨_, fenceAwaits s q p, execFence_of_some h awaits, fun k => mem_fenceAwaits,
      State.launchCmd_launched s q _ true rfl rfl⟩
  case release =>
    have run : exec (.fenceRelease q) s = _ := execFenceRelease_of_holder h body acts
    refine ⟨fun answered => ⟨s.reply c, ?_, State.reply_of_holder h (by simp only [Cmd.comp?, body])⟩, fun ⟨k, mem, flies⟩ => ?_⟩
    · rw [run, if_pos (List.all_eq_true.2 fun k mem => Option.isNone_iff_eq_none.2 (answered k mem))]
    · refine run.trans (congrArg _ (if_neg fun answered => ?_))
      have gone := List.all_eq_true.1 answered k mem
      rw [Option.isNone_iff_eq_none] at gone
      rw [gone] at flies
      cases flies

/-! WAIT (R306). -/

/-- The condition of a WAIT as R306 gives it. -/
theorem waitHolds_iff {s : State} {cmp a v : Nat} :
    waitHolds s cmp a v = true ↔ if cmp = 0 then s.readNat a 8 = v else v ≤ s.readNat a 8 := by
  unfold waitHolds
  split <;> exact decide_eq_true_iff

theorem waitHolds_eq_false_iff {s : State} {cmp a v : Nat} :
    waitHolds s cmp a v = false ↔ if cmp = 0 then s.readNat a 8 ≠ v else s.readNat a 8 < v := by
  rw [← Bool.not_eq_true, waitHolds_iff]
  split
  · exact Iff.rfl
  · exact Nat.not_le

/-- What a WAIT asks of its packet before it looks at its condition (R306, R282). -/
structure WaitReadable (s : State) (p : Nat) : Prop where
  cmp : bitsOf p 65 64 ≤ 1
  aligned : bitsOf p 175 128 % 8 = 0
  near : regionOf (bitsOf p 175 128) = .near
  valid : badByte s (bitsOf p 175 128) 8 = none
  readable : readFault s (bitsOf p 175 128) 8 = none

theorem execWait_of_readable {s : State} {q : QIx} {p : Nat} (h : Waits s q 0x04 p) (r : WaitReadable s p) :
    execWait q s = .next (
      if waitHolds s (bitsOf p 65 64) (bitsOf p 175 128) (bitsOf p 255 192) then
        (s.takePacket q).replyNow q (s.queue q).head p []
      else (s.takePacket q).launchCmd (Cmd.read q (s.queue q).head p (s.ctx (ctxOf q)).step
        (.wait (bitsOf p 65 64) (bitsOf p 175 128) (bitsOf p 255 192))) true) := by
  have same := SameMem.takePacket s q
  have checks : firstFail [(decide (bitsOf p 65 64 > 1), 8), (!isMult (bitsOf p 175 128) 8
      || regionOf (bitsOf p 175 128) != .near || (badByte s (bitsOf p 175 128) 8).isSome, 16)] = none := by
    rw [firstFail_none]
    simp [isMult, r.cmp, r.aligned, r.near, r.valid]
  rw [execWait, withPacket_run _ h]
  simp only [same.badByte, same.readFault, checks, r.readable]
  rfl

/-- CMP is the field of the lowest offset (R482). -/
theorem execWait_of_badCmp {s : State} {q : QIx} {p : Nat} (h : Waits s q 0x04 p) (bad : 1 < bitsOf p 65 64) :
    execWait q s = .next ((s.takePacket q).replyNow q (s.queue q).head p
      [badField 0 (packetAddr (s.queue q) (s.queue q).head) 8]) := by
  have checks : ∀ other, firstFail [(decide (bitsOf p 65 64 > 1), 8), (other, 16)] = some 8 := fun other => by
    cases other <;> simp [firstFail, bad]
  rw [execWait, withPacket_run _ h]
  simp only [checks]
  rfl

theorem execWaitSatisfied_of_holder {s : State} {q : QIx} {c : Cmd} {cmp a v : Nat} (h : s.holder q = some c)
    (body : c.body = .wait cmp a v) (acts : actsFor s (ctxOf q) = true) :
    execWaitSatisfied q s = .next (if waitHolds s cmp a v then s.reply c else s) := by
  simp only [execWaitSatisfied, h, body, acts, Bool.true_and]

/-- Settles O11: once the checks pass, the condition decides whether the packet is answered or launched, and later whether the
command that holds the queue is answered. -/
theorem waitHoldsQueue : Obligations.WaitHolds := by
  refine ⟨fun q s p h => ⟨fun cmp aligned near valid readable => ⟨fun holds => ?answered, fun fails => ?held⟩, fun bad => ?bad⟩,
    fun q s c cmp a v h body acts => ⟨fun holds => ?satisfied, fun fails => ?early⟩⟩
  case answered =>
    have run := execWait_of_readable h ⟨cmp, aligned, near, valid, readable⟩
    rw [if_pos (waitHolds_iff.2 holds)] at run
    exact ⟨_, run, s.replyNow_answered q p []⟩
  case held =>
    have run := execWait_of_readable h ⟨cmp, aligned, near, valid, readable⟩
    rw [waitHolds_eq_false_iff.2 fails, if_neg Bool.false_ne_true] at run
    exact ⟨_, run, State.launchCmd_launched s q _ true rfl rfl⟩
  case bad => exact ⟨_, execWait_of_badCmp h bad, s.replyNow_answered q p _⟩
  case satisfied =>
    have run := execWaitSatisfied_of_holder h body acts
    rw [if_pos (waitHolds_iff.2 holds)] at run
    exact ⟨_, run, State.reply_of_holder h (by simp only [Cmd.comp?, body])⟩
  case early =>
    have run := execWaitSatisfied_of_holder h body acts
    rwa [waitHolds_eq_false_iff.2 fails, if_neg Bool.false_ne_true] at run

end Sys2Proof.Machine
end

section
/-! SUPPORT. CTX_CTRL with a CMD (R295, R296, R308, R311, R312): one equation per command, and what a command leaves. -/
namespace Sys2Proof.Machine

/-- A served write by the row of its CMD reaches CTX_CTRL. -/
theorem State.ctxCtrl_served {s : State} (h : Served s) (n : CIx) {cmd : Nat} {value : Word} (hc : ccCmd value.toNat = cmd) :
    s.ctxCtrl n cmd value = s.writeCtxCtrl n value.toNat := by
  rw [State.ctxCtrl, if_pos hc, regWrite_served h, writeReg_ctxCtrl]

theorem State.writeCtxCtrl_of_refused {v : Nat} (h : ccRefused v = true) (s : State) (n : Nat) :
    s.writeCtxCtrl n v = s.onCtx n (fun c => { c with cmdErr := true }) := if_pos h

/-- The fields first, CMD second, and the arrays elect anew (R296, R299). -/
theorem State.writeCtxCtrl_of_taken {v cmd : Nat} (h : ccRefused v = false) (hc : ccCmd v = cmd) (s : State) (n : Nat) :
    s.writeCtxCtrl n v = ((s.onCtx n (·.withFields v)).ctxCommand n cmd).electAll := by
  rw [State.writeCtxCtrl, if_neg (by simp [h]), hc]

theorem Ctx.withFields_of_disabled {c : Ctx} (h : c.mode = .disabled) (v : Nat) :
    (c.withFields v).wBase = ccBase v ∧ (c.withFields v).wCount = ccCount v := by
  simp only [Ctx.withFields, h, if_true, and_self]

theorem mode_of_fields_taken (s : State) (n : CIx) (v : Nat) : ((s.onCtx n (·.withFields v)).ctx n).mode = (s.ctx n).mode := by
  rw [State.onCtx_ctx, withFields_mode]

/-! The commands. -/

/-- The context as ENABLE leaves it (R295). -/
def Ctx.enabled (c : Ctx) : Ctx := { c with mode := .active, stage := 0 }

/-- The context at the beginning of a disable or preemption, with the areas it holds (R308, R311). -/
def Ctx.begun (mode : CtxMode) (areas : List Nat) (c : Ctx) : Ctx :=
  { c with mode := mode, stage := 1, zeroed := false, heldBefore := areas }

/-- The context as RESUME leaves it (R312). -/
def Ctx.resumed (c : Ctx) : Ctx := { c with mode := .active }

section
variable {s : State} {n : Nat}

theorem State.ctxCommand_enable (mode : (s.ctx n).mode = .disabled) (fits : (s.ctx n).wBase + (s.ctx n).wCount ≤ 32)
    (runs : s.blk.mode ≠ .quiesced) : s.ctxCommand n 1 = (s.onQueues n Queue.zeroed).onCtx n Ctx.enabled := by
  simp only [State.ctxCommand, mode]
  exact if_pos ⟨fits, runs⟩

theorem State.ctxCommand_disable (mode : (s.ctx n).mode = .active ∨ (s.ctx n).mode = .suspended) :
    s.ctxCommand n 2 = s.onCtx n (Ctx.begun .disabling (heldAreas s n)) := by
  rcases mode with mode | mode <;> simp only [State.ctxCommand, State.disableCtx, mode] <;> rfl

theorem State.ctxCommand_preempt (mode : (s.ctx n).mode = .active) :
    s.ctxCommand n 3 = s.onCtx n (Ctx.begun .preempting (heldAreas s n)) := by
  simp only [State.ctxCommand, mode]
  rfl

theorem State.ctxCommand_resume (mode : (s.ctx n).mode = .suspended) (runs : s.blk.mode ≠ .quiesced) :
    s.ctxCommand n 4 = s.onCtx n Ctx.resumed := by
  simp only [State.ctxCommand, mode]
  exact if_neg runs

end

/-! What a command leaves. -/

/-- From `s` to `t` a command of CTX_CTRL brings context `n` to `c`: no other context changes, the cores take the eligibility of
contexts anew, and else only the parts in `l` change (R295, R299). -/
structure Commanded (l : List Field) (s t : State) (n : Nat) (c : Ctx) : Prop where
  ctx : t.ctx n = c
  ctxs : s.ctxsBut t n
  cores : s.coresElected t
  rest : s.onlyIn l t

theorem sub_of_subset {m l : List Field} (h : ∀ f ∈ m, f ∈ l) : sub m l = true :=
  List.all_eq_true.2 fun f hf => List.contains_iff_mem.2 (h f hf)

/-- The fields of a context are taken by `f`, parts other than contexts and cores are changed, and CMD acts by `g`. -/
theorem commanded_of_ev {l : List Field} {s u : State} {n : CIx} {f : Ctx → Ctx} (e : Ev l (s.onCtx n f) u)
    (ctxs : l.contains .ctxs = false) (cores : l.contains .cores = false) (g : Ctx → Ctx) :
    Commanded (.ctxs :: (l ++ [.cores])) s (u.onCtx n g).electAll n (g (f (s.ctx n))) := by
  have ctx : ∀ x, (u.onCtx n g).electAll.ctx x = (u.onCtx n g).ctx x := fun x => congrArg (vget · x) (electAll_rest _).1
  have taken : ∀ x, u.ctx x = (s.onCtx n f).ctx x := fun x => congrArg (vget · x) (e.frame .ctxs ctxs)
  refine ⟨?ctx, fun x hx => ?ctxs, ?cores, ?rest⟩
  case ctx => rw [ctx, State.onCtx_ctx, taken, State.onCtx_ctx]
  case ctxs => rw [ctx, State.onCtx_ctxsBut u n g x hx, taken, State.onCtx_ctxsBut s n f x hx]
  case cores => exact elected_trans (elected_of_eq (e.frame .cores cores)) (electAll_elected (u.onCtx n g))
  case rest =>
    have fields := (State.onCtx_ev s n f).mono (l := .ctxs :: (l ++ [.cores])) (sub_of_subset (by simp))
    have parts := e.then fields (sub_of_subset (by simp +contextual))
    have acted := (State.onCtx_ev u n g).then parts (sub_of_subset (by simp))
    exact ((State.electAll_ev _).then acted (sub_of_subset (by simp))).frame

/-- A command that changes its context alone. -/
theorem commanded_of_onCtx (s : State) (n : CIx) (f g : Ctx → Ctx) :
    Commanded [.ctxs, .cores] s ((s.onCtx n f).onCtx n g).electAll n (g (f (s.ctx n))) :=
  commanded_of_ev (Ev.refl (l := []) (s.onCtx n f)) rfl rfl g

/-- A further update of the context and of the cores leaves the queues as ENABLE made them (R270, R295). -/
theorem onQueues_electAll_queue (s : State) (n : CIx) (f : Queue → Queue) (g : Ctx → Ctx) (x : Nat) :
    ((s.onQueues n f).onCtx n g).electAll.queue x = if x / 4 = n then f (s.queue x) else s.queue x :=
  (congrArg (vget · x) (electAll_rest ((s.onQueues n f).onCtx n g)).2).trans (onQueues_queue s n f x)

/-! The rows of a taken write. -/

section
variable {s : State} {n : CIx} {value : Word} (served : Served s) (taken : ccRefused value.toNat = false)
include served taken

theorem execEnable_taken (cmd : ccCmd value.toNat = 1) (mode : (s.ctx n).mode = .disabled)
    (fits : ccBase value.toNat + ccCount value.toNat ≤ 32) (runs : s.blk.mode ≠ .quiesced) :
    execEnable n value s
      = .next (((s.onCtx n (·.withFields value.toNat)).onQueues n Queue.zeroed).onCtx n Ctx.enabled).electAll := by
  obtain ⟨base, count⟩ := Ctx.withFields_of_disabled mode value.toNat
  rw [execEnable, State.ctxCtrl_served served n cmd, State.writeCtxCtrl_of_taken taken cmd,
    State.ctxCommand_enable (s := s.onCtx n (·.withFields value.toNat)) ((mode_of_fields_taken s n _).trans mode)
      (by rw [State.onCtx_ctx, base, count]; exact fits) runs]

theorem execDisable_taken (cmd : ccCmd value.toNat = 2) (mode : (s.ctx n).mode = .active ∨ (s.ctx n).mode = .suspended) :
    execDisable n value s
      = .next ((s.onCtx n (·.withFields value.toNat)).onCtx n (Ctx.begun .disabling (heldAreas s n))).electAll := by
  rw [execDisable, State.ctxCtrl_served served n cmd, State.writeCtxCtrl_of_taken taken cmd,
    State.ctxCommand_disable ((mode_of_fields_taken s n _).symm ▸ mode)]
  rfl

theorem execPreempt_taken (cmd : ccCmd value.toNat = 3) (mode : (s.ctx n).mode = .active) :
    execPreempt n value s
      = .next ((s.onCtx n (·.withFields value.toNat)).onCtx n (Ctx.begun .preempting (heldAreas s n))).electAll := by
  rw [execPreempt, State.ctxCtrl_served served n cmd, State.writeCtxCtrl_of_taken taken cmd,
    State.ctxCommand_preempt ((mode_of_fields_taken s n _).trans mode)]
  rfl

theorem execResume_taken (cmd : ccCmd value.toNat = 4) (mode : (s.ctx n).mode = .suspended) (runs : s.blk.mode ≠ .quiesced) :
    execResume n value s = .next ((s.onCtx n (·.withFields value.toNat)).onCtx n Ctx.resumed).electAll := by
  rw [execResume, State.ctxCtrl_served served n cmd, State.writeCtxCtrl_of_taken taken cmd,
    State.ctxCommand_resume ((mode_of_fields_taken s n _).trans mode) runs]

end

/-- Settles O30: each row's equation gives the next state, and `Commanded` says what the command and the fields leave. -/
theorem contextCommands : Obligations.ContextCommands := by
  intro n value s served
  refine ⟨fun taken => ⟨fun cmd mode fits runs => ?enable, fun cmd mode => ?disable, fun cmd mode => ?preempt,
    fun cmd mode runs => ?resume⟩, fun refused row mem cmd => ?refused⟩
  case enable =>
    obtain ⟨ctx, ctxs, cores, rest⟩ := commanded_of_ev
      (State.onQueues_ev (s.onCtx n (·.withFields value.toNat)) n Queue.zeroed) rfl rfl Ctx.enabled
    obtain ⟨base, count⟩ := Ctx.withFields_of_disabled mode value.toNat
    have queues := onQueues_electAll_queue (s.onCtx n (·.withFields value.toNat)) n Queue.zeroed Ctx.enabled
    refine ⟨_, execEnable_taken served taken cmd mode fits runs, ctx, by rw [ctx]; exact base, by rw [ctx]; exact count,
      by rw [ctx]; exact withFields_share .., ctxs, fun j hj => (queues _).trans (if_pos (by omega)),
      fun q hq => (queues q).trans (if_neg hq), cores, rest⟩
  case disable =>
    obtain ⟨ctx, ctxs, cores, rest⟩ := commanded_of_onCtx s n (·.withFields value.toNat) (Ctx.begun .disabling (heldAreas s n))
    exact ⟨_, execDisable_taken served taken cmd mode, by rw [ctx]; rfl, by rw [ctx]; rfl,
      by rw [ctx]; exact withFields_share .., ctxs, cores, rest⟩
  case preempt =>
    obtain ⟨ctx, ctxs, cores, rest⟩ := commanded_of_onCtx s n (·.withFields value.toNat) (Ctx.begun .preempting (heldAreas s n))
    exact ⟨_, execPreempt_taken served taken cmd mode, by rw [ctx]; rfl, by rw [ctx]; rfl,
      by rw [ctx]; exact withFields_share .., ctxs, cores, rest⟩
  case resume =>
    obtain ⟨ctx, ctxs, cores, rest⟩ := commanded_of_onCtx s n (·.withFields value.toNat) Ctx.resumed
    exact ⟨_, execResume_taken served taken cmd mode runs, by rw [ctx]; rfl, by rw [ctx]; exact withFields_share ..,
      ctxs, cores, rest⟩
  case refused =>
    have run : s.ctxCtrl n row.2 value = s.onCtx n (fun c => { c with cmdErr := true }) :=
      (State.ctxCtrl_served served n cmd).trans (State.writeCtxCtrl_of_refused refused s n)
    simp only [List.mem_cons, List.not_mem_nil, or_false] at mem
    obtain rfl | rfl | rfl | rfl := mem <;> exact congrArg _ run

end Sys2Proof.Machine
end

section
/-! SUPPORT. The stages of a disable or preemption (R308, R309, R311, R373): one equation per stage and outcome. -/
namespace Sys2Proof.Machine

theorem State.toStage_stage (s : State) (n : CIx) (k : Nat) : ((s.toStage n k).ctx n).stage = k := by
  rw [State.toStage, State.onCtx_ctx]

theorem State.toStage_mode (s : State) (n : CIx) (k : Nat) : ((s.toStage n k).ctx n).mode = (s.ctx n).mode := by
  rw [State.toStage, State.onCtx_ctx]

theorem State.toStage_queue (s : State) (n k q : Nat) : (s.toStage n k).queue q = s.queue q := rfl

theorem State.toStage_cp (s : State) (n k : Nat) : (s.toStage n k).cp = s.cp := rfl

/-- A queue of a stopped context holds nothing (R308). -/
theorem State.stopContext_hold (s : State) (n : CIx) {q : Nat} (h : q / 4 = n) : ((s.stopContext n).queue q).hold = none := by
  unfold State.stopContext
  extract_lets s1 s2
  rw [onQueues_queue, if_pos h]

/-- Replies in turn leave of the commands in flight only those not replied to. -/
theorem State.mem_cmds_of_replies {f : Cmd → Cmd} {d : Cmd} : ∀ (l : List Cmd) (s : State),
    d ∈ (l.foldl (fun s c => s.reply (f c)) s).cp.cmds → d ∈ s.cp.cmds ∧ ∀ c ∈ l, d.key ≠ (f c).key
  | [], _, h => ⟨h, fun _ mem => absurd mem List.not_mem_nil⟩
  | c :: l, s, h => by
    obtain ⟨mem, others⟩ := State.mem_cmds_of_replies l (s.reply (f c)) h
    rw [reply_cmds, List.mem_filter] at mem
    obtain ⟨mem, this⟩ := mem
    exact ⟨mem, List.forall_mem_cons.2 ⟨by simpa using this, others⟩⟩

/-- Once every command of a context is replied to, none of its commands is in flight. -/
theorem State.ctxOf_ne_of_mem_replyAll {s : State} {n : Nat} {c : Cmd} (h : c ∈ (s.replyAll n).cp.cmds) : ctxOf c.q ≠ n := by
  obtain ⟨mem, others⟩ := State.mem_cmds_of_replies _ _ h
  intro own
  have listed : c ∈ s.cmdsOf n := List.mem_filter.2 ⟨mem, beq_iff_eq.2 own⟩
  exact others c listed (partialOf_key _ c).symm

section
variable {n : CIx} {s : State} (runs : blkRuns s = true) (acts : s.cp.paused = false)
include runs acts

theorem execDisableStageEnd_stage1 (stage : (s.ctx n).stage = 1) : execDisableStageEnd n s = .next (s.toStage n 2) := by
  simp [execDisableStageEnd, runs, acts, stage]

theorem execDisableStageEnd_stage2 (stage : (s.ctx n).stage = 2) :
    execDisableStageEnd n s = .next ((s.stopContext n).toStage n 3) := by
  simp [execDisableStageEnd, runs, acts, stage]

theorem execDisableStageEnd_stage3 (stage : (s.ctx n).stage = 3) :
    execDisableStageEnd n s = .next (if settledStages s n then
      ((s.discardSends n).unbindCtx n).toStage n (if (s.ctx n).mode = .preempting then 6 else 5) else s) := by
  cases settled : settledStages s n <;> simp [execDisableStageEnd, runs, acts, stage, settled]

theorem execDisableStageEnd_stage5 (stage : (s.ctx n).stage = 5) :
    execDisableStageEnd n s = .next (if (s.ctx n).zeroed || (s.ctx n).wCount = 0 then s.toStage n 6 else s) := by
  simp [execDisableStageEnd, runs, acts, stage]

theorem execDisableStageEnd_stage6 (stage : (s.ctx n).stage = 6) :
    execDisableStageEnd n s = .next (if endsAcked s n then
      ((if (s.ctx n).mode = .preempting then s else s.freeAreas n (s.ctx n).heldBefore).replyAll n).toStage n 7 else s) := by
  cases acked : endsAcked s n <;> simp [execDisableStageEnd, runs, acts, stage, acked]

end

/-- Settles O31: the equation of each stage gives the next state; stopping the context empties its queues, and replying to its
commands empties the list of those in flight. -/
theorem disableStages : Obligations.DisableStages := by
  intro n s runs acts
  refine ⟨fun h => execDisableStageEnd_stage1 runs acts h, fun h => ?stage2, fun h busy => ?wait3, fun h settled => ?stage3,
    fun h zeroed => ?stage5, fun h slots window => ?wait5, fun h acked => ?stage6, fun h sent => ?wait6⟩
  case stage2 =>
    have ctxs : (s.stopContext n).ctxs = s.ctxs := (State.stopContext_ev s n).frame .ctxs rfl
    have mode : ((s.stopContext n).ctx n).mode = (s.ctx n).mode := congrArg (fun v => (vget v n.val).mode) ctxs
    refine ⟨_, execDisableStageEnd_stage2 runs acts h, State.toStage_stage .., (State.toStage_mode ..).trans mode,
      fun j hj => ?_⟩
    rw [State.toStage_queue, State.stopContext_hold s n (by omega)]
  case wait3 => exact (execDisableStageEnd_stage3 runs acts h).trans (by rw [busy]; rfl)
  case stage3 =>
    exact ⟨_, (execDisableStageEnd_stage3 runs acts h).trans (congrArg _ (if_pos settled)), State.toStage_stage ..⟩
  case stage5 => exact (execDisableStageEnd_stage5 runs acts h).trans (congrArg _ (if_pos (by simpa using zeroed)))
  case wait5 => exact (execDisableStageEnd_stage5 runs acts h).trans (congrArg _ (if_neg (by simp [slots, window])))
  case stage6 =>
    refine ⟨_, (execDisableStageEnd_stage6 runs acts h).trans (congrArg _ (if_pos acked)), State.toStage_stage ..,
      fun c mem => ?_⟩
    rw [State.toStage_cp] at mem
    exact State.ctxOf_ne_of_mem_replyAll mem
  case wait6 => exact (execDisableStageEnd_stage6 runs acts h).trans (by rw [sent]; rfl)

end Sys2Proof.Machine
end

section
/-! SUPPORT. Frames that meet their receivers (R368, R372-R379) leave SVC_AREA where it was: their records may raise the service
interrupt, and nothing else of the service registers changes. -/
namespace Sys2Proof.Machine

@[simp] theorem State.logRec_area (s : State) (r : Rec) : (s.logRec r).svc.area = s.svc.area := AK.logRec s r

@[simp] theorem State.dropLine_area (s : State) (a : Nat) : (s.dropLine a).svc.area = s.svc.area := rfl

@[simp] theorem State.onHeld_area (s : State) (n : Nat) (f : List Held → List Held) : (s.onHeld n f).svc.area = s.svc.area := rfl

@[simp] theorem State.onCmd_area (s : State) (k : Key) (f : Cmd → Cmd) : (s.onCmd k f).svc.area = s.svc.area := rfl

@[simp] theorem State.store_area (s : State) (a : Nat) (bs : List Byte) : (s.store a bs).svc.area = s.svc.area :=
  AK.ev (s.store_ev a bs) rfl

@[simp] theorem State.putLongs_area (s : State) (add : Bool) (a : Nat) (bs : List Byte) (n : Nat) :
    (s.putLongs add a bs n).svc.area = s.svc.area := AK.ev (State.putLongs_ev add n s a bs) rfl

@[simp] theorem State.putMaxima_area (s : State) (a : Nat) (bs : List Byte) : (s.putMaxima a bs).svc.area = s.svc.area :=
  AK.ev (State.putMaxima_ev bs s a) rfl

@[simp] theorem State.txEnd_area (s : State) (c : Cmd) (dst sent frozen : Nat) : (s.txEnd c dst sent frozen).svc.area = s.svc.area :=
  AK.ev (s.txEnd_ev c dst sent frozen) rfl

theorem State.meetLine_area (s : State) (c : Cond) : (s.meetLine c).svc.area = s.svc.area := by
  unfold State.meetLine
  split <;> simp

@[simp] theorem State.meetAll_area (s : State) (l : List Cond) : (s.meetAll l).svc.area = s.svc.area :=
  AK.foldl State.meetLine State.meetLine_area l s

@[simp] theorem State.endFrm_area (s : State) (k : Key) (conds : List Cond) : (s.endFrm k conds).svc.area = s.svc.area := by
  unfold State.endFrm
  dsimp only
  split
  · simp
  · split <;> simp

/-- The state in which a frame has met its receiver. -/
def Take.state : Take → State
  | .consumed t => t
  | .kept t => t

/-- Whatever becomes of a frame, bytes of memory, commands, held frames and records are all it changes. -/
theorem State.takeFrame_area (s : State) (c : Cmd) (r : Frm) (f : Held) : (s.takeFrame c r f).state.svc.area = s.svc.area := by
  unfold State.takeFrame
  extract_lets
  -- The four kinds of receiver, and what each makes of a frame: it is taken in, or ends its receiver.
  repeat' split
  all_goals simp +zetaDelta [Take.state]

theorem State.completeFrm_area (s : State) (k : Key) : (s.completeFrm k).svc.area = s.svc.area := by
  unfold State.completeFrm
  dsimp only
  repeat' split
  all_goals simp

theorem State.matchFrames_area (fuel n : Nat) (s : State) : (s.matchFrames fuel n).svc.area = s.svc.area := by
  induction fuel generalizing s with
  | zero => rfl
  | succ fuel ih =>
    unfold State.matchFrames
    split
    · rfl
    next f c _ =>
      split
      · rfl
      next r _ =>
        have met := s.takeFrame_area c r f
        split
        next t taken =>
          rw [taken] at met
          rw [ih, State.completeFrm_area, State.onHeld_area]
          exact met
        next t taken =>
          rw [taken] at met
          exact (ih t).trans met

theorem State.matchAll_area (s : State) (n : Nat) : (s.matchAll n).svc.area = s.svc.area := by
  unfold State.matchAll
  split
  · exact State.matchFrames_area ..
  · rfl

end Sys2Proof.Machine
end

section
/-! SUPPORT. Runs of SERVICE_CMD (R400, R401): a run whose effect leaves SVC_AREA where it was is replied to; then one equation per
outcome of a subcode's effect. -/
namespace Sys2Proof.Machine

/-- A run of its subcode's row ends in the effect's state `u`, with the reply of the effect's conditions. -/
theorem SvcRuns.replied {s u : State} {sub p : Nat} {l : List Cond} (run : SvcRuns s sub p) {g : Nat → Bool} (takes : g sub = true)
    {f : State → SvcArgs → State × List Cond} (effect : f s ⟨p, s.svc.area, none⟩ = (u, l)) (area : u.svc.area = s.svc.area) :
    SvcReplied u (withService s .register g f) p l := by
  rw [withService_run run g takes, effect]
  exact svcReply_replied u p l (by rw [area]; exact run.area)

/-! Settings (R352, R398, R399, R440, R444). -/

theorem State.skeletonRepaired_area (s : State) : s.skeletonRepaired.svc.area = s.svc.area := AK.ev s.skeletonRepaired_ev rfl

theorem State.quiesce_area (s : State) : s.quiesce.svc.area = s.svc.area := AK.ev s.quiesce_ev rfl

theorem State.mirrorWear_onWear_area (s : State) (serial : Nat) (f : Wear → Wear) :
    ((s.onWear serial f).mirrorWear serial).svc.area = s.svc.area :=
  (AK.ev (State.mirrorWear_ev ..) rfl).trans (AK.ev (s.onWear_ev serial f) rfl)

theorem State.skeletonRepaired_of_not_skeleton {s : State} (h : s.start.skeleton = false) : s.skeletonRepaired = s :=
  if_neg (by simp [h])

theorem State.burnAll_start (s : State) (l : List Nat) (ok : List Bool) : (s.burnAll l ok).1.start = s.start :=
  (State.burnAll_ev l ok s).frame .start rfl

/-- Every ACTIVE context, and no other, is being preempted in a quiesced block. -/
theorem State.quiesce_mode (s : State) {n : Nat} (hn : n < 16) :
    (s.quiesce.ctx n).mode = if (s.ctx n).mode = .active then .preempting else (s.ctx n).mode := by
  have named : ∀ x ∈ (rangeFrom 0 16).filter (fun n => (s.ctx n).mode == .active), x < 16 := fun x hx => by
    have := mem_rangeFrom.1 (List.mem_filter.1 hx).1
    omega
  refine (beginSeqs_mode _ s named n).trans ?_
  simp [mem_rangeFrom, hn]

/-- Settles O25: each effect is replied to in SVC_AREA, which no setting moves. -/
theorem serviceRunsSettings : Obligations.ServiceRunsSettings := by
  intro s p
  refine ⟨fun run => ?parity, fun run room => ?repair, fun run absent => ?noEntry, fun run entry => ?wear, fun run => ?quiesce,
    fun ok run awake block => ?refused, fun ok run quiet block => ?burn⟩
  case parity => exact ⟨_, rfl, run.replied rfl rfl rfl⟩
  case repair =>
    exact ⟨_, _, rfl, rfl, run.replied rfl (if_pos room) ((State.skeletonRepaired_area _).trans (AK.report _))⟩
  case noEntry => exact ⟨_, rfl, run.replied rfl (by simp only [absent]; rfl) rfl⟩
  case wear =>
    obtain ⟨w, found⟩ := Option.isSome_iff_exists.1 entry
    exact ⟨_, rfl, run.replied rfl (by simp only [found]) (State.mirrorWear_onWear_area ..)⟩
  case quiesce =>
    have reply := run.replied (g := (· == 0x0040)) rfl (f := fun s _ => (s.quiesce, [])) rfl s.quiesce_area
    have blk := reply.rest .blk rfl
    have ctxs := reply.rest .ctxs rfl
    refine ⟨_, rfl, congrArg Blk.mode blk, fun n hn => ?_, reply⟩
    exact (congrArg (fun v => (vget v n).mode) ctxs).trans (s.quiesce_mode hn)
  case refused => exact ⟨_, rfl, run.replied rfl (if_pos ⟨awake, by simp [block]⟩) rfl⟩
  case burn =>
    refine ⟨_, rfl, run.replied rfl ?_ (AK.burnAll s.blk.repair ok s)⟩
    have same := State.skeletonRepaired_of_not_skeleton (s := (s.burnAll s.blk.repair ok).1) (by rw [State.burnAll_start, block])
    refine (if_neg fun h => h.1 quiet).trans (ite_eq_right_iff.2 fun none => ?_)
    rw [same, ← List.isEmpty_iff.1 none]

/-! Reports, frames and extents (R334, R356, R380, R400, R401). -/

/-- A report whose checks pass, and whose bytes can be written, is stored. -/
theorem State.svcWrite_of_writable {s : State} {addr off : Nat} {bytes : List Byte}
    (checks : firstFail (outputChecks addr bytes.length off) = none) (writable : outputFault s addr bytes.length = none)
    (a : SvcArgs) : s.svcWrite a addr off bytes = (s.store addr bytes, []) := by
  simp only [State.svcWrite, checks, writable]

/-- The extents that FAR_EVACUATE moves off a port: those whose data is not lost. -/
theorem mem_evacuated {s : State} {port : Nat} {e : Extent} :
    e ∈ s.far.map.filter (fun e => e.port == port && e.lost.isNone) ↔ e ∈ s.far.map ∧ e.port = port ∧ e.lost = none := by
  simp

theorem execReservedSubcode_service {s : State} {p : Nat} (image : s.svc.image = some p) (op : pOp p = 0x3C) :
    execReservedSubcode .register s
      = .next (withService s .register (fun x => !svcKnown x) (fun s a => (s, [a.bad 8]))) := by
  simp [execReservedSubcode, image, op]

theorem execReservedSubcode_otherOpcode {s : State} {p : Nat} (image : s.svc.image = some p) (busy : s.svc.busy = true)
    (runs : blkRuns s = true) (acts : s.cp.paused = false) (op : pOp p ≠ 0x3C) :
    execReservedSubcode .register s = .next (s.svcReply p [⟨.opcodeInvalid, pOp p⟩]) := by
  simp [execReservedSubcode, image, busy, runs, acts, op]

/-- Settles O26: each effect is replied to in SVC_AREA, which no report, frame or extent moves. -/
theorem serviceRunsReports : Obligations.ServiceRunsReports := by
  intro s p
  refine ⟨fun run checks writable => ?spare, fun l run stack quiet checks writable => ?loopback, fun run absent => ?noTier,
    fun run tier present => ?evacuate, fun run => ?retag, fun run => ?discard, fun sub reserved run => ?reserved,
    fun image busy runs acts area other => ?opcode⟩
  case spare => exact ⟨_, rfl, run.replied rfl (State.svcWrite_of_writable checks writable _) (State.store_area ..)⟩
  case loopback =>
    refine ⟨_, rfl, run.replied rfl ((if_neg ?_).trans (State.svcWrite_of_writable checks writable _)) (State.store_area ..)⟩
    simp [quiet, stack]
  case noTier => exact ⟨_, rfl, run.replied rfl (if_pos absent) rfl⟩
  case evacuate =>
    refine ⟨_, _, rfl, fun e => mem_evacuated, run.replied rfl ?_ (AK.evacuate ..)⟩
    exact (if_neg (by simp [tier])).trans (if_neg (by simpa using Option.isSome_iff_ne_none.1 present))
  case retag => exact ⟨_, rfl, run.replied rfl (by simp [SvcArgs.mayName]) (State.matchAll_area ..)⟩
  case discard => exact ⟨_, rfl, run.replied rfl rfl rfl⟩
  case reserved =>
    exact ⟨_, execReservedSubcode_service run.image run.opcode, run.replied (by simp [reserved]) rfl rfl⟩
  case opcode => exact ⟨_, execReservedSubcode_otherOpcode image busy runs acts other, svcReply_replied s p _ area⟩

end Sys2Proof.Machine
end

section
/-! SUPPORT. Stacks under the operations that many rows share: records and reports leave them, and data written out to them leaves
the shared cache (R267, R318, R338, R402). -/
namespace Sys2Proof.Machine

/-! Records and reports leave the stacks and the memory map. -/

@[simp] theorem State.logRec_stack (s : State) (r : Rec) (x : Nat) : (s.logRec r).stack x = s.stack x :=
  congrArg (vget · x) ((s.logRec_ev r).frame .stks rfl)

@[simp] theorem State.logRec_map (s : State) (r : Rec) : (s.logRec r).map = s.map := (s.logRec_ev r).frame .map rfl

@[simp] theorem State.report_stack (s : State) (x : Nat) : s.report.stack x = s.stack x :=
  congrArg (vget · x) (s.report_ev.frame .stks rfl)

@[simp] theorem State.report_map (s : State) : s.report.map = s.map := s.report_ev.frame .map rfl

/-! Data written out. -/

/-- A byte that is written out is no longer in the shared cache. -/
theorem MemSt.flush_dirty_none (m : MemSt) {p : Nat → Bool} {a : Nat} (h : p a = true) : cellGet (m.flush p).dirty a = none := by
  refine aget_none_of_not_mem _ a fun x hx e => ?_
  have kept := (List.mem_filter.1 hx).2
  simp [e, h] at kept

/-- The bytes that `MemSt.unpark` writes out: those of parked lines that `mine` names (R340). -/
def MemSt.parkedOf (m : MemSt) (mine : Nat → Bool) (a : Nat) : Bool := m.parked.contains (lineOf a) && mine (lineOf a)

/-- Writing parked lines back changes no byte that is read. -/
theorem MemSt.read_unpark {m : MemSt} (mine : Nat → Bool) (h : m.wf = true) (a : Nat) : (m.unpark mine).read a = m.read a :=
  MemSt.read_flush (m.parkedOf mine) h a

/-- A parked line that is written back is no longer in the shared cache. -/
theorem MemSt.unpark_dirty_none {m : MemSt} {mine : Nat → Bool} {a : Nat} (parked : m.parked.contains (lineOf a) = true)
    (own : mine (lineOf a) = true) : cellGet (m.unpark mine).dirty a = none :=
  m.flush_dirty_none (p := m.parkedOf mine) (Bool.and_eq_true_iff.2 ⟨parked, own⟩)

theorem MemSt.mem_unpark_parked {m : MemSt} {mine : Nat → Bool} {l : Nat} (h : l ∈ (m.unpark mine).parked) :
    mine l = false := by
  simpa using (List.mem_filter.1 h).2

end Sys2Proof.Machine
end

section
/-! SUPPORT. Errors of the stacks (R318, R325-R331, R407): one equation per outcome of each row. -/
namespace Sys2Proof.Machine

/-! Interface parity errors (R326, R327). -/

/-- A stack with a retried access of channel `c` in sample `now` (R327). -/
def StackSt.retried (k : StackSt) (c now : Nat) : StackSt :=
  { k with retries := (c, now) :: k.retries.filter (fun r => decide (now < r.2 + 100)) }

theorem StackSt.retried_count (k : StackSt) (c now : Nat) :
    ((k.retried c now).retries.filter (fun r => r.1 == c)).length
      = (k.retries.filter (fun r => r.1 == c && decide (now < r.2 + 100))).length + 1 := by
  simp [StackSt.retried]

section
variable {x : SIx} {c : Fin 32} {n : Nat} {s : State} (runs : blkRuns s = true) (serves : stackServes s x = true)
  (kept : (s.stack x).lost.contains c.val = false)
include runs serves kept

/-- The row runs for an access that meets an error on a channel in service. -/
theorem phyParityError_runs (some_fail : n ≠ 0) :
    ¬ (n = 0 || !blkRuns s || !stackServes s x || (s.stack x).lost.contains c.val) = true := by
  rw [runs, serves, kept]
  simpa using some_fail

theorem execPhyParityError_retried (some_fail : 1 ≤ n) (few : n ≤ 4)
    (seldom : ((s.stack x).retries.filter (fun r => r.1 == c.val && decide (s.kpr.sample < r.2 + 100))).length < 15) (a : Nat) :
    execPhyParityError x c n a s
      = .next ((s.logRec (correctedRec x c a)).onStack x (fun k => k.retried c s.kpr.sample)) := by
  have count : ((((s.logRec (correctedRec x c a)).onStack x (fun k => k.retried c s.kpr.sample)).stack x).retries.filter
      (fun r => r.1 == c.val)).length < 16 := by
    rw [State.onStack_stack_same _ x _ x.isLt, State.logRec_stack, StackSt.retried_count]
    omega
  exact congrArg _ ((if_neg (phyParityError_runs runs serves kept (by omega))).trans
    ((if_neg (by omega)).trans (if_neg (Nat.not_le.2 count))))

theorem execPhyParityError_loses (many : 5 ≤ n) (a : Nat) : execPhyParityError x c n a s = .next (s.loseChannel x c 0) :=
  congrArg _ ((if_neg (phyParityError_runs runs serves kept (by omega))).trans (if_pos many))

end

theorem State.mapOut_stack (s : State) (x c y : Nat) : (s.mapOut x c).stack y = s.stack y :=
  congrArg (vget · y) ((s.mapOut_ev x c).frame .stks rfl)

/-- A channel that is lost while parity can form its slots is mapped out: TOP falls to the base of its range (R327, R329). -/
theorem State.loseChannel_mapsOut {s : State} {x : SIx} {c : Nat} (kept : (s.stack x).lost.contains c = false)
    (few : ((s.stack x).lostAt.filter (fun t => decide (s.kpr.sample ≤ t + 1))).length < 31) (parity : s.map.parity = true)
    (room : s.map.outs.length < 8) (cause : Nat) :
    ((s.loseChannel x c cause).stack x).lost = (s.stack x).lost ++ [c]
      ∧ ∃ o, (s.loseChannel x c cause).map.outs = s.map.outs ++ [o] ∧ o.stack = x.val ∧ o.chan = c ∧ o.moved = 0
        ∧ (s.loseChannel x c cause).map.top = o.base ∧ o.base ≤ s.map.top
        ∧ (s.loseChannel x c cause).blk.mapList = (s.loseChannel x c cause).map.outs
        ∧ bitOf (s.loseChannel x c cause).svc.irq 0 = true := by
  obtain ⟨u, r, only, lost, eq, -⟩ := lost_ok s x c cause x.isLt kept few
  have map : (u.logRec r).map = s.map := (u.logRec_map r).trans (only.frame .map rfl)
  obtain ⟨o, outs, stack, chan, moved, top, base, list, irq⟩ := mapOut_facts (u.logRec r) x c
  rw [eq]
  simp only [parity, room, decide_true, Bool.and_self, if_true, State.report_map, State.report_stack, report_mapList]
  rw [map] at outs base
  refine ⟨?_, o, outs, stack, chan, moved, top, base, list, report_irq _ irq⟩
  rw [State.mapOut_stack, State.logRec_stack, lost]

/-- Without parity a lost channel is not mapped out (R327, R332). -/
theorem State.loseChannel_bare {s : State} {x : SIx} {c : Nat} (kept : (s.stack x).lost.contains c = false)
    (few : ((s.stack x).lostAt.filter (fun t => decide (s.kpr.sample ≤ t + 1))).length < 31) (bare : s.map.parity = false)
    (cause : Nat) :
    ((s.loseChannel x c cause).stack x).lost = (s.stack x).lost ++ [c] ∧ (s.loseChannel x c cause).map = s.map := by
  obtain ⟨u, r, only, lost, eq, -⟩ := lost_ok s x c cause x.isLt kept few
  rw [eq]
  simp only [bare, Bool.false_and, Bool.false_eq_true, if_false, State.report_map, State.report_stack, State.logRec_map,
    State.logRec_stack]
  exact ⟨lost, only.frame .map rfl⟩

/-! Uncorrectable slots (R327, R407). -/

/-- An access to a near-memory byte that touches a slot of the channel meets what the stack reports of that slot. -/
theorem execStackUncorrectable_of_touched {x : SIx} {c : Fin 32} {a slot : Nat} {s : State} (runs : blkRuns s = true)
    (near : regionOf a = .near) (valid : badByte s a 1 = none) (touched : touchedSlot s x c (a / 2048) = some slot) (ok : Bool) :
    execStackUncorrectable x c a ok s = .next (s.slotUncorrectable x c slot ok) := by
  simp [execStackUncorrectable, runs, near, valid, touched]

section
variable {s : State} {x c : Nat} (serves : stackServes s x = true) (kept : (s.stack x).lost.contains c = false)
include serves kept

theorem State.slotUncorrectable_bare {slot g : Nat} (bare : s.map.parity = false)
    (own : granuleOf s.map slot (chanMember s.map.profile x c).1 (chanMember s.map.profile x c).2 = some g) (ok : Bool) :
    s.slotUncorrectable x c slot ok = s.onMem (fun m => { m with bad := nput m.bad g }) := by
  simp only [State.slotUncorrectable, serves, kept, bare, own]
  rfl

theorem State.slotUncorrectable_rebuilt {slot : Nat} (parity : s.map.parity = true)
    (readable : ∀ y ∈ members s.map (chanMember s.map.profile x c).1, y ≠ (x, c) → memberReadable s y slot = true) :
    s.slotUncorrectable x c slot true = s.logRec (correctedRec x c (2048
      * (granuleOf s.map slot (chanMember s.map.profile x c).1 (chanMember s.map.profile x c).2).getD
        (slot * rowGranules s.map))) := by
  have others : ((members s.map (chanMember s.map.profile x c).1).filter (fun y => y != (x, c))).all
      (fun y => memberReadable s y slot) = true :=
    List.all_eq_true.2 fun y hy => readable y (List.mem_filter.1 hy).1 (bne_iff_ne.1 (List.mem_filter.1 hy).2)
  simp only [State.slotUncorrectable, serves, kept, parity, others]
  rfl

end

/-- The address that a MEM_CORRECTED record names is the granule's. -/
theorem correctedRec_granule (x c g : Nat) :
    correctedRec x c (2048 * g) = { event := 0x10, action := 0, kind := 8, unit := x * 32 + c, d0 := g * 2048 } := by
  simp [correctedRec]

/-- A granule's own channel is a member of its stripe. -/
theorem place_mem_members (p : MapSt) (g : Nat) : ((place p g).stack, (place p g).chan) ∈ members p (place p g).group :=
  List.mem_map.2 ⟨(place p g).member, mem_rangeFrom.2 ⟨Nat.zero_le _, by simpa using place_member p g⟩, rfl⟩

/-- An access to a granule touches the slot of the granule's own place. -/
theorem touchedSlot_place (s : State) (g : Nat) :
    touchedSlot s (place s.map g).stack (place s.map g).chan g = some (place s.map g).slot := by
  unfold touchedSlot accessPlaces
  simp [place_mem_members]

/-! Rebuilds (R331). -/

/-- The map-outs once the rebuild of `o` is done (R331). -/
def rebuiltOuts (s : State) (o : MapOut) : List MapOut := s.map.outs.map (fun y => if y = o then rebuiltOut s o else y)

/-- The map-outs set, with the list that the next start forms the memory map of (R329). -/
def State.setOuts (s : State) (l : List MapOut) : State :=
  (s.onMap (fun m => { m with outs := l })).onBlk (fun b => { b with mapList := l })

theorem State.setOuts_ev (s : State) (l : List MapOut) : Ev [.blk, .map] s (s.setOuts l) :=
  (State.onBlk_ev _ _ (Nat.and_self _)).then ((s.onMap_ev _).mono rfl) rfl

/-- The records of a rebuild that is done and of the next one, which begins (R331, R404). -/
def State.logRebuilds (s : State) (o : MapOut) : State :=
  let s := s.logRec (rebuildRec o 1 s.map.top)
  match s.map.outs.find? (fun o => !o.rebuilt) with
  | none => s
  | some y => s.logRec (rebuildRec y 0 s.map.top)

/-- No record of a rebuild raises the service interrupt (R405). -/
theorem State.logRebuilds_ev (s : State) (o : MapOut) : Ev [.log, .mem, .mirror] s (s.logRebuilds o) := by
  unfold State.logRebuilds
  extract_lets done
  have ended : Ev [.log, .mem, .mirror] s done := logRec_quiet s _ rfl
  split
  · exact ended
  · exact (logRec_quiet done _ rfl).then ended rfl

section
variable {s : State} {o : MapOut} (runs : blkRuns s = true) (rebuilds : s.map.rebuilds = true)
  (first : s.map.outs.find? (fun o => !o.rebuilt) = some o)
include runs rebuilds first

theorem execRebuildDone_waits (waits : rebuildWaits s o = true) : execRebuildDone s = .next s := by
  simp [execRebuildDone, runs, rebuilds, first, waits]

theorem execRebuildDone_ready (ready : rebuildWaits s o = false) :
    execRebuildDone s = .next ((s.setOuts (rebuiltOuts s o)).logRebuilds o) := by
  simp only [execRebuildDone, runs, rebuilds, first, ready, beq_iff_eq, Bool.not_true, Bool.or_self, Bool.false_eq_true, if_false]
  rfl

end

/-- With every other member of its stripes in service, a channel's rebuild has moved every slot (R328, R331). -/
theorem rebuiltOut_of_sound {s : State} {o : MapOut}
    (sound : ∀ y ∈ otherMembers s o, (s.stack y.1).fence ≠ .dead ∧ (s.stack y.1).lost.contains y.2 = false) :
    rebuiltOut s o = { o with moved := s.map.slots, gaps := [], rebuilt := true } := by
  have none_gone : (otherMembers s o).any (memberGone s) = false :=
    List.any_eq_false.2 fun y hy => by
      obtain ⟨alive, served⟩ := sound y hy
      rw [memberGone, served]
      simpa using alive
  have none_late : (otherMembers s o).filter (fun c => (s.stack c.1).lost.contains c.2) = [] :=
    List.filter_eq_nil_iff.2 fun y hy => Bool.eq_false_iff.1 (sound y hy).2
  simp only [rebuiltOut, none_gone, none_late]
  rfl

/-! Write buffers and the patrol scrub (R318, R325). -/

/-- The bytes that the write buffers of stripe `k` write out (R318, R338). -/
def gathered (s : State) (k a : Nat) : Bool :=
  stripeOf s.map (a / 2048) == k && !s.mem.parked.contains (lineOf a)
    && !(s.stack (effPlace s (a / 2048)).stack).fence.away && (writeFault s a 1).isNone

theorem execStripeGatherExpiry_of_runs {s : State} (runs : blkRuns s = true) (k : Nat) :
    execStripeGatherExpiry k s = .next (s.onMem (fun m => m.flush (gathered s k))) :=
  congrArg _ (if_neg (by simp [runs]))

theorem execPatrolScrub_none {s : State} (runs : blkRuns s = true) (idle : rebuilding s = false) (slots : s.map.slots ≠ 0) :
    execPatrolScrub none s
      = .next (s.onMap (fun m => { m with patrol := (m.patrol + 1) % (m.slots * groupCount m.profile) })) := by
  have stripes : s.map.slots * groupCount s.map.profile ≠ 0 := Nat.mul_ne_zero slots (Nat.ne_of_gt (groupCount_pos _))
  exact congrArg _ (if_neg (by simp [runs, idle, stripes]))

/-- Settles O51: the equation of each row gives the next state; a lost channel is mapped out where parity allows it, and a granule's
own channel is a member of its stripe. -/
theorem stackErrors : Obligations.StackErrors := by
  intro s runs
  refine ⟨fun x c n a serves kept => ⟨fun some_fail few seldom => ?retried, fun many recent => ⟨fun parity room => ?mapped,
      fun bare => ?lost⟩⟩,
    fun x c a slot g near valid serves kept touched own => ⟨fun bare ok y here => ?bad, fun parity readable => ?corrected⟩,
    fun g => ⟨touchedSlot_place s g, ?granule⟩,
    fun rebuilds o first => ⟨fun ready => ?rebuilt, fun waits => execRebuildDone_waits runs rebuilds first waits⟩,
    fun k => ?gather, fun idle slots => execPatrolScrub_none runs idle slots⟩
  case retried =>
    have quiet := logRec_quiet s (correctedRec x c a) rfl
    refine ⟨_, execPhyParityError_retried runs serves kept some_fail few seldom a, logs_ok s _, ?_, ?_⟩
    · rw [State.onStack_stack_same _ x _ x.isLt, State.logRec_stack]
      rfl
    · exact ((State.onStack_ev _ x _).then (l := [.log, .mem, .stks, .mirror]) (quiet.mono rfl) rfl).frame
  case mapped =>
    obtain ⟨lost, o, facts⟩ := State.loseChannel_mapsOut kept recent parity room 0
    exact ⟨_, o, execPhyParityError_loses runs serves kept many a, lost, facts⟩
  case lost => exact ⟨_, execPhyParityError_loses runs serves kept many a, State.loseChannel_bare kept recent bare 0⟩
  case bad =>
    exact (execStackUncorrectable_of_touched runs near valid touched ok).trans
      (congrArg _ (State.slotUncorrectable_bare serves kept bare (own.symm.trans here) ok))
  case corrected =>
    refine ⟨_, execStackUncorrectable_of_touched runs near valid touched true, ?_⟩
    rw [State.slotUncorrectable_rebuilt serves kept parity readable, ← own, correctedRec_granule]
    exact ⟨logs_ok s _, (logRec_quiet s _ rfl).frame⟩
  case granule => rw [chanMember_place, granuleOf_place]
  case rebuilt =>
    have set := s.setOuts_ev (rebuiltOuts s o)
    have logged := (s.setOuts (rebuiltOuts s o)).logRebuilds_ev o
    have map := logged.frame .map rfl
    refine ⟨_, execRebuildDone_ready runs rebuilds first ready, map, rebuiltOut_of_sound, (logged.frame .blk rfl).trans ?_,
      (logged.then (l := [.blk, .log, .mem, .map, .mirror]) (set.mono rfl) rfl).frame⟩
    rw [map]
    rfl
  case gather =>
    refine ⟨_, execStripeGatherExpiry_of_runs runs k, (s.onMem_ev _ (MemSt.flush_wf _)).frame,
      fun sound => MemSt.read_flush (gathered s k) sound, fun a stripe free serves writable => ?_⟩
    exact s.mem.flush_dirty_none (by rw [gathered, stripe, free, serves, writable]; simp)

end Sys2Proof.Machine
end

section
/-! SUPPORT. Fences and returns of a stack (R335, R337, R340-R342): one equation per outcome of each row. -/
namespace Sys2Proof.Machine

/-! The fence (R337). -/

/-- The record of a complete fence (R337, R404). -/
def fenceRec (x : Nat) (l : SLevel) : Rec := { event := 0x14, action := 5, kind := 7, unit := x, d0 := l.code }

theorem execStackFenceComplete_of_fencing {x : SIx} {s : State}
    (h : (s.stack x).fence = .fencing ∨ (s.stack x).fence = .refencing) :
    execStackFenceComplete x s
      = .next ((s.onStack x (fun k => { k with fence := .fenced })).logRec (fenceRec x (s.stack x).level)) :=
  congrArg _ (if_neg fun ⟨first, again⟩ => h.elim first again)

/-! The level (R335, R340, R341). -/

section
variable {x : SIx} {s : State} (cool : 100 ≤ (s.stack x).cool)
include cool

theorem execStackLevelFall_critical (level : (s.stack x).level = .critical) :
    execStackLevelFall x s = .next (s.onStack x (fun k => { k with level := .hot, cool := 0 })) := by
  simp [execStackLevelFall, level, Nat.not_lt.2 cool]

theorem execStackLevelFall_warm (level : (s.stack x).level = .warm) :
    execStackLevelFall x s = .next (s.onStack x (fun k => { k with level := .normal, cool := 0 })) := by
  simp [execStackLevelFall, level, Nat.not_lt.2 cool]

/-- A fenced stack that leaves HOT begins its return with parity, and serves again without. -/
theorem execStackLevelFall_hot (level : (s.stack x).level = .hot)
    (fence : (s.stack x).fence = .fenced ∨ (s.stack x).fence = .fencing ∨ (s.stack x).fence = .refencing) :
    execStackLevelFall x s = .next (
      if s.map.parity then
        (s.onStack x (fun k => { k with level := .warm, cool := 0 })).onStack x (fun k => { k with fence := .return1 })
      else (s.onStack x (fun k => { k with level := .warm, cool := 0 })).clearFence x) := by
  have waited : ¬ (s.stack x).cool < 100 := Nat.not_lt.2 cool
  rcases fence with fence | fence | fence <;> simp only [execStackLevelFall, level, fence, if_neg waited] <;> rfl

end

theorem State.clearFence_stack_same (s : State) (x : SIx) : (s.clearFence x).stack x = { s.stack x with fence := .none } :=
  s.onStack_stack_same x _ x.isLt

theorem State.clearFence_stack_other (s : State) {x y : Nat} (h : y ≠ x) : (s.clearFence x).stack y = s.stack y :=
  s.onStack_stack_other x y _ h

/-- The fall of a stack's level leaves every other stack as it was. -/
theorem execStackLevelFall_stack_other {x : SIx} {s t : State} (run : execStackLevelFall x s = .next t) {y : Nat}
    (h : y ≠ x.val) : t.stack y = s.stack y := by
  cases run
  dsimp only
  repeat' split
  all_goals simp [State.clearFence_stack_other, h]

/-! The return (R340-R342). -/

theorem execStackReturnPhase1End_responds {x : SIx} {s : State} (runs : blkRuns s = true) (fence : (s.stack x).fence = .return1) :
    execStackReturnPhase1End x true s = .next ((s.onStack x (fun k => { k with fence := .return2 })).onMem (fun m => { m with
      marks := m.marks.filter (fun y => y.1 != x.val) })) := by
  simp [execStackReturnPhase1End, runs, fence]

theorem execStackReturnPhase1End_silent {x : SIx} {s : State} (runs : blkRuns s = true) (fence : (s.stack x).fence = .return1) :
    execStackReturnPhase1End x false s = .next (s.stackDead x) := by
  simp [execStackReturnPhase1End, runs, fence]

theorem execStackReturnComplete_responds {x : SIx} {s : State} (runs : blkRuns s = true) (fence : (s.stack x).fence = .return2) :
    execStackReturnComplete ⟨x, true⟩ s
      = .next ((s.onMem (·.unpark (fun l => lineStack s l == x.val))).clearFence x) := by
  simp [execStackReturnComplete, runs, fence]

theorem execStackReturnComplete_silent {x : SIx} {s : State} (runs : blkRuns s = true) (fence : (s.stack x).fence = .return2) :
    execStackReturnComplete ⟨x, false⟩ s = .next (s.stackDead x) := by
  simp [execStackReturnComplete, runs, fence]

/-- A DEAD stack is fenced, no channel of it is mapped out any longer, and its record raises the service interrupt. -/
theorem State.stackDead_facts (s : State) (x : SIx) :
    ((s.stackDead x).stack x).fence = .dead ∧ (s.stackDead x).map.fenced.contains x.val = true
      ∧ (∀ o ∈ (s.stackDead x).map.outs, o.stack ≠ x.val) ∧ bitOf (s.stackDead x).svc.irq 0 = true := by
  unfold State.stackDead
  extract_lets dead unmapped listed cleared
  refine ⟨?fence, ?fenced, ?outs, report_irq _ (logRec_irq rfl)⟩
  case fence =>
    rw [State.report_stack, State.logRec_stack]
    exact congrArg StackSt.fence (s.onStack_stack_same x _ x.isLt)
  case fenced =>
    rw [State.report_map, State.logRec_map]
    show (if dead.map.fenced.contains x.val then dead.map.fenced else dead.map.fenced ++ [x.val]).contains x.val = true
    split
    · assumption
    · simp
  case outs =>
    rw [State.report_map, State.logRec_map]
    exact filter_ne_not MapOut.stack x.val dead.map.outs

/-- Settles O52: the equation of each row gives the next state; a stack that does not respond is DEAD. -/
theorem stackFences : Obligations.StackFences := by
  intro x s
  refine ⟨fun fencing => ?complete, fun warm => congrArg _ (if_pos warm), fun cool => ?fall,
    fun runs fence => ⟨?phase1, ?dead1⟩, fun runs fence => ⟨?phase2, ?dead2⟩⟩
  case complete =>
    refine ⟨_, execStackFenceComplete_of_fencing fencing, ?_, fun y other => ?_, logs_ok (s.onStack x _) _, ?_⟩
    · rw [State.logRec_stack, s.onStack_stack_same x _ x.isLt]
    · rw [State.logRec_stack, s.onStack_stack_other x y _ other]
    · exact (execStackFenceComplete_ev x s (execStackFenceComplete_of_fencing fencing)).frame
  case fall =>
    obtain ⟨t, run⟩ : ∃ t, execStackLevelFall x s = .next t := ⟨_, rfl⟩
    have is_next : ∀ {u}, execStackLevelFall x s = .next u → t = u := fun h => Host.Outcome.next.inj (run.symm.trans h)
    refine ⟨t, run, (execStackLevelFall_ev x s run).frame, fun y => execStackLevelFall_stack_other run, fun level => ?critical,
      fun level => ?warm, fun level fence => ⟨fun parity => ?returns, fun bare => ?serves⟩⟩
    case critical =>
      rw [is_next (execStackLevelFall_critical cool level)]
      exact ⟨s.onStack_stack_same x _ x.isLt, rfl⟩
    case warm =>
      rw [is_next (execStackLevelFall_warm cool level)]
      exact ⟨s.onStack_stack_same x _ x.isLt, rfl⟩
    case returns =>
      rw [is_next (execStackLevelFall_hot cool level fence), if_pos parity]
      simp
    case serves =>
      rw [is_next (execStackLevelFall_hot cool level fence), if_neg (by simp [bare]), State.clearFence_stack_same]
      exact ⟨by simp, rfl⟩
  case phase1 =>
    exact ⟨_, execStackReturnPhase1End_responds runs fence, s.onStack_stack_same x _ x.isLt, rfl,
      ((State.onMem_ev _ _ id).then ((s.onStack_ev x _).mono rfl) rfl).frame⟩
  case dead1 => exact ⟨_, execStackReturnPhase1End_silent runs fence, s.stackDead_facts x⟩
  case phase2 =>
    refine ⟨_, execStackReturnComplete_responds runs fence, State.clearFence_stack_same _ x, rfl, fun l parked => ?_,
      fun sound => MemSt.read_unpark _ sound, fun a parked own => MemSt.unpark_dirty_none parked (beq_iff_eq.2 own), ?_⟩
    · simpa using MemSt.mem_unpark_parked parked
    · exact ((State.clearFence_ev _ x).then ((s.onMem_ev _ (MemSt.unpark_wf _)).mono rfl) rfl).frame
  case dead2 =>
    obtain ⟨dead, fenced, -, irq⟩ := s.stackDead_facts x
    exact ⟨_, execStackReturnComplete_silent runs fence, dead, fenced, irq⟩

end Sys2Proof.Machine
end

section
/-! SUPPORT. The whole machine: what a step is, that every command has a next state, and what the eFuse bank keeps (R396, R399, R435). -/
namespace Sys2Proof.Machine

/-- Settles O1: the front of the queue is the command run. -/
theorem stepRunsFront : Obligations.StepRunsFront := fun _ _ _ => rfl

/-- Settles O2: on an empty queue a step has nothing to run. -/
theorem stepIdles : Obligations.StepIdles := by
  intro s empty
  unfold step
  rw [empty]

/-- Settles O4: at reset neither the stacks nor the shared cache list a byte. -/
theorem resetSound : Obligations.ResetSound := by
  show MemSt.reset.wf = true
  rfl

/-- Every row of the table has a meaning of its own, and none of them faults or refuses; a host access alone judges first whether
its framing is right (R455). -/
theorem exec_next (c : Instr) (s : State) : ∃ t, exec c s = .next t := by
  cases c with
  | hostAccessRequest addr write beats tag data strb upset =>
    show ∃ t, execHostAccessRequest addr write beats tag data strb upset s = .next t
    unfold execHostAccessRequest
    dsimp only
    split <;> exact ⟨_, rfl⟩
  | _ => exact ⟨_, rfl⟩

/-- Settles O7: `exec_next` gives the next state, and `exec_ev` its frame. -/
theorem commandFrames : Obligations.CommandFrames := by
  intro c s
  obtain ⟨t, run⟩ := exec_next c s
  exact ⟨t, run, (exec_ev c s run).frame⟩

/-- A bit of a number that another number covers is a bit of that number. -/
theorem bitOf_of_and_eq {a b : Nat} (covered : a &&& b = a) {i : Nat} (h : bitOf a i = true) : bitOf b i = true := by
  rw [Obligations_bitOf] at h ⊢
  rw [← covered, Nat.testBit_and] at h
  exact (Bool.and_eq_true_iff.1 h).2

/-- Settles O6: a step idles or runs a command, and no command clears a bit of the bank (`exec_ev`). -/
theorem stepsKeepFuses : Obligations.StepsKeepFuses := by
  intro s t h i programmed
  obtain ⟨-, rfl⟩ | ⟨c, rest, -, run⟩ := step_cases h
  · exact programmed
  · exact bitOf_of_and_eq (exec_ev c _ run).fuse programmed

end Sys2Proof.Machine
end

section
/-! SUPPORT. SPILL and RELOAD at dispatch (R346-R349, R354): what the ranges and the far tier decide, and what follows a reply. -/
namespace Sys2Proof.Machine

/-- Without a far tier a range of its aperture is judged by R354 alone, so the command is answered FAR_TIER_ABSENT. -/
theorem State.copyStart_absent {s : State} {p : Nat} {checks : List (Bool × Nat)} {ranges : List Nat} (hc : firstFail checks = none)
    (filled : gLen p ≠ 0) (absent : farAbsent s = true)
    (valid : ∀ a ∈ ranges, regionOf a = .far ∨ badByte s a (gLen p) = none) (q pos a : Nat) :
    s.copyStart q pos p a checks ranges true = s.replyNow q pos p [⟨.farTierAbsent, 0⟩] := by
  have none_bad : (ranges.filter (fun a => !(true && farAbsent s && regionOf a == .far))).flatMap (fun a => rangeBad s a (gLen p)) = [] := by
    rw [List.flatMap_eq_nil_iff]
    intro x hx
    obtain ⟨mem, kept⟩ := List.mem_filter.1 hx
    refine rangeBad_nil ((valid x mem).resolve_left fun far => ?_)
    simp [absent, far] at kept
  simp only [State.copyStart, hc, if_neg filled, none_bad]
  simp only [absent, Bool.and_self, if_true]

theorem execSpill_of_waits {s : State} {q : QIx} {p : Nat} (h : Waits s q 0x28 p) :
    execSpill q s = .next (((s.takePacket q).copyStart q (s.queue q).head p (packetAddr (s.queue q) (s.queue q).head) (spillChecks p)
      [gSrc p, gDst p] true).openExtent (q.val, (s.queue q).head)) := by
  rw [execSpill, withPacket_run _ h]

theorem execReload_of_waits {s : State} {q : QIx} {p : Nat} (h : Waits s q 0x29 p) :
    execReload q s = .next (((s.takePacket q).copyStart q (s.queue q).head p (packetAddr (s.queue q) (s.queue q).head) (reloadChecks p)
      [gSrc p, gDst p] true).reloadOn (gLen p / 2048 + 1) (q.val, (s.queue q).head)) := by
  rw [execReload, withPacket_run _ h]

/-- Settles O16: both ranges valid launch the command; without a far tier it is answered, and no extent is opened and no granule gone
over for a command that is no longer in flight. -/
theorem spillReloadDispatch : Obligations.SpillReloadDispatch := by
  intro q s p filled
  refine ⟨fun h checks srcValid => ⟨fun present dstValid => ?spill, fun absent => ?spillAbsent⟩,
    fun h checks dstValid => ⟨fun present srcValid => ?reload, fun absent => ?reloadAbsent⟩⟩
  case spill =>
    exact ⟨_, execSpill_of_waits h, copyStart_launch checks filled (by simp [rangeBad_nil srcValid, rangeBad_nil dstValid]) present⟩
  case reload =>
    exact ⟨_, execReload_of_waits h, copyStart_launch checks filled (by simp [rangeBad_nil srcValid, rangeBad_nil dstValid]) present⟩
  case spillAbsent =>
    have answered := s.replyNow_answered q p [⟨.farTierAbsent, 0⟩]
    refine ⟨_, execSpill_of_waits h, ?_⟩
    rw [State.copyStart_absent (s := s.takePacket q) checks filled absent
      (by simpa [(spill_far checks).2] using .inr srcValid), openExtent_none (cmd?_answered answered)]
    exact answered
  case reloadAbsent =>
    have answered := s.replyNow_answered q p [⟨.farTierAbsent, 0⟩]
    refine ⟨_, execReload_of_waits h, ?_⟩
    rw [State.copyStart_absent (s := s.takePacket q) checks filled absent
      (by simpa [(reload_far checks).1] using .inr dstValid), reloadOn_none (cmd?_answered answered)]
    exact answered

end Sys2Proof.Machine
end

section
/-! SUPPORT. Frame commands at dispatch (R59, R357, R371, R374-R376): one equation per outcome. -/
namespace Sys2Proof.Machine

/-- A check at offset 0 that fails is named before any other. -/
theorem firstFail_of_zero (l : List (Bool × Nat)) : firstFail ((true, 0) :: l) = some 0 := by
  cases h : firstFail l <;> simp [firstFail, h]

theorem execFrameSend_of_waits {s : State} {q : QIx} {p : Nat} (h : Waits s q 0x20 p) (checks : firstFail (sendChecks s p) = none) :
    execFrameSend q s = .next (((s.takePacket q).startFrm q (s.queue q).head p ⟨fsFrames p, 0, 0, 0, 0, 0, 0⟩).sendOn (fsFrames p + 1)
      (q.val, (s.queue q).head)) := by
  have taken : firstFail (sendChecks (s.takePacket q) p) = none := checks
  rw [execFrameSend, withPacket_run _ h]
  simp only [taken]

theorem execFrameSend_noOutbound {s : State} {q : QIx} {p : Nat} (h : Waits s q 0x20 p) (absent : noOutbound s = true) :
    execFrameSend q s = .next ((s.takePacket q).replyNow q (s.queue q).head p
      [badField 0 (packetAddr (s.queue q) (s.queue q).head) 0]) := by
  have fails : firstFail (sendChecks (s.takePacket q) p) = some 0 := by
    rw [sendChecks, show noOutbound (s.takePacket q) = true from absent, firstFail_of_zero]
  rw [execFrameSend, withPacket_run _ h]
  simp only [fails]
  rfl

theorem execFrameRecv_of_waits {s : State} {q : QIx} {p : Nat} (h : Waits s q 0x21 p) (checks : firstFail (recvChecks s p 8) = none) :
    execFrameRecv q s = .next (((s.takePacket q).startFrm q (s.queue q).head p ⟨fsCount p, 0, 0, 0, 0, 0, 0⟩).beginRecv
      (q.val, (s.queue q).head)) := by
  have taken : firstFail (recvChecks (s.takePacket q) p 8) = none := checks
  rw [execFrameRecv, withPacket_run _ h]
  simp only [taken]

theorem execFrameCombine_of_waits {s : State} {q : QIx} {p : Nat} (h : Waits s q 0x22 p) (checks : firstFail (recvChecks s p 16) = none) :
    execFrameCombine q s = .next (((s.takePacket q).startFrm q (s.queue q).head p ⟨fsCount p, 0, 0, 0, 0, 0, 0⟩).beginRecv
      (q.val, (s.queue q).head)) := by
  have taken : firstFail (recvChecks (s.takePacket q) p 16) = none := checks
  rw [execFrameCombine, withPacket_run _ h]
  simp only [taken]

/-- What MAX_EXCHANGE begins with: the other PARTICIPANTS awaited, and the fields of its own record's payload (R376). -/
def maxBegun (p : Nat) (pay : List Byte) : Frm :=
  let b := fun i => (pay.getD i 0).toNat
  ⟨mxParts p - 1, 0, 1, b 0, b 1, b 2 + 16 * b 3, b 4 + 256 * b 5⟩

theorem execMaxExchange_of_waits {s : State} {q : QIx} {p : Nat} (h : Waits s q 0x23 p) (checks : firstFail (maxChecks s p) = none)
    (readable : nearFault s (mxLocal p) 8 = none) (valid : bitOf (s.readNat (mxLocal p) 8) 63 = true)
    (fresh : bitOf (s.readNat (mxLocal p) 8) 58 = false) :
    execMaxExchange q s = .next ((((s.takePacket q).startFrm q (s.queue q).head p
        (maxBegun p (maxPayload (s.readNat (mxLocal p) 8)))).sendFrame
          { typ := 2, ctx := ctxOf q, layer := mxGroup p, step := (s.ctx (ctxOf q)).step, dst := 8, elems := 8 }
          (maxPayload (s.readNat (mxLocal p) 8)) (some (q.val, (s.queue q).head))).beginRecv (q.val, (s.queue q).head)) := by
  have takenChecks : firstFail (maxChecks (s.takePacket q) p) = none := checks
  have takenReadable := ((SameMem.takePacket s q).nearFault (mxLocal p) 8).trans readable
  have takenRecord : (s.takePacket q).readNat (mxLocal p) 8 = s.readNat (mxLocal p) 8 := rfl
  rw [execMaxExchange, withPacket_run _ h]
  simp only [takenChecks, takenReadable, takenRecord, valid, fresh, Bool.not_true, Bool.or_self, Bool.false_eq_true, if_false]
  rfl

/-- Settles O19: a frame command whose checks pass is launched; the rest of its row is the operation that the statement names. -/
theorem frameDispatch : Obligations.FrameDispatch := by
  refine ⟨fun q s p => ⟨fun h checks => ?send, fun h absent => ?refused, fun h checks => ?recv, fun h checks => ?combine⟩,
    fun q s p h checks readable valid fresh => ?max⟩
  case send => exact ⟨_, execFrameSend_of_waits h checks, State.launchCmd_launched s q _ false rfl rfl⟩
  case refused => exact ⟨_, execFrameSend_noOutbound h absent, s.replyNow_answered q p _⟩
  case recv => exact ⟨_, execFrameRecv_of_waits h checks, State.launchCmd_launched s q _ false rfl rfl⟩
  case combine => exact ⟨_, execFrameCombine_of_waits h checks, State.launchCmd_launched s q _ false rfl rfl⟩
  case max =>
    exact ⟨_, _, execMaxExchange_of_waits h checks readable valid fresh, rfl, rfl, State.launchCmd_launched s q _ false rfl rfl⟩

end Sys2Proof.Machine
end

section
/-! SUPPORT. SERVICE packets (R380, R401): subcodes that a packet may not carry, and those that it may. -/
namespace Sys2Proof.Machine

theorem execReservedSubcode_packet (q : QIx) (s : State) :
    execReservedSubcode (.packet q) s
      = .next (withService s (.packet q) (fun x => !svcKnown x) (fun s a => (s, [a.bad 8]))) := by
  cases image : s.svc.image <;> rfl

/-- A reserved subcode names no effect: its run fails at once. -/
theorem withService_packet_reserved {s : State} {q : QIx} {p : Nat} (h : Waits s q 0x3C p) (reserved : svcKnown (svcSub p) = false) :
    withService s (.packet q) (fun x => !svcKnown x) (fun s a => (s, [a.bad 8]))
      = (s.takePacket q).replyNow q (s.queue q).head p [badField 0 (packetAddr (s.queue q) (s.queue q).head) 8] :=
  withService_packet _ _ h (by simp [reserved]) (by simp [reserved])

/-- Settles O23: a subcode for SERVICE_CMD only is refused before its effect is looked at, and a reserved one has none. -/
theorem servicePacketsRefused : Obligations.ServicePacketsRefused := by
  intro q s p h
  have refused : ∀ (g : Nat → Bool) (f : State → SvcArgs → State × List Cond), g (svcSub p) = true → svcKnown (svcSub p) = true →
      svcPacketable (svcSub p) = false → Answered s (withService s (.packet q) g f) q p
        [badField 0 (packetAddr (s.queue q) (s.queue q).head) 8] := fun g f taken known barred =>
    withService_packet_bad g f h taken known barred ▸ s.replyNow_answered q p _
  refine ⟨fun row mem sub => ?settings, fun ok sub => ?burn, fun l sub => ?loopback, fun reserved => ?reserved⟩
  case burn => exact ⟨_, rfl, refused _ _ (by simp [sub]) (by rw [sub]; rfl) (by rw [sub]; rfl)⟩
  case loopback => exact ⟨_, rfl, refused _ _ (by simp [sub]) (by rw [sub]; rfl) (by rw [sub]; rfl)⟩
  case reserved =>
    refine ⟨_, execReservedSubcode_packet q s, ?_⟩
    rw [withService_packet_reserved h reserved]
    exact s.replyNow_answered q p _
  case settings =>
    simp only [List.mem_cons, List.not_mem_nil, or_false] at mem
    obtain rfl | rfl | rfl | rfl | rfl := mem
    all_goals exact ⟨_, rfl, refused _ _ (by simp [sub]) (by rw [sub]; rfl) (by rw [sub]; rfl)⟩

/-- A packet's run may name the packet's own context. -/
theorem SvcArgs.mayName_own (p a n : Nat) : (⟨p, a, some n⟩ : SvcArgs).mayName n = true := by simp [SvcArgs.mayName]

/-- Settles O24: SPARE_READ's output is writable and stored; the two frame subcodes name the packet's own context. -/
theorem servicePacketsRun : Obligations.ServicePacketsRun := by
  intro q s p h
  refine ⟨fun sub checks writable => ?spare, fun sub own => ?retag, fun sub own => ?discard⟩
  case spare =>
    have taken := ((SameMem.takePacket s q).outputFault (bitsOf p 175 128) (spareBytes s).length).trans writable
    have written : ∀ a, (s.takePacket q).svcWrite a (bitsOf p 175 128) 16 (spareBytes (s.takePacket q))
        = ((s.takePacket q).store (bitsOf p 175 128) (spareBytes s), []) :=
      State.svcWrite_of_writable (s := s.takePacket q) checks taken
    refine ⟨_, rfl, ?_⟩
    rw [withService_packet _ _ h (by simp [sub]) (by rw [sub]; rfl)]
    simp only [written]
    exact State.store_answered ..
  case retag =>
    show execFrameRetag (.packet q) s = _
    rw [execFrameRetag, withService_packet _ _ h (by simp [sub]) (by rw [sub]; rfl)]
    simp only [own, SvcArgs.mayName_own, Bool.not_true, Bool.false_eq_true, if_false, Bool.and_eq_true, beq_iff_eq]
  case discard =>
    refine ⟨_, rfl, ?_⟩
    rw [withService_packet _ _ h (by simp [sub]) (by rw [sub]; rfl)]
    simp only [own, SvcArgs.mayName_own, Bool.not_true, Bool.false_eq_true, if_false]
    exact State.replyNow_answered (s.onHeld (ctxOf q) _) q p []

end Sys2Proof.Machine
end

section
/-! SUPPORT. Registers of the window, one equation per write (R426-R428, R473-R480). -/
namespace Sys2Proof.Machine

theorem bitsOf_low (w hi : Nat) : bitsOf w hi 0 = w % 2 ^ (hi + 1) := rfl

/-! Q_BASE (R472, R476). -/

theorem execQBaseWrite_served {s : State} (h : Served s) (q : QIx) (value : Word) :
    exec (.qBaseWrite q value) s = .next (s.writeQBase q value.toNat) := by
  show execQBaseWrite q value s = _
  rw [execQBaseWrite, regWrite_served h, writeReg_qBase]

/-- What Q_BASE asks of a ring (R472, R476). -/
def ringBad (s : State) (v : Nat) : Prop :=
  bitsOf v 3 0 < 4 ∨ 12 < bitsOf v 3 0 ∨ (bitsOf v 47 12 * 4096 ≠ 0 ∧ (bitsOf v 47 12 * 4096 < 0x0D000000
    ∨ regionOf (bitsOf v 47 12 * 4096) ≠ .near ∨ badByte s (bitsOf v 47 12 * 4096) (576 * 2 ^ bitsOf v 3 0) ≠ none))

theorem State.writeQBase_active {s : State} {q : Nat} (h : (s.ctx (ctxOf q)).mode ≠ .disabled) (v : Nat) :
    s.writeQBase q v = s.cmdErr (ctxOf q) := if_pos h

theorem State.writeQBase_zero {s : State} {q : Nat} (h : (s.ctx (ctxOf q)).mode = .disabled) :
    s.writeQBase q 0 = s.onQ q (fun x => { x with log := 0, base := 0 }) :=
  (if_neg (fun other => other h)).trans (if_pos ⟨rfl, rfl⟩)

theorem State.writeQBase_bad {s : State} {q v : Nat} (bad : ringBad s v) (named : ¬ (bitsOf v 3 0 = 0 ∧ bitsOf v 47 12 * 4096 = 0)) :
    s.writeQBase q v = s.cmdErr (ctxOf q) := by
  by_cases mode : (s.ctx (ctxOf q)).mode = .disabled
  · refine (if_neg (fun other => other mode)).trans ((if_neg named).trans (if_pos ?_))
    simpa [ringBad, or_assoc, Option.isSome_iff_ne_none] using bad
  · exact State.writeQBase_active mode v

theorem State.writeQBase_good {s : State} {q v : Nat} (mode : (s.ctx (ctxOf q)).mode = .disabled) (good : ¬ ringBad s v) :
    s.writeQBase q v = s.onQ q (fun x => { x with log := bitsOf v 3 0, base := bitsOf v 47 12 * 4096 }) := by
  have filled : bitsOf v 3 0 ≠ 0 := fun zero => good (.inl (by omega))
  refine (if_neg (fun other => other mode)).trans ((if_neg fun zero => filled zero.1).trans (if_neg ?_))
  simpa [ringBad, or_assoc, Option.isSome_iff_ne_none] using good

/-- Settles O29: the fields decide among the four branches of the write. -/
theorem queueBaseRule : Obligations.QueueBaseRule := by
  intro q value s h
  rw [execQBaseWrite_served h]
  refine ⟨fun mode low high above near valid => ?ring, fun mode zero => ?none, fun refused => next_congr ?refused⟩
  case ring =>
    rw [State.writeQBase_good mode]
    rintro (short | long | ⟨-, inside | region | invalid⟩)
    · omega
    · omega
    · omega
    · exact region near
    · exact invalid valid
  case none =>
    subst zero
    rw [show (0 : Word).toNat = 0 from rfl, State.writeQBase_zero mode]
  case refused =>
    obtain mode | ⟨short, base⟩ | long | ⟨base, inside⟩ := refused
    · exact State.writeQBase_active mode _
    · exact State.writeQBase_bad (.inl short) (by omega)
    · exact State.writeQBase_bad (.inr (.inl long)) (by omega)
    · exact State.writeQBase_bad (.inr (.inr ⟨by omega, .inl inside⟩)) (by omega)

/-! KPR_LIMITS (R426). -/

/-- In every state of the block but S0 and IDLE the write reaches the register: it is of the keeper set (R434, R459). -/
theorem State.regWrite_limits {s : State} (stage : s.start.stage ≠ 0) (awake : s.pwr.state ≠ .idle) (v : Nat) :
    s.regWrite 0x108 v = s.writeLimits v := by
  have keeper : s.keeperWrite 0x108 v = s.writeLimits v :=
    (if_neg (by simp [stage, keeperSet])).trans (if_neg (by decide))
  unfold State.regWrite
  rw [keeper, if_neg awake]
  exact ite_self _

theorem limitsOk_iff (v : Nat) : limitsOk v = true ↔ 250 ≤ bitsOf v 9 0 ∧ bitsOf v 9 0 ≤ 700 ∧ 70 ≤ bitsOf v 16 10
    ∧ bitsOf v 16 10 ≤ 100 ∧ 120 ≤ bitsOf v 31 24 ∧ bitsOf v 31 24 ≤ 150 ∧ 150 ≤ bitsOf v 39 32 ∧ bitsOf v 39 32 ≤ 170
    ∧ bitsOf v 31 24 ≤ bitsOf v 39 32 := by
  simp [limitsOk, and_assoc]

theorem regRead_limits (s : State) : regRead s 0x108 = kprLimitsWord s := rfl

theorem regRead_kprStatus (s : State) : regRead s 0x100 = kprStatusWord s := rfl

/-- Fields within their widths stand in their places of the word. -/
theorem kprLimitsWord_of_lt {s : State} (p : s.kpr.pLimit < 1024) (t : s.kpr.tThrottle < 128) (vs : s.kpr.vSust < 256)
    (vp : s.kpr.vSprint < 256) : kprLimitsWord s
      = s.kpr.pLimit + 2 ^ 10 * s.kpr.tThrottle + 2 ^ 24 * s.kpr.vSust + 2 ^ 32 * s.kpr.vSprint := by
  simp only [kprLimitsWord, putBits, Nat.shiftLeft_eq, Nat.mod_eq_of_lt (show s.kpr.pLimit < 2 ^ 10 from p),
    Nat.mod_eq_of_lt (show s.kpr.tThrottle < 2 ^ 7 from t), Nat.mod_eq_of_lt (show s.kpr.vSust < 2 ^ 8 from vs),
    Nat.mod_eq_of_lt (show s.kpr.vSprint < 2 ^ 8 from vp)]
  omega

/-- LIMIT_ERR is bit 30 of KPR_STATUS: no field below it reaches so far (R427). -/
theorem kprStatusWord_limitErr (s : State) : bitOf (kprStatusWord s) 30 = s.kpr.limitErr := by
  have one (b : Bool) : bit b % 2 ^ 1 = bit b := by cases b <;> rfl
  have code : bit s.kpr.limitErr < 2 := by cases s.kpr.limitErr <;> decide
  have alert : bit (keeperAlert s) < 2 := by cases keeperAlert s <;> decide
  have alarm : bit s.kpr.chipAlarm < 2 := by cases s.kpr.chipAlarm <;> decide
  have bit30 : kprStatusWord s >>> 30 % 2 = bit s.kpr.limitErr := by
    simp only [kprStatusWord, putBits, one, Nat.shiftLeft_eq, Nat.shiftRight_eq_div_pow]
    generalize bit s.kpr.limitErr = l at *
    generalize bit (keeperAlert s) = x at *
    generalize bit s.kpr.chipAlarm = y at *
    generalize bit (twoCopies s) = z
    generalize ofSigned s.kpr.tHot 8 = h
    generalize min 1023 s.kpr.pF = f
    generalize s.kin.sensors.countP sensorFailedNow = n
    omega
  rw [bitOf, bit30]
  cases s.kpr.limitErr <;> rfl

/-- Settles O34: the write reaches the register, which takes all four fields or none. -/
theorem limitsRule : Obligations.LimitsRule := by
  refine ⟨fun value s p t vs vp stage awake hp ht hs hv => ⟨fun inRange => ?taken, fun outside => ?refused⟩, rfl, rfl, rfl, rfl⟩
  all_goals
    subst hp ht hs hv
    have run : exec (.kprLimitsWrite value) s = .next (s.writeLimits value.toNat) := next_congr (State.regWrite_limits stage awake _)
  case taken =>
    rw [State.writeLimits, if_pos ((limitsOk_iff _).2 inRange)] at run
    refine ⟨_, run, rfl, ?_⟩
    obtain ⟨-, p, -, t, -, vs, -, vp, -⟩ := inRange
    rw [regRead_limits]
    exact kprLimitsWord_of_lt (Nat.lt_of_le_of_lt p (by decide)) (Nat.lt_of_le_of_lt t (by decide))
      (Nat.lt_of_le_of_lt vs (by decide)) (Nat.lt_of_le_of_lt vp (by decide))
  case refused =>
    rw [State.writeLimits, if_neg (mt (limitsOk_iff _).1 outside)] at run
    refine ⟨_, run, rfl, rfl, ?_⟩
    rw [regRead_kprStatus, kprStatusWord_limitErr]
    rfl

/-! Registers with rows of their own, and the others (R458, R473). -/

/-- Offsets from 0x280 to 0x3FF are not listed, so a write there is ignored (R458, R473). -/
theorem State.writeReg_unlisted (s : State) {off : Nat} (low : 0x280 ≤ off) (high : off < 0x400) (v : Nat) : s.writeReg off v = s := by
  unfold State.writeReg
  rw [if_neg (by omega), if_neg (by omega), if_neg (by omega), if_neg (by omega)]
  split
  rotate_right
  · rfl
  all_goals omega

theorem execRegisterWrite_served {s : State} (h : Served s) {off : Nat} (listed : off % 8 = 0 ∧ off < 0x10000) (value : Word) :
    exec (.registerWrite off value) s = .next (s.writeReg off value.toNat) := by
  show execRegisterWrite off value s = _
  rw [execRegisterWrite, if_pos listed, regWrite_served h]

/-- A write of a one clears its bit of SVC_IRQ, and of no other (R478). -/
theorem bitOf_irqClear (irq v : Nat) {i : Nat} (h : i < 5) :
    bitOf (irq &&& (31 ^^^ bitsOf v 4 0)) i = (bitOf irq i && !bitOf v i) := by
  have ones : Nat.testBit 31 i = true := (Nat.testBit_two_pow_sub_one 5 i).trans (decide_eq_true h)
  simp only [Obligations_bitOf, bitsOf_low, Nat.testBit_and, Nat.testBit_xor, ones, Nat.testBit_mod_two_pow, h, decide_true,
    Bool.true_and, Bool.true_xor]

/-- RATED_TIB is taken where the selected entry holds none (R351). -/
theorem State.writeRated_rated {s : State} (used : (vget s.far.wear s.far.wearIdx).state ≠ 0)
    (unrated : (vget s.far.wear s.far.wearIdx).ratedTib = 0) (v : Nat) :
    (vget (s.writeRated v).far.wear s.far.wearIdx).ratedTib = bitsOf v 63 32 := by
  have idx : s.far.wearIdx < 16 := by
    refine Decidable.byContradiction fun outside => ?_
    have empty : vget s.far.wear s.far.wearIdx = default := by simp [vget, outside]
    exact used (by rw [empty]; rfl)
  rw [State.writeRated, if_neg (by simp [used, unrated]), wearCheck_rated _ _ _ idx, mirrorWear_wear, onWear_get _ _ _ _ idx,
    if_pos (by simp [used])]

theorem readReg_wearData (s : State) : readReg s 0x80 = s.far.wearLatch % 2 ^ 64 := by simp [readReg, bitsOf]

/-- Settles O35: the window serves each write, which reaches its register. -/
theorem registerSettings : Obligations.RegisterSettings := by
  intro value s h
  have served : ∀ off, s.regWrite off value.toNat = s.writeReg off value.toNat := fun off => regWrite_served h off _
  refine ⟨next_congr (served _), next_congr (served _), fun inRange => next_congr ((served _).trans ?resv),
    fun outside => next_congr ((served _).trans ?resvIgnored), ⟨_, next_congr (served _), rfl, rfl, rfl, ?idx⟩, ?data,
    fun used unrated => ⟨_, next_congr (served _), State.writeRated_rated used unrated _, (s.writeRated_ev _).frame⟩,
    fun set => next_congr ((served _).trans (if_pos set)), execRegisterWrite_served h (by decide) value,
    ⟨_, execRegisterWrite_served h (by decide) value, rfl, ?svc, fun i hi => bitOf_irqClear _ _ hi⟩,
    execRegisterWrite_served h (by decide) value, fun off low high => ?unlisted⟩
  case resv => exact if_neg (Nat.not_lt.2 inRange)
  case resvIgnored => exact if_pos outside
  case idx =>
    exact (Ev.then (l := [.far]) (State.latchWear_ev _) (s.onFar_ev _) rfl).frame
  case data =>
    have latched := regRead_served (served_ev h s.latchWear_ev rfl) 0x80
    have run : exec .wearLedgerDataRead s = .next (s.latchWear.onPort (fun x => { x with regData := readReg s.latchWear 0x80 })) := by
      show execWearLedgerDataRead s = _
      simp only [execWearLedgerDataRead, show windowOpen s = true from h, if_true, latched]
    refine ⟨_, run, readReg_wearData s.latchWear, rfl, ?_⟩
    exact (Ev.then (l := [.far, .port]) (State.onPort_ev ..) (s.latchWear_ev.mono rfl) rfl).frame
  case svc => exact (s.onSvc_ev _).frame
  case unlisted =>
    show execRegisterWrite off value s = _
    unfold execRegisterWrite
    split
    · rw [regWrite_served h, State.writeReg_unlisted s low high]
    · rfl

/-! PWR_CTRL (R428). -/

theorem State.target_served {s : State} (h : Served s) {t : Nat} {value : Word} (code : bitsOf value.toNat 1 0 = t) :
    s.target t value = s.writePwr value.toNat :=
  (if_pos code).trans (regWrite_served h _ _)

/-- PWR_CTRL's fields but TARGET (R428). -/
def State.pwrFields (s : State) (v : Nat) : State :=
  s.onPwr (fun p => { p with autoIdle := bitOf v 2, idleDelay := bitsOf v 31 8, refused := p.refused && !bitOf v 34 })

theorem State.writePwr_of_code {v c : Nat} (code : bitsOf v 1 0 = c) (s : State) :
    s.writePwr v = (s.pwrFields v).setTarget (pstateOf c) := by
  rw [← code]
  rfl

theorem Served.not_deep {s : State} (h : Served s) : s.pwr.state ≠ .deep := by
  obtain ⟨-, active | off, -⟩ := served_open h
  · simp [active]
  · simp [off]

theorem Served.not_idle {s : State} (h : Served s) : s.pwr.state ≠ .idle := by
  obtain ⟨-, active | off, -⟩ := served_open h
  · simp [active]
  · simp [off]

/-- A transition away from ACTIVE is under way, sprint is over, and the rest of the state stays (R425, R428). -/
theorem State.goTo_away_facts {s : State} {t : PState} (away : t ≠ .active) (fresh : s.pwr.state ≠ t) :
    (s.goTo t).pwr = { s.pwr with going := some t } ∧ (s.goTo t).kpr.sprintOn = false ∧ s.onlyIn [.kpr, .kin, .pwr] (s.goTo t) := by
  have pwr : (s.endSprint 6).driveRequest.pwr = s.pwr := ((State.driveRequest_ev _).frame .pwr rfl).trans (endSprint_pwr s 6)
  have kpr : (s.endSprint 6).driveRequest.kpr = (s.endSprint 6).kpr := (State.driveRequest_ev _).frame .kpr rfl
  refine ⟨?_, ?_, (s.goTo_ev t).frame⟩
  all_goals rw [goTo_away s t away fresh]
  · exact congrArg (fun p : Pwr => { p with going := some t }) pwr
  · exact (congrArg Kpr.sprintOn kpr).trans (endSprint_off s 6)

/-- A target away from ACTIVE begins its transition (R428). -/
theorem State.setTarget_away {s : State} (h : Served s) {t : PState} (away : t ≠ .active) (quiet : t = .deep → allDisabled s = true) :
    s.setTarget t = (s.onPwr (fun p => { p with target := t })).goTo t := by
  rw [setTarget_run s t (served_open h).1 h.not_deep quiet, if_neg away]

/-- What a target away from ACTIVE leaves. -/
theorem State.setTarget_away_facts {s : State} (h : Served s) {t : PState} (away : t ≠ .active) (fresh : s.pwr.state ≠ t)
    (quiet : t = .deep → allDisabled s = true) :
    (s.setTarget t).pwr = { s.pwr with target := t, going := some t } ∧ (s.setTarget t).kpr.sprintOn = false
      ∧ s.onlyIn [.kpr, .kin, .pwr] (s.setTarget t) := by
  rw [State.setTarget_away h away quiet]
  obtain ⟨pwr, sprint, rest⟩ := State.goTo_away_facts (s := s.onPwr (fun p => { p with target := t })) away fresh
  have target : Ev [.kpr, .kin, .pwr] s (s.onPwr (fun p => { p with target := t })) := (s.onPwr_ev _).mono rfl
  exact ⟨pwr, sprint, fun f hf => State.same_trans (target.frame f hf) (rest f hf)⟩

theorem Served.pwrFields {s : State} (h : Served s) (v : Nat) : Served (s.pwrFields v) := h

/-- TARGET ACTIVE begins the return; in ACTIVE there is none to begin (R428). -/
theorem State.setTarget_active {s : State} (h : Served s) : s.setTarget .active
    = s.onPwr (fun p => { p with target := .active, going := if s.pwr.state = .active then none else some .active }) := by
  rw [setTarget_run s .active (served_open h).1 h.not_deep PState.noConfusion, if_pos rfl]
  refine (if_neg h.not_idle).trans ?_
  by_cases state : s.pwr.state = .active
  · simp only [State.goTo, State.onPwr, state, if_true]
  · simp only [State.goTo, State.onPwr, if_true, if_neg state, if_neg (Ne.symm state)]

/-- Settles O36: TARGET names its transition; DEEP is refused while a context is not DISABLED. -/
theorem powerTargets : Obligations.PowerTargets := by
  intro value s h
  refine ⟨fun row mem code deep fresh => ?away, fun code busy => ?refused, fun code => ?active⟩
  case away =>
    have run : exec row.1 s = .next ((s.pwrFields value.toNat).setTarget row.2.2) ∧ row.2.2 ≠ .active := by
      simp only [List.mem_cons, List.not_mem_nil, or_false] at mem
      obtain rfl | rfl | rfl := mem
      all_goals exact ⟨next_congr ((State.target_served h code).trans (State.writePwr_of_code code s)), PState.noConfusion⟩
    obtain ⟨run, away⟩ := run
    obtain ⟨pwr, sprint, rest⟩ := State.setTarget_away_facts (h.pwrFields value.toNat) away fresh
      (fun target => (allDisabled_iff s).2 (deep target))
    refine ⟨_, run, by rw [pwr], by rw [pwr], by rw [pwr]; rfl, by rw [pwr]; rfl, by rw [pwr]; rfl, sprint, ?_⟩
    have fields : Ev [.kpr, .kin, .pwr] s (s.pwrFields value.toNat) := (s.onPwr_ev _).mono rfl
    exact fun f hf => State.same_trans (fields.frame f hf) (rest f hf)
  case refused =>
    have open_ : ¬ allDisabled (s.pwrFields value.toNat) = true := fun all => by
      obtain ⟨n, hn, mode⟩ := busy
      exact mode ((allDisabled_iff s).1 all n hn)
    refine next_congr ((State.target_served h code).trans ((State.writePwr_of_code code s).trans ?_))
    exact if_pos ⟨rfl, open_⟩
  case active =>
    refine next_congr ((State.target_served h code).trans ((State.writePwr_of_code code s).trans ?_))
    exact State.setTarget_active (h.pwrFields value.toNat)

end Sys2Proof.Machine
end

section
/-! SUPPORT. Held frames (R369): what of the exchange engine the end of a command and the stages of a sequence change. -/
namespace Sys2Proof.Machine

/-- The frames held for each context are as before. -/
def State.sameHeld (s t : State) : Prop := t.xch.held = s.xch.held

theorem State.sameHeld.trans {s t u : State} (h : s.sameHeld t) (g : t.sameHeld u) : s.sameHeld u := Eq.trans g h

theorem sameHeld_of_ev {l : List Field} {s t : State} (e : Ev l s t) (outside : l.contains Field.xch = false) : s.sameHeld t :=
  congrArg XchSt.held (e.frame .xch outside)

theorem sameHeld_foldl {α : Type} (f : State → α → State) (keep : ∀ (s : State) a, s.sameHeld (f s a)) (l : List α) (s : State) :
    s.sameHeld (l.foldl f s) :=
  foldl_keep State.sameHeld (fun _ => rfl) (fun _ _ _ => State.sameHeld.trans) f keep l s

theorem State.finishCmd_held (s : State) (k : Key) (cmd : Cmd) (c : Comp) : s.sameHeld (s.finishCmd k cmd c) := by
  unfold State.finishCmd
  extract_lets ended
  split
  · exact txEnd_held ended ..
  · rfl

theorem State.settleOnce_held (s : State) (k : Key) : s.sameHeld (s.settleOnce k) := by
  have valid (c : Comp) (p : Nat) : s.sameHeld (s.setDenomValid c p) := sameHeld_of_ev (s.setDenomValid_ev c p) rfl
  unfold State.settleOnce
  split
  · rfl
  split
  · rfl
  split
  · rfl
  split
  · split
    · exact s.finishCmd_held ..
    · rfl
  split
  · rfl
  split
  · split
    · exact (valid ..).trans (State.finishCmd_held ..)
    split
    · exact (valid ..).trans (sameHeld_of_ev (State.beginPhase2_ev ..) rfl)
    · rfl
  split
  · exact s.finishCmd_held ..
  · rfl

theorem State.tidy_held (s : State) (k : Key) : s.sameHeld (s.tidy k) := by
  have freed : (s.onComp k Comp.freeRuns).sameHeld ((s.onComp k Comp.freeRuns).syncArea k) := sameHeld_of_ev (State.syncArea_ev ..) rfl
  have settled (u : State) : u.sameHeld (u.settle k).letGo :=
    ((u.settleOnce_held k).trans (State.settleOnce_held _ k)).trans (sameHeld_of_ev (State.letGo_ev _) rfl)
  exact freed.trans (settled _)

theorem State.stopContext_held (s : State) (n : Nat) : s.sameHeld (s.stopContext n) := by
  have stopped : s.sameHeld ((s.cmdsOf n).foldl (fun s c => match c.comp? with
      | some _ => ((s.onComp c.key (fun x => { x with stop := true })).clearWork c.key).tidy c.key
      | none => s) s) := by
    refine sameHeld_foldl _ (fun u c => ?_) _ _
    split
    · exact (sameHeld_of_ev (State.clearWork_ev ..) rfl : State.sameHeld (u.onComp c.key _) _).trans (State.tidy_held ..)
    · rfl
  have resumed := sameHeld_foldl (fun s c => s.onCore c (fun k => { k with paused := k.paused.filter (fun p => p.ctx != n) }))
    (fun _ _ => rfl) (rangeFrom 0 8)
  exact (stopped.trans (resumed _)).trans (sameHeld_of_ev (State.onQueues_ev ..) rfl)

/-- What the end of a disable leaves before a reset that waits for it (R308, R369). -/
def State.disabledCtx (s : State) (n : Nat) : State :=
  ((rangeFrom 0 8).foldl (fun s c => s.onCore c (fun k => { k with yielded := k.yielded.filter (fun y => y.1 != n) }))
    (s.onHeld n (fun _ => []))).onCtx n (fun c => { c with mode := .disabled, stage := 0 })

theorem State.disabledCtx_mode (s : State) (n : CIx) : ((s.disabledCtx n).ctx n).mode = .disabled :=
  congrArg Ctx.mode (State.onCtx_ctx _ n _)

theorem State.disabledCtx_held (s : State) (n : CIx) : (s.disabledCtx n).heldOf n = [] := by
  have marks := sameHeld_foldl (fun s c => s.onCore c (fun k => { k with yielded := k.yielded.filter (fun y => y.1 != n.val) }))
    (fun _ _ => rfl) (rangeFrom 0 8) (s.onHeld n (fun _ => []))
  have held : (s.disabledCtx n).xch.held = (s.onHeld n (fun _ => [])).xch.held := marks
  rw [State.heldOf, held]
  exact onHeld_held s n _

/-- The end of a sequence, by the mode that began it (R308, R311). -/
theorem State.endSeq_disabling {s : State} {n : CIx} (mode : (s.ctx n).mode ≠ .preempting) :
    s.endSeq n = if ((s.disabledCtx n).ctx n).resetAfter then (s.disabledCtx n).resetCtx n else s.disabledCtx n := if_neg mode

theorem State.endSeq_preempting {s : State} {n : CIx} (mode : (s.ctx n).mode = .preempting) :
    s.endSeq n = s.onCtx n (fun c => { c with mode := .suspended, stage := 0 }) := if_pos mode

section
variable {n : CIx} {s : State} (runs : blkRuns s = true) (acts : s.cp.paused = false)
include runs acts

theorem execDisableStageEnd_stage7 (stage : (s.ctx n).stage = 7) :
    execDisableStageEnd n s = .next ((s.drainQueues n).endSeq n) := by
  simp [execDisableStageEnd, runs, acts, stage]

theorem execDisableStageEnd_other (stage : (s.ctx n).stage = 0 ∨ (s.ctx n).stage = 4 ∨ 7 < (s.ctx n).stage) :
    execDisableStageEnd n s = .next s := by
  unfold execDisableStageEnd
  simp only [runs, acts, Bool.not_true, Bool.or_false, Bool.false_eq_true, if_false]
  split
  rotate_right
  · rfl
  all_goals omega

/-- A stage of a preemption keeps every held frame. -/
theorem execDisableStageEnd_held (mode : (s.ctx n).mode = .preempting) {t : State} (run : execDisableStageEnd n s = .next t) :
    s.sameHeld t := by
  have stages : (s.ctx n).stage = 1 ∨ (s.ctx n).stage = 2 ∨ (s.ctx n).stage = 3 ∨ (s.ctx n).stage = 5 ∨ (s.ctx n).stage = 6
      ∨ (s.ctx n).stage = 7 ∨ ((s.ctx n).stage = 0 ∨ (s.ctx n).stage = 4 ∨ 7 < (s.ctx n).stage) := by omega
  have next (u : State) (k : Nat) (h : s.sameHeld u) : s.sameHeld (u.toStage n k) := h
  obtain stage | stage | stage | stage | stage | stage | stage := stages
  · rw [execDisableStageEnd_stage1 runs acts stage] at run
    cases run
    rfl
  · rw [execDisableStageEnd_stage2 runs acts stage] at run
    cases run
    exact next _ _ (s.stopContext_held n)
  · rw [execDisableStageEnd_stage3 runs acts stage] at run
    cases run
    split
    · exact next _ _ (State.sameHeld.trans (discardSends_held s n) (sameHeld_of_ev (State.unbindCtx_ev ..) rfl))
    · rfl
  · rw [execDisableStageEnd_stage5 runs acts stage] at run
    cases run
    split <;> rfl
  · rw [execDisableStageEnd_stage6 runs acts stage, if_pos mode] at run
    cases run
    split
    · exact next _ _ (sameHeld_of_ev (s.replyAll_ev n) rfl)
    · rfl
  · rw [execDisableStageEnd_stage7 runs acts stage] at run
    cases run
    rw [State.endSeq_preempting ((drainQueues_mode s n n).1.trans mode)]
    have drained : s.sameHeld (s.drainQueues n) := sameHeld_of_ev (s.drainQueues_ev n) rfl
    exact drained
  · rw [execDisableStageEnd_other runs acts stage] at run
    cases run
    rfl

end

/-- Settles O32: the end of a disable empties the context's list, and nothing that a preemption or RESUME does touches it. -/
theorem heldFramesAtEnd : Obligations.HeldFramesAtEnd := by
  intro n s runs acts
  refine ⟨fun mode stage => ?disable, fun mode => ⟨fun t run => execDisableStageEnd_held runs acts mode run, fun stage => ?preempt⟩,
    fun value served taken cmd mode awake => ?resume⟩
  case disable =>
    have drained : ((s.drainQueues n).ctx n).mode ≠ .preempting := by rw [(drainQueues_mode s n n).1, mode]; exact CtxMode.noConfusion
    refine ⟨_, execDisableStageEnd_stage7 runs acts stage, ?_⟩
    rw [State.endSeq_disabling drained]
    split
    · exact resetCtx_facts _ n n.isLt
    · exact ⟨State.disabledCtx_mode _ n, State.disabledCtx_held _ n⟩
  case preempt =>
    refine ⟨_, execDisableStageEnd_stage7 runs acts stage, ?_⟩
    rw [State.endSeq_preempting ((drainQueues_mode s n n).1.trans mode), State.onCtx_ctx]
  case resume =>
    obtain ⟨ctx, -, -, rest⟩ := commanded_of_onCtx s n (·.withFields value.toNat) Ctx.resumed
    exact ⟨_, execResume_taken served taken cmd mode awake, by rw [ctx]; rfl, congrArg XchSt.held (rest .xch rfl)⟩

end Sys2Proof.Machine
end

section
/-! SUPPORT. The error log (R402, R405): a record stands at the index of its sequence number. -/
namespace Sys2Proof.Machine

/-- Settles O49: `logRec` pushes the record, and its interrupt follows its ACTION and EVENT. -/
theorem recordsRaise : Obligations.RecordsRaise := by
  intro s r
  have log := logRec_log s r
  refine ⟨?_, ?_, logRec_seq s r, fun raises => ?_, fun quiet => ?_, (s.logRec_ev r).frame⟩
  · rw [log]
    exact aget_aput_same ..
  · rw [log]
    rfl
  · rw [logRec_svc, if_pos ((recRaises_iff r).2 raises)]
    exact raise_bit s 0
  · rw [logRec_svc, if_neg (mt (recRaises_iff r).1 quiet)]

end Sys2Proof.Machine
end

section
/-! SUPPORT. Test access (R435, R468, R469): restricted rows act with TEST_EN 1 and RESET_N low, and do nothing else. -/
namespace Sys2Proof.Machine

theorem testOpen_iff (s : State) : testOpen s = true ↔ s.port.testEn = true ∧ s.start.resetLow = true := by simp [testOpen]

theorem testOpen_closed {s : State} (closed : s.port.testEn = false ∨ s.start.resetLow = false) : ¬ testOpen s = true := by
  rw [testOpen_iff]
  obtain off | high := closed
  · simp [off]
  · simp [high]

/-- STATUS shifts out BLK_STATE in its lowest 64 bits (R468). -/
theorem bitsOf_status (a b c : Nat) : bitsOf (a + b <<< 64 + c <<< 128) 63 0 = a % 2 ^ 64 := by
  rw [bitsOf_low, Nat.shiftLeft_eq, Nat.shiftLeft_eq, show c * 2 ^ 128 = 2 ^ 64 * (c * 2 ^ 64) by omega, Nat.mul_comm b]
  omega

/-- A phase of ABIST passes when no read of it is wrong (R468). -/
theorem diagWrong_all (l : List DiagRead) (ph : Nat) :
    (diagWrong l).all (fun x => x.phase.val != ph) = l.all (fun x => x.phase.val != ph || x.value == diagExpect x) := by
  rw [diagWrong, List.all_filter]
  congr 1
  funext x
  by_cases right : x.value = diagExpect x <;> simp [right]

/-- Settles O60: each row's equation, by whether the restricted rows are open. -/
theorem testAccess : Obligations.TestAccess := by
  intro s
  have port (f : Port → Port) : s.onlyIn [.port] (s.onPort f) := (s.onPort_ev f).frame
  refine ⟨⟨_, rfl, rfl, rfl, port _⟩, ⟨_, rfl, bitsOf_status .., rfl, port _⟩, ⟨_, rfl, rfl, port _⟩, fun row mem => ⟨fun en low => ?wrapper,
    fun closed => ?wrapperClosed⟩, fun a l m ok bits en low => ?instruments, fun a l m ok bits closed => ?closed,
    ⟨_, rfl, rfl, rfl, fun i running => ?fall, port _⟩⟩
  case wrapper =>
    have opened := (testOpen_iff s).2 ⟨en, low⟩
    simp only [List.mem_cons, List.not_mem_nil, or_false] at mem
    obtain rfl | rfl | rfl := mem
    all_goals exact ⟨_, next_congr (if_pos opened), rfl, port _⟩
  case wrapperClosed =>
    have shut := testOpen_closed closed
    simp only [List.mem_cons, List.not_mem_nil, or_false] at mem
    obtain rfl | rfl | rfl := mem
    all_goals exact next_congr (if_neg shut)
  case instruments =>
    have opened := (testOpen_iff s).2 ⟨en, low⟩
    refine ⟨⟨_, next_congr (if_pos opened), port _, ?_⟩, ⟨_, next_congr (if_pos opened), rfl, port _⟩,
      ⟨_, next_congr (if_pos opened), ?_, fun i => ?_⟩⟩
    · simp only [diagWrong_all]
      rfl
    · exact (execFusePgm_ev bits s (next_congr (if_pos opened))).frame
    · show bitOf (s.blk.fuse ||| bits % 2 ^ 4096) i = _
      simp only [Obligations_bitOf, Nat.testBit_or, Nat.testBit_mod_two_pow]
  case closed =>
    have shut := testOpen_closed closed
    exact ⟨next_congr (if_neg shut), next_congr (if_neg shut), next_congr (if_neg shut)⟩
  case fall =>
    obtain ⟨j, was, kept⟩ := Option.bind_eq_some_iff.1 running
    split at kept
    next small =>
      cases kept
      exact ⟨small, was⟩
    next => cases kept

end Sys2Proof.Machine
end

section
/-! SUPPORT. The host port (R305, R454, R455, R457): accesses of the host, and the answers to the block's own requests. -/
namespace Sys2Proof.Machine

/-- A request that breaks the port's framing (R454, R455). -/
def hostUnframed (addr beats tag : Nat) (write : Bool) (data : List Byte) (strb : List Bool) : Prop :=
  beats = 0 ∨ 32 < beats ∨ 2 ^ 48 ≤ addr ∨ 1024 ≤ tag ∨ 2048 < addr % 2048 + 64 * beats
    ∨ (write = true ∧ (data.length ≠ 64 * beats ∨ strb.length ≠ 64 * beats))

theorem execHostAccessRequest_unframed {addr beats tag : Nat} {write : Bool} {data : List Byte} {strb : List Bool}
    (bad : hostUnframed addr beats tag write data strb) (upset : Option CacheUpset) (s : State) :
    execHostAccessRequest addr write beats tag data strb upset s = .next (s.hostUnspecified tag (64 * beats)) := if_pos bad

section
variable {addr beats tag : Nat} {data : List Byte} {strb : List Bool} {s : State}

theorem execHostAccessRequest_away {write : Bool} (framed : ¬ hostUnframed addr beats tag write data strb) (away : hostAway s = true) :
    execHostAccessRequest addr write beats tag data strb none s = .next (s.hostRsp tag 2 []) :=
  (if_neg framed).trans (next_congr (if_pos away))

theorem execHostAccessRequest_outside {write : Bool} (framed : ¬ hostUnframed addr beats tag write data strb)
    (here : hostAway s = false) (outside : hostRange s addr (64 * beats) write = false) :
    execHostAccessRequest addr write beats tag data strb none s = .next (s.hostRsp tag 1 []) :=
  (if_neg framed).trans (next_congr ((if_neg (by simp [here])).trans (if_pos (by simp [outside]))))

theorem execHostAccessRequest_write (framed : ¬ hostUnframed addr beats tag true data strb)
    (here : hostAway s = false) (inside : hostRange s addr (64 * beats) true = true) :
    execHostAccessRequest addr true beats tag data strb none s = .next ((s.hostWrite addr data strb).hostRsp tag 0 []) :=
  (if_neg framed).trans (next_congr ((if_neg (by simp [here])).trans ((if_neg (by simp [inside])).trans rfl)))

theorem execHostAccessRequest_read (framed : ¬ hostUnframed addr beats tag false data strb) (here : hostAway s = false)
    (inside : hostRange s addr (64 * beats) false = true) (readable : readFault s addr (64 * beats) = none) :
    execHostAccessRequest addr false beats tag data strb none s = .next (s.hostRsp tag 0 (s.readBytes addr (64 * beats))) := by
  refine (if_neg framed).trans (next_congr ((if_neg (by simp [here])).trans ((if_neg (by simp [inside])).trans ?_)))
  simp only [Bool.false_eq_true, if_false, readable]
  rfl

end

/-! Answers (R305, R457). -/

theorem execHostOutboundResponse_none {s : State} {src : OutSrc} (none_out : s.port.hout.find? (OutReq.of src) = none) (st : Fin 4)
    (data : List Byte) : execHostOutboundResponse src st data s = .next s := by
  simp only [execHostOutboundResponse, none_out]

/-- A request leaves the port, and the bytes that its answer lacks are free (R457, R3). -/
def State.answered (s : State) (r : OutReq) (data : List Byte) : State × List Byte :=
  (s.popHout r).freeBytes (if r.write then 0 else r.len - data.length)

theorem execHostOutboundResponse_signal {s : State} {src : OutSrc} {r : OutReq} {k : Key} {c : Cmd} {a : Nat}
    (out : s.port.hout.find? (OutReq.of src) = some r) (key : r.key = some k) (write : r.write = true) (flight : s.cmd? k = some c)
    (body : c.body = .signal a) (st : Fin 4) (data : List Byte) :
    execHostOutboundResponse src st data s = .next ((s.popHout r).signalAnswer k r (decide (st = 0))) := by
  have taken : ((s.popHout r).freeBytes 0).1.cmd? k = some c := flight
  simp only [execHostOutboundResponse, out, key, write, if_true, taken, body]
  rfl

theorem execHostOutboundResponse_service {s : State} {src : OutSrc} {r : OutReq}
    (out : s.port.hout.find? (OutReq.of src) = some r) (key : r.key = none) (st : Fin 4) (data : List Byte) :
    execHostOutboundResponse src st data s = .next ((s.answered r data).1.serviceAnswer r (decide (st = 0))
      (data.take r.len ++ (s.answered r data).2)) := by
  simp only [execHostOutboundResponse, out, key]
  rfl

theorem State.answered_ev (s : State) (r : OutReq) (data : List Byte) : Ev [.free, .port] s (s.answered r data).1 :=
  Ev.then (State.freeBytes_ev ..) ((s.popHout_ev r).mono rfl) rfl

/-- An answer with all its bytes leaves nothing free. -/
theorem State.answered_full (s : State) {r : OutReq} {data : List Byte} (full : data.length = r.len) :
    s.answered r data = (s.popHout r, []) := by
  have lacks : (if r.write then 0 else r.len - data.length) = 0 := by split <;> omega
  rw [State.answered, lacks]
  rfl

/-- Settles O48: a request's framing and range decide its answer, and the oldest request of its sender takes the integrator's. -/
theorem hostPort : Obligations.HostPort := by
  refine ⟨fun addr beats tag data strb s => ⟨fun some_ few addrOk tagOk fits => ?framed, fun wr up bad => ?unframed⟩,
    fun s r => ⟨fun q pos c a st out key write flight body => ?signal, fun data out key read => ?service,
      fun src st data none_out => execHostOutboundResponse_none none_out st data⟩⟩
  case framed =>
    have reads : ¬ hostUnframed addr beats tag false [] [] := by
      rintro (h | h | h | h | h | ⟨⟨⟩, -⟩)
      all_goals omega
    refine ⟨fun here inside readable => execHostAccessRequest_read reads here inside readable, fun here inside len strobes => ?write,
      fun here outside => execHostAccessRequest_outside reads here outside, fun away => execHostAccessRequest_away reads away⟩
    have writes : ¬ hostUnframed addr beats tag true data strb := by
      rintro (h | h | h | h | h | ⟨-, h | h⟩)
      all_goals omega
    obtain ⟨written, kept⟩ := hostWrite_in s addr data strb _ len strobes
    refine ⟨_, execHostAccessRequest_write writes here inside, rfl, rfl, written, kept, ?_⟩
    exact (Ev.then (l := [.mem, .port]) (State.hostRsp_ev ..) ((s.hostWrite_ev addr data strb).mono rfl) rfl).frame
  case unframed =>
    exact ⟨_, execHostAccessRequest_unframed bad up s, rfl, rfl, (s.hostUnspecified_ev tag _).frame⟩
  case signal =>
    have run := execHostOutboundResponse_signal out key write flight body st []
    have found := cmd?_onCmd (s.popHout r) (q.val, pos) (fun c => { c with
      ended := true, conds := c.conds ++ if decide (st = 0) then [] else [⟨.memoryUnrecoverable, r.addr⟩] }) c (fun _ => rfl) flight
    refine ⟨_, _, run, rfl, found, rfl, by simp only [decide_eq_true_eq], ?_⟩
    exact (Ev.then (l := [.cp, .port]) (State.signalAnswer_ev ..) ((s.popHout_ev r).mono rfl) rfl).frame
  case service =>
    have run := fun st data => execHostOutboundResponse_service out key st data
    have image (u : State) (bytes : List Byte) : u.serviceAnswer r (decide ((0 : Fin 4) = 0)) bytes
        = u.onSvc (fun x => { x with image := some (leNat bytes) }) := by simp [State.serviceAnswer, read]
    refine ⟨fun full => ?full, fun short => ?short, ?fails⟩
    case full =>
      refine ⟨_, run 0 data, ?_, ?_, ?_⟩
      all_goals rw [image, s.answered_full full]
      · show some (leNat (data.take r.len ++ [])) = _
        rw [List.append_nil, List.take_of_length_le (Nat.le_of_eq full)]
      · rfl
      · exact (Ev.then (l := [.svc, .port]) (State.onSvc_ev ..) ((s.popHout_ev r).mono rfl) rfl).frame
    case short =>
      refine ⟨_, run 0 data, ?_, ?_, ?_⟩
      all_goals rw [image]
      · rfl
      · rfl
      · exact (Ev.then (l := [.free, .svc, .port]) (State.onSvc_ev ..) ((s.answered_ev r data).mono rfl) rfl).frame
    case fails =>
      refine ⟨_, run 1 data, rfl, rfl, raise_bit _ 2, ?_⟩
      exact (Ev.then (l := [.free, .svc, .port]) (State.svcDone_ev ..) ((s.answered_ev r data).mono rfl) rfl).frame

end Sys2Proof.Machine
end

section
/-! SUPPORT. CTRL frames (R363-R366, R373): what a discarded one leaves, and what ACK, SYNC and a SYNC request do to their hop. -/
namespace Sys2Proof.Machine

section
variable {s : State} {raw : List Byte} {sub : Nat} (taken : frameTaken s raw = true) (ctrl : hType (hdrOf raw) = 3)
  (subtype : hSub (hdrOf raw) = sub) (hop : hHop (hdrOf raw) ≤ 8)
include taken ctrl subtype hop

theorem withCtrl_passed (passed : rejectClause s (hdrOf raw) = none) (f : State → Nat → Nat → State) :
    withCtrl s raw sub f = f s (hHop (hdrOf raw)) (leNat ((raw.drop 64).take 8)) := by
  rw [withCtrl, State.atStream_of_taken taken, if_neg (by simp [taken, ctrl, subtype]), if_neg (Nat.not_lt.2 hop)]
  simp only [passed]

theorem withCtrl_rejected {x : Nat} (rejected : rejectClause s (hdrOf raw) = some x) (f : State → Nat → Nat → State) :
    withCtrl s raw sub f = if sub = 2 then (s.logReject (hdrOf raw) x).sendAck (hHop (hdrOf raw))
      (leNat ((raw.drop 64).take 8) / 2 ^ 32 + 2 ^ 32 - 1) false else s.logReject (hdrOf raw) x := by
  rw [withCtrl, State.atStream_of_taken taken, if_neg (by simp [taken, ctrl, subtype]), if_neg (Nat.not_lt.2 hop)]
  simp only [rejected]

end

/-- Counting acknowledged frames for their commands leaves the exchange engine as it is (R373). -/
theorem countAcked_ev (l : List Sent) (s : State) : Ev [.cp] s (l.foldl (fun s f => match f.cmd with
    | none => s
    | some k => s.onCmd k (fun c =>
        let c := { c with acked := c.acked + 1 }
        if pOp c.pkt = 0x20 && !f.isEnd then c.onFrm (fun x => { x with accepted := x.accepted + 1 }) else c)) s) := by
  refine Ev.foldl _ (fun u f e => ?_) l s (Ev.refl s)
  split
  · exact e
  · exact Ev.then (State.onCmd_ev ..) e rfl

/-- An ACK frees the frames up to its FSEQ and no SYNC (R364). -/
theorem State.ackUpTo_xch (s : State) (h n : Nat) : (s.ackUpTo h n).xch = (s.onTx h (fun t => { t with
    buf := t.buf.filter (fun f => !(!f.sync && decide ((n + 2 ^ 32 - f.fseq) % 2 ^ 32 < 2 ^ 31))) })).xch :=
  (countAcked_ev _ _).frame .xch rfl

theorem State.ackUpTo_buf (s : State) {h : Nat} (hop : h ≤ 8) (n : Nat) : ((s.ackUpTo h n).txHop h).buf
    = (s.txHop h).buf.filter (fun f => f.sync || decide (2 ^ 31 ≤ (n + 2 ^ 32 - f.fseq) % 2 ^ 32)) := by
  rw [State.txHop, State.ackUpTo_xch]
  refine (congrArg TxHop.buf (onTx_same s h _ (by omega))).trans (List.filter_congr fun f _ => ?_)
  simp only [Bool.not_and, Bool.not_not, ← decide_not, Nat.not_lt]

/-- A SYNC with BASE is put before the frames that it holds back (R365). -/
theorem State.sendSync_hop (s : State) {h : Nat} (hop : h ≤ 8) (base : Nat) :
    ((s.sendSync h base).txHop h).syncOut = true ∧ ((s.sendSync h base).txHop h).synced = (s.txHop h).synced
      ∧ ((s.sendSync h base).txHop h).buf.filter (fun f => !f.sync) = (s.txHop h).buf.filter (fun f => !f.sync) := by
  unfold State.sendSync
  extract_lets hdr img
  rw [onTx_same _ _ _ (by omega)]
  refine ⟨rfl, rfl, ?_⟩
  simp only [List.filter_cons, Bool.not_true, Bool.false_eq_true, if_false, List.filter_filter, Bool.and_self]
  rfl

/-- Settles O46: no clause of R366 lets the frame's own action run; a clause leaves its record, and a SYNC's acknowledgement. -/
theorem frameControl : Obligations.FrameControl := by
  intro raw s h w taken ctrl hh hop hw
  subst hh hw
  refine ⟨fun passed => ⟨fun sub small inStep => ?ack, fun sub request => ?request, fun sub epoch => ?sync⟩,
    fun x u rejected hu => ⟨fun sub => ?rejected, fun sub => ?rejectedSync⟩⟩
  case ack =>
    have run : exec (.ack raw) s = .next (s.ackUpTo (hHop (hdrOf raw)) (leNat ((raw.drop 64).take 8))).sendAll := by
      refine next_congr ((withCtrl_passed taken ctrl sub hop passed _).trans ?_)
      simp only [Nat.div_eq_of_lt small, Nat.mod_eq_of_lt small, ne_eq, not_true, if_false, inStep, Bool.false_eq_true]
    refine ⟨_, run, s.ackUpTo_buf hop _, ?_, (s.ackUpTo_ev _ _).frame⟩
    rw [s.ackUpTo_xch]
    rfl
  case request =>
    have run := fun f => withCtrl_passed taken ctrl sub hop passed f
    generalize hHop (hdrOf raw) = h at *
    refine ⟨_, next_congr ((run _).trans (if_neg (by simp [request]))), ?_⟩
    extract_lets t base
    obtain ⟨out, synced, kept⟩ := State.sendSync_hop (s.onTx h (fun t => { t with synced := false })) hop base
    rw [onTx_same _ _ _ (by omega)] at synced kept
    exact ⟨out, synced, emit_out .., (Ev.then (l := [.xch]) (State.sendSync_ev ..) (s.onTx_ev ..) rfl).frame, kept⟩
  case sync =>
    have run := fun f => withCtrl_passed taken ctrl sub hop passed f
    generalize hHop (hdrOf raw) = h at *
    have begun := onRx_same s h (fun r => { r with
      epoch := some (leNat ((raw.drop 64).take 8) % 2 ^ 32), base := leNat ((raw.drop 64).take 8) / 2 ^ 32, accepted := [], unacked := 0 })
      (by omega)
    refine ⟨_, next_congr (run _), ?_⟩
    simp only [if_neg epoch]
    exact ⟨congrArg RxHop.epoch begun, congrArg RxHop.base begun, congrArg RxHop.accepted begun, emit_out ..,
      (Ev.then (l := [.xch]) (State.sendAck_ev ..) (s.onRx_ev ..) rfl).frame⟩
  case rejected =>
    subst hu
    exact ⟨next_congr (withCtrl_rejected taken ctrl sub hop rejected _), next_congr (withCtrl_rejected taken ctrl sub hop rejected _)⟩
  case rejectedSync =>
    subst hu
    exact next_congr (withCtrl_rejected taken ctrl sub hop rejected _)

end Sys2Proof.Machine
end

section
/-! SUPPORT. The timers of the hops (R360, R364, R365, R377). -/
namespace Sys2Proof.Machine

theorem State.ackHop_rx (s : State) {h : Nat} (hop : h < 9) : (s.ackHop h).rxHop h = { s.rxHop h with unacked := 0 } :=
  onRx_same (s.sendAck h ((s.rxHop h).base + 2 ^ 32 - 1) false) h _ hop

theorem execAckSend_runs {h : HIx} {s : State} (runs : xchRuns s = true) :
    execAckSend h s = .next (if (s.rxHop h).unacked = 0 then s.onRx h (fun r => { r with asked := false })
      else (s.onRx h (fun r => { r with asked := false })).ackHop h) := by
  have hop := onRx_same s h (fun r => { r with asked := false }) h.isLt
  simp only [execAckSend, runs, Bool.not_true, Bool.false_eq_true, if_false, hop]

section
variable {h : HIx} {s : State} {n : Nat} {f : Sent} (runs : xchRuns s = true) (quiet : (s.txHop h).syncOut = false)
  (synced : (s.txHop h).synced = true) (found : (s.txHop h).buf.find? (fun f => !f.sync && f.fseq == n) = some f)
include runs quiet synced found

theorem execFrameResendTimeout_again (few : f.resends < 4) : execFrameResendTimeout h n s = .next ((s.onTx h (fun t => { t with
    buf := t.buf.map (fun x => if x == f then { x with resends := x.resends + 1 } else x) })).emit f.image) := by
  simp only [execFrameResendTimeout, quiet, synced, found, runs, few, Bool.false_eq_true, if_false, if_true, Bool.not_true]

theorem execFrameResendTimeout_dropped (many : 4 ≤ f.resends) :
    execFrameResendTimeout h n s = .next (s.dropFrame h f).sendAll := by
  have data : f.sync = false := by
    have picked := List.find?_some found
    simp only [Bool.and_eq_true, Bool.not_eq_true'] at picked
    exact picked.1
  simp only [execFrameResendTimeout, quiet, synced, found, runs, data, Nat.not_lt.2 many, Bool.false_eq_true, if_false, if_true,
    Bool.not_true]

end

/-- A frame dropped leaves its hop, with a record and the interrupt; at most its command's status follows (R364, R373). -/
theorem State.dropFrame_after (s : State) (h : Nat) (f : Sent) :
    Ev [.cp] ((s.onTx h (fun t => { t with buf := t.buf.filter (· != f) })).logDrop h f.fseq) (s.dropFrame h f) := by
  unfold State.dropFrame
  split
  · split
    · exact State.onCmd_ev ..
    · exact Ev.refl _
  · exact Ev.refl _

/-- FRAME_TIMEOUT names no cached line, so nothing is met before the receiver ends (R377). -/
theorem State.meetAll_frameTimeout (s : State) (info : Nat) : s.meetAll [⟨.frameTimeout, info⟩] = s := rfl

theorem State.endFrm_timeout {s : State} {k : Key} {c : Cmd} (flight : s.cmd? k = some c) (receiver : pOp c.pkt ≠ 0x23) (info : Nat) :
    s.endFrm k [⟨.frameTimeout, info⟩]
      = s.onCmd k (fun c => { c with ended := true, conds := c.conds ++ [⟨.frameTimeout, info⟩] }) := by
  have found := cmd?_onCmd s k (fun c => { c with ended := true, conds := c.conds ++ [⟨.frameTimeout, info⟩] }) c (fun _ => rfl) flight
  rw [State.endFrm, s.meetAll_frameTimeout]
  simp only [found, if_neg receiver]

/-- Settles O47: each timer's equation, by what its hop or its command waits for. -/
theorem hopTimers : Obligations.HopTimers := by
  intro h s runs
  refine ⟨?ack, fun n f quiet synced found => ⟨fun few => ?again, fun many => ?dropped⟩,
    fun q pos c f flight body ended op timeout mode => ?receiver, fun i up => ?peer⟩
  case ack =>
    have hop := onRx_same s h (fun r => { r with asked := false }) h.isLt
    by_cases none_due : (s.rxHop h).unacked = 0
    · refine ⟨_, (execAckSend_runs runs).trans (next_congr (if_pos none_due)), ?_, ?_, ?_, (if_pos none_due).symm ▸ rfl, (s.onRx_ev ..).frame⟩
      all_goals rw [hop]
      exact none_due
    · have acked := State.ackHop_rx (s.onRx h (fun r => { r with asked := false })) h.isLt
      rw [hop] at acked
      refine ⟨_, (execAckSend_runs runs).trans (next_congr (if_neg none_due)), by rw [acked], by rw [acked], by rw [acked], ?_,
        (Ev.then (l := [.xch]) (State.ackHop_ev ..) (s.onRx_ev ..) rfl).frame⟩
      rw [if_neg none_due]
      exact emit_out ..
  case again =>
    refine ⟨_, execFrameResendTimeout_again runs quiet synced found few, emit_out .., ?_,
      (Ev.then (l := [.xch]) (State.emit_ev ..) (s.onTx_ev ..) rfl).frame⟩
    rw [emit_tx, onTx_same _ _ _ h.isLt]
    simp only [beq_iff_eq]
  case dropped =>
    refine ⟨_, execFrameResendTimeout_dropped runs quiet synced found many, ?_, ?_, ?_⟩
    all_goals
      have after := s.dropFrame_after h f
      generalize start : s.onTx h (fun t => { t with buf := t.buf.filter (· != f) }) = u at after
    · rw [after.frame .svc rfl]
      exact raise_bit _ 3
    · have logged := (u.logDrop_ev h f.fseq).frame .xch rfl
      rw [State.txHop, after.frame .xch rfl, logged, ← start]
      exact congrArg TxHop.buf (onTx_same s h _ h.isLt)
    · rw [after.frame .log rfl, logDrop_seq, ← start]
      rfl
  case receiver =>
    have kind : pOp c.pkt ≠ 0x20 ∧ pOp c.pkt ≠ 0x23 := by omega
    have frm : c.frm? = some f := by rw [Cmd.frm?, body]
    have units : unitsRun s = true := (Bool.and_eq_true_iff.1 runs).1
    refine Eq.trans ?_ (next_congr (State.endFrm_timeout flight kind.2 (f.accepted + putBits f.expected 32 32)))
    show execReceiverTimeout q pos s = _
    simp [execReceiverTimeout, flight, frm, ended, kind.1, timeout, mode, units]
  case peer =>
    exact ⟨_, rfl, vget_vmod_same _ _ _ i.isLt, fun j other => vget_vmod_other _ _ _ _ other, (s.onXch_ev _).frame⟩

end Sys2Proof.Machine
end

section
/-! SUPPORT. Responses of the far tier (R348-R350, R355, R406, R463): one equation per kind of response. -/
namespace Sys2Proof.Machine

section
variable {q : QIx} {pos g : Nat} {s : State} {c : Cmd} {e : Eng} (flight : s.cmd? (q.val, pos) = some c) (body : c.body = .engine e)
  (going : c.ended = false)
include flight body going

theorem execCxlResponse_cmp (op : pOp c.pkt = 0x28) : execCxlResponse q pos g .cmp s = .next (s.spillCmp (q.val, pos) c e g) := by
  simp only [execCxlResponse, flight, going, body, op, Bool.false_eq_true, if_false, if_true]

theorem execCxlResponse_memData (op : pOp c.pkt = 0x29) (poison : Bool) : execCxlResponse q pos g (.memData poison) s
    = .next (s.reloadData (q.val, pos) c e g ((aget e.cmps g).getD 0) poison) := by
  simp only [execCxlResponse, flight, going, body, op, Bool.false_eq_true, if_false, if_true]

theorem execFarWriteComplete_spill {x : SpillExt} (cur : e.cur = some x) (units : unitsRun s = true) (all_in : aget e.cmps g = some 32)
    (op : pOp c.pkt = 0x28) : execFarWriteComplete q pos g s = .next (s.spillDone (q.val, pos) c e x g) := by
  have eng : c.eng? = some e := by rw [Cmd.eng?, body]
  simp [execFarWriteComplete, flight, eng, cur, going, units, all_in, op]

end

/-- A context that is ACTIVE has its granules answered while its command has not halted (R308). -/
theorem farSends_of_active {s : State} {k : Key} {e : Eng} (units : unitsRun s = true) (mode : (s.ctx (ctxOf k.1)).mode = .active)
    (going : e.halted = false) (g : Nat) : farSends s k e g = true := by
  simp [farSends, units, granulesRun, mode, going]

section
variable {s : State} {k : Key} {c : Cmd} {e : Eng} {g : Nat}

theorem State.spillCmp_counted {x : SpillExt} (cur : e.cur = some x) (ext : extentIdx (farGranule c.pkt g) = x.idx)
    (open_ : e.isDone g = false) (sends : farSends s k e g = true) (few : (aget e.cmps g).getD 0 < 32) :
    s.spillCmp k c e g = (s.onEng k (fun y => { y with cmps := aput y.cmps g ((aget e.cmps g).getD 0 + 1) })).addWear
      (serialAt s x.port) 1 := by
  unfold State.spillCmp
  simp only [cur]
  rw [if_neg (by simp [ext, open_, sends, few])]

/-- A granule of a whole extent with others left is on the module and done, and nothing else follows (R348, R349). -/
theorem State.spillDone_more {x : SpillExt} (readable : accessFault s (gSrc c.pkt + 2048 * g) 2048 = none) (whole : x.whole = true)
    (more : ∃ j < e.granules, extentIdx (farGranule c.pkt j) = x.idx ∧ j ≠ g ∧ e.isDone j = false) :
    s.spillDone k c e x g = ((s.onEng k (fun e => { e with cmps := adel e.cmps g })).farWrite x.port x.place
      ((farGranule c.pkt g - farBase) % 0x100000) (s.readBytes (gSrc c.pkt + 2048 * g) 2048)).granuleDone k g := by
  obtain ⟨j, inside, ext, other, open_⟩ := more
  have left : (((rangeFrom 0 e.granules).filter (fun j => extentIdx (farGranule c.pkt j) == x.idx)).all
      (fun j => j == g || e.isDone j)) = false := by
    refine List.all_eq_false.2 ⟨j, List.mem_filter.2 ⟨(mem_range ..).2 (by omega), by simp [ext]⟩, by simp [other, open_]⟩
  unfold State.spillDone
  simp only [accessFault_onEng, readable, left, whole, Bool.not_true, Bool.false_and, Bool.false_eq_true, if_false]
  rfl

theorem State.reloadData_counted (next : e.nextGranule = some g) (sends : farSends s k e g = true)
    (kept : farLost s (farGranule c.pkt g) 2048 = none) {n : Nat} (few : n < 31) :
    s.reloadData k c e g n false = s.onEng k (fun e => { e with cmps := aput e.cmps g (n + 1) }) := by
  simp [State.reloadData, next, sends, kept, few]

theorem State.reloadData_poisoned (next : e.nextGranule = some g) (sends : farSends s k e g = true)
    (kept : farLost s (farGranule c.pkt g) 2048 = none) (n : Nat) : s.reloadData k c e g n true
      = (s.onEng k (fun e => { e with cmps := [] })).engReadFails k ⟨.memoryUnrecoverable, farGranule c.pkt g + 64 * n⟩ := by
  simp [State.reloadData, next, sends, kept]

theorem State.reloadData_lost (next : e.nextGranule = some g) (sends : farSends s k e g = true) {x : Cond}
    (lost : farLost s (farGranule c.pkt g) 2048 = some x) (n : Nat) (poison : Bool) :
    s.reloadData k c e g n poison = (s.onEng k (fun e => { e with cmps := [] })).engHalt k x := by
  simp [State.reloadData, next, sends, lost]

end

/-- Settles O43: each response's equation; what is findable of the command afterwards is said by the lemmas of `engHalt`,
`engReadFails` and `granuleDone`. -/
theorem farResponses : Obligations.FarResponses := by
  intro q pos g s c e flight body going units mode running
  have sends := farSends_of_active (k := (q.val, pos)) units mode running g
  have eng : c.eng? = some e := by rw [Cmd.eng?, body]
  refine ⟨fun x op cur ext open_ => ⟨fun few => ?cmp, fun all_in readable more whole => ?done⟩,
    fun op next => ⟨fun kept => ⟨fun few => ?counted, fun valid sound => ?poisoned⟩, fun x b lost => ?lost⟩⟩
  case cmp =>
    exact (execCxlResponse_cmp flight body going op).trans (next_congr (State.spillCmp_counted cur ext open_ sends few))
  case done =>
    have run := (execFarWriteComplete_spill flight body going cur units all_in op).trans
      (next_congr (State.spillDone_more readable whole more))
    have counted := onEng_find (fun e => { e with cmps := adel e.cmps g }) flight eng
    have written : Ev [.cp, .far] s ((s.onEng (q.val, pos) (fun e => { e with cmps := adel e.cmps g })).farWrite x.port x.place
        ((farGranule c.pkt g - farBase) % 0x100000) (s.readBytes (gSrc c.pkt + 2048 * g) 2048)) :=
      Ev.then (State.farWrite_ev ..) ((s.onEng_ev ..).mono rfl) rfl
    obtain ⟨d, found, left, -⟩ := done_find (s := (s.onEng (q.val, pos) (fun e => { e with cmps := adel e.cmps g })).farWrite x.port
      x.place ((farGranule c.pkt g - farBase) % 0x100000) (s.readBytes (gSrc c.pkt + 2048 * g) 2048)) g counted rfl
    exact ⟨_, d, run, found, left, (State.granuleDone_ev ..).frame .far rfl, (Ev.then (State.granuleDone_ev ..) written rfl).frame⟩
  case counted =>
    exact (execCxlResponse_memData flight body going op false).trans (next_congr (State.reloadData_counted next sends kept few))
  case poisoned =>
    obtain ⟨d, found, ended, conds, logged⟩ := poison_find flight eng valid sound
    rw [going, Bool.false_or] at ended
    exact ⟨_, d, (execCxlResponse_memData flight body going op true).trans (next_congr (State.reloadData_poisoned next sends kept _)),
      found, ended, conds, logged⟩
  case lost =>
    obtain ⟨d, found, -, conds, ended⟩ := halt_find x (onEng_find (fun e => { e with cmps := [] }) flight eng) rfl
    refine ⟨_, d, (execCxlResponse_memData flight body going op b).trans (next_congr (State.reloadData_lost next sends lost _ b)),
      found, ?_, conds, (Ev.then (l := [.cp]) (State.engHalt_ev ..) (s.onEng_ev ..) rfl).frame⟩
    rw [ended]
    simp [going, Eng.quiet]

end Sys2Proof.Machine
end

section
/-! SUPPORT. Modules of the far tier (R344-R346, R350, R352, R355, R356): what the ledger's upkeep leaves of them, and what a lost link
takes away. -/
namespace Sys2Proof.Machine

theorem vget_vmod_any {α : Type} [Inhabited α] {n : Nat} (v : Vector α n) (i j : Nat) (f : α → α) :
    vget (vmod v i f) j = vget v j ∨ (j = i ∧ vget (vmod v i f) j = f (vget v j)) := by
  by_cases h : j = i
  · subst h
    by_cases inside : j < n
    · exact .inr ⟨rfl, vget_vmod_same v j f inside⟩
    · exact .inl (by simp [vmod, inside])
  · exact .inl (vget_vmod_other v i j f h)

theorem moduleOf_port {s : State} {w : Wear} {m : Module} (h : moduleOf s w = some m) : vget s.far.modules w.port = some m := by
  unfold moduleOf at h
  split at h
  · obtain ⟨m', there, same⟩ := Option.bind_eq_some_iff.1 h
    split at same
    · rwa [Option.some.inj same] at there
    · cases same
  · cases h

section
variable {α : Type} {F : Module → α} (hF : ∀ (m : Module) (a b : Nat), F { m with recWritten := a, recRatedTib := b } = F m)
include hF

/-- The upkeep of the ledger changes no more of a module than its own wear record (R350). -/
theorem mirrorWear_modules (s : State) (serial p : Nat) :
    (vget (s.mirrorWear serial).far.modules p).map F = (vget s.far.modules p).map F := by
  rw [← mirrorLedger_far s]
  unfold State.mirrorWear
  extract_lets u
  split
  · rfl
  next w entry =>
    split
    · rfl
    next m present =>
      split
      · rfl
      obtain same | ⟨rfl, put⟩ := vget_vmod_any u.far.modules w.port p
        (fun _ => some { m with recWritten := w.written, recRatedTib := w.ratedTib })
      · exact congrArg (Option.map F) same
      · refine (congrArg (Option.map F) put).trans ?_
        rw [moduleOf_port present]
        exact congrArg some (hF m _ _)

theorem wearCheck_modules (s : State) (serial p : Nat) :
    (vget (s.wearCheck serial).far.modules p).map F = (vget s.far.modules p).map F := by
  unfold State.wearCheck
  split
  · rfl
  next w entry =>
    extract_lets warn worn marked
    split
    · rfl
    · rw [logRec_far]
      exact mirrorWear_modules hF (s.onWear serial _) serial p

theorem takeEntry_modules (s : State) (port : Nat) (m : Module) (p : Nat) :
    (vget (s.takeEntry port m).far.modules p).map F = (vget s.far.modules p).map F :=
  (wearCheck_modules hF _ _ p).trans (mirrorWear_modules hF _ _ p)

end

/-- What a module reports of itself, and the capacity used of it. -/
def Module.reported (m : Module) : Nat × Nat × Nat × Nat × Nat := (m.serial, m.volGib, m.persGib, m.lifeUsed, m.capGib)

/-- A module taken into the ledger stands on its port as it was given. -/
theorem takeEntry_module {s : State} {p : PIx} {m : Module} (held : vget s.far.modules p = some m) :
    ∃ u, vget (s.takeEntry p m).far.modules p = some u ∧ u.reported = m.reported := by
  have kept := takeEntry_modules (F := Module.reported) (fun _ _ _ => rfl) s p m p
  rw [held] at kept
  exact map_some kept

/-- A module put on a port, its answers kept (R344, R350). -/
def State.putModule (s : State) (p : Nat) (m : Module) : State :=
  (s.onFar (fun f => { f with modules := vmod f.modules p (fun _ => some m) })).takeEntry p m

theorem State.putModule_facts (s : State) (p : PIx) (m : Module) :
    ∃ u, vget (s.putModule p m).far.modules p = some u ∧ u.reported = m.reported ∧ (s.putModule p m).far.map = s.far.map
      ∧ s.onlyIn [.svc, .log, .mem, .far, .mirror] (s.putModule p m) := by
  have held : vget (s.onFar (fun f => { f with modules := vmod f.modules p (fun _ => some m) })).far.modules p = some m :=
    vget_vmod_same s.far.modules p _ p.isLt
  obtain ⟨u, there, same⟩ := takeEntry_module held
  exact ⟨u, there, same, (takeEntry_keep _ p m).2.1, (Ev.then (State.takeEntry_ev ..) ((s.onFar_ev _).mono rfl) rfl).frame⟩

/-- A module attached: its ledger entry is PRESENT, and the map is as it was (R344, R356). -/
theorem State.attach_facts (s : State) (p : PIx) (m : ModuleInfo) :
    ∃ u, vget (s.attach p m).far.modules p = some u ∧ u.serial = m.serial ∧ u.capGib = capUsed s p (m.volGib + m.persGib)
      ∧ vget (s.attach p m).far.linkUp p = true
      ∧ (∃ i < 16, (vget (s.attach p m).far.wear i).serial = m.serial ∧ (vget (s.attach p m).far.wear i).state = 1
          ∧ (vget (s.attach p m).far.wear i).port = p.val)
      ∧ (s.attach p m).far.map = s.far.map := by
  unfold State.attach
  extract_lets n
  have held : vget (s.onFar (fun f => { f with
      linkUp := vmod f.linkUp p (fun _ => true), modules := vmod f.modules p (fun _ => some n),
      cells := f.cells.filter (fun c => c.1 / 2 ^ 43 != p) })).far.modules p = some n := vget_vmod_same s.far.modules p _ p.isLt
  obtain ⟨u, there, same⟩ := takeEntry_module held
  obtain ⟨link, map, -, entry⟩ := takeEntry_keep (s.onFar (fun f => { f with
      linkUp := vmod f.linkUp p (fun _ => true), modules := vmod f.modules p (fun _ => some n),
      cells := f.cells.filter (fun c => c.1 / 2 ^ 43 != p) })) p n
  refine ⟨u, there, congrArg Prod.fst same, congrArg (fun x => x.2.2.2.2) same, ?_, entry, map⟩
  rw [link]
  exact vget_vmod_same s.far.linkUp p _ p.isLt

/-- Cells that a test of their places keeps are found as before. -/
theorem aget_filter_of_keep {β : Type} (keep : Nat → Bool) {i : Nat} (h : keep i = true) : ∀ c : List (Nat × β),
    aget (c.filter (fun x => keep x.1)) i = aget c i
  | [] => rfl
  | (k, v) :: r => by
    have ih := aget_filter_of_keep keep h r
    by_cases same : k = i
    · subst same
      simp [h, aget]
    · cases kept : keep k <;> simp [kept, aget, same, ih]

/-- The far tier of which a module is gone, before its entries and commands follow (R355). -/
def State.unlinked (s : State) (p : Nat) (m : Module) : State :=
  s.onFar (fun f => { f with
    clock := f.clock + 1
    linkUp := vmod f.linkUp p (fun _ => false)
    modules := vmod f.modules p (fun _ => none)
    pendingFree := f.pendingFree.filter (fun x => x.1 != p)
    map := f.map.map (fun e => if e.port == p && e.lost.isNone then { e with lost := some m.serial } else e)
    cells := f.cells.filter (fun c => c.1 / 2 ^ 43 != p) })

/-- The ledger entry of the module is ABSENT. -/
def State.absented (s : State) (p : Nat) (m : Module) : State :=
  ((s.unlinked p m).onWear m.serial (fun w => { w with state := 2, absentAt := (s.unlinked p m).far.clock })).mirrorWear m.serial

/-- The rest of a module's loss, its entries in the block region, its record and its commands, is no part of the far tier. -/
theorem State.detach_far (s : State) (p : Nat) (m : Module) : (s.detach p m).far = (s.absented p m).far := by
  have entries (l : List Extent) (u : State) : Ev [.svc, .log, .cp, .mem, .mirror] u (l.foldl (fun s e => s.writeLost e) u) :=
    Ev.foldl _ (fun _ _ e => Ev.then (State.writeLost_ev ..) e rfl) l u (Ev.refl u)
  have cmds (l : List Cmd) (u : State) : Ev [.svc, .log, .cp, .mem, .mirror] u (l.foldl (fun s c => s.abandonFar p m.serial c) u) :=
    Ev.foldl _ (fun _ _ e => Ev.then (State.abandonFar_ev ..) e rfl) l u (Ev.refl u)
  exact ((cmds _ _).frame .far rfl).trans (((State.logRec_ev _ _).frame .far rfl).trans ((entries _ _).frame .far rfl))

theorem State.detach_facts (s : State) (p : PIx) (m : Module) :
    vget (s.detach p m).far.linkUp p = false ∧ vget (s.detach p m).far.modules p = none
      ∧ (s.detach p m).far.map = s.far.map.map (fun e => if e.port = p.val ∧ e.lost = none then { e with lost := some m.serial } else e)
      ∧ ∀ x, x / 2 ^ 43 ≠ p.val → cellGet (s.detach p m).far.cells x = cellGet s.far.cells x := by
  obtain ⟨link, map, cells, modules⟩ := mirrorWear_keep
    ((s.unlinked p m).onWear m.serial (fun w => { w with state := 2, absentAt := (s.unlinked p m).far.clock })) m.serial
  have empty := modules p
  rw [show vget ((s.unlinked p m).onWear m.serial _).far.modules p = none from vget_vmod_same s.far.modules p _ p.isLt] at empty
  rw [s.detach_far p m, State.absented]
  refine ⟨?_, Option.map_eq_none_iff.1 empty, ?_, fun x other => ?_⟩
  · rw [link]
    exact vget_vmod_same s.far.linkUp p _ p.isLt
  · rw [map]
    refine List.map_congr_left fun e _ => ?_
    simp only [Bool.and_eq_true, beq_iff_eq, Option.isNone_iff_eq_none]
  · rw [cells]
    exact aget_filter_of_keep (fun a => a / 2 ^ 43 != p.val) (by simpa using other) _

/-- Settles O44: a module's loss, its arrival and its answers, each by what it leaves of the far tier. -/
theorem modulesComeAndGo : Obligations.ModulesComeAndGo := by
  intro p s
  refine ⟨fun empty => ?noModule, fun m held => ?linkDown, fun m wired empty started sound => ?attach,
    fun m held => ⟨fun l => ?health, fun vol pers => ?identify, fun v same => ?same, fun v other => ?other⟩⟩
  case noModule =>
    show execLinkDown p s = _
    simp only [execLinkDown, empty]
  case linkDown =>
    have run : exec (.linkDown p) s = .next (s.detach p m) := by
      show execLinkDown p s = _
      simp only [execLinkDown, held]
    obtain ⟨link, gone, map, cells⟩ := s.detach_facts p m
    exact ⟨_, run, link, gone, map, cells, (s.detach_ev p m).frame⟩
  case attach =>
    have run : exec (.moduleAttach p m) s = .next (s.attach p m) :=
      next_congr (if_neg (by simp [wired, empty, started, sound]))
    obtain ⟨u, there, serial, cap, link, entry, map⟩ := s.attach_facts p m
    exact ⟨_, u, run, there, serial, cap, link, entry, map, (s.attach_ev p m).frame⟩
  all_goals
    have answers : ∀ r, exec (.cfgResponse p r) s = .next (match r with
        | .serial v => if v % 2 ^ 64 = m.serial then s.putModule p m
            else (s.detach p m).attach p { m.toModuleInfo with serial := v % 2 ^ 64 }
        | .identify vol pers => s.putModule p { m with volGib := vol, persGib := pers, capGib := capUsed s p (vol + pers) }
        | .health l => s.putModule p { m with lifeUsed := min 100 l }) := by
      intro r
      show execCfgResponse p r s = _
      simp only [execCfgResponse, held]
      cases r <;> rfl
  case health =>
    obtain ⟨u, there, kept, map, rest⟩ := s.putModule_facts p { m with lifeUsed := min 100 l }
    exact ⟨_, u, answers (.health l), there, congrArg (fun x => x.2.2.2.1) kept, congrArg Prod.fst kept, map, rest⟩
  case identify =>
    obtain ⟨u, there, kept, map, rest⟩ := s.putModule_facts p { m with volGib := vol, persGib := pers, capGib := capUsed s p (vol + pers) }
    exact ⟨_, u, answers (.identify vol pers), there, congrArg (fun x => x.2.1) kept, congrArg (fun x => x.2.2.1) kept,
      congrArg (fun x => x.2.2.2.2) kept, congrArg Prod.fst kept, map, rest⟩
  case same =>
    obtain ⟨u, there, kept, map, rest⟩ := s.putModule_facts p m
    exact ⟨_, u, (answers (.serial v)).trans (next_congr (if_pos same)), there, congrArg Prod.fst kept, map, rest⟩
  case other =>
    obtain ⟨u, there, serial, -, -, -, map⟩ := (s.detach p m).attach_facts p { m.toModuleInfo with serial := v % 2 ^ 64 }
    obtain ⟨-, -, lost, -⟩ := s.detach_facts p m
    exact ⟨_, u, (answers (.serial v)).trans (next_congr (if_neg other)), there, serial, map.trans lost,
      (Ev.then (State.attach_ev ..) (s.detach_ev p m) rfl).frame⟩

end Sys2Proof.Machine
end

section
/-! SUPPORT. Transitions of the power state (R414, R418, R428, R449): what begins one, and what its end makes hold. -/
namespace Sys2Proof.Machine

theorem quietBlock_of {s : State} (idle : s.cp.cmds = []) (unread : ∀ q < 64, (s.queue q).head = (s.queue q).tail) : quietBlock s = true := by
  simp only [quietBlock, idle, List.isEmpty_nil, Bool.true_and, List.all_eq_true, beq_iff_eq]
  intro x mem
  obtain ⟨q, hq, rfl⟩ := Vector.mem_iff_getElem.1 (Vector.mem_toList_iff.1 mem)
  simpa [State.queue, vget, hq] using unread q hq

theorem execAutoIdleExpiry_quiet {s : State} (h : Served s) (on : s.pwr.autoIdle = true) (active : s.pwr.state = .active)
    (still : s.pwr.going = none) (quiet : quietBlock s = true) : execAutoIdleExpiry s = .next (s.goTo .idle) :=
  next_congr (if_neg (by simp [on, active, still, quiet, show windowOpen s = true from h]))

/-! IDLE (R418, R428). -/

section
variable {s : State} (idle : s.pwr.state = .idle) (high : s.start.resetLow = false)
  (sound : s.blk.mode = .ready ∨ s.blk.mode = .skeleton ∨ s.blk.mode = .quiesced)
include idle

theorem State.wake_idle : s.wake = (s.onPwr (fun p => { p with going := some .active, target := .active })).onKpr (fun k => { k with
    vTarget := max k.vReq (if s.kin.alarm then 120 else sustCode k) }) := if_pos idle

include high sound

theorem sleeps_of_idle : sleeps s = true := by
  obtain mode | mode | mode := sound <;> simp [sleeps, idle, high, mode]

/-- A write of a register outside the keeper set wakes the block and waits until ACTIVE (R428, R459). -/
theorem State.regWrite_waits {off : Nat} (outside : keeperSet off = false) (v : Nat) :
    s.regWrite off v = s.wake.onPwr (fun p => { p with waking := s.pwr.waking ++ [(off, v)] }) := by
  have kept : s.wake.pwr.waking = s.pwr.waking := by rw [State.wake_idle idle]; rfl
  rw [idle_write idle high sound, State.idleWrite, if_neg (by simp [outside]), ← kept]
  rfl

theorem execIdleWake_frame : execIdleWake .frame s = .next s.wake :=
  next_congr (if_neg (by simp [sleeps_of_idle idle high sound]))

theorem execIdleWake_doorbell (q : QIx) (v : Word) : execIdleWake (.doorbell q v) s = .next (s.wake.onPwr (fun p => { p with
    waking := s.pwr.waking ++ [(0x8000 + 0x800 * (q.val / 4) + 8 * (q.val % 4), v.toNat)] })) :=
  next_congr ((if_neg (by simp [sleeps_of_idle idle high sound])).trans
    (State.regWrite_waits idle high sound (keeperSet_dbell q) v.toNat))

theorem execIdleWake_ctxCtrl {n : Nat} (hn : n < 16) (v : Word) : execIdleWake (.registerWrite (0x400 + 8 * n) v) s
    = .next (s.wake.onPwr (fun p => { p with waking := s.pwr.waking ++ [(0x400 + 8 * n, v.toNat)] })) := by
  have aligned : (0x400 + 8 * n) % 0x10000 / 8 * 8 = 0x400 + 8 * n := by omega
  have outside : keeperSet (0x400 + 8 * n) = false := by simp [keeperSet]; omega
  refine next_congr ((if_neg (by simp [sleeps_of_idle idle high sound])).trans ?_)
  show s.regWrite ((0x400 + 8 * n) % 0x10000 / 8 * 8) v.toNat = _
  rw [aligned]
  exact State.regWrite_waits idle high sound outside v.toNat

end

/-! The end of a transition (R428, R448, R449). -/

/-- The new state holds. -/
def State.reached (s : State) (g : PState) : State := s.onPwr (fun p => { p with state := g, going := none })

section
variable {s : State}

theorem execPowerStateReached_idle (going : s.pwr.going = some .idle) : execPowerStateReached s
    = .next (((s.reached .idle).onKpr (fun k => { k with vReq := 110, vTarget := 110 })).driveRequest) := by
  simp only [execPowerStateReached, going]
  rfl

theorem execPowerStateReached_arraysOff (going : s.pwr.going = some .arraysOff) :
    execPowerStateReached s = .next (s.reached .arraysOff).gateArrays := by
  simp only [execPowerStateReached, going]
  rfl

theorem execPowerStateReached_deep (going : s.pwr.going = some .deep) :
    execPowerStateReached s = .next (s.reached .deep).saveTotals.writeBack := by
  simp only [execPowerStateReached, going]
  rfl

theorem execPowerStateReached_active (going : s.pwr.going = some .active) (none_waits : s.pwr.waking = []) :
    execPowerStateReached s = .next (s.reached .active) := by
  simp only [execPowerStateReached, going]
  have waking : (s.onPwr (fun p => { p with state := .active, going := none })).pwr.waking = [] := none_waits
  simp only [waking, List.foldl_nil]
  refine next_congr ?_
  simp only [State.reached, State.onPwr, none_waits]

end

/-- Gating the arrays keeps which of them are in service (R428). -/
theorem gateArrays_inService (s : State) (b : Nat) : (s.gateArrays.array b).inService = (s.array b).inService := by
  have kept (u : State) (a : Nat) (f : ArraySt → ArraySt) (hf : ∀ x, (f x).inService = x.inService) :
      ((u.onArray a f).array b).inService = (u.array b).inService := by
    obtain same | ⟨rfl, set⟩ := vget_vmod_any u.arrays a b f
    · exact congrArg ArraySt.inService same
    · exact (congrArg ArraySt.inService set).trans (hf _)
  refine foldl_keep (fun s t => (t.array b).inService = (s.array b).inService) (fun _ => rfl) (fun _ _ _ h g => g.trans h) _
    (fun u a => ?_) (rangeFrom 0 32) s
  extract_lets gated
  have first : (gated.array b).inService = (u.array b).inService := kept u a _ fun _ => rfl
  split
  · exact first
  · split
    · exact first
    · refine Eq.trans (kept gated a _ ?_) first
      exact fun _ => rfl

/-! DEEP (R448). -/

theorem length_totalsBytes (t : Vector Nat 6) : (totalsBytes t).length = 48 := by
  simp only [totalsBytes, List.length_flatMap, length_natLe, List.map_const', List.sum_replicate_nat, Vector.length_toList]

theorem State.saveTotals_stored {s : State} (trained : s.start.stage = 7) : s.saveTotals
    = (s.onMirror (fun x => { x with totals := vall s.ctxs (·.totals) })).store (keeperMirror + 0x2000)
        (s.ctxs.toList.flatMap (fun c => totalsBytes c.totals)) :=
  if_neg (by show ¬ s.start.stage ≤ 2; omega)

/-- The saved totals are the 768 bytes of their place, and no other byte (R448, R471). -/
theorem State.saveTotals_outside {s : State} (trained : s.start.stage = 7) : s.memOutside s.saveTotals 0x0C08A000 768 := by
  have len : (s.ctxs.toList.flatMap (fun c => totalsBytes c.totals)).length = 768 := by
    simp only [List.length_flatMap, length_totalsBytes, List.map_const', List.sum_replicate_nat, Vector.length_toList]
  rw [State.saveTotals_stored trained]
  have out := State.store_outside (s.onMirror (fun x => { x with totals := vall s.ctxs (·.totals) })) (keeperMirror + 0x2000)
    (s.ctxs.toList.flatMap (fun c => totalsBytes c.totals))
  rw [len] at out
  exact out

theorem State.writeBack_empty (s : State) : s.writeBack.mem.dirty = [] ∧ s.writeBack.mem.parked = [] :=
  ⟨List.filter_eq_nil_iff.2 fun _ _ => Bool.false_ne_true, rfl⟩

/-- Near memory reads the same once the cache is written back (R428, R446). -/
theorem State.writeBack_same {s : State} (sound : s.sound) : s.memSame s.writeBack := fun x => MemSt.read_flush (fun _ => true) sound x

/-- From DEEP, TARGET ACTIVE starts the block again (R428, R444). -/
theorem State.target_exitDeep {s : State} {value : Word} (code : bitsOf value.toNat 1 0 = 0) (deep : s.pwr.state = .deep)
    (trained : s.start.stage = 7) (sound : s.blk.mode = .ready ∨ s.blk.mode = .skeleton ∨ s.blk.mode = .quiesced) :
    s.target 0 value = ((s.pwrFields value.toNat).onPwr (fun p => { p with target := .active })).exitDeep := by
  have write : s.regWrite 0x120 value.toNat = s.writePwr value.toNat :=
    (if_pos (.inr (.inr (.inr deep)))).trans ((if_neg (by simp [trained, keeperSet])).trans rfl)
  have serving : ¬ (s.blk.mode = .starting ∨ s.blk.mode = .failed) := by obtain mode | mode | mode := sound <;> simp [mode]
  refine (if_pos code).trans (write.trans ((State.writePwr_of_code code s).trans ?_))
  exact (if_neg (by rintro ⟨target, -⟩; cases target)).trans ((if_neg serving).trans ((if_pos deep).trans (if_pos rfl)))

/-- Settles O37: each clause by the equation of its row. -/
theorem powerTransitions : Obligations.PowerTransitions := by
  intro s
  refine ⟨fun h on active still idle unread => ?autoIdle, fun idle high sound => ?wake, fun going => ?idle, fun going => ?arraysOff,
    fun going trained => ?deep, fun going waking => execPowerStateReached_active going waking,
    fun value code deep trained sound => ?exit⟩
  case autoIdle =>
    have away : PState.idle ≠ .active := PState.noConfusion
    obtain ⟨pwr, sprint, rest⟩ := State.goTo_away_facts (s := s) away (by rw [active]; exact PState.noConfusion)
    exact ⟨_, execAutoIdleExpiry_quiet h on active still (quietBlock_of idle unread), pwr, sprint, rest⟩
  case wake =>
    exact ⟨s.wake, State.wake_idle idle, execIdleWake_frame idle high sound, fun q v => execIdleWake_doorbell idle high sound q v,
      fun n v hn => execIdleWake_ctxCtrl idle high sound hn v⟩
  case idle =>
    have driven := (((s.reached .idle).onKpr (fun k => { k with vReq := 110, vTarget := 110 })).driveRequest_ev)
    have held : Ev [.kpr, .kin, .pwr] s ((s.reached .idle).onKpr (fun k => { k with vReq := 110, vTarget := 110 })) :=
      Ev.then (State.onKpr_ev ..) ((s.onPwr_ev _).mono rfl) rfl
    exact ⟨_, execPowerStateReached_idle going, driven.frame .pwr rfl, driven.frame .kpr rfl, (driven.then held rfl).frame⟩
  case arraysOff =>
    have gated := (s.reached .arraysOff).gateArrays_ev
    exact ⟨_, execPowerStateReached_arraysOff going, gated.frame .pwr rfl,
      fun a ha => ⟨gate_wreg _ a ha, gateArrays_inService (s.reached .arraysOff) a⟩,
      (gated.then (l := [.pwr, .arrays]) ((s.onPwr_ev _).mono rfl) rfl).frame⟩
  case deep =>
    have saved := (s.reached .deep).saveTotals_ev
    have written := (s.reached .deep).saveTotals.writeBack_ev
    obtain ⟨dirty, parked⟩ := (s.reached .deep).saveTotals.writeBack_empty
    have kept : Ev [.pwr, .mem, .mirror] s (s.reached .deep).saveTotals := saved.then ((s.onPwr_ev _).mono rfl) rfl
    refine ⟨_, execPowerStateReached_deep going, (written.frame .pwr rfl).trans (saved.frame .pwr rfl), dirty, parked, fun n hn => ?_,
      fun sound x outside => ?_, (written.then kept rfl).frame⟩
    · rw [written.frame .mirror rfl, State.saveTotals_stored (s := s.reached .deep) trained]
      refine (congrArg (fun m : Mirror => vget m.totals n) ((State.store_ev ..).frame .mirror rfl)).trans ?_
      exact vall_vget s.ctxs (·.totals) n hn
    · exact (State.writeBack_same (kept.mem sound) x).trans (State.saveTotals_outside (s := s.reached .deep) trained x outside)
  case exit =>
    refine ⟨_, next_congr (State.target_exitDeep code deep trained sound), rfl, rfl, rfl, fun n hn => ?_, fun x => rfl⟩
    exact vrep_vget Ctx.reset n hn

end Sys2Proof.Machine
end

section
/-! SUPPORT. Resets that RST_CTRL asks for (R444, R445, R447, R448). -/
namespace Sys2Proof.Machine

theorem bitOf_zero (i : Nat) : bitOf 0 i = false := by simp [bitOf]

/-- With no bit of the mask set no context is reset. -/
theorem State.contextResets_zero (s : State) : s.contextResets 0 = s := by
  have none_named : (rangeFrom 0 16).filter (bitOf 0) = [] := List.filter_eq_nil_iff.2 fun n _ => by simp [bitOf_zero]
  rw [State.contextResets, none_named]
  rfl

theorem State.contextResets_one (s : State) {n : Nat} (h : n < 16) : s.contextResets (2 ^ n) = s.contextReset n := by
  rw [State.contextResets, filter_pow n h]
  rfl

theorem regWrite_rst {s : State} (h : Served s) (v : Nat) : s.regWrite 0x30 v = s.writeRst v := regWrite_served h 0x30 v

section
variable {s : State} {v : Nat}

theorem State.writeRst_attempts (mask : bitsOf v 31 16 = 0) (code : bitsOf v 1 0 = 2) :
    s.writeRst v = s.onStart (fun x => { x with attempts := 0 }) := by
  obtain ⟨warm, clear⟩ := bits_of_low v
  rw [code] at warm clear
  simp only [State.writeRst, mask, warm, clear, State.contextResets_zero]
  rfl

theorem State.writeRst_warm (mask : bitsOf v 31 16 = 0) (code : bitsOf v 1 0 = 1) : s.writeRst v = s.warmReset := by
  obtain ⟨warm, clear⟩ := bits_of_low v
  rw [code] at warm clear
  simp only [State.writeRst, mask, warm, clear, State.contextResets_zero]
  rfl

theorem State.writeRst_context {n : Nat} (h : n < 16) (mask : bitsOf v 31 16 = 2 ^ n) (code : bitsOf v 1 0 = 0) :
    s.writeRst v = s.contextReset n := by
  obtain ⟨warm, clear⟩ := bits_of_low v
  rw [code] at warm clear
  simp only [State.writeRst, mask, warm, clear, State.contextResets_one _ h]
  rfl

end

theorem execContextReset_one {s : State} (h : Served s) {n : Nat} (hn : n < 16) {value : Word}
    (mask : bitsOf value.toNat 31 16 = 2 ^ n) (code : bitsOf value.toNat 1 0 = 0) :
    execContextReset value s = .next (s.contextReset n) := by
  have named : bitsOf value.toNat 31 16 ≠ 0 := by rw [mask]; exact Nat.ne_of_gt (Nat.two_pow_pos n)
  exact next_congr ((if_neg named).trans ((regWrite_rst h _).trans (State.writeRst_context hn mask code)))

theorem State.contextReset_disabled {s : State} {n : Nat} (mode : (s.ctx n).mode = .disabled) : s.contextReset n = s.resetCtx n := by
  rw [State.contextReset, mode]

/-- An ACTIVE or SUSPENDED context is disabled first, and reset after (R444, R447). -/
theorem State.contextReset_running {s : State} {n : Nat} (mode : (s.ctx n).mode = .active ∨ (s.ctx n).mode = .suspended) :
    s.contextReset n = (s.beginSeq n .disabling).onCtx n (fun c => { c with resetAfter := true }) := by
  obtain mode | mode := mode <;> simp only [State.contextReset, State.disableCtx, mode]

/-- An array as a warm reset leaves it: its work is lost, its retirements stay (R448). -/
def ArraySt.workLost (a : ArraySt) : ArraySt :=
  { ArraySt.reset with inService := a.inService, retired := a.retired, wardFails := a.wardFails, diag := a.diag }

theorem State.warmReset_array (s : State) {a : Nat} (h : a < 32) : s.warmReset.array a = (s.array a).workLost :=
  vall_vget s.arrays ArraySt.workLost a h

/-- Settles O38: the three fields of RST_CTRL, each by its equation. -/
theorem resetsWritten : Obligations.ResetsWritten := by
  intro value s h
  refine ⟨fun mask code => ?attempts, fun mask code => ?warm, fun n hn mask code => ⟨fun mode => ?reset, fun mode => ?disable⟩⟩
  case attempts =>
    obtain ⟨-, clear⟩ := bits_of_low value.toNat
    rw [code] at clear
    exact next_congr ((if_pos clear).trans ((regWrite_rst h _).trans (State.writeRst_attempts mask code)))
  case warm =>
    obtain ⟨warm, -⟩ := bits_of_low value.toNat
    rw [code] at warm
    refine ⟨_, next_congr ((if_pos warm).trans ((regWrite_rst h _).trans (State.writeRst_warm mask code))), rfl, rfl, rfl, rfl,
      fun n hn => vrep_vget [] n hn, fun n hn => vall_vget s.ctxs Ctx.stopped n hn, fun q hq => vall_vget s.qs Queue.zeroed q hq,
      fun a ha => ?_, fun x => rfl, s.warmReset_ev.frame⟩
    rw [State.warmReset_array s ha]
    exact ⟨rfl, rfl, rfl⟩
  case reset =>
    have run := (execContextReset_one h hn mask code).trans (next_congr (State.contextReset_disabled mode))
    exact ⟨_, run, resetCtx_ctx s ⟨n, hn⟩, resetCtx_held s ⟨n, hn⟩, resetCtx_queue s ⟨n, hn⟩, resetCtx_ctxsBut s n⟩
  case disable =>
    have run := (execContextReset_one h hn mask code).trans (next_congr (State.contextReset_running mode))
    have begun : (s.beginSeq n .disabling).ctx n = Ctx.begun .disabling (heldAreas s n) (s.ctx n) := onCtx_same s n _ hn
    have ended : ((s.beginSeq n .disabling).onCtx n (fun c => { c with resetAfter := true })).ctx n
        = { Ctx.begun .disabling (heldAreas s n) (s.ctx n) with resetAfter := true } := by rw [onCtx_same _ _ _ hn, begun]
    refine ⟨_, run, by rw [ended]; rfl, by rw [ended]; rfl, by rw [ended], fun x hx => ?_,
      (Ev.then (l := [.ctxs]) (State.onCtx_ev ..) (s.beginSeq_ev n .disabling) rfl).frame⟩
    exact (State.onCtx_ctxsBut _ n _ x hx).trans (State.onCtx_ctxsBut s n _ x hx)

end Sys2Proof.Machine
end

section
/-! SUPPORT. Resets of the pins (R444, R446, R448, R450, R467), and starts that are tried again (R438, R441, R442). -/
namespace Sys2Proof.Machine

/-- A cold reset puts every context and queue at its defaults. -/
theorem coldClear_ctx (s : State) {n : Nat} (h : n < 16) : s.coldClear.ctx n = Ctx.reset := vrep_vget Ctx.reset n h
theorem coldClear_queue (s : State) {q : Nat} (h : q < 64) : s.coldClear.queue q = Queue.reset := vrep_vget Queue.reset q h

/-- A rail loss empties the cache and the cellar (R446). -/
theorem loseCache_empty (s : State) : s.loseCache.mem.dirty = [] ∧ s.loseCache.mem.parked = [] :=
  ⟨List.filter_eq_nil_iff.2 fun _ _ => Bool.false_ne_true, rfl⟩

/-- What RESET_N low leaves (R446, R447). -/
theorem execResetNAssert_eq (s : State) : execResetNAssert s
    = .next (s.writeBack.coldClear.onStart (fun x => { x with resetLow := true, stage := if s.start.stage = 0 then 0 else 7 })) := rfl

theorem execResetNRelease_started {s : State} (low : s.start.resetLow = true) (stage : s.start.stage = 7) (straps : Word) :
    execResetNRelease straps s = .next ((((s.latchStraps straps.toNat).onPort (fun x => { x with wir := .bypass, instrument := none })).onStart
      (fun x => { x with resetLow := false })).beginS1 .cold) :=
  next_congr ((if_neg (by simp [low])).trans (if_neg (by show s.start.stage ≠ 0; omega)))

theorem execRailLoss_high {s : State} (awake : s.pwr.state ≠ .deep) (started : s.start.stage ≠ 0) (high : s.start.resetLow = false) :
    execRailLoss s = .next (s.loseCache.coldClear.beginS1 .cold) :=
  next_congr ((if_neg (by simp [awake, started])).trans (if_neg (by simp [high])))

/-- Settles O39: the state each reset leaves is written out by its equation. -/
theorem resetsOfPins : Obligations.ResetsOfPins := by
  intro straps s
  refine ⟨?powerOn, ?assert, fun low stage => ?release, fun awake started high => ?rail⟩
  case powerOn => exact ⟨_, rfl, rfl, rfl, rfl, rfl, rfl, rfl, rfl, rfl, rfl, rfl, rfl, rfl, rfl, rfl, rfl, rfl⟩
  case assert =>
    obtain ⟨dirty, parked⟩ := s.writeBack_empty
    exact ⟨_, execResetNAssert_eq s, rfl, rfl, dirty, parked, fun sound => State.writeBack_same sound, fun n hn => coldClear_ctx s.writeBack hn,
      fun q hq => coldClear_queue s.writeBack hq, rfl, rfl, rfl, rfl, rfl⟩
  case release =>
    have run := execResetNRelease_started low stage straps
    refine ⟨_, run, rfl, rfl, rfl, rfl, fun few => ?_, rfl, rfl, rfl, (execResetNRelease_ev straps s run).frame⟩
    exact if_neg (by simp only [decide_eq_true_eq]; exact Nat.not_le.2 few)
  case rail =>
    have lost := s.loseCache_ev
    obtain ⟨dirty, parked⟩ := loseCache_empty s
    have bank : s.loseCache.blk = s.blk := lost.frame .blk rfl
    refine ⟨_, execRailLoss_high awake started high, rfl, rfl, dirty, parked, fun x clean => (loseCache_clean s x clean).2.2,
      fun n hn => coldClear_ctx s.loseCache hn, lost.frame .log rfl, ?_, ?_⟩
    · show s.loseCache.blk.fuse = _
      rw [bank]
    · show s.loseCache.blk.repair = _
      rw [bank]

/-! Failed starts (R438, R441, R442). -/

theorem execStartStageTimeout_bound {s : State} (high : s.start.resetLow = false) (bound : s.start.stage ≤ 5) :
    execStartStageTimeout s = .next (s.failStage 0x7F 0 0) := next_congr (if_pos ⟨bound, by simp [high]⟩)

theorem execStartStageEnd_s1_failed {s : State} (high : s.start.resetLow = false) (stage : s.start.stage = 1) :
    execStartStageEnd (.s1 false) s = .next (s.failStage 0x10 0 0) := by
  simp only [execStartStageEnd, high, stage, Bool.false_eq_true, if_false]

/-- The next attempt, of a start that is no warm one (R438). -/
def retryKind (k : StartKind) : StartKind := if k = .warm then .cold else k

theorem execStartRetry_due {s : State} (high : s.start.resetLow = false) (due : s.start.retryDue = true) : execStartRetry s
    = .next ((s.writeBack.coldClear.onSvc (fun x => { x with irq := s.svc.irq, mask := s.svc.mask })).beginS1 (retryKind s.start.kind)) :=
  next_congr (if_neg (by simp [high, due]))

/-- Settles O41: a failed stage is recorded as `failStage` says, and the next attempt begins S1 from a cold state. -/
theorem startFailures : Obligations.StartFailures := by
  intro s high
  refine ⟨fun bound => ?timeout, fun stage => ?s1, fun due => ?retry⟩
  case timeout =>
    exact ⟨_, execStartStageTimeout_bound high bound, rfl, raise_bit _ 4, (s.failStage_ev ..).frame⟩
  case s1 =>
    exact ⟨_, execStartStageEnd_s1_failed high stage, rfl, stage, rfl, rfl, (s.failStage_ev ..).frame⟩
  case retry =>
    exact ⟨_, execStartRetry_due high due, rfl, rfl, rfl, rfl, rfl, rfl, fun n hn => coldClear_ctx s.writeBack hn, s.writeBack_empty.1⟩

end Sys2Proof.Machine
end

section
/-! SUPPORT. Start stages that pass (R395, R432, R433, R437, R438, R448): one equation per stage. -/
namespace Sys2Proof.Machine

section
variable {s : State} (high : s.start.resetLow = false)
include high

/-- The keeper copies that agree, and the regulator's ramp rate, as S0 finds them (R395). -/
def State.copiesFound (s : State) (agree : Nat) : State :=
  s.onKin (fun i => { i with
    copies := agree, votes := (rangeFrom 0 3).map (fun j => (decide (j < agree), none))
    vport := { i.vport with rate := if agree < 2 ∨ bitOf s.blk.straps 14 then i.vport.rate else 50 } })

theorem execStartStageEnd_s0 (stage : s.start.stage = 0) {agree : Nat} (enough : 2 ≤ agree) : execStartStageEnd (.s0 agree) s
    = .next (((s.copiesFound agree).logUnits 5 ((rangeFrom 0 3).filter (fun j => decide (agree ≤ j)))).beginS1
        ((s.copiesFound agree).logUnits 5 ((rangeFrom 0 3).filter (fun j => decide (agree ≤ j)))).start.kind) := by
  simp only [execStartStageEnd, high, stage, Bool.false_eq_true, if_false]
  exact next_congr (if_neg (Nat.not_lt.2 enough))

theorem execStartStageEnd_s1 (stage : s.start.stage = 1) : execStartStageEnd (.s1 true) s = .next s.stageS1.nextStage := by
  simp only [execStartStageEnd, high, stage, Bool.false_eq_true, if_false, if_true]

theorem execStartStageEnd_s2 (full : s.start.skeleton = false) (stage : s.start.stage = 2) (i : S2Info) :
    execStartStageEnd (.s2 i) s = .next (s.stageS2 i) := by
  simp only [execStartStageEnd, high, stage, full, Bool.false_eq_true, if_false]

theorem execStartStageEnd_s3 (stage : s.start.stage = 3) (reads : List (Nat × List DiagRead)) (badT : List Nat) :
    execStartStageEnd (.s3 reads badT) s = .next (s.stageS3 reads badT) := by
  simp only [execStartStageEnd, high, stage, Bool.false_eq_true, if_false]

theorem execStartStageEnd_s4 (stage : s.start.stage = 4) (badC badS badL : List Nat) :
    execStartStageEnd (.s4 badC badS badL) s = .next (s.stageS4 badC badS badL) := by
  simp only [execStartStageEnd, high, stage, Bool.false_eq_true, if_false]

theorem execStartStageEnd_s5 (stage : s.start.stage = 5) (pass : List Bool) (img : Option (List Byte)) :
    execStartStageEnd (.s5 pass img) s = .next (s.stageS5 pass img) := by
  simp only [execStartStageEnd, high, stage, Bool.false_eq_true, if_false]

theorem execStartStageEnd_s6 (stage : s.start.stage = 6) : execStartStageEnd .s6 s = .next s.stageS6 := by
  simp only [execStartStageEnd, high, stage, Bool.false_eq_true, if_false]

end

/-! S1 (R397). -/

theorem State.stageS1_spare (s : State) {a : Nat} (h : a < 32) :
    vget s.stageS1.blk.spare a = spareWord (repairsFor (goodRecords s) a 0) (repairsFor (goodRecords s) a 1) := by
  have logged (l : List Nat) (u : State) : (l.foldl (fun s r => s.logRec { event := 0x23, action := 9, d0 := r }) u).blk = u.blk :=
    (Ev.foldl (l := [.svc, .log, .mem, .mirror]) _ (fun _ _ e => Ev.then (State.logRec_ev ..) e rfl) l u (Ev.refl u)).frame .blk rfl
  refine (congrArg (fun b : Blk => vget b.spare a) (logged _ _)).trans ?_
  exact vofFn_vget (fun a : Fin 32 => spareWord (repairsFor (goodRecords s) a 0) (repairsFor (goodRecords s) a 1)) a h

/-! S2 (R314, R432). -/

theorem deadStacks_nil {profile : Nat} {gib : List (Option Nat)} (trained : ∀ x < stackCount profile, (gib.getD x none).isSome) :
    deadStacks profile gib = [] := by
  refine List.filter_eq_nil_iff.2 fun x mem => ?_
  have some_gib := trained x (by have := (mem_range ..).1 mem; omega)
  rw [Option.isNone_eq_false_iff.2 some_gib]
  decide

/-- The block of which every stack trains: the map is formed, and the wear counters and the log are restored (R432, R450). -/
def State.mapFormed (s : State) (i : S2Info) : State :=
  let m := formMap s (slotsOf (s.blk.straps % 4) i.stackGib) [] [] []
  let u := s.trainStacks m [] []
  let u := if m.parity then u.onBlk (fun b => { b with mapList := m.outs }) else u
  let u := u.restoreWear i.wearOk
  if u.start.logDue then u.restoreLog i.errLogOk else u

theorem State.stageS2_clean {s : State} {i : S2Info} (trained : ∀ x < stackCount (s.blk.straps % 4), (i.stackGib.getD x none).isSome)
    (whole : i.lostChannels = []) (unlisted : s.blk.mapList = []) :
    s.stageS2 i = (((((s.mapFormed i).farStart i).fenceHot).mirrorLog.ledgerBack).onStart StartSt.restored).nextStage := by
  simp only [State.stageS2, deadStacks_nil trained, whole, unlisted, List.filter_nil, List.eraseDups_nil, List.length_nil, List.map_nil,
    List.append_nil, List.isEmpty_nil, Bool.not_true, Bool.and_false, Bool.false_eq_true, if_false, List.foldl_nil]
  rw [if_neg (by decide), if_neg (by simp)]
  rfl

theorem State.mapFormed_facts (s : State) (i : S2Info) :
    (s.mapFormed i).map = formMap s (slotsOf (s.blk.straps % 4) i.stackGib) [] [] [] ∧ (s.mapFormed i).start = s.start := by
  unfold State.mapFormed
  extract_lets m u v w
  have first : u.map = m ∧ u.start = s.start := ⟨trainStacks_map s m [] [], (s.trainStacks_ev m [] []).frame .start rfl⟩
  have map : m = formMap s (slotsOf (s.blk.straps % 4) i.stackGib) [] [] [] := rfl
  rw [← map]
  clear_value m u
  have second : v.map = m ∧ v.start = s.start := by
    unfold v
    split <;> exact first
  have third : Ev [.kin] v w := State.restoreWear_ev ..
  have fourth : w.map = m ∧ w.start = s.start := ⟨(third.frame .map rfl).trans second.1, (third.frame .start rfl).trans second.2⟩
  split
  · have last := w.restoreLog_ev i.errLogOk
    exact ⟨(last.frame .map rfl).trans fourth.1, (last.frame .start rfl).trans fourth.2⟩
  · exact fourth

/-- The map formed without a dead stack or a channel mapped out: the parity setting's, and TOP above all its slots (R314, R432). -/
theorem plainMap_facts {s : State} {slots : Nat} {m : MapSt} {fenced : List Nat}
    (formed : m = { formMap s slots [] [] [] with fenced := fenced }) :
    m.parity = s.blk.paritySet ∧ m.slots = slots ∧ m.top = m.slots * rowGranules m := by
  rw [formMap_plain] at formed
  subst formed
  exact ⟨rfl, rfl, rfl⟩

/-- The far tier's part of S2 keeps the stage (R450). -/
theorem State.farStart_stage (s : State) (i : S2Info) : (s.farStart i).start.stage = s.start.stage := by
  have written (l : List Extent) (u : State) : Ev [.mem] u (l.foldl (fun s e => s.writeLost e) u) :=
    Ev.foldl _ (fun _ _ e => Ev.then (State.writeLost_ev ..) e rfl) l u (Ev.refl u)
  unfold State.farStart
  split
  · rfl
  extract_lets old now lostSerial wear clock joined taken mirrored
  have entries : Ev [.svc, .log, .mem, .far, .mirror] joined taken := by
    refine Ev.foldl _ (fun u p e => ?_) _ _ (Ev.refl joined)
    split
    · exact e
    · exact Ev.then (State.wearCheck_ev ..) (Ev.then (State.restoreEntry_ev ..) (Ev.then (State.takeEntry_ev ..) e rfl) rfl) rfl
  have ledger := taken.mirrorLedger_ev
  rw [(written _ mirrored).frame .start rfl]
  show taken.mirrorLedger.start.stage = _
  rw [ledger.frame .start rfl, entries.frame .start rfl]
  rfl

/-! S3 to S5 (R432, R433, R437). -/

/-- The units that S3 leaves, their failures logged. -/
def State.tested (s : State) (reads : List (Nat × List DiagRead)) (badT : List Nat) : State :=
  ((s.unitsTested (badArrays reads) badT).logUnits 1 (badArrays reads)).logUnits 3 badT

/-- The units that S4 leaves, their failures logged. -/
def State.marched (s : State) (badC badS : List Nat) : State :=
  ((s.marchZero.unitsMarched badC badS).logUnits 2 badC).logUnits 1 badS

theorem logTwice_ev (s : State) (k k' : Nat) (l l' : List Nat) :
    Ev [.free, .svc, .log, .mem, .mirror] s ((s.logUnits k l).logUnits k' l') :=
  Ev.then (State.logUnits_ev ..) (s.logUnits_ev k l) rfl

theorem State.unitsTested_array (s : State) (badA badT : List Nat) {a : Nat} (h : a < 32) :
    (vget (s.unitsTested badA badT).arrays a).inService
      = !(badA.contains a || s.blk.keepArrays.contains a || s.blk.keepCores.contains (a / 4)) := by
  unfold State.unitsTested
  rw [vofFn_vget _ a h]

theorem State.unitsTested_start (s : State) (badA badT : List Nat) : (s.unitsTested badA badT).start = s.start := by
  unfold State.unitsTested
  rfl

theorem State.unitsTested_core (s : State) (badA badT : List Nat) {c : Nat} (h : c < 8) :
    (vget (s.unitsTested badA badT).cores c).inService = !s.blk.keepCores.contains c := by
  unfold State.unitsTested
  rw [vofFn_vget _ c h]

theorem State.unitsMarched_array (s : State) (badC badS : List Nat) {a : Nat} (h : a < 32) :
    (vget (s.unitsMarched badC badS).arrays a).inService
      = ((s.array a).inService && !(badS.contains a || badC.contains (a / 4))) := by
  unfold State.unitsMarched
  rw [vofFn_vget _ a h]
  rfl

theorem State.unitsMarched_frame (s : State) (badC badS : List Nat) :
    (s.unitsMarched badC badS).start = s.start ∧ (s.unitsMarched badC badS).tun = s.tun := by
  unfold State.unitsMarched
  exact ⟨rfl, rfl⟩

theorem State.marchZero_array (s : State) {a : Nat} (h : a < 32) : (s.marchZero.array a).inService = (s.array a).inService := by
  unfold State.marchZero State.array
  rw [vall_vget s.arrays _ a h]

theorem State.tested_facts (s : State) (reads : List (Nat × List DiagRead)) (badT : List Nat) :
    (s.tested reads badT).start = s.start
      ∧ (∀ a < 32, ((s.tested reads badT).array a).inService
          = !((badArrays reads).contains a || s.blk.keepArrays.contains a || s.blk.keepCores.contains (a / 4)))
      ∧ (∀ c < 8, ((s.tested reads badT).core c).inService = !s.blk.keepCores.contains c) := by
  have logged := logTwice_ev (s.unitsTested (badArrays reads) badT) 1 3 (badArrays reads) badT
  have start : (s.tested reads badT).start = (s.unitsTested (badArrays reads) badT).start := logged.frame .start rfl
  refine ⟨start.trans (s.unitsTested_start _ _), fun a ha => ?_, fun c hc => ?_⟩
  · exact (congrArg (fun v => (vget v a).inService) (logged.frame .arrays rfl)).trans (s.unitsTested_array _ _ ha)
  · exact (congrArg (fun v => (vget v c).inService) (logged.frame .cores rfl)).trans (s.unitsTested_core _ _ hc)

theorem State.stageS3_full {s : State} (full : s.start.skeleton = false) (reads : List (Nat × List DiagRead)) (badT : List Nat) :
    s.stageS3 reads badT = if arraysIn (s.tested reads badT) < 16 then (s.tested reads badT).failStage 0x30 0 0
      else (s.tested reads badT).nextStage := by
  have skeleton : (s.tested reads badT).start.skeleton = false := by rw [(s.tested_facts reads badT).1]; exact full
  exact if_neg (fun h => Bool.false_ne_true (skeleton.symm.trans h))

theorem State.marched_facts (s : State) (badC badS : List Nat) :
    (s.marched badC badS).start = s.start ∧ (s.marched badC badS).tun = []
      ∧ ∀ a < 32, ((s.marched badC badS).array a).inService
          = ((s.array a).inService && !(badS.contains a || badC.contains (a / 4))) := by
  have logged := logTwice_ev (s.marchZero.unitsMarched badC badS) 2 1 badC badS
  have start : (s.marched badC badS).start = (s.marchZero.unitsMarched badC badS).start := logged.frame .start rfl
  have tun : (s.marched badC badS).tun = (s.marchZero.unitsMarched badC badS).tun := logged.frame .tun rfl
  obtain ⟨start_kept, tun_kept⟩ := s.marchZero.unitsMarched_frame badC badS
  refine ⟨start.trans start_kept, tun.trans tun_kept, fun a ha => ?_⟩
  rw [← s.marchZero_array ha]
  exact (congrArg (fun v => (vget v a).inService) (logged.frame .arrays rfl)).trans (s.marchZero.unitsMarched_array _ _ ha)

theorem State.stageS4_full {s : State} (full : s.start.skeleton = false) (badC badS badL : List Nat) :
    s.stageS4 badC badS badL = match badL with
      | x :: _ => (s.marched badC badS).failStage 0x40 6 x
      | [] => if arraysIn (s.marched badC badS) < 16 then (s.marched badC badS).failStage 0x41 0 0
          else (s.marched badC badS).nextStage := by
  have skeleton : (s.marched badC badS).start.skeleton = false := by rw [(s.marched_facts badC badS).1]; exact full
  refine (if_neg (fun h => Bool.false_ne_true (skeleton.symm.trans h))).trans ?_
  cases badL <;> rfl

/-- The failures of command-processor cores that S5 logs (R404, R433). -/
def State.coresTested (s : State) (pass : List Bool) : State :=
  if pass.countP id < 3 then s.logRec { event := 0x0B, action := 1, kind := 4, d0 := maskOf pass } else s

theorem State.coresTested_ev (s : State) (pass : List Bool) : Ev [.svc, .log, .mem, .mirror] s (s.coresTested pass) := by
  unfold State.coresTested
  split
  · exact s.logRec_ev _
  · exact Ev.refl s

/-- The command processor as S5 leaves it: the cores that pass run, and the journal, the ledger and the records are clear (R437). -/
def cpTested (pass : List Bool) : Cp :=
  { Cp.reset with
    running := min 2 (pass.countP id), spare := decide (3 ≤ pass.countP id), ids := (rangeFrom 0 3).filter (fun i => pass.getD i false) }

theorem State.stageS5_plain {s : State} (full : s.start.skeleton = false) (unpatched : s.blk.fwPatch = 0) {pass : List Bool}
    (enough : 2 ≤ pass.countP id) (img : Option (List Byte)) : s.stageS5 pass img
      = (((s.coresTested pass).onCp (fun _ => cpTested pass)).onBlk (fun b => { b with patchVer := 0 })).nextStage := by
  have tested := s.coresTested_ev pass
  have skeleton : (s.coresTested pass).start.skeleton = false := by rw [tested.frame .start rfl]; exact full
  have patch : (s.coresTested pass).blk.fwPatch = 0 := by rw [tested.frame .blk rfl]; exact unpatched
  unfold State.stageS5
  extract_lets n ok u named code ver
  have named_none : ¬ named := fun h => h.1 patch
  have passes : ok = true := by
    show (if s.start.skeleton then decide (1 ≤ n) else decide (2 ≤ n)) = true
    rw [full]
    exact decide_eq_true enough
  rw [if_neg (by simp [passes]), if_neg (fun h => named_none h.1)]
  have version : ver = 0 := if_neg named_none
  rw [version]
  rfl

/-- Settles O40: each stage's equation, and what of the state its records leave alone. -/
theorem startStages : Obligations.StartStages := by
  intro s high full
  refine ⟨fun agree stage enough few => ?s0, fun stage => ?s1, fun i stage trained whole unlisted => ?s2, fun reads badT stage => ?s3,
    fun badC badS stage => ⟨?s4, fun x l => ?slice⟩, fun pass img stage unpatched enough => ?s5, fun stage kind => ?s6⟩
  case s0 =>
    have logged := (s.copiesFound agree).logUnits_ev 5 ((rangeFrom 0 3).filter (fun j => decide (agree ≤ j)))
    have found : Ev [.kin] s (s.copiesFound agree) := s.onKin_ev _
    have begun := fun (u : State) k => u.beginS1_ev k
    refine ⟨_, execStartStageEnd_s0 high stage enough, rfl, congrArg KprIn.copies (logged.frame .kin rfl), rfl, fun all => ?_,
      ((begun _ _).then (l := [.free, .blk, .start, .svc, .log, .kin, .mem, .mirror]) (logged.then (found.mono rfl) rfl) rfl).frame⟩
    have none_out : (rangeFrom 0 3).filter (fun j => decide (agree ≤ j)) = [] := by
      refine List.filter_eq_nil_iff.2 fun j mem => ?_
      have := (mem_range ..).1 mem
      simp only [decide_eq_true_eq]
      omega
    rw [none_out]
    exact ((begun _ _).then (l := [.blk, .start, .kin]) (found.mono rfl) rfl).frame
  case s1 =>
    have kept : s.stageS1.start = s.start := s.stageS1_ev.frame .start rfl
    refine ⟨_, execStartStageEnd_s1 high stage, ?_, fun a ha => s.stageS1_spare ha⟩
    show s.stageS1.start.stage + 1 = 2
    rw [kept, stage]
  case s2 =>
    obtain ⟨map, start⟩ := s.mapFormed_facts i
    have far := (s.mapFormed i).farStart_ev i
    obtain ⟨fenced, hot⟩ := fenceHot_map ((s.mapFormed i).farStart i)
    have mirrored : Ev [.mem, .mirror] ((s.mapFormed i).farStart i).fenceHot ((s.mapFormed i).farStart i).fenceHot.mirrorLog.ledgerBack :=
      Ev.then (State.ledgerBack_ev _) (State.mirrorLog_ev _) rfl
    have formed : ((s.mapFormed i).farStart i).fenceHot.mirrorLog.ledgerBack.map
        = { formMap s (slotsOf (s.blk.straps % 4) i.stackGib) [] [] [] with fenced := fenced } := by
      rw [mirrored.frame .map rfl, hot, far.frame .map rfl, map]
    have staged : ((s.mapFormed i).farStart i).fenceHot.mirrorLog.ledgerBack.start.stage = 2 := by
      rw [mirrored.frame .start rfl, (State.fenceHot_ev _).frame .start rfl, State.farStart_stage, start, stage]
    have run := (execStartStageEnd_s2 high full stage i).trans (next_congr (State.stageS2_clean trained whole unlisted))
    generalize ((s.mapFormed i).farStart i).fenceHot.mirrorLog.ledgerBack = u at formed staged run
    exact ⟨_, run, congrArg (· + 1) staged, plainMap_facts (m := (u.onStart StartSt.restored).nextStage.map) formed⟩
  case s3 =>
    obtain ⟨start, arrays, cores⟩ := s.tested_facts reads badT
    have run := (execStartStageEnd_s3 high stage reads badT).trans (next_congr (State.stageS3_full full reads badT))
    by_cases few : arraysIn (s.tested reads badT) < 16
    · rw [if_pos few] at run
      exact ⟨_, run, arrays, cores, fun many => absurd few (Nat.not_lt.2 many), fun _ => ⟨rfl, rfl⟩⟩
    · rw [if_neg few] at run
      refine ⟨_, run, arrays, cores, fun _ => ?_, fun less => absurd less few⟩
      show (s.tested reads badT).start.stage + 1 = 4
      rw [start, stage]
  case s4 =>
    obtain ⟨start, tun, arrays⟩ := s.marched_facts badC badS
    have run := (execStartStageEnd_s4 high stage badC badS []).trans (next_congr (State.stageS4_full full badC badS []))
    by_cases few : arraysIn (s.marched badC badS) < 16
    · simp only [if_pos few] at run
      exact ⟨_, run, tun, arrays, fun many => absurd few (Nat.not_lt.2 many), fun _ => ⟨rfl, rfl⟩⟩
    · simp only [if_neg few] at run
      refine ⟨_, run, tun, arrays, fun _ => ?_, fun less => absurd less few⟩
      show (s.marched badC badS).start.stage + 1 = 5
      rw [start, stage]
  case slice =>
    refine ⟨_, (execStartStageEnd_s4 high stage badC badS (x :: l)).trans (next_congr (State.stageS4_full full badC badS (x :: l))),
      rfl, rfl, ?_, rfl⟩
    show (s.marched badC badS).start.stage = 4
    rw [(s.marched_facts badC badS).1, stage]
  case s5 =>
    have run := (execStartStageEnd_s5 high stage pass img).trans (next_congr (State.stageS5_plain full unpatched enough img))
    have tested := s.coresTested_ev pass
    have passed (u : State) : Ev [.blk, .start, .cp] u
        ((u.onCp (fun _ => cpTested pass)).onBlk (fun b => { b with patchVer := 0 })).nextStage := by
      have cp : Ev [.blk, .start, .cp] u (u.onCp (fun _ => cpTested pass)) := (u.onCp_ev _).mono rfl
      exact Ev.then (State.nextStage_ev _) (Ev.then (State.onBlk_ev _ _ (Nat.and_self _)) cp rfl) rfl
    refine ⟨_, run, ?_, Nat.min_eq_left enough, rfl, rfl, rfl, fun all => ?_,
      ((passed _).then (l := [.blk, .start, .svc, .log, .cp, .mem, .mirror]) (tested.mono rfl) rfl).frame⟩
    · show (s.coresTested pass).start.stage + 1 = 6
      rw [tested.frame .start rfl, stage]
    · rw [State.coresTested, if_neg (Nat.not_lt.2 all)]
      exact (passed s).frame
  case s6 =>
    exact ⟨_, execStartStageEnd_s6 high stage, s6_lemma s full kind⟩

end Sys2Proof.Machine
end

section
/-! SUPPORT. The keeper's samples (R395, R414-R424): what each stage of a sample keeps and sets. -/
namespace Sys2Proof.Machine

/-- A sample's number, its outvoted copy, and its readings filtered (R395, R416, R417). -/
def State.sensed (s : State) (x : Sample) : State :=
  let s := s.onKpr (fun k => { k with sample := (k.sample + 1) % 2 ^ 48 })
  let s := match x.outvoted with | none => s | some v => s.outvote v.1 v.2
  let s := s.onKin (fun i => { i with
    sensors := List.zipWith filterReading i.sensors x.thermal, recent := (samplePower x :: i.recent).take 10
    vMeas := meanVdd x, tStack := (maxInt x.stackT).getD i.tStack })
  let s := s.onKpr (fun k => { k with tHot := hotSpot s.kin.sensors k.tHot, pF := meanPower s.kin.recent })
  let low := s.pwr.state != .deep && lowVoltage x s.kpr.vReq
  s.onKin (fun i => { i with lowV := if low then i.lowV + 1 else 0 })

/-- The stacks' temperatures of a sample (R335). -/
def State.stacksSampled (s : State) (x : Sample) : State :=
  (x.stackT.zipIdx).foldl (fun s y => s.stackSample y.2 (s.stackHeat y.2 y.1)) s

/-- The accounting of a sample (R421, R422, R424). -/
def State.accounted (s : State) (x : Sample) : State :=
  s.onKin (fun i => i.account s.kpr (s.pwr.state == .deep) (samplePower x) x.rate)

/-- Of two copies that differ the more restrictive choice (R395, R420). -/
def State.restricted (s : State) (x : Sample) : State :=
  if twoCopies s && x.outvoted.isSome then (s.restrict x.other).underCap else s

theorem execKeeperSample_past {s : State} (past : s.start.stage ≠ 0) (x : Sample) : exec (.keeperSample x) s
    = .next (((((s.sensed x).decide_ x (samplePower x)).stacksSampled x).accounted x).restricted x).driveRequest :=
  next_congr (if_neg past)

theorem State.sensed_facts (s : State) (x : Sample) :
    (s.sensed x).kpr.sample = (s.kpr.sample + 1) % 2 ^ 48
      ∧ (s.sensed x).kin.sensors = List.zipWith filterReading s.kin.sensors x.thermal
      ∧ (s.sensed x).kpr.tHot = hotSpot (s.sensed x).kin.sensors s.kpr.tHot
      ∧ (s.sensed x).kin.recent = (samplePower x :: s.kin.recent).take 10
      ∧ (s.sensed x).kin.budget = s.kin.budget ∧ (s.sensed x).kpr.pLimit = s.kpr.pLimit ∧ (s.sensed x).pwr = s.pwr := by
  unfold State.sensed
  extract_lets u v w y low
  have voted : v.kpr = u.kpr ∧ v.kin.sensors = s.kin.sensors ∧ v.kin.recent = s.kin.recent ∧ v.kin.budget = s.kin.budget
      ∧ v.pwr = s.pwr := by
    unfold v
    split
    · exact ⟨rfl, rfl, rfl, rfl, rfl⟩
    · obtain ⟨kpr, sensors, recent, budget, pwr, -⟩ := outvote_keep u _ _
      exact ⟨kpr, sensors, recent, budget, pwr⟩
  obtain ⟨kpr, sensors, recent, budget, pwr⟩ := voted
  clear_value v
  refine ⟨congrArg Kpr.sample kpr, ?_, ?_, ?_, budget, (congrArg Kpr.pLimit kpr :), pwr⟩
  · show List.zipWith filterReading v.kin.sensors x.thermal = _
    rw [sensors]
  · show hotSpot _ v.kpr.tHot = _
    rw [kpr]
    rfl
  · show (samplePower x :: v.kin.recent).take 10 = _
    rw [recent]

theorem State.stacksSampled_ev (s : State) (x : Sample) : Ev [.mem, .stks, .map] s (s.stacksSampled x) :=
  Ev.foldl _ (fun _ _ e => Ev.then (State.stackSample_ev ..) e rfl) _ _ (Ev.refl s)

/-- The more restrictive choice leaves the readings alone, loosens nothing, and holds the grades under the cap. -/
theorem State.restrict_facts (s : State) (x : CopyView) :
    DK s (s.restrict x) ∧ (s.kin.alarm = true → (s.restrict x).kin.alarm = true)
      ∧ (s.kpr.throttle = 3 → (s.restrict x).kpr.throttle = 3) ∧ (s.restrict x).kpr.gradeCap ≤ s.kpr.gradeCap
      ∧ (s.restrict x).kpr.sprintOn = s.kpr.sprintOn ∧ (s.restrict x).kpr.vReq ≤ s.kpr.vReq := by
  unfold State.restrict
  extract_lets u v more
  have wear : Ev [.svc, .log, .mem, .far, .mirror] v (more.foldl (fun s y =>
      (s.onFar (fun f => { f with wear := vmod f.wear y.2 (fun w => { w with written := y.1 }) })).wearCheck
        (vget s.far.wear y.2).serial) v) :=
    Ev.foldl _ (fun a y e => Ev.then (State.wearCheck_ev ..) (Ev.then (State.onFar_ev a _) e rfl) rfl) _ _ (Ev.refl v)
  have kpr : _ = v.kpr := wear.frame .kpr rfl
  have kin : _ = v.kin := wear.frame .kin rfl
  generalize more.foldl _ v = t at kpr kin
  refine ⟨⟨(congrArg KprIn.sensors kin :), (congrArg KprIn.recent kin :), (congrArg KprIn.budget kin :), (congrArg Kpr.tHot kpr :),
    (congrArg Kpr.sample kpr :), (congrArg Kpr.pLimit kpr :)⟩, fun alarm => ?_, fun three => ?_, ?_, (congrArg Kpr.sprintOn kpr :), ?_⟩
  · refine (congrArg KprIn.alarm kin).trans ?_
    show (s.kin.alarm || x.alarm) = true
    rw [alarm]
    rfl
  · refine (congrArg Kpr.throttle kpr).trans ?_
    show max s.kpr.throttle (min 3 x.throttle) = 3
    omega
  · exact Nat.le_trans (Nat.le_of_eq (congrArg Kpr.gradeCap kpr)) (Nat.min_le_left ..)
  · exact Nat.le_trans (Nat.le_of_eq (congrArg Kpr.vReq kpr)) (Nat.min_le_left ..)

theorem State.restricted_facts (s : State) (x : Sample) :
    DK s (s.restricted x) ∧ (s.kin.alarm = true → (s.restricted x).kin.alarm = true)
      ∧ (s.kpr.throttle = 3 → (s.restricted x).kpr.throttle = 3) ∧ (s.restricted x).kpr.gradeCap ≤ s.kpr.gradeCap
      ∧ (s.restricted x).kpr.sprintOn = s.kpr.sprintOn ∧ (s.restricted x).kpr.vReq ≤ s.kpr.vReq
      ∧ ((∀ c < 8, (s.core c).grade ≤ s.kpr.gradeCap) → ∀ c < 8, ((s.restricted x).core c).grade ≤ (s.restricted x).kpr.gradeCap) := by
  unfold State.restricted
  split
  · obtain ⟨kept, alarm, throttle, cap, sprint, request⟩ := s.restrict_facts x.other
    have under : DK (s.restrict x.other) (s.restrict x.other).underCap := ⟨rfl, rfl, rfl, rfl, rfl, rfl⟩
    exact ⟨under.trans kept, alarm, throttle, cap, sprint, request, fun _ c hc => underCap_grade _ c hc⟩
  · exact ⟨DK.refl s, id, id, Nat.le_refl _, rfl, Nat.le_refl _, id⟩

/-- What a sample makes hold, stage by stage. -/
theorem keeperSample_facts {s : State} (past : s.start.stage ≠ 0) (x : Sample) :
    ∃ t, exec (.keeperSample x) s = .next t ∧ t.kpr.sample = (s.kpr.sample + 1) % 2 ^ 48
      ∧ t.kin.sensors = List.zipWith filterReading s.kin.sensors x.thermal ∧ t.kpr.tHot = hotSpot t.kin.sensors s.kpr.tHot
      ∧ t.kin.recent = (samplePower x :: s.kin.recent).take 10
      ∧ t.kin.budget = min 30000000000000 (s.kin.budget + s.kpr.pLimit * 1000000 - samplePower x)
      ∧ (∀ c < 8, (t.core c).grade ≤ t.kpr.gradeCap)
      ∧ (x.chipAlarm = true ∨ 105 ≤ t.kpr.tHot → t.kin.alarm = true ∧ t.kpr.throttle = 3 ∧ t.kpr.gradeCap = 0
        ∧ t.kpr.sprintOn = false ∧ (s.pwr.state = .active ∨ s.pwr.state = .arraysOff → t.kpr.vReq ≤ 120)) := by
  refine ⟨_, execKeeperSample_past past x, ?_⟩
  obtain ⟨sample, sensors, hot, recent, budget, limit, pwr⟩ := s.sensed_facts x
  generalize s.sensed x = a at *
  obtain ⟨decided, grades, alarmed⟩ := decide_facts a x (samplePower x)
  generalize a.decide_ x (samplePower x) = b at *
  have warmed := b.stacksSampled_ev x
  have warmed_kpr : (b.stacksSampled x).kpr = b.kpr := warmed.frame .kpr rfl
  have warmed_kin : (b.stacksSampled x).kin = b.kin := warmed.frame .kin rfl
  have warmed_cores : (b.stacksSampled x).cores = b.cores := warmed.frame .cores rfl
  generalize b.stacksSampled x = c at *
  obtain ⟨kpr, cores, acc_sensors, acc_recent, acc_alarm, acc_budget⟩ := account_end c (c.accounted x) (samplePower x) x.rate rfl
  generalize c.accounted x = d at *
  obtain ⟨kept, keeps_alarm, keeps_throttle, cap, sprint, request, under⟩ := d.restricted_facts x
  have grades_d : ∀ c < 8, (d.core c).grade ≤ d.kpr.gradeCap := by
    intro i hi
    rw [State.core, cores, warmed_cores, kpr, warmed_kpr]
    exact grades i hi
  generalize d.restricted x = e at *
  rw [warmed_kpr] at kpr
  have hot_e : e.kpr.tHot = a.kpr.tHot := by rw [kept.tHot, kpr, decided.tHot]
  have sensors_e : e.kin.sensors = a.kin.sensors := by rw [kept.sensors, acc_sensors, warmed_kin, decided.sensors]
  refine ⟨?_, ?_, ?_, ?_, ?_, under grades_d, fun cause => ?_⟩
  · exact (kept.sample.trans ((congrArg Kpr.sample kpr).trans decided.sample)).trans sample
  · exact sensors_e.trans sensors
  · show e.kpr.tHot = hotSpot e.kin.sensors _
    rw [hot_e, sensors_e, hot]
  · show e.kin.recent = _
    rw [kept.recent, acc_recent, warmed_kin, decided.recent, recent]
  · show e.kin.budget = _
    rw [kept.budget, acc_budget, warmed_kin, warmed_kpr, decided.budget, decided.pLimit, budget, limit]
    rfl
  · obtain ⟨alarm, throttle, zero, off, low⟩ := alarmed (cause.imp id (fun h => hot_e ▸ h))
    refine ⟨keeps_alarm ?_, keeps_throttle ?_, ?_, ?_, fun awake => ?_⟩
    · rw [acc_alarm, warmed_kin, alarm]
    · rw [kpr, throttle]
    · exact Nat.le_zero.1 (Nat.le_trans cap (Nat.le_of_eq (by rw [kpr, zero])))
    · exact sprint.trans (by rw [kpr, off])
    · exact Nat.le_trans request (by rw [kpr]; exact low (pwr ▸ awake))

end Sys2Proof.Machine
end
section
/-! SUPPORT. The keeper's other rows (R414, R415, R417, R418, R422, R424, R430, R471). -/
namespace Sys2Proof.Machine

theorem State.endSprint_on {s : State} (on : s.kpr.sprintOn = true) (reason : Nat) : s.endSprint reason
    = (s.onKpr (fun k => { k with
        sprintOn := false, reason := reason, vReq := min k.vReq (sustCode k), vTarget := min k.vReq (sustCode k) })).onKin
      (fun i => { i with cont := 0 }) :=
  if_neg (by simp [on])

theorem State.endSprint_facts (s : State) (reason : Nat) :
    (s.endSprint reason).kpr.sprintOn = false ∧ (s.endSprint reason).kin.vFault = s.kin.vFault := by
  cases on : s.kpr.sprintOn with
  | true =>
    rw [s.endSprint_on on]
    exact ⟨rfl, rfl⟩
  | false =>
    rw [show s.endSprint reason = s from if_pos (by simp [on])]
    exact ⟨on, rfl⟩

theorem logInternal_seq (s : State) (action kind unit : Nat) :
    (s.logInternal action kind unit).log.nextSeq = (s.log.nextSeq + 1) % 2 ^ 32 := logRec_seq ..

/-- The end of sprint that a low VDD_ARR brings (R415). -/
def State.lowVddEnds (s : State) : State := ((s.onKin (fun i => { i with vFault := true })).endSprint 7).driveRequest

theorem execVoltageMonitorAlarm_low {s : State} (low : 3 ≤ s.kin.lowV) (first : s.kin.vFault = false) :
    exec .voltageMonitorAlarm s = .next (s.lowVddEnds.logInternal 9 0 0) :=
  next_congr (if_neg (by simp [first]; omega))

theorem State.lowVddEnds_ev (s : State) : Ev [.kpr, .kin] s s.lowVddEnds :=
  Ev.then (State.driveRequest_ev _) (Ev.then (State.endSprint_ev _ _) ((s.onKin_ev _).mono rfl) rfl) rfl

/-- A telemetry record's store (R430). -/
theorem execTelemetryRecord_due {s : State} (runs : blkRuns s = true) (due : s.kpr.sample % 100 = 0) (v : Option Nat) (k : Option Int)
    (work filler : Nat) : exec (.telemetryRecord v k work filler) s
      = .next (((s.onKin (·.atRecord v k work filler)).store (0x0C040000 + 64 * (s.kpr.sample / 100 % 4096))
          (natLe (telemetryWord (s.onKin (·.atRecord v k work filler))) 64)).onKin
        (fun i => { i with pMin := 0, pMax := 0, rateSum := 0, rateN := 0, workN := 0, fillN := 0 })) :=
  next_congr (if_neg (by simp [runs, due]))

/-- The bytes of the wear counters (R424; log 83). -/
def wearBytes (i : KprIn) : List Byte := natLe i.sprintCs 8 ++ (natLe i.poweredS 8 ++ natLe i.ageS 8)

/-- The wear counters copied to their mirror (R424). -/
def State.wearMirrored (s : State) : State :=
  s.onMirror (fun x => { x with sprintCs := s.kin.sprintCs, poweredS := s.kin.poweredS, ageS := s.kin.ageS })

theorem wearBytes_length (i : KprIn) : (wearBytes i).length = 24 := by
  simp only [wearBytes, List.length_append, length_natLe]

theorem execWearMirror_due {s : State} (runs : blkRuns s = true) (due : s.kpr.sample % 1000 = 0) (trained : 2 < s.start.stage) :
    exec .wearMirror s = .next (s.wearMirrored.store 0x0C088000 (wearBytes s.kin)) := by
  refine next_congr ((if_neg (by simp [runs, due])).trans ((if_neg (Nat.not_le.2 trained)).trans ?_))
  rw [List.append_assoc]
  rfl

theorem rangeFrom_append : ∀ (n k lo : Nat), rangeFrom lo (n + k) = rangeFrom lo n ++ rangeFrom (lo + n) k
  | 0, k, lo => by simp [rangeFrom]
  | n + 1, k, lo => by
    rw [Nat.succ_add]
    show lo :: rangeFrom (lo + 1) (n + k) = lo :: (rangeFrom (lo + 1) n ++ rangeFrom (lo + (n + 1)) k)
    rw [rangeFrom_append n k (lo + 1), Nat.add_right_comm lo 1 n]
    rfl

theorem MemSt.readBytes_length (m : MemSt) (a n : Nat) : (m.readBytes a n).length = n := by
  rw [MemSt.readBytes, List.length_map, length_rangeFrom]

/-- A run read as two strings of bytes in turn. -/
theorem MemSt.readBytes_two {m : MemSt} {a : Nat} {l r : List Byte} (h : m.readBytes a (l ++ r).length = l ++ r) :
    m.readBytes a l.length = l ∧ m.readBytes (a + l.length) r.length = r := by
  rw [List.length_append, MemSt.readBytes, rangeFrom_append, List.map_append] at h
  exact List.append_inj h (m.readBytes_length a l.length)

theorem MemSt.readNat_of_bytes {m : MemSt} {a w n : Nat} (h : m.readBytes a n = natLe w n) : m.readNat a n = w % 256 ^ n := by
  rw [MemSt.readNat, h, leNat_natLe]

theorem readBytes_wear {m : MemSt} {i : KprIn} {a : Nat} (h : m.readBytes a (wearBytes i).length = wearBytes i) :
    m.readNat a 8 = i.sprintCs % 2 ^ 64 ∧ m.readNat (a + 8) 8 = i.poweredS % 2 ^ 64 ∧ m.readNat (a + 16) 8 = i.ageS % 2 ^ 64 := by
  obtain ⟨sprint, rest⟩ := MemSt.readBytes_two h
  obtain ⟨powered, age⟩ := MemSt.readBytes_two rest
  rw [length_natLe] at sprint powered age
  exact ⟨MemSt.readNat_of_bytes sprint, MemSt.readNat_of_bytes powered, MemSt.readNat_of_bytes age⟩

/-- Settles O53: one equation per row; a sample's stages in turn, and the frames of the others' operations. -/
theorem keeperRules : Obligations.KeeperRules := by
  intro s
  refine ⟨fun x past => keeperSample_facts past x, fun rises => ?step, fun done => ?still, fun long on => ?sprint, ?clear,
    fun low first => ?low, fun i v n f at_i => ?sensor, fun runs due v k work filler => ?telemetry, fun runs due trained => ?wear⟩
  case step =>
    have run : exec .voltageStep s = .next (s.onKpr (fun k => { k with vReq := k.vReq + 1 })).driveRequest :=
      next_congr (if_pos rises)
    exact ⟨_, run, rfl, (execVoltageStep_ev s run).frame⟩
  case still => exact next_congr (if_neg (Nat.not_lt.2 done))
  case sprint =>
    have run : exec .sprintContinuousLimit s = .next (s.endSprint 4).driveRequest := next_congr (if_pos long)
    have frame := (execSprintContinuousLimit_ev s run).frame
    rw [s.endSprint_on on] at run frame
    exact ⟨_, run, rfl, rfl, rfl, rfl, frame⟩
  case clear => exact ⟨_, rfl, rfl, rfl, (execThrottleClear_ev s rfl).frame⟩
  case low =>
    obtain ⟨off, fault⟩ := (s.onKin (fun i => { i with vFault := true })).endSprint_facts 7
    have logged := s.lowVddEnds.logInternal_ev 9 0 0
    have kin : (s.lowVddEnds.logInternal 9 0 0).kin.vFault = true :=
      (congrArg KprIn.vFault (logged.frame .kin rfl)).trans fault
    refine ⟨_, execVoltageMonitorAlarm_low low first, kin, (congrArg Kpr.sprintOn (logged.frame .kpr rfl)).trans off, ?_, ?_⟩
    · simp only [keeperAlert, kin, Bool.or_true, Bool.true_or]
    · rw [logInternal_seq, s.lowVddEnds_ev.frame .log rfl]
  case sensor =>
    refine ⟨_, rfl, ?_, fun j other => ?_, (execSensorFailed_ev i s rfl).frame⟩
    · exact (List.getElem?_modify_eq ..).trans (by rw [at_i]; rfl)
    · exact List.getElem?_modify_ne _ _ (Ne.symm other)
  case telemetry =>
    have run := execTelemetryRecord_due runs due v k work filler
    refine ⟨_, run, State.store_readNat .., ?_, rfl, rfl, rfl, (execTelemetryRecord_ev v k work filler s run).frame⟩
    have outside := (s.onKin (·.atRecord v k work filler)).store_outside (0x0C040000 + 64 * (s.kpr.sample / 100 % 4096))
      (natLe (telemetryWord (s.onKin (·.atRecord v k work filler))) 64)
    rw [length_natLe] at outside
    exact outside
  case wear =>
    have run := execWearMirror_due runs due trained
    obtain ⟨sprint, powered, age⟩ := readBytes_wear (a := 0x0C088000) (store_read _ 0x0C088000 (wearBytes s.kin))
    have outside := s.wearMirrored.store_outside 0x0C088000 (wearBytes s.kin)
    rw [wearBytes_length] at outside
    exact ⟨_, run, (State.store_ev ..).frame .mirror rfl, sprint, powered, age, outside, (execWearMirror_ev s run).frame⟩

end Sys2Proof.Machine
end
